-- ==== Sys2Proof/Word.lean ====
section
/-!
DEFINITION. The word types of the Ranzia Poane model (spec R4, R21).
-/

namespace Sys2Proof

/-- A 64-bit scalar register value, far address or CSR value (R21, R100). -/
abbrev Word := BitVec 64

/-- One byte of memory (R117). -/
abbrev Byte := BitVec 8

end Sys2Proof
end

