-- ==== Sys2Proof/Syntax.lean ====
section
/-!
DEFINITION. The instructions and the machine's own steps: one constructor of `Instr` for each row of
spec/opcode_table.json. The first 102 are control-stream words (R231 to R243), then three firmware
services (R216), 78 block words (R244 to R249) and 54 events of the machine's other agents
(spec/95_what_each_step_holds.md).
-/

namespace Sys2Proof

/-- A scalar register x0 to x31 (R21). -/
abbrev Reg := Fin 32
/-- A vector register v0 to v63 (R21). -/
abbrev VIx := Fin 64
/-- A predicate register p0 to p63 (R21). -/
abbrev PIx := Fin 64
/-- A residency register h0 to h15 (R21). -/
abbrev HIx := Fin 16
/-- A loop counter k0 to k7 (R77). -/
abbrev KIx := Fin 8
/-- A stream slot z0 to z7 (R21). -/
abbrev ZIx := Fin 8

/-- Scalar floating-point precision (R239). -/
inductive Prec where
  | d | s | h | b
  deriving DecidableEq, Repr

/-- The six operand codes of `FCVT` (R287): four floats, s64 and n64. -/
inductive CvtTy where
  | d | s | h | b | l | n
  deriving DecidableEq, Repr

/-- The rm field of scalar floating point (R239). -/
inductive Rm where
  | rne | rtz | rdn | rup | rna | dyn
  deriving DecidableEq, Repr

/-- Access size of `LD` and `ST` (R237). -/
inductive Size where
  | b | h | w | d
  deriving DecidableEq, Repr

/-- The atomic operations of `AMO` and `VAMO` (R106). -/
inductive AmoOp where
  | add | and | or | xor | min | max | minn | maxn | swp | cas | fadd
  deriving DecidableEq, Repr

/-- The order field of `AMO` (R123). -/
inductive AmoOrder where
  | plain | aq | rel | sc
  deriving DecidableEq, Repr

/-- A scope (R127). -/
inductive Scope where
  | hart | stead | die | dev | sys
  deriving DecidableEq, Repr

/-- The kind of a `FENCE` (R126). -/
inductive FenceKind where
  | acq | rel | ar | sc
  deriving DecidableEq, Repr

/-- The conditions of `VCMP` and `VFCMP` (R247). -/
inductive Cond where
  | eq | ne | lt | le | gt | ge | ltn | gen | unord
  deriving DecidableEq, Repr

/-- The kinds of `VSHI` (R247). -/
inductive ShKind where
  | sll | srl | sra
  deriving DecidableEq, Repr

/-- The operations of `PLOG` (R247). -/
inductive LogOp where
  | and | or | xor | andn
  deriving DecidableEq, Repr

/-- Order of a far vector load (R105). -/
inductive LdOrd where
  | plain | aq | sc
  deriving DecidableEq, Repr

/-- Order of a far vector store (R105): `ascending` is the order the manual calls prefix. -/
inductive StOrd where
  | ascending | u | sc
  deriving DecidableEq, Repr

/-- Order of a `VAMO` (R105). -/
inductive VamoOrd where
  | plain | ar | sc
  deriving DecidableEq, Repr

/-- The common fields of a block word (R244, R245): convoy mark, governing predicate with its zeroing and
inversion bits, length register and format register. -/
structure Blk where
  c  : Bool := false
  pg : PIx := 0
  pz : Bool := false
  pn : Bool := false
  xl : Reg := 0
  xf : Reg := 0
  deriving DecidableEq, Repr

/-- The trap causes of R181. -/
inductive Cause where
  | illegal | illegalv | convoy | priv | align | xfault | region | sheaf | sheafcfg | loftfull | fmt | matt
  | mdata | stream | quota | poison | granary | sieve | numthr | brk | step | trap | engine
  deriving DecidableEq, Repr

/-- A partition record as the host driver or the supervisor writes it (R140), with the two table roots that the
host driver and the supervisor own (R103). Per-stead bytes are lists by stead. -/
structure PartRec where
  htab   : Nat := 0
  bins   : Nat := 0
  nq     : Nat := 0
  tenant : Nat := 0
  hfloor : Nat := 0
  hceil  : Nat := 1
  quota  : Nat := 0
  target : Nat := 0
  weight : Nat := 1
  slice  : Nat := 1
  qfloor : List Nat := []
  qceil  : List Nat := []
  rows   : List Nat := []
  /-- The bytes that must be zero (17 and 127:72), as their values. -/
  zeros  : List Byte := []
  /-- Roots of the first and of the second stage's table. DESIGN CHOICE: notes/assumptions/6. -/
  root1  : Nat := 0
  root2  : Nat := 0
  deriving DecidableEq, Repr

/-- A Granary field record as the host driver writes it (R160). -/
structure FieldRec where
  seed  : Word := 0
  g     : Nat := 2
  home  : Nat := 0
  pages : Nat := 0
  nodes : Nat := 1
  view  : Word := 0
  /-- The bytes that must be zero (11:10, 23:20 and 63:32), as their values. -/
  zeros : List Byte := []
  deriving DecidableEq, Repr

/-- How an error on a memory line ends (R210, R212): ECC corrects it, in the row of a bank; the parity rebuild gives the
line back; or neither does. -/
inductive ErrorKind where
  | corrected (bank row : Nat)
  | rebuilt
  | lost
  deriving DecidableEq, Repr

/-- An error on the memory line that holds a physical address (R210). -/
structure LineError where
  pa : Nat
  kind : ErrorKind
  deriving DecidableEq, Repr

/-- The units in service after bring-up (R1, R214): steads, quads of a stead, HBM stacks. -/
structure Units where
  steads : Nat := 12
  quads : Nat := 64
  stackCount : Nat := 12
  deriving DecidableEq, Repr

/-- What bring-up finds behind the first image (R214, R217): the later images and the units in service. -/
structure BringUp where
  later : List (List Byte)
  units : Units := {}
  deriving DecidableEq, Repr

/-- What a remote device asks of this chip (R205, R113): the bytes of a line, a write-back, or a fold. -/
inductive RemoteOp where
  | read (n : Nat)
  | write (bytes : List Byte)
  | fold (fmt : BitVec 6) (value : Word)
  deriving DecidableEq, Repr

/-- A remote access to block `block` of (tenant, tier), at byte `off` of the block (R113, R205). -/
structure RemoteReq where
  tenant : Nat
  tier   : Nat
  block  : Nat
  off    : Nat
  op     : RemoteOp
  deriving DecidableEq, Repr

/-- What the host does through its port (R116, R215): read or write bytes at a physical address, or take records
out of a virtual function's event queue. -/
inductive HostReq where
  | read (pa : Nat) (n : Nat)
  | write (pa : Nat) (bytes : List Byte) (sysRelease : Bool)
  | takeEvents (vf : Nat) (n : Nat)
  deriving DecidableEq, Repr

/-- What another chip answers for a remote line (R113): its 64 bytes, or a failure. -/
inductive RemoteAnswer where
  | bytes (bs : List Byte)
  | failed
  deriving DecidableEq, Repr

/-- One constructor per row of the opcode table. -/
inductive Instr where
  -- Register-register integer operations (R264 to R266): destination, sources, the `.w` bit.
  | add (d a b : Reg) (w : Bool)
  | sub (d a b : Reg) (w : Bool)
  | and (d a b : Reg) (w : Bool)
  | or (d a b : Reg) (w : Bool)
  | xor (d a b : Reg) (w : Bool)
  | sll (d a b : Reg) (w : Bool)
  | srl (d a b : Reg) (w : Bool)
  | sra (d a b : Reg) (w : Bool)
  | slt (d a b : Reg) (w : Bool)
  | sltn (d a b : Reg) (w : Bool)
  | min (d a b : Reg) (w : Bool)
  | max (d a b : Reg) (w : Bool)
  | minn (d a b : Reg) (w : Bool)
  | maxn (d a b : Reg) (w : Bool)
  | mul (d a b : Reg) (w : Bool)
  | mulh (d a b : Reg) (w : Bool)
  | mulhn (d a b : Reg) (w : Bool)
  | div (d a b : Reg) (w : Bool)
  | divn (d a b : Reg) (w : Bool)
  | rem (d a b : Reg) (w : Bool)
  | remn (d a b : Reg) (w : Bool)
  | clz (d a : Reg) (w : Bool)
  | ctz (d a : Reg) (w : Bool)
  | popc (d a : Reg) (w : Bool)
  -- Immediate operations (R267, R268).
  | addi (d a : Reg) (imm : BitVec 16)
  | andi (d a : Reg) (imm : BitVec 16)
  | ori (d a : Reg) (imm : BitVec 16)
  | xori (d a : Reg) (imm : BitVec 16)
  | slti (d a : Reg) (imm : BitVec 16)
  | slli (d a : Reg) (n : BitVec 6)
  | srli (d a : Reg) (n : BitVec 6)
  | srai (d a : Reg) (n : BitVec 6)
  | lui (d : Reg) (imm : BitVec 16)
  | auipc (d : Reg) (imm : BitVec 16)
  -- Scalar floating point (R283 to R289).
  | fadd (p : Prec) (m : Rm) (d a b : Reg)
  | fsub (p : Prec) (m : Rm) (d a b : Reg)
  | fmul (p : Prec) (m : Rm) (d a b : Reg)
  | fdiv (p : Prec) (m : Rm) (d a b : Reg)
  | fsqrt (p : Prec) (m : Rm) (d a : Reg)
  | fmin (p : Prec) (m : Rm) (d a b : Reg)
  | fmax (p : Prec) (m : Rm) (d a b : Reg)
  | feq (p : Prec) (m : Rm) (d a b : Reg)
  | flt (p : Prec) (m : Rm) (d a b : Reg)
  | fle (p : Prec) (m : Rm) (d a b : Reg)
  | fcvt (dst src : CvtTy) (m : Rm) (d a : Reg)
  | fmaOpcode0d (p : Prec) (np nc : Bool) (m : Rm) (d a b c : Reg)
  | fmaOpcode0e (p : Prec) (np nc : Bool) (m : Rm) (d a b c : Reg)
  -- Scalar memory (R311, R330, R272, R126).
  | ld (z : Size) (sx aq : Bool) (d a : Reg) (off : BitVec 12)
  | st (z : Size) (rel : Bool) (d a : Reg) (off : BitVec 12)
  | amo (op : AmoOp) (dword : Bool) (ord : AmoOrder) (sc : Scope) (d a b : Reg)
  | fence (kind : FenceKind) (sc : Scope)
  -- Branches and jumps (R276, R306).
  | beq (a b : Reg) (off : BitVec 16)
  | bne (a b : Reg) (off : BitVec 16)
  | blt (a b : Reg) (off : BitVec 16)
  | bge (a b : Reg) (off : BitVec 16)
  | bltn (a b : Reg) (off : BitVec 16)
  | bgen (a b : Reg) (off : BitVec 16)
  | jal (d : Reg) (off : BitVec 21)
  | jalr (d a : Reg) (imm : BitVec 16)
  -- Vector hand-off (R22, R27, R30).
  | vf (off : BitVec 26)
  | setl (d a : Reg) (fmt : BitVec 6) (keep : Bool)
  | vfr (a : Reg)
  | vget (d a : Reg) (fmt : BitVec 5) (va : VIx)
  -- Residency (R78).
  | hset (d : Reg) (h : HIx) (a : Reg)
  | hclr (h : HIx)
  | adv (k : KIx)
  | kset (k : KIx) (a b : Reg) (target : Option KIx)
  | havail (d : Reg) (h : HIx)
  | hflush (h : HIx)
  | hwait (h : HIx)
  | kget (d : Reg) (k : KIx) (sel : Fin 3)
  -- Flail rows (R44).
  | matt (d a : Reg)
  | mdet
  -- Farms and sequences (R138).
  | launch (d a : Reg)
  | exit
  | wait (a b : Reg)
  | yield
  | bar
  | strip (d : Reg)
  | seqnew (d a : Reg)
  | seqgrow (d a : Reg)
  | seqend (a : Reg)
  | seqendT (d a b : Reg)
  -- Granary (R163).
  | gfind (d a b : Reg)
  | gdep (d a : Reg)
  | gpin (d a b : Reg)
  | gunpin (d a b : Reg)
  | gload (d a b : Reg)
  | gdrop (d a b : Reg)
  -- Sieve (R173).
  | sbin (d a : Reg)
  | spair (d : Reg) (z : ZIx) (a b : Reg)
  | sstat (d a : Reg)
  -- Streams (R198).
  | sopen (d : Reg) (z : ZIx) (a : Reg)
  | sclose (z : ZIx)
  -- System (R242).
  | csrr (d : Reg) (n : BitVec 12)
  | csrw (n : BitVec 12) (a : Reg)
  | csrs (n : BitVec 12) (a : Reg)
  | csrc (n : BitVec 12) (a : Reg)
  | trap (code : BitVec 12)
  | tret
  | brk (code : BitVec 12)
  | pswap (d a b : Reg)
  -- Firmware services called by TRAP at level 1 (R216).
  | readLifetimeCounter
  | readMeasurementLog
  | postPartitionNotice
  -- Block markers (R366).
  | vstop
  | vnop (c : Bool)
  -- Vector integer arithmetic (R335 to R339, R345, R357, R377).
  | vadd (k : Blk) (vd va vb : VIx)
  | vsub (k : Blk) (vd va vb : VIx)
  | vmul (k : Blk) (vd va vb : VIx)
  | vmulh (k : Blk) (vd va vb : VIx)
  | vmin (k : Blk) (vd va vb : VIx)
  | vmax (k : Blk) (vd va vb : VIx)
  | vand (k : Blk) (vd va vb : VIx)
  | vor (k : Blk) (vd va vb : VIx)
  | vxor (k : Blk) (vd va vb : VIx)
  | vsll (k : Blk) (vd va vb : VIx)
  | vsrl (k : Blk) (vd va vb : VIx)
  | vsra (k : Blk) (vd va vb : VIx)
  | vadds (k : Blk) (vd va vb : VIx)
  | vsubs (k : Blk) (vd va vb : VIx)
  | vabsd (k : Blk) (vd va vb : VIx)
  | vmac (k : Blk) (vd va vb vc : VIx)
  | vcmp (k : Blk) (pd : PIx) (va vb : VIx) (cond : Cond)
  | vaddi (k : Blk) (vd va : VIx) (imm : BitVec 13)
  | vshi (k : Blk) (vd va : VIx) (kind : ShKind) (n : BitVec 7)
  | viota (k : Blk) (vd : VIx)
  -- Vector floating point (R351 to R355).
  | vfadd (k : Blk) (vd va vb : VIx)
  | vfsub (k : Blk) (vd va vb : VIx)
  | vfmul (k : Blk) (vd va vb : VIx)
  | vfma (k : Blk) (vd va vb vc : VIx) (np nc : Bool)
  | vfdiv (k : Blk) (vd va vb : VIx)
  | vfsqrt (k : Blk) (vd va : VIx)
  | vfrcp (k : Blk) (vd va : VIx)
  | vfrsq (k : Blk) (vd va : VIx)
  | vfexp2 (k : Blk) (vd va : VIx)
  | vfmin (k : Blk) (vd va vb : VIx)
  | vfmax (k : Blk) (vd va vb : VIx)
  | vfcmp (k : Blk) (pd : PIx) (va vb : VIx) (cond : Cond)
  | vfclass (k : Blk) (vd va : VIx)
  -- Conversions (R348, R370, R378).
  | vcvt (k : Blk) (vd va : VIx)
  | vslice (k : Blk) (vd va : VIx)
  | vunslice (k : Blk) (vd va : VIx)
  | vqscale (k : Blk) (vd va vb : VIx)
  -- Predicates (R320, R321).
  | plog (k : Blk) (pd pa pb : PIx) (op : LogOp)
  | ppopc (k : Blk) (vd : VIx) (pa : PIx)
  | pfirst (k : Blk) (vd : VIx) (pa : PIx)
  | pset (k : Blk) (pd : PIx)
  -- Moves, permutes, reductions (R344, R347, R364, R368, R371, R380).
  | vbcast (k : Blk) (vd : VIx) (xs : Reg)
  | vins (k : Blk) (vd : VIx) (xs xi : Reg)
  | vslup (k : Blk) (vd va : VIx) (xs : Reg)
  | vsldn (k : Blk) (vd va : VIx) (xs : Reg)
  | vperm (k : Blk) (vd va vb : VIx)
  | vcompr (k : Blk) (vd va : VIx) (pb : PIx)
  | vexpnd (k : Blk) (vd va : VIx) (pb : PIx)
  | vmerge (k : Blk) (vd va vb : VIx) (pc : PIx)
  | vmov (k : Blk) (vd va : VIx)
  | vredsum (k : Blk) (vd va : VIx) (ordered : Bool)
  | vredmax (k : Blk) (vd va : VIx)
  | vredmin (k : Blk) (vd va : VIx)
  | vscan (k : Blk) (vd va : VIx)
  | vtopk (k : Blk) (vd va : VIx) (xk : Reg) (nanlow : Bool)
  -- Sheaf accesses (R92).
  | vldh (k : Blk) (vd : VIx) (h : HIx) (xo xs : Reg) (a : Bool)
  | vsth (k : Blk) (va : VIx) (h : HIx) (xo xs : Reg)
  | vldhx (k : Blk) (vd : VIx) (h : HIx) (xo : Reg) (vb : VIx) (a : Bool)
  | vsthx (k : Blk) (va : VIx) (h : HIx) (xo : Reg) (vb : VIx)
  -- Far accesses (R105).
  | vldf (k : Blk) (vd : VIx) (xa xs : Reg) (ord : LdOrd)
  | vstf (k : Blk) (va : VIx) (xa xs : Reg) (ord : StOrd)
  | vldx (k : Blk) (vd : VIx) (xa : Reg) (vb : VIx) (s : Fin 4) (ord : LdOrd)
  | vstx (k : Blk) (va : VIx) (xa : Reg) (vb : VIx) (s : Fin 4) (ord : StOrd)
  | vamo (k : Blk) (op : AmoOp) (vd va : VIx) (xa : Reg) (vb : VIx) (s : Fin 4) (ord : VamoOrd) (vc : VIx)
  -- Lane tables (R110).
  | vldt (k : Blk) (vd : VIx) (xo : Reg) (vb : VIx)
  | vstt (k : Blk) (va : VIx) (xo : Reg) (vb : VIx)
  -- Streams (R178, R199).
  | vlds (k : Blk) (vd : VIx) (z : ZIx) (field : BitVec 3) (consume : Bool)
  | vsts (k : Blk) (va : VIx) (z : ZIx) (last : Bool)
  | hmask (k : Blk) (pd : PIx) (h : HIx) (xo : Reg)
  -- Flail (R314).
  | mopa (k : Blk) (va vb : VIx) (base : BitVec 7) (units : BitVec 4)
  | mopas (k : Blk) (va vb vc : VIx) (base : BitVec 7) (units : BitVec 4)
  | mrd (k : Blk) (vd : VIx) (row : BitVec 7)
  | mwr (k : Blk) (va : VIx) (row : BitVec 7)
  | mzero (k : Blk) (base : BitVec 7) (units : BitVec 4)
  | vsprune (k : Blk) (vd va vc : VIx)
  | vrope (k : Blk) (vd va vb vc : VIx) (xh : Reg)
  -- Steps of the scheduler (R133 to R159).
  | decision (p : Nat)
  | sliceEnd (p : Nat)
  | preEmption (h : Nat)
  | restore (h : Nat)
  | farmStart (p f : Nat)
  | hartPlacement (p f : Nat)
  | launchAcceptance (op : Nat)
  | completionWord (p f : Nat)
  | wakeRead (h : Nat)
  | hartDispatch (h : Nat)
  -- Steps of a hart (R182, R70).
  | trapEntry
  | windowReset (h : Nat)
  -- Steps of the Gleaner (R83 to R99, R128, R202).
  | harvestOrder (sid : Nat)
  | gleanerFetch (st : Nat)
  | lineArrival (fid : Nat) (remote : Option RemoteAnswer)
  | lineRelease (sid : Nat)
  | gleanerWriteBack (did : Nat)
  | gleanerFold (did : Nat)
  | multicastFill (fid : Nat)
  -- Steps of streams (R131, R177).
  | streamDelivery (h : Nat) (z : ZIx)
  | pairRecord (h : Nat) (z : ZIx)
  -- Steps of the Granary (R165 to R170).
  | gfindWalk (op : Nat)
  | answerStep (op : Nat)
  | adoption (op : Nat)
  | readyStep (op : Nat)
  | gpinService (op : Nat)
  | gunpinService (op : Nat)
  | gloadService (op : Nat)
  | gdropService (op : Nat)
  -- Steps of the Sieve (R175, R176).
  | binning (op : Nat)
  | streamOpen (op : Nat)
  | sstatService (op : Nat)
  -- Memory, host, firmware and links (R108, R115, R140, R160, R204 to R220).
  | poisoning (e : LineError)
  | intakeWatchdog (id : Nat)
  | pageInvalidation (p : Nat) (stage2 : Bool) (page : Nat)
  | pageScrub (page : Nat)
  | vfReset (vf : Nat) (pages : List Nat)
  | partitionRecordWrite (vf : Nat) (supervisor : Bool) (r : PartRec)
  | fieldCreate (p : Nat) (num : Fin 8) (r : FieldRec)
  | fieldRemove (p : Nat) (num : Fin 8)
  | exportEntryWrite (p : Nat) (tier : Fin 8) (base low : Word)
  | columnPowerChange (die : Fin 2) (pair : Fin 4) (on : Bool)
  | repairThresholdWrite (t : Nat)
  | rowRepair (bank row : Nat)
  | channelRetraining (channel : Nat)
  | channelFailure (channel : Nat)
  | operatingPointRequest (st mhz mv : Nat)
  | thermalCapStep (st tempC : Nat)
  | powerUp (image : List Byte) (rest : BringUp)
  | attestationReport (nonce : List Byte)
  | powerOnHour (tempC : Nat)
  | remoteAccess (r : RemoteReq)
  | hostAccess (r : HostReq)
  | partitionEnd (p : Nat)
  deriving DecidableEq, Repr

end Sys2Proof
end

