-- ==== Sys2Proof/Decode.lean ====
section
/-!
DEFINITION. The decoder, total on any word, and the encoder (spec R22, R27, R30, R44, R78, R92, R95, R105, R110,
R126, R138, R163, R173, R178, R185, R198, R199, R231 to R248). Words are natural numbers: bit 0 is the least
significant bit of the word. What is no instruction is refused by name; the fate of a refused word is the
machine's affair (R243, R249).
-/

namespace Sys2Proof

/-- Why a word is no instruction. -/
inductive DecodeErr where
  /-- The major opcode is "None" in R233. -/
  | noOpcode
  /-- The function, sub-function or operation is not assigned (R234, R239, R241, R242). -/
  | noFunction
  /-- A field the form does not use is not zero (R243). -/
  | reservedField
  /-- A field holds an undefined value (R243). -/
  | undefinedValue
  /-- The vop is not assigned (R246). -/
  | noVop
  /-- A block word's unused field or ext bit is not zero (R246, R247). -/
  | blockField
  /-- A block word's field holds a value out of range (R245, R247). -/
  | blockValue
  /-- A register group stands where it may not (R248). -/
  | blockGroup
  /-- A `VSTOP` word with another field set (R25). -/
  | badStop
  deriving DecidableEq, Repr

/-- The n-bit field of `w` whose lowest bit is bit `lo` (R4). -/
def fld (w lo n : Nat) : Nat := w / 2 ^ lo % 2 ^ n

/-- Bit `k` of `w`. -/
def bitAt (w k : Nat) : Bool := w / 2 ^ k % 2 == 1

/-- The scalar register named by the five bits from `lo`. -/
def regAt (w lo : Nat) : Reg := Fin.ofNat 32 (w / 2 ^ lo)

/-- The vector or predicate register named by the six bits from `lo`. -/
def vixAt (w lo : Nat) : VIx := Fin.ofNat 64 (w / 2 ^ lo)

/-- The value when a condition on the word holds, and the named refusal otherwise. -/
def okIf (c : Bool) (e : DecodeErr) (i : Instr) : Except DecodeErr Instr := if c then .ok i else .error e

/-- Precision codes (R239). -/
def precOf (n : Nat) : Prec := match n with | 0 => .d | 1 => .s | 2 => .h | _ => .b
/-- The number of a precision. -/
def precNum : Prec → Nat | .d => 0 | .s => 1 | .h => 2 | .b => 3
/-- rm codes (R239): 5 and 6 are undefined. -/
def rmOf (n : Nat) : Option Rm :=
  match n with | 0 => some .rne | 1 => some .rtz | 2 => some .rdn | 3 => some .rup | 4 => some .rna | 7 => some .dyn | _ => none
/-- The code of a rounding field. -/
def rmNum : Rm → Nat | .rne => 0 | .rtz => 1 | .rdn => 2 | .rup => 3 | .rna => 4 | .dyn => 7
/-- `FCVT` operand codes (R287). -/
def cvtOf (n : Nat) : Option CvtTy :=
  match n with | 0 => some .d | 1 => some .s | 2 => some .h | 3 => some .b | 4 => some .l | 5 => some .n | _ => none
/-- The code of an `FCVT` operand type. -/
def cvtNum : CvtTy → Nat | .d => 0 | .s => 1 | .h => 2 | .b => 3 | .l => 4 | .n => 5
/-- Whether an `FCVT` operand type is an integer. -/
def CvtTy.isInt : CvtTy → Bool | .l => true | .n => true | _ => false
/-- Size codes (R237). -/
def sizeOf4 (n : Nat) : Size := match n with | 0 => .b | 1 => .h | 2 => .w | _ => .d
/-- The code of a size. -/
def sizeNum : Size → Nat | .b => 0 | .h => 1 | .w => 2 | .d => 3
/-- AMO operation codes (R106). -/
def amoOf (n : Nat) : Option AmoOp :=
  match n with
  | 0 => some .add | 1 => some .and | 2 => some .or | 3 => some .xor | 4 => some .min | 5 => some .max
  | 6 => some .minn | 7 => some .maxn | 8 => some .swp | 9 => some .cas | 10 => some .fadd | _ => none
/-- The code of an AMO operation. -/
def amoNum : AmoOp → Nat
  | .add => 0 | .and => 1 | .or => 2 | .xor => 3 | .min => 4 | .max => 5 | .minn => 6 | .maxn => 7 | .swp => 8 | .cas => 9
  | .fadd => 10
/-- AMO order codes (R123). -/
def amoOrderOf (n : Nat) : AmoOrder := match n with | 0 => .plain | 1 => .aq | 2 => .rel | _ => .sc
/-- The code of an AMO order. -/
def amoOrderNum : AmoOrder → Nat | .plain => 0 | .aq => 1 | .rel => 2 | .sc => 3
/-- Scope codes (R127): 5 to 7 are undefined. -/
def scopeOf (n : Nat) : Option Scope :=
  match n with | 0 => some .hart | 1 => some .stead | 2 => some .die | 3 => some .dev | 4 => some .sys | _ => none
/-- The code of a scope. -/
def scopeNum : Scope → Nat | .hart => 0 | .stead => 1 | .die => 2 | .dev => 3 | .sys => 4
/-- Fence kinds (R126). -/
def fenceOf (n : Nat) : FenceKind := match n with | 0 => .acq | 1 => .rel | 2 => .ar | _ => .sc
/-- The code of a fence kind. -/
def fenceNum : FenceKind → Nat | .acq => 0 | .rel => 1 | .ar => 2 | .sc => 3
/-- Compare conditions (R247): 9 to 15 are undefined. -/
def condOf (n : Nat) : Option Cond :=
  match n with
  | 0 => some .eq | 1 => some .ne | 2 => some .lt | 3 => some .le | 4 => some .gt | 5 => some .ge | 6 => some .ltn
  | 7 => some .gen | 8 => some .unord | _ => none
/-- The code of a condition. -/
def condNum : Cond → Nat
  | .eq => 0 | .ne => 1 | .lt => 2 | .le => 3 | .gt => 4 | .ge => 5 | .ltn => 6 | .gen => 7 | .unord => 8
/-- `VSHI` kinds (R247): 3 is undefined. -/
def shKindOf (n : Nat) : Option ShKind := match n with | 0 => some .sll | 1 => some .srl | 2 => some .sra | _ => none
/-- The code of a shift kind. -/
def shKindNum : ShKind → Nat | .sll => 0 | .srl => 1 | .sra => 2
/-- `PLOG` operations (R247). -/
def logOf (n : Nat) : LogOp := match n with | 0 => .and | 1 => .or | 2 => .xor | _ => .andn
/-- The code of a predicate operation. -/
def logNum : LogOp → Nat | .and => 0 | .or => 1 | .xor => 2 | .andn => 3
/-- Orders of far vector loads (R105): 3 is undefined. -/
def ldOrdOf (n : Nat) : Option LdOrd := match n with | 0 => some .plain | 1 => some .aq | 2 => some .sc | _ => none
/-- The code of a load order. -/
def ldOrdNum : LdOrd → Nat | .plain => 0 | .aq => 1 | .sc => 2
/-- Orders of far vector stores (R105): 3 is undefined. -/
def stOrdOf (n : Nat) : Option StOrd := match n with | 0 => some .ascending | 1 => some .u | 2 => some .sc | _ => none
/-- The code of a store order. -/
def stOrdNum : StOrd → Nat | .ascending => 0 | .u => 1 | .sc => 2
/-- Orders of `VAMO` (R105): 3 is undefined. -/
def vamoOrdOf (n : Nat) : Option VamoOrd := match n with | 0 => some .plain | 1 => some .ar | 2 => some .sc | _ => none
/-- The code of a `VAMO` order. -/
def vamoOrdNum : VamoOrd → Nat | .plain => 0 | .ar => 1 | .sc => 2

/-- OPR, major opcode 0x01 (R234). -/
def decodeOpr (w : Nat) : Except DecodeErr Instr :=
  let d := regAt w 21
  let a := regAt w 16
  let b := regAt w 11
  let q := bitAt w 10
  match fld w 0 10 with
  | 0 => .ok (.add d a b q)
  | 1 => .ok (.sub d a b q)
  | 2 => .ok (.and d a b q)
  | 3 => .ok (.or d a b q)
  | 4 => .ok (.xor d a b q)
  | 5 => .ok (.sll d a b q)
  | 6 => .ok (.srl d a b q)
  | 7 => .ok (.sra d a b q)
  | 8 => .ok (.slt d a b q)
  | 9 => .ok (.sltn d a b q)
  | 10 => .ok (.min d a b q)
  | 11 => .ok (.max d a b q)
  | 12 => .ok (.minn d a b q)
  | 13 => .ok (.maxn d a b q)
  | 14 => .ok (.mul d a b q)
  | 15 => .ok (.mulh d a b q)
  | 16 => .ok (.mulhn d a b q)
  | 17 => .ok (.div d a b q)
  | 18 => .ok (.divn d a b q)
  | 19 => .ok (.rem d a b q)
  | 20 => .ok (.remn d a b q)
  | 21 => okIf (fld w 11 5 == 0) .reservedField (.clz d a q)
  | 22 => okIf (fld w 11 5 == 0) .reservedField (.ctz d a q)
  | 23 => okIf (fld w 11 5 == 0) .reservedField (.popc d a q)
  | _ => .error .noFunction

/-- The Shift format, major opcode 0x07 (R235). -/
def decodeShift (w : Nat) : Except DecodeErr Instr :=
  let d := regAt w 21
  let a := regAt w 16
  let n := BitVec.ofNat 6 w
  if fld w 8 8 = 0 then
    match fld w 6 2 with
    | 0 => .ok (.slli d a n)
    | 1 => .ok (.srli d a n)
    | 2 => .ok (.srai d a n)
    | _ => .error .undefinedValue
  else .error .reservedField

/-- OPF, major opcode 0x0C (R239). -/
def decodeOpf (w : Nat) : Except DecodeErr Instr :=
  let d := regAt w 21
  let a := regAt w 16
  let b := regAt w 11
  let p := precOf (fld w 9 2)
  let op := fld w 0 6
  if 16 ≤ op then .error .noFunction
  else if 10 ≤ op then
    if fld w 9 2 = 0 then
      match cvtOf (op - 10), cvtOf (fld w 11 5), rmOf (fld w 6 3) with
      | some dst, some src, some m => okIf (dst != src && !(dst.isInt && src.isInt)) .undefinedValue (.fcvt dst src m d a)
      | _, _, _ => .error .undefinedValue
    else .error .reservedField
  else if op = 4 && fld w 11 5 != 0 then .error .reservedField
  else
    match rmOf (fld w 6 3) with
    | none => .error .undefinedValue
    | some m =>
      match op with
      | 0 => .ok (.fadd p m d a b)
      | 1 => .ok (.fsub p m d a b)
      | 2 => .ok (.fmul p m d a b)
      | 3 => .ok (.fdiv p m d a b)
      | 4 => .ok (.fsqrt p m d a)
      | 5 => .ok (.fmin p m d a b)
      | 6 => .ok (.fmax p m d a b)
      | 7 => .ok (.feq p m d a b)
      | 8 => .ok (.flt p m d a b)
      | _ => .ok (.fle p m d a b)

/-- The FMA format (R240): rm is (opcode - 0x0D) x 4 + bits 1:0. -/
def decodeFma (w : Nat) : Except DecodeErr Instr :=
  let d := regAt w 21
  let a := regAt w 16
  let b := regAt w 11
  let c := regAt w 6
  let p := precOf (fld w 4 2)
  let np := bitAt w 2
  let nc := bitAt w 3
  if fld w 26 6 = 13 then
    match rmOf (fld w 0 2) with
    | some m => .ok (.fmaOpcode0d p np nc m d a b c)
    | none => .error .undefinedValue
  else
    match rmOf (4 + fld w 0 2) with
    | some m => .ok (.fmaOpcode0e p np nc m d a b c)
    | none => .error .undefinedValue

/-- `AMO`, major opcode 0x12 (R238). -/
def decodeAmo (w : Nat) : Except DecodeErr Instr :=
  if fld w 0 1 = 0 then
    match amoOf (fld w 7 4), scopeOf (fld w 1 3) with
    | some op, some sc =>
      .ok (.amo op (bitAt w 6) (amoOrderOf (fld w 4 2)) sc (regAt w 21) (regAt w 16) (regAt w 11))
    | _, _ => .error .undefinedValue
  else .error .reservedField

/-- `FENCE`, major opcode 0x13 (R126). -/
def decodeFence (w : Nat) : Except DecodeErr Instr :=
  if fld w 6 20 = 0 && fld w 0 1 = 0 then
    match scopeOf (fld w 1 3) with
    | some sc => .ok (.fence (fenceOf (fld w 4 2)) sc)
    | none => .error .undefinedValue
  else .error .reservedField

/-- Major opcode 0x20 (R22, R27, R30). -/
def decode20 (w : Nat) : Except DecodeErr Instr :=
  match fld w 7 4 with
  | 0 => okIf (fld w 11 5 == 0) .reservedField (.setl (regAt w 21) (regAt w 16) (BitVec.ofNat 6 (w / 2)) (bitAt w 0))
  | 1 => okIf (fld w 21 5 == 0 && fld w 11 5 == 0 && fld w 0 7 == 0) .reservedField (.vfr (regAt w 16))
  | 2 => okIf (fld w 0 1 == 0) .reservedField
      (.vget (regAt w 21) (regAt w 16) (BitVec.ofNat 5 (w / 2 ^ 11)) (vixAt w 1))
  | _ => .error .noFunction

/-- Residency, major opcode 0x21 (R78). -/
def decode21 (w : Nat) : Except DecodeErr Instr :=
  let d := regAt w 21
  let a := regAt w 16
  let b := regAt w 11
  let h : HIx := Fin.ofNat 16 (w / 2 ^ 3)
  let c : KIx := Fin.ofNat 8 (w / 2 ^ 4)
  match fld w 7 4 with
  | 0 => okIf (fld w 11 5 == 0 && fld w 0 3 == 0) .reservedField (.hset d h a)
  | 1 => okIf (fld w 11 15 == 0 && fld w 0 3 == 0) .reservedField (.hclr h)
  | 2 => okIf (fld w 11 15 == 0 && fld w 0 4 == 0) .reservedField (.adv c)
  | 3 =>
    if fld w 21 1 = 0 && fld w 0 4 = 0 then
      if bitAt w 22 then .ok (.kset c a b (some (Fin.ofNat 8 (w / 2 ^ 23))))
      else okIf (fld w 23 3 == 0) .reservedField (.kset c a b none)
    else .error .reservedField
  | 4 => okIf (fld w 11 10 == 0 && fld w 0 3 == 0) .reservedField (.havail d h)
  | 5 => okIf (fld w 11 15 == 0 && fld w 0 3 == 0) .reservedField (.hflush h)
  | 6 => okIf (fld w 11 15 == 0 && fld w 0 3 == 0) .reservedField (.hwait h)
  | 7 =>
    if fld w 11 10 = 0 && fld w 0 2 = 0 then
      if h2 : fld w 2 2 < 3 then .ok (.kget d c ⟨fld w 2 2, h2⟩) else .error .undefinedValue
    else .error .reservedField
  | _ => .error .noFunction

/-- Flail rows, major opcode 0x22 (R44). -/
def decode22 (w : Nat) : Except DecodeErr Instr :=
  match fld w 7 4 with
  | 0 => okIf (fld w 11 5 == 0 && fld w 0 7 == 0) .reservedField (.matt (regAt w 21) (regAt w 16))
  | 1 => okIf (fld w 11 15 == 0 && fld w 0 7 == 0) .reservedField .mdet
  | _ => .error .noFunction

/-- Farms and sequences, major opcode 0x23 (R138). -/
def decode23 (w : Nat) : Except DecodeErr Instr :=
  let d := regAt w 21
  let a := regAt w 16
  let b := regAt w 11
  let low := fld w 0 7 == 0
  match fld w 7 4 with
  | 0 => okIf (fld w 11 5 == 0 && low) .reservedField (.launch d a)
  | 1 => okIf (fld w 11 15 == 0 && low) .reservedField .exit
  | 2 => okIf (fld w 21 5 == 0 && low) .reservedField (.wait a b)
  | 3 => okIf (fld w 11 15 == 0 && low) .reservedField .yield
  | 4 => okIf (fld w 11 15 == 0 && low) .reservedField .bar
  | 5 => okIf (fld w 11 10 == 0 && low) .reservedField (.strip d)
  | 6 => okIf (fld w 11 5 == 0 && low) .reservedField (.seqnew d a)
  | 7 => okIf (fld w 11 5 == 0 && low) .reservedField (.seqgrow d a)
  | 8 =>
    if bitAt w 6 then okIf (fld w 0 6 == 0) .reservedField (.seqendT d a b)
    else okIf (fld w 21 5 == 0 && fld w 11 5 == 0 && fld w 0 6 == 0) .reservedField (.seqend a)
  | _ => .error .noFunction

/-- Granary, major opcode 0x24 (R163). -/
def decode24 (w : Nat) : Except DecodeErr Instr :=
  let d := regAt w 21
  let a := regAt w 16
  let b := regAt w 11
  let low := fld w 0 7 == 0
  match fld w 7 4 with
  | 0 => okIf low .reservedField (.gfind d a b)
  | 1 => okIf (low && fld w 11 5 == 0) .reservedField (.gdep d a)
  | 2 => okIf low .reservedField (.gpin d a b)
  | 3 => okIf low .reservedField (.gunpin d a b)
  | 4 => okIf low .reservedField (.gload d a b)
  | 5 => okIf low .reservedField (.gdrop d a b)
  | _ => .error .noFunction

/-- Sieve, major opcode 0x25 (R173). -/
def decode25 (w : Nat) : Except DecodeErr Instr :=
  let d := regAt w 21
  let a := regAt w 16
  match fld w 7 4 with
  | 0 => okIf (fld w 11 5 == 0 && fld w 0 7 == 0) .reservedField (.sbin d a)
  | 1 => okIf (fld w 0 4 == 0) .reservedField (.spair d (Fin.ofNat 8 (w / 2 ^ 4)) a (regAt w 11))
  | 2 => okIf (fld w 11 5 == 0 && fld w 0 7 == 0) .reservedField (.sstat d a)
  | _ => .error .noFunction

/-- Streams, major opcode 0x26 (R198). -/
def decode26 (w : Nat) : Except DecodeErr Instr :=
  let z : ZIx := Fin.ofNat 8 (w / 2 ^ 4)
  match fld w 7 4 with
  | 0 => okIf (fld w 11 5 == 0 && fld w 0 4 == 0) .reservedField (.sopen (regAt w 21) z (regAt w 16))
  | 1 => okIf (fld w 11 15 == 0 && fld w 0 4 == 0) .reservedField (.sclose z)
  | _ => .error .noFunction

/-- SYS, major opcode 0x3E (R242, R185, R158). -/
def decodeSys (w : Nat) : Except DecodeErr Instr :=
  let d := regAt w 21
  let a := regAt w 16
  let n := BitVec.ofNat 12 (w / 2 ^ 4)
  match fld w 0 4 with
  | 0 => okIf (fld w 16 5 == 0) .reservedField (.csrr d n)
  | 1 => okIf (fld w 21 5 == 0) .reservedField (.csrw n a)
  | 2 => okIf (fld w 21 5 == 0) .reservedField (.csrs n a)
  | 3 => okIf (fld w 21 5 == 0) .reservedField (.csrc n a)
  | 4 => okIf (fld w 16 10 == 0) .reservedField (.trap n)
  | 5 => okIf (fld w 16 10 == 0 && fld w 4 12 == 0) .reservedField .tret
  | 6 => okIf (fld w 16 10 == 0) .reservedField (.brk n)
  | 7 => okIf (fld w 4 7 == 0) .reservedField (.pswap d a (regAt w 11))
  | _ => .error .noFunction

/-- A control-stream word (R233, checked in the order of R243). -/
def decodeControl (w : Nat) : Except DecodeErr Instr :=
  let d := regAt w 21
  let a := regAt w 16
  let imm := BitVec.ofNat 16 w
  match fld w 26 6 with
  | 0x01 => decodeOpr w
  | 0x02 => .ok (.addi d a imm)
  | 0x03 => .ok (.andi d a imm)
  | 0x04 => .ok (.ori d a imm)
  | 0x05 => .ok (.xori d a imm)
  | 0x06 => .ok (.slti d a imm)
  | 0x07 => decodeShift w
  | 0x08 => okIf (fld w 16 5 == 0) .reservedField (.lui d imm)
  | 0x09 => okIf (fld w 16 5 == 0) .reservedField (.auipc d imm)
  | 0x0C => decodeOpf w
  | 0x0D => decodeFma w
  | 0x0E => decodeFma w
  | 0x10 =>
    okIf (!(bitAt w 13 && fld w 14 2 == 3)) .undefinedValue
      (.ld (sizeOf4 (fld w 14 2)) (bitAt w 13) (bitAt w 12) d a (BitVec.ofNat 12 w))
  | 0x11 => okIf (!bitAt w 13) .reservedField (.st (sizeOf4 (fld w 14 2)) (bitAt w 12) d a (BitVec.ofNat 12 w))
  | 0x12 => decodeAmo w
  | 0x13 => decodeFence w
  | 0x14 => .ok (.beq d a imm)
  | 0x15 => .ok (.bne d a imm)
  | 0x16 => .ok (.blt d a imm)
  | 0x17 => .ok (.bge d a imm)
  | 0x18 => .ok (.bltn d a imm)
  | 0x19 => .ok (.bgen d a imm)
  | 0x1A => .ok (.jal d (BitVec.ofNat 21 w))
  | 0x1B => .ok (.jalr d a imm)
  | 0x1C => .ok (.vf (BitVec.ofNat 26 w))
  | 0x20 => decode20 w
  | 0x21 => decode21 w
  | 0x22 => decode22 w
  | 0x23 => decode23 w
  | 0x24 => decode24 w
  | 0x25 => decode25 w
  | 0x26 => decode26 w
  | 0x3E => decodeSys w
  | _ => .error .noOpcode

/-- The common fields of a block word (R244). -/
def blkAt (w : Nat) : Blk :=
  { c := bitAt w 55, pg := vixAt w 25, pz := bitAt w 24, pn := bitAt w 23, xl := regAt w 18, xf := regAt w 13 }

/-- Whether the six-bit register fields vd, va, vb, vc that the form does not use are zero (R246). -/
def unusedZero (w : Nat) (vd va vb vc : Bool) : Bool :=
  (vd || fld w 49 6 == 0) && (va || fld w 43 6 == 0) && (vb || fld w 37 6 == 0) && (vc || fld w 31 6 == 0)

/-- Whether pg, pz and pn are zero (R245). -/
def noPred (w : Nat) : Bool := fld w 23 8 == 0

/-- Three vector registers and no ext bit. -/
def form3 (w : Nat) (i : Instr) : Except DecodeErr Instr :=
  okIf (unusedZero w true true true false && fld w 0 13 == 0) .blockField i

/-- Two vector registers and no ext bit. -/
def form2 (w : Nat) (i : Instr) : Except DecodeErr Instr :=
  okIf (unusedZero w true true false false && fld w 0 13 == 0) .blockField i

/-- The block arithmetic vops 0x10 to 0x53 (R246, R247). -/
def decodeArith (w : Nat) : Except DecodeErr Instr :=
  let k := blkAt w
  let vd := vixAt w 49
  let va := vixAt w 43
  let vb := vixAt w 37
  let vc := vixAt w 31
  match fld w 56 8 with
  | 0x10 => form3 w (.vadd k vd va vb)
  | 0x11 => form3 w (.vsub k vd va vb)
  | 0x12 => form3 w (.vmul k vd va vb)
  | 0x13 => form3 w (.vmulh k vd va vb)
  | 0x14 => form3 w (.vmin k vd va vb)
  | 0x15 => form3 w (.vmax k vd va vb)
  | 0x16 => form3 w (.vand k vd va vb)
  | 0x17 => form3 w (.vor k vd va vb)
  | 0x18 => form3 w (.vxor k vd va vb)
  | 0x19 => form3 w (.vsll k vd va vb)
  | 0x1A => form3 w (.vsrl k vd va vb)
  | 0x1B => form3 w (.vsra k vd va vb)
  | 0x1C => form3 w (.vadds k vd va vb)
  | 0x1D => form3 w (.vsubs k vd va vb)
  | 0x1E => form3 w (.vabsd k vd va vb)
  | 0x1F => okIf (fld w 0 13 == 0) .blockField (.vmac k vd va vb vc)
  | 0x20 =>
    if unusedZero w true true true false && fld w 4 9 == 0 then
      match condOf (fld w 0 4) with
      | some c => okIf (c != .unord) .blockValue (.vcmp k vd va vb c)
      | none => .error .blockValue
    else .error .blockField
  | 0x21 => okIf (unusedZero w true true false false) .blockField (.vaddi k vd va (BitVec.ofNat 13 w))
  | 0x22 =>
    if unusedZero w true true false false && fld w 9 4 == 0 then
      match shKindOf (fld w 7 2) with
      | some q => .ok (.vshi k vd va q (BitVec.ofNat 7 w))
      | none => .error .blockValue
    else .error .blockField
  | 0x23 => okIf (unusedZero w true false false false && fld w 0 13 == 0) .blockField (.viota k vd)
  | 0x30 => form3 w (.vfadd k vd va vb)
  | 0x31 => form3 w (.vfsub k vd va vb)
  | 0x32 => form3 w (.vfmul k vd va vb)
  | 0x33 => okIf (fld w 2 11 == 0) .blockField (.vfma k vd va vb vc (bitAt w 0) (bitAt w 1))
  | 0x34 => form3 w (.vfdiv k vd va vb)
  | 0x35 => form2 w (.vfsqrt k vd va)
  | 0x36 => form2 w (.vfrcp k vd va)
  | 0x37 => form2 w (.vfrsq k vd va)
  | 0x38 => form2 w (.vfexp2 k vd va)
  | 0x39 => form3 w (.vfmin k vd va vb)
  | 0x3A => form3 w (.vfmax k vd va vb)
  | 0x3B =>
    if unusedZero w true true true false && fld w 4 9 == 0 then
      match condOf (fld w 0 4) with
      | some c => .ok (.vfcmp k vd va vb c)
      | none => .error .blockValue
    else .error .blockField
  | 0x3C => form2 w (.vfclass k vd va)
  | 0x50 => form2 w (.vcvt k vd va)
  | 0x51 => form2 w (.vslice k vd va)
  | 0x52 => form2 w (.vunslice k vd va)
  | 0x53 => form3 w (.vqscale k vd va vb)
  | _ => .error .noVop

/-- The predicate, permute and reduce vops 0x60 to 0x84 (R246, R247). -/
def decodePerm (w : Nat) : Except DecodeErr Instr :=
  let k := blkAt w
  let vd := vixAt w 49
  let va := vixAt w 43
  let vb := vixAt w 37
  let vc := vixAt w 31
  match fld w 56 8 with
  | 0x60 => okIf (unusedZero w true true true false && fld w 2 11 == 0) .blockField (.plog k vd va vb (logOf (fld w 0 2)))
  | 0x61 => form2 w (.ppopc k vd va)
  | 0x62 => form2 w (.pfirst k vd va)
  | 0x63 => okIf (unusedZero w true false false false && fld w 0 13 == 0) .blockField (.pset k vd)
  | 0x70 => okIf (unusedZero w true false false false && fld w 5 8 == 0) .blockField (.vbcast k vd (regAt w 0))
  | 0x71 => okIf (unusedZero w true true false false && fld w 5 8 == 0) .blockField (.vslup k vd va (regAt w 0))
  | 0x72 => okIf (unusedZero w true true false false && fld w 5 8 == 0) .blockField (.vsldn k vd va (regAt w 0))
  | 0x73 => form3 w (.vperm k vd va vb)
  | 0x74 => form3 w (.vcompr k vd va vb)
  | 0x75 => form3 w (.vexpnd k vd va vb)
  | 0x76 => okIf (fld w 0 13 == 0) .blockField (.vmerge k vd va vb vc)
  | 0x77 => form2 w (.vmov k vd va)
  | 0x78 => okIf (unusedZero w true false false false && fld w 10 3 == 0) .blockField (.vins k vd (regAt w 0) (regAt w 5))
  | 0x80 => okIf (unusedZero w true true false false && fld w 1 12 == 0) .blockField (.vredsum k vd va (bitAt w 0))
  | 0x81 => form2 w (.vredmax k vd va)
  | 0x82 => form2 w (.vredmin k vd va)
  | 0x83 => form2 w (.vscan k vd va)
  | 0x84 =>
    if unusedZero w true true false false && fld w 6 7 == 0 then
      okIf (fld w 49 1 == 0) .blockGroup (.vtopk k vd va (regAt w 0) (bitAt w 5))
    else .error .blockField
  | _ => .error .noVop

/-- The memory vops 0x90 to 0x9D (R92, R95, R105, R110, R178, R199). A vc field marked "x" above 31 is a value out
of range (R92, R245). -/
def decodeVmem (w : Nat) : Except DecodeErr Instr :=
  let k := blkAt w
  let vd := vixAt w 49
  let va := vixAt w 43
  let vb := vixAt w 37
  let vc := vixAt w 31
  let xs := regAt w 31
  let xsOk := fld w 36 1 == 0
  let h : HIx := Fin.ofNat 16 w
  let xo := regAt w 5
  let x0 := regAt w 0
  let s : Fin 4 := Fin.ofNat 4 (w / 2 ^ 7)
  match fld w 56 8 with
  | 0x90 =>
    if unusedZero w true false false true && fld w 10 3 == 0 then okIf xsOk .blockValue (.vldh k vd h xo xs (bitAt w 4))
    else .error .blockField
  | 0x91 =>
    if unusedZero w false true false true && fld w 10 3 == 0 && fld w 4 1 == 0 then okIf xsOk .blockValue (.vsth k va h xo xs)
    else .error .blockField
  | 0x92 => okIf (unusedZero w true false true false && fld w 10 3 == 0) .blockField (.vldhx k vd h xo vb (bitAt w 4))
  | 0x93 =>
    okIf (unusedZero w false true true false && fld w 10 3 == 0 && fld w 4 1 == 0) .blockField (.vsthx k va h xo vb)
  | 0x94 =>
    if unusedZero w true false false true && fld w 7 6 == 0 then
      match ldOrdOf (fld w 5 2) with
      | some o => okIf xsOk .blockValue (.vldf k vd x0 xs o)
      | none => .error .blockValue
    else .error .blockField
  | 0x95 =>
    if unusedZero w false true false true && fld w 7 6 == 0 then
      match stOrdOf (fld w 5 2) with
      | some o => okIf xsOk .blockValue (.vstf k va x0 xs o)
      | none => .error .blockValue
    else .error .blockField
  | 0x96 =>
    if unusedZero w true false true false && fld w 9 4 == 0 then
      match ldOrdOf (fld w 5 2) with
      | some o => .ok (.vldx k vd x0 vb s o)
      | none => .error .blockValue
    else .error .blockField
  | 0x97 =>
    if unusedZero w false true true false && fld w 9 4 == 0 then
      match stOrdOf (fld w 5 2) with
      | some o => .ok (.vstx k va x0 vb s o)
      | none => .error .blockValue
    else .error .blockField
  | 0x98 =>
    match amoOf (fld w 9 4), vamoOrdOf (fld w 5 2) with
    | some op, some o => okIf (op == .cas || fld w 31 6 == 0) .blockField (.vamo k op vd va x0 vb s o vc)
    | _, _ => .error .blockValue
  | 0x99 => okIf (unusedZero w true false true false && fld w 5 8 == 0) .blockField (.vldt k vd x0 vb)
  | 0x9A => okIf (unusedZero w false true true false && fld w 5 8 == 0) .blockField (.vstt k va x0 vb)
  | 0x9B =>
    if unusedZero w true false false false && fld w 7 6 == 0 then
      okIf (decide (fld w 3 3 < 6)) .blockValue (.vlds k vd (Fin.ofNat 8 w) (BitVec.ofNat 3 (w / 2 ^ 3)) (bitAt w 6))
    else .error .blockField
  | 0x9C =>
    okIf (unusedZero w false true false false && fld w 3 3 == 0 && fld w 7 6 == 0) .blockField
      (.vsts k va (Fin.ofNat 8 w) (bitAt w 6))
  | 0x9D =>
    if unusedZero w true false false false && fld w 4 1 == 0 && fld w 10 3 == 0 then
      okIf (fld w 49 6 != 0) .blockValue (.hmask k vd h xo)
    else .error .blockField
  | _ => .error .noVop

/-- The Flail vops, `VSPRUNE` and `VROPE` (R246 to R248). -/
def decodeFlail (w : Nat) : Except DecodeErr Instr :=
  let k := blkAt w
  let vd := vixAt w 49
  let va := vixAt w 43
  let vb := vixAt w 37
  let vc := vixAt w 31
  let base := BitVec.ofNat 7 w
  let units := BitVec.ofNat 4 (w / 2 ^ 7)
  let unitsOk := decide (1 ≤ fld w 7 4) && decide (fld w 7 4 ≤ 12)
  match fld w 56 8 with
  | 0xA0 =>
    if unusedZero w false true true false && noPred w && fld w 11 2 == 0 then
      if unitsOk then okIf (fld w 37 3 == 0) .blockGroup (.mopa k va vb base units) else .error .blockValue
    else .error .blockField
  | 0xA1 =>
    if unusedZero w false true true true && noPred w && fld w 11 2 == 0 then
      if unitsOk then okIf (fld w 37 2 == 0) .blockGroup (.mopas k va vb vc base units) else .error .blockValue
    else .error .blockField
  | 0xA2 => okIf (unusedZero w true false false false && noPred w && fld w 7 6 == 0) .blockField (.mrd k vd base)
  | 0xA3 => okIf (unusedZero w false true false false && noPred w && fld w 7 6 == 0) .blockField (.mwr k va base)
  | 0xA4 =>
    if unusedZero w false false false false && fld w 13 18 == 0 && fld w 11 2 == 0 then
      okIf unitsOk .blockValue (.mzero k base units)
    else .error .blockField
  | 0xA5 =>
    if unusedZero w true true false true && fld w 0 13 == 0 then
      okIf (fld w 49 6 != fld w 31 6) .blockGroup (.vsprune k vd va vc)
    else .error .blockField
  | 0xB0 => okIf (fld w 5 8 == 0) .blockField (.vrope k vd va vb vc (regAt w 0))
  | _ => .error .noVop

/-- A block word (R244 to R248; stage 1 of R249). -/
def decodeBlock (w : Nat) : Except DecodeErr Instr :=
  let v := fld w 56 8
  if v = 1 then okIf (fld w 0 56 == 0) .badStop .vstop
  else if v = 2 then okIf (fld w 0 55 == 0) .blockField (.vnop (bitAt w 55))
  else if v < 0x60 then decodeArith w
  else if v < 0x90 then decodePerm w
  else if v < 0xA0 then decodeVmem w
  else decodeFlail w

/-- The instruction the decoder reads from the row word of the host's question: 32 bits are a control-stream word,
64 bits a block word. -/
def decodeTableWord (nbits w : Nat) : Option Instr :=
  if nbits = 64 then
    match decodeBlock (w % 2 ^ 64) with
    | .ok i => some i
    | .error _ => none
  else
    match decodeControl (w % 2 ^ 32) with
    | .ok i => some i
    | .error _ => none

/-! ### The encoder -/

/-- A Boolean as a bit. -/
def b2n (b : Bool) : Nat := if b then 1 else 0

/-- R format (R232). -/
def encR (op : Nat) (d a b : Reg) (func : Nat) : Nat := op * 2 ^ 26 + d.val * 2 ^ 21 + a.val * 2 ^ 16 + b.val * 2 ^ 11 + func
/-- OPR (R234): `.w` in bit 10. -/
def encW (w : Bool) (d a b : Reg) (func : Nat) : Nat := encR 1 d a b (b2n w * 2 ^ 10 + func)
/-- The engine groups (R241): a sub-function in bits 10:7. -/
def encS (op : Nat) (d a b : Reg) (sub low : Nat) : Nat := encR op d a b (sub * 2 ^ 7 + low)
/-- I format (R232). -/
def encI (op : Nat) (d a : Reg) (imm : BitVec 16) : Nat := op * 2 ^ 26 + d.val * 2 ^ 21 + a.val * 2 ^ 16 + imm.toNat
/-- OPF (R239). -/
def encF (p : Prec) (m : Rm) (d a b : Reg) (op : Nat) : Nat := encR 0x0C d a b (precNum p * 2 ^ 9 + rmNum m * 2 ^ 6 + op)
/-- The block format (R244). -/
def encB (vop : Nat) (k : Blk) (vd va vb vc : VIx) (ext : Nat) : Nat :=
  vop * 2 ^ 56 + b2n k.c * 2 ^ 55 + vd.val * 2 ^ 49 + va.val * 2 ^ 43 + vb.val * 2 ^ 37 + vc.val * 2 ^ 31
    + k.pg.val * 2 ^ 25 + b2n k.pz * 2 ^ 24 + b2n k.pn * 2 ^ 23 + k.xl.val * 2 ^ 18 + k.xf.val * 2 ^ 13 + ext

/-- A scalar register in a six-bit field. -/
def r6 (r : Reg) : VIx := ⟨r.val, Nat.lt_of_lt_of_le r.isLt (by decide)⟩

/-- The word of an instruction with its width in bits, and nothing for the machine's own steps, which have no
words. -/
def encode : Instr → Option (Nat × Nat)
  | .add d a b w => some (32, encW w d a b 0)
  | .sub d a b w => some (32, encW w d a b 1)
  | .and d a b w => some (32, encW w d a b 2)
  | .or d a b w => some (32, encW w d a b 3)
  | .xor d a b w => some (32, encW w d a b 4)
  | .sll d a b w => some (32, encW w d a b 5)
  | .srl d a b w => some (32, encW w d a b 6)
  | .sra d a b w => some (32, encW w d a b 7)
  | .slt d a b w => some (32, encW w d a b 8)
  | .sltn d a b w => some (32, encW w d a b 9)
  | .min d a b w => some (32, encW w d a b 10)
  | .max d a b w => some (32, encW w d a b 11)
  | .minn d a b w => some (32, encW w d a b 12)
  | .maxn d a b w => some (32, encW w d a b 13)
  | .mul d a b w => some (32, encW w d a b 14)
  | .mulh d a b w => some (32, encW w d a b 15)
  | .mulhn d a b w => some (32, encW w d a b 16)
  | .div d a b w => some (32, encW w d a b 17)
  | .divn d a b w => some (32, encW w d a b 18)
  | .rem d a b w => some (32, encW w d a b 19)
  | .remn d a b w => some (32, encW w d a b 20)
  | .clz d a w => some (32, encW w d a 0 21)
  | .ctz d a w => some (32, encW w d a 0 22)
  | .popc d a w => some (32, encW w d a 0 23)
  | .addi d a imm => some (32, encI 2 d a imm)
  | .andi d a imm => some (32, encI 3 d a imm)
  | .ori d a imm => some (32, encI 4 d a imm)
  | .xori d a imm => some (32, encI 5 d a imm)
  | .slti d a imm => some (32, encI 6 d a imm)
  | .slli d a n => some (32, encR 7 d a 0 (0 * 2 ^ 6 + n.toNat))
  | .srli d a n => some (32, encR 7 d a 0 (1 * 2 ^ 6 + n.toNat))
  | .srai d a n => some (32, encR 7 d a 0 (2 * 2 ^ 6 + n.toNat))
  | .lui d imm => some (32, encI 8 d 0 imm)
  | .auipc d imm => some (32, encI 9 d 0 imm)
  | .fadd p m d a b => some (32, encF p m d a b 0)
  | .fsub p m d a b => some (32, encF p m d a b 1)
  | .fmul p m d a b => some (32, encF p m d a b 2)
  | .fdiv p m d a b => some (32, encF p m d a b 3)
  | .fsqrt p m d a => some (32, encF p m d a 0 4)
  | .fmin p m d a b => some (32, encF p m d a b 5)
  | .fmax p m d a b => some (32, encF p m d a b 6)
  | .feq p m d a b => some (32, encF p m d a b 7)
  | .flt p m d a b => some (32, encF p m d a b 8)
  | .fle p m d a b => some (32, encF p m d a b 9)
  | .fcvt dst src m d a =>
    some (32, 0x0C * 2 ^ 26 + d.val * 2 ^ 21 + a.val * 2 ^ 16 + cvtNum src * 2 ^ 11 + rmNum m * 2 ^ 6 + (10 + cvtNum dst))
  | .fmaOpcode0d p np nc m d a b c =>
    some (32, encR 0x0D d a b (c.val * 2 ^ 6 + precNum p * 2 ^ 4 + b2n nc * 2 ^ 3 + b2n np * 2 ^ 2 + rmNum m % 4))
  | .fmaOpcode0e p np nc m d a b c =>
    some (32, encR 0x0E d a b (c.val * 2 ^ 6 + precNum p * 2 ^ 4 + b2n nc * 2 ^ 3 + b2n np * 2 ^ 2 + rmNum m % 4))
  | .ld z sx aq d a off =>
    some (32, 0x10 * 2 ^ 26 + d.val * 2 ^ 21 + a.val * 2 ^ 16 + sizeNum z * 2 ^ 14 + b2n sx * 2 ^ 13 + b2n aq * 2 ^ 12 + off.toNat)
  | .st z rel d a off =>
    some (32, 0x11 * 2 ^ 26 + d.val * 2 ^ 21 + a.val * 2 ^ 16 + sizeNum z * 2 ^ 14 + b2n rel * 2 ^ 12 + off.toNat)
  | .amo op dw ord sc d a b =>
    some (32, encR 0x12 d a b (amoNum op * 2 ^ 7 + b2n dw * 2 ^ 6 + amoOrderNum ord * 2 ^ 4 + scopeNum sc * 2))
  | .fence kind sc => some (32, 0x13 * 2 ^ 26 + fenceNum kind * 2 ^ 4 + scopeNum sc * 2)
  | .beq a b off => some (32, encI 20 a b off)
  | .bne a b off => some (32, encI 21 a b off)
  | .blt a b off => some (32, encI 22 a b off)
  | .bge a b off => some (32, encI 23 a b off)
  | .bltn a b off => some (32, encI 24 a b off)
  | .bgen a b off => some (32, encI 25 a b off)
  | .jal d off => some (32, 0x1A * 2 ^ 26 + d.val * 2 ^ 21 + off.toNat)
  | .jalr d a imm => some (32, encI 0x1B d a imm)
  | .vf off => some (32, 0x1C * 2 ^ 26 + off.toNat)
  | .setl d a f k => some (32, encR 0x20 d a 0 (f.toNat * 2 + b2n k))
  | .vfr a => some (32, encS 0x20 0 a 0 1 0)
  | .vget d a f va => some (32, 0x20 * 2 ^ 26 + d.val * 2 ^ 21 + a.val * 2 ^ 16 + f.toNat * 2 ^ 11 + 2 * 2 ^ 7 + va.val * 2)
  | .hset d h a => some (32, encR 0x21 d a 0 (h.val * 2 ^ 3))
  | .hclr h => some (32, encS 0x21 0 0 0 1 (h.val * 2 ^ 3))
  | .adv c => some (32, encS 0x21 0 0 0 2 (c.val * 2 ^ 4))
  | .kset c a b none => some (32, encS 0x21 0 a b 3 (c.val * 2 ^ 4))
  | .kset c a b (some t) => some (32, encR 0x21 0 a b (t.val * 2 ^ 23 + 2 ^ 22 + 3 * 2 ^ 7 + c.val * 2 ^ 4))
  | .havail d h => some (32, encS 0x21 d 0 0 4 (h.val * 2 ^ 3))
  | .hflush h => some (32, encS 0x21 0 0 0 5 (h.val * 2 ^ 3))
  | .hwait h => some (32, encS 0x21 0 0 0 6 (h.val * 2 ^ 3))
  | .kget d c sel => some (32, encS 0x21 d 0 0 7 (c.val * 2 ^ 4 + sel.val * 2 ^ 2))
  | .matt d a => some (32, encR 0x22 d a 0 0)
  | .mdet => some (32, encS 0x22 0 0 0 1 0)
  | .launch d a => some (32, encR 0x23 d a 0 0)
  | .exit => some (32, encS 0x23 0 0 0 1 0)
  | .wait a b => some (32, encS 0x23 0 a b 2 0)
  | .yield => some (32, encS 0x23 0 0 0 3 0)
  | .bar => some (32, encS 0x23 0 0 0 4 0)
  | .strip d => some (32, encS 0x23 d 0 0 5 0)
  | .seqnew d a => some (32, encS 0x23 d a 0 6 0)
  | .seqgrow d a => some (32, encS 0x23 d a 0 7 0)
  | .seqend a => some (32, encS 0x23 0 a 0 8 0)
  | .seqendT d a b => some (32, encS 0x23 d a b 8 (2 ^ 6))
  | .gfind d a b => some (32, encR 0x24 d a b 0)
  | .gdep d a => some (32, encS 0x24 d a 0 1 0)
  | .gpin d a b => some (32, encS 0x24 d a b 2 0)
  | .gunpin d a b => some (32, encS 0x24 d a b 3 0)
  | .gload d a b => some (32, encS 0x24 d a b 4 0)
  | .gdrop d a b => some (32, encS 0x24 d a b 5 0)
  | .sbin d a => some (32, encR 0x25 d a 0 0)
  | .spair d z a b => some (32, encS 0x25 d a b 1 (z.val * 2 ^ 4))
  | .sstat d a => some (32, encS 0x25 d a 0 2 0)
  | .sopen d z a => some (32, encR 0x26 d a 0 (z.val * 2 ^ 4))
  | .sclose z => some (32, encS 0x26 0 0 0 1 (z.val * 2 ^ 4))
  | .csrr d n => some (32, 0x3E * 2 ^ 26 + d.val * 2 ^ 21 + n.toNat * 2 ^ 4)
  | .csrw n a => some (32, 0x3E * 2 ^ 26 + a.val * 2 ^ 16 + n.toNat * 2 ^ 4 + 1)
  | .csrs n a => some (32, 0x3E * 2 ^ 26 + a.val * 2 ^ 16 + n.toNat * 2 ^ 4 + 2)
  | .csrc n a => some (32, 0x3E * 2 ^ 26 + a.val * 2 ^ 16 + n.toNat * 2 ^ 4 + 3)
  | .trap n => some (32, 0x3E * 2 ^ 26 + n.toNat * 2 ^ 4 + 4)
  | .tret => some (32, 0x3E * 2 ^ 26 + 5)
  | .brk n => some (32, 0x3E * 2 ^ 26 + n.toNat * 2 ^ 4 + 6)
  | .pswap d a b => some (32, encR 0x3E d a b 7)
  | .readLifetimeCounter => none
  | .readMeasurementLog => none
  | .postPartitionNotice => none
  | .vstop => some (64, 2 ^ 56)
  | .vnop c => some (64, 2 * 2 ^ 56 + b2n c * 2 ^ 55)
  | .vadd k vd va vb => some (64, encB 0x10 k vd va vb 0 0)
  | .vsub k vd va vb => some (64, encB 0x11 k vd va vb 0 0)
  | .vmul k vd va vb => some (64, encB 0x12 k vd va vb 0 0)
  | .vmulh k vd va vb => some (64, encB 0x13 k vd va vb 0 0)
  | .vmin k vd va vb => some (64, encB 0x14 k vd va vb 0 0)
  | .vmax k vd va vb => some (64, encB 0x15 k vd va vb 0 0)
  | .vand k vd va vb => some (64, encB 0x16 k vd va vb 0 0)
  | .vor k vd va vb => some (64, encB 0x17 k vd va vb 0 0)
  | .vxor k vd va vb => some (64, encB 0x18 k vd va vb 0 0)
  | .vsll k vd va vb => some (64, encB 0x19 k vd va vb 0 0)
  | .vsrl k vd va vb => some (64, encB 0x1A k vd va vb 0 0)
  | .vsra k vd va vb => some (64, encB 0x1B k vd va vb 0 0)
  | .vadds k vd va vb => some (64, encB 0x1C k vd va vb 0 0)
  | .vsubs k vd va vb => some (64, encB 0x1D k vd va vb 0 0)
  | .vabsd k vd va vb => some (64, encB 0x1E k vd va vb 0 0)
  | .vmac k vd va vb vc => some (64, encB 0x1F k vd va vb vc 0)
  | .vcmp k pd va vb c => some (64, encB 0x20 k pd va vb 0 (condNum c))
  | .vaddi k vd va imm => some (64, encB 0x21 k vd va 0 0 imm.toNat)
  | .vshi k vd va q n => some (64, encB 0x22 k vd va 0 0 (shKindNum q * 2 ^ 7 + n.toNat))
  | .viota k vd => some (64, encB 0x23 k vd 0 0 0 0)
  | .vfadd k vd va vb => some (64, encB 0x30 k vd va vb 0 0)
  | .vfsub k vd va vb => some (64, encB 0x31 k vd va vb 0 0)
  | .vfmul k vd va vb => some (64, encB 0x32 k vd va vb 0 0)
  | .vfma k vd va vb vc np nc => some (64, encB 0x33 k vd va vb vc (b2n nc * 2 + b2n np))
  | .vfdiv k vd va vb => some (64, encB 0x34 k vd va vb 0 0)
  | .vfsqrt k vd va => some (64, encB 0x35 k vd va 0 0 0)
  | .vfrcp k vd va => some (64, encB 0x36 k vd va 0 0 0)
  | .vfrsq k vd va => some (64, encB 0x37 k vd va 0 0 0)
  | .vfexp2 k vd va => some (64, encB 0x38 k vd va 0 0 0)
  | .vfmin k vd va vb => some (64, encB 0x39 k vd va vb 0 0)
  | .vfmax k vd va vb => some (64, encB 0x3A k vd va vb 0 0)
  | .vfcmp k pd va vb c => some (64, encB 0x3B k pd va vb 0 (condNum c))
  | .vfclass k vd va => some (64, encB 0x3C k vd va 0 0 0)
  | .vcvt k vd va => some (64, encB 0x50 k vd va 0 0 0)
  | .vslice k vd va => some (64, encB 0x51 k vd va 0 0 0)
  | .vunslice k vd va => some (64, encB 0x52 k vd va 0 0 0)
  | .vqscale k vd va vb => some (64, encB 0x53 k vd va vb 0 0)
  | .plog k pd pa pb op => some (64, encB 0x60 k pd pa pb 0 (logNum op))
  | .ppopc k vd pa => some (64, encB 0x61 k vd pa 0 0 0)
  | .pfirst k vd pa => some (64, encB 0x62 k vd pa 0 0 0)
  | .pset k pd => some (64, encB 0x63 k pd 0 0 0 0)
  | .vbcast k vd xs => some (64, encB 0x70 k vd 0 0 0 xs.val)
  | .vins k vd xs xi => some (64, encB 0x78 k vd 0 0 0 (xi.val * 2 ^ 5 + xs.val))
  | .vslup k vd va xs => some (64, encB 0x71 k vd va 0 0 xs.val)
  | .vsldn k vd va xs => some (64, encB 0x72 k vd va 0 0 xs.val)
  | .vperm k vd va vb => some (64, encB 0x73 k vd va vb 0 0)
  | .vcompr k vd va pb => some (64, encB 0x74 k vd va pb 0 0)
  | .vexpnd k vd va pb => some (64, encB 0x75 k vd va pb 0 0)
  | .vmerge k vd va vb pc => some (64, encB 0x76 k vd va vb pc 0)
  | .vmov k vd va => some (64, encB 0x77 k vd va 0 0 0)
  | .vredsum k vd va o => some (64, encB 0x80 k vd va 0 0 (b2n o))
  | .vredmax k vd va => some (64, encB 0x81 k vd va 0 0 0)
  | .vredmin k vd va => some (64, encB 0x82 k vd va 0 0 0)
  | .vscan k vd va => some (64, encB 0x83 k vd va 0 0 0)
  | .vtopk k vd va xk nl => some (64, encB 0x84 k vd va 0 0 (b2n nl * 2 ^ 5 + xk.val))
  | .vldh k vd h xo xs a => some (64, encB 0x90 k vd 0 0 (r6 xs) (xo.val * 2 ^ 5 + b2n a * 2 ^ 4 + h.val))
  | .vsth k va h xo xs => some (64, encB 0x91 k 0 va 0 (r6 xs) (xo.val * 2 ^ 5 + h.val))
  | .vldhx k vd h xo vb a => some (64, encB 0x92 k vd 0 vb 0 (xo.val * 2 ^ 5 + b2n a * 2 ^ 4 + h.val))
  | .vsthx k va h xo vb => some (64, encB 0x93 k 0 va vb 0 (xo.val * 2 ^ 5 + h.val))
  | .vldf k vd xa xs o => some (64, encB 0x94 k vd 0 0 (r6 xs) (ldOrdNum o * 2 ^ 5 + xa.val))
  | .vstf k va xa xs o => some (64, encB 0x95 k 0 va 0 (r6 xs) (stOrdNum o * 2 ^ 5 + xa.val))
  | .vldx k vd xa vb s o => some (64, encB 0x96 k vd 0 vb 0 (s.val * 2 ^ 7 + ldOrdNum o * 2 ^ 5 + xa.val))
  | .vstx k va xa vb s o => some (64, encB 0x97 k 0 va vb 0 (s.val * 2 ^ 7 + stOrdNum o * 2 ^ 5 + xa.val))
  | .vamo k op vd va xa vb s o vc =>
    some (64, encB 0x98 k vd va vb vc (amoNum op * 2 ^ 9 + s.val * 2 ^ 7 + vamoOrdNum o * 2 ^ 5 + xa.val))
  | .vldt k vd xo vb => some (64, encB 0x99 k vd 0 vb 0 xo.val)
  | .vstt k va xo vb => some (64, encB 0x9A k 0 va vb 0 xo.val)
  | .vlds k vd z f c => some (64, encB 0x9B k vd 0 0 0 (b2n c * 2 ^ 6 + f.toNat * 2 ^ 3 + z.val))
  | .vsts k va z e => some (64, encB 0x9C k 0 va 0 0 (b2n e * 2 ^ 6 + z.val))
  | .hmask k pd h xo => some (64, encB 0x9D k pd 0 0 0 (xo.val * 2 ^ 5 + h.val))
  | .mopa k va vb base units => some (64, encB 0xA0 k 0 va vb 0 (units.toNat * 2 ^ 7 + base.toNat))
  | .mopas k va vb vc base units => some (64, encB 0xA1 k 0 va vb vc (units.toNat * 2 ^ 7 + base.toNat))
  | .mrd k vd row => some (64, encB 0xA2 k vd 0 0 0 row.toNat)
  | .mwr k va row => some (64, encB 0xA3 k 0 va 0 0 row.toNat)
  | .mzero k base units => some (64, encB 0xA4 k 0 0 0 0 (units.toNat * 2 ^ 7 + base.toNat))
  | .vsprune k vd va vc => some (64, encB 0xA5 k vd va 0 vc 0)
  | .vrope k vd va vb vc xh => some (64, encB 0xB0 k vd va vb vc xh.val)
  | .decision _ => none
  | .sliceEnd _ => none
  | .preEmption _ => none
  | .restore _ => none
  | .farmStart _ _ => none
  | .hartPlacement _ _ => none
  | .launchAcceptance _ => none
  | .completionWord _ _ => none
  | .wakeRead _ => none
  | .hartDispatch _ => none
  | .trapEntry => none
  | .windowReset _ => none
  | .harvestOrder _ => none
  | .gleanerFetch _ => none
  | .lineArrival _ _ => none
  | .lineRelease _ => none
  | .gleanerWriteBack _ => none
  | .gleanerFold _ => none
  | .multicastFill _ => none
  | .streamDelivery _ _ => none
  | .pairRecord _ _ => none
  | .gfindWalk _ => none
  | .answerStep _ => none
  | .adoption _ => none
  | .readyStep _ => none
  | .gpinService _ => none
  | .gunpinService _ => none
  | .gloadService _ => none
  | .gdropService _ => none
  | .binning _ => none
  | .streamOpen _ => none
  | .sstatService _ => none
  | .poisoning _ => none
  | .intakeWatchdog _ => none
  | .pageInvalidation _ _ _ => none
  | .pageScrub _ => none
  | .vfReset _ _ => none
  | .partitionRecordWrite _ _ _ => none
  | .fieldCreate _ _ _ => none
  | .fieldRemove _ _ => none
  | .exportEntryWrite _ _ _ _ => none
  | .columnPowerChange _ _ _ => none
  | .repairThresholdWrite _ => none
  | .rowRepair _ _ => none
  | .channelRetraining _ => none
  | .channelFailure _ => none
  | .operatingPointRequest _ _ _ => none
  | .thermalCapStep _ _ => none
  | .powerUp _ _ => none
  | .attestationReport _ => none
  | .powerOnHour _ => none
  | .remoteAccess _ => none
  | .hostAccess _ => none
  | .partitionEnd _ => none

end Sys2Proof
end

