-- ==== Sys2Proof/Config.lean ====
section
/-!
DEFINITION. What the spec leaves open: opaque constants without a body, so that nothing can be proved about their
values. Each one is named in notes/assumptions.
-/

namespace Sys2Proof

/-- The 16 bits that a lane's random generator gives for one stochastic rounding (R63): free, one value for each
draw.
DESIGN CHOICE: notes/assumptions/13. -/
opaque Config.stochasticBits (draw : Nat) : BitVec 16

/-- Which neighbouring pair an unordered `VREDSUM` joins next (R64): any binary tree over the contributing
elements is a sequence of such joins. Free, one value for each join.
DESIGN CHOICE: notes/assumptions/13. -/
opaque Config.treePick (draw : Nat) : Nat

/-- Which of the two bracketing values an approximation answers (R65, R375), as a function of the operation, the
destination format and the operands. Free: `true` takes the one farther from zero.
DESIGN CHOICE: notes/assumptions/12. -/
opaque Config.approxAway (op fmt : Nat) (operands : List Nat) : Bool

/-- How far, in units of the last place of a 2^-51 relative grid, an f64 approximation stands from the exact value
(R65). Free; the model keeps it within the bound of R65.
DESIGN CHOICE: notes/assumptions/12. -/
opaque Config.approxError (op : Nat) (operands : List Nat) : Int

/-- The SHA3-512 digest of an image (R217), whose algorithm stands outside the spec.
DESIGN CHOICE: notes/assumptions/14. -/
opaque Config.sha3 (image : List Byte) : BitVec 512

/-- Whether an image carries the vendor's ML-DSA-87 signature (R217).
DESIGN CHOICE: notes/assumptions/14. -/
opaque Config.signatureValid (image : List Byte) : Bool

/-- The ML-DSA-87 signature of a report by the device identity key (R217).
DESIGN CHOICE: notes/assumptions/14. -/
opaque Config.sign (message : List Byte) : List Byte

/-- The parity group whose channels hold a 64-byte line (R208): the spec gives no map from addresses to channels.
DESIGN CHOICE: notes/assumptions/15. -/
opaque Config.lineGroup (line : Nat) : Nat

/-- The stripe of its group that a line stands in, and its place among the stripe's seven data lines (R208).
DESIGN CHOICE: notes/assumptions/15. -/
opaque Config.lineStripe (line : Nat) : Nat
/-- The place among the seven.
DESIGN CHOICE: notes/assumptions/15. -/
opaque Config.lineSlot (line : Nat) : Fin 7

/-- The line at a place of a stripe of a group (R208).
DESIGN CHOICE: notes/assumptions/15. -/
opaque Config.stripeLine (group stripe : Nat) (slot : Fin 7) : Nat

/-- Lines of a parity group (R208, R218).
DESIGN CHOICE: notes/assumptions/15. -/
opaque Config.groupLines (group : Nat) : Nat

/-- Spare rows of a bank (R212).
DESIGN CHOICE: notes/assumptions/15. -/
opaque Config.spareRows (bank : Nat) : Nat

/-- The 64 KiB pages of the device page pool at power-up (R114): the spec does not say which they are.
DESIGN CHOICE: notes/assumptions/14. -/
opaque Config.poolPages : List Nat

/-- The fused voltage floor in millivolts for a frequency in MHz (R219).
DESIGN CHOICE: notes/assumptions/15. -/
opaque Config.voltageFloor (mhz : Nat) : Nat

/-- Whether a device link cannot deliver a write-back or a fold toward another chip (R205): free, one value for each.
DESIGN CHOICE: notes/assumptions/60. -/
opaque Config.linkFails (draw : Nat) : Bool

end Sys2Proof
end

