-- ==== Sys2Proof/Machine/Format.lean ====
section
/-!
DEFINITION. The formats of R50 with their widths and kinds (R51 to R53, R58).
-/

namespace Sys2Proof.Machine

/-- A format of R50: the packed formats, and the sliced ones with their width from 1 to 16. -/
inductive Fmt where
  | s4 | s8 | s16 | s32 | s64
  | n8 | n16 | n32 | n64
  | f64 | f32 | bf16 | f16 | e5m2 | e4m3 | e3m2 | e2m3 | e2m1
  | x9
  | ss (w : Nat)
  | sn (w : Nat)
  deriving DecidableEq, Repr

/-- The format a 6-bit code names; none for the reserved codes 0x00 and 0x14 to 0x1F (R50). -/
def Fmt.ofCode (c : Nat) : Option Fmt :=
  match c with
  | 0x01 => some .s8 | 0x02 => some .s16 | 0x03 => some .s32 | 0x04 => some .s64
  | 0x05 => some .n8 | 0x06 => some .n16 | 0x07 => some .n32 | 0x08 => some .n64
  | 0x09 => some .f64 | 0x0A => some .f32 | 0x0B => some .bf16 | 0x0C => some .f16
  | 0x0D => some .e5m2 | 0x0E => some .e4m3 | 0x0F => some .e3m2 | 0x10 => some .e2m3
  | 0x11 => some .e2m1 | 0x12 => some .s4 | 0x13 => some .x9
  | c => if 0x20 ≤ c && c ≤ 0x2F then some (.ss (c - 0x1F))
         else if 0x30 ≤ c && c ≤ 0x3F then some (.sn (c - 0x2F))
         else none

/-- The code of a format (R50). -/
def Fmt.code : Fmt → Nat
  | .s8 => 0x01 | .s16 => 0x02 | .s32 => 0x03 | .s64 => 0x04
  | .n8 => 0x05 | .n16 => 0x06 | .n32 => 0x07 | .n64 => 0x08
  | .f64 => 0x09 | .f32 => 0x0A | .bf16 => 0x0B | .f16 => 0x0C
  | .e5m2 => 0x0D | .e4m3 => 0x0E | .e3m2 => 0x0F | .e2m3 => 0x10
  | .e2m1 => 0x11 | .s4 => 0x12 | .x9 => 0x13
  | .ss w => w + 0x1F
  | .sn w => w + 0x2F

/-- Width in bits (R50). -/
def Fmt.width : Fmt → Nat
  | .s4 => 4 | .s8 => 8 | .s16 => 16 | .s32 => 32 | .s64 => 64
  | .n8 => 8 | .n16 => 16 | .n32 => 32 | .n64 => 64
  | .f64 => 64 | .f32 => 32 | .bf16 => 16 | .f16 => 16
  | .e5m2 => 8 | .e4m3 => 8 | .e3m2 => 6 | .e2m3 => 6 | .e2m1 => 4
  | .x9 => 9
  | .ss w => w
  | .sn w => w

/-- Bits an element takes in a lane slice or in memory: x9 stands in a 16-bit container (R51). -/
def Fmt.container (f : Fmt) : Nat := if f = .x9 then 16 else f.width

/-- Bytes of an element of at least 8 bits. -/
def Fmt.bytes (f : Fmt) : Nat := f.container / 8

/-- Sliced formats (R58). -/
def Fmt.sliced : Fmt → Bool
  | .ss _ => true
  | .sn _ => true
  | _ => false

/-- Signed integer formats, packed or sliced. -/
def Fmt.signed : Fmt → Bool
  | .s4 | .s8 | .s16 | .s32 | .s64 => true
  | .ss _ => true
  | _ => false

/-- Integer formats, packed or sliced (R336). -/
def Fmt.integer : Fmt → Bool
  | .s4 | .s8 | .s16 | .s32 | .s64 | .n8 | .n16 | .n32 | .n64 => true
  | .ss _ | .sn _ => true
  | _ => false

/-- Float formats (R52). -/
def Fmt.float : Fmt → Bool
  | .f64 | .f32 | .bf16 | .f16 | .e5m2 | .e4m3 | .e3m2 | .e2m3 | .e2m1 => true
  | _ => false

/-- The five narrow floats (R55). -/
def Fmt.narrow : Fmt → Bool
  | .e5m2 | .e4m3 | .e3m2 | .e2m3 | .e2m1 => true
  | _ => false

/-- Formats that a descriptor may mark as block-scaled (R55). -/
def Fmt.scalable (f : Fmt) : Bool := f.narrow || f = .s4 || f = .s8

/-- Elements of one lane slice: the slice count of a packed layout, or 32 for each group position of a sliced one
(R29, R58). -/
def Fmt.perSlice (f : Fmt) : Nat :=
  if f.sliced then 32 * (16 / f.width) else 512 / f.container - (if f.width = 6 then 1 else 0)

/-- The encoding of a float format (R52, R53): field widths, bias, the largest finite magnitude, and the magnitudes
of infinity and of the canonical NaN where the format has them. -/
structure FloatSpec where
  m : Nat
  bias : Nat
  maxMag : Nat
  inf : Option Nat
  nan : Option Nat
  deriving DecidableEq, Repr

/-- The encodings of R52; integer formats and x9 have none. -/
def Fmt.spec : Fmt → Option FloatSpec
  | .f64 => some ⟨52, 1023, 0x7FEFFFFFFFFFFFFF, some 0x7FF0000000000000, some 0x7FF8000000000000⟩
  | .f32 => some ⟨23, 127, 0x7F7FFFFF, some 0x7F800000, some 0x7FC00000⟩
  | .bf16 => some ⟨7, 127, 0x7F7F, some 0x7F80, some 0x7FC0⟩
  | .f16 => some ⟨10, 15, 0x7BFF, some 0x7C00, some 0x7E00⟩
  | .e5m2 => some ⟨2, 15, 0x7B, some 0x7C, some 0x7E⟩
  | .e4m3 => some ⟨3, 7, 0x7E, none, some 0x7F⟩
  | .e3m2 => some ⟨2, 3, 0x1F, none, none⟩
  | .e2m3 => some ⟨3, 1, 0x1F, none, none⟩
  | .e2m1 => some ⟨1, 1, 0x7, none, none⟩
  | _ => none

/-- emax of R57, for the formats that may be a block-scaled destination. -/
def Fmt.emax : Fmt → Nat
  | .e5m2 => 15
  | .e4m3 => 8
  | .e3m2 => 4
  | .s8 => 6
  | _ => 2

end Sys2Proof.Machine
end

