-- ==== Sys2Proof/Machine/Flags.lean ====
section
/-!
DEFINITION. Exact values, their arithmetic, rounding into a format and the flags it raises (R52 to R56, R62 to R68).
-/

namespace Sys2Proof.Machine

/-- The six sticky flags in the layout of `FFLAGS` (R67): 5 sat, 4 nv, 3 dz, 2 of, 1 uf, 0 nx. -/
abbrev Flags := BitVec 6

/-- No flag. -/
def flNone : Flags := 0
/-- Inexact (R67). -/
def flNX : Flags := 1
/-- Underflow. -/
def flUF : Flags := 2
/-- Overflow. -/
def flOF : Flags := 4
/-- Division by zero. -/
def flDZ : Flags := 8
/-- Invalid operation. -/
def flNV : Flags := 16
/-- A result was clamped. -/
def flSAT : Flags := 32

/-- The flag with class index c of R69: 0 NV, 1 DZ, 2 OF, 3 UF, 4 NX, 5 SAT. -/
def flagOfClass (c : Nat) : Flags :=
  match c with
  | 0 => flNV
  | 1 => flDZ
  | 2 => flOF
  | 3 => flUF
  | 4 => flNX
  | _ => flSAT

/-- Whether flags f hold class c of R69. -/
def hasClass (f : Flags) (c : Nat) : Bool := f &&& flagOfClass c != 0

/-- An exact value (R62): a NaN, quiet or signalling; an infinity; or the rational m / d with d positive, whose sign
stands apart so that zeros keep theirs. -/
inductive Val where
  | nan (signalling : Bool)
  | inf (neg : Bool)
  | num (neg : Bool) (m d : Nat)
  deriving DecidableEq, Repr

/-- Sign of a value; a NaN has none that matters. -/
def Val.neg : Val → Bool
  | .nan _ => false
  | .inf n => n
  | .num n _ _ => n

/-- Whether the value is a NaN. -/
def Val.isNan : Val → Bool
  | .nan _ => true
  | _ => false

/-- Whether the value is a signalling NaN. -/
def Val.isSignalling : Val → Bool
  | .nan s => s
  | _ => false

/-- Whether the value is a zero of either sign. -/
def Val.isZero : Val → Bool
  | .num _ m _ => m == 0
  | _ => false

/-- An exact integer as a value. -/
def Val.ofInt (i : Int) : Val := .num (decide (i < 0)) i.natAbs 1

/-- 2^e as a fraction. -/
def pow2 (e : Int) : Nat × Nat := if 0 ≤ e then (1 <<< e.toNat, 1) else (1, 1 <<< (-e).toNat)

/-- A value times 2^e (R56). -/
def Val.scale (v : Val) (e : Int) : Val :=
  match v with
  | .num n m d => let p := pow2 e; .num n (m * p.1) (d * p.2)
  | v => v

/-- The signed numerator of a finite value over the denominator D, a multiple of its own. -/
def Val.over (v : Val) (D : Nat) : Int :=
  match v with
  | .num n m d => let k : Int := (m * (D / d) : Nat); if n then -k else k
  | _ => 0

/-- Denominator of a value. -/
def Val.den : Val → Nat
  | .num _ _ d => d
  | _ => 1

/-- Negation (the sign of a zero included). -/
def Val.negate : Val → Val
  | .nan s => .nan s
  | .inf n => .inf (!n)
  | .num n m d => .num (!n) m d

/-- Sum under R285: a signalling NaN or ∞ - ∞ is invalid and counts as a signalling NaN from here on, so that placing
it raises NV; an exact zero sum of opposite signs is +0, or -0 when `rdn` holds. -/
def Val.add (rdn : Bool) (a b : Val) : Val :=
  match a, b with
  | .nan s, .nan t => .nan (s || t)
  | .nan s, _ => .nan s
  | _, .nan t => .nan t
  | .inf n, .inf k => if n = k then .inf n else .nan true
  | .inf n, _ => .inf n
  | _, .inf n => .inf n
  | .num n m d, .num k q e =>
    let D := Nat.lcm d e
    let s := (Val.num n m d).over D + (Val.num k q e).over D
    if s = 0 then .num (if n = k then n else rdn) 0 1 else .num (decide (s < 0)) s.natAbs D

/-- Product under R285: 0 × ∞ is invalid. -/
def Val.mul (a b : Val) : Val :=
  match a, b with
  | .nan s, .nan t => .nan (s || t)
  | .nan s, _ => .nan s
  | _, .nan t => .nan t
  | .inf n, b => if b.isZero then .nan true else .inf (n != b.neg)
  | a, .inf k => if a.isZero then .nan true else .inf (a.neg != k)
  | .num n m d, .num k q e => .num (n != k) (m * q) (d * e)

/-- The fused sum of R289: 0 × ∞ is invalid even beside a quiet NaN. -/
def Val.fma (rdn np nc : Bool) (a b c : Val) : Val :=
  let p := a.mul b
  let p := if np then p.negate else p
  let c := if nc then c.negate else c
  p.add rdn c

/-- Quotient under R285, with DZ for a finite non-zero value over zero. -/
def Val.div (a b : Val) : Val × Flags :=
  match a, b with
  | .nan s, .nan t => (.nan (s || t), flNone)
  | .nan s, _ => (.nan s, flNone)
  | _, .nan t => (.nan t, flNone)
  | .inf _, .inf _ => (.nan true, flNone)
  | .inf n, b => (.inf (n != b.neg), flNone)
  | a, .inf k => (.num (a.neg != k) 0 1, flNone)
  | .num n m d, .num k q e =>
    if q = 0 then (if m = 0 then (.nan true, flNone) else (.inf (n != k), flDZ))
    else (.num (n != k) (m * e) (d * q), flNone)

/-- Newton's steps down to the integer square root of n from x, an upper bound. -/
def isqrtFrom : Nat → Nat → Nat → Nat
  | 0, _, x => x
  | fuel + 1, n, x =>
    let y := (x + n / x) / 2
    if y < x then isqrtFrom fuel n y else x

/-- Integer square root. -/
def isqrt (n : Nat) : Nat := if n = 0 then 0 else isqrtFrom 256 n (1 <<< (n.log2 / 2 + 1))

/-- A square root for rounding: 2^(2·k) × m / d is scaled up until its integer root has at least 64 bits; an inexact
root is answered half a unit above that integer root, which every rounding of R63 to at most 53 bits treats as the
exact root. -/
def sqrtFrac (m d : Nat) : Nat × Nat :=
  let k := 72 + (d.log2 / 2)
  let s := (m * d) <<< (2 * k)
  let r := isqrt s
  if r * r = s then (r, d <<< k) else (2 * r + 1, d <<< (k + 1))

/-- Square root under R285. -/
def Val.sqrt (a : Val) : Val :=
  match a with
  | .nan s => .nan s
  | .inf n => if n then .nan true else .inf false
  | .num n m d =>
    if m = 0 then .num n 0 1
    else if n then .nan true
    else let r := sqrtFrac m d; .num false r.1 r.2

/-- Order of two values that are no NaN: -1, 0 or 1, with the zeros equal. -/
def Val.cmp (a b : Val) : Int :=
  match a, b with
  | .inf n, .inf k => if n = k then 0 else if n then -1 else 1
  | .inf n, _ => if n then -1 else 1
  | _, .inf k => if k then 1 else -1
  | a, b => let D := Nat.lcm a.den b.den; (a.over D - b.over D).sign

/-- Smaller (`max` false) or larger operand under R286 and R353: -0 below +0; one NaN yields the other operand; two
yield a NaN. -/
def Val.choose (max : Bool) (a b : Val) : Val :=
  match a, b with
  | .nan _, .nan _ => .nan false
  | .nan _, b => b
  | a, .nan _ => a
  | a, b =>
    let c := a.cmp b
    let aLess := c < 0 || (c = 0 && a.neg && !b.neg)
    if max then (if aLess then b else a) else (if aLess then a else b)

/-- Decodes magnitude bits of a float format (R52, R53). -/
def decodeFloat (s : FloatSpec) (width bits : Nat) : Val :=
  let sign := bits.testBit (width - 1)
  let mag := bits % 1 <<< (width - 1)
  let e := mag >>> s.m
  let f := mag % 1 <<< s.m
  let number : Val :=
    let q : Int := (if e = 0 then 1 else (e : Int)) - (s.bias : Int) - (s.m : Int)
    Val.scale (.num sign (if e = 0 then f else f + 1 <<< s.m) 1) q
  match s.inf with
  | some i => if mag = i then .inf sign
              else if i < mag then .nan (!f.testBit (s.m - 1))
              else number
  | none => if s.nan = some mag then .nan false else number

/-- Whether bits are a subnormal of the format (R62). -/
def subnormalBits (s : FloatSpec) (width bits : Nat) : Bool :=
  let mag := bits % 1 <<< (width - 1)
  mag != 0 && decide (mag < 1 <<< s.m)

/-- Bits of width w read as a signed number. -/
def signedOf (w bits : Nat) : Int :=
  if bits.testBit (w - 1) then (bits % 1 <<< w : Nat) - (1 <<< w : Nat) else (bits % 1 <<< w : Nat)

/-- The exact value of bits in a format (R51, R52, R55); with ftz a subnormal float reads as a zero (R62). -/
def decodeVal (f : Fmt) (ftz : Bool) (bits : Nat) : Val :=
  match f.spec with
  | some s => if ftz && subnormalBits s f.width bits then .num (bits.testBit (f.width - 1)) 0 1
              else decodeFloat s f.width bits
  | none =>
    if f = .x9 then
      if bits % 512 = 511 then .nan false else Val.scale (.num false 1 1) ((bits % 512 : Nat) - 255)
    else if f.signed then Val.ofInt (signedOf f.width bits)
    else .num false (bits % 1 <<< f.width) 1

/-- The exact integer that bits of an integer format stand for (R51, R336). -/
def decodeInt (f : Fmt) (bits : Nat) : Int :=
  if f.signed then signedOf f.width bits else (bits % 1 <<< f.width : Nat)

/-- How a result is rounded: the mode of R63 (0 RNE, 1 RTZ, 2 RDN, 3 RUP, 4 RNA, 5 stochastic), sat, ftz, and the 16
random bits of a stochastic rounding. -/
structure Rounding where
  mode : Nat := 0
  sat : Bool := false
  ftz : Bool := false
  u : Nat := 0
  deriving DecidableEq, Repr

/-- Rounds n / d, the magnitude of a value of sign `neg`, to an integer (R63); the second part tells whether it was
inexact. -/
def roundMag (c : Rounding) (neg : Bool) (n d : Nat) : Nat × Bool :=
  let i := n / d
  let r := n % d
  if r = 0 then (i, false)
  else
    let up : Bool :=
      match c.mode with
      | 0 => decide (d < 2 * r) || (2 * r == d && i % 2 == 1)
      | 2 => neg
      | 3 => !neg
      | 4 => decide (d ≤ 2 * r)
      | 5 => decide (65536 ≤ (r * 65536) / d + c.u)
      | _ => false
    (if up then i + 1 else i, true)

/-- Rounds n / d to a multiple of 2^q. -/
def roundAt (c : Rounding) (neg : Bool) (n d : Nat) (q : Int) : Nat × Bool :=
  let p := pow2 q
  roundMag c neg (n * p.2) (d * p.1)

/-- floor(log2(n / d)) for positive n and d. -/
def log2Frac (n d : Nat) : Int :=
  let g : Int := (n.log2 : Int) - (d.log2 : Int)
  let p := pow2 g
  if d * p.1 ≤ n * p.2 then g else g - 1

/-- The result of R63 for a finite value beyond the largest finite one.
DESIGN CHOICE: notes/assumptions/13. -/
def overflowMag (s : FloatSpec) (c : Rounding) (neg : Bool) : Nat × Flags :=
  if c.sat then (s.maxMag, flSAT ||| flNX)
  else
    match s.inf, s.nan with
    | some i, _ =>
      let away := c.mode = 0 || c.mode = 4 || c.mode = 5 || (c.mode = 2 && neg) || (c.mode = 3 && !neg)
      (if away then i else s.maxMag, flOF ||| flNX)
    | none, some n => (n, flOF ||| flNX)
    | none, none => (s.maxMag, flOF ||| flNX)

/-- Sign and magnitude joined; the NaN of a format without infinities stands with a clear sign (R53). -/
def withSign (s : FloatSpec) (width : Nat) (neg : Bool) (mag : Nat) : Nat :=
  if neg && s.nan != some mag then mag + 1 <<< (width - 1) else mag

/-- Rounds a non-zero magnitude n / d into a float format (R62, R63). -/
def placeMag (s : FloatSpec) (width : Nat) (c : Rounding) (neg : Bool) (n d : Nat) : Nat × Flags :=
  let top := log2Frac n d
  let emin : Int := 1 - (s.bias : Int)
  let qmin : Int := emin - (s.m : Int)
  let free := roundAt c neg n d (top - s.m)
  let tinyAfter : Bool :=
    let p := pow2 (top - s.m - emin)
    decide (free.1 * p.1 < p.2)
  if c.ftz && tinyAfter then (withSign s width neg 0, flUF ||| flNX)
  else
    let q := if top < emin then qmin else top - s.m
    let r := roundAt c neg n d q
    let mag := ((q - qmin).toNat <<< s.m) + r.1
    if s.maxMag < mag then
      let o := overflowMag s c neg
      (withSign s width neg o.1, o.2)
    else
      let nx := if r.2 then flNX else flNone
      let uf := if !c.ftz && decide (top < emin) && r.2 then flUF else flNone
      (withSign s width neg mag, nx ||| uf)

/-- Places an exact value into a float format (R62, R63).
DEDUCED: notes/assumptions/57. -/
def placeFloat (s : FloatSpec) (width : Nat) (c : Rounding) (v : Val) : Nat × Flags :=
  match v with
  | .nan sig =>
    match s.nan with
    | some n => (n, if sig then flNV else flNone)
    | none => (0, flNV)
  | .inf neg =>
    match s.inf with
    | some i => (withSign s width neg i, flNone)
    | none =>
      if c.sat then (withSign s width neg s.maxMag, flSAT)
      else
        match s.nan with
        | some n => (n, flNV)
        | none => (withSign s width neg s.maxMag, flNV)
  | .num neg m d => if m = 0 then (withSign s width neg 0, flNone) else placeMag s width c neg m d

/-- Lowest and highest value of an integer format. -/
def Fmt.range (f : Fmt) : Int × Int :=
  if f.signed then (-(1 <<< (f.width - 1) : Nat), (1 <<< (f.width - 1) : Nat) - 1) else (0, (1 <<< f.width : Nat) - 1)

/-- x modulo 2^w as bits. -/
def wrapBits (w : Nat) (x : Int) : Nat := (x % ((1 <<< w : Nat) : Int)).toNat

/-- Fit of R334: an exact integer into an integer format. -/
def fit (f : Fmt) (x : Int) (clamp : Bool) : Nat × Flags :=
  let r := f.range
  if r.1 ≤ x ∧ x ≤ r.2 then (wrapBits f.width x, flNone)
  else if clamp then (wrapBits f.width (if x < r.1 then r.1 else r.2), flSAT)
  else (wrapBits f.width x, flNone)

/-- Places a value of a float source into an integer format (R63).
DEDUCED: notes/assumptions/25. -/
def placeInt (f : Fmt) (c : Rounding) (v : Val) : Nat × Flags :=
  let out (below : Bool) (nx : Flags) : Nat × Flags :=
    if c.sat then (wrapBits f.width (if below then f.range.1 else f.range.2), flSAT ||| nx)
    else if f.signed then (wrapBits f.width f.range.1, flNV ||| nx)
    else (if below then 0 else wrapBits f.width f.range.2, flNV ||| nx)
  match v with
  | .nan _ => (0, flNV)
  | .inf neg => out neg flNone
  | .num neg m d =>
    let r := roundMag c neg m d
    let i : Int := if neg then -(r.1 : Int) else r.1
    let nx := if r.2 then flNX else flNone
    if i < f.range.1 then out true nx
    else if f.range.2 < i then out false nx
    else (wrapBits f.width i, nx)

/-- Place of R334: a value into any packed format under a rounding. -/
def place (f : Fmt) (c : Rounding) (v : Val) : Nat × Flags :=
  match f.spec with
  | some s => placeFloat s f.width c v
  | none => placeInt f c v

/-- RNE without ftz and sat, as folds, AMO FADD and the Flail round (R90, R109, R272, R316). -/
def roundRNE (f : Fmt) (v : Val) : Nat := (place f (Rounding.mk 0 false false 0) v).1

end Sys2Proof.Machine
end

