-- ==== Sys2Proof/Machine/State.lean ====
section
/-!
DEFINITION. The state of the machine: every piece of state the spec gives it, as plain data, and the state right
after reset. INVENTORY.md lists each field with its rule and its reset value.
-/

namespace Sys2Proof.Machine

/-- Why a run stops. No instruction of the spec raises one. -/
inductive Fault where
  /-- Raised by `step` when the agenda of the model names, as the machine's own step, a row that is an instruction
  of a stream. Safe: the spec has no such step, so no run of the hardware is left out. -/
  | notAnEvent
  deriving DecidableEq, Repr

/-- Why an instruction has no meaning here. -/
inductive Refusal where
  /-- Raised by `exec` for an instruction this model does not give a meaning yet. Safe: the run stops. -/
  | notModelled (mnemonic : String)
  deriving DecidableEq, Repr

/-- A vector register (R21, R34, R35): its valid-length tag in units of 8 bytes of every lane slice, and its bits,
where the slice of granted lane i stands at bits 512·i + 511 : 512·i. -/
structure VReg where
  tag : Nat := 0
  bits : Nat := 0
  deriving DecidableEq, Repr

/-- A loop counter (R77). -/
structure Counter where
  val : Nat := 0
  bound : Nat := 0
  target : Option KIx := none
  deriving DecidableEq, Repr

/-- The trap registers of one level (R179, R183); the vector base of level 1 stands in the partition. -/
structure TrapBank where
  tvec : Word := 0
  epc : Word := 0
  cause : Word := 0
  eval : Word := 0
  estatus : Word := 0
  escratch : Word := 0
  deriving DecidableEq, Repr

/-- A queued vector-fetch block (R23, R24, R86, R280). -/
structure Block where
  addr : Word
  /-- Address of its next word. -/
  pos : Word
  /-- x0 to x31 as captured. -/
  view : Vector Word 32
  /-- The values of k0 to k7 as captured (R86). -/
  kvec : List Nat
  fmtdef : BitVec 32
  ropepart : BitVec 24
  /-- Words left of the convoy that has been checked (R37); 0 at the start of a convoy. -/
  convoy : Nat := 0
  /-- 0 when not held; 1 + ℓ when held until the `TRET` of the handler at level ℓ (R43). -/
  held : Nat := 0
  /-- The word it stands at has passed its check phase and waits for another agent (R40, R119). -/
  checked : Bool := false
  /-- The model's serial number of the block in its hart's program order, and the first identity number of the work
  its hart handed to other agents after the block. -/
  serial : Nat
  bound : Nat := 0
  deriving DecidableEq, Repr

/-- A pair record of the Sieve (R177): i, j, dx, dy, dz, r2, and its sequence number in its stream (R178). -/
structure PairRec where
  i : Nat
  j : Nat
  dx : Nat
  dy : Nat
  dz : Nat
  r2 : Nat
  seq : Nat := 0
  deriving DecidableEq, Repr

/-- A flit of a stream message (R199): sequence number, format code (0 in the message that `SCLOSE` sends), its
elements, the number of elements from its first to the end of the message, and the message's end mark. -/
structure Flit where
  seq : Nat
  fmt : Nat
  elems : List Nat
  left : Nat
  endMark : Bool
  deriving DecidableEq, Repr

/-- What a stream slot is bound to (R176, R198, R324). -/
inductive Binding where
  | unbound
  /-- Reserved by an unanswered `SPAIR` (R324). -/
  | reserved (op : Nat)
  /-- Bound by `SPAIR` to a stream of the Sieve. -/
  | pair (stream : Nat)
  | send (peer : Nat) (slot : ZIx) (route : Nat)
  | recv (peer : Nat) (slot : ZIx)
  deriving DecidableEq, Repr

/-- A stream slot (R21, R178, R190, R198 to R201). -/
structure Slot where
  bound : Binding := .unbound
  /-- Next send sequence number (32 bits). -/
  nextSend : Nat := 0
  /-- Next expected sequence number (32 bits). -/
  expect : Nat := 0
  /-- The harts and slots that have granted this slot credit (R198), and flits sent and not yet credited. -/
  grantedBy : List (Nat × ZIx) := []
  unacked : Nat := 0
  /-- The first element of every flit sent of a message that is not all sent (R192). -/
  sentFrom : List Nat := []
  /-- A message with `.e` has been sent. -/
  sentEnd : Bool := false
  /-- Flits received and not yet wholly consumed. -/
  flits : List Flit := []
  /-- Elements of the first held flit already consumed, and elements that an unfinished consuming read has
  consumed. -/
  taken : Nat := 0
  done : Nat := 0
  /-- The last message emptied carried `.e`, so that the next empty message ends the stream. -/
  atEnd : Bool := false
  /-- Pair records waiting. -/
  records : List PairRec := []
  /-- The pair stream has no further record. -/
  ended : Bool := false
  /-- Length of the open batch (R178). -/
  batch : Option Nat := none
  deriving DecidableEq, Repr

/-- What an entry of a hart's instruction queue or store buffer still has to do (R116, R126): a store; a load of so
many bits into a register, sign-extended or not; an atomic operation of a size with its operand and the value compared;
or the wait of a `FENCE.rel`. The register takes the answer of operation `oid`. -/
inductive PendKind where
  | store
  | load (d : Reg) (bits : Nat) (sx : Bool) (oid : Nat)
  | amo (op : AmoOp) (dword : Bool) (d : Reg) (oid src cmp : Nat)
  | fence
  deriving DecidableEq, Repr

/-- A retired scalar access that has not performed (R116, R119, R330). -/
structure Pending where
  kind : PendKind := .store
  pa : List Nat
  bytes : List Byte
  release : Bool
  /-- Blocks with a lower serial number, and Gleaner work with a lower identity number, are older. -/
  serial : Nat
  bound : Nat
  deriving DecidableEq, Repr

/-- One element of a vector access in flight (R118, R121): its index, the physical addresses of its bytes, the bit it
starts at in the first, and for a store or an atomic operation its operand and the value compared. -/
structure FarStep where
  e : Nat
  pas : List Nat
  off : Nat
  x : Nat := 0
  c : Nat := 0
  deriving DecidableEq, Repr

/-- What a vector access in flight does with an element. -/
inductive FarWhat where
  | load (vd : VIx) (f : Fmt)
  | store (f : Fmt)
  | amo (op : AmoOp) (vd : VIx) (f : Fmt)
  deriving DecidableEq, Repr

/-- A page that a probe has pinned (R107, R108): the first 64 KiB page and the number of them that it maps at stage 1,
and at stage 2. A page of a Granary binding, which no invalidation concerns, has both numbers 0. -/
structure PinnedPage where
  va : Nat
  vn : Nat
  ia : Nat
  inn : Nat
  deriving DecidableEq, Repr

/-- How the word of a vector access in flight ends once every element that performs has performed (R41, R193): with the
fault of an element, or complete. -/
inductive FarEnd where
  | fault (e : Nat) (c : Cause) (eval : Word) (lines : List Nat)
  | done
  deriving DecidableEq, Repr

/-- A vector access that has passed its probe and has elements that have not performed (R107, R108, R116, R121): its
prefix queue. `free` lets them perform in any order, `acq` holds younger accesses, `ticket` takes a ticket for each;
`pins` are the pages it pins; `whole` the poisoned lines it writes whole. -/
structure FarRun where
  rid : Nat
  serial : Nat
  /-- Gleaner work with a lower identity number is older. -/
  bound : Nat := 0
  lanes : Nat
  what : FarWhat
  todo : List FarStep
  free : Bool := false
  acq : Bool := false
  ticket : Bool := false
  pins : List PinnedPage := []
  whole : List Nat := []
  /-- Its word has still to end; none when the word has completed already. -/
  last : Option FarEnd := none
  deriving DecidableEq, Repr

/-- An engine event record (R186): engine, index, code and the failing far address. -/
structure EngineEvent where
  engine : Nat
  index : Nat
  code : Nat
  addr : Word := 0
  /-- It is the event of an operation whose xd, the index, answers 2^63 | 0xFF (R164). -/
  answers : Bool := false
  deriving DecidableEq, Repr

/-- What a hart context is doing (R33, R139, R184, R188). -/
inductive Status where
  /-- Not holding any context. -/
  | free
  /-- Runnable, with no quad yet: waits for dispatch (R33, R139, R252). -/
  | runnable
  | running
  /-- Asleep at a `WAIT` word (R381). -/
  | sleeping
  | halted
  | ended
  deriving DecidableEq, Repr

/-- A hart context (R21, R46): its architectural state, saved and restored as a whole by pre-emption. -/
structure Hart where
  pc : Word := 0
  x : Vector Word 32 := Vector.replicate 32 0
  v : Vector VReg 64 := Vector.replicate 64 {}
  p : Vector Nat 64 := Vector.replicate 64 0
  k : Vector Counter 8 := Vector.replicate 8 {}
  z : Vector Slot 8 := Vector.replicate 8 {}
  /-- The sheaf instance that h0 to h15 hold. -/
  hreg : Vector (Option Nat) 16 := Vector.replicate 16 none
  /-- Lane tables (R110): bytes by 8192·i + offset of granted lane i, zero where unlisted, ascending. -/
  laneTab : List (Nat × Byte) := []
  /-- The granted lanes whose table has been written since the grant, a bit each (R190). -/
  laneMask : Nat := 0
  queue : List Block := []
  /-- The granted quads of the stead (R30, R48). -/
  grant : BitVec 64 := 1
  /-- Flail rows held: base and count (R44, R48). -/
  rowBase : Nat := 0
  rowCount : Nat := 0
  /-- Tile bin cells of the held rows (R19, R315): (row, column, 32 bits), zero where unlisted, ascending. -/
  cells : List (Nat × BitVec 32) := []
  /-- High-water marks of the held rows (R190), zero where unlisted. -/
  marks : List (Nat × Nat) := []
  farm : Nat := 0
  stripId : Word := 0xFFFFFFFFFFFFFFFF
  holdsStrip : Bool := false
  part : Nat := 0
  vstart : Nat := 0
  /-- `VSTART` stands as a trap left it, for the instruction after resumption: blocks of the handler start at
  element 0 (R42, R43). DEDUCED: notes/assumptions/22. -/
  startHeld : Bool := false
  vla : Nat := 0
  vfret : Word := 0
  ropepart : BitVec 24 := 0
  fmtdef : BitVec 32 := 0x0028A28A
  frm : BitVec 3 := 0
  fflags : BitVec 6 := 0
  nwin : BitVec 32 := 0
  ntEn : BitVec 6 := 0
  ntHost : BitVec 6 := 0
  nthr : Vector (BitVec 32) 6 := Vector.replicate 6 0
  ncnt : Vector (BitVec 32) 6 := Vector.replicate 6 0
  bank0 : TrapBank := {}
  bank1 : TrapBank := {}
  level : Nat := 0
  engev : Word := 0
  events : List EngineEvent := []
  lost : Bool := false
  dbg : BitVec 2 := 0
  retcount : Nat := 0
  /-- Quad-clocks held since the context was created (R46), and since its last dispatch (R144). -/
  lanecyc : Nat := 0
  sinceDispatch : Nat := 0
  /-- Scalar registers whose answer an operation owes (R164), with the operation's number. -/
  pending : List (Reg × Nat) := []
  /-- Scalar registers that hold the answer 2^63 | 0xFF of a failed operation and have not been read (R187). -/
  failedX : List Reg := []
  status : Status := .free
  /-- The scheduler ends the hart as at `EXIT` (R155, R184). -/
  ending : Bool := false
  /-- The word a `WAIT` sleeps at, where it stands in memory, and the value it compares with (R381). -/
  sleepAddr : Word := 0
  sleepPas : List Nat := []
  sleepCmp : Word := 0
  /-- On dispatch the hart goes on at the next instruction: it yielded, or the read that woke it differed (R381). -/
  resumeNext : Bool := false
  /-- Quads owed at the next dispatch (R33, R142). -/
  owed : Nat := 0
  /-- The model's number of the request that a runnable context made of its stead's allocator (R31). -/
  since : Nat := 0
  /-- The hart is placed and waits for its reserved quad, since this moment (R252). -/
  needsReserved : Option Nat := none
  /-- The scheduler has asked to pre-empt the hart; the context has been pre-empted and not restored (R144, R188). -/
  asked : Bool := false
  preempted : Bool := false
  /-- The registers whose answers were still owed when the hart was saved (R188, R190). -/
  owedX : List Reg := []
  /-- A gang member that has its quads and waits for the rest of its gang (R135, R144). -/
  gangWait : Bool := false
  /-- Numbers of the `ADV`s that may still be unfinished (R85). -/
  advs : List Nat := []
  barcount : Nat := 0
  /-- This `BAR` has counted already and waits for the others (R275). -/
  barWaiting : Bool := false
  /-- The `EXIT` has cleared the hart's sheaves and closed its slots, and waits for its release (R281). -/
  exiting : Bool := false
  /-- The instruction queue and the store buffer: retired accesses that have not performed, in program order. -/
  sbuf : List Pending := []
  /-- Vector accesses in flight, in program order (R116, R121). -/
  vq : List FarRun := []
  /-- Elements that a vector load has read while the word before it waits (R40, R119): the load's word, the element and
  its bits. -/
  early : List (Word × Nat × Nat) := []
  /-- A fault of a control-stream instruction that waits for older blocks (R182): cause, `EVAL`, `EPC`. -/
  trapWait : Option (Cause × Word × Word) := none
  /-- The model's serial number of the next block. DESIGN CHOICE: notes/assumptions/4. -/
  nextSerial : Nat := 0
  /-- The stream cannot advance before another agent does. DESIGN CHOICE: notes/assumptions/4. -/
  ctlStall : Bool := false
  seqStall : Bool := false
  deriving DecidableEq, Repr

/-- A hart context as reset leaves it (R47, R48, R69, R77, R145, R183).
DESIGN CHOICE: notes/assumptions/1. -/
def Hart.reset : Hart := {}

/-- One dimension of a sheaf descriptor (R73) with its coefficients (R71). -/
structure Dim where
  pk : Bool
  e : Nat
  o : Int
  n : Nat
  stride : Int
  coef : List Int
  deriving DecidableEq, Repr

/-- The modes of R72. -/
inductive Mode where
  | inp | out | inout | foldO | foldU | loc
  deriving DecidableEq, Repr

/-- A sheaf descriptor (R71 to R73); `dims` are those below the rank. -/
structure Desc where
  base : Word
  mode : Mode
  fmt : Fmt
  fmtCode : Nat
  shared : Bool
  tab : Bool
  tdim : Nat
  tsrc : Nat
  look : Nat
  pace : Nat
  dims : List Dim
  /-- Its 128 bytes as `HSET` read them, which a context image keeps (R190). -/
  raw : BitVec 1024 := 0
  deriving DecidableEq, Repr

/-- Who shares a loft line (R87): the IN, OUT and INOUT sheaves of a handle with unit stride; its FOLD.U sheaves of one
format; or one sheaf alone. -/
inductive Sharing where
  | plain (part handle : Nat)
  | fold (part handle fmt : Nat)
  | own (sid : Nat)
  deriving DecidableEq, Repr

/-- The name of a loft line in its stead's directory (R87): a far line of a handle that IN, OUT and INOUT sheaves with
unit stride share; a far line that FOLD.U sheaves of one format share; a far line that one sheaf holds alone; an
element that one sheaf gathers, by its far bit address; a line of its local window; a line of a remote block. -/
inductive LineKey where
  | far (part handle idx : Nat)
  | fold (part handle fmt idx : Nat)
  | own (sid handle idx : Nat)
  | gath (sid bit : Nat)
  | loc (sid idx : Nat)
  | remote (by_ : Sharing) (entry idx : Nat)
  deriving DecidableEq, Repr

/-- Where the fetch of a loft line stands (R89, R93, R96). -/
inductive LineStatus where
  /-- Not fetched: it began as zero. -/
  | zero
  | inflight
  | arrived
  | failed (c : Cause)
  deriving DecidableEq, Repr

/-- A loft line (R87, R89): its 64 bytes, the bytes that are dirty, those stored since it became resident, the fold
elements touched (bit offsets in the line), and the sheaf instances whose windows cover it. -/
structure Line where
  stead : Nat
  key : LineKey
  status : LineStatus
  data : BitVec 512 := 0
  dirty : BitVec 64 := 0
  stored : BitVec 64 := 0
  touched : List Nat := []
  /-- What loads show of fold elements that a save of the hart has folded into far memory (R99). -/
  kept : List (Nat × Nat) := []
  holders : List Nat := []
  /-- The fetch that fills it, and the sheaf instances of a multicast that have not come to cover it yet (R98). -/
  fid : Nat := 0
  expected : List Nat := []
  /-- A line of a retired sequence page: what it owes is discarded (R149). -/
  dead : Bool := false
  deriving DecidableEq, Repr

/-- A window of a sheaf as its order found it (R75, R76): the counter values and, for a table-driven dimension, the
entry read from the table, or none when the index failed. -/
structure Window where
  kvec : List Nat
  entry : Option Nat := none
  bad : Bool := false
  deriving DecidableEq, Repr

/-- A harvest order (R83, R86): the `ADV` or other instruction that made it, the counters after the change, the blocks
it must let complete before it releases, whether its fetches have been taken up, and how many windows it named. -/
structure Order where
  oid : Nat
  adv : Nat := 0
  counters : List Counter
  serial : Nat
  /-- Serial numbers of the blocks held when the order was queued, which it does not wait for (R43). -/
  skip : List Nat := []
  final : Bool := false
  taken : Bool := false
  wins : Nat := 0
  /-- Vectors that queued blocks captured, whose windows an order after a restore names as well (R99). -/
  also : List (List Nat) := []
  deriving DecidableEq, Repr

/-- A loaded sheaf (R79): its hart and register, its descriptor and the far address of that, the lines it reserves,
the orders queued on it, and the windows its directory lines stand for, the newest first. -/
structure Sheaf where
  sid : Nat
  hart : Nat
  part : Nat
  stead : Nat
  reg : Nat
  key : Word
  desc : Desc
  reserved : Nat
  orders : List Order := []
  windows : List Window := []
  /-- Its hart is saved: it reserves nothing (R99). -/
  parked : Bool := false
  /-- What its lines showed when its hart was saved: the line, its bytes, and the fold elements folded by then (R99). -/
  saved : List (LineKey × BitVec 512 × List (Nat × Nat)) := []
  deriving DecidableEq, Repr

/-- A fetch of one line (R128): the order that asked for it, its far address (its entry, for a line of another chip),
the steads its multicast still goes to (R98), what was read, and whether it has arrived on its own stead. -/
structure Fetch where
  fid : Nat
  stead : Nat
  sid : Nat
  hart : Nat
  part : Nat
  key : LineKey
  addr : Word
  oid : Nat
  adv : Nat := 0
  multicast : List Nat := []
  /-- It goes to other steads too, so that each of them takes the lines of a window in order (R202). -/
  cast : Bool := false
  got : Option (BitVec 512) := none
  failed : Option Cause := none
  arrived : Bool := false
  deriving DecidableEq, Repr

/-- A write-back or a fold owed (R116, R120): its dirty bytes; dirty elements that a sheaf gathered, each with its far
bit address and its value; or one touched element and its value. -/
inductive DebtKind where
  | write (data : BitVec 512) (mask : BitVec 64)
  | scatter (fmt : Fmt) (els : List (Nat × Nat))
  | fold (fmt : Fmt) (off : Nat) (value : Nat)
  deriving DecidableEq, Repr

/-- Dirty bytes of a neighbouring line that belong to one write step with a write-back, since elements of 6 bits lie
across the two (R91). -/
structure Spill where
  key : LineKey
  addr : Word
  data : BitVec 512
  mask : BitVec 64
  deriving DecidableEq, Repr

/-- An entry of a return queue (R116): the sheaf, hart and register that owe it, the far address of its line, and the
strip of a FOLD.O fold (R90). -/
structure Debt where
  did : Nat
  sid : Nat
  hart : Nat
  part : Nat
  stead : Nat
  reg : Nat
  farm : Nat
  /-- The order, or the flush, that made it. -/
  oid : Nat
  adv : Nat := 0
  key : LineKey
  addr : Word
  kind : DebtKind
  /-- What the neighbouring lines owe in the same write step (R91). -/
  spill : List Spill := []
  /-- A fold of a FOLD.O sheaf, and the strip held when it was issued. -/
  ordered : Bool := false
  strip : Option Nat := none
  fromExit : Bool := false
  /-- Of a retired sequence page (R149). -/
  dead : Bool := false
  /-- It is on its way to the chip that performs it (R205, R207). -/
  sent : Bool := false
  deriving DecidableEq, Repr

/-- A field of the Granary key (R163). -/
structure GKey where
  field : Nat
  seq : Nat
  low : Nat
  deriving DecidableEq, Repr

/-- A deposit sheet (R167). -/
structure Deposit where
  tokens : Word
  payload : Word
  parent : Nat
  npages : Nat
  field : Nat
  seq : Nat
  deriving DecidableEq, Repr

/-- A Sieve job sheet (R171); floats as bits. -/
structure JobSheet where
  pos : Word
  count : Nat
  cap : Nat
  pmask : Nat
  home : Nat
  l : List Nat
  rc : Nat
  s : Nat
  deriving DecidableEq, Repr

/-- What an operation asks of the engine or the scheduler (R129). -/
inductive OpKind where
  | launch (sheet : Word)
  | pswap (addr : Word) (n : Nat)
  | gfind (addr : Word) (key : GKey)
  | gdep (d : Deposit)
  | gpin (node : Nat) (key : GKey)
  | gunpin (node : Nat) (key : GKey)
  | gload (node : Nat) (key : GKey)
  | gdrop (node : Nat) (key : GKey)
  | sbin (sheet : Word) (j : JobSheet)
  | spair (sheet : Word) (home : Nat) (z : ZIx) (first count : Nat) (full : Bool)
  | sstat (sheet : Word) (home : Nat)
  deriving DecidableEq, Repr

/-- An operation handed over and not settled (R116, R164). -/
structure Op where
  oid : Nat
  hart : Nat
  part : Nat
  tenant : Nat
  xd : Reg
  kind : OpKind
  /-- 0 until it is served. A `GDEP` that answered OK is then to be adopted (1), to be made ready (2), or has failed
  (3); a `LAUNCH` waits for its farm, and a `GLOAD` for the ready step of its node (1). -/
  phase : Nat := 0
  /-- The node of a `GDEP` that answered OK, or of a `GLOAD` that waits. -/
  node : Nat := 0
  /-- What the engine's read steps for the operation have read so far (R118). -/
  got : List (List Byte) := []
  deriving DecidableEq, Repr

/-- A farm that has not completed (R133 to R137, R310). -/
structure Farm where
  part : Nat
  id : Nat
  entry : Word
  arg : Word
  batch : Word
  hmin : Nat
  hmax : Nat
  gang : Bool
  bin : Option Nat
  trips : Nat
  z : Nat
  done : Word
  started : Bool := false
  /-- The stead of the hart that launched it (R252), and the bin it was launched from (R147, R152). -/
  stead : Option Nat := none
  fromBin : Option Nat := none
  /-- Harts placed that have not executed `EXIT`, and those that have. -/
  harts : List Nat := []
  exited : List Nat := []
  nextStrip : Nat := 0
  /-- Strips whose harts have closed them (R90). -/
  closed : List Nat := []
  stopped : Bool := false
  /-- The `LAUNCH` whose xd still waits for placement (R253), and the answer it owes. -/
  op : Option Nat := none
  deriving DecidableEq, Repr

/-- A live sequence (R148, R149, R328). -/
structure Seq where
  id : Nat
  hart : Nat
  farm : Nat
  recAddr : Word
  table : Word
  cap : Nat
  len : Nat
  pool : Nat
  stops : List Nat
  /-- The device virtual pages mapped for it, each with its intermediate page. -/
  pages : List (Nat × Nat) := []
  deriving DecidableEq, Repr

/-- A posted policy event (R151): kind, cause and fields 2 to 5. -/
structure PolEvent where
  kind : Nat
  cause : Nat := 0
  f2 : Nat := 0
  f3 : Nat := 0
  f4 : Nat := 0
  f5 : Nat := 0
  /-- The field of a POISON event, and whether field 2 names a context. -/
  aux : Nat := 0
  named : Bool := false
  deriving DecidableEq, Repr

/-- The rake policy of a partition (R152, R156, R158, R159). -/
structure Policy where
  active : Option (List (BitVec 16)) := none
  shadow : Option (List (BitVec 16)) := none
  m : List (BitVec 32) := List.replicate 16 0
  count : Nat := 0
  total : Nat := 0
  disabled : Bool := true
  deriving DecidableEq, Repr

/-- What the scheduler keeps of an intake bin (R152, R383): its head once in use, its credit, and whether a failed
read of it has been posted. -/
structure Bin where
  head : Option Nat := none
  credit : BitVec 32 := 0
  posted : Bool := false
  deriving DecidableEq, Repr

/-- A record of a virtual function's event queue (R215). -/
structure HostRecord where
  kind : Nat
  hart : Nat
  cause : Word
  value : Word
  time : Nat
  deriving DecidableEq, Repr

/-- An export entry (R206), with the exporting partition. -/
structure Export where
  part : Nat := 0
  base : Word := 0
  low : Word := 0
  deriving DecidableEq, Repr

/-- The payload that `GLOAD` has bound to a handle (R169): the operation that bound it, the tenant, its field and node,
its physical pages, and whether the ready step has been. -/
structure GBind where
  owner : Nat
  tenant : Nat
  field : Nat
  node : Nat
  pages : List Nat
  ready : Bool
  deriving DecidableEq, Repr

/-- A partition (R140 to R145, R149 to R159, R169, R180, R206, R215). -/
structure Part where
  exists_ : Bool := false
  record : PartRec := {}
  tdeleg : BitVec 24 := 0
  stvec : Word := 0
  /-- Quad budget b(p, s) by stead (R141). -/
  budget : List Nat := []
  /-- The stead partition slot by stead (R36). -/
  slots : List (Nat × Nat) := []
  nextFarm : Nat := 1
  /-- Strips completed in the current millisecond, its number, and those of the one before (R141). -/
  stripsNow : Nat := 0
  msNow : Nat := 0
  stripsPrev : Nat := 0
  seqs : List Seq := []
  pages : Nat := 0
  events : List PolEvent := []
  policy : Policy := {}
  bins : List Bin := []
  /-- Contexts in the order in which they became runnable (R139, R144). -/
  order : List Nat := []
  /-- When the current time slice began (R144). -/
  sliceStart : Option Nat := none
  /-- Free harts and ready heads at the last DISPATCH decision that launched nothing. -/
  idleAt : Option (Nat × List Nat) := none
  hostQueue : List HostRecord := []
  hostTail : Nat := 0
  hostDrop : Bool := false
  hostVector : Nat := 0
  gbind : List (Nat × GBind) := []
  deriving DecidableEq, Repr

/-- State of a Granary node (R162). -/
inductive NodeState where
  | filling | ready | poisoned
  deriving DecidableEq, Repr

/-- A node of a Granary field (R162); the root is listed, free slots are not. -/
structure Node where
  id : Nat
  hash : Word
  state : NodeState
  npages : Nat
  depth : Nat
  parent : Nat
  stamp : Nat
  plist : List Nat
  chunk : List Nat
  deriving DecidableEq, Repr

/-- A pin (R169): its node, the partition and the sequence it is recorded against, 0 for none, or the slot of a
`GLOAD` binding. -/
structure Pin where
  node : Nat
  part : Nat
  seq : Nat
  slot : Option Nat := none
  deriving DecidableEq, Repr

/-- A Granary field (R160). Pool page i is the physical 64 KiB page that `pool` names; a page of a poisoned node is
neither free nor held by a node that is not poisoned (R170). -/
structure GField where
  tenant : Nat
  num : Nat
  part : Nat
  record : FieldRec
  nodes : List Node := []
  pins : List Pin := []
  pool : List Nat := []
  free : List Nat := []
  deriving DecidableEq, Repr

/-- A pair stream of a Sieve job (R176): its hart and slot, the candidate pairs still to form, the position of the next
pair's first point when it has been read (R118), and the records sent so far. -/
structure PairStream where
  id : Nat
  hart : Nat
  z : ZIx
  todo : List (Nat × Nat)
  got : List (List Byte) := []
  sent : Nat := 0
  deriving DecidableEq, Repr

/-- A Sieve job (R171 to R175); `state` 2 is binned and 3 unbinned after OVERFLOW. The points of each cell, empty where
unlisted; the positions it was binned at, as the bits of x, y and z; the largest occupancy of a cell. -/
structure Job where
  part : Nat
  sheetAddr : Word
  sheet : JobSheet
  state : Nat
  cells : List (Nat × List Nat) := []
  ref : List (List Nat) := []
  occupancy : Nat
  streams : List PairStream := []
  deriving DecidableEq, Repr

/-- A flit in transit on a link (R116, R131): to hart and slot, from hart and slot. -/
structure Transit where
  toHart : Nat
  toSlot : ZIx
  fromHart : Nat
  fromSlot : ZIx
  flit : Flit
  deriving DecidableEq, Repr

/-- A remote write-back or fold that an intake tier holds (R207). -/
structure HeldWrite where
  id : Nat
  part : Nat
  bin : Nat
  req : RemoteReq
  since : Nat
  expired : Bool := false
  deriving DecidableEq, Repr

/-- A write that the scheduler still owes for a launch from an intake bin (R147): the far address and bytes, or the new
head of a bin's header; the farm it launched, or 0. -/
structure OwedWrite where
  id : Nat := 0
  part : Nat
  farm : Nat
  head : Option Nat := none
  addr : Word := 0
  bytes : List Byte
  deriving DecidableEq, Repr

/-- A part of a change of an operating point (R219). -/
inductive PointMove where
  | mv (v : Nat)
  | mhz (f : Nat)
  deriving DecidableEq, Repr

/-- The operating point of a stead (R219, R220): request and thermal cap in MHz, requested millivolts, the last
temperature seen. -/
structure OpPoint where
  reqMhz : Nat := 3600
  reqMv : Nat := 0
  capMhz : Nat := 3600
  tempC : Nat := 0
  /-- What the last change of the point in force did, in its order: a voltage or a frequency (R219). -/
  moves : List PointMove := []
  deriving DecidableEq, Repr

/-- The units of the part (R49, R1): the reset values are those of an RZP-4812.
DEDUCED: notes/assumptions/51. -/
structure Caps where
  barncols : Nat := 16
  stackCount : Nat := 12
  quads : Nat := 64
  harts : Nat := 192
  cores : Nat := 48
  steads : Nat := 12
  links : Nat := 18
  mib : Nat := 1376256
  impl : Nat := 1
  arch : Nat := 1
  deriving DecidableEq, Repr

/-- Where bring-up stands (R217). -/
inductive Phase where
  | closed | open_ | recovery
  deriving DecidableEq, Repr

/-- A turn that the model's schedule gives to an agent: a hart's control stream, its vector sequencer, its store
buffer (the i-th entry), or another agent's step. -/
inductive Turn where
  | control (h : Nat)
  | blocks (h : Nat)
  | drain (h : Nat) (i : Nat)
  | event (i : Instr)
  /-- The control stream's next access retires before it performs (R119). -/
  | late (h : Nat)
  /-- The sequencer's next vector access passes its probe, and its elements perform later (R118, R121). -/
  | issue (h : Nat)
  /-- One element of a vector access in flight performs: which access, and which of its elements left. -/
  | elem (h : Nat) (i j : Nat)
  /-- An engine or the scheduler takes one read or write step (R118): for an operation, a pair stream, a held write, or a
  write it owes. -/
  | read (op : Nat)
  /-- An element of the vector load behind a word that waits is read (R40, R119). -/
  | early (h : Nat)
  deriving DecidableEq, Repr

/-- The state of the machine. -/
structure State where
  /-- The hart context that runs, its `HARTID`, and the other contexts by ascending `HARTID`; an unlisted context
  is as reset leaves it. -/
  hart : Hart := {}
  cur : Nat := 0
  others : List (Nat × Hart) := []
  /-- Main memory at physical addresses (R117), in canonical form. -/
  mem : List Host.Cell := []
  /-- Poisoned 64-byte lines (R210), by line number; parity groups with two failed channels, whose every line is
  poisoned (R211), but for the lines that a store has written whole since. -/
  poisoned : List Nat := []
  deadGroups : List Nat := []
  healed : List Nat := []
  /-- Partitions that have been told of a poisoned line (R384): (partition, line). -/
  toldPoison : List (Nat × Nat) := []
  /-- Pages marked scrub-pending (R115), by 64 KiB page number. -/
  scrub : List Nat := []
  /-- Pages the device has mapped itself (R149, R167): (partition, virtual page, intermediate page), and
  (partition, intermediate page, physical page or none). DESIGN CHOICE: notes/assumptions/7. -/
  over1 : List (Nat × Nat × Nat) := []
  over2 : List (Nat × Nat × Option Nat) := []
  /-- Free 64 KiB pages of the device page pool (R114). -/
  pool : List Nat := []
  /-- Clocks of R6 since reset, `TIME`, and by stead the 36ths of a clock of its own that have passed (R46, R219). -/
  clk : Nat := 0
  time : Nat := 0
  sclk : List Nat := List.replicate 12 0
  /-- The same before the last clock passed (R70). -/
  sclkWas : List Nat := List.replicate 12 0
  ticket : Nat := 0
  sheaves : List Sheaf := []
  lines : List Line := []
  fetches : List Fetch := []
  debts : List Debt := []
  ops : List Op := []
  parts : List (Nat × Part) := []
  farms : List Farm := []
  fields : List GField := []
  jobs : List Job := []
  transit : List Transit := []
  held : List HeldWrite := []
  /-- Writes that the scheduler still owes, in its order (R118, R147). -/
  schedWrites : List OwedWrite := []
  /-- Write-backs and folds that other chips have not performed yet, the oldest first: chip and request (R113, R205). -/
  outbox : List (Nat × RemoteReq) := []
  /-- Export entries by 8 × tenant + tier (R206). -/
  exports : List (Nat × Export) := []
  /-- Harts whose probe waits for pins, in order of arrival (R108); invalidations that are not complete: partition,
  whether of stage 2, and page. -/
  pinWait : List Nat := []
  invals : List (Nat × Bool × Nat) := []
  /-- Sleeping harts to whose word a write has performed since the scheduler last read it (R381). -/
  rereads : List Nat := []
  caps : Caps := {}
  /-- Powered barn columns of each base die (R203, R204). -/
  columns : List (List Nat) := [[0, 1, 2, 3, 4, 5, 6, 7], [0, 1, 2, 3, 4, 5, 6, 7]]
  threshold : Nat := 8
  /-- Row remaps recorded (R212), failed channels (R211). -/
  remaps : List (Nat × Nat) := []
  /-- Corrected errors of each row since its last repair (R212): bank, row and count. -/
  rowErrors : List ((Nat × Nat) × Nat) := []
  badChannels : List Nat := []
  points : List OpPoint := List.replicate 12 {}
  telemetry : List Nat := List.replicate 16 0
  log : List (BitVec 512) := []
  phase : Phase := .closed
  bringupStatus : Nat := 0
  /-- Refused creations of fields that the physical function reports: partition and field (R385). -/
  refusedFields : List (Nat × Nat) := []
  report : Option (List Byte) := none
  /-- The model's own: turns given out of the default order, clocks of the next steps, stores that wait, the
  number of the next free value, and the next identity number. DESIGN CHOICE: notes/assumptions/3, 4 and 5. -/
  agenda : List Turn := []
  pace : List Nat := []
  delay : List Bool := []
  draw : Nat := 0
  nextId : Nat := 1
  deriving DecidableEq, Repr

/-- The machine right after reset: every field at its reset value.
DESIGN CHOICE: notes/assumptions/1. -/
def State.reset : State := {}

end Sys2Proof.Machine
end

