-- ==== Sys2Proof/Machine/Ops.lean ====
section
/-!
DEFINITION. The named operations over memory, registers, translation, events and traps that every meaning uses.
-/

namespace Sys2Proof.Machine

/-- An outcome of this machine. -/
abbrev Out := Host.Outcome State Fault Refusal

/- Lists kept as sparse maps. -/

/-- Looks up a key. -/
def alookup {α : Type} (l : List (Nat × α)) (k : Nat) : Option α :=
  match l with
  | [] => none
  | (i, a) :: l => if i = k then some a else alookup l k

/-- Puts a value under a key, keys ascending. -/
def ainsert {α : Type} (l : List (Nat × α)) (k : Nat) (a : α) : List (Nat × α) :=
  match l with
  | [] => [(k, a)]
  | (i, b) :: l => if k < i then (k, a) :: (i, b) :: l else if k = i then (k, a) :: l else (i, b) :: ainsert l k a

/-- Removes a key. -/
def aerase {α : Type} (l : List (Nat × α)) (k : Nat) : List (Nat × α) := l.filter (fun e => e.1 != k)

/- Harts and partitions. -/

/-- The context of `HARTID` h. -/
def State.hartAt (s : State) (h : Nat) : Hart :=
  if h = s.cur then s.hart else (alookup s.others h).getD Hart.reset

/-- Replaces the context of `HARTID` h. -/
def State.setHartAt (s : State) (h : Nat) (v : Hart) : State :=
  if h = s.cur then { s with hart := v } else { s with others := ainsert s.others h v }

/-- Replaces the current hart. -/
def State.withHart (s : State) (v : Hart) : State := { s with hart := v }

/-- Makes h the current hart.
DESIGN CHOICE: notes/assumptions/18. -/
def State.switchTo (s : State) (h : Nat) : State :=
  if h = s.cur then s
  else { s with hart := s.hartAt h, cur := h, others := ainsert (aerase s.others h) s.cur s.hart }

/-- The stead of a hart (R12). -/
def steadOf (h : Nat) : Nat := h / 16

/-- `CLKCOUNT` of the harts of stead st: its own clocks since reset (R18, R46). -/
def State.steadClk (s : State) (st : Nat) : Nat := s.sclk.getD st 0 / 36

/-- The partition numbered p; an unlisted one has not been written since reset. -/
def State.partAt (s : State) (p : Nat) : Part := (alookup s.parts p).getD {}

/-- Replaces partition p. -/
def State.setPartAt (s : State) (p : Nat) (v : Part) : State := { s with parts := ainsert s.parts p v }

/-- The tenant of partition p, which `TENANT` of its harts reads as (R101, R140, R145). -/
def State.tenantOf (s : State) (p : Nat) : Nat := (s.partAt p).record.tenant

/-- Every hart context that may hold state, by `HARTID`. -/
def State.hartIds (s : State) : List Nat := (s.cur :: s.others.map (·.1))

/- Memory. -/

/-- What an unlisted byte of memory reads as (the model's choice, notes/assumptions/2).
DESIGN CHOICE: notes/assumptions/2. -/
def unlistedByte : Byte := 0

/-- The byte at a physical address of a memory in canonical form. -/
def memGet : List Host.Cell → Nat → Byte
  | [], _ => unlistedByte
  | (k, v) :: m, a => if a = k then v else if a < k then unlistedByte else memGet m a

/-- Writes a byte and keeps the canonical form. -/
def memSet : List Host.Cell → Nat → Byte → List Host.Cell
  | [], a, b => if b = unlistedByte then [] else [(a, b)]
  | (k, v) :: m, a, b =>
    if a < k then (if b = unlistedByte then (k, v) :: m else (a, b) :: (k, v) :: m)
    else if a = k then (if b = unlistedByte then m else (a, b) :: m)
    else (k, v) :: memSet m a b

/-- Addresses at or above `lo` rise strictly and no cell holds the unlisted value. -/
def memWfFrom : Nat → List Host.Cell → Bool
  | _, [] => true
  | lo, (k, v) :: m => decide (lo ≤ k) && v != unlistedByte && memWfFrom (k + 1) m

/-- The canonical form of memory. -/
def Memory.wf (m : List Host.Cell) : Bool := memWfFrom 0 m

/-- Drops the cells of 64 KiB page `pg`. -/
def memDropPage (m : List Host.Cell) (pg : Nat) : List Host.Cell := m.filter (fun c => c.1 / 65536 != pg)

/-- One byte of main memory as a read step gives it: a page marked scrub-pending reads as zeros (R115). -/
def State.byteAt (s : State) (pa : Nat) : Byte :=
  if s.scrub.contains (pa / 65536) then 0 else memGet s.mem pa

/-- The first write to a scrub-pending page zeroes the page, whose lines lose their poison as they are written whole,
and clears the mark (R115, R210). -/
def State.scrubbed (s : State) (pg : Nat) : State :=
  if s.scrub.contains pg then
    { s with mem := memDropPage s.mem pg, scrub := s.scrub.filter (· != pg)
             poisoned := s.poisoned.filter (fun l => l / 1024 != pg)
             healed := if s.deadGroups.isEmpty then s.healed
                       else s.healed ++ ((List.range' (1024 * pg) 1024).filter (fun l => !s.healed.contains l)) }
  else s

/-- The sleeping harts whose word holds a physical address (R381). -/
def State.sleepers (s : State) (pa : Nat) : List Nat :=
  s.hartIds.filter (fun h => (s.hartAt h).status == .sleeping && (s.hartAt h).sleepPas.contains pa)

/-- One byte written to main memory; the scheduler then reads the word again for the harts that sleep on it (R381). -/
def State.setByte (s : State) (pa : Nat) (b : Byte) : State :=
  let s := s.scrubbed (pa / 65536)
  { s with mem := memSet s.mem pa b, rereads := s.rereads ++ (s.sleepers pa).filter (fun h => !s.rereads.contains h) }

/-- A line is poisoned (R210, R211); a page marked scrub-pending reads as zeros without its memory being read, so that
none of its lines is met as poisoned (R115). -/
def State.isPoisoned (s : State) (l : Nat) : Bool :=
  !s.scrub.contains (l / 1024) && (s.poisoned.contains l ||
    (!s.deadGroups.isEmpty && s.deadGroups.contains (Config.lineGroup l) && !s.healed.contains l))

/-- Lines that lose their poison (R210). -/
def State.cleanse (s : State) (ls : List Nat) : State :=
  { s with poisoned := s.poisoned.filter (fun l => !ls.contains l)
           healed := if s.deadGroups.isEmpty then s.healed else s.healed ++ ls.filter (fun l => !s.healed.contains l) }

/-- The lines that hold a list of physical addresses, each once. -/
def linesAt (pas : List Nat) : List Nat :=
  pas.foldl (fun l pa => if l.contains (pa / 64) then l else l ++ [pa / 64]) []

/-- Every byte of line l stands in a list of physical addresses. -/
def wholeLine (pas : List Nat) (l : Nat) : Bool := (List.range 64).all (fun i => pas.contains (l * 64 + i))

/-- Bytes at a list of physical addresses. -/
def State.readAll (s : State) (pas : List Nat) : List Byte := pas.map s.byteAt

/-- Writes bytes to a list of physical addresses, in order. -/
def State.writeAll (s : State) : List Nat → List Byte → State
  | pa :: pas, b :: bs => (s.setByte pa b).writeAll pas bs
  | _, _ => s

/-- A little-endian value of bytes (R4). -/
def ofBytes : List Byte → Nat
  | [] => 0
  | b :: bs => b.toNat + 256 * ofBytes bs

/-- The n low bytes of a value, little-endian. -/
def toBytes : Nat → Nat → List Byte
  | 0, _ => []
  | n + 1, v => BitVec.ofNat 8 v :: toBytes n (v / 256)

/- Scalar registers. -/

/-- x[i] of R262: x0 reads 0 (R21). -/
def Hart.rd (h : Hart) (r : Reg) : Word := if r = 0 then 0 else h.x[r.val]

/-- Writes x[i]; a write to x0 is discarded (R21). An answer still owed to the register no longer arrives.
DEDUCED: notes/assumptions/24. -/
def Hart.wr (h : Hart) (r : Reg) (v : Word) : Hart :=
  if r = 0 then h
  else { h with x := h.x.set r.val v, pending := h.pending.filter (fun e => e.1 != r),
                failedX := h.failedX.filter (· != r) }

/-- A register awaits an engine's answer (R164). -/
def Hart.isPending (h : Hart) (r : Reg) : Bool := h.pending.any (fun e => e.1 == r)

/-- xd awaits the answer of operation oid (R129, R164). -/
def Hart.owe (h : Hart) (d : Reg) (oid : Nat) : Hart :=
  if d = 0 then h
  else { h with pending := h.pending.filter (fun e => e.1 != d) ++ [(d, oid)], failedX := h.failedX.filter (· != d) }

/-- An answer that arrives: xd takes it when it is still owed it (R164).
DEDUCED: notes/assumptions/24. -/
def Hart.answer (h : Hart) (d : Reg) (oid : Nat) (v : Word) (failed : Bool) : Hart :=
  if h.pending.contains (d, oid) then
    { h with x := h.x.set d.val v, pending := h.pending.filter (· != (d, oid)),
             failedX := if failed then h.failedX ++ [d] else h.failedX }
  else h

/- Stalls. -/

/-- The control stream cannot go on before another agent has acted; nothing else changes. -/
def stallCtl (s : State) : Out := .next { s with hart := { s.hart with ctlStall := true } }

/-- The vector sequencer cannot go on before another agent has acted; nothing else changes. -/
def stallSeq (s : State) : Out := .next { s with hart := { s.hart with seqStall := true } }

/-- Blocks of the queue that no trap holds (R43). -/
def Hart.unheld (h : Hart) : List Block := h.queue.filter (fun b => b.held = 0)

/-- Every block queued before this point, but for the held ones, has completed (R26, R43), the accesses of theirs that
are in flight included. -/
def Hart.blocksDone (h : Hart) : Bool := h.queue.all (fun b => b.held != 0) && h.vq.isEmpty

/- Records and events. -/

/-- Appends a record to the event queue of partition p's virtual function (R215).
DEDUCED: notes/assumptions/50. -/
def State.postHost (s : State) (p : Nat) (r : HostRecord) : State :=
  let v := s.partAt p
  if v.hostQueue.length < 256 then
    s.setPartAt p { v with hostQueue := v.hostQueue ++ [r], hostTail := v.hostTail + 1, hostDrop := false,
                           hostVector := if v.hostQueue.isEmpty then v.hostVector + 1 else v.hostVector }
  else s.setPartAt p { v with hostDrop := true }

/-- Posts an event to the policy of partition p (R151). -/
def State.postPolicy (s : State) (p : Nat) (e : PolEvent) : State :=
  let v := s.partAt p
  s.setPartAt p { v with events := v.events ++ [e] }

/-- An engine event arrives at a hart (R186): a ninth one is dropped. -/
def Hart.queueEvent (h : Hart) (e : EngineEvent) : Hart :=
  if h.events.length < 8 then { h with events := h.events ++ [e] } else { h with lost := true }

/-- Queues an engine event on hart h (R186), and posts FAULT to the policy of its partition (R151).
DEDUCED: notes/assumptions/41. -/
def State.queueEvent (s : State) (h : Nat) (e : EngineEvent) : State :=
  let v := s.hartAt h
  (s.setHartAt h (v.queueEvent e)).postPolicy v.part
    { kind := 3, cause := 23, f2 := h, f3 := v.farm, f5 := e.addr.toNat % 1 <<< 32, named := true }

/-- An identity number that no earlier object has.
DESIGN CHOICE: notes/assumptions/4. -/
def State.fresh (s : State) : Nat × State := (s.nextId, { s with nextId := s.nextId + 1 })

/- Traps. -/

/-- The code of a cause (R181). -/
def causeCode : Cause → Nat
  | .illegal => 1 | .illegalv => 2 | .convoy => 3 | .priv => 4 | .align => 5 | .xfault => 6 | .region => 7
  | .sheaf => 8 | .sheafcfg => 9 | .loftfull => 10 | .fmt => 11 | .matt => 12 | .mdata => 13 | .stream => 14
  | .quota => 15 | .poison => 16 | .granary => 17 | .sieve => 18 | .numthr => 19 | .brk => 20 | .step => 21
  | .trap => 22 | .engine => 23

/-- Bits 56:2 of a word address (R183, R47). -/
def wordAddr (a : Word) : Word := a &&& 0x01FFFFFFFFFFFFFC

/-- eh of an `ESTATUS` (R183). -/
def TrapBank.eh (b : TrapBank) : Bool := b.estatus.getLsbD 3

/-- The level a trap of cause c goes to (R179, R180), before escalation. -/
def State.handlingLevel (s : State) (c : Cause) : Nat :=
  if s.hart.level = 0 && (s.partAt s.hart.part).tdeleg.getLsbD (causeCode c) then 0 else 1

/-- The scheduler stops a farm: its harts end as at `EXIT`, and its completion status will be 1 (R155). -/
def State.stopFarm (s : State) (p f : Nat) : State :=
  match s.farms.find? (fun g => g.part == p && g.id == f) with
  | none => s
  | some g =>
    let s := { s with farms := s.farms.map (fun g => if g.part == p && g.id == f then { g with stopped := true } else g) }
    g.harts.foldl (fun s h => s.setHartAt h { s.hartAt h with ending := true }) s

/-- A trap that would enter level 1 while its handler is active halts the hart (R184). -/
def State.halt (s : State) (c : Cause) : State :=
  let h := s.hart
  let r : HostRecord :=
    { kind := 2, hart := s.cur, cause := (h.bank1.cause &&& 0xFF) ||| BitVec.ofNat 64 (causeCode c <<< 8),
      value := h.bank1.eval, time := s.time }
  let s := { s with hart := { h with status := .halted, trapWait := none } }
  (s.postHost h.part r).stopFarm h.part h.farm

/-- `ESTATUS` at entry (R182, R183). -/
def entryStatus (ppl : Nat) (inblk nest : Bool) (pstep : BitVec 2) : Word :=
  BitVec.ofNat 64 (ppl + 8 + (if inblk then 16 else 0) + (if nest then 32 else 0) + 64 * pstep.toNat)

/-- Taking a trap (R182): cause c, `EVAL`, `EPC`, whether `EPC` is a block word, and the element. A trap with `EPC`
in a block holds the blocks that no trap holds yet and keeps the control stream's restart address (R41, R43). A trap of
the control stream that waits for older blocks goes (R182), also a NUMTHR whose instruction has retired, and also when
the older block takes STEP or a NUMTHR of its own, of which R182 does not speak.
DEDUCED: notes/assumptions/57. -/
def State.takeTrap (s : State) (c : Cause) (ev epc : Word) (inblk : Bool) (vst : Nat) : State :=
  let h := s.hart
  let l0 := s.handlingLevel c
  let esc := l0 = 0 && h.bank0.eh
  let l := if esc then 1 else l0
  if l = 1 && h.bank1.eh then s.halt c
  else
    let put (b : TrapBank) : TrapBank :=
      { b with epc := wordAddr epc, cause := BitVec.ofNat 64 (causeCode c), eval := ev,
               estatus := entryStatus h.level inblk esc h.dbg }
    let h := { h with
      bank0 := if l = 0 then put h.bank0 else h.bank0
      bank1 := if l = 1 then put h.bank1 else h.bank1
      vstart := vst
      startHeld := true
      dbg := 0
      level := l
      vfret := if inblk then wordAddr h.pc else h.vfret
      pc := if l = 0 then h.bank0.tvec else (s.partAt h.part).stvec
      queue := if inblk then h.queue.map (fun b => if b.held = 0 then { b with held := 1 + l } else b) else h.queue
      early := []
      trapWait := none }
    { s with hart := h }

/-- A trap at a control-stream instruction (R182): it waits for the blocks queued before it. -/
def State.trapCtl (s : State) (c : Cause) (ev epc : Word) : State :=
  if s.hart.blocksDone then s.takeTrap c ev epc false 0
  else { s with hart := { s.hart with trapWait := some (c, ev, epc), ctlStall := true } }

/-- A fault at the current control-stream instruction. -/
def faultAt (s : State) (c : Cause) (ev : Word) : Out := .next (s.trapCtl c ev s.hart.pc)

/-- A fault at a block word with `VSTART` e (R41). -/
def faultBlock (s : State) (c : Cause) (ev pos : Word) (e : Nat) : Out := .next (s.takeTrap c ev pos true e)

/-- The control-stream word the program counter stands at, as `EVAL` of ILLEGAL and PRIV holds it (R181). It is
what `step` fetched, so the meaning of an instruction is given it through its own encoding. -/
def illegalWord (s : State) (w : Nat) : Out := faultAt s .illegal (BitVec.ofNat 64 w)

/-- Ends a control-stream instruction that goes on at `next`: counts it (R46) and takes STEP when `DBGCTL` asked for
it (R193).
DEDUCED: notes/assumptions/19. -/
def State.retireStep (s : State) (step : Bool) (next : Word) : State :=
  let s := { s with hart := { s.hart with pc := next, retcount := s.hart.retcount + 1 } }
  if step then s.trapCtl .step 0 next else s

/-- Ends a control-stream instruction that does not write `DBGCTL`. -/
def State.retireTo (s : State) (next : Word) : State := s.retireStep (s.hart.dbg.getLsbD 0) next

/-- Ends a control-stream instruction that goes on at the next word. -/
def retire (s : State) : Out := .next (s.retireTo (s.hart.pc + 4))

/-- Ends a control-stream instruction that writes v to xd. -/
def retireWith (s : State) (d : Reg) (v : Word) : Out := retire { s with hart := s.hart.wr d v }

/-- The oldest engine event may be delivered now (R187): one is queued, and no handler is active at the level that
handles ENGINE. -/
def State.deliverable (s : State) : Bool :=
  !s.hart.events.isEmpty &&
    !(if s.handlingLevel .engine = 0 then s.hart.bank0.eh else s.hart.bank1.eh)

/-- `ENGEV` of a delivered event (R186). -/
def engevOf (e : EngineEvent) (lost : Bool) : Word :=
  BitVec.ofNat 64 (1 <<< 63 + (if lost then 1 <<< 62 else 0) + (e.engine % 16) <<< 56 + (e.index % 256) <<< 8 +
    e.code % 256)

/-- Delivers the oldest engine event as ENGINE at the current instruction (R187), once the blocks before it are
done (R182). -/
def deliverEngine (s : State) : Out :=
  match s.hart.events with
  | [] => stallCtl s
  | e :: es =>
    if s.hart.blocksDone then
      let h := { s.hart with
        events := es, engev := engevOf e s.hart.lost, lost := false
        failedX := if e.answers then s.hart.failedX.filter (·.val != e.index) else s.hart.failedX }
      .next ((s.withHart h).takeTrap .engine e.addr h.pc false 0)
    else stallCtl s

/-- A synchronising instruction delivers a queued event before it runs (R187). -/
def synchronise (s : State) (k : Out) : Out := if s.deliverable then deliverEngine s else k

/-- Runs an instruction that reads the registers rs: it waits for pending answers (R164), and reading the xd of a
failed operation delivers the event (R187).
DEDUCED: notes/assumptions/20. -/
def reading (rs : List Reg) (s : State) (k : Out) : Out :=
  if rs.any s.hart.isPending then stallCtl s
  else if rs.any s.hart.failedX.contains && s.deliverable then deliverEngine s
  else k

/- Flag accrual (R67 to R70). -/

/-- Adds the elements that raise class c to its count, which holds at its top (R69). -/
def bumpCount (c : BitVec 32) (n : Nat) : BitVec 32 := BitVec.ofNat 32 (min (c.toNat + n) 0xFFFFFFFF)

/-- Class c crosses: its count was added to and stands at or past its limit, and it is armed (R70).
DEDUCED: notes/assumptions/57. -/
def Hart.crosses (h : Hart) (fs : List Flags) (c : Fin 6) : Bool :=
  fs.any (hasClass · c.val) && h.ntEn.getLsbD c.val && h.nthr[c.val] != 0 && decide (h.nthr[c.val] ≤ h.ncnt[c.val])

/-- Adds the flags of elements to `FFLAGS` and to the counts (R67, R69). -/
def Hart.accrueFlags (h : Hart) (fs : List Flags) : Hart :=
  { h with fflags := fs.foldl (· ||| ·) h.fflags
           ncnt := Vector.ofFn (fun c : Fin 6 => bumpCount h.ncnt[c.val] (fs.countP (hasClass · c.val))) }

/-- `EVAL` of NUMTHR (R70). -/
def numthrEval (c : Nat) (count : BitVec 32) : Word := BitVec.ofNat 64 (c + count.toNat <<< 32)

/-- Accrues the flags of an instruction's elements; classes that cross are disarmed, those with a host bit signal
the host, and the lowest of the others is answered with its `EVAL` (R70). -/
def State.accrue (s : State) (fs : List Flags) : State × Option Word :=
  let h := s.hart.accrueFlags fs
  let crossed := (List.finRange 6).filter (h.crosses fs)
  let h' := { h with ntEn := crossed.foldl (fun e c => e &&& ~~~(1#6 <<< c.val)) h.ntEn }
  let s := { s with hart := h' }
  let s := (crossed.filter (fun c => h.ntHost.getLsbD c.val)).foldl (fun s c =>
    s.postHost h.part { kind := 3, hart := s.cur, cause := BitVec.ofNat 64 c.val,
                        value := numthrEval c.val h.ncnt[c.val], time := s.time }) s
  (s, (crossed.find? (fun c => !h.ntHost.getLsbD c.val)).map (fun c => numthrEval c.val h.ncnt[c.val]))

/-- Ends a scalar instruction that writes v to xd and raises flags f (R67, R70).
DEDUCED: notes/assumptions/19. -/
def retireFlags (s : State) (d : Reg) (v : Word) (f : Flags) : Out :=
  let r := s.accrue [f]
  let s := { r.1 with hart := r.1.hart.wr d v }
  match r.2 with
  | none => retire s
  | some ev =>
    let next := s.hart.pc + 4
    .next ({ s with hart := { s.hart with pc := next, retcount := s.hart.retcount + 1 } }.trapCtl .numthr ev next)

/- Translation and access (R100 to R104, R262). -/

/-- Why an access fails: the cause, its `EVAL`, and the poisoned lines it met. -/
structure Fail where
  cause : Cause
  eval : Word
  lines : List Nat := []
  deriving DecidableEq, Repr

/-- A permission an access needs; `look` needs none. -/
inductive Perm where
  | rd | wr | rdwr | fold | look
  deriving DecidableEq, Repr

/-- Who makes an access: its partition and tenant. -/
structure Who where
  part : Nat
  tenant : Nat
  deriving DecidableEq, Repr

/-- The current hart as the one that makes an access. -/
def State.who (s : State) : Who := ⟨s.hart.part, s.tenantOf s.hart.part⟩

/-- Whether bits rd, wr, fold of an entry grant a permission. -/
def Perm.granted (p : Perm) (rd wr fold : Bool) : Bool :=
  match p with
  | .rd => rd
  | .wr => wr
  | .rdwr => rd && wr
  | .fold => fold
  | .look => true

/-- The levels of a walk (R103): the lowest index bit and the number of index bits of each. -/
def levels1 : List (Nat × Nat) := [(40, 17), (30, 10), (25, 5), (16, 9)]
/-- Stage 2. -/
def levels2 : List (Nat × Nat) := [(40, 12), (30, 10), (25, 5), (16, 9)]

/-- A walk from a table down the levels left (R103, R104): the output address, or none when it fails. A leaf at the
top level, and a non-leaf at the last, are malformed; a table is read at the address that names it, aligned or not.
DEDUCED: notes/assumptions/8. DESIGN CHOICE: notes/assumptions/56. -/
def State.walk (s : State) (perm : Perm) (a : Nat) (top : Bool) : List (Nat × Nat) → Nat → Option Nat
  | [], _ => none
  | (lo, n) :: ls, table =>
    let e := ofBytes (s.readAll ((List.range 8).map (table + 8 * ((a >>> lo) % 1 <<< n) + ·)))
    let addr := (e % 1 <<< 52) >>> 8 <<< 8
    if !e.testBit 0 || e >>> 52 != 0 || (e >>> 5) % 8 != 0 then none
    else if !perm.granted (e.testBit 2) (e.testBit 3) (e.testBit 4) then none
    else if e.testBit 1 then
      if top || addr % 1 <<< lo != 0 then none else some (addr + a % 1 <<< lo)
    else s.walk perm a false ls addr

/-- What a translation gives (R104). -/
inductive Xlate where
  | ok (pa : Nat)
  | stage1
  | stage2 (ia : Nat)
  deriving DecidableEq, Repr

/-- A mapping the device has made itself at stage 1.
DESIGN CHOICE: notes/assumptions/7. -/
def State.mapped1 (s : State) (p va : Nat) : Option Nat :=
  (s.over1.find? (fun m => m.1 == p && m.2.1 == va / 65536)).map (fun m => m.2.2 * 65536 + va % 65536)

/-- A mapping the device has made itself at stage 2: none when it has made none, and otherwise the physical address
or the knowledge that it is unmapped.
DESIGN CHOICE: notes/assumptions/7. -/
def State.mapped2 (s : State) (p ia : Nat) : Option (Option Nat) :=
  (s.over2.find? (fun m => m.1 == p && m.2.1 == ia / 65536)).map
    (fun m => m.2.2.map (fun pg => pg * 65536 + ia % 65536))

/-- The tables lead from a root to a leaf for a, and a permission on the way there is missing (R104). -/
def State.denied (s : State) (perm : Perm) (a : Nat) (ls : List (Nat × Nat)) (root : Nat) : Bool :=
  (s.walk .look a true ls root).isSome && (s.walk perm a true ls root).isNone

/-- Stage 1 (R103): a page that the device has mapped itself keeps the permissions of a table entry that stands for it.
DESIGN CHOICE: notes/assumptions/6 and 7. -/
def State.translate1 (s : State) (p : Nat) (perm : Perm) (va : Nat) : Option Nat :=
  if 1 <<< 57 ≤ va then none
  else match s.mapped1 p va with
    | some ia => if s.denied perm va levels1 (s.partAt p).record.root1 then none else some ia
    | none => s.walk perm va true levels1 (s.partAt p).record.root1

/-- Stage 2 (R103), with the device's own mappings as at stage 1. Every 52-bit physical address that a leaf names holds
bytes, those above the addressable memory of R19 among them.
DESIGN CHOICE: notes/assumptions/6, 7 and 56. -/
def State.translate2 (s : State) (p : Nat) (perm : Perm) (ia : Nat) : Option Nat :=
  match s.mapped2 p ia with
  | some (some pa) => if s.denied perm ia levels2 (s.partAt p).record.root2 then none else some pa
  | some none => none
  | none => s.walk perm ia true levels2 (s.partAt p).record.root2

/-- Both stages. -/
def State.translate (s : State) (p : Nat) (perm : Perm) (va : Nat) : Xlate :=
  match s.translate1 p perm va with
  | none => .stage1
  | some ia =>
    match s.translate2 p perm ia with
    | none => .stage2 ia
    | some pa => .ok pa

/-- An entry of the handle table (R101), or the binding of a Granary slot (R169). -/
structure Region where
  base : Nat
  length : Nat
  rd : Bool
  wr : Bool
  fold : Bool
  /-- The physical pages of a Granary binding, which stands for the base. -/
  pages : Option (List Nat) := none
  deriving DecidableEq, Repr

/-- Bytes of device virtual memory, when every one of them is readable. -/
def State.readVirtual (s : State) (p va n : Nat) : Option (List Byte) :=
  (List.range n).foldr (fun i acc =>
    match s.translate p .rd (va + i), acc with
    | .ok pa, some bs => if s.isPoisoned (pa / 64) then none else some (s.byteAt pa :: bs)
    | _, _ => none) (some [])

/-- The region behind handle h for an access by w, or none when the entry is not valid or is another tenant's (R101,
R102, R169). An entry that cannot be read, or whose base is none that R101 allows, counts as not valid.
DESIGN CHOICE: notes/assumptions/56. -/
def State.region (s : State) (w : Who) (h : Nat) : Option Region :=
  let v := s.partAt w.part
  if 4064 ≤ h then
    match alookup v.gbind (h - 4064) with
    | some b => if b.ready then some { base := 0, length := b.pages.length * 65536, rd := true, wr := false,
                                       fold := false, pages := some b.pages } else none
    | none => none
  else
    match s.readVirtual w.part (v.record.htab + 16 * h) 16 with
    | none => none
    | some bs =>
      let w0 := ofBytes (bs.take 8)
      let w1 := ofBytes (bs.drop 8)
      if w1.testBit 63 && (w1 >>> 48) % 4096 == w.tenant && w0 >>> 57 == 0 && w0 % 64 == 0 then
        some { base := w0, length := w1 % 1 <<< 48, rd := w1.testBit 60, wr := w1.testBit 61, fold := w1.testBit 62 }
      else none

/-- The poisoned lines that reading the table entry behind a far address meets (R384). -/
def State.tableLines (s : State) (p : Nat) (a : Word) : List Nat :=
  if a.toNat >>> 60 != 0 || decide (4064 ≤ a.toNat >>> 48) then []
  else match s.translate p .rd ((s.partAt p).record.htab + 16 * (a.toNat >>> 48)) with
    | .ok pa => if s.isPoisoned (pa / 64) then [pa / 64] else []
    | _ => []

/-- The far address of x + d and whether the sum leaves bits 59:48 unchanged (R102). -/
def farSum (x : Word) (d : Int) : Bool × Word :=
  let t : Int := (x.toNat : Int) + d
  (t / (1 <<< 48 : Nat) = (x.toNat : Int) / (1 <<< 48 : Nat), BitVec.ofInt 64 t)

/-- The region of an access of n bytes at far address a, when R102 does not refuse it.
DEDUCED: notes/assumptions/52. -/
def State.regionFor (s : State) (w : Who) (inRange : Bool) (a : Word) (n : Nat) (perm : Perm) : Option Region :=
  let o := a.toNat % 1 <<< 48
  if !inRange || a.toNat >>> 60 != 0 then none
  else match s.region w (a.toNat >>> 48) with
    | none => none
    | some r => if r.length < o + n || !perm.granted r.rd r.wr r.fold then none else some r

/-- `EVAL` of a stage-2 failure: the intermediate address with bit 63 set (R104). -/
def stage2Eval (ia : Nat) : Word := BitVec.ofNat 64 (ia ||| 1 <<< 63)

/-- Physical address of offset o of a region, or the XFAULT `EVAL` when the walk fails; a is the far address of the
byte (R104). -/
def State.place1 (s : State) (p : Nat) (r : Region) (perm : Perm) (o : Nat) (a : Word) : Except Word Nat :=
  match r.pages with
  | some pgs => match pgs[o / 65536]? with
    | some pg => .ok (pg * 65536 + o % 65536)
    | none => .error a
  | none =>
    match s.translate p perm (r.base + o) with
    | .ok pa => .ok pa
    | .stage1 => .error a
    | .stage2 ia => .error (stage2Eval ia)

/-- Physical addresses of the n bytes from offset o, one translation for each page (R107). -/
def State.placeSpan (s : State) (p : Nat) (r : Region) (perm : Perm) (o : Nat) (a : Word) (n : Nat) :
    Except Word (List Nat) :=
  let start := r.base + o
  let first := min n (65536 - start % 65536)
  let pieces := (0, first) :: (List.range ((n - first + 65535) / 65536)).map
    (fun i => (first + 65536 * i, min 65536 (n - first - 65536 * i)))
  pieces.foldl (fun acc pc =>
    match acc with
    | .error e => .error e
    | .ok l =>
      match s.place1 p r perm (o + pc.1) (a + BitVec.ofNat 64 pc.1) with
      | .error e => .error e
      | .ok pa => .ok (l ++ (List.range pc.2).map (pa + ·))) (.ok [])

/-- The poisoned lines an access meets (R210): a store that writes a whole line performs and clears it. -/
def State.meetsPoison (s : State) (pas : List Nat) (storing : Bool) : List Nat :=
  if s.poisoned.isEmpty && s.deadGroups.isEmpty then []
  else (linesAt pas).filter (fun l => s.isPoisoned l && !(storing && wholeLine pas l))

/-- The checks of R262 at a far sum before poison: ALIGN, REGION, XFAULT in this order; the physical addresses of its
bytes, or the cause and `EVAL`. `align` 0 asks for no alignment.
DEDUCED: notes/assumptions/52. -/
def State.locate (s : State) (w : Who) (fa : Bool × Word) (n align : Nat) (perm : Perm) :
    Except Fail (List Nat) :=
  let a := fa.2
  if align != 0 && a.toNat % align != 0 then .error ⟨.align, a, []⟩
  else match s.regionFor w fa.1 a n perm with
    | none => .error ⟨.region, a, s.tableLines w.part a⟩
    | some r =>
      match s.placeSpan w.part r perm (a.toNat % 1 <<< 48) a n with
      | .error e => .error ⟨.xfault, e, []⟩
      | .ok pas => .ok pas

/-- Access of R262 at a far sum: ALIGN, REGION, XFAULT, POISON in this order; the physical addresses of its bytes,
or the cause and `EVAL`.
DEDUCED: notes/assumptions/52. -/
def State.access (s : State) (w : Who) (fa : Bool × Word) (n align : Nat) (perm : Perm) :
    Except Fail (List Nat) :=
  match s.locate w fa n align perm with
  | .error e => .error e
  | .ok pas =>
    match s.meetsPoison pas (perm == .wr) with
    | [] => .ok pas
    | ls => .error ⟨.poison, fa.2, ls⟩

/-- Access at a plain far address. -/
def State.accessAt (s : State) (w : Who) (a : Word) (n align : Nat) (perm : Perm) :
    Except Fail (List Nat) := s.access w (true, a) n align perm

/-- Sleeping harts of partition p whose word a changed mapping has moved sleep on where it now stands, or nowhere
(R381). -/
def State.rewatch (s : State) (p : Nat) : State :=
  (s.hartIds.filter (fun h => (s.hartAt h).status == .sleeping && (s.hartAt h).part == p)).foldl (fun s h =>
    let v := s.hartAt h
    s.setHartAt h { v with sleepPas := (s.locate ⟨p, s.tenantOf p⟩ (true, v.sleepAddr) 8 8 .rd).toOption.getD [] }) s

/-- The checks of R102 and the translation of n bytes that the current hart asks an engine to read: REGION or XFAULT,
and no poison yet (R174, R290, R293). -/
def State.accessMapped (s : State) (a : Word) (n : Nat) : Except Fail (List Nat) :=
  match s.regionFor s.who true a n .rd with
  | none => .error ⟨.region, a, s.tableLines s.hart.part a⟩
  | some r =>
    match s.placeSpan s.hart.part r .rd (a.toNat % 1 <<< 48) a n with
    | .error e => .error ⟨.xfault, e, []⟩
    | .ok pas => .ok pas

/-- `HARTID` as a record shows it when no hart is concerned (R215). -/
def noHart : Nat := 0xFFFFFFFF

/-- A stage-2 fault is told to the host through the virtual function's event queue (R104, R215). -/
def State.tellStage2 (s : State) (p h : Nat) (e : Fail) : State :=
  if e.cause = .xfault && e.eval.getLsbD 63 then
    s.postHost p { kind := 1, hart := h, cause := 0, value := e.eval &&& 0x7FFFFFFFFFFFFFFF, time := s.time }
  else s

/-- A partition's first meeting with each poisoned line is told to the host (R210, R384). -/
def State.tellPoison (s : State) (p h : Nat) (lines : List Nat) : State :=
  lines.foldl (fun s l =>
    if s.toldPoison.contains (p, l) then s
    else { s with toldPoison := s.toldPoison ++ [(p, l)] }.postHost p
      { kind := 5, hart := h, cause := 0, value := BitVec.ofNat 64 (l * 64), time := s.time }) s

/-- A failed access of hart h's instruction, or of no hart (all ones), is told to the host. -/
def State.tellFault (s : State) (p h : Nat) (e : Fail) : State := (s.tellStage2 p h e).tellPoison p h e.lines

/-- A failed access of the Gleaner or an engine for hart h is told to the host: no instruction met a poisoned line
(R384). -/
def State.tellWork (s : State) (p h : Nat) (e : Fail) : State := (s.tellStage2 p h e).tellPoison p noHart e.lines

/-- A fault of a data access at the current control-stream instruction. -/
def faultAccess (s : State) (e : Fail) : Out :=
  faultAt (s.tellFault s.hart.part s.cur e) e.cause e.eval

/-- Bytes written by a store that performs: whole lines lose their poison (R210). -/
def State.store (s : State) (pas : List Nat) (bs : List Byte) : State :=
  let s := s.writeAll pas bs
  if s.poisoned.isEmpty && s.deadGroups.isEmpty then s else s.cleanse ((linesAt pas).filter (wholeLine pas))

/-- Instruction fetch (R100, R103): bytes at a device virtual address through both stages, with no handle; or the
cause and `EVAL` of R263. -/
def State.fetchBytes (s : State) (p : Nat) (va : Word) (n : Nat) : Except Fail (List Byte) :=
  match s.translate p .rd va.toNat with
  | .stage1 => .error ⟨.xfault, va, []⟩
  | .stage2 _ => .error ⟨.xfault, va ||| 0x8000000000000000, []⟩
  | .ok pa =>
    if s.isPoisoned (pa / 64) then .error ⟨.poison, va, [pa / 64]⟩
    else .ok (s.readAll ((List.range n).map (pa + ·)))

/-- A failed access at a device virtual address is told to the host as `tellFault` does, with the intermediate address
(R104, R215). -/
def State.tellVirtual (s : State) (p h : Nat) (va : Word) (e : Fail) : State :=
  match s.translate p .rd va.toNat with
  | .stage2 ia => s.tellFault p h { e with eval := stage2Eval ia }
  | _ => s.tellFault p h e

/-- The far address of the first of the n bytes at far address a whose page has no place in a region. -/
def State.firstUnplaced (s : State) (p : Nat) (r : Region) (perm : Perm) (a : Word) (n : Nat) : Word :=
  let bad (i : Nat) : Bool :=
    match s.place1 p r perm (a.toNat % 1 <<< 48 + i) a with
    | .error _ => true
    | .ok _ => false
  a + BitVec.ofNat 64 (((List.range n).find? bad).getD 0)

/-- The failing far address of an access of n bytes at far address a for an engine or the scheduler (R181): where
stage 2 failed, that of the first byte whose page it failed for. -/
def State.failingFar (s : State) (w : Who) (a : Word) (n : Nat) (perm : Perm) (e : Fail) : Word :=
  if e.cause = .xfault && e.eval.getLsbD 63 then
    match s.regionFor w true a n perm with
    | none => a
    | some r => s.firstUnplaced w.part r perm a n
  else e.eval

/-- Reading an n-byte value at far address a for an engine or the scheduler on behalf of w. -/
def State.engineRead (s : State) (w : Who) (a : Word) (n : Nat) : Except Fail (List Byte) :=
  match s.accessAt w a n 0 .rd with
  | .error e => .error e
  | .ok pas => .ok (s.readAll pas)

/-- Writing bytes at far address a for an engine or the scheduler on behalf of w. -/
def State.engineWrite (s : State) (w : Who) (a : Word) (bs : List Byte) : Except Fail State :=
  match s.accessAt w a bs.length 0 .wr with
  | .error e => .error e
  | .ok pas => .ok (s.store pas bs)

end Sys2Proof.Machine
end

