-- ==== Sys2Proof/Machine/Operands.lean ====
section
/-!
DEFINITION. Operand forms of block instructions: the block's captured registers, the format descriptor, lengths,
predicates, and elements of vector registers (R23, R28, R29, R34, R35, R51, R56 to R61, R334).
-/

namespace Sys2Proof.Machine

/-- The block whose instructions run now: the first of the queue that no trap holds (R24, R43). -/
def Hart.block (h : Hart) : Option Block := h.unheld.head?

/-- A scalar-view register (R23); with no block queued, the register itself. -/
def Hart.view (h : Hart) (r : Reg) : Word :=
  if r = 0 then 0 else match h.block with
    | some b => b.view[r.val]
    | none => h.x[r.val]

/-- The counter values a block's sheaf accesses use (R86). -/
def Hart.viewCounters (h : Hart) : List Nat :=
  match h.block with
  | some b => b.kvec
  | none => h.k.toList.map (·.val)

/-- The `FMTDEF` in force for a block (R280). -/
def Hart.viewFmtdef (h : Hart) : BitVec 32 := (h.block.map (·.fmtdef)).getD h.fmtdef

/-- The `ROPEPART` in force for a block (R280). -/
def Hart.viewRope (h : Hart) : BitVec 24 := (h.block.map (·.ropepart)).getD h.ropepart

/-- Address of the block word that runs. -/
def Hart.blockPos (h : Hart) : Word := (h.block.map (·.pos)).getD h.pc

/-- Set bits of a mask below n. -/
def popCount (v n : Nat) : Nat := (List.range n).countP v.testBit

/-- Lanes granted: four for each quad (R20, R34). -/
def Hart.lanes (h : Hart) : Nat := 4 * popCount h.grant.toNat 64

/-- A format descriptor (R60). -/
structure Descr where
  raw : Word
  fa : Nat
  fb : Nat
  fc : Nat
  fd : Nat
  rnd : Nat
  sat : Bool
  ftz : Bool
  asc : Bool
  bsc : Bool
  dsc : Bool
  deriving DecidableEq, Repr

/-- The fields of a descriptor word (R60). -/
def descrOf (w : Word) : Descr :=
  let n := w.toNat
  { raw := w, fa := n % 64, fb := (n >>> 6) % 64, fc := (n >>> 12) % 64, fd := (n >>> 18) % 64,
    rnd := (n >>> 24) % 8, sat := n.testBit 27, ftz := n.testBit 28, asc := n.testBit 29, bsc := n.testBit 30,
    dsc := n.testBit 31 }

/-- The descriptor of an instruction: x[xf], or `FMTDEF` when xf = 0 (R28, R60). -/
def Hart.descr (h : Hart) (k : Blk) : Descr :=
  descrOf (if k.xf = 0 then h.viewFmtdef.zeroExtend 64 else h.view k.xf)

/-- The checks of R61 that do not depend on the operands: bits 63:32 and rnd. -/
def Descr.sane (d : Descr) : Bool := d.raw.toNat >>> 32 == 0 && decide (d.rnd < 6)

/-- The ratio limit of R29 over the widths of formats. -/
def ratioOk (fs : List Fmt) : Bool := fs.all (fun f => fs.all (fun g => decide (f.width ≤ 4 * g.width)))

/-- No mix of sliced and packed formats (R29). -/
def unmixed (fs : List Fmt) : Bool := fs.all Fmt.sliced || fs.all (fun f => !f.sliced)

/-- The smallest VLMAX of formats over L lanes (R29). -/
def vlmax (L : Nat) : List Fmt → Nat
  | [] => 0
  | [f] => L * f.perSlice
  | f :: fs => min (L * f.perSlice) (vlmax L fs)

/-- VL under R28. -/
def Hart.vl (h : Hart) (k : Blk) (vmax : Nat) : Nat :=
  if k.xl = 0 then vmax
  else if k.xl = 31 then min h.vla vmax
  else min (h.view k.xl).toNat vmax

/-- FMT at dispatch, `VSTART` unchanged and the descriptor in `EVAL` (R61, R181, R249).
DEDUCED: notes/assumptions/55. -/
def fmtFault (s : State) (k : Blk) : Out := faultBlock s .fmt (s.hart.descr k).raw s.hart.blockPos s.hart.vstart

/-- Decodes format codes; none when one is reserved (R50). -/
def formats : List Nat → Option (List Fmt)
  | [] => some []
  | c :: cs => match Fmt.ofCode c, formats cs with
    | some f, some fs => some (f :: fs)
    | _, _ => none

/-- The dispatch checks of R61 for an instruction that uses the formats `codes` selects and accepts them when `ok`
holds; `mixed` lets sliced and packed formats stand together. -/
def withFormats (s : State) (k : Blk) (codes : Descr → List Nat) (mixed : Bool) (ok : Descr → List Fmt → Bool)
    (body : Descr → List Fmt → Out) : Out :=
  let d := s.hart.descr k
  if !d.sane then fmtFault s k
  else match formats (codes d) with
    | none => fmtFault s k
    | some fs => if ratioOk fs && (mixed || unmixed fs) && ok d fs then body d fs else fmtFault s k

/- Predicates (R35, R245). -/

/-- A predicate bit; p0 is all-true (R21). -/
def Hart.pbit (h : Hart) (p : PIx) (e : Nat) : Bool := p = 0 || h.p[p.val].testBit e

/-- Active(e) of R334. -/
def Hart.active (h : Hart) (k : Blk) (e : Nat) : Bool := h.pbit k.pg e != k.pn

/-- Sets or clears bit e of a bit set. -/
def setBit (v e : Nat) (b : Bool) : Nat :=
  if v.testBit e = b then v else if b then v + 1 <<< e else v - 1 <<< e

/-- Writes a predicate; a write to p0 is discarded (R21). -/
def Hart.wrP (h : Hart) (p : PIx) (v : Nat) : Hart := if p = 0 then h else { h with p := h.p.set p.val v }

/-- The frame of R334 for a predicate destination. -/
def Hart.framePred (h : Hart) (k : Blk) (old vl : Nat) (body : Nat → Bool) : Nat :=
  (List.range' h.vstart (vl - h.vstart)).foldl (fun p e =>
    if h.active k e then setBit p e (body e) else if k.pz then setBit p e false else p) old

/- Elements (R34, R35, R51, R58). -/

/-- The low n bits of `v` from bit `off`. -/
def field (v off n : Nat) : Nat := (v >>> off) % 1 <<< n

/-- Replaces the n bits of `v` from bit `off`. -/
def putField (v off n x : Nat) : Nat := v - (field v off n) <<< off + (x % 1 <<< n) <<< off

/-- Bits of the slice that formats of 6 bits and sliced formats leave unused, from here up (R51, R58). -/
def usedBits (f : Fmt) : Nat :=
  if f.sliced then 32 * (f.width * (16 / f.width)) else if f.width = 6 then 504 else 512

/-- Bit e's places in a sliced register: bit b of element e (R34, R58). -/
def slicedOff (L w e b : Nat) : Nat :=
  let g := e / 32
  512 * (g % L) + 32 * (w * (g / L) + b) + e % 32

/-- Raw bits of element e (R34); bytes of a slice at or beyond the tag read as zero (R35). -/
def VReg.elem (r : VReg) (L : Nat) (f : Fmt) (e : Nat) : Nat :=
  if f.sliced then
    (List.range f.width).foldl (fun acc b =>
      let off := slicedOff L f.width e b
      if off % 512 < 64 * r.tag && r.bits.testBit off then acc + 1 <<< b else acc) 0
  else
    let o := f.container * (e / L)
    field r.bits (512 * (e % L) + o) (min f.width (64 * r.tag - o))

/-- Writes the bits of element e (R34, R51, R58). -/
def VReg.setElem (r : VReg) (L : Nat) (f : Fmt) (e x : Nat) : VReg :=
  { r with bits :=
      if f.sliced then
        (List.range f.width).foldl (fun v b => setBit v (slicedOff L f.width e b) (x.testBit b)) r.bits
      else putField r.bits (512 * (e % L) + f.container * (e / L)) f.container (x % 1 <<< f.width) }

/-- Clears the bits that format f leaves unused, in every lane's slice: every write clears them (R51, R58). -/
def VReg.trim (r : VReg) (L : Nat) (f : Fmt) : VReg :=
  if usedBits f < 512 then
    { r with bits := (List.range L).foldl (fun v lane => putField v (512 * lane + usedBits f) (512 - usedBits f) 0) r.bits }
  else r

/-- What a write of length n does beside its elements: it raises the tag (R35) and clears the unused bits.
DEDUCED: notes/assumptions/54. -/
def VReg.raise (r : VReg) (L : Nat) (f : Fmt) (n : Nat) : VReg :=
  let b := if f.sliced then 4 * f.width * ((n + 32 * L - 1) / (32 * L))
           else ((n + L - 1) / L * f.container + 7) / 8
  { tag := max r.tag ((b + 7) / 8), bits := if n = 0 then r.bits else (r.trim L f).bits }

/-- Writes a vector register. -/
def Hart.wrV (h : Hart) (v : VIx) (r : VReg) : Hart := { h with v := h.v.set v.val r }

/-- Bits(v, e, f) of R334. -/
def Hart.bitsAt (h : Hart) (v : VIx) (e : Nat) (f : Fmt) : Nat := h.v[v.val].elem h.lanes f e

/-- Val(v, e, f) of R334: scaled under R56 when `scaled` holds. -/
def Hart.valAt (h : Hart) (v : VIx) (e : Nat) (f : Fmt) (scaled ftz : Bool) : Val :=
  let x := decodeVal f ftz (h.bitsAt v e f)
  if scaled then
    let sc := (h.v[(v + 1).val]).elem h.lanes .x9 (e / 32)
    if sc = 511 then .nan false else x.scale ((sc : Int) - 255)
  else x

/-- The exact integer of an element (R336). -/
def Hart.intAt (h : Hart) (v : VIx) (e : Nat) (f : Fmt) : Int := decodeInt f (h.bitsAt v e f)

/-- A scaled operand in v63, or of a format that may not be scaled, breaks R55. -/
def scaleOk (scaled : Bool) (v : VIx) (f : Fmt) : Bool := !scaled || (f.scalable && v != 63)

/-- Operands of an instruction that moves bits: each that the descriptor marks as scaled may be (R55). A marked
destination is written unscaled, so that the condition of R57 on pg, pn and `VSTART` is not asked for.
DEDUCED: notes/assumptions/26. -/
def marksOk (l : List (Bool × VIx × Fmt)) : Bool := l.all (fun e => scaleOk e.1 e.2.1 e.2.2)

/-- The frame of R334 for a vector destination: `body` gives an active element's bits. -/
def Hart.frame (h : Hart) (k : Blk) (vd : VIx) (f : Fmt) (vl : Nat) (body : Nat → Nat) : VReg :=
  let r := (List.range' h.vstart (vl - h.vstart)).foldl (fun r e =>
    if h.active k e then r.setElem h.lanes f e (body e) else if k.pz then r.setElem h.lanes f e 0 else r) h.v[vd.val]
  if vl ≤ h.vstart then r else r.raise h.lanes f vl

/-- Active elements from `VSTART` to n - 1. -/
def Hart.actives (h : Hart) (k : Blk) (n : Nat) : List Nat :=
  (List.range' h.vstart (n - h.vstart)).filter (h.active k)

/- Completion (R39, R42, R70, R193). -/

/-- The current block steps past its word. -/
def Hart.pastWord (h : Hart) : Hart :=
  match h.block with
  | none => h
  | some b =>
    { h with queue := h.queue.map (fun c => if c.serial == b.serial
        then { c with pos := c.pos + 8, convoy := c.convoy - 1, checked := false } else c)
             early := h.early.filter (·.1 != b.pos) }

/-- A block instruction completes: `VSTART` becomes 0, the count of retired instructions rises, the block steps on;
then NUMTHR or STEP may be taken with `EPC` at the next block word (R42, R46, R70, R193). -/
def State.completed (s : State) (numthr : Option Word) : State :=
  let h := { s.hart with vstart := 0, retcount := s.hart.retcount + 1 }.pastWord
  let s := s.withHart h
  match numthr with
  | some ev => s.takeTrap .numthr ev h.blockPos true 0
  | none => if h.dbg.getLsbD 1 && h.block.isSome then s.takeTrap .step 0 h.blockPos true 0 else s

/-- Ends a block instruction that raises no flag. -/
def vDone (s : State) : Out := .next (s.completed none)

/-- Ends a block instruction whose elements raised the flags fs. -/
def vDoneFlags (s : State) (fs : List Flags) : Out :=
  let r := s.accrue fs
  .next (r.1.completed r.2)

/-- How the descriptor rounds element e (R63): a stochastic rounding draws a free value of its own.
DESIGN CHOICE: notes/assumptions/13. -/
def Descr.rounding (d : Descr) (draw e : Nat) : Rounding :=
  { mode := d.rnd, sat := d.sat, ftz := d.ftz,
    u := if d.rnd = 5 then (Config.stochasticBits (draw + e)).toNat else 0 }

/-- The draws of an instruction of length n have been used.
DESIGN CHOICE: notes/assumptions/5. -/
def State.drawn (s : State) (d : Descr) (n : Nat) : State := if d.rnd = 5 then { s with draw := s.draw + n } else s

/- Block-scaled destinations (R57). -/

/-- floor(log2 |v|) of the largest finite magnitude of values, none when all are zero. -/
def largestLog (vs : List Val) : Option Int :=
  vs.foldl (fun acc v =>
    match v with
    | .num _ m d => if m = 0 then acc else
        match acc with
        | none => some (log2Frac m d)
        | some g => some (max g (log2Frac m d))
    | _ => acc) none

/-- The scale of a block of exact results (R57). -/
def blockScale (f : Fmt) (vs : List Val) : Nat :=
  if vs.any Val.isNan && !((f.spec.bind (·.nan)).isSome) then 511
  else match largestLog vs with
    | none => 0
    | some g => (max 0 (min 510 (255 + g - (f.emax : Int)))).toNat

/-- One block of a scaled destination: the scale, and for each element of the block its bits and flags (R57). -/
def placeBlock (f : Fmt) (c : Nat → Rounding) (first vl : Nat) (exact : Nat → Val) : Nat × List (Nat × Nat × Flags) :=
  let es := List.range' first 32
  let E := blockScale f ((es.filter (· < vl)).map exact)
  (E, es.map (fun e =>
    if vl ≤ e then (e, 0, flNone)
    else if E = 511 then (e, 0, if (exact e).isNan then flNV else flNone)
    else
      let r := place f { c e with sat := true } ((exact e).scale (255 - (E : Int)))
      (e, r.1, r.2)))

/-- A block-scaled destination needs every element active and `VSTART` a multiple of 32 (R57). -/
def Hart.dscOk (h : Hart) (k : Blk) (d : Descr) (vd : VIx) (f : Fmt) : Bool :=
  !d.dsc || (scaleOk true vd f && k.pg = 0 && !k.pn && h.vstart % 32 == 0)

/-- Writes exact results into vd, block-scaled under R57 when dsc is set and otherwise by Place, in the frame of
R334. `extra` gives the flags of the operation itself.
DEDUCED: notes/assumptions/54. -/
def State.placeAll (s : State) (k : Blk) (d : Descr) (vd : VIx) (f : Fmt) (vl : Nat) (exact : Nat → Val)
    (extra : Nat → Flags) : Out :=
  let h := s.hart
  if vl = 0 then vDone s
  else if d.dsc then
    let blocks := (List.range' (h.vstart / 32) ((vl + 31) / 32 - h.vstart / 32)).map
      (fun b => (b, placeBlock f (fun e => d.rounding s.draw e) (32 * b) vl exact))
    let els := (blocks.map (·.2.2)).flatten
    let cap := h.lanes * f.perSlice
    let r := (els.filter (fun e => decide (e.1 < cap))).foldl (fun r e => r.setElem h.lanes f e.1 e.2.1) h.v[vd.val]
    let sc := blocks.foldl (fun r b => r.setElem h.lanes .x9 b.1 b.2.1) h.v[(vd + 1).val]
    let n := (vl + 31) / 32
    let h' := (h.wrV vd (r.raise h.lanes f vl)).wrV (vd + 1) (sc.raise h.lanes .x9 n)
    let fs := els.map (fun e => if vl ≤ e.1 then flNone
      else if (blocks.any (fun b => b.1 == e.1 / 32 && b.2.1 == 511)) then e.2.2 else e.2.2 ||| extra e.1)
    vDoneFlags ((s.drawn d vl).withHart h') fs
  else
    let res := fun e => place f (d.rounding s.draw e) (exact e)
    let h' := h.wrV vd (h.frame k vd f vl (fun e => (res e).1))
    vDoneFlags ((s.drawn d vl).withHart h') ((h.actives k vl).map (fun e => (res e).2 ||| extra e))

end Sys2Proof.Machine
end

