-- ==== Sys2Proof/Machine/ScalarMemory.lean ====
section
/-!
DEFINITION. Scalar memory: loads, stores with the store buffer, atomics and fences (R116 to R127, R272 to R274, R288,
R311, R312, R330, R331).
-/

namespace Sys2Proof.Machine

/-- Bytes of an access size (R311). -/
def sizeBytes : Size → Nat
  | .b => 1
  | .h => 2
  | .w => 4
  | .d => 8

/-- The Gleaner debts of hart h older than identity number `bound` have performed (R120): no order of it that may owe
any stands in a harvest queue and no write-back or fold of it in a return queue. -/
def State.debtsDone (s : State) (h bound : Nat) : Bool :=
  s.sheaves.all (fun sh => sh.hart != h || sh.desc.mode == .inp || sh.desc.mode == .loc ||
      sh.orders.all (fun o => decide (bound ≤ o.oid))) &&
    s.debts.all (fun d => d.hart != h || decide (bound ≤ d.oid))

/-- A scalar or vector access of some hart to physical page pg has retired or passed its probe and has not performed. -/
def State.pageInUse (s : State) (pg : Nat) : Bool :=
  let on (a : Nat) : Bool := a / 65536 == pg
  s.hartIds.any (fun h => (s.hartAt h).sbuf.any (fun p => p.pa.any on) ||
    (s.hartAt h).vq.any (fun r => r.todo.any (fun q => q.pas.any on)))

/-- A fetch that has not read yet. -/
def Fetch.unread (f : Fetch) : Bool := f.got.isNone && f.failed.isNone

/-- The orders of hart h have been taken up, and the fetches they made or joined have read (R126, R251). -/
def State.fetchesDone (s : State) (h : Nat) : Bool :=
  s.sheaves.all (fun sh => sh.hart != h || sh.orders.all (·.taken)) &&
    s.fetches.all (fun f => !f.unread || (f.hart != h && !s.lines.any (fun l => l.fid == f.fid && l.status == .inflight &&
      s.sheaves.any (fun sh => sh.hart == h && l.holders.contains sh.sid))))

/-- The two byte ranges of far addresses meet. -/
def overlaps (a n b m : Nat) : Bool := decide (a < b + m) && decide (b < a + n)

/-- The physical 64 KiB pages behind n bytes at a far address, as far as they are mapped. -/
def State.pagesAt (s : State) (w : Who) (a : Word) (n : Nat) : List Nat :=
  match s.region w (a.toNat >>> 48) with
  | none => []
  | some r =>
    if n = 0 then []
    else (List.range (n / 65536 + 2)).filterMap (fun i =>
      match s.place1 w.part r .rd (a.toNat % 1 <<< 48 + min (65536 * i) (n - 1)) a with
      | .ok pa => some (pa / 65536)
      | .error _ => none)

/-- n bytes at a far address meet the payload of a `GDEP` that is not adopted yet (R256). -/
def State.inPayload (s : State) (w : Who) (o : Op) (d : Deposit) (a : Word) (n : Nat) : Bool :=
  decide (o.phase < 2) && decide (0 < d.npages) &&
    (overlaps d.payload.toNat (d.npages * 65536) a.toNat n ||
      (s.pagesAt w d.payload (d.npages * 65536)).any (s.pagesAt w a n).contains)

/-- An access of the current hart has to wait: a `GFIND` of it has not answered (R125), or the access meets the payload
of a `GDEP` it has handed over and that is not adopted yet (R256). -/
def State.heldByDeposit (s : State) (a : Word) (n : Nat) : Bool :=
  s.ops.any (fun o => o.hart == s.cur &&
    match o.kind with
    | .gfind _ _ => true
    | .gdep d => s.inPayload s.who o d a n
    | _ => false)

/-- Work of hart h with identity number oid on n bytes has to wait for an older `GFIND` or `GDEP` of the hart, as
`heldByDeposit` has its instructions wait (R125, R256). -/
def State.workHeld (s : State) (w : Who) (h oid : Nat) (a : Word) (n : Nat) : Bool :=
  s.ops.any (fun o => o.hart == h && decide (o.oid < oid) &&
    match o.kind with
    | .gfind _ _ => true
    | .gdep d => s.inPayload w o d a n
    | _ => false)

/-- The current hart has a `GFIND` that has not answered (R125). -/
def State.findPending (s : State) : Bool :=
  s.ops.any (fun o => o.hart == s.cur && match o.kind with | .gfind _ _ => true | _ => false)

/-- The byte that the youngest buffered store of the hart holds for a physical address (R119). -/
def forwarded (buf : List Pending) (pa : Nat) : Option Byte :=
  buf.foldl (fun acc p => match (p.pa.zip p.bytes).find? (·.1 == pa) with
    | some e => some e.2
    | none => acc) none

/-- Bytes as a load of the control stream takes them (R119). -/
def State.loadBytes (s : State) (pas : List Nat) : List Byte :=
  pas.map (fun pa => (forwarded s.hart.sbuf pa).getD (s.byteAt pa))

/-- Some instruction still to run in a block of partition `part` from `pos` on satisfies p: the scan passes over words
that are no instruction, since the block may resume behind one (R42), and takes a word that cannot be fetched as one
that does. -/
def State.remaining (s : State) (part : Nat) (p : Instr → Bool) : Nat → Word → Bool
  | 0, _ => false
  | n + 1, pos =>
    match s.fetchBytes part pos 8 with
    | .error _ => true
    | .ok bs =>
      match decodeBlock (ofBytes bs) with
      | .error _ => s.remaining part p n (pos + 8)
      | .ok .vstop => false
      | .ok i => p i || s.remaining part p n (pos + 8)

/-- Some instruction of a block queued before this point, but for the held ones, satisfies p and has not run. -/
def State.blocksHave (s : State) (p : Instr → Bool) : Bool :=
  s.hart.unheld.any (fun b => s.remaining s.hart.part p 256 b.pos)

/-- Block instructions with read steps: a stream receipt counts as one (R126). -/
def reads (i : Instr) : Bool :=
  match i with
  | .vldh .. | .vldhx .. | .vldf .. | .vldx .. | .vamo .. | .vlds .. => true
  | _ => false

/-- Block instructions with write steps: a stream send counts as one (R126). -/
def writes (i : Instr) : Bool :=
  match i with
  | .vsth .. | .vsthx .. | .vstf .. | .vstx .. | .vamo .. | .vsts .. => true
  | _ => false

/-- Block instructions with a check phase (R40). -/
def checks (i : Instr) : Bool :=
  match i with
  | .mopas .. => true
  | i => reads i || writes i

/-- Every access of the blocks queued before this point, but for the held ones, has performed; a block as such is not
waited for (R124, R126, R288). -/
def State.blocksQuiet (s : State) : Bool := !s.blocksHave (fun i => reads i || writes i) && s.hart.vq.isEmpty

/-- Every access of the current hart and its Gleaner debts have performed, as a release needs (R124).
DEDUCED: notes/assumptions/20. -/
def State.releaseReady (s : State) : Bool :=
  s.blocksQuiet && s.hart.sbuf.isEmpty && s.debtsDone s.cur s.nextId

/-- A retired scalar access reads memory (R116). -/
def Pending.reading (p : Pending) : Bool :=
  match p.kind with
  | .load .. => true
  | .amo .. => true
  | _ => false

/-- A vector access in flight reads memory. -/
def FarRun.reading (r : FarRun) : Bool :=
  match r.what with
  | .store _ => false
  | _ => true

/-- Every older read step of the current hart has performed, the fetches of its queued orders included (R126). -/
def State.readsDone (s : State) : Bool :=
  !s.blocksHave reads && !s.hart.vq.any (·.reading) && !s.hart.sbuf.any (·.reading) && s.fetchesDone s.cur

/-- The block instructions that acquire (R125). -/
def acquires (i : Instr) : Bool :=
  match i with
  | .vldh _ _ _ _ _ a => a
  | .vldhx _ _ _ _ _ a => a
  | .vldf _ _ _ _ ord => ord != .plain
  | .vldx _ _ _ _ _ ord => ord != .plain
  | .vstf _ _ _ _ ord => ord == .sc
  | .vstx _ _ _ _ _ ord => ord == .sc
  | .vamo _ _ _ _ _ _ _ ord _ => ord != .plain
  | .vlds _ _ _ _ consume => consume
  | .hmask .. => true
  | _ => false

/-- Work of hart h of identity number `oid` has to wait for an acquire of an older block (R125). -/
def State.acquirePending (s : State) (h oid : Nat) : Bool :=
  let v := s.hartAt h
  v.unheld.any (fun b => decide (b.bound ≤ oid) && s.remaining v.part acquires 256 b.pos) ||
    v.vq.any (fun r => r.acq && decide (r.bound ≤ oid))

/-- LD (R311). Loads perform in program order here, so that `.aq` has nothing more to wait for; one younger
than a block that still has to acquire waits for it (R125). -/
def execLd (z : Size) (sx _ : Bool) (d a : Reg) (off : BitVec 12) (s : State) : Out :=
  reading [a] s (
    let n := sizeBytes z
    let fa := farSum (s.hart.rd a) off.toInt
    if s.heldByDeposit fa.2 n || s.blocksHave acquires then stallCtl s
    else match s.access s.who fa n n .rd with
      | .error e => faultAccess s e
      | .ok pas =>
        let v := ofBytes (s.loadBytes pas)
        retireWith s d (if sx then BitVec.ofInt 64 (signedOf (8 * n) v) else BitVec.ofNat 64 v))

/-- What an atomic operation writes, from the old value, the operand and the value compared (R109, R272); none when
nothing is written. -/
def amoResult (op : AmoOp) (f : Fmt) (w : Nat) (old src cmp : Nat) : Option Nat :=
  let so := signedOf w old
  let ss := signedOf w src
  match op with
  | .add => some ((old + src) % 1 <<< w)
  | .and => some (Nat.land old src)
  | .or => some (Nat.lor old src)
  | .xor => some (Nat.xor old src)
  | .min => some (if ss < so then src else old)
  | .max => some (if so < ss then src else old)
  | .minn => some (if src < old then src else old)
  | .maxn => some (if old < src then src else old)
  | .swp => some src
  | .cas => if old = cmp then some src else none
  | .fadd => some (roundRNE f ((decodeVal f false old).add false (decodeVal f false src)))

/-- The old value of an `AMO` as xd receives it (R273). -/
def amoOld (op : AmoOp) (dword : Bool) (old : Nat) : Word :=
  if dword then BitVec.ofNat 64 old
  else match op with
    | .minn | .maxn | .fadd => BitVec.ofNat 64 old
    | _ => BitVec.ofInt 64 (signedOf 32 old)

/-- No instruction of a block with a serial number below n satisfies p and has not run; a word that has passed its check
phase and waits does not count among those that `p` asks for when `passed` holds. -/
def State.olderBlocksFree (s : State) (n : Nat) (passed : Bool) (p : Instr → Bool) : Bool :=
  s.hart.unheld.all (fun b => decide (n ≤ b.serial) ||
    !s.remaining s.hart.part p 256 (if passed && b.checked then b.pos + 8 else b.pos))

/-- Every block instruction older than serial number n has finished its check phase, and none of them, one that waits
included, has an acquire to perform (R40, R119, R125). -/
def State.checksPassed (s : State) (n : Nat) : Bool :=
  s.olderBlocksFree n true checks && s.olderBlocksFree n false acquires &&
    !s.hart.vq.any (fun r => r.acq && decide (r.serial < n))

/-- Everything older than entry i of the buffer has performed, as a release or a `FENCE.rel` there needs (R124, R126). -/
def State.olderDone (s : State) (i : Nat) (p : Pending) : Bool :=
  i = 0 && s.olderBlocksFree p.serial false (fun i => reads i || writes i) &&
    !s.hart.vq.any (fun r => decide (r.serial < p.serial)) && s.debtsDone s.cur p.bound

/-- Entry i of the hart's queue may perform (R119, R40, R124, R126): no older entry has a byte of it, but that a load
takes the bytes of an older store; a write waits for older `FENCE.rel`s and the check phases of every older block; and
a release for everything older. -/
def State.mayDrain (s : State) (i : Nat) : Bool :=
  match s.hart.sbuf[i]? with
  | none => false
  | some p =>
    let older := s.hart.sbuf.take i
    match p.kind with
    | .fence => s.olderDone i p && s.fetchesDone s.cur
    | .load .. => older.all (fun q => !q.reading || p.pa.all (fun a => !q.pa.contains a))
    | _ =>
      older.all (fun q => p.pa.all (fun a => !q.pa.contains a) && q.kind != .fence) && s.checksPassed p.serial &&
        (!p.release || s.olderDone i p)

/-- Entry i of the hart's queue performs in one step (R118). -/
def State.drain (s : State) (i : Nat) : State :=
  match s.hart.sbuf[i]? with
  | none => s
  | some p =>
    let older := s.hart.sbuf.take i
    let s := { s with hart := { s.hart with sbuf := s.hart.sbuf.eraseIdx i } }
    match p.kind with
    | .store => s.store p.pa p.bytes
    | .fence => s
    | .load d bits sx oid =>
      let v := ofBytes (p.pa.map (fun pa => (forwarded older pa).getD (s.byteAt pa)))
      s.withHart (s.hart.answer d oid (if sx then BitVec.ofInt 64 (signedOf bits v) else BitVec.ofNat 64 v) false)
    | .amo op dword d oid src cmp =>
      let old := ofBytes (s.readAll p.pa)
      let n := if dword then 8 else 4
      let s := match amoResult op (if dword then Fmt.f64 else Fmt.f32) (8 * n) old src cmp with
        | some v => s.writeAll p.pa (toBytes n v)
        | none => s
      s.withHart (s.hart.answer d oid (amoOld op dword old) false)

/-- A store whose checks have passed: it performs at once when it may and the schedule does not delay it, and waits in
the store buffer otherwise (R330).
DESIGN CHOICE: notes/assumptions/4. -/
def State.buffer (s : State) (pas : List Nat) (bs : List Byte) (rel : Bool) : State :=
  let p : Pending := { pa := pas, bytes := bs, release := rel, serial := s.hart.nextSerial, bound := s.nextId }
  let delayed := s.delay.headD false
  let s := { s with delay := s.delay.tail, hart := { s.hart with sbuf := s.hart.sbuf ++ [p] } }
  let i := s.hart.sbuf.length - 1
  if !delayed && s.mayDrain i then s.drain i else s

/-- ST (R330). -/
def execSt (z : Size) (rel : Bool) (d a : Reg) (off : BitVec 12) (s : State) : Out :=
  reading [d, a] s (
    let n := sizeBytes z
    let fa := farSum (s.hart.rd a) off.toInt
    if s.heldByDeposit fa.2 n then stallCtl s
    else match s.access s.who fa n n .wr with
      | .error e => faultAccess s e
      | .ok pas => retire (s.buffer pas (toBytes n (s.hart.rd d).toNat) rel))

/-- AMO (R272): its checks, then the waits of its order, then one read-modify-write step. It follows every older store
of the hart to its bytes, and every older check phase (R119, R40). -/
def execAmo (op : AmoOp) (dword : Bool) (ord : AmoOrder) (_ : Scope) (d a b : Reg) (s : State) : Out :=
  reading (if op = .cas then [a, b, d] else [a, b]) s (
    let n := if dword then 8 else 4
    let w := 8 * n
    let addr := s.hart.rd a
    if s.heldByDeposit addr n then stallCtl s
    else match s.accessAt s.who addr n n .rdwr with
      | .error e => faultAccess s e
      | .ok pas =>
        let releases := ord = .rel || ord = .sc
        if !s.checksPassed s.hart.nextSerial || s.hart.sbuf.any (fun p => p.pa.any pas.contains || p.kind == .fence) ||
          (releases && !s.releaseReady)
        then stallCtl s
        else
          let old := ofBytes (s.readAll pas)
          let low := fun (r : Reg) => (s.hart.rd r).toNat % 1 <<< w
          let f := if dword then Fmt.f64 else Fmt.f32
          let s1 := match amoResult op f w old (low b) (low d) with
            | some v => s.writeAll pas (toBytes n v)
            | none => s
          let s1 := if ord = .sc then { s1 with ticket := s1.ticket + 1 } else s1
          retireWith s1 d (amoOld op dword old))

/-- FENCE (R126, R288): a queued engine event is delivered first; then the fence waits for what its kind orders. Its
scope names observers only (R127). -/
def execFence (kind : FenceKind) (_ : Scope) (s : State) : Out :=
  synchronise s (
    match kind with
    | .acq => if s.readsDone then retire s else stallCtl s
    | .rel => if s.releaseReady && s.fetchesDone s.cur then retire s else stallCtl s
    | .ar => if s.releaseReady && s.fetchesDone s.cur then retire s else stallCtl s
    | .sc =>
      if s.releaseReady && s.fetchesDone s.cur then retire { s with ticket := s.ticket + 1 } else stallCtl s)

/-- An access of the control stream that has passed its checks goes to the hart's instruction queue, to perform later
(R116, R119): xd awaits what it reads. -/
def State.retireLate (s : State) (d : Reg) (pas : List Nat) (release : Bool) (kind : Nat → PendKind) : Out :=
  let r := s.fresh
  let h := r.2.hart.owe d r.1
  retire (r.2.withHart { h with sbuf := h.sbuf ++ [{ kind := kind r.1, pa := pas, bytes := [], release := release,
                                                     serial := h.nextSerial, bound := r.1 }] })

/-- An instruction of the control stream retires before it performs, when the ordering machine lets it (R119, R126): a
plain `LD`, an `AMO` that acquires nothing, a `FENCE.rel`; any other runs as it stands. -/
def execLate (i : Instr) (run : State → Out) (s : State) : Out :=
  match i with
  | .ld z sx false d a off =>
    reading [a] s (
      let n := sizeBytes z
      let fa := farSum (s.hart.rd a) off.toInt
      if s.heldByDeposit fa.2 n || s.blocksHave acquires then stallCtl s
      else match s.access s.who fa n n .rd with
        | .error e => faultAccess s e
        | .ok pas => s.retireLate d pas false (fun oid => .load d (8 * n) sx oid))
  | .amo op dword ord _ d a b =>
    if ord = .aq || ord = .sc then run s
    else reading (if op = .cas then [a, b, d] else [a, b]) s (
      let n := if dword then 8 else 4
      let addr := s.hart.rd a
      if s.heldByDeposit addr n || s.blocksHave acquires then stallCtl s
      else match s.accessAt s.who addr n n .rdwr with
        | .error e => faultAccess s e
        | .ok pas =>
          let low := fun (r : Reg) => (s.hart.rd r).toNat % 1 <<< (8 * n)
          s.retireLate d pas (ord = .rel) (fun oid => .amo op dword d oid (low b) (low d)))
  | .fence .rel _ => synchronise s (s.retireLate 0 [] true (fun _ => .fence))
  | _ => run s

end Sys2Proof.Machine
end

