-- ==== Sys2Proof/Machine/VectorInteger.lean ====
section
/-!
DEFINITION. Vector integer instructions (R335 to R339, R345, R346, R357, R377, R378).
-/

namespace Sys2Proof.Machine

/-- The frame of R334 with a vector destination: `res` gives the bits and the flags of an active element. -/
def writeElems (s : State) (k : Blk) (vd : VIx) (fd : Fmt) (vl : Nat) (res : Nat → Nat × Flags) : Out :=
  let h := s.hart
  vDoneFlags (s.withHart (h.wrV vd (h.frame k vd fd vl (fun e => (res e).1)))) ((h.actives k vl).map (fun e => (res e).2))

/-- The frame of R334 with a predicate destination; `fl` gives the flags of an active element. -/
def writePred (s : State) (k : Blk) (pd : PIx) (vl : Nat) (body : Nat → Bool) (fl : Nat → Flags) : Out :=
  let h := s.hart
  vDoneFlags (s.withHart (h.wrP pd (h.framePred k h.p[pd.val] vl body))) ((h.actives k vl).map fl)

/-- All formats are integer and no scaling bit of a used operand is set (R336). -/
def intFormats (scaled : Bool) (fs : List Fmt) : Bool := fs.all Fmt.integer && !scaled

/-- A two-source integer instruction (R336): x before Fit, whether it always clamps. -/
def intOp (op : Fmt → Fmt → Fmt → Nat → Nat → Int) (clamp : Bool) (k : Blk) (vd va vb : VIx) (s : State) : Out :=
  withFormats s k (fun d => [d.fa, d.fb, d.fd]) false (fun d fs => intFormats (d.asc || d.bsc || d.dsc) fs)
    fun d fs =>
      match fs with
      | [fa, fb, fd] =>
        let h := s.hart
        writeElems s k vd fd (h.vl k (vlmax h.lanes fs)) (fun e =>
          fit fd (op fa fb fd (h.bitsAt va e fa) (h.bitsAt vb e fb)) (d.sat || clamp))
      | _ => fmtFault s k

/-- An operation on the exact values of its sources (R335). -/
def onInts (op : Int → Int → Int) (fa fb _ : Fmt) (a b : Nat) : Int := op (decodeInt fa a) (decodeInt fb b)

/-- A bitwise operation on two's-complement integers of unbounded width (R337); 66 bits hold every operand. -/
def onBits (op : Nat → Nat → Nat) (a b : Int) : Int := signedOf 66 (op (wrapBits 66 a) (wrapBits 66 b))

/-- A left shift; 256 places already push every bit out of every format (R337). -/
def shiftLeft (a : Int) (n : Nat) : Int := a * ((1 <<< min n 256 : Nat) : Int)
/-- floor(a / 2^n). -/
def shiftRight (a : Int) (n : Nat) : Int := a / ((1 <<< min n 256 : Nat) : Int)
/-- U of a logical right shift (R337). -/
def asNatural (f : Fmt) (bits : Nat) : Int := (bits % 1 <<< f.width : Nat)

/-- The value of a shift of kind `kind` by n (R337). -/
def shiftOp (kind : ShKind) (fa : Fmt) (a n : Nat) : Int :=
  match kind with
  | .sll => shiftLeft (decodeInt fa a) n
  | .srl => shiftRight (asNatural fa a) n
  | .sra => shiftRight (decodeInt fa a) n

/-- VADD. -/
def execVadd (k : Blk) (vd va vb : VIx) (s : State) : Out := intOp (onInts (· + ·)) false k vd va vb s
/-- VSUB. -/
def execVsub (k : Blk) (vd va vb : VIx) (s : State) : Out := intOp (onInts (· - ·)) false k vd va vb s
/-- VMUL. -/
def execVmul (k : Blk) (vd va vb : VIx) (s : State) : Out := intOp (onInts (· * ·)) false k vd va vb s
/-- VMULH: floor(A × B / 2^w_fd). -/
def execVmulh (k : Blk) (vd va vb : VIx) (s : State) : Out :=
  intOp (fun fa fb fd a b => (decodeInt fa a * decodeInt fb b) / ((1 <<< fd.width : Nat) : Int)) false k vd va vb s
/-- VMIN. -/
def execVmin (k : Blk) (vd va vb : VIx) (s : State) : Out :=
  intOp (onInts (fun a b => if b < a then b else a)) false k vd va vb s
/-- VMAX. -/
def execVmax (k : Blk) (vd va vb : VIx) (s : State) : Out :=
  intOp (onInts (fun a b => if a < b then b else a)) false k vd va vb s
/-- VAND. -/
def execVand (k : Blk) (vd va vb : VIx) (s : State) : Out := intOp (onInts (onBits Nat.land)) false k vd va vb s
/-- VOR. -/
def execVor (k : Blk) (vd va vb : VIx) (s : State) : Out := intOp (onInts (onBits Nat.lor)) false k vd va vb s
/-- VXOR. -/
def execVxor (k : Blk) (vd va vb : VIx) (s : State) : Out := intOp (onInts (onBits Nat.xor)) false k vd va vb s
/-- VSLL: the amount is B's bit pattern as a natural number. -/
def execVsll (k : Blk) (vd va vb : VIx) (s : State) : Out := intOp (fun fa _ _ a b => shiftOp .sll fa a b) false k vd va vb s
/-- VSRL. -/
def execVsrl (k : Blk) (vd va vb : VIx) (s : State) : Out := intOp (fun fa _ _ a b => shiftOp .srl fa a b) false k vd va vb s
/-- VSRA. -/
def execVsra (k : Blk) (vd va vb : VIx) (s : State) : Out := intOp (fun fa _ _ a b => shiftOp .sra fa a b) false k vd va vb s
/-- VADDS. -/
def execVadds (k : Blk) (vd va vb : VIx) (s : State) : Out := intOp (onInts (· + ·)) true k vd va vb s
/-- VSUBS. -/
def execVsubs (k : Blk) (vd va vb : VIx) (s : State) : Out := intOp (onInts (· - ·)) true k vd va vb s
/-- VABSD: abs(A - B). -/
def execVabsd (k : Blk) (vd va vb : VIx) (s : State) : Out :=
  intOp (onInts (fun a b => ((a - b).natAbs : Int))) false k vd va vb s

/-- VMAC: A × B + C (R335, R336). -/
def execVmac (k : Blk) (vd va vb vc : VIx) (s : State) : Out :=
  withFormats s k (fun d => [d.fa, d.fb, d.fc, d.fd]) false (fun d fs => intFormats (d.asc || d.bsc || d.dsc) fs)
    fun d fs =>
      match fs with
      | [fa, fb, fc, fd] =>
        let h := s.hart
        writeElems s k vd fd (h.vl k (vlmax h.lanes fs)) (fun e =>
          fit fd (h.intAt va e fa * h.intAt vb e fb + h.intAt vc e fc) d.sat)
      | _ => fmtFault s k

/-- An integer comparison (R346): LTN and GEN compare bit patterns. -/
def intCond (c : Cond) (fa fb : Fmt) (a b : Nat) : Bool :=
  let x := decodeInt fa a
  let y := decodeInt fb b
  match c with
  | .eq => x == y
  | .ne => x != y
  | .lt => decide (x < y)
  | .le => decide (x ≤ y)
  | .gt => decide (y < x)
  | .ge => decide (y ≤ x)
  | .ltn => decide (a < b)
  | .gen => decide (b ≤ a)
  | .unord => false

/-- VCMP (R345, R346). -/
def execVcmp (k : Blk) (pd : PIx) (va vb : VIx) (cond : Cond) (s : State) : Out :=
  withFormats s k (fun d => [d.fa, d.fb]) false (fun d fs => intFormats (d.asc || d.bsc) fs)
    fun _ fs =>
      match fs with
      | [fa, fb] =>
        let h := s.hart
        writePred s k pd (h.vl k (vlmax h.lanes fs))
          (fun e => intCond cond fa fb (h.bitsAt va e fa) (h.bitsAt vb e fb)) (fun _ => flNone)
      | _ => fmtFault s k

/-- An integer instruction with one source (R339, R377); `clamp` fixes sat at 1 (R63). -/
def intOp1 (clamp : Bool) (op : Fmt → Nat → Int) (k : Blk) (vd va : VIx) (s : State) : Out :=
  withFormats s k (fun d => [d.fa, d.fd]) false (fun d fs => intFormats (d.asc || d.dsc) fs)
    fun d fs =>
      match fs with
      | [fa, fd] =>
        let h := s.hart
        writeElems s k vd fd (h.vl k (vlmax h.lanes fs)) (fun e => fit fd (op fa (h.bitsAt va e fa)) (clamp || d.sat))
      | _ => fmtFault s k

/-- VADDI (R339), which fixes sat (R63). -/
def execVaddi (k : Blk) (vd va : VIx) (imm : BitVec 13) (s : State) : Out :=
  intOp1 true (fun f a => decodeInt f a + imm.toInt) k vd va s
/-- VSHI (R377). -/
def execVshi (k : Blk) (vd va : VIx) (kind : ShKind) (n : BitVec 7) (s : State) : Out :=
  intOp1 false (fun f a => shiftOp kind f a n.toNat) k vd va s

/-- VIOTA (R357). -/
def execViota (k : Blk) (vd : VIx) (s : State) : Out :=
  withFormats s k (fun d => [d.fd]) false (fun d fs => intFormats false fs && fs.all (scaleOk d.dsc vd))
    fun d fs =>
      match fs with
      | [fd] => writeElems s k vd fd (s.hart.vl k (vlmax s.hart.lanes fs)) (fun e => fit fd e d.sat)
      | _ => fmtFault s k

/-- VSLICE and VUNSLICE (R378): one format packed, the other sliced. -/
def reslice (slicing : Bool) (k : Blk) (vd va : VIx) (s : State) : Out :=
  withFormats s k (fun d => [d.fa, d.fd]) true
    (fun d fs => intFormats (d.asc || d.dsc) fs && fs.map Fmt.sliced == [!slicing, slicing])
    fun d fs =>
      match fs with
      | [fa, fd] =>
        let h := s.hart
        writeElems s k vd fd (h.vl k (vlmax h.lanes fs)) (fun e => fit fd (h.intAt va e fa) d.sat)
      | _ => fmtFault s k

/-- VSLICE (R378). -/
def execVslice (k : Blk) (vd va : VIx) (s : State) : Out := reslice true k vd va s
/-- VUNSLICE (R378). -/
def execVunslice (k : Blk) (vd va : VIx) (s : State) : Out := reslice false k vd va s

end Sys2Proof.Machine
end

