-- ==== Sys2Proof/Machine/Residency.lean ====
section
/-!
DEFINITION. Residency: sheaf descriptors, windows, loft lines, loop counters, and the residency instructions (R71 to
R91, R269 to R271, R296 to R305, R307, R308).
-/

namespace Sys2Proof.Machine

/- Descriptors. -/

/-- The mode a code names (R72). -/
def Mode.ofCode : Nat → Option Mode
  | 0 => some .inp
  | 1 => some .out
  | 2 => some .inout
  | 3 => some .foldO
  | 4 => some .foldU
  | 5 => some .loc
  | _ => none

/-- IN and INOUT sheaves fetch their lines (R89). -/
def Mode.fetches (m : Mode) : Bool := m = .inp || m = .inout
/-- FOLD.O and FOLD.U. -/
def Mode.folds (m : Mode) : Bool := m = .foldO || m = .foldU
/-- Modes whose orders may owe write-backs or folds (R89). -/
def Mode.owes (m : Mode) : Bool := m = .out || m = .inout || m.folds

/-- A field of a dimension word, with the place of dimension d in the descriptor (R71, R73). -/
def dimField (raw d lo n : Nat) : Nat := field raw (128 + 96 * d + lo) n

/-- Dimension d of a descriptor (R71, R73). -/
def dimOf (raw d : Nat) : Dim :=
  { pk := (dimField raw d 93 1) == 1
    e := dimField raw d 80 13
    o := signedOf 24 (dimField raw d 56 24)
    n := dimField raw d 32 24
    stride := signedOf 32 (dimField raw d 0 32)
    coef := (List.range 8).map (fun c => signedOf 16 (field raw (512 + 128 * d + 16 * c) 16)) }

/-- The sheaf instance of number sid. -/
def State.sheafById (s : State) (sid : Nat) : Option Sheaf := s.sheaves.find? (·.sid == sid)

/-- The sheaf that register r of hart h holds. -/
def State.sheafIn (s : State) (h : Nat) (r : Nat) : Option Sheaf :=
  ((s.hartAt h).hreg.toList.getD r none).bind s.sheafById

/-- Formats of a table sheaf (R74). -/
def tableFmt (f : Fmt) : Bool := f = .n32 || f = .n64

/-- Formats of a FOLD sheaf (R74). -/
def foldFmt (f : Fmt) : Bool :=
  f = .f64 || f = .f32 || f = .f16 || f = .bf16 || f = .s32 || f = .s64 || f = .n32 || f = .n64

/-- The first dimension below r that fails a check, as `EVAL` holds it (R74). -/
def dimCheck (code r : Nat) (ok : Nat → Bool) : Option Nat :=
  ((List.range r).find? (fun d => !ok d)).map (fun d => code + d <<< 8)

/-- The checks of R74 for a descriptor loaded into register reg of the current hart, in the order of the table: the
descriptor, or the code that `EVAL` holds. -/
def State.checkDesc (s : State) (reg raw : Nat) : Except Nat Desc :=
  let ctl := field raw 64 64
  let rank := field ctl 6 3
  let dims := (List.range rank).map (dimOf raw)
  let base := BitVec.ofNat 64 (field raw 0 64)
  let shared := ctl.testBit 14
  let tab := ctl.testBit 15
  let tdim := field ctl 16 2
  let tsrc := field ctl 18 4
  if !(decide (1 ≤ rank) && decide (rank ≤ 4)) then .error 1
  else match Mode.ofCode (field ctl 9 3) with
  | none => .error 2
  | some mode =>
    match Fmt.ofCode (field ctl 0 6) with
    | none => .error 3
    | some f =>
      let stride (d : Nat) : Int := ((dims[d]?).map (·.stride)).getD 0
      let gang := ((s.farms.find? (fun g => g.part == s.hart.part && g.id == s.hart.farm)).map
        (·.gang)).getD false
      let first : Option Nat :=
        if f.sliced || f = .x9 || (mode.folds && !foldFmt f) then some 3
        else
          (dimCheck 4 rank (fun d => decide (1 ≤ dimField raw d 80 13) && decide (dimField raw d 80 13 ≤ 4096))).or <|
          (if mode = .loc then none else
            (dimCheck 5 rank (fun d => dimField raw d 32 24 != 0)).or <|
            (if f.width < 8 then
              dimCheck 6 rank (fun d => stride d * (f.width : Int) % 8 == 0 || (d == 0 && stride 0 == 1))
            else if base.toNat % f.bytes != 0 then some 6 else none)).or <|
          (if tab && !(decide (tdim < rank) && tsrc != reg &&
              (s.sheafIn s.cur tsrc).any (fun t => tableFmt t.desc.fmt)) then some 7 else none).or <|
          (if shared && !(gang && mode = .inp && stride 0 == 1) then some 8 else none).or <|
          (if ctl >>> 25 != 0 || (List.range rank).any (fun d => dimField raw d 94 2 != 0) then some 9 else none).or <|
          (if mode = .loc && (shared || tab) then some 10 else none)
      match first with
      | some c => .error c
      | none =>
        .ok { base := base, mode := mode, fmt := f, fmtCode := field ctl 0 6, shared := shared, tab := tab,
              tdim := tdim, tsrc := tsrc, look := field ctl 12 2, pace := field ctl 22 3, dims := dims, raw := BitVec.ofNat 1024 raw }

/-- Elements of a window (R75). -/
def Desc.size (d : Desc) : Nat := (d.dims.map (·.e)).foldl (· * ·) 1

/-- Dimension 0 has unit stride. -/
def Desc.unit (d : Desc) : Bool := ((d.dims.head?).map (·.stride)) = some 1

/-- Lines that a sheaf reserves (R80). -/
def Desc.lines (d : Desc) : Nat :=
  let w := d.fmt.width
  if d.mode = .loc then (d.size * w + 511) / 512
  else if d.unit then
    (d.look + 1) * ((d.dims.tail.map (·.e)).foldl (· * ·) 1) * ((((d.dims.head?).map (·.e)).getD 1 * w + 511) / 512 + 1)
  else (d.look + 1) * ((d.size * w + 511) / 512)

/-- The bytes of the handle's region that the box of all in-range coordinates covers, from the first up to the end
(R79, R304). -/
def Desc.box (d : Desc) : Int × Int :=
  let spans := d.dims.map (fun m => ((m.n : Int) - 1) * m.stride)
  let lo := spans.foldl (fun t x => t + min 0 x) 0
  let hi := spans.foldl (fun t x => t + max 0 x) 0
  let o : Int := ((d.base.toNat % 1 <<< 48 : Nat) : Int)
  let w : Int := (d.fmt.width : Int)
  (o + w * lo / 8, o + (w * hi + w + 7) / 8)

/-- The region check of `HSET` (R79): the first offending far address, which the model takes to be the lowest byte of
the box, or where the box begins inside the region the first byte behind the region's end.
DESIGN CHOICE: notes/assumptions/58. -/
def State.boxFault (s : State) (d : Desc) : Option Word :=
  let b := d.box
  let top := d.base &&& 0xFFFF000000000000
  let at_ (o : Int) : Word := top + BitVec.ofInt 64 o
  if d.base.toNat >>> 60 != 0 then some (at_ b.1)
  else match s.region s.who (d.base.toNat >>> 48) with
    | none => some (at_ b.1)
    | some r =>
      let ok := match d.mode with
        | .inp => r.rd
        | .out => r.wr
        | .inout => r.rd && r.wr
        | _ => r.fold
      if !ok || b.1 < 0 then some (at_ b.1)
      else if (r.length : Int) < b.2 then some (at_ (max b.1 r.length))
      else none

/- Counters. -/

/-- `ADV` of counter c (R77): the counters after it, and whether it ended without wrapping a counter that has no
target or whose target was touched already. -/
def advanceFrom : Nat → List Nat → List Counter → Nat → List Counter × Bool
  | 0, _, cs, _ => (cs, false)
  | fuel + 1, touched, cs, c =>
    let k := cs.getD c {}
    let v := (k.val + 1) % 1 <<< 32
    if k.bound = 0 || k.val + 1 < k.bound then (cs.set c { k with val := v }, true)
    else
      let cs := cs.set c { k with val := 0 }
      match k.target with
      | none => (cs, false)
      | some t => if (c :: touched).contains t.val then (cs, false) else advanceFrom fuel (c :: touched) cs t.val

/-- `ADV` of counter c. -/
def advance (cs : List Counter) (c : Nat) : List Counter × Bool := advanceFrom 8 [] cs c

/-- The vectors k+1 to k+L of the pace counter that are part of the set (R83). -/
def lookahead (pace : Nat) : Nat → List Counter → List (List Nat)
  | 0, _ => []
  | n + 1, cs =>
    let r := advance cs pace
    if r.2 then r.1.map (·.val) :: lookahead pace n r.1 else []

/-- The counter vectors of the windows of a sheaf at counters cs, the current one first (R83). -/
def Desc.vectors (d : Desc) (cs : List Counter) : List (List Nat) := cs.map (·.val) :: lookahead d.pace d.look cs

/-- A sheaf depends on counter c (R83), through the tables that stand behind it as well (R304). -/
def State.dependsOn (s : State) : Nat → Sheaf → Nat → Bool
  | 0, _, _ => false
  | fuel + 1, sh, c =>
    sh.desc.mode != .loc &&
      (sh.desc.dims.any (fun m => m.coef.getD c 0 != 0) ||
        (sh.desc.tab && (s.sheafIn sh.hart sh.desc.tsrc).any (fun t => s.dependsOn fuel t c)))

/-- As `dependsOn`, through at most the 16 registers a hart has. -/
def State.depends (s : State) (sh : Sheaf) (c : Nat) : Bool := s.dependsOn 16 sh c

/-- Two counter vectors agree on every counter the sheaf depends on. -/
def State.sameWindow (s : State) (sh : Sheaf) (a b : List Nat) : Bool :=
  (List.range 8).all (fun c => a.getD c 0 == b.getD c 0 || !s.depends sh c)

/-- The window of a sheaf at a counter vector (R75, R86): as its order found it; where no table is read, the descriptor
alone says what it is. -/
def State.windowAt (s : State) (sh : Sheaf) (k : List Nat) : Option Window :=
  if sh.desc.mode = .loc then some { kvec := k }
  else (sh.windows.find? (fun w => s.sameWindow sh w.kvec k)).or (if sh.desc.tab then none else some { kvec := k })

/-- The order was queued before an access: one of block `pos`, or of the control stream. -/
def Order.before (o : Order) (pos : Option Nat) : Bool :=
  match pos with
  | none => true
  | some n => decide (o.serial ≤ n)

/-- The window that an access uses (R86, R97): none until every older order that lets the window go has been done, so
that the access meets the window as the last of them makes it.
DEDUCED: notes/assumptions/34. -/
def State.windowFor (s : State) (sh : Sheaf) (k : List Nat) (pos : Option Nat) : Option Window :=
  if sh.orders.all (fun o => !o.before pos || o.final ||
      (sh.desc.vectors o.counters ++ o.also).any (fun v => s.sameWindow sh v k)) then s.windowAt sh k
  else none

/- Places of elements. -/

/-- Where a window element stands (R75, R76, R87, R113): a pad element; an element whose table index failed; a bit
address in far memory; the same for an element that the sheaf gathers; a bit of the sheaf's own window; a bit of a
remote block that a table entry names. -/
inductive Place where
  | pad
  | tab
  | far (bit : Nat)
  | gath (bit : Nat)
  | loc (bit : Nat)
  | remote (entry bit : Nat)
  deriving DecidableEq, Repr

/-- A coordinate as its dimension takes it (R75): none when the element is pad. -/
def Dim.coordinate (m : Dim) (c : Int) : Option Int :=
  if 0 ≤ c && decide (c < (m.n : Int)) then some c
  else if m.pk then some (c % (m.n : Int))
  else none

/-- The origin expression of a dimension at a counter vector (R75, R76). -/
def Dim.origin (m : Dim) (k : List Nat) : Int :=
  m.o + ((m.coef.zip k).map (fun ac => ac.1 * (ac.2 : Int))).sum

/-- Sum over the dimensions of coordinate times stride for the position at offset off (R75, R76); none for pad. In a
remote block, the table-driven dimension counts its position alone and is not checked. -/
def Desc.elementSum (d : Desc) (w : Window) (remote : Bool) : Nat → List Dim → Nat → Option Int
  | _, [], _ => some 0
  | i, m :: ms, off =>
    let j : Int := ((off % m.e : Nat) : Int)
    let driven := d.tab && i == d.tdim
    let c : Option Int :=
      if driven && remote then some j
      else m.coordinate ((if driven then (w.entry.getD 0 : Int) * (m.e : Int) else m.origin w.kvec) + j)
    match c, d.elementSum w remote (i + 1) ms (off / m.e) with
    | some c, some t => some (c * m.stride + t)
    | _, _ => none

/-- The element at offset off is pad at a counter vector, whatever entry the table-driven dimension meets (R75, R76). -/
def Desc.padFrom (d : Desc) (k : List Nat) : Nat → List Dim → Nat → Bool
  | _, [], _ => false
  | i, m :: ms, off =>
    (!(d.tab && i == d.tdim) && (m.coordinate (m.origin k + ((off % m.e : Nat) : Int))).isNone) ||
      d.padFrom k (i + 1) ms (off / m.e)

/-- The chip that a global block number names, the tier, and the block in it (R113). -/
def chipOf (entry : Nat) : Nat := field entry 51 12
/-- The tier. -/
def tierOf (entry : Nat) : Nat := field entry 48 3
/-- The block. -/
def blockOf (entry : Nat) : Nat := field entry 0 48

/-- Position j of the table-driven dimension for the position at offset off (R75). -/
def Desc.tablePos (d : Desc) (off : Nat) : Nat :=
  let below := ((d.dims.take d.tdim).map (·.e)).foldl (· * ·) 1
  off / below % ((d.dims[d.tdim]?).map (·.e)).getD 1

/-- The term of the table-driven dimension stays within a block of 64 KiB (R113). -/
def Desc.inBlock (d : Desc) (off : Nat) : Bool :=
  let t : Int := (d.tablePos off : Int) * ((d.dims[d.tdim]?).map (·.stride)).getD 0 * (d.fmt.width : Int)
  decide (0 ≤ t) && decide (t < 524288)

/-- The place of window offset off (R75, R76, R113). In a resolved block the terms of the other dimensions are added to
that of the table-driven one and base plays no part; an element whose term or whole position is negative fails as one
beyond the block does.
DEDUCED: notes/assumptions/33. -/
def Desc.place (d : Desc) (w : Window) (off : Nat) : Place :=
  let width := d.fmt.width
  if d.mode = .loc then .loc (off * width)
  else if w.bad then .tab
  else
    let e := w.entry.getD 0
    let remote := d.tab && e.testBit 63
    match d.elementSum w remote 0 d.dims off with
    | none => .pad
    | some t =>
      if remote then
        if t < 0 || !d.inBlock off then .tab else .remote e (t.toNat * width)
      else
        let bit := ((8 * d.base.toNat : Int) + (width : Int) * t).toNat
        if d.unit then .far bit else .gath bit

/-- The line numbers that w bits from a bit address meet. -/
def spanLines (bit w : Nat) : List Nat :=
  let a := bit / 512
  let b := (bit + w - 1) / 512
  if a = b then [a] else [a, b]

/-- The directory name of the far line with address 64·n, for a sheaf (R87).
DEDUCED: notes/assumptions/32. -/
def Sheaf.farKey (sh : Sheaf) (n : Nat) : LineKey :=
  let handle := n >>> 42
  let idx := n % 1 <<< 42
  if sh.desc.unit && (sh.desc.mode = .inp || sh.desc.mode = .out || sh.desc.mode = .inout) then .far sh.part handle idx
  else if sh.desc.unit && sh.desc.mode = .foldU then .fold sh.part handle sh.desc.fmt.code idx
  else .own sh.sid handle idx

/-- Who shares the lines of a sheaf (R87). -/
def Sheaf.sharing (sh : Sheaf) : Sharing :=
  let handle := sh.desc.base.toNat >>> 48
  if sh.desc.unit && (sh.desc.mode = .inp || sh.desc.mode = .out || sh.desc.mode = .inout) then .plain sh.part handle
  else if sh.desc.unit && sh.desc.mode = .foldU then .fold sh.part handle sh.desc.fmt.code
  else .own sh.sid

/-- The lines of a place. An element that a sheaf gathers stands in the directory for itself.
DEDUCED: notes/assumptions/32. -/
def Sheaf.placeKeys (sh : Sheaf) (p : Place) : List LineKey :=
  let w := sh.desc.fmt.width
  match p with
  | .pad => []
  | .tab => []
  | .far bit => (spanLines bit w).map sh.farKey
  | .gath bit => [.gath sh.sid bit]
  | .loc bit => (spanLines bit w).map (.loc sh.sid ·)
  | .remote e bit => (spanLines bit w).map (.remote sh.sharing e ·)

/-- Adds the members of a list that are not there yet, in order. -/
def addNew {α : Type} [DecidableEq α] (l : List α) : List α → List α
  | [] => l
  | x :: xs => addNew (if l.contains x then l else l ++ [x]) xs

/-- The lines of a window in ascending window offset (R83). -/
def Sheaf.windowKeys (sh : Sheaf) (w : Window) : List LineKey :=
  (List.range sh.desc.size).foldl (fun l off => addNew l (sh.placeKeys (sh.desc.place w off))) []

/-- The far address of a line; the entry for a line of a remote block. -/
def LineKey.addr (k : LineKey) : Word :=
  match k with
  | .far _ h i => BitVec.ofNat 64 (h <<< 48 + i <<< 6)
  | .fold _ h _ i => BitVec.ofNat 64 (h <<< 48 + i <<< 6)
  | .own _ h i => BitVec.ofNat 64 (h <<< 48 + i <<< 6)
  | .gath _ bit => BitVec.ofNat 64 (bit / 8)
  | .loc _ i => BitVec.ofNat 64 (i <<< 6)
  | .remote _ e _ => BitVec.ofNat 64 e

/-- A line of a remote block (R113). -/
def LineKey.isRemote (k : LineKey) : Bool :=
  match k with
  | .remote .. => true
  | _ => false

/- Lines. -/

/-- The line of a stead's directory under a key (R87). -/
def State.lineAt (s : State) (st : Nat) (k : LineKey) : Option Line :=
  s.lines.find? (fun l => l.stead == st && l.key == k)

/-- Changes the line of a stead's directory under a key. -/
def State.mapLine (s : State) (st : Nat) (k : LineKey) (f : Line → Line) : State :=
  { s with lines := s.lines.map (fun l => if l.stead == st && l.key == k then f l else l) }

/-- What an access finds at an element (R93, R96, R97, R76). -/
inductive Found where
  | ready (bits : Nat)
  | wait
  | fail (c : Cause) (eval : Word)
  deriving DecidableEq, Repr

/-- The line stands for a sheaf: a window of it covers the line, or a multicast brings it to the sheaf (R83, R98). -/
def Line.standsFor (l : Line) (sid : Nat) : Bool := l.holders.contains sid || l.expected.contains sid

/-- The lines of a place in turn (R93): the first that fails or has not arrived decides; with all of them there, their
bytes one after the other. -/
def State.gather (s : State) (sh : Sheaf) (load : Bool) (eval : Word) : List LineKey → Found
  | [] => .ready 0
  | k :: ks =>
    match s.lineAt sh.stead k with
    | none => .wait
    | some l =>
      match l.status with
      | .failed c => if l.standsFor sh.sid then .fail c eval else .wait
      | st =>
        if !l.standsFor sh.sid then .wait
        else if st = .inflight && (sh.desc.mode.fetches || (load && sh.desc.mode = .out)) then .wait
        else match s.gather sh load eval ks with
          | .ready rest => .ready (l.data.toNat + rest <<< 512)
          | f => f

/-- What a fold of a value into an element leaves there (R90). -/
def foldResult (f : Fmt) (old value : Nat) : Nat :=
  if f.integer then (old + value) % 1 <<< f.width
  else roundRNE f ((decodeVal f false old).add false (decodeVal f false value))

/-- What a load of a fold element shows: what stands in the loft, or for an element that a save of the hart has folded
already the value it would have without the save (R99). -/
def State.shown (s : State) (sh : Sheaf) (k : Option LineKey) (off v : Nat) : Nat :=
  match k.bind (s.lineAt sh.stead) with
  | none => v
  | some l => (alookup l.kept off).getD v

/-- An element of a place: its bits, a wait, or its fault. -/
def State.elementAt (s : State) (sh : Sheaf) (p : Place) (load : Bool) : Found :=
  let w := sh.desc.fmt.width
  let get (bit : Nat) (eval : Word) : Found :=
    match s.gather sh load eval (sh.placeKeys p) with
    | .ready v =>
      let x := field v (bit % 512) w
      .ready (if load && sh.desc.mode.folds then s.shown sh (sh.placeKeys p).head? (bit % 512) x else x)
    | f => f
  match p with
  | .pad => .ready 0
  | .tab => .fail .sheafcfg 0x13
  | .far bit => get bit (BitVec.ofNat 64 (bit / 8))
  | .gath bit => get 0 (BitVec.ofNat 64 (bit / 8))
  | .loc bit => get bit 0
  | .remote e bit => get bit (BitVec.ofNat 64 e)

/-- The element at offset off of a window. -/
def State.windowElem (s : State) (sh : Sheaf) (w : Window) (off : Nat) (load : Bool) : Found :=
  s.elementAt sh (sh.desc.place w off) load

/-- Writes bits into a line: its bytes become dirty and stored, or the element touched (R89); so does an element that a
sheaf gathers. -/
def Line.put (l : Line) (off n x : Nat) (fold plain : Bool) : Line :=
  let first := off / 8
  let mask := BitVec.ofNat 64 ((1 <<< ((off + n + 7) / 8 - first) - 1) <<< first)
  let l := { l with data := BitVec.ofNat 512 (putField l.data.toNat off n x) }
  if fold then { l with touched := if l.touched.contains off then l.touched else l.touched ++ [off] }
  else if plain then l
  else { l with dirty := l.dirty ||| mask, stored := l.stored ||| mask }

/-- A fold of x into the element at a bit offset, as loads show it after a save (R99). -/
def Line.keep (l : Line) (f : Fmt) (off x : Nat) : Line :=
  match alookup l.kept off with
  | none => l
  | some old => { l with kept := ainsert l.kept off (foldResult f old x) }

/-- A store to an element whose lines stand ready (R89, R90): pad drops it. -/
def State.storeAt (s : State) (sh : Sheaf) (p : Place) (x : Nat) : State :=
  let f := sh.desc.fmt
  let w := f.width
  let go (bit : Nat) (each : Bool) : State :=
    match s.elementAt sh p false with
    | .ready old =>
      let v := if sh.desc.mode.folds then foldResult f old x else x % 1 <<< w
      let o := bit % 512
      let head := min w (512 - o)
      match sh.placeKeys p with
      | [k] =>
        if sh.desc.mode.folds then s.mapLine sh.stead k (fun l => (l.put o w v true false).keep f o x)
        else s.mapLine sh.stead k (·.put o w v each (sh.desc.mode = .loc))
      | [k, k'] =>
        (s.mapLine sh.stead k (·.put o head (v % 1 <<< head) false (sh.desc.mode = .loc))).mapLine sh.stead k'
          (·.put 0 (w - head) (v >>> head) false (sh.desc.mode = .loc))
      | _ => s
    | _ => s
  match p with
  | .pad => s
  | .tab => s
  | .far bit => go bit false
  | .gath _ => go 0 true
  | .loc bit => go bit false
  | .remote _ bit => go bit false

/-- The element at offset off of the window at a counter vector is delivered (R75, R82): its lines stand arrived for the
sheaf, or it is pad. While the window is still to be read from a table, or an older order is still to give it up, pad
alone counts. -/
def State.delivered (s : State) (sh : Sheaf) (k : List Nat) (pos : Option Nat) (off : Nat) : Found :=
  match s.windowFor sh k pos with
  | some w => s.windowElem sh w off true
  | none => if sh.desc.padFrom k 0 sh.desc.dims off then .ready 0 else .wait

/-- A of R82 for a window: elements in offset order from 0 that are delivered without a gap; an element whose table
index failed ends the count.
DEDUCED: notes/assumptions/33. -/
def State.available (s : State) (sh : Sheaf) (k : List Nat) (pos : Option Nat) : Nat :=
  if !sh.desc.mode.fetches then sh.desc.size
  else ((List.range sh.desc.size).find? (fun off =>
    match s.delivered sh k pos off with
    | .ready _ => false
    | _ => true)).getD sh.desc.size

/- Orders and what lines owe. -/

/-- Replaces a sheaf instance. -/
def State.setSheaf (s : State) (sh : Sheaf) : State :=
  { s with sheaves := s.sheaves.map (fun t => if t.sid == sh.sid then sh else t) }

/-- Queues a harvest order on a sheaf of hart h (R83, R86). -/
def State.queueOrder (s : State) (sid adv : Nat) (final : Bool) : State :=
  match s.sheafById sid with
  | none => s
  | some sh =>
    let r := s.fresh
    let h := s.hartAt sh.hart
    let o : Order := { oid := r.1, adv := adv, counters := h.k.toList, serial := h.nextSerial,
                       skip := (h.queue.filter (fun b => b.held != 0)).map (·.serial), final := final }
    r.2.setSheaf { sh with orders := sh.orders ++ [o] }

/-- Clear of R79 and R81: the final order is queued and the register is empty. -/
def State.clearReg (s : State) (h r : Nat) : State :=
  match (s.hartAt h).hreg.toList.getD r none with
  | none => s
  | some sid =>
    let s := s.queueOrder sid 0 true
    let v := s.hartAt h
    s.setHartAt h { v with hreg := v.hreg.setIfInBounds r none }

/-- The line before or behind one of a handle or of a remote block. -/
def LineKey.beside (k : LineKey) (next : Bool) : Option LineKey :=
  let step (i : Nat) : Option Nat := if next then some (i + 1) else if i = 0 then none else some (i - 1)
  match k with
  | .far p h i => (step i).map (.far p h)
  | .fold p h f i => (step i).map (.fold p h f)
  | .own d h i => (step i).map (.own d h)
  | .remote b e i => (step i).map (.remote b e)
  | _ => none

/-- The first byte of a line, from where elements are counted: by far address, or in its remote block. -/
def LineKey.start (k : LineKey) : Nat :=
  match k with
  | .remote _ _ i => 64 * i
  | k => k.addr.toNat

/-- Where four elements of 6 bits that fill three bytes lie across the boundary of two lines, for each sheaf that holds
one of the lines: how many of the three bytes stand before the boundary. `k` is the line behind it. -/
def State.cuts (s : State) (st : Nat) (before k : LineKey) : List Nat :=
  let six (t : Sheaf) : Bool := t.stead == st && t.desc.fmt.width == 6 &&
    s.lines.any (fun l => l.stead == st && (l.key == k || l.key == before) && l.holders.contains t.sid)
  ((s.sheaves.filter six).map (fun t =>
    (((k.start : Int) - (if k.isRemote then 0 else (t.desc.base.toNat : Int))) % 3).toNat)).filter (· != 0)

/-- The bytes of the line beside one whose dirty bytes `m` are written that go with them (R91): the dirty bytes of the
elements of 6 bits that lie across the two lines, as far as the boundary's own bytes are dirty.
DEDUCED: notes/assumptions/36. -/
def State.spillBytes (s : State) (st : Nat) (k k' : LineKey) (next : Bool) (m dirty : BitVec 64) : BitVec 64 :=
  let bits (l : List Nat) : BitVec 64 := (l.takeWhile dirty.getLsbD).foldl (fun v i => v ||| 1#64 <<< i) 0
  if !m.getLsbD (if next then 63 else 0) then 0
  else ((s.cuts st (if next then k else k') (if next then k' else k)).map (fun c =>
    bits (if next then List.range (3 - c) else (List.range c).map (63 - ·)))).foldl (· ||| ·) 0

/-- What the line beside a line owes with it (R91), whose bytes become clean. -/
def State.spillFrom (s : State) (st : Nat) (k : LineKey) (next : Bool) (m : BitVec 64) : State × List Spill :=
  match k.beside next with
  | none => (s, [])
  | some k' =>
    match s.lineAt st k' with
    | none => (s, [])
    | some l =>
      let run := s.spillBytes st k k' next m l.dirty
      if run = 0 || l.dead then (s, [])
      else (s.mapLine st k' (fun l => { l with dirty := l.dirty &&& ~~~run }),
            [{ key := k', addr := k'.addr, data := l.data, mask := run }])

/-- The debts that a line of a sheaf owes are issued (R81, R89, R261): one write-back of its dirty bytes, a fold of each
touched element, which becomes zero. What a retired page's line owes is discarded (R149). -/
def State.issueLine (s : State) (sh : Sheaf) (k : LineKey) (oid adv : Nat) : State :=
  match s.lineAt sh.stead k with
  | none => s
  | some l =>
    let h := s.hartAt sh.hart
    let w := sh.desc.fmt.width
    let debt (kind : DebtKind) : Debt :=
      { did := 0, sid := sh.sid, hart := sh.hart, part := sh.part, stead := sh.stead, reg := sh.reg, farm := h.farm,
        oid := oid, adv := adv, key := k, addr := k.addr, kind := kind, ordered := sh.desc.mode = .foldO,
        strip := if sh.desc.mode = .foldO && h.holdsStrip then some h.stripId.toNat else none,
        fromExit := h.exiting }
    let value (off : Nat) : Nat := field l.data.toNat off w
    let owing := !(l.dead || sh.desc.mode = .loc)
    let cleared := s.mapLine sh.stead k (fun l =>
      { l with dirty := 0, touched := [], kept := []
               data := if sh.desc.mode.folds then
                   BitVec.ofNat 512 (l.touched.foldl (fun v off => putField v off w 0) l.data.toNat)
                 else l.data })
    let behind := if owing && l.dirty != 0 then cleared.spillFrom sh.stead k true l.dirty else (cleared, [])
    let ahead := if owing && l.dirty != 0 then behind.1.spillFrom sh.stead k false l.dirty else (behind.1, [])
    let owed : List Debt :=
      if !owing then []
      else if sh.desc.mode.folds then l.touched.map (fun off => debt (.fold sh.desc.fmt off (value off)))
      else match k with
        | .gath _ bit => if l.touched.isEmpty then [] else [debt (.scatter sh.desc.fmt [(bit, value 0)])]
        | _ => if l.dirty = 0 then [] else [{ debt (.write l.data l.dirty) with spill := ahead.2 ++ behind.2 }]
    owed.foldl (fun s d => let r := s.fresh; { r.2 with debts := r.2.debts ++ [{ d with did := r.1 }] }) ahead.1

/-- The lines of a stead whose windows of a sheaf cover them, in directory order. -/
def State.linesOf (s : State) (sh : Sheaf) : List LineKey :=
  (s.lines.filter (fun l => l.stead == sh.stead && l.holders.contains sh.sid)).map (·.key)

/-- HFLUSH of a sheaf (R81, R261, R300). -/
def State.flushSheaf (s : State) (sh : Sheaf) : State :=
  if sh.desc.mode.owes then
    let r := s.fresh
    (r.2.linesOf sh).foldl (fun s k => s.issueLine sh k r.1 0) r.2
  else s

/-- The orders of number adv are not finished (R85). -/
def State.advUnfinished (s : State) (adv : Nat) : Bool :=
  s.sheaves.any (fun sh => sh.orders.any (·.adv == adv)) || s.fetches.any (fun f => f.adv == adv && !f.arrived) ||
    s.debts.any (·.adv == adv)

/-- Changes the counters of the current hart; each loaded sheaf that depends on a changed counter gets an order of
number adv (R83, R269, R307). -/
def State.changeCounters (s : State) (cs : Vector Counter 8) (changed : Nat → Bool) (adv : Nat) : State :=
  let s := { s with hart := { s.hart with k := cs } }
  (List.range 16).foldl (fun s r =>
    match s.sheafIn s.cur r with
    | some sh => if (List.range 8).any (fun c => changed c && s.depends sh c) then s.queueOrder sh.sid adv false else s
    | none => s) s

/-- ADV (R269): it stalls while four of the hart's `ADV`s are unfinished (R85). -/
def execAdv (k : KIx) (s : State) : Out :=
  let advs := s.hart.advs.filter s.advUnfinished
  if 4 ≤ advs.length then stallCtl s
  else
    let old := s.hart.k
    let cs := (advance old.toList k.val).1
    let new : Vector Counter 8 := Vector.ofFn (fun i => cs.getD i.val {})
    let r := s.fresh
    let s1 := r.2.changeCounters new (fun c => (old.toList.getD c {}).val != (new.toList.getD c {}).val) r.1
    retire { s1 with hart := { s1.hart with advs := advs ++ [r.1] } }

/-- KSET (R307, R308). -/
def execKset (k : KIx) (a b : Reg) (target : Option KIx) (s : State) : Out :=
  reading [a, b] s (
    let v := (s.hart.rd a).toNat
    let bound := (s.hart.rd b).toNat % 1 <<< 32
    let c : Counter := { val := if bound = 0 then v % 1 <<< 32 else v % bound, bound := bound, target := target }
    if c = s.hart.k[k.val] then retire s
    else
      let r := s.fresh
      retire (r.2.changeCounters (s.hart.k.set k.val c) (· == k.val) r.1))

/-- KGET (R77, R307). -/
def execKget (d : Reg) (k : KIx) (sel : Fin 3) (s : State) : Out :=
  let c := s.hart.k[k.val]
  retireWith s d (BitVec.ofNat 64 (match sel with
    | 0 => c.val
    | 1 => c.bound
    | 2 => match c.target with
      | none => 0
      | some t => 8 + t.val))

/-- HAVAIL (R296). -/
def execHavail (d : Reg) (h : HIx) (s : State) : Out :=
  retireWith s d (BitVec.ofNat 64 (match s.sheafIn s.cur h.val with
    | none => 0
    | some sh => s.available sh (s.hart.k.toList.map (·.val)) none))

/-- HCLR (R298, R299). -/
def execHclr (h : HIx) (s : State) : Out :=
  if !s.hart.blocksDone then stallCtl s else retire (s.clearReg s.cur h.val)

/-- HFLUSH (R298, R300). -/
def execHflush (h : HIx) (s : State) : Out :=
  if !s.hart.blocksDone then stallCtl s
  else match s.sheafIn s.cur h.val with
    | none => retire s
    | some sh => retire (s.flushSheaf sh)

/-- The state of the current window for `HWAIT`: some element waits, or the first that failed (R81). -/
def State.windowState (s : State) (sh : Sheaf) (w : Window) : Found :=
  let found := (List.range sh.desc.size).map (fun off => s.windowElem sh w off true)
  if found.any (· == .wait) then .wait
  else (found.find? (fun f => match f with | .fail .xfault _ => true | .fail .poison _ => true | _ => false)).getD (.ready 0)

/-- A write-back or fold issued for register r of hart h has not performed, be it for a sheaf that the register held
before (R81). -/
def State.owesFor (s : State) (h r : Nat) : Bool := s.debts.any (fun d => d.hart == h && d.reg == r)

/-- HWAIT (R298, R300): a queued engine event is delivered first; the windows of OUT, FOLD and LOCAL sheaves count as
delivered. -/
def execHwait (h : HIx) (s : State) : Out :=
  if !s.hart.blocksDone then stallCtl s
  else synchronise s (
    match s.sheafIn s.cur h.val with
    | none => retire s
    | some sh =>
      let found : Found :=
        if !sh.desc.mode.fetches then .ready 0
        else match s.windowFor sh (s.hart.k.toList.map (·.val)) none with
          | none => .wait
          | some w => s.windowState sh w
      match found with
      | .wait => stallCtl s
      | .ready _ => if s.owesFor s.cur h.val then stallCtl s else retire s
      | .fail c ev => if s.owesFor s.cur h.val then stallCtl s else faultAt s c ev)

/-- Lines of a stead that no reservation holds (R80, R303). -/
def State.freeLines (s : State) (st : Nat) : Nat :=
  196608 - ((s.sheaves.filter (fun sh => sh.stead == st && !sh.parked)).map (·.reserved)).sum

/-- The stead of a saved hart can reserve the lines of every sheaf of it again (R99). -/
def State.linesFit (s : State) (h : Nat) : Bool :=
  decide (((s.sheaves.filter (fun sh => sh.hart == h && sh.parked)).map (·.reserved)).sum ≤ s.freeLines (steadOf h))

/-- Loads a descriptor into register r of the current hart (R79): lines reserved; a LOCAL sheaf's lines zeroed;
otherwise the first order. -/
def State.loadSheaf (s : State) (r : Nat) (key : Word) (d : Desc) : State :=
  let f := s.fresh
  let sid := f.1
  let st := steadOf s.cur
  let sh : Sheaf := { sid := sid, hart := s.cur, part := s.hart.part, stead := st, reg := r, key := key, desc := d,
                      reserved := d.lines }
  let s := { f.2 with sheaves := f.2.sheaves ++ [sh],
                      hart := { f.2.hart with hreg := f.2.hart.hreg.setIfInBounds r (some sid) } }
  if d.mode = .loc then
    { s with lines := s.lines ++ (List.range d.lines).map (fun i =>
        { stead := st, key := .loc sid i, status := .zero, holders := [sid] }) }
  else s.queueOrder sid 0 false

/-- HSET (R302): it clears the register, reads and checks the descriptor, waits for the reservations that the hart's
earlier `HCLR`s give back, and loads the sheaf when its lines are free.
DEDUCED: notes/assumptions/34. -/
def execHset (d : Reg) (h : HIx) (a : Reg) (s : State) : Out :=
  reading [a] s (
    if !s.hart.blocksDone then stallCtl s
    else
      let s := s.clearReg s.cur h.val
      let addr := s.hart.rd a
      if s.heldByDeposit addr 128 then stallCtl s
      else match s.accessAt s.who addr 128 128 .rd with
      | .error e => faultAccess s e
      | .ok pas =>
        match s.checkDesc h.val (ofBytes (s.loadBytes pas)) with
        | .error c => faultAt s .sheafcfg (BitVec.ofNat 64 c)
        | .ok desc =>
          match (if desc.mode = .loc then none else s.boxFault desc) with
          | some ev => faultAccess s ⟨.region, ev, s.tableLines s.hart.part ev⟩
          | none =>
            if s.sheaves.any (fun sh => sh.hart == s.cur && sh.orders.any (·.final)) then stallCtl s
            else if s.freeLines (steadOf s.cur) < desc.lines then
              if d = 0 then faultAt s .loftfull (BitVec.ofNat 64 desc.lines) else retireWith s d 1
            else retireWith (s.loadSheaf h.val addr desc) d 0)

end Sys2Proof.Machine
end

