-- ==== Sys2Proof/Machine/Control.lean ====
section
/-!
DEFINITION. Branches, jumps, block hand-off, lanes, Flail rows and traps of the control stream (R22 to R33, R44, R45,
R185, R276, R277, R306, R313, R329, R333, R349, R350, R356).
-/

namespace Sys2Proof.Machine

/- Branches and jumps. -/

/-- PC-relative target: the offset counts words (R276, R306, R349). -/
def State.target (s : State) {n : Nat} (off : BitVec n) : Word := s.hart.pc + (off.signExtend 64) <<< 2

/-- A conditional branch (R276). -/
def branch (c : Word → Word → Bool) (a b : Reg) (off : BitVec 16) (s : State) : Out :=
  reading [a, b] s (
    .next (s.retireTo (if c (s.hart.rd a) (s.hart.rd b) then s.target off else s.hart.pc + 4)))

/-- BEQ (R276). -/
def execBeq (a b : Reg) (off : BitVec 16) (s : State) : Out := branch (· == ·) a b off s
/-- BNE (R276). -/
def execBne (a b : Reg) (off : BitVec 16) (s : State) : Out := branch (· != ·) a b off s
/-- BLT (R276). -/
def execBlt (a b : Reg) (off : BitVec 16) (s : State) : Out := branch (fun x y => x.slt y) a b off s
/-- BGE (R276). -/
def execBge (a b : Reg) (off : BitVec 16) (s : State) : Out := branch (fun x y => !x.slt y) a b off s
/-- BLTN (R276). -/
def execBltn (a b : Reg) (off : BitVec 16) (s : State) : Out := branch (fun x y => x.ult y) a b off s
/-- BGEN (R276). -/
def execBgen (a b : Reg) (off : BitVec 16) (s : State) : Out := branch (fun x y => !x.ult y) a b off s

/-- JAL (R306). -/
def execJal (d : Reg) (off : BitVec 21) (s : State) : Out :=
  let t := s.target off
  let link := s.hart.pc + 4
  .next ({ s with hart := s.hart.wr d link }.retireTo t)

/-- JALR (R306): a target that is not a multiple of 4 takes ALIGN and leaves xd unchanged. -/
def execJalr (d a : Reg) (imm : BitVec 16) (s : State) : Out :=
  reading [a] s (
    let t := s.hart.rd a + imm.signExtend 64
    if t.toNat % 4 ≠ 0 then faultAt s .align t
    else
      let link := s.hart.pc + 4
      .next ({ s with hart := s.hart.wr d link }.retireTo t))

/- Blocks. -/

/-- Appends the block at a to the queue with what it captures (R23, R86, R280). -/
def Hart.queueBlock (h : Hart) (a : Word) (bound : Nat) : Hart :=
  let b : Block := { addr := a, pos := a, view := h.x, kvec := h.k.toList.map (·.val), fmtdef := h.fmtdef,
                     ropepart := h.ropepart, serial := h.nextSerial, bound := bound }
  { h with queue := h.queue ++ [b], nextSerial := h.nextSerial + 1 }

/-- VF and VFR of the block at a (R349): ALIGN, the wait while four blocks are queued, or while a `GFIND` of the hart
that the block's accesses would wait for has not answered (R125), then the hand-off.
DEDUCED: notes/assumptions/20. -/
def handOffBlock (a : Word) (s : State) : Out :=
  if a.toNat % 8 ≠ 0 then faultAt s .align a
  else if 4 ≤ s.hart.queue.length || s.findPending then stallCtl s
  else retire { s with hart := s.hart.queueBlock a s.nextId }

/-- The block captures every scalar register, so a hand-off waits for every pending answer (R23, R164). -/
def allRegs : List Reg := List.finRange 32

/-- VF (R349). -/
def execVf (off : BitVec 26) (s : State) : Out := reading allRegs s (handOffBlock (s.target off) s)
/-- VFR (R349). -/
def execVfr (a : Reg) (s : State) : Out := reading allRegs s (handOffBlock (s.hart.rd a) s)

/-- The instruction writes vector register v. -/
def writesV (v : VIx) (i : Instr) : Bool :=
  match i with
  | .vadd _ d .. | .vsub _ d .. | .vmul _ d .. | .vmulh _ d .. | .vmin _ d .. | .vmax _ d .. => d == v
  | .vand _ d .. | .vor _ d .. | .vxor _ d .. | .vsll _ d .. | .vsrl _ d .. | .vsra _ d .. => d == v
  | .vadds _ d .. | .vsubs _ d .. | .vabsd _ d .. | .vmac _ d .. | .vaddi _ d .. | .vshi _ d .. => d == v
  | .viota _ d | .ppopc _ d _ | .pfirst _ d _ | .vbcast _ d _ | .vins _ d .. | .mrd _ d _ => d == v
  | .vfadd _ d .. | .vfsub _ d .. | .vfmul _ d .. | .vfma _ d .. | .vfdiv _ d .. | .vfsqrt _ d _ => d == v || d + 1 == v
  | .vfmin _ d .. | .vfmax _ d .. | .vcvt _ d _ | .vtopk _ d .. => d == v || d + 1 == v
  | .vfrcp _ d _ | .vfrsq _ d _ | .vfexp2 _ d _ | .vfclass _ d _ | .vslice _ d _ | .vunslice _ d _ => d == v
  | .vqscale _ d .. | .vslup _ d .. | .vsldn _ d .. | .vperm _ d .. | .vcompr _ d .. | .vexpnd _ d .. => d == v
  | .vmerge _ d .. | .vmov _ d _ | .vredsum _ d .. | .vredmax _ d _ | .vredmin _ d _ | .vscan _ d _ => d == v
  | .vldh _ d .. | .vldhx _ d .. | .vldf _ d .. | .vldx _ d .. | .vldt _ d .. | .vlds _ d .. | .vrope _ d .. => d == v
  | .vamo _ _ d .. => d == v
  | .vsprune _ d _ c => d == v || c == v
  | _ => false

/-- The value `VGET` writes for element bits (R27): integers extend, floats narrower than f32 widen exactly and keep
NaN payloads. -/
def vgetValue (f : Fmt) (bits : Nat) : Word :=
  if f.signed then BitVec.ofInt 64 (signedOf f.width bits)
  else match f, f.spec with
    | .f64, _ => BitVec.ofNat 64 bits
    | .f32, _ => BitVec.ofNat 64 bits
    | _, some sp =>
      match decodeFloat sp f.width bits with
      | .nan _ =>
        let sign := (bits >>> (f.width - 1)) % 2
        let frac := bits % 1 <<< sp.m
        BitVec.ofNat 64 (sign <<< 31 + 0x7F800000 + frac <<< (23 - sp.m))
      | v => BitVec.ofNat 64 (place .f32 {} v).1
    | _, none => BitVec.ofNat 64 bits

/-- A vector access in flight still has to fill register v. -/
def Hart.filling (h : Hart) (v : VIx) : Bool :=
  h.vq.any (fun r =>
    match r.what with
    | .load vd _ => vd == v
    | .store _ => false
    | .amo _ vd _ => vd == v)

/-- VGET (R27, R356): it waits for the instructions of queued blocks that write va. -/
def execVget (d a : Reg) (fmt : BitVec 5) (va : VIx) (s : State) : Out :=
  reading [a] s (
    match Fmt.ofCode fmt.toNat with
    | none => faultAt s .fmt (fmt.zeroExtend 64)
    | some f =>
      if s.blocksHave (writesV va) || s.hart.filling va then stallCtl s
      else
        let e := (s.hart.rd a).toNat
        let bits := if vlmax s.hart.lanes [f] ≤ e then 0 else s.hart.bitsAt va e f
        retireWith s d (vgetValue f bits))

/- Lanes. -/

/-- A hart holds its quads while it runs or stands halted, once it has its reserved quad (R252). -/
def Hart.holding (h : Hart) : Bool := (h.status == .running || h.status == .halted) && h.needsReserved.isNone

/-- The harts of a stead whose contexts are listed. -/
def State.hartsOn (s : State) (st : Nat) : List Nat := s.hartIds.filter (fun h => steadOf h == st)

/-- The union of the quads that harts of a stead hold. -/
def State.quadsHeld (s : State) (st : Nat) : BitVec 64 :=
  (s.hartsOn st).foldl (fun g h => if (s.hartAt h).holding then g ||| (s.hartAt h).grant else g) 0

/-- Free quads of a stead, ascending. -/
def State.freeQuads (s : State) (st : Nat) : List Nat :=
  (List.range s.caps.quads).filter (fun q => !(s.quadsHeld st).getLsbD q)

/-- Quads of a mask, ascending. -/
def quadList (g : BitVec 64) : List Nat := (List.range 64).filter g.getLsbD

/-- The mask of a list of quads. -/
def quadMask (l : List Nat) : BitVec 64 := l.foldl (fun g q => g ||| (1#64 <<< q)) 0

/-- Budget of a partition on a stead (R141), which starts at its floor. -/
def Part.budgetOn (p : Part) (st : Nat) : Nat := p.budget.getD st (p.record.qfloor.getD st 0)

/-- Quads that the other harts of partition p hold on stead st; a hart that waits for its reserved quad counts one
(R30, R252). -/
def State.heldByOthers (s : State) (p st me : Nat) : Nat :=
  ((s.hartsOn st).filter (fun h => h != me && (s.hartAt h).part == p)).foldl (fun n h =>
    let v := s.hartAt h
    if v.needsReserved.isSome then n + 1 else if v.holding then n + popCount v.grant.toNat 64 else n) 0

/-- Quads that the harts of partition p hold on stead st. -/
def State.quadsOf (s : State) (p st : Nat) : Nat :=
  (((s.hartsOn st).filter (fun h => (s.hartAt h).part == p && (s.hartAt h).holding)).map
    (fun h => popCount (s.hartAt h).grant.toNat 64)).sum

/-- A hart that runs, waits for its reserved quad or for its gang, or stands halted.
DEDUCED: notes/assumptions/30. -/
def Hart.counted (h : Hart) : Bool := h.status == .running || h.status == .halted

/-- Harts of partition p that run or wait for a quad. -/
def State.running (s : State) (p : Nat) : Nat :=
  s.hartIds.countP (fun h => (s.hartAt h).part == p && (s.hartAt h).counted)

/-- The allocator could give a runnable context its quads (R33, R139): it comes first in its partition's order, and the
ceiling, the budget and the free quads allow it. -/
def State.canResume (s : State) (h : Nat) : Bool :=
  let v := s.hartAt h
  let st := steadOf h
  let p := s.partAt v.part
  v.status == .runnable && p.order.head? == some h && decide (s.running v.part < p.record.hceil) &&
    decide (v.owed ≤ (s.freeQuads st).length) && decide (v.owed + s.heldByOthers v.part st h ≤ p.budgetOn st)

/-- Whether unit u of 8 rows on stead st is free for hart `me`: no hart that is not pre-empted holds it (R44, R189). -/
def State.unitFree (s : State) (st me u : Nat) : Bool :=
  (s.hartsOn st).all (fun h =>
    let v := s.hartAt h
    h == me || v.preempted || v.rowCount == 0 || !(decide (v.rowBase ≤ 8 * u) && decide (8 * u < v.rowBase + v.rowCount)))

/-- The rows of a pre-empted hart are free again (R189). -/
def State.rowsFree (s : State) (h : Nat) : Bool :=
  let v := s.hartAt h
  (List.range 12).all (fun u =>
    !(decide (v.rowBase ≤ 8 * u) && decide (8 * u < v.rowBase + v.rowCount)) || s.unitFree (steadOf h) h u)

/-- Some member of a hart's gang is still asked to stop (R135). -/
def State.gangAsked (s : State) (h : Nat) : Bool :=
  let v := s.hartAt h
  s.farms.any (fun g => g.part == v.part && g.id == v.farm && g.gang && g.harts.any (fun i => (s.hartAt i).asked))

/-- The request of a runnable context could be served now (R31, R33, R189): its quads can be had, and for a pre-empted
one its rows and its sheaves' lines, with no member of its gang still to stop. -/
def State.servable (s : State) (h : Nat) : Bool :=
  s.canResume h && (!(s.hartAt h).preempted || (s.rowsFree h && s.linesFit h && !s.gangAsked h))

/-- A request that reached the allocator of stead st before could be served, and is served first (R31).
DEDUCED: notes/assumptions/29. -/
def State.wakeFirst (s : State) (st : Nat) : Bool := (s.hartsOn st).any s.servable

/-- A changed grant empties the vector registers, the predicates and the lane tables (R32, R111, R190). -/
def Hart.emptyAll (h : Hart) : Hart :=
  { h with v := Vector.replicate 64 {}, p := Vector.replicate 64 0, laneTab := [], laneMask := 0 }

/-- Of the harts on st that wait for their reserved quad and satisfy c, the one that came first (R31, R252). -/
def State.firstWaiting (s : State) (c : Nat → Bool) (st : Nat) : Option Nat :=
  ((s.hartsOn st).filter (fun h => c h && (s.hartAt h).needsReserved.isSome)).foldl
    (fun acc h => match acc with
      | none => some h
      | some g => if (s.hartAt h).needsReserved.getD 0 < (s.hartAt g).needsReserved.getD 0 then some h else some g) none

/-- Gives quads that a hart of p has returned on stead st to the harts waiting for their reserved quad (R252).
DEDUCED: notes/assumptions/53. -/
def State.serveWaiting (s : State) (p st : Nat) : List Nat → State
  | [] => s
  | q :: qs =>
    match s.firstWaiting (fun h => (s.hartAt h).part == p) st with
    | none => s
    | some h =>
      let v := s.hartAt h
      (s.setHartAt h { v with needsReserved := none, grant := 1#64 <<< q }).serveWaiting p st qs

/-- Free quads of stead st go to the harts that wait for their reserved quad and whose partition holds less than its
budget there, in order of arrival (R31, R252). -/
def State.serveFree (s : State) (st : Nat) : Nat → State
  | 0 => s
  | n + 1 =>
    match s.firstWaiting (fun h => decide (s.quadsOf (s.hartAt h).part st < (s.partAt (s.hartAt h).part).budgetOn st)) st,
      (s.freeQuads st).head? with
    | some h, some q => (s.setHartAt h { s.hartAt h with needsReserved := none, grant := 1#64 <<< q }).serveFree st n
    | _, _ => s

/-- A gang whose members all have their quads, and none of which is saved or asked to stop, is dispatched (R135,
R144). -/
def State.wakeGang (s : State) (g : Farm) : State :=
  if g.gang && g.started && g.harts.all (fun h =>
      (s.hartAt h).needsReserved.isNone && !(s.hartAt h).preempted && !(s.hartAt h).asked)
  then g.harts.foldl (fun s h => s.setHartAt h { s.hartAt h with gangWait := false }) s else s

/-- Stead st gives its free quads to the harts that wait, and gangs that have all their quads are dispatched. -/
def State.allot (s : State) (st : Nat) : State := s.farms.foldl State.wakeGang (s.serveFree st 16)

/-- Quads that a hart of p has returned on stead st go to those that wait (R252): to p's first. -/
def State.quadsBack (s : State) (p st : Nat) (qs : List Nat) : State := (s.serveWaiting p st qs).allot st

/-- The new grant of `SETL` for n elements (R30).
DEDUCED: notes/assumptions/53. -/
def State.setlGrant (s : State) (n : Nat) : BitVec 64 :=
  let st := steadOf s.cur
  let h := s.hart
  let own := quadList h.grant
  let free := s.freeQuads st
  let avail := min (free.length + own.length)
    ((s.partAt h.part).budgetOn st - s.heldByOthers h.part st s.cur)
  let q := max 1 (min ((n + 3) / 4) avail)
  quadMask (if q ≤ own.length then own.take q else own ++ free.take (q - own.length))

/-- SETL (R30 to R32, R329). -/
def execSetl (d a : Reg) (fmt : BitVec 6) (keep : Bool) (s : State) : Out :=
  reading [a] s (
    match Fmt.ofCode fmt.toNat with
    | none => faultAt s .fmt (fmt.zeroExtend 64)
    | some f =>
      let n := (s.hart.rd a).toNat
      let answer (s : State) : Out := retireWith s d (BitVec.ofNat 64 (min n (vlmax s.hart.lanes [f])))
      if keep then answer s
      else if !s.hart.blocksDone || s.wakeFirst (steadOf s.cur) then stallCtl s
      else
        let g := s.setlGrant n
        if g = s.hart.grant then answer s
        else
          let returned := (quadList s.hart.grant).filter (fun q => !g.getLsbD q)
          let s := { s with hart := { s.hart.emptyAll with grant := g } }
          answer (s.quadsBack s.hart.part (steadOf s.cur) returned))

/- Flail rows. -/

/-- Length of the free run of units from u, at most n. -/
def freeRun (free : Nat → Bool) : Nat → Nat → Nat
  | 0, _ => 0
  | n + 1, u => if u < 12 && free u then 1 + freeRun free n (u + 1) else 0

/-- Base and length in units of the grant of R44 for n units. -/
def chooseRows (free : Nat → Bool) (n : Nat) : Nat × Nat :=
  match (List.range 12).find? (fun u => freeRun free n u = n) with
  | some u => (u, n)
  | none => (List.range 12).foldl (fun best u =>
      if best.2 < freeRun free n u then (u, freeRun free n u) else best) (0, 0)

/-- MATT (R44, R313). -/
def execMatt (d a : Reg) (s : State) : Out :=
  reading [a] s (
    let st := steadOf s.cur
    let h := s.hart
    let n := (h.rd a).toNat
    if h.rowCount ≠ 0 then faultAt s .matt 1
    else if n = 0 then faultAt s .matt 2
    else
      let units := min 12 ((n + 7) / 8)
      let others := ((s.hartsOn st).filter (fun g => g != s.cur && (s.hartAt g).part == h.part)).foldl
        (fun t g => t + (s.hartAt g).rowCount / 8) 0
      let budget := (s.partAt h.part).record.rows.getD st 0 - others
      let g := chooseRows (s.unitFree st s.cur) (min units budget)
      let h := { h with rowBase := if g.2 = 0 then 0 else 8 * g.1, rowCount := 8 * g.2, cells := [], marks := [] }
      retireWith (s.withHart h) d (BitVec.ofNat 64 (8 * g.2)))

/-- The five Flail instructions (R314). -/
def isFlail (i : Instr) : Bool :=
  match i with
  | .mopa .. | .mopas .. | .mrd .. | .mwr .. | .mzero .. => true
  | _ => false

/-- A hart releases its rows (R44, R45): they are zero when granted again. -/
def Hart.releaseRows (h : Hart) : Hart := { h with rowBase := 0, rowCount := 0, cells := [], marks := [] }

/-- MDET (R44, R313): it waits for the hart's queued Flail instructions. -/
def execMdet (s : State) : Out :=
  if s.blocksHave isFlail then stallCtl s else retire { s with hart := s.hart.releaseRows }

/- Traps and returns. -/

/-- Firmware service 0 (R216): lifetime counter x1. -/
def serviceCounter (s : State) : Out :=
  reading [1] s (
    let i := (s.hart.rd 1).toNat
    retireWith s 1 (if i ≤ 15 then BitVec.ofNat 64 (s.telemetry.getD i 0) else 0x8000000000000000))

/-- Firmware service 1 (R216): the 64 bytes of entry x1 of the measurement log to far address x2, as a store of them. An
entry that does not exist writes nothing and leaves none remaining.
DESIGN CHOICE: notes/assumptions/21. -/
def serviceLog (s : State) : Out :=
  reading [1, 2] s (
    let i := (s.hart.rd 1).toNat
    match s.log[i]? with
    | none => retireWith s 1 0
    | some e =>
      if s.heldByDeposit (s.hart.rd 2) 64 then stallCtl s
      else match s.accessAt s.who (s.hart.rd 2) 64 0 .wr with
        | .error f => faultAccess s f
        | .ok pas =>
          retireWith (s.buffer pas (toBytes 64 e.toNat) false) 1 (BitVec.ofNat 64 (s.log.length - i - 1)))

/-- Firmware service 2 (R216): an event of kind 6 to the partition's own queue. -/
def serviceNotice (s : State) : Out :=
  reading [2] s (
    retireWith (s.postHost s.hart.part
      { kind := 6, hart := s.cur, cause := 0, value := s.hart.rd 2, time := s.time }) 1 0)

/-- TRAP #code (R185, R333): at level 0 a trap to level 1 with `EPC` at the next instruction; at level 1 a call to
device firmware (R216). -/
def trapCode (code : Nat) (s : State) : Out :=
  if s.hart.level = 0 then .next (s.trapCtl .trap (BitVec.ofNat 64 code) (s.hart.pc + 4))
  else match code with
    | 0 => serviceCounter s
    | 1 => serviceLog s
    | 2 => serviceNotice s
    | _ => retireWith s 1 0x8000000000000000

/-- TRAP (R333). -/
def execTrap (code : BitVec 12) (s : State) : Out := trapCode code.toNat s
/-- Firmware service 0, called as `TRAP #0` (R216). -/
def execReadLifetimeCounter (s : State) : Out := trapCode 0 s
/-- Firmware service 1, called as `TRAP #1` (R216). -/
def execReadMeasurementLog (s : State) : Out := trapCode 1 s
/-- Firmware service 2, called as `TRAP #2` (R216). -/
def execPostPartitionNotice (s : State) : Out := trapCode 2 s

/-- BRK (R277): `EPC` at the `BRK`, `EVAL` = code. -/
def execBrk (code : BitVec 12) (s : State) : Out := faultAt s .brk (code.zeroExtend 64)

/-- The bank of a level. -/
def Hart.bankAt (h : Hart) (l : Nat) : TrapBank := if l = 0 then h.bank0 else h.bank1

/-- The held blocks of the handler at level l are released; the first resumes at `target` (R42, R43, R185). -/
def resumeHeld (l : Nat) (target : Word) : List Block → List Block
  | [] => []
  | b :: bs =>
    if b.held = 1 + l then
      { b with held := 0, pos := target, convoy := 0 } ::
        bs.map (fun c => if c.held = 1 + l then { c with held := 0 } else c)
    else b :: resumeHeld l target bs

/-- The return of `TRET` (R185, R42). -/
def State.returnFrom (s : State) : State :=
  let h := s.hart
  let l := h.level
  let b := h.bankAt l
  let inblk := b.estatus.getLsbD 4
  let b' := { b with estatus := b.estatus &&& ~~~8#64 }
  let h := { h with
    bank0 := if l = 0 then b' else h.bank0
    bank1 := if l = 0 then h.bank1 else b'
    dbg := b.estatus.extractLsb' 6 2
    level := (b.estatus &&& 3).toNat
    retcount := h.retcount + 1
    queue := if inblk then resumeHeld l b.epc h.queue else h.queue
    startHeld := if inblk then false else h.startHeld
    pc := if inblk then h.vfret else b.epc }
  s.withHart h

/-- TRET (R185, R194, R333): it waits for the handler's own blocks, and delivers no event while its handler is active;
with no active handler it synchronises and takes ILLEGAL. -/
def execTret (s : State) : Out :=
  if (s.hart.bankAt s.hart.level).eh then (if !s.hart.blocksDone then stallCtl s else .next s.returnFrom)
  else synchronise s (illegalWord s (((encode .tret).map (·.2)).getD 0))

end Sys2Proof.Machine
end

