-- ==== Sys2Proof/Machine/Clock.lean ====
section
/-!
DEFINITION. The clock: `CLKCOUNT`, `TIME`, quad-clocks and the windows of the threshold counts (R46, R70, R144).
-/

namespace Sys2Proof.Machine

/-- The operating point of stead st. -/
def State.point (s : State) (st : Nat) : OpPoint := s.points.getD st {}

/-- The frequency in force on stead st, in MHz: the lower of the request and the thermal cap (R219). -/
def State.freq (s : State) (st : Nat) : Nat := min (s.point st).reqMhz (s.point st).capMhz

/-- 36ths of a clock of its own that pass on stead st in n clocks of 3.6 GHz (R18, R219). -/
def State.ticksOn (s : State) (st n : Nat) : Nat := n * (s.freq st / 100)

/-- The counts of a hart become 0 when `CLKCOUNT` passes a multiple of `NWIN` (R70). -/
def Hart.windowed (h : Hart) (before after : Nat) : Hart :=
  if h.nwin != 0 && before / h.nwin.toNat != after / h.nwin.toNat then { h with ncnt := Vector.replicate 6 0 } else h

/-- A hart's quad-clocks rise while it holds quads (R46, R144). -/
def Hart.ticked (h : Hart) (before after : Nat) : Hart :=
  let h := h.windowed before after
  if h.holding then
    let q := (after - before) * popCount h.grant.toNat 64
    { h with lanecyc := h.lanecyc + q, sinceDispatch := h.sinceDispatch + q }
  else h

/-- n clocks of 3.6 GHz pass (R6, R18, R46): `TIME` counts at 1 GHz beside them, and each stead at its own frequency.
DESIGN CHOICE: notes/assumptions/5. -/
def State.advance (s : State) (n : Nat) : State :=
  let sclk := s.sclk.zipIdx.map (fun e => e.1 + s.ticksOn e.2 n)
  let on (h : Nat) (v : Hart) : Hart := v.ticked (s.steadClk (steadOf h)) (sclk.getD (steadOf h) 0 / 36)
  { s with clk := s.clk + n, time := (s.clk + n) * 5 / 18, sclk := sclk, sclkWas := s.sclk
           hart := on s.cur s.hart, others := s.others.map (fun e => (e.1, on e.1 e.2)) }

/-- The clocks of one step of the model: what `pace` says, 1 when it says nothing, and at least one, so that no two
requests arrive in the same clock.
DESIGN CHOICE: notes/assumptions/5. -/
def State.tick (s : State) : State := { s with pace := s.pace.tail }.advance (max 1 (s.pace.headD 1))

/-- `CLKCOUNT` of stead st has become another number with the last clock that passed. -/
def State.ticking (s : State) (st : Nat) : Bool := s.sclkWas.getD st 0 / 36 != s.steadClk st

/-- The WINDOW_RESET step of hart h (R70): when `CLKCOUNT` becomes a multiple of `NWIN`, every count becomes 0. -/
def execWindowReset (h : Nat) (s : State) : Out :=
  let v := s.hartAt h
  if v.nwin != 0 && s.ticking (steadOf h) && s.steadClk (steadOf h) % v.nwin.toNat == 0 then
    .next (s.setHartAt h { v with ncnt := Vector.replicate 6 0 })
  else .next s

end Sys2Proof.Machine
end

