-- ==== Sys2Proof/Machine/Csr.lean ====
section
/-!
DEFINITION. Control and status registers (R46 to R49, R60, R67, R69, R145, R159, R179, R180, R183, R186, R193, R278
to R280, R284, R374).
-/

namespace Sys2Proof.Machine

/-- Registers at 0x800 to 0xBFF need level 1 (R46). -/
def csrPrivileged (n : Nat) : Bool := decide (0x800 ≤ n) && decide (n ≤ 0xBFF)

/-- The registers that are listed, with whether they are read-only (R46, R159, R179, R180); none for any other
number. -/
def csrListed (n : Nat) : Option Bool :=
  if n ≤ 0x004 then some true
  else if 0x010 ≤ n && n ≤ 0x012 then some false
  else if 0x013 ≤ n && n ≤ 0x018 then some true
  else if n = 0x019 then some false
  else if 0x020 ≤ n && n ≤ 0x024 then some false
  else if 0x028 ≤ n && n ≤ 0x02D then some false
  else if 0x030 ≤ n && n ≤ 0x035 then some false
  else if 0x040 ≤ n && n ≤ 0x045 then some false
  else if n = 0x050 then some true
  else if n = 0x060 then some false
  else if 0x070 ≤ n && n ≤ 0x073 then some true
  else if 0x078 ≤ n && n ≤ 0x07A then some true
  else if n = 0x800 then some true
  else if n = 0x801 then some false
  else if 0x840 ≤ n && n ≤ 0x845 then some false
  else none

/-- `VLA`, `VSTART`, `FFLAGS` and `NCNT_*` wait for the blocks queued before the access (R26). -/
def csrWaits (n : Nat) : Bool := n = 0x010 || n = 0x011 || n = 0x022 || (0x030 ≤ n && n ≤ 0x035)

/-- The owner code of a quad (R36, R48). -/
def State.ownerCode (s : State) (st q : Nat) : Nat :=
  match (s.hartsOn st).find? (fun h => (s.hartAt h).holding && (s.hartAt h).grant.getLsbD q) with
  | none => 15
  | some h => (alookup (s.partAt (s.hartAt h).part).slots st).getD 0

/-- `LPART` n (R48). -/
def State.lpart (s : State) (n : Nat) : Word :=
  BitVec.ofNat 64 ((List.range 16).foldl (fun v i => v + s.ownerCode (steadOf s.cur) (16 * n + i) <<< (4 * i)) 0)

/-- `RAKESTAT` (R159). -/
def Policy.rakestat (p : Policy) : Word :=
  BitVec.ofNat 64 (p.total <<< 32 + (if p.shadow.isSome then 1 <<< 9 else 0) + (if p.disabled then 1 <<< 8 else 0) +
    p.count)

/-- A trap register of a bank: offset 0 the vector base (given apart), 1 to 5 the others (R179, R183). -/
def TrapBank.get (b : TrapBank) (tvec : Word) (i : Nat) : Word :=
  match i with
  | 0 => tvec
  | 1 => b.epc
  | 2 => b.cause
  | 3 => b.eval
  | 4 => b.estatus
  | _ => b.escratch

/-- The value a listed register reads as.
DEDUCED: notes/assumptions/9. -/
def State.csrRead (s : State) (n : Nat) : Word :=
  let h := s.hart
  let p := s.partAt h.part
  if n = 0x000 then BitVec.ofNat 64 s.cur
  else if n = 0x001 then BitVec.ofNat 64 h.farm
  else if n = 0x002 then h.stripId
  else if n = 0x003 then BitVec.ofNat 64 (s.tenantOf h.part)
  else if n = 0x004 then BitVec.ofNat 64 h.part
  else if n = 0x010 then BitVec.ofNat 64 (h.vstart % 1 <<< 18)
  else if n = 0x011 then BitVec.ofNat 64 (h.vla % 1 <<< 18)
  else if n = 0x012 then wordAddr h.vfret
  else if n = 0x013 then h.grant
  else if n ≤ 0x017 && 0x014 ≤ n then s.lpart (n - 0x014)
  else if n = 0x018 then BitVec.ofNat 64 (h.rowBase + h.rowCount <<< 8)
  else if n = 0x019 then h.ropepart.zeroExtend 64
  else if n = 0x020 then h.fmtdef.zeroExtend 64
  else if n = 0x021 then h.frm.zeroExtend 64
  else if n = 0x022 then h.fflags.zeroExtend 64
  else if n = 0x023 then h.nwin.zeroExtend 64
  else if n = 0x024 then BitVec.ofNat 64 (h.ntEn.toNat + h.ntHost.toNat <<< 8)
  else if 0x028 ≤ n && n ≤ 0x02D then (h.nthr.toList.getD (n - 0x028) 0).zeroExtend 64
  else if 0x030 ≤ n && n ≤ 0x035 then (h.ncnt.toList.getD (n - 0x030) 0).zeroExtend 64
  else if 0x040 ≤ n && n ≤ 0x045 then h.bank0.get h.bank0.tvec (n - 0x040)
  else if n = 0x050 then h.engev
  else if n = 0x060 then h.dbg.zeroExtend 64
  else if n = 0x070 then BitVec.ofNat 64 (s.steadClk (steadOf s.cur))
  else if n = 0x071 then BitVec.ofNat 64 h.retcount
  else if n = 0x072 then BitVec.ofNat 64 s.time
  else if n = 0x073 then BitVec.ofNat 64 h.lanecyc
  else if n = 0x078 then BitVec.ofNat 64 (s.caps.barncols <<< 40 + s.caps.stackCount <<< 32 + s.caps.quads <<< 24 +
    s.caps.harts <<< 16 + s.caps.cores <<< 8 + s.caps.steads)
  else if n = 0x079 then BitVec.ofNat 64 (s.caps.links <<< 32 + s.caps.mib)
  else if n = 0x07A then BitVec.ofNat 64 (s.caps.impl <<< 16 + s.caps.arch)
  else if n = 0x800 then p.policy.rakestat
  else if n = 0x801 then p.tdeleg.zeroExtend 64
  else if 0x840 ≤ n && n ≤ 0x845 then h.bank1.get p.stvec (n - 0x840)
  else 0

/-- `ESTATUS` after a write of v at level l: pstep and ppl are RW, and a ppl above the writer's level is ignored
(R183). -/
def estatusWrite (old v : Word) (l : Nat) : Word :=
  let ppl := v &&& 3
  let ppl := if l < ppl.toNat then old &&& 3 else ppl
  (old &&& ~~~0xC3#64) ||| (v &&& 0xC0) ||| ppl

/-- A trap register of a bank after a write (R183). -/
def TrapBank.set (b : TrapBank) (l i : Nat) (v : Word) : TrapBank :=
  match i with
  | 0 => { b with tvec := wordAddr v }
  | 1 => { b with epc := wordAddr v }
  | 2 => { b with cause := v &&& 0xFF }
  | 3 => { b with eval := v }
  | 4 => { b with estatus := estatusWrite b.estatus v l }
  | _ => { b with escratch := v }

/-- Replaces entry i of a vector of six. -/
def set6 (v : Vector (BitVec 32) 6) (i : Nat) (x : BitVec 32) : Vector (BitVec 32) 6 := v.setIfInBounds i x

/-- `TDELEG` keeps bits 23:1 but for 4, 15, 16 and 22 (R180). -/
def tdelegMask : BitVec 24 := 0xBE7FEE

/-- Writes v to a listed register that is not read-only; reserved bits keep 0. -/
def State.csrWrite (s : State) (n : Nat) (v : Word) : State :=
  let h := s.hart
  if n = 0x010 then s.withHart { h with vstart := v.toNat % 1 <<< 18, startHeld := false }
  else if n = 0x011 then s.withHart { h with vla := v.toNat % 1 <<< 18 }
  else if n = 0x012 then s.withHart { h with vfret := wordAddr v }
  else if n = 0x019 then s.withHart { h with ropepart := v.truncate 24 }
  else if n = 0x020 then s.withHart { h with fmtdef := v.truncate 32 }
  else if n = 0x021 then s.withHart { h with frm := v.truncate 3 }
  else if n = 0x022 then s.withHart { h with fflags := v.truncate 6 }
  else if n = 0x023 then s.withHart { h with nwin := v.truncate 32 }
  else if n = 0x024 then s.withHart { h with ntEn := v.truncate 6, ntHost := v.extractLsb' 8 6 }
  else if 0x028 ≤ n && n ≤ 0x02D then s.withHart { h with nthr := set6 h.nthr (n - 0x028) (v.truncate 32) }
  else if 0x030 ≤ n && n ≤ 0x035 then s.withHart { h with ncnt := set6 h.ncnt (n - 0x030) (v.truncate 32) }
  else if 0x040 ≤ n && n ≤ 0x045 then s.withHart { h with bank0 := h.bank0.set h.level (n - 0x040) v }
  else if n = 0x060 then s.withHart { h with dbg := v.truncate 2 }
  else if n = 0x801 then
    s.setPartAt h.part { s.partAt h.part with tdeleg := v.truncate 24 &&& tdelegMask }
  else if n = 0x840 then s.setPartAt h.part { s.partAt h.part with stvec := wordAddr v }
  else if 0x841 ≤ n && n ≤ 0x845 then s.withHart { h with bank1 := h.bank1.set h.level (n - 0x840) v }
  else s

/-- The checks and waits of a CSR access (R279): PRIV, then ILLEGAL for a number that is not listed or a write to a
read-only register, then the waits of R26. -/
def csrAccess (i : Instr) (n : BitVec 12) (write : Bool) (rs : List Reg) (s : State) (k : Out) : Out :=
  let w := BitVec.ofNat 64 (((encode i).map (·.2)).getD 0)
  if csrPrivileged n.toNat && s.hart.level = 0 then faultAt s .priv w
  else match csrListed n.toNat with
    | none => faultAt s .illegal w
    | some ro =>
      if write && ro then faultAt s .illegal w
      else reading rs s (if csrWaits n.toNat && !s.hart.blocksDone then stallCtl s else k)

/-- Ends a CSR write; one to `DBGCTL` takes effect for the instructions that follow it (R280).
DEDUCED: notes/assumptions/19. -/
def retireCsr (old s : State) : Out := .next (s.retireStep (old.hart.dbg.getLsbD 0) (s.hart.pc + 4))

/-- CSRR (R279). -/
def execCsrr (d : Reg) (n : BitVec 12) (s : State) : Out :=
  csrAccess (.csrr d n) n false [] s (retireWith s d (s.csrRead n.toNat))
/-- CSRW (R279). -/
def execCsrw (n : BitVec 12) (a : Reg) (s : State) : Out :=
  csrAccess (.csrw n a) n true [a] s (retireCsr s (s.csrWrite n.toNat (s.hart.rd a)))
/-- CSRS (R279). -/
def execCsrs (n : BitVec 12) (a : Reg) (s : State) : Out :=
  csrAccess (.csrs n a) n true [a] s (retireCsr s (s.csrWrite n.toNat (s.csrRead n.toNat ||| s.hart.rd a)))
/-- CSRC (R279). -/
def execCsrc (n : BitVec 12) (a : Reg) (s : State) : Out :=
  csrAccess (.csrc n a) n true [a] s (retireCsr s (s.csrWrite n.toNat (s.csrRead n.toNat &&& ~~~s.hart.rd a)))

end Sys2Proof.Machine
end

