-- ==== Sys2Proof/Machine/Handoff.lean ====
section
/-!
DEFINITION. Operations handed to an engine or to the scheduler and their answers (R129, R150, R164, R186, R187).
-/

namespace Sys2Proof.Machine

/-- Every older access of the current hart has performed (R129). -/
def State.accessesDone (s : State) : Bool := s.blocksQuiet && s.hart.sbuf.isEmpty

/-- Hands an operation over once every older access has performed; xd is pending until its answer (R129, R164). -/
def handOff (d : Reg) (k : OpKind) (s : State) : Out :=
  if !s.accessesDone then stallCtl s
  else
    let r := s.fresh
    let h := r.2.hart.owe d r.1
    let op : Op := { oid := r.1, hart := s.cur, part := h.part, tenant := r.2.tenantOf h.part, xd := d, kind := k }
    retire { r.2 with hart := h, ops := r.2.ops ++ [op] }

/-- The operation leaves its engine. -/
def State.dropOp (s : State) (oid : Nat) : State := { s with ops := s.ops.filter (·.oid != oid) }

/-- Replaces an operation. -/
def State.setOp (s : State) (o : Op) : State := { s with ops := s.ops.map (fun p => if p.oid == o.oid then o else p) }

/-- Writes the answer of an operation to its hart. -/
def State.answerHart (s : State) (o : Op) (v : Word) (failed : Bool) : State :=
  s.setHartAt o.hart ((s.hartAt o.hart).answer o.xd o.oid v failed)

/-- The answer of an operation, which leaves its engine. -/
def State.answerOp (s : State) (o : Op) (v : Word) : State := (s.answerHart o v false).dropOp o.oid

/-- What xd of a failed operation reads as (R164). -/
def failedAnswer : Word := 0x80000000000000FF

/-- An operation that fails after its hand-off: xd reads `failedAnswer`, and its engine event is queued (R164, R186). -/
def State.failOp (s : State) (o : Op) (engine code : Nat) (a : Word) : State :=
  ((s.answerHart o failedAnswer (decide ((s.hartAt o.hart).events.length < 8))).dropOp o.oid).queueEvent o.hart
    { engine := engine, index := o.xd.val, code := code, addr := a, answers := true }

/-- The operation of number oid. -/
def State.opById (s : State) (oid : Nat) : Option Op := s.ops.find? (·.oid == oid)

/-- A launch or a policy image still to be served by the scheduler. -/
def Op.unservedLaunch (o : Op) : Bool :=
  match o.kind with
  | .launch _ => o.phase == 0
  | .pswap _ _ => true
  | _ => false

/-- The scheduler has served every launch and policy image that arrived before (R150, R322). -/
def State.schedulerFree (s : State) : Bool := s.ops.all (fun o => !o.unservedLaunch)

end Sys2Proof.Machine
end

