-- ==== Sys2Proof/Machine/Granary.lean ====
section
/-!
DEFINITION. The Granary: its instructions, the service of their operations, pins, bindings, eviction and poison (R160
to R170, R256 to R260, R290 to R295, R385).
-/

namespace Sys2Proof.Machine

/- Hashes (R161). -/

/-- H advanced over tokens (R161). -/
def hashOver (h : Word) (toks : List Nat) : Word :=
  toks.foldl (fun h t => h.rotateLeft 5 ^^^ BitVec.ofNat 64 (t % 1 <<< 32)) h

/-- Tag of a hash (R161). -/
def hashTag (h : Word) : Nat := (h ^^^ h >>> 16 ^^^ h >>> 32 ^^^ h >>> 48).toNat % 1 <<< 16

/- Fields and nodes. -/

/-- Tokens of a chunk (R160). -/
def chunkTokens (r : FieldRec) : Nat := 1 <<< r.g

/-- Bytes of a field's node store (R385). -/
def storeBytes (r : FieldRec) : Nat := 128 * (r.nodes + 1) + 4 * chunkTokens r * r.nodes

/-- The field of number n of a tenant. -/
def State.fieldOf (s : State) (tenant n : Nat) : Option GField :=
  s.fields.find? (fun f => f.tenant == tenant && f.num == n)

/-- Replaces a field. -/
def State.setField (s : State) (f : GField) : State :=
  { s with fields := s.fields.map (fun g => if g.tenant == f.tenant && g.num == f.num then f else g) }

/-- The node of number id. -/
def GField.node (f : GField) (id : Nat) : Option Node := f.nodes.find? (·.id == id)

/-- Replaces a node. -/
def GField.setNode (f : GField) (n : Node) : GField :=
  { f with nodes := f.nodes.map (fun m => if m.id == n.id then n else m) }

/-- Children of a node, ids ascending. -/
def GField.children (f : GField) (id : Nat) : List Node :=
  ((List.range (f.record.nodes + 1)).filterMap f.node).filter (fun n => n.id != 0 && n.parent == id)

/-- A node and its descendants; `fuel` bounds the depth. -/
def GField.subtree (f : GField) : Nat → Nat → List Nat
  | 0, id => [id]
  | fuel + 1, id => id :: (f.children id).flatMap (fun n => f.subtree fuel n.id)

/-- Every node under id, id with it. -/
def GField.under (f : GField) (id : Nat) : List Nat := f.subtree f.nodes.length id

/-- Pins on a node, those of bindings included. -/
def GField.pinsOn (f : GField) (id : Nat) : Nat := f.pins.countP (·.node == id)

/-- A partition may not add a further pin to the field (R165, R166). -/
def GField.pinned (f : GField) (p : Nat) : Bool := decide (65536 ≤ f.pins.countP (·.part == p))

/-- Adds a pin. -/
def GField.addPin (f : GField) (n : Pin) : GField := { f with pins := f.pins ++ [n] }

/-- Nodes whose adoption is still to come hold no pages yet: the free pages they will take (R167). -/
def GField.owedPages (f : GField) : Nat :=
  ((f.nodes.filter (fun n => n.state = .filling && n.plist.isEmpty)).map (·.npages)).sum

/- The node store (R162, R385). -/

/-- The state byte of a record (R162). -/
def NodeState.code : NodeState → Nat
  | .filling => 1
  | .ready => 2
  | .poisoned => 3

/-- The record of node id as the store holds it; a free slot reads as zero (R162). -/
def GField.recordAt (f : GField) (id : Nat) : List Byte :=
  match f.node id with
  | none => List.replicate 128 0
  | some n =>
    toBytes 8 n.hash.toNat ++ toBytes 2 (hashTag n.hash) ++ toBytes 1 n.state.code ++ toBytes 1 n.npages ++
      toBytes 4 n.depth ++ toBytes 4 n.parent ++ toBytes 4 (f.pinsOn id) ++ toBytes 8 n.stamp ++
      List.replicate 32 0 ++ (List.range 16).flatMap (fun i => toBytes 4 (n.plist.getD i 0))

/-- The chunk of node id as the store holds it (R162). -/
def GField.chunkAt (f : GField) (id : Nat) : List Byte :=
  match f.node id with
  | none => List.replicate (4 * chunkTokens f.record) 0
  | some n => (List.range (chunkTokens f.record)).flatMap (fun i => toBytes 4 (n.chunk.getD i 0))

/-- What the store of a field has to be written when `f` becomes `g`: offsets from view, and bytes (R162). -/
def GField.changes (f g : GField) : List (Nat × List Byte) :=
  (List.range (g.record.nodes + 1)).flatMap (fun id =>
    (if f.recordAt id = g.recordAt id then [] else [(128 * id, g.recordAt id)]) ++
      (if id = 0 || f.chunkAt id = g.chunkAt id then []
       else [(128 * (g.record.nodes + 1) + 4 * chunkTokens g.record * (id - 1), g.chunkAt id)]))

/-- Where bytes of a field's node store stand: through the owning partition's handle, whose permission bits do not
apply, and both stages (R385).
DEDUCED: notes/assumptions/38. -/
def State.viewPlaces (s : State) (f : GField) (off n : Nat) : Except Fail (List Nat) :=
  let a := f.record.view + BitVec.ofNat 64 off
  let o := a.toNat % 1 <<< 48
  if a.toNat >>> 60 != 0 then .error ⟨.xfault, a, []⟩
  else match s.region ⟨f.part, f.tenant⟩ (a.toNat >>> 48) with
    | none => .error ⟨.xfault, a, s.tableLines f.part a⟩
    | some r =>
      if r.length < o + n then .error ⟨.xfault, a, []⟩
      else match s.placeSpan f.part r .wr o a n with
        | .error e => .error ⟨.xfault, e, []⟩
        | .ok pas => .ok pas

/-- A write into a field's node store (R385): the state after it, or its failure with the far address of R181. -/
def State.writeStore (s : State) (f : GField) (off : Nat) (bs : List Byte) : Except (Fail × Word) State :=
  let a := f.record.view + BitVec.ofNat 64 off
  match s.viewPlaces f off bs.length with
  | .error e =>
    .error (e, if e.eval.getLsbD 63 then
        match s.region ⟨f.part, f.tenant⟩ (a.toNat >>> 48) with
        | some r => s.firstUnplaced f.part r .wr a bs.length
        | none => a
      else e.eval)
  | .ok pas =>
    match s.meetsPoison pas true with
    | [] => .ok (s.store pas bs)
    | ls => .error (⟨.poison, a, ls⟩, a)

/-- Writes into the store until one fails. -/
def State.writeChanges (s : State) (f : GField) : List (Nat × List Byte) → Except (Fail × Word) State
  | [] => .ok s
  | (off, bs) :: cs =>
    match s.writeStore f off bs with
    | .error e => .error e
    | .ok s => s.writeChanges f cs

/-- A field becomes `g` with its store written, or nothing changes (R385). -/
def State.commit (s : State) (f g : GField) : Except (Fail × Word) State :=
  match s.writeChanges g (f.changes g) with
  | .error e => .error e
  | .ok s => .ok (s.setField g)

/-- A field becomes `g`; a write of its store that fails leaves that part of the store as it stood, and is told to the
host (R384): nodes become poisoned, and pins of a partition that ends go, whether their records can be written or not
(R170, R385).
DEDUCED: notes/assumptions/39. -/
def State.commitAnyway (s : State) (f g : GField) : State :=
  ((f.changes g).foldl (fun s c =>
    match s.writeStore g c.1 c.2 with
    | .ok t => t
    | .error e => s.tellFault g.part noHart e.1) s).setField g

/- Instructions (R163, R164). -/

/-- The key of R163. -/
def keyOf (k : Word) : GKey := ⟨k.toNat >>> 48 % 8, k.toNat >>> 32 % 1 <<< 16, k.toNat % 1 <<< 32⟩

/-- GRANARY with a code (R164). -/
def granaryFault (s : State) (code : Nat) : Out := faultAt s .granary (BitVec.ofNat 64 code)

/-- A sequence id is none or live in the hart's partition (R164). -/
def State.seqOk (s : State) (p seq : Nat) : Bool := seq = 0 || (s.partAt p).seqs.any (·.id == seq)

/-- Checks 0x01, 0x02 and 0x05 of R164 on a key whose low bits have to be below `bound`. -/
def withKey (s : State) (w : Word) (bound : Nat) (k : GKey → GField → Out) : Out :=
  let key := keyOf w
  match s.fieldOf (s.tenantOf s.hart.part) key.field with
  | none => granaryFault s 1
  | some f =>
    if w.toNat >>> 51 ≠ 0 || bound ≤ key.low then granaryFault s 2
    else if !s.seqOk s.hart.part key.seq then granaryFault s 5
    else k key f

/-- GFIND (R293). -/
def execGfind (d a b : Reg) (s : State) : Out :=
  reading [a, b] s (
    let addr := s.hart.rd a
    if addr.toNat % 4 ≠ 0 then faultAt s .align addr
    else withKey s (s.hart.rd b) (1 <<< 32) (fun key f =>
      let m := 4 * chunkTokens f.record * (key.low / chunkTokens f.record)
      match (if m = 0 then .ok [] else s.accessMapped addr m) with
      | .error e => faultAccess s e
      | .ok _ => handOff d (.gfind addr key) s))

/-- The leaf that maps an address stands at the last level of its walk. -/
def State.leafLast (s : State) (perm : Perm) (a : Nat) : List (Nat × Nat) → Nat → Bool
  | [], _ => false
  | (lo, n) :: ls, table =>
    let e := ofBytes (s.readAll ((List.range 8).map (table + 8 * ((a >>> lo) % 1 <<< n) + ·)))
    if e.testBit 1 then ls.isEmpty else s.leafLast perm a ls ((e % 1 <<< 52) >>> 8 <<< 8)

/-- The intermediate address and the physical page of a payload page that may be adopted (R164 code 0x04): writable at
both stages, with a stage-2 leaf of 64 KiB. -/
def State.payloadPage (s : State) (p va : Nat) : Option (Nat × Nat) :=
  match s.translate1 p .wr va with
  | none => none
  | some ia =>
    if ia % 65536 ≠ 0 then none
    else match s.translate2 p .wr ia with
      | none => none
      | some pa =>
        if (s.mapped2 p ia).isSome || s.leafLast .wr ia levels2 (s.partAt p).record.root2 then
          some (ia / 65536, pa / 65536)
        else none

/-- The pages behind a payload range (R164 code 0x04). -/
def State.payloadPages (s : State) (w : Who) (a : Word) (n : Nat) : Option (List (Nat × Nat)) :=
  if n = 0 then some []
  else
    let o := a.toNat % 1 <<< 48
    match s.regionFor w true a (65536 * n) .wr with
    | none => none
    | some r =>
      if o % 65536 ≠ 0 then none
      else (List.range n).foldr (fun i acc =>
        match s.payloadPage w.part (r.base + o + 65536 * i), acc with
        | some x, some l => some (x :: l)
        | _, _ => none) (some [])

/-- Why the pages behind a payload range cannot be adopted (R181, R384): the far address of the first that cannot, and
the poisoned lines of the handle table that stand before it. -/
def State.payloadFail (s : State) (w : Who) (a : Word) (n : Nat) : Fail :=
  match s.regionFor w true a (65536 * n) .wr with
  | none => ⟨.xfault, a, s.tableLines w.part a⟩
  | some r =>
    let bad (i : Nat) : Bool := (s.payloadPage w.part (r.base + a.toNat % 1 <<< 48 + 65536 * i)).isNone
    ⟨.xfault, a + BitVec.ofNat 64 (65536 * ((List.range n).find? bad).getD 0), []⟩

/-- GDEP (R290).
DEDUCED: notes/assumptions/37. -/
def execGdep (d a : Reg) (s : State) : Out :=
  reading [a] s (
    let addr := s.hart.rd a
    if s.heldByDeposit addr 64 then stallCtl s
    else match s.accessAt s.who addr 64 64 .rd with
      | .error e => faultAccess s e
      | .ok pas =>
        let w := ofBytes (s.loadBytes pas)
        let b := fun lo n => w >>> (8 * lo) % 1 <<< (8 * n)
        let sheet : Deposit :=
          { tokens := BitVec.ofNat 64 (b 0 8), payload := BitVec.ofNat 64 (b 8 8), parent := b 16 4, npages := b 20 1,
            field := b 21 1, seq := b 22 2 }
        match s.fieldOf (s.tenantOf s.hart.part) sheet.field with
        | none => granaryFault s 1
        | some f =>
          if b 24 40 ≠ 0 then granaryFault s 2
          else if 16 < sheet.npages then granaryFault s 3
          else if (s.payloadPages s.who sheet.payload sheet.npages).isNone then
            granaryFault (s.tellFault s.hart.part s.cur (s.payloadFail s.who sheet.payload sheet.npages)) 4
          else if !s.seqOk s.hart.part sheet.seq then granaryFault s 5
          else if sheet.tokens.toNat % 4 ≠ 0 then faultAt s .align sheet.tokens
          else match s.accessMapped sheet.tokens (4 * chunkTokens f.record) with
            | .error e => faultAccess s e
            | .ok _ => handOff d (.gdep sheet) s)

/-- GPIN (R295). -/
def execGpin (d a b : Reg) (s : State) : Out :=
  reading [a, b] s (withKey s (s.hart.rd b) 1 (fun key _ => handOff d (.gpin (s.hart.rd a).toNat key) s))
/-- GUNPIN (R295). -/
def execGunpin (d a b : Reg) (s : State) : Out :=
  reading [a, b] s (withKey s (s.hart.rd b) 1 (fun key _ => handOff d (.gunpin (s.hart.rd a).toNat key) s))
/-- GLOAD (R294). -/
def execGload (d a b : Reg) (s : State) : Out :=
  reading [a, b] s (withKey s (s.hart.rd b) 32 (fun key _ => handOff d (.gload (s.hart.rd a).toNat key) s))
/-- GDROP (R292). -/
def execGdrop (d a b : Reg) (s : State) : Out :=
  reading [a, b] s (withKey s (s.hart.rd b) 1 (fun key _ => handOff d (.gdrop (s.hart.rd a).toNat key) s))

/- Service. -/

/-- The field that an operation of the Granary names. -/
def OpKind.field : OpKind → Option Nat
  | .gfind _ k | .gpin _ k | .gunpin _ k | .gload _ k | .gdrop _ k => some k.field
  | .gdep d => some d.field
  | _ => none

/-- Operation q has to be served by the Granary before o, when it stands before it: one of the same hart, or of the same
field (R129, R165). -/
def Op.granaryBefore (q o : Op) : Bool :=
  q.phase == 0 && q.kind.field.isSome && (q.hart == o.hart || (q.tenant == o.tenant && q.kind.field == o.kind.field))

/-- The operation, with its field, that no other stands before: operations of a field are served in order of arrival,
and those of a hart in program order (R129, R165). -/
def State.granaryHead (s : State) (oid : Nat) : Option (Op × GField) :=
  match s.opById oid with
  | none => none
  | some o =>
    match o.kind.field.bind (s.fieldOf o.tenant) with
    | none => none
    | some f =>
      if o.phase = 0 && (s.ops.takeWhile (·.oid != oid)).all (fun q => !q.granaryBefore o) then some (o, f) else none

/-- An operation that an engine read or a write of its field's store fails for (R164, R181, R385). -/
def State.granaryFails (s : State) (o : Op) (e : Fail × Word) : State :=
  (s.tellWork o.part o.hart e.1).failOp o 2 (causeCode e.1.cause) e.2

/-- An operation that makes the field `g` and answers v, or fails and leaves the field (R385). -/
def State.settleOp (s : State) (o : Op) (f g : GField) (v : Word) : State :=
  match s.commit f g with
  | .error e => s.granaryFails o e
  | .ok s => s.answerOp o v

/-- n tokens in bytes. -/
def tokensOf (n : Nat) (bs : List Byte) : List Nat := (List.range n).map (fun i => ofBytes ((bs.drop (4 * i)).take 4))

/-- Engine read of n tokens at a far address. -/
def State.readTokens (s : State) (o : Op) (a : Word) (n : Nat) : Except (Fail × Word) (List Nat) :=
  let w : Who := ⟨o.part, o.tenant⟩
  match s.engineRead w a (4 * n) with
  | .error e => .error (e, s.failingFar w a (4 * n) .rd e)
  | .ok bs => .ok (tokensOf n bs)

/-- Chunk c of the prefix at a that an operation walks: as an earlier step of the engine read it, or read now (R118). -/
def State.walkChunk (s : State) (o : Op) (a : Word) (g c : Nat) : Except (Fail × Word) (List Nat) :=
  match o.got[c]? with
  | some bs => .ok (tokensOf g bs)
  | none => s.readTokens o (a + BitVec.ofNat 64 (4 * g * c)) g

/- Finding. -/

/-- The ready child of a node that holds a chunk: its tag, hash and stored tokens confirm it (R166). -/
def GField.match_ (f : GField) (id : Nat) (h : Word) (chunk : List Nat) : Option Node :=
  (f.children id).find? (fun n => n.state = .ready && hashTag n.hash == hashTag h && n.hash == h && n.chunk == chunk)

/-- The walk of R166 down from a node, c chunks passed and n left: the nodes on the path. -/
def State.findPath (s : State) (o : Op) (f : GField) (a : Word) (id : Nat) (h : Word) (c : Nat) :
    Nat → Except (Fail × Word) (List Nat)
  | 0 => .ok [id]
  | n + 1 =>
    match s.walkChunk o a (chunkTokens f.record) c with
    | .error e => .error e
    | .ok chunk =>
      let h' := hashOver h chunk
      match f.match_ id h' chunk with
      | none => .ok [id]
      | some k => match s.findPath o f a k.id h' (c + 1) n with
        | .error e => .error e
        | .ok l => .ok (id :: l)

/-- Chunks that the walk of a `GFIND` may read (R166). -/
def GField.walkLimit (f : GField) (part : Nat) (key : GKey) : Nat :=
  if f.pinned part then 0 else min (key.low / chunkTokens f.record) f.nodes.length

/-- GFIND_WALK (R166, R293): the path is stamped and its last node pinned, unless that is the root.
DEDUCED: notes/assumptions/37. -/
def execGfindWalk (op : Nat) (s : State) : Out :=
  match s.granaryHead op with
  | none => .next s
  | some (o, f) =>
    match o.kind with
    | .gfind a key =>
      match s.findPath o f a 0 f.record.seed 0 (f.walkLimit o.part key) with
      | .error e => .next (s.granaryFails o e)
      | .ok path =>
        let last := path.getLast?.getD 0
        let g := { f with nodes := f.nodes.map (fun n => if path.contains n.id then { n with stamp := s.time } else n) }
        let g := if last = 0 then g else g.addPin { node := last, part := o.part, seq := key.seq }
        let depth := ((f.node last).map (·.depth)).getD 0
        .next (s.settleOp o f g (BitVec.ofNat 64 (last <<< 32 + depth)))
    | _ => .next s

/- Freeing and eviction (R169). -/

/-- A node is freed; its pages return to the pool unless it is poisoned. -/
def GField.freeNode (f : GField) (id : Nat) : GField :=
  match f.node id with
  | none => f
  | some n =>
    { f with nodes := f.nodes.filter (·.id != id)
             free := if n.state = .poisoned then f.free else f.free ++ n.plist }

/-- Node slots and pool pages suffice for a deposit. -/
def GField.room (f : GField) (npages : Nat) : Bool :=
  decide (f.nodes.length ≤ f.record.nodes) && decide (npages + f.owedPages ≤ f.free.length)

/-- The candidate a is evicted before b: the older stamp, then the greater depth, then the lower id. -/
def evictsBefore (a b : Node) : Bool :=
  a.stamp < b.stamp || (a.stamp == b.stamp && (b.depth < a.depth || (a.depth == b.depth && a.id < b.id)))

/-- The node to evict next, not the root and not the parent of the deposit being made (R169). -/
def GField.victim (f : GField) (parent : Nat) : Option Node :=
  (f.nodes.filter (fun n => n.id != 0 && n.id != parent && n.state != .filling && f.pinsOn n.id == 0 &&
    (f.children n.id).isEmpty)).foldl (fun acc n => match acc with
      | none => some n
      | some m => if evictsBefore n m then some n else some m) none

/-- Eviction until there is room; none when the candidates run out first. -/
def GField.evict (f : GField) (parent npages : Nat) : Nat → Option GField
  | 0 => if f.room npages then some f else none
  | fuel + 1 =>
    if f.room npages then some f
    else match f.victim parent with
      | none => none
      | some n => (f.freeNode n.id).evict parent npages fuel

/- Depositing (R167, R290, R291). -/

/-- What the answer step of a deposit finds. -/
inductive DepositAnswer where
  | refused (status : Nat)
  | found (g : GField) (id : Nat)
  | made (g : GField) (id : Nat)
  deriving DecidableEq, Repr

/-- The answer step over a field, at TIME now, for a chunk (R167, R291). The spec does not say which comes first where
the chunk stands already and 65,536 pins of the partition stand in the field: the model answers FULL to a deposit that
would add a pin, and counts no pins for one with seq = 0.
DESIGN CHOICE: notes/assumptions/39. -/
def GField.deposit (f : GField) (part now : Nat) (d : Deposit) (chunk : List Nat) : DepositAnswer :=
  match (f.node d.parent).filter (fun n => n.state != .poisoned) with
  | none => .refused 2
  | some p =>
    let full := d.seq != 0 && f.pinned part
    let pin (g : GField) (id : Nat) : GField :=
      if d.seq = 0 then g else g.addPin { node := id, part := part, seq := d.seq }
    match (f.children p.id).find? (fun n => n.state != .poisoned && n.chunk == chunk) with
    | some n => if full then .refused 3 else .found (pin f n.id) n.id
    | none =>
      if full then .refused 3
      else match f.evict p.id d.npages f.nodes.length with
        | none => .refused 3
        | some g =>
          match (List.range (f.record.nodes + 1)).find? (fun i => (g.node i).isNone) with
          | none => .refused 3
          | some id =>
            let n : Node := { id := id, hash := hashOver p.hash chunk, state := .filling, npages := d.npages,
                              depth := p.depth + chunkTokens f.record, parent := p.id, stamp := now, plist := [], chunk := chunk }
            .made (pin { g with nodes := g.nodes ++ [n] } id) id

/-- ANSWER_STEP (R167): the parent is checked before the tokens are read; OK leaves a filling node, whose adoption and
ready step follow. -/
def execAnswerStep (op : Nat) (s : State) : Out :=
  match s.granaryHead op with
  | none => .next s
  | some (o, f) =>
    match o.kind with
    | .gdep d =>
      if (f.node d.parent).all (·.state = .poisoned) then .next (s.answerOp o 2)
      else match s.readTokens o d.tokens (chunkTokens f.record) with
        | .error e => .next (s.granaryFails o e)
        | .ok chunk =>
          match f.deposit o.part s.time d chunk with
          | .refused st => .next (s.answerOp o (BitVec.ofNat 64 st))
          | .found g id => .next (s.settleOp o f g (BitVec.ofNat 64 (id <<< 32 + 1)))
          | .made g id =>
            match s.commit f g with
            | .error e => .next (s.granaryFails o e)
            | .ok s => .next ((s.answerHart o (BitVec.ofNat 64 (id <<< 32)) false).setOp
                { o with phase := if d.npages = 0 then 2 else 1, node := id })
    | _ => .next s

/-- Page new takes the place of the page behind intermediate page ia of partition p, and waits for its scrub (R115,
R167). -/
def State.replacePage (s : State) (p ia new : Nat) : State :=
  { s with over2 := (p, ia, some new) :: s.over2.filter (fun m => !(m.1 == p && m.2.1 == ia))
           scrub := if s.scrub.contains new then s.scrub else s.scrub ++ [new] }.rewatch p

/-- The pages of a payload change places with the lowest-numbered free pool pages (R167, R257). -/
def State.adoptPages (s : State) (p : Nat) (f : GField) : List (Nat × Nat) → State × GField × List Nat
  | [] => (s, f, [])
  | (ia, pg) :: rest =>
    match f.free.min? with
    | none => (s, f, [])
    | some q =>
      let s := s.replacePage p ia (f.pool.getD q 0)
      let f := { f with pool := f.pool.set q pg, free := f.free.filter (· != q) }
      let r := s.adoptPages p f rest
      (r.1, r.2.1, q :: r.2.2)

/- Poison (R170). -/

/-- A page leaves the pool for repair: every line of it reads as poisoned, and a scrub that it waited for no longer
comes (R115, R170). -/
def State.poisonPage (s : State) (pg : Nat) : State :=
  let ls := (List.range 1024).map (1024 * pg + ·)
  { s with poisoned := s.poisoned ++ ls.filter (fun l => !s.poisoned.contains l), scrub := s.scrub.filter (· != pg) }

/-- The events of a poisoned node: one for each sequence that holds a pin on it (R170). The spec names no hart and no
farm in them: fields 2 and 3 are 0.
DESIGN CHOICE: notes/assumptions/41. -/
def State.poisonEvents (s : State) (f : GField) (id : Nat) : State :=
  ((f.pins.filter (fun n => n.node == id && n.seq != 0 && n.slot.isNone)).foldl (fun l n =>
      if l.contains (n.part, n.seq) then l else l ++ [(n.part, n.seq)]) []).foldl (fun s e =>
    s.postPolicy e.1 { kind := 3, cause := causeCode .poison, f4 := e.2, f5 := id, aux := f.num }) s

/-- A node and its subtree become poisoned: their pages leave the pool, waiting bindings go with their pins, deposits
that fill there fail, and the sequences that hold pins there are told (R170, R294).
DEDUCED: notes/assumptions/39. -/
def State.poisonSubtree (s : State) (f : GField) (id : Nat) : State :=
  let ids := (f.under id).filter (fun i => ((f.node i).map (·.state)).getD .poisoned != .poisoned)
  let dead := fun n => ids.contains n
  let waiting := fun (v : Part) => v.gbind.filter (fun b =>
    !b.2.ready && b.2.tenant == f.tenant && b.2.field == f.num && dead b.2.node)
  let s := s.parts.foldl (fun s e =>
    let v := s.partAt e.1
    s.setPartAt e.1 { v with gbind := v.gbind.filter (fun b => !(waiting v).contains b) }) s
  let slotGone := fun (n : Pin) => n.slot.isSome && ((f.node n.node).map (·.state)) == some .filling && dead n.node
  let g := { f with nodes := f.nodes.map (fun n => if dead n.id then { n with state := .poisoned } else n)
                    pins := f.pins.filter (fun n => !slotGone n) }
  let s := s.commitAnyway f g
  let pages := (f.nodes.filter (fun n => dead n.id)).flatMap (fun n => n.plist.map (fun q => f.pool.getD q 0))
  let s := pages.foldl State.poisonPage s
  let s := { s with ops := s.ops.map (fun o =>
    match o.kind with
    | .gdep d => if o.tenant == f.tenant && d.field == f.num && o.phase != 0 && dead o.node then { o with phase := 3 } else o
    | _ => o) }
  ids.foldl (fun s i => s.poisonEvents g i) s

/-- The deepest ancestor of a node that is not poisoned; `fuel` bounds the depth. -/
def GField.soundAncestor (f : GField) : Nat → Nat → Nat
  | 0, _ => 0
  | fuel + 1, id =>
    match f.node id with
    | none => 0
    | some n => if n.state = .poisoned then f.soundAncestor fuel n.parent else id

/-- A sequence's pins on a poisoned node move to its deepest sound ancestor; a pin that would land on the root is
dropped (R170). One whose record cannot be written leaves the field as it stood (R385). -/
def State.repin (s : State) (p num seq id : Nat) : State :=
  match s.fieldOf (s.partAt p).record.tenant num with
  | none => s
  | some f =>
    let dest := f.soundAncestor (f.nodes.length + 1) id
    let mine := fun (n : Pin) => n.node == id && n.part == p && n.seq == seq && n.slot.isNone
    let g := if dest = 0 then { f with pins := f.pins.filter (fun n => !mine n) }
             else { f with pins := f.pins.map (fun n => if mine n then { n with node := dest } else n) }
    match s.commit f g with
    | .error e => s.tellFault p noHart e.1
    | .ok s => s

/- Adoption and the ready step. -/

/-- A deposit that answered OK fails: its node and the subtree become poisoned, and the event goes to the depositing
hart (R259, R385). -/
def State.depositFails (s : State) (o : Op) (f : GField) (c : Cause) (a : Word) : State :=
  ((s.poisonSubtree f o.node).dropOp o.oid).queueEvent o.hart
    { engine := 2, index := o.xd.val, code := causeCode c, addr := a }

/-- The adoption of a deposit may be taken (R108, R129, R167, R168): the Gleaner debts older than the `GDEP` have
performed, no older deposit of the hart is still to be adopted, and no access that found a page of the payload is
still to perform.
DEDUCED: notes/assumptions/39. -/
def State.mayAdopt (s : State) (o : Op) (d : Deposit) : Bool :=
  let older (q : Op) : Bool := match q.kind with | .gdep _ => q.hart == o.hart && q.phase == 1 | _ => false
  o.phase == 1 && s.debtsDone o.hart o.oid && !(s.ops.takeWhile (·.oid != o.oid)).any older &&
    ((s.payloadPages ⟨o.part, o.tenant⟩ d.payload d.npages).getD []).all (fun e => !s.pageInUse e.2)

/-- The adoption of a deposit (R167): pages change places, or the deposit fails when its payload has lost them or its
record cannot be written.
DEDUCED: notes/assumptions/39. -/
def State.adoptNow (s : State) (o : Op) (d : Deposit) (f : GField) : State :=
  match s.payloadPages ⟨o.part, o.tenant⟩ d.payload d.npages with
  | none =>
    let e := s.payloadFail ⟨o.part, o.tenant⟩ d.payload d.npages
    (s.tellWork o.part o.hart e).depositFails o f .xfault e.eval
  | some pgs =>
    let r := s.adoptPages o.part f pgs
    let g := match f.node o.node with
      | some n => r.2.1.setNode { n with plist := r.2.2 }
      | none => r.2.1
    match r.1.commit f g with
    | .error e => (s.tellWork o.part o.hart e.1).depositFails o f e.1.cause e.2
    | .ok t => t.setOp { o with phase := 2 }

/-- ADOPTION (R167, R168, R257). -/
def execAdoption (op : Nat) (s : State) : Out :=
  match s.opById op with
  | none => .next s
  | some o =>
    match o.kind with
    | .gdep d =>
      match s.fieldOf o.tenant d.field with
      | none => .next s
      | some f => .next (if s.mayAdopt o d then s.adoptNow o d f else s)
    | _ => .next s

/-- Bindings that waited for a node have its pages (R169). -/
def State.readyBindings (s : State) (f : GField) (n : Node) : State :=
  s.parts.foldl (fun s e =>
    let v := s.partAt e.1
    s.setPartAt e.1 { v with gbind := v.gbind.map (fun b =>
      if b.2.tenant == f.tenant && b.2.field == f.num && b.2.node == n.id && !b.2.ready then
        (b.1, { b.2 with ready := true, pages := n.plist.map (fun q => f.pool.getD q 0) })
      else b) }) s

/-- The ready step of a deposit may be taken: the parent is ready, and the Gleaner debts older than the `GDEP` have
performed (R167). -/
def State.mayReady (s : State) (o : Op) (f : GField) : Bool :=
  match f.node o.node with
  | none => false
  | some n => ((f.node n.parent).map (·.state)) == some .ready && s.debtsDone o.hart o.oid

/-- The ready step of a deposit (R167, R385): a write that fails poisons the node.
DEDUCED: notes/assumptions/39. -/
def State.makeReady (s : State) (o : Op) (f : GField) : State :=
  match f.node o.node with
  | none => s
  | some n =>
    let g := f.setNode { n with state := .ready }
    match s.commit f g with
    | .error e => (s.tellWork o.part o.hart e.1).depositFails o f e.1.cause e.2
    | .ok s => (s.readyBindings g n).dropOp o.oid

/-- READY_STEP (R167, R259): a deposit whose node was poisoned meanwhile raises its event. -/
def execReadyStep (op : Nat) (s : State) : Out :=
  match s.opById op with
  | none => .next s
  | some o =>
    match o.kind with
    | .gdep d =>
      if o.phase = 3 then
        .next ((s.dropOp op).queueEvent o.hart { engine := 2, index := o.xd.val, code := causeCode .poison })
      else match s.fieldOf o.tenant d.field with
        | none => .next s
        | some f => .next (if o.phase = 2 && s.mayReady o f then s.makeReady o f else s)
    | _ => .next s

/- Pins and bindings (R169, R258, R292, R294, R295). -/

/-- A node of a field that is ready and not the root. -/
def GField.readyNode (f : GField) (id : Nat) : Bool :=
  id != 0 && ((f.node id).map (·.state)) == some .ready

/-- GPIN_SERVICE (R295). -/
def execGpinService (op : Nat) (s : State) : Out :=
  match s.granaryHead op with
  | none => .next s
  | some (o, f) =>
    match o.kind with
    | .gpin id key =>
      if !f.readyNode id then .next (s.answerOp o 4)
      else if f.pinned o.part then .next (s.answerOp o 3)
      else .next (s.settleOp o f (f.addPin { node := id, part := o.part, seq := key.seq }) 0)
    | _ => .next s

/-- GUNPIN_SERVICE (R295, R258). -/
def execGunpinService (op : Nat) (s : State) : Out :=
  match s.granaryHead op with
  | none => .next s
  | some (o, f) =>
    match o.kind with
    | .gunpin id key =>
      let pin : Pin := { node := id, part := o.part, seq := key.seq }
      if !f.readyNode id then .next (s.answerOp o 4)
      else if !f.pins.contains pin then .next (s.answerOp o 5)
      else .next (s.settleOp o f { f with pins := f.pins.erase pin } 0)
    | _ => .next s

/-- Slot n of partition p is unbound and the pin of its binding goes (R169). -/
def State.unbindSlot (s : State) (p n : Nat) : Except (Fail × Word) State :=
  let v := s.partAt p
  match alookup v.gbind n with
  | none => .ok s
  | some b =>
    let s := s.setPartAt p { v with gbind := aerase v.gbind n }
    match s.fieldOf b.tenant b.field with
    | none => .ok s
    | some f => s.commit f { f with pins := f.pins.filter (fun q => !(q.part == p && q.slot == some n)) }

/-- What a refused GLOAD answers (R294). -/
def loadRefused (status : Nat) : Word := BitVec.ofNat 64 (1 <<< 63 + status)

/-- Far address of offset 0 of slot n (R169). -/
def slotAddress (n : Nat) : Word := BitVec.ofNat 64 ((4064 + n) <<< 48)

/-- GLOAD as it is served (R294): the slot is unbound, then bound to the node's payload; a filling node is waited for. -/
def State.serveLoad (s : State) (o : Op) (id slot : Nat) (field : Nat) : State :=
  match s.unbindSlot o.part slot with
  | .error e => s.granaryFails o e
  | .ok t =>
    if id = 0 then t.answerOp o 0
    else match t.fieldOf o.tenant field with
      | none => t.answerOp o (loadRefused 4)
      | some f =>
        match (f.node id).filter (fun n => n.state != .poisoned) with
        | none => t.answerOp o (loadRefused 4)
        | some n =>
          if f.pinned o.part then t.answerOp o (loadRefused 3)
          else match t.commit f (f.addPin { node := id, part := o.part, seq := 0, slot := some slot }) with
            | .error e => s.granaryFails o e
            | .ok t =>
              let v := t.partAt o.part
              let ready := n.state = .ready
              let b : GBind := { owner := o.oid, tenant := o.tenant, field := field, node := id, ready := ready,
                                 pages := if ready then n.plist.map (fun q => f.pool.getD q 0) else [] }
              let t := t.setPartAt o.part { v with gbind := ainsert v.gbind slot b }
              if ready then t.answerOp o (slotAddress slot) else t.setOp { o with phase := 1, node := id }

/-- GLOAD_SERVICE (R294): also the answer of one that waited, once the node is ready or its binding has gone. -/
def execGloadService (op : Nat) (s : State) : Out :=
  match s.opById op with
  | none => .next s
  | some o =>
    match o.kind with
    | .gload id key =>
      if o.phase = 1 then
        match (alookup (s.partAt o.part).gbind key.low).filter (fun b => b.owner == op) with
        | none => .next (s.answerOp o (loadRefused 4))
        | some b => .next (if b.ready then s.answerOp o (slotAddress key.low) else s)
      else match s.granaryHead op with
        | none => .next s
        | some _ => .next (s.serveLoad o id key.low key.field)
    | _ => .next s

/-- GDROP_SERVICE (R292). -/
def execGdropService (op : Nat) (s : State) : Out :=
  match s.granaryHead op with
  | none => .next s
  | some (o, f) =>
    match o.kind with
    | .gdrop id _ =>
      if (f.node id).isNone then .next (s.answerOp o 4)
      else
        let ids := (f.under id).filter (· != 0)
        if ids.any (fun i => decide (0 < f.pinsOn i) || ((f.node i).map (·.state)) == some .filling) then
          .next (s.answerOp o 6)
        else .next (s.settleOp o f (ids.foldl GField.freeNode f) 0)
    | _ => .next s

/-- A field without the pins of a partition that are recorded against a sequence, or without any of them. -/
def GField.unpinned (f : GField) (p : Nat) (seq : Option Nat) : GField :=
  { f with pins := f.pins.filter (fun n => !(n.part == p &&
      (match seq with | some q => n.seq == q && n.slot.isNone | none => true))) }

/-- Pins of a partition go: those recorded against a sequence, or, when the partition ends, all of them with its
bindings (R149, R169, R258). For a sequence, a field whose records cannot be written stays as it stood, and the hart
that asked has the engine event, with the register that its instruction names (R186, R385).
DEDUCED: notes/assumptions/39. -/
def State.dropPins (s : State) (p : Nat) (seq : Option Nat) (asker : Option (Nat × Nat)) : State :=
  match seq with
  | none =>
    let t := s.fields.foldl (fun s f => s.commitAnyway f (f.unpinned p none)) s
    t.setPartAt p { t.partAt p with gbind := [] }
  | some q =>
    s.fields.foldl (fun s f =>
      match s.commit f (f.unpinned p (some q)) with
      | .ok t => t
      | .error e =>
        let t := s.tellWork p ((asker.map (·.1)).getD noHart) e.1
        match asker with
        | none => t
        | some (h, xd) => t.queueEvent h { engine := 2, index := xd, code := causeCode e.1.cause, addr := e.2 }) s

/-- The pins of a sequence cannot all be taken off their records (R385). -/
def State.pinsStay (s : State) (p seq : Nat) : Bool :=
  s.fields.any (fun f => (s.commit f (f.unpinned p (some seq))).toOption.isNone)

end Sys2Proof.Machine
end

