-- ==== Sys2Proof/Machine/Gleaner.lean ====
section
/-!
DEFINITION. The steps of the Gleaner: orders taken up, fetches, arrivals, releases, write-backs, folds and multicast
fills, and its part in saving and restoring a hart (R76, R83 to R99, R113, R128, R202, R250, R251, R261, R282).
-/

namespace Sys2Proof.Machine

/- Taking up an order. -/

/-- The tables behind a sheaf lead back to one of the sheaves already met. -/
def State.tablesCycle (s : State) : Nat → List Nat → Sheaf → Bool
  | 0, _, _ => true
  | fuel + 1, seen, sh =>
    seen.contains sh.sid ||
      (sh.desc.tab && match s.sheafIn sh.hart sh.desc.tsrc with
        | none => false
        | some t => s.tablesCycle fuel (sh.sid :: seen) t)

/-- What a window at vector k needs of its table (R76, R304). -/
inductive TableRead where
  | waits
  | entry (e : Option Nat)
  deriving DecidableEq, Repr

/-- Reads the table entry for a window at vector k: it waits for the table's own orders that came before, those of the
same advance included, and for the entry's line; the index fails outside the table's current window (R76, R304).
DEDUCED: notes/assumptions/33. -/
def State.readTable (s : State) (sh : Sheaf) (o : Order) (k : List Nat) : TableRead :=
  match s.sheafIn sh.hart sh.desc.tsrc with
  | none => .entry none
  | some t =>
    if !tableFmt t.desc.fmt then .entry none
    else if t.orders.any (fun q => !q.taken &&
        (decide (q.oid < o.oid) || (o.adv != 0 && q.adv == o.adv && !s.tablesCycle 16 [] sh))) then .waits
    else
      let idx := ((sh.desc.dims[sh.desc.tdim]?).map (·.origin k)).getD 0
      let cur : Option Window := if t.desc.mode = .loc then some { kvec := [] } else t.windows.head?
      match cur with
      | none => if t.orders.any (fun q => !q.taken && !q.final) then .waits else .entry none
      | some w =>
        if idx < 0 || (t.desc.size : Int) ≤ idx then .entry none
        else match s.windowElem t w idx.toNat true with
          | .ready b => .entry (some b)
          | .wait => .waits
          | .fail _ _ => .entry none

/-- The windows of an order at its vectors, behind those already found: one that the sheaf holds already stays as it was
harvested (R76); none when a table read waits. -/
def State.orderWindows (s : State) (sh : Sheaf) (o : Order) : List Window → List (List Nat) → Option (List Window)
  | ws, [] => some ws
  | ws, k :: ks =>
    let w : Option Window :=
      match (sh.windows.find? (fun w => s.sameWindow sh w.kvec k)).or (ws.find? (fun w => s.sameWindow sh w.kvec k)) with
      | some w => some { w with kvec := k }
      | none =>
        let new : Window := { kvec := k }
        if sh.desc.tab then
          match s.readTable sh o k with
          | .waits => none
          | .entry (some e) => some { new with entry := some e }
          | .entry none => some { new with bad := true }
        else some new
    match w with
    | some w => s.orderWindows sh o (ws ++ [w]) ks
    | none => none

/-- The steads that a multicast fetch of a shared sheaf goes to (R98): those where another hart of the farm has loaded
the same key and no such line stands yet; with the sheaf instances there. -/
def State.receivers (s : State) (sh : Sheaf) (k : LineKey) : List (Nat × List Nat) :=
  if !sh.desc.shared then []
  else
    let same (t : Sheaf) : Bool := t.desc.shared && t.key == sh.key && t.part == sh.part && t.stead != sh.stead &&
      (s.hartAt t.hart).farm == (s.hartAt sh.hart).farm && (s.hartAt t.hart).hreg.toList.getD t.reg none == some t.sid
    (List.range s.caps.steads).filterMap (fun st =>
      let sids := (s.sheaves.filter (fun t => t.stead == st && same t)).map (·.sid)
      if sids.isEmpty || (s.lineAt st k).isSome then none else some (st, sids))

/-- Starts the fetch of a line of the sheaf's stead (R83, R98). -/
def State.startFetch (s : State) (sh : Sheaf) (o : Order) (k : LineKey) : State :=
  let r := s.fresh
  let rs := s.receivers sh k
  let f : Fetch := { fid := r.1, stead := sh.stead, sid := sh.sid, hart := sh.hart, part := sh.part, key := k,
                     addr := k.addr, oid := o.oid, adv := o.adv, multicast := rs.map (·.1), cast := !rs.isEmpty }
  let s := r.2.mapLine sh.stead k (fun l => { l with status := .inflight, fid := r.1 })
  { s with fetches := s.fetches ++ [f]
           lines := s.lines ++ rs.map (fun e =>
             { stead := e.1, key := k, status := .inflight, fid := r.1, expected := e.2 }) }

/-- A line as it begins for a sheaf (R89): zero, or what it showed when the sheaf's hart was saved (R99). -/
def Sheaf.newLine (sh : Sheaf) (k : LineKey) : Line :=
  let l : Line := { stead := sh.stead, key := k, status := .zero, holders := [sh.sid] }
  match sh.saved.find? (·.1 == k) with
  | none => l
  | some e => if sh.desc.mode.folds then { l with kept := e.2.2 } else { l with data := e.2.1 }

/-- A line of an order's fetch set (R83, R87, R251): a line that stands is joined, and fetched when it stands unfetched
and the sheaf fetches; another is made, and fetched as its mode says (R89). -/
def State.joinLine (s : State) (sh : Sheaf) (o : Order) (k : LineKey) : State :=
  match s.lineAt sh.stead k with
  | some l =>
    if l.holders.contains sh.sid then s
    else
      let s := s.mapLine sh.stead k (fun l =>
        { l with holders := l.holders ++ [sh.sid], expected := l.expected.filter (· != sh.sid) })
      if sh.desc.mode.fetches && l.status = .zero then s.startFetch sh o k else s
  | none =>
    let s := { s with lines := s.lines ++ [sh.newLine k] }
    if sh.desc.mode.fetches then s.startFetch sh o k else s

/-- Takes up the order at the head of a sheaf's queue (R83, R250); none when it has none to take up, or waits. -/
def State.takeOrder (s : State) (sid : Nat) : Option State :=
  match s.sheafById sid with
  | none => none
  | some sh =>
    match sh.orders with
    | [] => none
    | o :: os =>
      if o.taken then none
      else if o.final then some (s.setSheaf { sh with orders := { o with taken := true } :: os })
      else
        match s.orderWindows sh o [] (addNew (sh.desc.vectors o.counters) o.also) with
        | none => none
        | some ws =>
          let keys := ws.foldl (fun l w => addNew l (sh.windowKeys w)) []
          let sh' := { sh with orders := { o with taken := true, wins := ws.length } :: os
                               windows := ws ++ sh.windows.filter (fun w => !ws.any (·.kvec == w.kvec)) }
          some (keys.foldl (fun s k => s.joinLine sh' o k) (s.setSheaf { sh' with saved := [] }))

/-- HARVEST_ORDER (R250). -/
def execHarvestOrder (sid : Nat) (s : State) : Out := .next ((s.takeOrder sid).getD s)

/- Fetches and arrivals. -/

/-- The partition that a Gleaner or scheduler step acts for, with its tenant. -/
def State.whoOf (s : State) (part : Nat) : Who := ⟨part, s.tenantOf part⟩

/-- Replaces a fetch. -/
def State.setFetch (s : State) (f : Fetch) : State :=
  { s with fetches := s.fetches.map (fun g => if g.fid == f.fid then f else g) }

/-- The element of a width at a far bit address, which begins on a byte: its physical addresses, or its failure. -/
def State.cellPlaces (s : State) (w : Who) (bit width : Nat) (perm : Perm) : Except Fail (List Nat) :=
  s.accessAt w (BitVec.ofNat 64 (bit / 8)) ((width + 7) / 8) 0 perm

/-- The read step of a fetch (R87, R96, R128, R170, R210): the bytes of its line that lie in the region, an element that
is gathered, or its failure.
DEDUCED: notes/assumptions/32. -/
def State.readFetch (s : State) (f : Fetch) : State :=
  let fail (c : Cause) (e : Fail) : State := (s.setFetch { f with failed := some c }).tellWork f.part f.hart e
  match f.key with
  | .gath _ bit =>
    let width := ((s.sheafById f.sid).map (·.desc.fmt.width)).getD 8
    (match s.cellPlaces (s.whoOf f.part) bit width .rd with
    | .error e => fail (if e.cause = .poison then .poison else .xfault) e
    | .ok pas => s.setFetch { f with got := some (BitVec.ofNat 512 (ofBytes (s.readAll pas) % 1 <<< width)) })
  | _ =>
  match s.regionFor (s.whoOf f.part) true f.addr 1 .rd with
  | none => fail .xfault ⟨.region, f.addr, s.tableLines f.part f.addr⟩
  | some r =>
    let o := f.addr.toNat % 1 <<< 48
    match s.placeSpan f.part r .rd o f.addr (min 64 (r.length - o)) with
    | .error e => fail .xfault ⟨.xfault, e, []⟩
    | .ok pas =>
      match s.meetsPoison pas false with
      | [] => s.setFetch { f with got := some (BitVec.ofNat 512 (ofBytes (s.readAll pas))) }
      | ls => fail .poison ⟨.poison, f.addr, ls⟩

/-- The far bytes of a fetch, as ranges. -/
def Fetch.ranges (f : Fetch) : List (Word × Nat) :=
  match f.key with
  | .gath .. => [(f.addr, 8)]
  | _ => [(f.addr, 64)]

/-- A fetch may take its read step: it reads this chip's memory and waits for no older acquire of its hart, and for no
deposit that its bytes lie in (R125, R128, R256). -/
def State.mayFetch (s : State) (f : Fetch) : Bool :=
  f.unread && !f.key.isRemote && !s.acquirePending f.hart f.oid &&
    !(s.ops.any (fun o => o.hart == f.hart && decide (o.oid < f.oid)) &&
      f.ranges.any (fun r => s.workHeld (s.whoOf f.part) f.hart f.oid r.1 r.2))

/-- GLEANER_FETCH: the oldest fetch of stead st that may read this chip's memory takes its read step (R128). -/
def execGleanerFetch (st : Nat) (s : State) : Out :=
  match s.fetches.find? (fun f => f.stead == st && s.mayFetch f) with
  | none => .next s
  | some f => .next (s.readFetch f)

/-- The bits of the bytes a mask names. -/
def byteBits (m : BitVec 64) : Nat :=
  (List.range 64).foldl (fun v i => if m.getLsbD i then v + 255 <<< (8 * i) else v) 0

/-- What a fetch brought goes into the line on stead st that waits for it (R87): bytes the stead has stored stay.
DEDUCED: notes/assumptions/32. -/
def State.fillLine (s : State) (st : Nat) (f : Fetch) : State :=
  s.mapLine st f.key (fun l =>
    if l.fid == f.fid && l.status = .inflight then
      match f.got with
      | some d =>
        let m := BitVec.ofNat 512 (byteBits l.stored)
        { l with status := .arrived, data := (l.data &&& m) ||| (d &&& ~~~m) }
      | none => { l with status := .failed (f.failed.getD .xfault) }
    else l)

/-- A fetch whose copies have all arrived is done. -/
def State.retireFetches (s : State) : State :=
  { s with fetches := s.fetches.filter (fun f => !(f.arrived && f.multicast.isEmpty)) }

/-- An older line of a multicast on the same sheaf has not arrived, so that a line may not arrive ahead of it (R202). -/
def State.outOfTurn (s : State) (f : Fetch) : Bool :=
  f.cast && s.fetches.any (fun g => g.sid == f.sid && g.cast && !g.arrived && decide (g.fid < f.fid))

/-- LINE_ARRIVAL (R94, R96, R113, R202): what fetch fid brought arrives on its stead. A line of another chip arrives
with that chip's answer. -/
def execLineArrival (fid : Nat) (remote : Option RemoteAnswer) (s : State) : Out :=
  match s.fetches.find? (fun f => f.fid == fid && !f.arrived) with
  | none => .next s
  | some f =>
    let f : Fetch :=
      if f.key.isRemote && f.unread then
        match remote with
        | none => f
        | some (.bytes bs) => { f with got := some (BitVec.ofNat 512 (ofBytes (bs.take 64))) }
        | some .failed => { f with failed := some .xfault }
      else f
    if f.unread || s.outOfTurn f then .next s
    else .next (((s.setFetch { f with arrived := true }).fillLine f.stead f).retireFetches)

/-- MULTICAST_FILL (R98, R202): the line of fetch fid is copied to the next stead it goes to; each stead receives the
lines of a sheaf in the order of their fetches. -/
def execMulticastFill (fid : Nat) (s : State) : Out :=
  match s.fetches.find? (fun f => f.fid == fid && !f.unread) with
  | none => .next s
  | some f =>
    match f.multicast with
    | [] => .next s
    | st :: sts =>
      if s.fetches.any (fun g => g.sid == f.sid && decide (g.fid < f.fid) && g.multicast.contains st) then .next s
      else .next (((s.setFetch { f with multicast := sts }).fillLine st f).retireFetches)

/- Releases. -/

/-- A sheaf gives up a line (R83, R87, R89, R261): what it owes is issued, and the line leaves the loft when no window
covers it any more. -/
def State.releaseLine (s : State) (sh : Sheaf) (oid adv : Nat) (k : LineKey) : State :=
  let others := match s.lineAt sh.stead k with
    | some l => l.holders.any (· != sh.sid)
    | none => false
  let s := if sh.desc.mode = .inp && others then s else s.issueLine sh k oid adv
  let s := s.mapLine sh.stead k (fun l =>
    { l with holders := l.holders.filter (· != sh.sid), expected := l.expected.filter (· != sh.sid) })
  { s with lines := s.lines.filter (fun l => !(l.stead == sh.stead && l.key == k && l.holders.isEmpty && l.expected.isEmpty)) }

/-- The blocks that an order waits for have completed, their vector accesses in flight included (R86, R367): a block
that was held when the order was queued does not count while it is held (R43), and no held one counts for a hart that
ends (R281).
DEDUCED: notes/assumptions/35. -/
def State.orderFree (s : State) (sh : Sheaf) (o : Order) : Bool :=
  let h := s.hartAt sh.hart
  h.queue.all (fun b => decide (o.serial ≤ b.serial) || (b.held != 0 && (o.skip.contains b.serial || h.exiting))) &&
    h.vq.all (fun r => decide (o.serial ≤ r.serial))

/-- The lines that stead st keeps for a multicast toward a sheaf that will not come to cover them. -/
def State.dropExpected (s : State) (sid : Nat) : State :=
  let ls := s.lines.map (fun l => { l with expected := l.expected.filter (· != sid) })
  { s with lines := ls.filter (fun l => !(l.holders.isEmpty && l.expected.isEmpty)) }

/-- The order at the head of a sheaf's queue releases the lines that its windows do not cover (R83, R86); a final order
releases them all and frees the reservation (R81). None when the order may not release yet. -/
def State.releaseOrder (s : State) (sid : Nat) : Option State :=
  match s.sheafById sid with
  | none => none
  | some sh =>
    match sh.orders with
    | [] => none
    | o :: os =>
      if !o.taken || !s.orderFree sh o then none
      else
        let ws := if o.final then [] else sh.windows.take o.wins
        let keep := ws.foldl (fun l w => addNew l (sh.windowKeys w)) []
        let s := ((s.linesOf sh).filter (fun k => !keep.contains k)).foldl (fun s k => s.releaseLine sh o.oid o.adv k) s
        if o.final then
          let s := s.dropExpected sid
          some { s with sheaves := s.sheaves.filter (·.sid != sid) }
        else some (s.setSheaf { sh with orders := os, windows := ws })

/-- LINE_RELEASE (R83, R86). -/
def execLineRelease (sid : Nat) (s : State) : Out := .next ((s.releaseOrder sid).getD s)

/- Write-backs and folds. -/

/-- The strips before s of a farm are closed and their folds have performed (R90, notes/assumptions/23).
DEDUCED: notes/assumptions/23. -/
def State.stripReady (s : State) (d : Debt) (strip : Nat) : Bool :=
  strip = 0 ||
    ((match s.farms.find? (fun g => g.part == d.part && g.id == d.farm) with
      | none => true
      | some g => (List.range strip).all g.closed.contains) &&
      s.debts.all (fun e => !(e.part == d.part && e.farm == d.farm && e.ordered &&
        (match e.strip with | some t => decide (t < strip) | none => false))))

/-- Offsets in a line of the bytes that a mask names. -/
def maskBytes (m : BitVec 64) : List Nat := (List.range 64).filter m.getLsbD

/-- The lines that a debt writes to. -/
def Debt.keys (d : Debt) : List LineKey := d.key :: d.spill.map (·.key)

/-- The far bytes that a debt writes on this chip. -/
def Debt.bytes (d : Debt) : List Nat :=
  match d.kind with
  | .write _ m => ((d.addr, m) :: d.spill.map (fun p => (p.addr, p.mask))).flatMap
      (fun e => (maskBytes e.2).map (e.1.toNat + ·))
  | .scatter f els => els.flatMap (fun e => (List.range ((f.width + 7) / 8)).map (e.1 / 8 + ·))
  | .fold f off _ => (List.range f.bytes).map (d.addr.toNat + off / 8 + ·)

/-- An earlier debt stands before d: on a line that both write to, on a byte of the same hart, or of the same FOLD.O
sheaf (R84, R90, R119). -/
def Debt.before (e d : Debt) : Bool :=
  decide (e.did < d.did) &&
    ((e.stead == d.stead && e.keys.any d.keys.contains) || (d.ordered && e.sid == d.sid) ||
      (e.hart == d.hart && !e.key.isRemote && !d.key.isRemote && e.bytes.any d.bytes.contains))

/-- A debt waits for what its hart did before the order that made it: an acquire of an older block, a `GFIND`, a deposit
that it lies in, or a `FENCE.rel` (R125, R126, R256). -/
def State.debtHeld (s : State) (d : Debt) : Bool :=
  s.acquirePending d.hart d.oid || (s.hartAt d.hart).sbuf.any (fun p => p.kind == .fence && decide (p.bound ≤ d.oid)) ||
    (s.ops.any (fun o => o.hart == d.hart && decide (o.oid < d.oid)) &&
      d.bytes.any (fun b => s.workHeld (s.whoOf d.part) d.hart d.oid (BitVec.ofNat 64 b) 1))

/-- A debt may perform (R90, R128): the fetches of its order have read; no earlier debt stands before it; nothing
older of its hart holds it; and the strip before its own is closed.
DEDUCED: notes/assumptions/36. -/
def State.mayPerform (s : State) (d : Debt) : Bool :=
  s.fetches.all (fun f => !(f.oid == d.oid && f.unread)) && !s.debts.any (·.before d) && !s.debtHeld d &&
    (match d.strip with | some t => s.stripReady d t | none => true)

/-- A write-back or fold that fails is discarded, and reported to its hart as an engine event, or to the partition's
policy when `EXIT` owed it (R96, R186, R282).
DEDUCED: notes/assumptions/31. -/
def State.debtFails (s : State) (d : Debt) (c : Cause) (a : Word) (e : Fail) : State :=
  let s := s.tellWork d.part d.hart e
  if d.fromExit then
    s.postPolicy d.part { kind := 3, cause := 23, f2 := d.hart, f3 := d.farm, f5 := a.toNat % 1 <<< 32, named := true }
  else s.queueEvent d.hart { engine := 1, index := d.reg, code := causeCode c, addr := a }

/-- The physical address and the value of every dirty byte of a line; or why the write-back fails, with the far
address of its first byte (R96, R210). -/
def State.writePairs (s : State) (w : Who) (addr : Word) (data : BitVec 512) (mask : BitVec 64) :
    Except (Word × Fail) (List (Nat × Byte)) :=
  let offs := maskBytes mask
  let first := offs.head?.getD 0
  let a := addr + BitVec.ofNat 64 first
  let n := (offs.getLast?.getD 0) + 1 - first
  match s.regionFor w true a n .wr with
  | none => .error (a, ⟨.region, a, s.tableLines w.part a⟩)
  | some r =>
    match s.placeSpan w.part r .wr (a.toNat % 1 <<< 48) a n with
    | .error e => .error (a, ⟨.xfault, e, []⟩)
    | .ok pas =>
      let pairs := offs.map (fun o => (pas.getD (o - first) 0, data.extractLsb' (8 * o) 8))
      match s.meetsPoison (pairs.map (·.1)) false with
      | [] => .ok pairs
      | ls => .error (a, ⟨.poison, a, ls⟩)

/-- The write step of a write-back (R89, R91, R128, R210): its dirty bytes and those of the neighbouring lines that go
with them; one that fails writes nothing.
DEDUCED: notes/assumptions/31. -/
def State.performWrite (s : State) (d : Debt) (data : BitVec 512) (mask : BitVec 64) : State :=
  let w := s.whoOf d.part
  let all := ((d.addr, data, mask) :: d.spill.map (fun p => (p.addr, p.data, p.mask))).foldr (fun e acc =>
    match s.writePairs w e.1 e.2.1 e.2.2, acc with
    | .error x, _ => .error x
    | .ok _, .error x => .error x
    | .ok ps, .ok qs => .ok (ps ++ qs)) (Except.ok [])
  match all with
  | .error (a, e) => s.debtFails d e.cause a e
  | .ok ps => s.store (ps.map (·.1)) (ps.map (·.2))

/-- The write step of dirty elements that a sheaf gathered (R87, R89, R91): each at its own place; one that fails writes
nothing.
DEDUCED: notes/assumptions/31. -/
def State.performScatter (s : State) (d : Debt) (f : Fmt) (els : List (Nat × Nat)) : State :=
  let w := s.whoOf d.part
  let n := (f.width + 7) / 8
  let places := els.map (fun e => (e, match s.cellPlaces w e.1 f.width .wr with
    | .error x => Except.error x
    | .ok pas => match s.meetsPoison pas false with
      | [] => .ok pas
      | ls => .error ⟨.poison, BitVec.ofNat 64 (e.1 / 8), ls⟩))
  match places.findSome? (fun p => match p.2 with | .error x => some (p.1, x) | .ok _ => none) with
  | some (e, x) => s.debtFails d x.cause (BitVec.ofNat 64 (e.1 / 8)) x
  | none => places.foldl (fun s p =>
      match p.2 with
      | .error _ => s
      | .ok pas => s.store pas (toBytes n (putField (ofBytes (s.readAll pas)) 0 f.width p.1.2))) s

/-- The read-modify-write step of a fold (R90). -/
def State.performFold (s : State) (d : Debt) (f : Fmt) (off value : Nat) : State :=
  let a := d.addr + BitVec.ofNat 64 (off / 8)
  match s.accessAt (s.whoOf d.part) a f.bytes 0 .fold with
  | .error e => s.debtFails d e.cause a e
  | .ok pas => s.writeAll pas (toBytes f.bytes (foldResult f (ofBytes (s.readAll pas)) value))

/-- Runs of consecutive bytes among bytes at ascending places: the place of each and its bytes. -/
def byteRuns (l : List (Nat × Byte)) : List (Nat × List Byte) :=
  l.foldr (fun e acc =>
    match acc with
    | (j, bs) :: rest => if j = e.1 + 1 then (e.1, e.2 :: bs) :: rest else (e.1, [e.2]) :: acc
    | [] => [(e.1, [e.2])]) []

/-- The requests that a write-back or a fold of a line of another chip makes of it, with the tenant, tier and block that
the line's entry names (R113, R205): a write for each run of dirty bytes, those of the lines beside it included, so that
no element is divided (R132). -/
def State.remoteReqs (s : State) (d : Debt) (entry idx : Nat) : List (Nat × RemoteReq) :=
  let req (off : Nat) (op : RemoteOp) : Nat × RemoteReq :=
    (chipOf entry, { tenant := s.tenantOf d.part, tier := tierOf entry, block := blockOf entry, off := off, op := op })
  match d.kind with
  | .write data mask =>
    let all := (d.spill.filter (fun p => decide (p.key.start < d.key.start))).map (fun p => (p.key.start, p.data, p.mask)) ++
      (64 * idx, data, mask) ::
      (d.spill.filter (fun p => decide (d.key.start < p.key.start))).map (fun p => (p.key.start, p.data, p.mask))
    (byteRuns (all.flatMap (fun e => (maskBytes e.2.2).map (fun o => (e.1 + o, e.2.1.extractLsb' (8 * o) 8))))).map
      (fun r => req r.1 (.write r.2))
  | .fold f off v => [req (64 * idx + off / 8) (.fold (BitVec.ofNat 6 f.code) (BitVec.ofNat 64 v))]
  | .scatter _ _ => []

/-- A write-back or a fold of a line of another chip goes on the link to it and stays owed until that chip has performed
it (R113, R205, R207); or the link cannot deliver it, which a free value decides, and its hart has an engine event of
engine 4.
DESIGN CHOICE: notes/assumptions/60. -/
def State.sendDebt (s : State) (d : Debt) (entry idx : Nat) : State :=
  let t := { s with draw := s.draw + 1 }
  if Config.linkFails s.draw then
    t.queueEvent d.hart { engine := 4, index := d.reg, code := causeCode .xfault, addr := d.addr }
  else { t with debts := t.debts ++ [{ d with sent := true }], outbox := t.outbox ++ s.remoteReqs d entry idx }

/-- A debt performs and leaves the return queue (R113, R128); one of a retired sequence page is discarded (R149). One of
another chip's line is sent at first, and performs there at a later step (R205).
DEDUCED: notes/assumptions/36. -/
def State.performDebt (s : State) (d : Debt) : State :=
  let s := { s with debts := s.debts.filter (·.did != d.did) }
  if d.dead then s
  else match d.key with
    | .remote _ entry idx =>
      if d.sent then { s with outbox := (s.remoteReqs d entry idx).foldl List.erase s.outbox } else s.sendDebt d entry idx
    | _ => match d.kind with
      | .write data mask => s.performWrite d data mask
      | .scatter f els => s.performScatter d f els
      | .fold f off v => s.performFold d f off v

/-- A debt's next step may be taken: its own, or for one that has been sent that of the chip it went to. -/
def State.mayStep (s : State) (d : Debt) : Bool := d.sent || s.mayPerform d

/-- The debt of number did, when its next step may be taken and it is a write-back or a fold as asked. -/
def State.debtReady (s : State) (did : Nat) (fold : Bool) : Option Debt :=
  s.debts.find? (fun d => d.did == did && s.mayStep d &&
    (match d.kind with | .fold .. => fold | _ => !fold))

/-- GLEANER_WRITE_BACK (R128). -/
def execGleanerWriteBack (did : Nat) (s : State) : Out :=
  match s.debtReady did false with
  | none => .next s
  | some d => .next (s.performDebt d)

/-- GLEANER_FOLD (R90, R128). -/
def execGleanerFold (did : Nat) (s : State) : Out :=
  match s.debtReady did true with
  | none => .next s
  | some d => .next (s.performDebt d)

/- Saving and restoring a hart (R99). -/

/-- A sheaf of a hart that is saved: every line is released with what it owes; a LOCAL sheaf keeps its contents; one
that was being cleared is gone. -/
def State.parkSheaf (s : State) (sh : Sheaf) : State :=
  let r := s.fresh
  let oid := (sh.orders.head?.map (·.oid)).getD r.1
  let saved := if sh.desc.mode = .out || sh.desc.mode.folds then
      (s.lines.filter (fun l => l.stead == sh.stead && l.holders.contains sh.sid)).map (fun l =>
        (l.key, l.data, l.touched.foldl (fun ks off =>
          if (alookup ks off).isSome then ks else ainsert ks off (field l.data.toNat off sh.desc.fmt.width)) l.kept))
    else []
  let s := if sh.desc.mode = .loc && !sh.orders.any (·.final) then r.2
           else (r.2.linesOf sh).foldl (fun s k => s.releaseLine sh oid 0 k) r.2
  let s := s.dropExpected sh.sid
  if sh.orders.any (·.final) then { s with sheaves := s.sheaves.filter (·.sid != sh.sid) }
  else s.setSheaf { sh with orders := [], parked := true, saved := saved }

/-- The fetches that no line waits for any more are dropped. -/
def State.dropFetches (s : State) : State :=
  { s with fetches := (s.fetches.filter (fun f => s.lines.any (fun l => l.fid == f.fid && l.status = .inflight))) }

/-- The debts of hart h perform, and those of its stead that stand before them, as far as R90 lets them; `fuel` bounds
the steps they take. -/
def State.settleDebts (s : State) (h : Nat) : Nat → State
  | 0 => s
  | fuel + 1 =>
    if !s.debts.any (·.hart == h) then s
    else match s.debts.find? (fun d => d.stead == steadOf h && s.mayStep d) with
      | some d => (s.performDebt d).settleDebts h fuel
      | none => s

/-- The Gleaner's work when hart h is saved (R99). -/
def State.parkHart (s : State) (h : Nat) : State :=
  let t := ((s.sheaves.filter (fun sh => sh.hart == h && !sh.parked)).foldl (fun s sh => s.parkSheaf sh) s).dropFetches
  t.settleDebts h (2 * t.debts.length)

/-- The Gleaner's work when hart h is restored (R99): none while its stead cannot reserve every sheaf's lines. Each
sheaf's order fetches its windows at the hart's counters, and at the vectors of its queued blocks; an order behind it
gives those up once the blocks are done (R86).
DEDUCED: notes/assumptions/35. -/
def State.unparkHart (s : State) (h : Nat) : Option State :=
  let mine := s.sheaves.filter (fun sh => sh.hart == h && sh.parked)
  if !s.linesFit h then none
  else
    let kvecs := (s.hartAt h).queue.map (·.kvec)
    some (mine.foldl (fun s sh =>
      let s := s.setSheaf { sh with parked := false }
      if sh.desc.mode = .loc then s
      else
        let mapOrders (s : State) (f : Order → Order) : State :=
          match s.sheafById sh.sid with
          | some t => s.setSheaf { t with orders := t.orders.map f }
          | none => s
        let s := mapOrders (s.queueOrder sh.sid 0 false) (fun o => { o with also := kvecs, serial := 0 })
        let vs := sh.desc.vectors (s.hartAt h).k.toList
        if kvecs.all (fun k => vs.any (s.sameWindow sh k)) then s
        else mapOrders (s.queueOrder sh.sid 0 false) (fun o => { o with skip := [] })) s)

end Sys2Proof.Machine
end

