-- ==== Sys2Proof/Machine/Sequencer.lean ====
section
/-!
DEFINITION. The vector sequencer: fetch of block words, convoys and their units, the end of a block (R24, R25, R37,
R249, R263, R366, R367), and the markers `VSTOP` and `VNOP`.
-/

namespace Sys2Proof.Machine

/-- The format codes that an instruction of the arithmetic-pipe row of R37 uses; none for any other instruction. -/
def arithFormats (i : Instr) (d : Descr) : Option (List Nat) :=
  match i with
  | .vadd .. | .vsub .. | .vmul .. | .vmulh .. | .vmin .. | .vmax .. | .vand .. | .vor .. | .vxor .. | .vsll ..
  | .vsrl .. | .vsra .. | .vadds .. | .vsubs .. | .vabsd .. => some [d.fa, d.fb, d.fd]
  | .vmac .. | .vfma .. | .vrope .. => some [d.fa, d.fb, d.fc, d.fd]
  | .vcmp .. | .vfcmp .. => some [d.fa, d.fb]
  | .vaddi .. | .vshi .. | .vfsqrt .. | .vfrcp .. | .vfrsq .. | .vfexp2 .. | .vfclass .. | .vcvt .. | .vslice ..
  | .vunslice .. => some [d.fa, d.fd]
  | .viota .. => some [d.fd]
  | .vfadd .. | .vfsub .. | .vfmul .. | .vfdiv .. | .vfmin .. | .vfmax .. | .vqscale .. => some [d.fa, d.fb, d.fd]
  | .vsprune .. => some [d.fa, d.fc, d.fd]
  | _ => none

/-- The common fields of a block instruction. -/
def blkOf (i : Instr) : Option Blk :=
  match i with
  | .vadd k .. | .vsub k .. | .vmul k .. | .vmulh k .. | .vmin k .. | .vmax k .. | .vand k .. | .vor k .. | .vxor k ..
  | .vsll k .. | .vsrl k .. | .vsra k .. | .vadds k .. | .vsubs k .. | .vabsd k .. | .vmac k .. | .vcmp k ..
  | .vaddi k .. | .vshi k .. | .viota k .. | .vfadd k .. | .vfsub k .. | .vfmul k .. | .vfma k .. | .vfdiv k ..
  | .vfsqrt k .. | .vfrcp k .. | .vfrsq k .. | .vfexp2 k .. | .vfmin k .. | .vfmax k .. | .vfcmp k .. | .vfclass k ..
  | .vcvt k .. | .vslice k .. | .vunslice k .. | .vqscale k .. | .plog k .. | .ppopc k .. | .pfirst k .. | .pset k ..
  | .vbcast k .. | .vins k .. | .vslup k .. | .vsldn k .. | .vperm k .. | .vcompr k .. | .vexpnd k .. | .vmerge k ..
  | .vmov k .. | .vredsum k .. | .vredmax k .. | .vredmin k .. | .vscan k .. | .vtopk k .. | .vldh k .. | .vsth k ..
  | .vldhx k .. | .vsthx k .. | .vldf k .. | .vstf k .. | .vldx k .. | .vstx k .. | .vamo k .. | .vldt k ..
  | .vstt k .. | .vlds k .. | .vsts k .. | .hmask k .. | .mopa k .. | .mopas k .. | .mrd k .. | .mwr k ..
  | .mzero k .. | .vsprune k .. | .vrope k .. => some k
  | .vnop c => some { c := c }
  | .vstop => some {}
  | _ => none

/-- Units of R37 an instruction uses: arithmetic pipes, memory port, permute/reduce, predicate, Flail port. -/
structure LaneUnits where
  arith : Nat := 0
  mem : Nat := 0
  perm : Nat := 0
  pred : Nat := 0
  flail : Nat := 0
  deriving DecidableEq, Repr

/-- The units of one instruction (R37). -/
def unitsOf (h : Hart) (i : Instr) : LaneUnits :=
  match blkOf i with
  | none => {}
  | some k =>
    match arithFormats i (h.descr k) with
    | some fs => { arith := if fs.contains 0x09 then 2 else 1 }
    | none =>
      match i with
      | .vldh .. | .vsth .. | .vldhx .. | .vsthx .. | .vldf .. | .vstf .. | .vldx .. | .vstx .. | .vamo .. | .vldt ..
      | .vstt .. | .vlds .. | .vsts .. => { mem := 1 }
      | .vbcast .. | .vslup .. | .vsldn .. | .vperm .. | .vcompr .. | .vexpnd .. | .vmerge .. | .vmov .. | .vins ..
      | .vredsum .. | .vredmax .. | .vredmin .. | .vscan .. | .vtopk .. => { perm := 1 }
      | .plog .. | .ppopc .. | .pfirst .. | .pset .. | .hmask .. => { pred := 1 }
      | .mopa .. | .mopas .. | .mrd .. | .mwr .. | .mzero .. => { flail := 1 }
      | _ => {}

/-- A convoy's use stays within the units of a lane (R37). -/
def unitsFit (us : List LaneUnits) : Bool :=
  decide ((us.map (·.arith)).sum ≤ 2) && decide ((us.map (·.mem)).sum ≤ 1) && decide ((us.map (·.perm)).sum ≤ 1) &&
    decide ((us.map (·.pred)).sum ≤ 1) && decide ((us.map (·.flail)).sum ≤ 1)

/-- A block word as the sequencer fetches and checks it (R25, R249 stage 1, R263): the instruction, or the fault with
its `EVAL`. The 256th word of a block must be a `VSTOP`. -/
def State.blockWord (s : State) (b : Block) (pos : Word) : Except Fail Instr :=
  match s.fetchBytes s.hart.part pos 8 with
  | .error e => .error e
  | .ok bs =>
    let w := ofBytes bs
    let bad : Except Fail Instr := .error ⟨.illegalv, BitVec.ofNat 64 w, []⟩
    match decodeBlock w with
    | .error _ => bad
    | .ok i => if (pos - b.addr).toNat / 8 = 255 && i != .vstop then bad else .ok i

/-- The words of the convoy that starts at pos, cut before a word that fails (R249). -/
def State.convoyFrom (s : State) (b : Block) : Nat → Word → List Instr
  | 0, _ => []
  | n + 1, pos =>
    match s.blockWord b pos with
    | .error _ => []
    | .ok i => i :: (if (blkOf i).any (·.c) then s.convoyFrom b n (pos + 8) else [])

/-- What the sequencer does next. -/
inductive SeqStep where
  | idle
  | fault (f : Fail)
  | convoy
  | run (i : Instr) (checked : Nat)
  deriving DecidableEq, Repr

/-- The next step of the current hart's sequencer: a word that fails stage 1 faults when every older word has
completed; a convoy that needs too much takes CONVOY before any of it runs (R37, R249). -/
def State.seqStep (s : State) : SeqStep :=
  match s.hart.block with
  | none => .idle
  | some b =>
    match s.blockWord b b.pos with
    | .error f => .fault f
    | .ok i =>
      if b.convoy ≠ 0 then .run i b.convoy
      else
        let ws := s.convoyFrom b 256 b.pos
        if unitsFit (ws.map (unitsOf s.hart)) then .run i ws.length else .convoy

/-- Marks the words of a convoy as checked. -/
def Hart.markConvoy (h : Hart) (n : Nat) : Hart :=
  match h.block with
  | none => h
  | some b => { h with queue := h.queue.map (fun c => if c.serial == b.serial then { c with convoy := n } else c) }

/-- A block instruction that is not the one after resumption starts at element 0 (R42, notes/assumptions/22).
DEDUCED: notes/assumptions/22. -/
def Hart.openStart (h : Hart) (i : Instr) : Hart :=
  match i with
  | .vstop => h
  | _ => if h.startHeld then { h with vstart := 0, startHeld := false } else h

/-- The current block completes and leaves the queue (R24, R367). -/
def Hart.endBlock (h : Hart) : Hart :=
  match h.block with
  | none => h
  | some b => { h with queue := h.queue.filter (fun c => c.serial != b.serial) }

/-- VSTOP ends its block and performs nothing; it retires as every block instruction does (R25, R46, R367). -/
def execVstop (s : State) : Out := .next (s.withHart { s.hart.endBlock with retcount := s.hart.retcount + 1 })

/-- VNOP only completes (R366). -/
def execVnop (_ : Bool) (s : State) : Out := vDone s

end Sys2Proof.Machine
end

