-- ==== Sys2Proof/Machine/SheafAccess.lean ====
section
/-!
DEFINITION. Block instructions that reach a sheaf's window: VLDH, VSTH, VLDHX, VSTHX and HMASK (R92 to R95, R112,
R301, R358 to R360).
-/

namespace Sys2Proof.Machine

/-- SHEAFCFG at dispatch (R74). -/
def sheafDispatchFault (s : State) (code : Nat) : Out :=
  faultBlock s .sheafcfg (BitVec.ofNat 64 code) s.hart.blockPos s.hart.vstart

/-- The dispatch checks of a sheaf access in the order of R74 and R93. -/
def withSheaf (s : State) (r : HIx) (f : Fmt) (store : Bool) (k : Sheaf → Out) : Out :=
  match s.sheafIn s.cur r.val with
  | none => sheafDispatchFault s 0x10
  | some sh =>
    if store && sh.desc.mode = .inp then sheafDispatchFault s 0x11
    else if sh.desc.fmt ≠ f then sheafDispatchFault s 0x12
    else k sh

/-- What R93 finds over the active elements: those that stand ready with their offsets and bits, up to the first that
waits or faults. An access that waits has passed its check phase when no element of it faults. -/
inductive Checked where
  | all (els : List (Nat × Nat × Nat))
  | waits (els : List (Nat × Nat × Nat)) (e : Nat) (passed : Bool)
  | fault (els : List (Nat × Nat × Nat)) (e : Nat) (c : Cause) (eval : Word)
  deriving DecidableEq, Repr

/-- The window of a sheaf that the current block sees (R86). -/
def State.blockWindow (s : State) (sh : Sheaf) : Option Window :=
  s.windowFor sh s.hart.viewCounters (s.hart.block.map (·.serial))

/-- What an access finds at a window offset: it waits while its window has not been harvested. -/
def State.blockElem (s : State) (sh : Sheaf) (load : Bool) (o : Nat) : Found :=
  match s.blockWindow sh with
  | none => .wait
  | some w => s.windowElem sh w o load

/-- The check phase over active elements (R40, R93, R94): the first whose offset lies outside the window takes SHEAF, or
whose line or index has failed its fault. -/
def State.sheafFault (s : State) (sh : Sheaf) (load : Bool) (offset : Nat → Int) : List Nat → Option (Nat × Cause × Word)
  | [] => none
  | e :: es =>
    let o := offset e
    if o < 0 || (sh.desc.size : Int) ≤ o then some (e, .sheaf, BitVec.ofInt 64 o)
    else match s.blockElem sh load o.toNat with
      | .fail c ev => some (e, c, ev)
      | _ => s.sheafFault sh load offset es

/-- The active elements that stand ready, with their offsets and bits, up to the first that waits. -/
def State.readyElems (s : State) (sh : Sheaf) (load : Bool) (offset : Nat → Int) :
    List Nat → List (Nat × Nat × Nat) × Option Nat
  | [] => ([], none)
  | e :: es =>
    match s.blockElem sh load (offset e).toNat with
    | .ready x =>
      let r := s.readyElems sh load offset es
      ((e, (offset e).toNat, x) :: r.1, r.2)
    | _ => ([], some e)

/-- R93 over active elements: the check phase over all of them, then the wait for those below the first that faults.
DEDUCED: notes/assumptions/34. -/
def State.checkSheaf (s : State) (sh : Sheaf) (load : Bool) (offset : Nat → Int) (es : List Nat) : Checked :=
  match s.sheafFault sh load offset es with
  | none => match s.readyElems sh load offset es with
    | (els, none) => .all els
    | (els, some w) => .waits els w true
  | some (e, c, ev) => match s.readyElems sh load offset (es.takeWhile (· != e)) with
    | (els, none) => .fault els e c ev
    | (els, some w) => .waits els w false

/-- The offset of element e of `VLDH` and `VSTH`, in signed 64-bit arithmetic (R92). -/
def Hart.linearOffset (h : Hart) (xo xs : Reg) (e : Nat) : Int :=
  (h.view xo + BitVec.ofNat 64 e * (if xs = 0 then 1 else h.view xs)).toInt

/-- The offset of element e of `VLDHX` and `VSTHX` (R92). -/
def Hart.indexedOffset (h : Hart) (xo : Reg) (vb : VIx) (fb : Fmt) (e : Nat) : Int :=
  (h.view xo + BitVec.ofInt 64 (h.intAt vb e fb)).toInt

/-- Index formats of `VLDHX` and `VSTHX` (R92). -/
def sheafIndex (f : Fmt) : Bool := f = .n16 || f = .n32

/-- The current block's word has passed its check phase, or still has to (R40). -/
def Hart.markChecked (h : Hart) (c : Bool) : Hart :=
  match h.block with
  | none => h
  | some b => { h with queue := h.queue.map (fun q => if q.serial == b.serial then { q with checked := c } else q) }

/-- The current block's word has passed its check phase. -/
def Hart.wordChecked (h : Hart) : Bool := h.block.any (·.checked)

/-- Length of a `.a` load (R93, R359): it ends before the first active element at or beyond the count A, which is
sampled once; a load in the middle of its elements keeps the length it has. -/
def State.trimmed (s : State) (k : Blk) (sh : Sheaf) (offset : Nat → Int) (VL : Nat) : Nat :=
  if s.hart.wordChecked then min s.hart.vla VL
  else
    let A := s.available sh s.hart.viewCounters (s.hart.block.map (·.serial))
    ((s.hart.actives k VL).find? (fun e => decide ((A : Int) ≤ offset e))).getD VL

/-- The first element of the group that element e belongs to, or `VSTART` when that lies in the group (R38, R188). -/
def Hart.groupFirst (h : Hart) (e : Nat) : Nat := max h.vstart (e / h.lanes * h.lanes)

/-- A sheaf access goes on from where it stands (R93, R94, R188): `perform els n` performs elements that stand ready and
leaves the rest from n on. One that waits stops at the first element of the group it waits on; with `one`, elements
perform one in a step (R118, R121). -/
def sheafGo (one hold : Bool) (s : State) (perform : List (Nat × Nat × Nat) → Nat → State) (VL : Nat) (c : Checked) : Out :=
  let ready : List (Nat × Nat × Nat) := match c with
    | .all els => els
    | .waits els e _ => if hold then [] else els.filter (fun x => decide (x.1 < s.hart.groupFirst e))
    | .fault els _ _ _ => els
  let passed := match c with | .all _ => true | .waits _ _ p => p | .fault .. => false
  match (if one && !hold then ready else []) with
  | x :: y :: _ =>
    let t := perform [x] y.1
    .next (t.withHart ({ t.hart with vstart := y.1 }.markChecked passed))
  | _ =>
    match c with
    | .all els => vDone (perform els VL)
    | .fault els e c ev => faultBlock (perform els e) c ev s.hart.blockPos e
    | .waits _ e passed =>
      let t := if ready.isEmpty then s else perform ready (s.hart.groupFirst e)
      let v := if ready.isEmpty then s.hart.vstart else s.hart.groupFirst e
      stallSeq (t.withHart ({ t.hart with vstart := v }.markChecked passed))

/-- A load from a sheaf's window (R93). With `hold`, its destination is its index register, which it reads as it stood
before (R248), so that nothing is written while it waits.
DEDUCED: notes/assumptions/34. -/
def sheafLoad (one hold : Bool) (k : Blk) (vd : VIx) (r : HIx) (a : Bool) (f : Fmt) (VL : Nat) (offset : Nat → Int)
    (s : State) : Out :=
  withSheaf s r f false fun sh =>
    let vl := if a then s.trimmed k sh offset VL else VL
    let s := if a then s.withHart { s.hart with vla := vl } else s
    sheafGo one hold s (fun els n =>
        s.withHart (s.hart.wrV vd (s.hart.frame k vd f n (fun e => ((alookup els e).map (·.2)).getD 0))))
      vl (s.checkSheaf sh true offset (s.hart.actives k vl))

/-- A store to a sheaf's window (R93): its elements perform in ascending order, up to one that waits or faults. -/
def sheafStore (one : Bool) (k : Blk) (va : VIx) (r : HIx) (f : Fmt) (VL : Nat) (offset : Nat → Int) (s : State) : Out :=
  withSheaf s r f true fun sh =>
    sheafGo one false s (fun els _ =>
        match s.blockWindow sh with
        | none => s
        | some w => els.foldl (fun t x => t.storeAt sh (sh.desc.place w x.2.1) (s.hart.bitsAt va x.1 f)) s)
      VL (s.checkSheaf sh false offset (s.hart.actives k VL))

/-- VLDH, its elements in one step or one at a time. -/
def vldhWith (one : Bool) (k : Blk) (vd : VIx) (h : HIx) (xo xs : Reg) (a : Bool) (s : State) : Out :=
  withFormats s k (fun d => [d.fd]) false (fun _ fs => fs.all (fun f => !f.sliced))
    fun _ fs =>
      match fs with
      | [f] => sheafLoad one false k vd h a f (s.hart.vl k (vlmax s.hart.lanes fs)) (s.hart.linearOffset xo xs) s
      | _ => fmtFault s k

/-- VSTH, its elements in one step or one at a time. -/
def vsthWith (one : Bool) (k : Blk) (va : VIx) (h : HIx) (xo xs : Reg) (s : State) : Out :=
  withFormats s k (fun d => [d.fa]) false (fun _ fs => fs.all (fun f => !f.sliced))
    fun _ fs =>
      match fs with
      | [f] => sheafStore one k va h f (s.hart.vl k (vlmax s.hart.lanes fs)) (s.hart.linearOffset xo xs) s
      | _ => fmtFault s k

/-- VLDHX, its elements in one step or one at a time. -/
def vldhxWith (one : Bool) (k : Blk) (vd : VIx) (h : HIx) (xo : Reg) (vb : VIx) (a : Bool) (s : State) : Out :=
  withFormats s k (fun d => [d.fb, d.fd]) false
    (fun _ fs => match fs with | [fb, fd] => sheafIndex fb && !fd.sliced | _ => false)
    fun _ fs =>
      match fs with
      | [fb, f] =>
        sheafLoad one (vd == vb) k vd h a f (s.hart.vl k (vlmax s.hart.lanes fs)) (s.hart.indexedOffset xo vb fb) s
      | _ => fmtFault s k

/-- VSTHX, its elements in one step or one at a time. -/
def vsthxWith (one : Bool) (k : Blk) (va : VIx) (h : HIx) (xo : Reg) (vb : VIx) (s : State) : Out :=
  withFormats s k (fun d => [d.fa, d.fb]) false
    (fun _ fs => match fs with | [fa, fb] => sheafIndex fb && !fa.sliced | _ => false)
    fun _ fs =>
      match fs with
      | [f, fb] => sheafStore one k va h f (s.hart.vl k (vlmax s.hart.lanes fs)) (s.hart.indexedOffset xo vb fb) s
      | _ => fmtFault s k

/-- VLDH (R92, R93, R358). -/
def execVldh (k : Blk) (vd : VIx) (h : HIx) (xo xs : Reg) (a : Bool) (s : State) : Out := vldhWith false k vd h xo xs a s

/-- VSTH (R92, R93, R358). -/
def execVsth (k : Blk) (va : VIx) (h : HIx) (xo xs : Reg) (s : State) : Out := vsthWith false k va h xo xs s

/-- VLDHX (R92, R93, R358). -/
def execVldhx (k : Blk) (vd : VIx) (h : HIx) (xo : Reg) (vb : VIx) (a : Bool) (s : State) : Out :=
  vldhxWith false k vd h xo vb a s

/-- VSTHX (R92, R93, R358). -/
def execVsthx (k : Blk) (va : VIx) (h : HIx) (xo : Reg) (vb : VIx) (s : State) : Out := vsthxWith false k va h xo vb s

/-- A sheaf access run in one step, or one element in a step; none for any other instruction. -/
def sheafWith (one : Bool) (i : Instr) (s : State) : Option Out :=
  match i with
  | .vldh k d h xo xs a => some (vldhWith one k d h xo xs a s)
  | .vsth k d h xo xs => some (vsthWith one k d h xo xs s)
  | .vldhx k d h xo b a => some (vldhxWith one k d h xo b a s)
  | .vsthx k d h xo b => some (vsthxWith one k d h xo b s)
  | _ => none

/-- Every line of the chunk of m offsets that holds offset o has arrived (R95, R301).
DEDUCED: notes/assumptions/33. -/
def State.chunkArrived (s : State) (sh : Sheaf) (m o : Nat) : Bool :=
  let first := o / m * m
  !sh.desc.mode.fetches ||
    (List.range' first (min m (sh.desc.size - first))).all (fun i =>
      match s.delivered sh s.hart.viewCounters (s.hart.block.map (·.serial)) i with
      | .ready _ => true
      | .wait => false
      | .fail c _ => c = .sheafcfg)

/-- HMASK (R95, R301): the descriptor of an x register is checked for its bits 63:32 and rnd alone. -/
def execHmask (k : Blk) (pd : PIx) (h : HIx) (xo : Reg) (s : State) : Out :=
  if k.xf ≠ 0 && !(s.hart.descr k).sane then fmtFault s k
  else match s.sheafIn s.cur h.val with
    | none => sheafDispatchFault s 0x10
    | some sh =>
      let hart := s.hart
      let m := 512 / sh.desc.fmt.width
      let VL := hart.vl k (vlmax hart.lanes [sh.desc.fmt])
      let v := hart.framePred k hart.p[pd.val] VL (fun e =>
        let o := hart.linearOffset xo 0 e
        decide (0 ≤ o) && decide (o < (sh.desc.size : Int)) && s.chunkArrived sh m o.toNat)
      vDone (s.withHart (hart.wrP pd v))

end Sys2Proof.Machine
end

