-- ==== Sys2Proof/Machine/Streams.lean ====
section
/-!
DEFINITION. Streams: opening and closing slots, sends, receipts and deliveries (R131, R178, R192, R198 to R201, R324
to R326, R361, R362).
-/

namespace Sys2Proof.Machine

/- Slots. -/

/-- Slot z of hart h. -/
def State.slotAt (s : State) (h : Nat) (z : ZIx) : Slot := (s.hartAt h).z[z.val]

/-- Replaces slot z of hart h. -/
def State.setSlot (s : State) (h : Nat) (z : ZIx) (v : Slot) : State :=
  let t := s.hartAt h
  s.setHartAt h { t with z := t.z.set z.val v }

/-- A slot unbound: the grants of credit that another stream has still to use stay (R198). -/
def Slot.unbind (v : Slot) : Slot :=
  { grantedBy := match v.bound with
      | .send g y _ => v.grantedBy.filter (· != (g, y))
      | _ => v.grantedBy }

/-- Where the link of a send slot stands. -/
inductive Link where
  /-- The receiver has not granted credit yet (R198). -/
  | waiting
  | open_
  /-- The receiver granted credit and has closed (R201). -/
  | closed
  deriving DecidableEq, Repr

/-- The link of send slot z of hart h toward slot y of hart g. -/
def State.linkOf (s : State) (h : Nat) (z : ZIx) (g : Nat) (y : ZIx) : Link :=
  if (s.slotAt g y).bound = .recv h z then .open_
  else if (s.slotAt h z).grantedBy.contains (g, y) then .closed
  else .waiting

/-- Credit for n flits returns to the sender of a receive slot (R200, R201), whose streams may then go on. -/
def State.returnCredit (s : State) (sender : Nat) (z : ZIx) (receiver : Nat) (y : ZIx) (n : Nat) : State :=
  let v := s.slotAt sender z
  match v.bound with
  | .send g w _ =>
    if g = receiver && w = y && sender != receiver then
      let s := s.setSlot sender z { v with unacked := v.unacked - n }
      s.setHartAt sender { s.hartAt sender with ctlStall := false, seqStall := false }
    else s
  | _ => s

/-- A flit sent through slot z of hart h: it takes the next sequence number and a credit (R199). -/
def State.sendFlit (s : State) (h : Nat) (z : ZIx) (g : Nat) (y : ZIx) (f : Flit) : State :=
  let v := s.slotAt h z
  let s := s.setSlot h z { v with nextSend := (v.nextSend + 1) % 1 <<< 32, unacked := v.unacked + 1,
                                  sentEnd := v.sentEnd || f.endMark }
  { s with transit := s.transit ++ [{ toHart := g, toSlot := y, fromHart := h, fromSlot := z,
                                      flit := { f with seq := v.nextSend } }] }

/- SOPEN and SCLOSE. -/

/-- The farm that hart h of partition p runs for. -/
def State.farmOf (s : State) (p f : Nat) : Option Farm :=
  s.farms.find? (fun g => g.part == p && g.id == f)

/-- A hart of a farm: one placed, or one that has ended and whose context no other farm has taken (R198). -/
def State.inFarm (s : State) (g : Farm) (peer : Nat) : Bool :=
  g.harts.contains peer || (g.exited.contains peer &&
    (((s.hartAt peer).part == g.part && (s.hartAt peer).farm == g.id) || (s.hartAt peer).status == .free ||
      (s.hartAt peer).status == .ended))

/-- STREAM at a control-stream instruction. -/
def streamFault (s : State) (code : Nat) : Out := faultAt s .stream (BitVec.ofNat 64 code)

/-- SOPEN (R198, R324, R325). A receive slot grants its peer credit. -/
def execSopen (d : Reg) (z : ZIx) (a : Reg) (s : State) : Out :=
  reading [a] s (
    if !s.hart.blocksDone then stallCtl s
    else
      let w := (s.hart.rd a).toNat
      let peer := w % 256
      let y : ZIx := Fin.ofNat 8 (w >>> 8)
      let route := (w >>> 12) % 4
      let me := s.cur
      let v := s.slotAt me z
      if v.bound ≠ .unbound then streamFault s 1
      else match s.farmOf s.hart.part s.hart.farm with
        | none => streamFault s 3
        | some g =>
          if !g.gang then streamFault s 3
          else if !(s.inFarm g peer && peer != me && route != 3 && w >>> 14 == 0) then streamFault s 4
          else if w.testBit 11 then
            let granted := if (s.slotAt peer y).bound = .recv me z && !v.grantedBy.contains (peer, y) then
                v.grantedBy ++ [(peer, y)] else v.grantedBy
            retireWith (s.setSlot me z { bound := .send peer y route, grantedBy := granted }) d 0
          else
            let s := s.setSlot me z { bound := .recv peer y, grantedBy := v.grantedBy }
            let p := s.slotAt peer y
            retireWith (s.setSlot peer y { p with
              grantedBy := if p.grantedBy.contains (me, z) then p.grantedBy else p.grantedBy ++ [(me, z)] }) d 0)

/-- A receive slot of hart h closes: the flits it holds are dropped, their credit returned (R201). -/
def State.closeReceive (s : State) (h : Nat) (z : ZIx) : State :=
  let v := s.slotAt h z
  match v.bound with
  | .recv g y => (s.setSlot h z v.unbind).returnCredit g y h z v.flits.length
  | _ => s

/-- A slot that `SPAIR` bound closes: its stream ends on its job (R326). -/
def State.closePair (s : State) (h : Nat) (z : ZIx) : State :=
  let v := s.slotAt h z
  match v.bound with
  | .pair id =>
    let s := s.setSlot h z v.unbind
    { s with jobs := s.jobs.map (fun j => { j with streams := j.streams.filter (fun t => t.id != id) }) }
  | _ => s

/-- Where the closing of a slot stands (R201, R326). -/
inductive Closing where
  | done (s : State)
  | waits
  deriving DecidableEq, Repr

/-- Closes slot z of hart h as far as it can (R201): a send slot waits for its credits, then sends the empty message
with the end mark, when none was sent, and unbinds. A receiver that has closed discards that message and leaves an
engine event.
DEDUCED: notes/assumptions/28. -/
def State.closeSlot (s : State) (h : Nat) (z : ZIx) : Closing :=
  let v := s.slotAt h z
  match v.bound with
  | .unbound => .done s
  | .reserved _ => .waits
  | .pair _ => .done (s.closePair h z)
  | .recv _ _ => .done (s.closeReceive h z)
  | .send g y _ =>
    match s.linkOf h z g y with
    | .closed =>
      if v.unacked ≠ 0 then .waits
      else
      let s := s.setSlot h z v.unbind
      .done (if v.sentEnd then s else s.queueEvent h { engine := 4, index := z.val, code := 0x0E })
    | .open_ =>
      if v.unacked ≠ 0 then .waits
      else if v.sentEnd then .done (s.setSlot h z v.unbind)
      else
        let s := s.sendFlit h z g y { seq := 0, fmt := 0, elems := [], left := 0, endMark := true }
        .done (s.setSlot h z v.unbind)
    | .waiting => if v.sentEnd && v.unacked = 0 then .done (s.setSlot h z v.unbind) else .waits

/-- A stream send of the control stream waits for an older `GFIND` of the hart and for an older `FENCE.rel` (R125,
R126). -/
def State.sendHeld (s : State) : Bool := s.findPending || s.hart.sbuf.any (·.kind == .fence)

/-- The slot is bound for sending. -/
def Slot.sends (v : Slot) : Bool :=
  match v.bound with
  | .send .. => true
  | _ => false

/-- SCLOSE (R201, R326). -/
def execSclose (z : ZIx) (s : State) : Out :=
  if !s.hart.blocksDone || (s.sendHeld && (s.hart.z[z.val]).sends) then stallCtl s
  else match s.closeSlot s.cur z with
    | .waits => stallCtl s
    | .done s => retire s

/- Sends. -/

/-- STREAM at dispatch of a block instruction (R178, R199, R200). -/
def streamBlockFault (s : State) (code : Nat) : Out :=
  faultBlock s .stream (BitVec.ofNat 64 code) s.hart.blockPos s.hart.vstart

/-- Sends a message flit by flit while credit lasts (R199): the elements still to send, ascending; the outcome tells
whether all were sent, and otherwise the first element left.
DEDUCED: notes/assumptions/27. -/
def State.sendMessage (s : State) (z : ZIx) (g : Nat) (y : ZIx) (cap fmt : Nat) (endMark : Bool) :
    Nat → List (Nat × Nat) → State × Option Nat
  | 0, els => (s, (els.head?.map (·.1)))
  | fuel + 1, els =>
    if 8 ≤ (s.slotAt s.cur z).unacked then (s, some ((els.head?.map (·.1)).getD 0))
    else
      let s := s.sendFlit s.cur z g y
        { seq := 0, fmt := fmt, elems := (els.take cap).map (·.2), left := els.length, endMark := endMark }
      let rest := els.drop cap
      let v := s.slotAt s.cur z
      if rest.isEmpty then (s.setSlot s.cur z { v with sentFrom := [] }, none)
      else (s.setSlot s.cur z { v with sentFrom := v.sentFrom ++ (els.head?.map (·.1)).toList }).sendMessage z g y cap fmt
        endMark fuel rest

/-- A hart that is saved in the middle of a send goes back to the oldest flit whose credit has not come back, and sends
again from there (R192). -/
def Hart.rewound (h : Hart) : Hart :=
  match (List.finRange 8).find? (fun z => !(h.z[z.val]).sentFrom.isEmpty) with
  | none => h
  | some z =>
    let v := h.z[z.val]
    let n := min v.unacked v.sentFrom.length
    let kept := v.sentFrom.length - n
    { h with
      vstart := (v.sentFrom[kept]?).getD h.vstart
      z := h.z.set z.val { v with nextSend := ((1 <<< 32) + v.nextSend - n) % 1 <<< 32, unacked := v.unacked - n,
                                  sentFrom := v.sentFrom.take kept } }

/-- VSTS (R199): a send that runs out of credit stops at the first element it has not sent and goes on from there. -/
def execVsts (k : Blk) (va : VIx) (z : ZIx) (last : Bool) (s : State) : Out :=
  withFormats s k (fun d => [d.fa]) false (fun d fs => fs.all (fun f => !f.sliced && decide (8 ≤ f.width) && scaleOk d.asc va f))
    fun d fs =>
      match fs with
      | [fa] =>
        let h := s.hart
        match h.z[z.val].bound with
        | .unbound => streamBlockFault s 2
        | .reserved _ => streamBlockFault s 2
        | .recv _ _ => streamBlockFault s 5
        | .pair _ => streamBlockFault s 5
        | .send g y _ =>
          let els := (h.actives k (h.vl k (vlmax h.lanes fs))).map (fun e => (e, h.bitsAt va e fa))
          match s.linkOf s.cur z g y with
          | .waiting => stallSeq s
          | .closed => vDone (s.queueEvent s.cur { engine := 4, index := z.val, code := 0x0E })
          | .open_ =>
            let r := s.sendMessage z g y (4096 / fa.container) d.fa last (els.length + 1) els
            match r.2 with
            | none => vDone r.1
            | some e => stallSeq (if els.isEmpty then r.1 else r.1.withHart { r.1.hart with vstart := e })
      | _ => fmtFault s k

/- Receipts. -/

/-- A field of a pair record (R178). -/
def PairRec.get (r : PairRec) (f : Nat) : Nat :=
  match f with
  | 0 => r.i
  | 1 => r.j
  | 2 => r.dx
  | 3 => r.dy
  | 4 => r.dz
  | _ => r.r2

/-- Writes `VLA` (R47). -/
def Hart.setVla (h : Hart) (n : Nat) : Hart := { h with vla := n }

/-- VLDS on a slot that `SPAIR` bound (R178, R362). -/
def receivePairs (k : Blk) (vd : VIx) (z : ZIx) (fld : Nat) (consume : Bool) (fd : Fmt) (VL : Nat) (s : State) : Out :=
  let h := s.hart
  let v := h.z[z.val]
  if v.batch.isNone && VL = 0 then vDone s
  else if v.batch.isNone && v.records.isEmpty && !v.ended then stallSeq s
  else
    let B := v.batch.getD (min VL v.records.length)
    let vl := min VL B
    let r := h.frame k vd fd vl (fun e => ((v.records[e]?).map (·.get fld)).getD 0)
    let v' : Slot :=
      if consume then
        if B = 0 then v.unbind else { v with records := v.records.drop vl, batch := none }
      else { v with batch := some B }
    let s1 := s.withHart { (h.wrV vd r).setVla vl with z := h.z.set z.val v' }
    let s2 := match v.bound with
      | .pair id =>
        if consume && B = 0 then
          { s1 with jobs := s1.jobs.map (fun j => { j with streams := j.streams.filter (fun t => t.id != id) }) }
        else s1
      | _ => s1
    vDone s2

/-- The elements held of the current message (R200): those of the flits up to the one that ends it. -/
def messageElems : List Flit → List Nat
  | [] => []
  | f :: fs => if f.left ≤ f.elems.length then f.elems else f.elems ++ messageElems fs

/-- Drops n elements of the current message: the flits left, the elements of the first already taken, and how many
flits were consumed whole (R200). -/
def consumeElems : List Flit → Nat → Nat → List Flit × Nat × Nat
  | [], _, _ => ([], 0, 0)
  | f :: fs, taken, n =>
    if taken + n < f.elems.length then (f :: fs, taken + n, 0)
    else if f.left ≤ f.elems.length then (fs, 0, 1)
    else
      let r := consumeElems fs 0 (taken + n - f.elems.length)
      (r.1, r.2.1, r.2.2 + 1)

/-- VLDS on a receive slot of hart's peer g, slot y (R200, R362): a read opens a batch of the current message, reads
the element groups of it that have arrived and waits for the rest from the first element of the next group on (R188);
a consuming read returns the credit of flits as it empties them, and closes the batch. The empty message behind an end
mark reads as length 0 and, when consumed, unbinds the slot. -/
def receiveMessage (k : Blk) (vd : VIx) (z : ZIx) (consume : Bool) (fd : Fmt) (code VL : Nat) (g : Nat) (y : ZIx)
    (s : State) : Out :=
  let h := s.hart
  let v := h.z[z.val]
  let me := s.cur
  let empty (v' : Slot) (credit : Nat) : Out :=
    vDone ((s.withHart { h.setVla 0 with z := h.z.set z.val v' }).returnCredit g y me z credit)
  let opened : Slot := { v with batch := some (v.batch.getD 0) }
  if v.batch.isNone && VL = 0 then vDone s
  else if VL = 0 && v.batch != some 0 then empty (if consume then { v with batch := none } else v) 0
  else if v.atEnd then empty (if consume then v.unbind else opened) 0
  else match v.flits with
    | [] => stallSeq s
    | f :: fs =>
      if f.fmt ≠ 0 && f.fmt ≠ code then fmtFault s k
      else if f.left = 0 then
        if consume then (if f.endMark then empty v.unbind 1 else empty { v with flits := fs, batch := none } 1)
        else empty opened 0
      else
        let remaining := f.left - v.taken
        let B := v.batch.getD (min VL (v.done + remaining))
        let vl := min VL B
        let have_ := (messageElems v.flits).drop v.taken
        let finished := decide (vl ≤ v.done + have_.length)
        let upto := if finished then vl else max v.done ((v.done + have_.length) / h.lanes * h.lanes)
        let n := upto - v.done
        let r := h.frame k vd fd upto (fun e => have_.getD (e - v.done) 0)
        let c := if consume then consumeElems v.flits v.taken n else (v.flits, v.taken, 0)
        let emptied := consume && n = remaining
        let v' : Slot := { v with
          flits := c.1
          taken := c.2.1
          done := if consume && !finished then upto else 0
          batch := if !finished then v.batch else if consume then none else some B
          atEnd := emptied && f.endMark }
        let h1 := { h.wrV vd r with z := h.z.set z.val v' }
        if finished then vDone ((s.withHart (h1.setVla vl)).returnCredit g y me z c.2.2)
        else if consume then
          stallSeq ((s.withHart { h1 with vstart := max h.vstart upto }).returnCredit g y me z c.2.2)
        else if upto ≤ h.vstart then stallSeq s
        else stallSeq (s.withHart { h.wrV vd r with vstart := upto })

/-- The formats of `VLDS` on a slot that no `SOPEN` bound (R178). -/
def pairFormat (fld : Nat) (f : Fmt) : Bool := if fld < 2 then f = .n32 else f = .f32

/-- VLDS (R178, R200, R361, R362). -/
def execVlds (k : Blk) (vd : VIx) (z : ZIx) (fld : BitVec 3) (consume : Bool) (s : State) : Out :=
  let opened := match s.hart.z[z.val].bound with
    | .send _ _ _ => true
    | .recv _ _ => true
    | _ => false
  withFormats s k (fun d => [d.fd]) false
    (fun d fs => fs.all (fun f => ((opened && !f.sliced) || (!opened && pairFormat fld.toNat f)) && scaleOk d.dsc vd f))
    fun d fs =>
      match fs with
      | [fd] =>
        let VL := s.hart.vl k (vlmax s.hart.lanes fs)
        match s.hart.z[z.val].bound with
        | .unbound => streamBlockFault s 2
        | .reserved _ => streamBlockFault s 2
        | .send _ _ _ => streamBlockFault s 5
        | .pair _ => receivePairs k vd z fld.toNat consume fd VL s
        | .recv g y =>
          if fld.toNat ≠ 0 then streamBlockFault s 5
          else receiveMessage k vd z consume fd d.fd VL g y s
      | _ => fmtFault s k

/- Deliveries. -/

/-- Takes the oldest element that satisfies p out of a list. -/
def takeFirst {α : Type} (p : α → Bool) : List α → Option (α × List α)
  | [] => none
  | x :: xs => if p x then some (x, xs) else (takeFirst p xs).map (fun r => (r.1, x :: r.2))

/-- A flit that has left its link arrives (R131, R192): one the receiver has seen is dropped, and its credit returned
when the receiver has emptied the flit it stands for; one for a slot that no longer receives from its sender is
dropped and its credit returned.
DEDUCED: notes/assumptions/28. -/
def State.receiveFlit (s : State) (t : Transit) : State :=
  let v := s.slotAt t.toHart t.toSlot
  if v.bound = .recv t.fromHart t.fromSlot then
    if 1 <<< 31 ≤ ((1 <<< 32) + t.flit.seq - v.expect) % 1 <<< 32 then
      if v.flits.any (·.seq == t.flit.seq) then s else s.returnCredit t.fromHart t.fromSlot t.toHart t.toSlot 1
    else s.setSlot t.toHart t.toSlot { v with flits := v.flits ++ [t.flit], expect := (t.flit.seq + 1) % 1 <<< 32 }
  else s.returnCredit t.fromHart t.fromSlot t.toHart t.toSlot 1

/-- STREAM_DELIVERY (R131, R192): the oldest flit toward slot z of hart h arrives. -/
def execStreamDelivery (h : Nat) (z : ZIx) (s : State) : Out :=
  match takeFirst (fun t => t.toHart == h && t.toSlot == z) s.transit with
  | none => .next s
  | some (t, rest) => .next ({ s with transit := rest }.receiveFlit t)

/-- Every flit that hart h has sent arrives (R192). -/
def State.deliverFrom (s : State) (h : Nat) : State :=
  let mine := s.transit.filter (fun t => t.fromHart == h)
  mine.foldl State.receiveFlit { s with transit := s.transit.filter (fun t => t.fromHart != h) }

end Sys2Proof.Machine
end

