-- ==== Sys2Proof/Machine/VectorMemory.lean ====
section
/-!
DEFINITION. Far vector accesses and lane tables (R105 to R111, R121, R122, R340 to R343, R363).
-/

namespace Sys2Proof.Machine

/- Element addresses. -/

/-- The bytes of one element of a far access: the far sum, its bytes, its alignment, and the bit at which it starts in
its first byte. -/
structure FarElem where
  sum : Bool × Word
  n : Nat
  align : Nat
  off : Nat
  deriving DecidableEq, Repr

/-- Element e of a unit-stride or strided access (R105, R341). -/
def farLinear (f : Fmt) (base : Word) (stride : Option Int) (e : Nat) : FarElem :=
  match stride with
  | none =>
    if f.width < 8 then
      let bit := f.width * e
      ⟨farSum base (bit / 8 : Nat), (bit % 8 + f.width + 7) / 8, 0, bit % 8⟩
    else ⟨farSum base ((e * f.bytes : Nat) : Int), f.bytes, f.bytes, 0⟩
  | some d => ⟨farSum base ((e : Int) * d), f.bytes, f.bytes, 0⟩

/-- The stride register of `VLDF` and `VSTF`: x0 means the element size (R105). -/
def Hart.farStride (h : Hart) (xs : Reg) : Option Int := if xs = 0 then none else some (h.view xs).toInt

/-- Element e of an indexed access (R105). -/
def farIndexed (f : Fmt) (base : Word) (index : Int) (s : Nat) : FarElem :=
  ⟨farSum base (index * ((1 <<< s : Nat) : Int)), f.bytes, f.bytes, 0⟩

/-- Index formats of R106. -/
def Fmt.index (f : Fmt) : Bool := f = .n16 || f = .n32 || f = .n64 || f = .s32 || f = .s64

/-- Data formats of whole bytes (R106). -/
def Fmt.byteData (f : Fmt) : Bool := !f.sliced && f != .x9 && decide (8 ≤ f.width)

/-- Data formats of the lane tables (R110): packed ones of 8 bits or more, x9 in its container among them. -/
def Fmt.tableData (f : Fmt) : Bool := !f.sliced && decide (8 ≤ f.width)

/-- Data formats of `VLDF` and `VSTF` (R106): those of 4 and 6 bits only without a stride register. -/
def Fmt.farData (f : Fmt) (xs : Reg) : Bool := f.byteData || (!f.sliced && f != .x9 && xs = 0)

/- The probe pass. -/

/-- What a far access asks for (R105 to R109, R121 to R123): its length, what it does with an element, the permission,
whether it waits as a release does, whether its elements take tickets, hold younger accesses, or perform in any order;
the bytes of element e, and its operand and the value compared. -/
structure FarPlan where
  vl : Nat
  what : FarWhat
  perm : Perm
  release : Bool
  ticket : Bool
  acq : Bool
  free : Bool
  unit : Nat → FarElem
  val : Nat → Nat × Nat

/-- The probe pass of R107 over active elements: those that pass below the first that fails, and that one. A store meets
poison as `cutPoison` says.
DEDUCED: notes/assumptions/27. -/
def State.probe (s : State) (p : FarPlan) : List Nat → List FarStep × Option (Nat × Fail)
  | [] => ([], none)
  | e :: es =>
    let u := p.unit e
    match (if p.perm = .wr then s.locate s.who u.sum u.n u.align p.perm
           else s.access s.who u.sum u.n u.align p.perm) with
    | .error f => ([], some (e, f))
    | .ok pas =>
      let r := s.probe p es
      ({ e := e, pas := pas, off := u.off, x := (p.val e).1, c := (p.val e).2 } :: r.1, r.2)

/-- A bit of memory lies in the element of w bits. -/
def FarStep.covers (p : FarStep) (w bit : Nat) : Bool :=
  p.pas.zipIdx.any (fun e => e.1 == bit / 8 && decide (p.off ≤ 8 * e.2 + bit % 8) && decide (8 * e.2 + bit % 8 < p.off + w))

/-- The elements of w bits cover line l whole (R210). -/
def coverLine (w : Nat) (ps : List FarStep) (l : Nat) : Bool :=
  (List.range 512).all (fun b => ps.any (·.covers w (512 * l + b)))

/-- The poisoned lines that a store of elements ps meets and does not write whole (R210). -/
def State.unhealed (s : State) (w : Nat) (ps : List FarStep) (pas : List Nat) : List Nat :=
  (linesAt pas).filter (fun l => s.isPoisoned l && !coverLine w ps l)

/-- A vector store that covers every byte of a poisoned line performs and clears it; at any other the first element that
meets it takes POISON (R210), and with the elements from there on gone the lines that they helped to cover are judged
anew.
DEDUCED: notes/assumptions/27. -/
def State.cutPoison (s : State) (w : Nat) (p : FarPlan) : Nat → List FarStep × Option (Nat × Fail) →
    List FarStep × Option (Nat × Fail)
  | 0, r => r
  | n + 1, r =>
    match r.1.find? (fun q => !(s.unhealed w r.1 q.pas).isEmpty) with
    | none => r
    | some q => s.cutPoison w p n
        (r.1.takeWhile (·.e != q.e), some (q.e, ⟨.poison, (p.unit q.e).sum.2, s.unhealed w r.1 q.pas⟩))

/-- Bits of an element. -/
def FarWhat.width (w : FarWhat) : Nat :=
  match w with
  | .load _ f => f.width
  | .store f => f.width
  | .amo _ _ f => f.width

/-- The check phase of a far access over active elements (R107). -/
def State.checkFar (s : State) (p : FarPlan) (es : List Nat) : List FarStep × Option (Nat × Fail) :=
  let r := s.probe p es
  if p.perm = .wr && !(s.poisoned.isEmpty && s.deadGroups.isEmpty) then s.cutPoison p.what.width p es.length r else r

/-- The poisoned lines that a store of the elements ps writes whole. -/
def State.healedBy (s : State) (p : FarPlan) (ps : List FarStep) : List Nat :=
  if p.perm = .wr && !(s.poisoned.isEmpty && s.deadGroups.isEmpty) then
    (linesAt (ps.flatMap (·.pas))).filter (fun l => s.isPoisoned l && coverLine p.what.width ps l)
  else []

/-- The accesses of the hart older than the current block, and its Gleaner debts, have performed (R122). -/
def State.olderPerformed (s : State) : Bool :=
  s.hart.vq.isEmpty && match s.hart.block with
  | none => s.hart.sbuf.isEmpty && s.debtsDone s.cur s.nextId
  | some b => s.hart.sbuf.all (fun p => decide (b.serial < p.serial)) && s.debtsDone s.cur b.bound

/- Elements. -/

/-- The byte that vector stores in flight hold for a physical address, the youngest one's (R119). -/
def vforwarded (vq : List FarRun) (pa : Nat) : Option Byte :=
  vq.foldl (fun acc r =>
    match r.what with
    | .store _ => r.todo.foldl (fun acc p =>
        match (p.pas.zip (toBytes p.pas.length p.x)).find? (·.1 == pa) with
        | some e => some e.2
        | none => acc) acc
    | _ => acc) none

/-- Bytes as a vector load takes them behind the accesses vq of its stream (R119). -/
def State.farBytes (s : State) (vq : List FarRun) (pas : List Nat) : List Byte :=
  pas.map (fun pa => (vforwarded vq pa).getD (s.byteAt pa))

/-- The step of one element behind the accesses vq (R109, R118): the state after it, and the bits it reads. -/
def FarWhat.perform (w : FarWhat) (vq : List FarRun) (s : State) (p : FarStep) : State × Nat :=
  match w with
  | .load _ f => (s, field (ofBytes (s.farBytes vq p.pas)) p.off f.width)
  | .store f =>
    (s.store p.pas (toBytes p.pas.length (putField (ofBytes (s.readAll p.pas)) p.off f.width p.x)), 0)
  | .amo op _ f =>
    let old := ofBytes (s.readAll p.pas)
    (match amoResult op f f.width old p.x p.c with
      | some v => s.writeAll p.pas (toBytes p.pas.length v)
      | none => s, old)

/-- Elements in ascending order, each in one step (R109, R121): the state after them, and what each read. -/
def FarWhat.performAll (w : FarWhat) (vq : List FarRun) : State → List FarStep → State × List (Nat × Nat)
  | s, [] => (s, [])
  | s, p :: ps =>
    let r := w.perform vq s p
    let q := w.performAll vq r.1 ps
    (q.1, (p.e, r.2) :: q.2)

/-- What an element of the word at an address has read ahead (R40, R119). -/
def Hart.earlyAt (h : Hart) (pos : Word) (e : Nat) : Option Nat :=
  (h.early.find? (fun v => v.1 == pos && v.2.1 == e)).map (·.2.2)

/-- What an access that read `vals` leaves in its destination, in the frame of R334 up to length n. -/
def State.landed (s : State) (k : Blk) (w : FarWhat) (n : Nat) (vals : List (Nat × Nat)) : State :=
  let put (vd : VIx) (f : Fmt) : State :=
    s.withHart (s.hart.wrV vd (s.hart.frame k vd f n (fun e => (alookup vals e).getD 0)))
  match w with
  | .load vd f => put vd f
  | .store _ => s
  | .amo _ vd f => put vd f

/-- The elements ps of a far access perform, up to length n. -/
def State.farPerform (s : State) (k : Blk) (p : FarPlan) (ps : List FarStep) (n : Nat) : State :=
  let healed := s.healedBy p ps
  let s := if p.ticket then { s with ticket := s.ticket + ps.length } else s
  let r := p.what.performAll s.hart.vq s ps
  let early := s.hart.earlyAt s.hart.blockPos
  let s := r.1.landed k p.what n (r.2.map (fun v => (v.1, (early v.1).getD v.2)))
  if healed.isEmpty then s else s.cleanse healed

/-- A far access (R341): the waits, the probe, then the elements below the first failing one perform.
DESIGN CHOICE: notes/assumptions/10. -/
def State.farAccess (s : State) (k : Blk) (p : FarPlan) : Out :=
  let es := s.hart.actives k p.vl
  if es.any (fun e => s.heldByDeposit (p.unit e).sum.2 (p.unit e).n) then stallSeq s
  else if p.release && !s.olderPerformed then stallSeq s
  else
    let r := s.checkFar p es
    match r.2 with
    | none => .next ((s.farPerform k p r.1 p.vl).completed none)
    | some (e, f) =>
      let s := s.farPerform k p r.1 e
      faultBlock (s.tellFault s.hart.part s.cur f) f.cause f.eval s.hart.blockPos e

/- Loads and stores. -/

/-- VLDF as `go` runs its plan. -/
def vldfWith (go : State → Blk → FarPlan → Out) (k : Blk) (vd : VIx) (xa xs : Reg) (ord : LdOrd) (s : State) : Out :=
  withFormats s k (fun d => [d.fd]) false (fun d fs => fs.all (fun f => f.farData xs && scaleOk d.dsc vd f))
    fun _ fs =>
      match fs with
      | [f] =>
        let h := s.hart
        go s k { vl := h.vl k (vlmax h.lanes fs), what := .load vd f, perm := .rd, release := ord = .sc, ticket := ord = .sc
                 acq := ord ≠ .plain, free := ord ≠ .sc, unit := farLinear f (h.view xa) (h.farStride xs)
                 val := fun _ => (0, 0) }
      | _ => fmtFault s k

/-- VSTF as `go` runs its plan. -/
def vstfWith (go : State → Blk → FarPlan → Out) (k : Blk) (va : VIx) (xa xs : Reg) (ord : StOrd) (s : State) : Out :=
  withFormats s k (fun d => [d.fa]) false (fun d fs => fs.all (fun f => f.farData xs && scaleOk d.asc va f))
    fun _ fs =>
      match fs with
      | [f] =>
        let h := s.hart
        go s k { vl := h.vl k (vlmax h.lanes fs), what := .store f, perm := .wr, release := ord = .sc, ticket := ord = .sc
                 acq := ord = .sc, free := ord = .u, unit := farLinear f (h.view xa) (h.farStride xs)
                 val := fun e => (h.bitsAt va e f, 0) }
      | _ => fmtFault s k

/-- VLDX as `go` runs its plan. -/
def vldxWith (go : State → Blk → FarPlan → Out) (k : Blk) (vd : VIx) (xa : Reg) (vb : VIx) (sc : Fin 4) (ord : LdOrd)
    (s : State) : Out :=
  withFormats s k (fun d => [d.fb, d.fd]) false
    (fun d fs => match fs with
      | [fb, fd] => fb.index && fd.byteData && marksOk [(d.bsc, vb, fb), (d.dsc, vd, fd)]
      | _ => false)
    fun _ fs =>
      match fs with
      | [fb, f] =>
        let h := s.hart
        go s k { vl := h.vl k (vlmax h.lanes fs), what := .load vd f, perm := .rd, release := ord = .sc, ticket := ord = .sc
                 acq := ord ≠ .plain, free := ord ≠ .sc
                 unit := fun e => farIndexed f (h.view xa) (h.intAt vb e fb) sc.val, val := fun _ => (0, 0) }
      | _ => fmtFault s k

/-- VSTX as `go` runs its plan. -/
def vstxWith (go : State → Blk → FarPlan → Out) (k : Blk) (va : VIx) (xa : Reg) (vb : VIx) (sc : Fin 4) (ord : StOrd)
    (s : State) : Out :=
  withFormats s k (fun d => [d.fa, d.fb]) false
    (fun d fs => match fs with
      | [fa, fb] => fb.index && fa.byteData && marksOk [(d.asc, va, fa), (d.bsc, vb, fb)]
      | _ => false)
    fun _ fs =>
      match fs with
      | [f, fb] =>
        let h := s.hart
        go s k { vl := h.vl k (vlmax h.lanes fs), what := .store f, perm := .wr, release := ord = .sc, ticket := ord = .sc
                 acq := ord = .sc, free := ord = .u
                 unit := fun e => farIndexed f (h.view xa) (h.intAt vb e fb) sc.val
                 val := fun e => (h.bitsAt va e f, 0) }
      | _ => fmtFault s k

/-- Formats of `VAMO` (R106). -/
def vamoFormat (op : AmoOp) (f : Fmt) : Bool :=
  match op with
  | .fadd => f = .f32 || f = .f64
  | _ => f = .s32 || f = .s64 || f = .n32 || f = .n64

/-- VAMO as `go` runs its plan. -/
def vamoWith (go : State → Blk → FarPlan → Out) (k : Blk) (op : AmoOp) (vd va : VIx) (xa : Reg) (vb : VIx) (sc : Fin 4)
    (ord : VamoOrd) (vc : VIx) (s : State) : Out :=
  withFormats s k (fun d => [d.fa, d.fb, d.fd]) false
    (fun d fs => match fs with
      | [fa, fb, fd] => fa = fd && vamoFormat op fa && fb.index &&
          marksOk [(d.asc, va, fa), (d.bsc, vb, fb), (d.dsc, vd, fd)]
      | _ => false)
    fun _ fs =>
      match fs with
      | [f, fb, _] =>
        let h := s.hart
        go s k { vl := h.vl k (vlmax h.lanes fs), what := .amo op vd f, perm := .rdwr
                 release := ord = .ar || ord = .sc, ticket := ord = .sc, acq := ord ≠ .plain, free := false
                 unit := fun e => farIndexed f (h.view xa) (h.intAt vb e fb) sc.val
                 val := fun e => (h.bitsAt va e f, h.bitsAt vc e f) }
      | _ => fmtFault s k

/-- VLDF (R341). -/
def execVldf (k : Blk) (vd : VIx) (xa xs : Reg) (ord : LdOrd) (s : State) : Out := vldfWith State.farAccess k vd xa xs ord s

/-- VSTF (R341). -/
def execVstf (k : Blk) (va : VIx) (xa xs : Reg) (ord : StOrd) (s : State) : Out := vstfWith State.farAccess k va xa xs ord s

/-- VLDX (R341). -/
def execVldx (k : Blk) (vd : VIx) (xa : Reg) (vb : VIx) (sc : Fin 4) (ord : LdOrd) (s : State) : Out :=
  vldxWith State.farAccess k vd xa vb sc ord s

/-- VSTX (R341). -/
def execVstx (k : Blk) (va : VIx) (xa : Reg) (vb : VIx) (sc : Fin 4) (ord : StOrd) (s : State) : Out :=
  vstxWith State.farAccess k va xa vb sc ord s

/-- VAMO (R341, R109): its elements in ascending order, each with its old value to vd. -/
def execVamo (k : Blk) (op : AmoOp) (vd va : VIx) (xa : Reg) (vb : VIx) (sc : Fin 4) (ord : VamoOrd) (vc : VIx) (s : State) :
    Out := vamoWith State.farAccess k op vd va xa vb sc ord vc s

/-- A far access as `go` runs its plan; nothing for any other instruction. -/
def farWith (go : State → Blk → FarPlan → Out) (i : Instr) (s : State) : Option Out :=
  match i with
  | .vldf k vd xa xs ord => some (vldfWith go k vd xa xs ord s)
  | .vstf k va xa xs ord => some (vstfWith go k va xa xs ord s)
  | .vldx k vd xa vb sc ord => some (vldxWith go k vd xa vb sc ord s)
  | .vstx k va xa vb sc ord => some (vstxWith go k va xa vb sc ord s)
  | .vamo k op vd va xa vb sc ord vc => some (vamoWith go k op vd va xa vb sc ord vc s)
  | _ => none

/- Accesses in flight (R108, R116, R118, R121). -/

/-- The 64 KiB pages of the leaf that maps an address, by a walk down the levels left (R103). -/
def State.leafSpan (s : State) (a : Nat) : List (Nat × Nat) → Nat → Nat
  | [], _ => 1
  | (lo, n) :: ls, table =>
    let e := ofBytes (s.readAll ((List.range 8).map (table + 8 * ((a >>> lo) % 1 <<< n) + ·)))
    if e.testBit 1 then 1 <<< (lo - 16) else s.leafSpan a ls ((e % 1 <<< 52) >>> 8 <<< 8)

/-- The page that a probe pins at a device virtual address, as both stages map it (R103, R104, R108). -/
def State.pinAt (s : State) (p va : Nat) : Option PinnedPage :=
  (s.translate1 p .look va).map (fun ia =>
    let vn := if (s.mapped1 p va).isSome then 1 else s.leafSpan va levels1 (s.partAt p).record.root1
    let inn := if (s.mapped2 p ia).isSome then 1 else s.leafSpan ia levels2 (s.partAt p).record.root2
    { va := va / 65536 / vn * vn, vn := vn, ia := ia / 65536 / inn * inn, inn := inn })

/-- The pages behind the n bytes at a far address that a probe pins (R107, R108), those of a Granary binding by their
physical pages. -/
def State.pinsAt (s : State) (w : Who) (a : Word) (n : Nat) : List PinnedPage :=
  match s.region w (a.toNat >>> 48) with
  | none => []
  | some r =>
    let o := a.toNat % 1 <<< 48
    if n = 0 then []
    else match r.pages with
      | some pgs => [o, o + n - 1].filterMap (fun x => (pgs[x / 65536]?).map (fun pg => { va := 0, vn := 0, ia := pg, inn := 0 }))
      | none => [r.base + o, r.base + o + n - 1].filterMap (s.pinAt w.part)

/-- The pages that elements pin, each once. -/
def State.pinsOf (s : State) (p : FarPlan) (ps : List FarStep) : List PinnedPage :=
  (ps.flatMap (fun q => s.pinsAt s.who (p.unit q.e).sum.2 (p.unit q.e).n)).eraseDups

/-- Entries of the pin table of stead st in use (R108). -/
def State.pinned (s : State) (st : Nat) : Nat :=
  ((s.hartIds.filter (fun h => steadOf h == st)).map (fun h => ((s.hartAt h).vq.map (·.pins.length)).sum)).sum

/-- The probe of the current hart may pin n pages (R108): no probe of its stead has waited for longer, and the stead's
table of 32,768 entries has room. -/
def State.pinRoom (s : State) (n : Nat) : Bool :=
  let st := steadOf s.cur
  !(s.pinWait.takeWhile (· != s.cur)).any (fun h => steadOf h == st) &&
    (s.pinned st = 0 || decide (s.pinned st + n ≤ 32768))

/-- Two elements share a byte. -/
def FarStep.meets (p q : FarStep) : Bool := p.pas.any q.pas.contains

/-- A store whose elements are whole bytes, so that loads can take them from its queue. -/
def FarWhat.forwards (w : FarWhat) : Bool :=
  match w with
  | .store f => decide (8 ≤ f.width)
  | _ => false

/-- An element of `w` has to wait for an access in flight that is older in its stream (R119): they share a byte, and
it is not a load that takes the bytes from the store. -/
def FarStep.behind (p : FarStep) (w : FarWhat) (r : FarRun) : Bool :=
  !((match w with | .load .. => true | _ => false) && r.what.forwards) && r.todo.any p.meets

/-- An older `FENCE.rel` of the hart holds the write steps of its current block (R126). -/
def State.fenced (s : State) : Bool :=
  s.hart.sbuf.any (fun p => p.kind == .fence && (s.hart.block.all (fun b => decide (p.serial ≤ b.serial))))

/-- The access has to wait behind those in flight: for an acquire, a release of its own, a byte they share, a fault that
must find them done, or an older `FENCE.rel` (R119, R122, R125, R126). -/
def State.farBehind (s : State) (p : FarPlan) (r : List FarStep × Option (Nat × Fail)) : Bool :=
  let vq := s.hart.vq
  vq.any (·.acq) || (!vq.isEmpty && (p.release || r.2.isSome)) || (p.perm != .rd && s.fenced) ||
    r.1.any (fun q => vq.any (q.behind p.what))

/-- A far access behind others in flight: it waits for them and for its pins, whose probe then stands in the order of
arrival (R108), and runs. -/
def State.farGuarded (run : State → Blk → FarPlan → Out) (s : State) (k : Blk) (p : FarPlan) : Out :=
  let r := s.checkFar p (s.hart.actives k p.vl)
  if s.farBehind p r then stallSeq s
  else if s.pinRoom (s.pinsOf p r.1).length then run { s with pinWait := s.pinWait.filter (· != s.cur) } k p
  else stallSeq (if s.pinWait.contains s.cur then s else { s with pinWait := s.pinWait ++ [s.cur] })

/-- A far access passes its probe, and its elements perform later, one in a step (R116, R118, R121). Its word completes
at once; one of whose elements a later one faults, or that is stepped, ends when they have performed. One that waits, or
whose first element faults, runs as a whole.
DESIGN CHOICE: notes/assumptions/10. -/
def State.farIssue (s : State) (k : Blk) (p : FarPlan) : Out :=
  let es := s.hart.actives k p.vl
  let c := s.checkFar p es
  if es.any (fun e => s.heldByDeposit (p.unit e).sum.2 (p.unit e).n) || (p.release && !s.olderPerformed) || c.1.isEmpty then
    s.farAccess k p
  else
    let f := s.fresh
    let h := s.hart
    let early := h.earlyAt h.blockPos
    let last := match c.2 with
      | some (e, f) => some (FarEnd.fault e f.cause f.eval f.lines)
      | none => if h.dbg.getLsbD 1 then some .done else none
    let n := match c.2 with
      | some (e, _) => e
      | none => p.vl
    let todo := match p.what with
      | .load .. => c.1.filter (fun q => (early q.e).isNone)
      | _ => c.1
    let run : FarRun :=
      { rid := f.1, serial := (h.block.map (·.serial)).getD h.nextSerial, bound := (h.block.map (·.bound)).getD f.1
        lanes := h.lanes, what := p.what, todo := todo, free := p.free, acq := p.acq, ticket := p.ticket,
        pins := s.pinsOf p c.1, whole := s.healedBy p c.1, last := last }
    let olds (vd : VIx) (g : Fmt) : List (Nat × Nat) := c.1.map (fun q => (q.e, h.bitsAt vd q.e g))
    let vals := match p.what with
      | .load vd g => (olds vd g).map (fun v => (v.1, (early v.1).getD v.2))
      | .store _ => []
      | .amo _ vd g => olds vd g
    let t := f.2.landed k p.what n vals
    let t := if todo.isEmpty && last.isNone then t else { t with hart := { t.hart with vq := t.hart.vq ++ [run] } }
    if last.isNone then .next (t.completed none) else if todo.isEmpty then .next t else stallSeq t

/-- The end of the word that a vector access in flight has still to give (R41): it waits until every access in flight
has performed. None when no such word stands. -/
def State.farEnds (s : State) : Option Out :=
  match s.hart.vq with
  | [] => none
  | r :: rs =>
    match (r :: rs).findSome? (·.last) with
    | none => none
    | some last =>
      if !rs.isEmpty || !r.todo.isEmpty then some (stallSeq s)
      else
        let t := s.withHart { s.hart with vq := [] }
        match last with
        | .fault e c ev ls => some (faultBlock (t.tellFault t.hart.part t.cur ⟨c, ev, ls⟩) c ev t.hart.blockPos e)
        | .done => some (vDone t)

/-- The next element of a vector load is read ahead (R40, R119): its probe passes, nothing older in flight holds it, and
no deposit. -/
def State.farEarly (s : State) (k : Blk) (p : FarPlan) : Out :=
  let es := s.hart.actives k p.vl
  let c := s.checkFar p es
  let pos := s.hart.blockPos
  match p.what with
  | .load _ f =>
    if p.acq || s.hart.vq.any (·.acq) || c.2.isSome || es.any (fun e => s.heldByDeposit (p.unit e).sum.2 (p.unit e).n) then .next s
    else match c.1.find? (fun q => (s.hart.earlyAt pos q.e).isNone && !s.hart.vq.any (q.behind p.what)) with
      | none => .next s
      | some q => .next (s.withHart { s.hart with
          early := s.hart.early ++ [(pos, q.e, field (ofBytes (s.farBytes s.hart.vq q.pas)) q.off f.width)] })
  | _ => .next s

/-- Element j of those left of access i in flight may perform (R119, R121, R122, R125). -/
def State.mayElem (s : State) (i j : Nat) : Bool :=
  match s.hart.vq[i]? with
  | none => false
  | some r =>
    match r.todo[j]? with
    | none => false
    | some q =>
      let older := s.hart.vq.take i
      (r.free || j = 0) && !older.any (fun o => o.acq || q.behind r.what o) &&
        (r.reading || !(r.todo.take j).any q.meets)

/-- Element j of those left of access i in flight performs in one step (R118). -/
def State.elem (s : State) (i j : Nat) : State :=
  match s.hart.vq[i]? with
  | none => s
  | some r =>
    match r.todo[j]? with
    | none => s
    | some q =>
      let left := r.todo.eraseIdx j
      let o := r.what.perform (s.hart.vq.take i) (if r.ticket then { s with ticket := s.ticket + 1 } else s) q
      let s := o.1
      let put (vd : VIx) (f : Fmt) : Hart := s.hart.wrV vd (s.hart.v[vd.val].setElem r.lanes f q.e o.2)
      let h := match r.what with
        | .load vd f => put vd f
        | .store _ => s.hart
        | .amo _ vd f => put vd f
      let h := { h with vq := if left.isEmpty && r.last.isNone then h.vq.eraseIdx i else h.vq.set i { r with todo := left } }
      let s := s.withHart h
      if left.isEmpty && !r.whole.isEmpty then s.cleanse r.whole else s

/-- Every access in flight of the current hart performs, in order; `fuel` bounds the number of elements. -/
def State.landAll (s : State) : Nat → State
  | 0 => s
  | fuel + 1 => if s.hart.vq.isEmpty then s else (s.elem 0 0).landAll fuel

/-- Elements of the current hart's accesses in flight. -/
def Hart.inFlight (h : Hart) : Nat := (h.vq.map (·.todo.length)).sum

/- Lane tables. -/

/-- The place of byte i of element e of a lane-table access: lane[e mod L] and the offset of R110. -/
def Hart.tablePlace (h : Hart) (xo : Reg) (index : Int) (b e i : Nat) : Nat :=
  8192 * (e % h.lanes) + (((((h.view xo).toInt + index) * (b : Int)) % 8192).toNat + i) % 8192

/-- A byte of the lane tables. -/
def Hart.tableByte (h : Hart) (a : Nat) : Byte := (alookup h.laneTab a).getD 0

/-- A byte of the lane tables written; a zero is not listed, and its lane counts as written (R190). -/
def Hart.setTableByte (h : Hart) (a : Nat) (b : Byte) : Hart :=
  { h with laneTab := if b = 0 then aerase h.laneTab a else ainsert h.laneTab a b
           laneMask := setBit h.laneMask (a / 8192) true }

/-- VLDT (R363). -/
def execVldt (k : Blk) (vd : VIx) (xo : Reg) (vb : VIx) (s : State) : Out :=
  withFormats s k (fun d => [d.fb, d.fd]) false
    (fun d fs => match fs with
      | [fb, fd] => fb.index && fd.tableData && marksOk [(d.bsc, vb, fb), (d.dsc, vd, fd)]
      | _ => false)
    fun _ fs =>
      match fs with
      | [fb, f] =>
        let h := s.hart
        writeElems s k vd f (h.vl k (vlmax h.lanes fs)) (fun e =>
          (ofBytes ((List.range f.bytes).map (fun i => h.tableByte (h.tablePlace xo (h.intAt vb e fb) f.bytes e i))), flNone))
      | _ => fmtFault s k

/-- VSTT (R363): ascending, so that the highest-indexed element stays. -/
def execVstt (k : Blk) (va : VIx) (xo : Reg) (vb : VIx) (s : State) : Out :=
  withFormats s k (fun d => [d.fa, d.fb]) false
    (fun d fs => match fs with
      | [fa, fb] => fb.index && fa.tableData && marksOk [(d.asc, va, fa), (d.bsc, vb, fb)]
      | _ => false)
    fun _ fs =>
      match fs with
      | [f, fb] =>
        let h := s.hart
        let h' := (h.actives k (h.vl k (vlmax h.lanes fs))).foldl (fun g e =>
          ((List.range f.bytes).zip (toBytes f.bytes (h.bitsAt va e f))).foldl (fun g ib =>
            g.setTableByte (h.tablePlace xo (h.intAt vb e fb) f.bytes e ib.1) ib.2) g) h
        vDone (s.withHart h')
      | _ => fmtFault s k

end Sys2Proof.Machine
end

