-- ==== Sys2Proof/Machine/Scheduler.lean ====
section
/-!
DEFINITION. The scheduler: farms, strips, placement, quads and budgets, waiting, pre-emption and the end of harts (R30
to R33, R36, R90, R133 to R145, R184, R188 to R192, R252, R253, R259, R275, R281, R309, R310, R332, R381, R382).
-/

namespace Sys2Proof.Machine

/- Quads and budgets. -/

/-- Numbers of the partitions that exist. -/
def State.partIds (s : State) : List Nat := (s.parts.filter (·.2.exists_)).map (·.1)

/-- The sum of all partitions' budgets on a stead (R141). -/
def State.budgetSum (s : State) (st : Nat) : Nat := ((s.partIds).map (fun p => (s.partAt p).budgetOn st)).sum

/-- Replaces the budget of partition p on stead st, which harts that wait for a quad may then have (R252). -/
def State.setBudget (s : State) (p st b : Nat) : State :=
  let v := s.partAt p
  (s.setPartAt p { v with budget := ((List.range s.caps.steads).map v.budgetOn).set st b }).allot st

/-- A context that holds a hart (R36). -/
def Hart.placed (h : Hart) : Bool := h.status != .free && h.status != .ended

/-- The largest quad count owed on stead st to a context of p that sleeps, has yielded or is pre-empted (R142). -/
def State.owedMost (s : State) (p st : Nat) : Nat :=
  ((s.hartsOn st).filter (fun h => (s.hartAt h).part == p && (s.hartAt h).placed && !(s.hartAt h).counted)).foldl
    (fun n h => max n (s.hartAt h).owed) 0

/-- Strips that partition p completed in the millisecond before ms (R141). -/
def Part.rate (p : Part) (ms : Nat) : Nat :=
  if p.msNow = ms then p.stripsPrev else if p.msNow + 1 = ms then p.stripsNow else 0

/-- need of R141. -/
def Part.need (p : Part) (ms : Nat) : Int :=
  if p.record.target = 0 then 0 else (p.record.target : Int) - (p.rate ms : Int)

/-- The current whole millisecond of `TIME`. -/
def State.millisecond (s : State) : Nat := s.time / 1000000

/-- Counts a strip that partition p has completed (R141). -/
def State.countStrip (s : State) (p : Nat) : State :=
  let v := s.partAt p
  let ms := s.millisecond
  s.setPartAt p (if v.msNow = ms then { v with stripsNow := v.stripsNow + 1 }
    else { v with stripsPrev := v.rate ms, stripsNow := 1, msNow := ms })

/-- The first member of a list that no other exceeds by f. -/
def bestOf (f : Nat → Int) : List Nat → Option Nat
  | [] => none
  | x :: xs => match bestOf f xs with
    | none => some x
    | some y => if f x < f y then some y else some x

/-- A ceiling below the budget of partition p on stead st takes effect once no context there is owed more (R142). -/
def State.settleBudget (s : State) (p st : Nat) : State :=
  let v := s.partAt p
  let c := v.record.qceil.getD st 64
  let b := v.budgetOn st
  let b' := max (v.record.qfloor.getD st 0) (if s.owedMost p st ≤ c then min b c else b)
  if b' = b then s else s.setBudget p st b'

/-- The budget step at a strip close on stead st (R141, R142). -/
def State.budgetStep (s : State) (st : Nat) : State :=
  let on := (s.partIds).filter (fun p => (alookup (s.partAt p).slots st).isSome)
  let need := fun p => (s.partAt p).need s.millisecond
  let b := fun p => (s.partAt p).budgetOn st
  let ceil := fun p => (s.partAt p).record.qceil.getD st 64
  let low := fun p => max ((s.partAt p).record.qfloor.getD st 0) (s.owedMost p st)
  let taker := bestOf need (on.filter (fun p => decide (b p < ceil p)))
  let sum := s.budgetSum st
  if sum < 64 then
    match taker with
    | none => s
    | some p => s.setBudget p st (b p + min 4 (min (ceil p - b p) (64 - sum)))
  else
    match bestOf (fun p => -(need p)) (on.filter (fun p => decide (low p < b p))), taker with
    | some g, some r =>
      if g ≠ r && decide (need g < need r) then
        let k := min 4 (min (b g - low g) (ceil r - b r))
        (s.setBudget g st (b g - k)).setBudget r st (b r + k)
      else s
    | _, _ => s

/- Placement. -/

/-- The lowest-numbered free hart context of a stead (R252). -/
def State.freeContext (s : State) (st : Nat) : Option Nat :=
  ((List.range 16).map (16 * st + ·)).find? (fun h => !(s.hartAt h).placed)

/-- The lowest stead partition slot, 0 to 14, that is free on a stead (R36). -/
def State.freeSlot (s : State) (st : Nat) : Option Nat :=
  (List.range 15).find? (fun i => s.partIds.all (fun p => alookup (s.partAt p).slots st != some i))

/-- Stead st can take a further hart of partition p (R252), when it may stand at budget b there. -/
def State.canTake (s : State) (p st b : Nat) : Bool :=
  decide ((s.hartsOn st).countP (fun h => (s.hartAt h).part == p && (s.hartAt h).counted) < b) &&
    (s.freeContext st).isSome && ((alookup (s.partAt p).slots st).isSome || (s.freeSlot st).isSome)

/-- A partition with a hart to place and no budget anywhere is given one quad of budget on the stead with the most quads
outside every budget (R143, R252). -/
def State.firstQuad (s : State) (p : Nat) : Option (State × Nat) :=
  let v := s.partAt p
  let steads := List.range s.caps.steads
  if steads.any (fun st => v.budgetOn st != 0) then none
  else
    let open_ := steads.filter (fun st => v.record.qfloor.getD st 0 == 0 && decide (s.budgetSum st < 64) &&
      decide (0 < v.record.qceil.getD st 64) && s.canTake p st 1)
    (bestOf (fun st => 64 - (s.budgetSum st : Int)) open_).map (fun st => (s.setBudget p st 1, st))

/-- The stead for a hart of partition p (R252), with the state in which it can be placed there: the launching hart's
stead, else the one with the most unheld budget; else the one that R143 gives it. -/
def State.chooseStead (s : State) (p : Nat) (home : Option Nat) : Option (State × Nat) :=
  let v := s.partAt p
  let can := (List.range s.caps.steads).filter (fun st => s.canTake p st (v.budgetOn st))
  match home.filter can.contains with
  | some st => some (s, st)
  | none =>
    match bestOf (fun st => (v.budgetOn st : Int) - (s.quadsOf p st : Int)) can with
    | some st => some (s, st)
    | none => s.firstQuad p

/-- Harts of partition p that hold a context. -/
def State.placedOf (s : State) (p : Nat) : Nat :=
  s.hartIds.countP (fun h => (s.hartAt h).part == p && (s.hartAt h).placed)

/-- Hart contexts that stay for partition q, which has fewer harts than its floor (R140): the harts of work that has
still to come as well.
DESIGN CHOICE: notes/assumptions/29. -/
def State.floorDue (s : State) (q : Nat) : Nat := (s.partAt q).record.hfloor - s.placedOf q

/-- A further hart of partition p leaves every other partition the contexts that its floor guarantees (R140). -/
def State.floorsHold (s : State) (p : Nat) : Bool :=
  decide (s.placedOf p < (s.partAt p).record.hfloor) ||
    decide (((s.partIds.filter (· != p)).map s.floorDue).sum <
      ((List.range (16 * s.caps.steads)).filter (fun h => !(s.hartAt h).placed)).length)

/-- Replaces a farm. -/
def State.setFarm (s : State) (g : Farm) : State :=
  { s with farms := s.farms.map (fun f => if f.part == g.part && f.id == g.id then g else f) }

/-- A hart of a farm placed on a stead (R135, R252). -/
def State.placeHart (s : State) (g : Farm) (st : Nat) : State :=
  match s.freeContext st with
  | none => s
  | some h =>
    let v := s.partAt g.part
    let slots := if (alookup v.slots st).isSome then v.slots else ainsert v.slots st ((s.freeSlot st).getD 0)
    let free := s.freeQuads st
    let quad := if s.quadsOf g.part st < v.budgetOn st then free.head? else none
    let r := s.fresh
    let s := r.2
    let x : Vector Word 32 := ((Vector.replicate 32 0).set 1 g.arg).set 2 g.batch
    let hart : Hart :=
      { Hart.reset with
        pc := g.entry, x := x, farm := g.id, part := g.part, status := .running
        grant := match quad with | some q => 1#64 <<< q | none => 0
        needsReserved := if quad.isSome then none else some r.1
        gangWait := g.gang }
    ((s.setPartAt g.part { v with slots := slots }).setHartAt h hart).setFarm { g with harts := g.harts ++ [h] }

/-- The farm of number f of partition p. -/
def State.farmAt (s : State) (p f : Nat) : Option Farm := s.farms.find? (fun g => g.part == p && g.id == f)

/-- Places a hart of farm f on the stead that R252 gives; none when no stead can take it. -/
def State.placeOne (s : State) (p f : Nat) : Option State :=
  match s.farmAt p f with
  | none => none
  | some g =>
    if (s.partAt p).record.hceil ≤ s.running p || !s.floorsHold p then none
    else (s.chooseStead p g.stead).map (fun r => r.1.placeHart g r.2)

/-- Places n harts, all or none. -/
def State.placeMany (s : State) (p f : Nat) : Nat → Option State
  | 0 => some s
  | n + 1 => (s.placeOne p f).bind (fun s => s.placeMany p f n)

/-- The xd of a farm's `LAUNCH` receives the farm id (R134, R253). -/
def State.answerLaunch (s : State) (p f : Nat) : State :=
  match s.farmAt p f with
  | none => s
  | some g => match g.op.bind s.opById with
    | none => s
    | some o => (s.setFarm { g with op := none }).answerOp o (BitVec.ofNat 64 f)

/-- The state with an accepted farm's first harts placed (R135), when they can be. -/
def State.placeFirst (s : State) (p f : Nat) : Option State :=
  match s.farmAt p f with
  | none => none
  | some g =>
    if g.started || g.stopped then none
    else ((s.setFarm { g with started := true }).placeMany p f (if g.gang then g.hmax else g.hmin)).map (fun s =>
      s.farms.foldl State.wakeGang s)

/-- An accepted farm can start (R135, R139): its first harts can be placed, and no woken or yielded context of its
partition comes first. The state with them placed.
DESIGN CHOICE: notes/assumptions/29. -/
def State.startFarm (s : State) (p f : Nat) : Option State :=
  if (s.partAt p).order.isEmpty then s.placeFirst p f else none

/-- A farm that waits for more harts than its partition's budget can take has its first quad of budget to gain (R143). -/
def State.farmQuad (s : State) (p f : Nat) : Option State :=
  match s.farmAt p f with
  | none => none
  | some g =>
    if g.started || g.stopped || (s.placeFirst p f).isSome || (s.partAt p).record.hceil ≤ s.running p then none
    else (s.firstQuad p).map (·.1)

/-- FARM_START (R135, R143, R253): the farm starts; one that no stead can take stays queued, and its `LAUNCH` is
answered. -/
def execFarmStart (p f : Nat) (s : State) : Out :=
  match s.startFarm p f with
  | some t => .next (t.answerLaunch p f)
  | none => if (s.placeFirst p f).isSome then .next s else .next (((s.farmQuad p f).getD s).answerLaunch p f)

/-- Strips of a farm (R136). -/
def Farm.strips (g : Farm) : Nat := (g.trips + g.z - 1) / g.z

/-- A started farm may have a further hart (R137). -/
def State.growFarm (s : State) (p f : Nat) : Option State :=
  match s.farmAt p f with
  | none => none
  | some g =>
    if g.started && !g.stopped && !g.gang && !g.harts.isEmpty && decide (g.harts.length < g.hmax) &&
        decide (g.nextStrip < g.strips)
    then s.placeOne p f else none

/-- HART_PLACEMENT (R137, R252). -/
def execHartPlacement (p f : Nat) (s : State) : Out := .next ((s.growFarm p f).getD s)

/- Launching. -/

/-- A sheet's fields lie in their ranges and its reserved bytes are zero (R133, R134). -/
def sheetOk (r : Nat) : Bool :=
  let b := fun lo n => field r (8 * lo) (8 * n)
  b 0 8 % 4 == 0 && decide (1 ≤ b 16 2) && decide (b 16 2 ≤ 192) && decide (b 16 2 ≤ b 18 2) && decide (b 18 2 ≤ 192) &&
    b 20 1 / 2 == 0 && (decide (b 21 1 ≤ 15) || b 21 1 == 255) && b 22 2 == 0 && b 32 4 != 0 && b 36 4 == 0 &&
    b 48 8 % 8 == 0 && b 56 8 == 0 && !(b 20 1 == 1 && b 16 2 != b 18 2)

/-- The lowest id from `first` on, wrapping after 65,535, that no farm of partition p has (R310). -/
def State.farmId (s : State) (p first : Nat) : Nat :=
  ((List.range 257).map (fun i => (first - 1 + i) % 65535 + 1)).find? (fun f => (s.farmAt p f).isNone) |>.getD first

/-- Acceptance of a sheet of partition p (R134): the reason of a refusal, or the farm id with the state in which the
farm is queued. -/
def State.acceptSheet (s : State) (p sheet : Nat) (batch : Option Word) (stead fromBin op : Option Nat) :
    Except Nat (State × Nat) :=
  let b := fun lo n => field sheet (8 * lo) (8 * n)
  let v := s.partAt p
  let gang := b 20 1 == 1
  if !sheetOk sheet then .error 3
  else if v.record.hceil < b 16 2 || (gang && decide (v.record.hceil < b 18 2)) then .error 1
  else if 256 ≤ s.farms.countP (·.part == p) then .error 2
  else
    let id := s.farmId p v.nextFarm
    let g : Farm :=
      { part := p, id := id, entry := BitVec.ofNat 64 (b 0 8), arg := BitVec.ofNat 64 (b 8 8),
        batch := batch.getD (BitVec.ofNat 64 (b 40 8)), hmin := b 16 2, hmax := b 18 2, gang := gang,
        bin := if b 21 1 = 255 then none else some (b 21 1), trips := b 24 8, z := b 32 4,
        done := BitVec.ofNat 64 (b 48 8), stead := stead, fromBin := fromBin, op := op }
    .ok ({ s.setPartAt p { v with nextFarm := id % 65535 + 1 } with farms := s.farms ++ [g] }, id)

/-- LAUNCH (R309). -/
def execLaunch (d a : Reg) (s : State) : Out :=
  reading [a] s (
    let sheet := s.hart.rd a
    if s.heldByDeposit sheet 64 then stallCtl s
    else match s.accessAt s.who sheet 64 64 .rd with
    | .error e => faultAccess s e
    | .ok _ => handOff d (.launch sheet) s)

/-- The result of a refused launch (R134). -/
def refusedLaunch (reason : Nat) : Word := BitVec.ofNat 64 (1 <<< 63 + reason)

/-- COMPLETION_WORD (R124, R137, R310): a farm whose harts have all ended completes; its word is written, or the
failure posted to the policy, and RETIRE posted. -/
def State.completeFarm (s : State) (p f : Nat) : Option State :=
  match s.farmAt p f with
  | none => none
  | some g =>
    if !((g.started || g.stopped) && g.harts.isEmpty && g.op.isNone) then none
    else
      let status := if g.stopped then 1 else if g.nextStrip < g.strips then 2 else 0
      let s := { s with farms := s.farms.filter (fun k => !(k.part == p && k.id == f)) }
      let s := match s.engineWrite ⟨p, (s.partAt p).record.tenant⟩ g.done (toBytes 8 (f + status <<< 32)) with
        | .ok t => t
        | .error e => (s.tellFault p noHart e).postPolicy p
            { kind := 3, cause := causeCode .engine, f3 := f, f5 := g.done.toNat % 1 <<< 32 }
      some (s.postPolicy p { kind := 5, f3 := f })

/-- COMPLETION_WORD (R137). -/
def execCompletionWord (p f : Nat) (s : State) : Out := .next ((s.completeFarm p f).getD s)

/- Strips. -/

/-- The current hart's strip closes (R90, R136, R141). -/
def State.closeStrip (s : State) : State :=
  let h := s.hart
  if h.holdsStrip then
    let s := match s.farmAt h.part h.farm with
      | some g => s.setFarm { g with closed := g.closed ++ [h.stripId.toNat] }
      | none => s
    (({ s with hart := { s.hart with holdsStrip := false } }).countStrip h.part).budgetStep (steadOf s.cur)
  else s

/-- The folds of every touched element of the current hart's FOLD.O sheaves are issued (R90); a sheaf is loaded until
its last order has been done (R81). -/
def State.flushOrdered (s : State) : State :=
  (s.sheaves.filter (fun sh => sh.hart == s.cur && sh.desc.mode = .foldO)).foldl (fun t sh => t.flushSheaf sh) s

/-- STRIP (R332, R136): all ones when no strip is left. -/
def execStrip (d : Reg) (s : State) : Out :=
  if !s.schedulerFree then stallCtl s
  else
    let s := if s.hart.holdsStrip then s.flushOrdered.closeStrip else s
    match s.farmAt s.hart.part s.hart.farm with
    | none => retireWith { s with hart := { s.hart with stripId := BitVec.allOnes 64 } } d (BitVec.allOnes 64)
    | some g =>
      if g.nextStrip < g.strips then
        let s := s.setFarm { g with nextStrip := g.nextStrip + 1 }
        retireWith { s with hart := { s.hart with stripId := BitVec.ofNat 64 g.nextStrip, holdsStrip := true } } d
          (BitVec.ofNat 64 (g.nextStrip * g.z))
      else retireWith { s with hart := { s.hart with stripId := BitVec.allOnes 64 } } d (BitVec.allOnes 64)

/- Waiting. -/

/-- Hart h gives all its quads back, and is owed as many (R33). -/
def State.giveBack (s : State) (h : Nat) (status : Status) : State :=
  let v := s.hartAt h
  let qs := if v.holding then quadList v.grant else []
  (s.setHartAt h { v with status := status, owed := qs.length, grant := 0 }).quadsBack v.part (steadOf h) qs

/-- A context becomes runnable, at the back of its partition's order (R139, R144), and asks its stead's allocator for
its quads (R31, R33). -/
def State.enqueue (s : State) (h : Nat) : State :=
  let r := s.fresh
  let v := r.2.partAt (r.2.hartAt h).part
  (r.2.setPartAt (r.2.hartAt h).part { v with order := v.order ++ [h] }).setHartAt h { r.2.hartAt h with since := r.1 }

/-- WAIT (R381). -/
def execWait (a b : Reg) (s : State) : Out :=
  synchronise s (reading [a, b] s (
    let addr := s.hart.rd a
    let c := s.hart.rd b
    if s.heldByDeposit addr 8 then stallCtl s
    else match s.accessAt s.who addr 8 8 .rd with
      | .error e => faultAccess s e
      | .ok pas =>
        if !s.hart.blocksDone then stallCtl s
        else if BitVec.ofNat 64 (ofBytes (s.loadBytes pas)) ≠ c then retire s
        else
          let h := { s.hart with sleepAddr := addr, sleepPas := pas, sleepCmp := c, resumeNext := false }
          let t := { s with rereads := s.rereads.filter (· != s.cur) }
          .next ((t.withHart h).giveBack s.cur .sleeping)))

/-- YIELD (R381). -/
def execYield (s : State) : Out :=
  synchronise s (
    if !s.hart.blocksDone then stallCtl s
    else .next (((s.withHart { s.hart with resumeNext := true }).giveBack s.cur .runnable).enqueue s.cur))

/-- The scheduler's read for a sleeping hart to whose word a write has performed (R381, R382): whether the read differed
from the value the hart compared with, or failed; none for one that still agrees.
DEDUCED: notes/assumptions/30. -/
def State.wakes (s : State) (h : Nat) : Option Bool :=
  let v := s.hartAt h
  if v.status ≠ .sleeping || !s.rereads.contains h then none
  else match s.accessAt (s.whoOf v.part) v.sleepAddr 8 8 .rd with
    | .ok pas => if BitVec.ofNat 64 (ofBytes (s.readAll pas)) = v.sleepCmp then none else some true
    | .error _ => some false

/-- WAKE_READ (R381): the read after the writes that have performed, which wakes the hart when it differs or fails. -/
def execWakeRead (h : Nat) (s : State) : Out :=
  let t := { s with rereads := s.rereads.filter (· != h) }
  match s.wakes h with
  | none => .next t
  | some d => .next ((t.setHartAt h { t.hartAt h with status := .runnable, resumeNext := d }).enqueue h)

/-- A runnable context is given its quads (R31, R33, R139): it can have them, and no context of another partition that
asked the same stead before could have its own.
DESIGN CHOICE: notes/assumptions/29. -/
def State.mayResume (s : State) (h : Nat) : Bool :=
  s.servable h && (s.hartsOn (steadOf h)).all (fun g =>
    g == h || !s.servable g || decide ((s.hartAt h).since ≤ (s.hartAt g).since))

/-- Hart h receives the quads it is owed and runs (R33, R381). -/
def State.regrant (s : State) (h : Nat) : State :=
  let v := s.hartAt h
  let p := s.partAt v.part
  let s := s.setPartAt v.part { p with order := p.order.filter (· != h) }
  let g := quadMask ((s.freeQuads (steadOf h)).take v.owed)
  let s := s.setHartAt h { v with status := .running, grant := g, owed := 0, sinceDispatch := 0, resumeNext := false }
  let s := s.settleBudget v.part (steadOf h)
  if v.resumeNext then
    let t := (s.switchTo h)
    (t.retireTo (t.hart.pc + 4)).switchTo s.cur
  else s

/-- HART_DISPATCH of a context that slept or yielded (R33, R139, R381). -/
def execHartDispatch (h : Nat) (s : State) : Out :=
  .next (if s.mayResume h && !(s.hartAt h).preempted then s.regrant h else s)

/-- BAR (R275): it waits for every block queued before it and for its release, counts once, and waits until every
other hart of the gang that has not ended has counted as many. -/
def execBar (s : State) : Out :=
  match (s.farmAt s.hart.part s.hart.farm).filter (·.gang) with
  | none => illegalWord s (((encode .bar).map (·.2)).getD 0)
  | some g =>
    let pass (s : State) : Out :=
      let n := s.hart.barcount
      if (g.harts.filter (· != s.cur)).all (fun h => decide (n ≤ (s.hartAt h).barcount)) then
        retire (s.withHart { s.hart with barWaiting := false })
      else stallCtl s
    if s.hart.barWaiting then pass s
    else synchronise s (
      if !s.hart.blocksDone || !s.releaseReady then stallCtl s
      else pass (s.withHart { s.hart with barcount := s.hart.barcount + 1, barWaiting := true }))

/- Pre-emption. -/

/-- The scheduler asks to pre-empt hart h, and with it its whole gang, whose members that sleep or have yielded wait for
the others from then on (R135, R144, R155). -/
def State.askPreempt (s : State) (h : Nat) : State :=
  let v := s.hartAt h
  match (s.farmAt v.part v.farm).filter (·.gang) with
  | some g =>
    let t := g.harts.foldl (fun s h =>
      let m := s.hartAt h
      s.setHartAt h { m with asked := m.status == .running, gangWait := m.gangWait || m.status != .running }) s
    t.farms.foldl State.wakeGang t
  | none => s.setHartAt h { v with asked := v.status == .running }

/-- A sheaf access of the current hart that stands in the middle of its elements goes on until it is done or waits, so
that it stops at the first element of a group (R188). -/
def State.finishSheaf (s : State) : State :=
  match s.hart.block with
  | none => s
  | some b =>
    if s.hart.vstart = 0 || s.hart.startHeld then s
    else match s.blockWord b b.pos with
      | .error _ => s
      | .ok i => match sheafWith false i s with
        | some (.next t) => t
        | _ => s

/-- The words that the current hart has begun end as far as they can without another agent (R188): its vector accesses
in flight perform, and the word that they end does, or the sheaf access in the middle of its elements. What younger
words have read is unwound. -/
def State.settleWords (s : State) : State :=
  let t := s.landAll s.hart.inFlight
  let t := match t.farEnds with
    | some (.next u) => u
    | _ => t.finishSheaf
  t.withHart { t.hart with early := [], queue := t.hart.queue.map (fun b => { b with checked := false }) }

/-- Hart h stops for a save (R188, R192): what it has begun ends as far as it can, what it has sent arrives, a send that
is not finished goes back to its oldest flit without credit, and a probe that waits for pins gives its place up. -/
def State.stopHart (s : State) (h : Nat) : State :=
  let t := (s.switchTo h).settleWords.switchTo s.cur
  let t := { t with pinWait := t.pinWait.filter (· != h) }.deliverFrom h
  t.setHartAt h (t.hartAt h).rewound

/-- PRE_EMPTION of a hart that runs (R33, R99, R144, R188 to R192): it stops, the Gleaner does its part, its quads go
back, and it becomes runnable at the back of the order. None while write-backs and folds it owes cannot perform. A
member of a gang that no longer runs waits for the rest of its gang (R135).
DESIGN CHOICE: notes/assumptions/18. -/
def State.preempt (s : State) (h : Nat) : Option State :=
  let v := s.hartAt h
  if !v.asked then none
  else
  let gang := ((s.farmAt v.part v.farm).map (·.gang)).getD false
  if v.status ≠ .running || v.needsReserved.isSome || v.ending then
    let t := s.setHartAt h { v with asked := false, gangWait := v.gangWait || (gang && v.status != .running) }
    some (t.farms.foldl State.wakeGang t)
  else
    let s := (s.stopHart h).parkHart h
    if s.debts.any (·.hart == h) then none
    else
      let s := s.setHartAt h { s.hartAt h with
        asked := false, preempted := true, gangWait := gang, resumeNext := false, owedX := (s.hartAt h).pending.map (·.1) }
      some ((s.giveBack h .runnable).enqueue h)

/-- PRE_EMPTION (R188). -/
def execPreEmption (h : Nat) (s : State) : Out := .next ((s.preempt h).getD s)

/-- RESTORE of a pre-empted context (R99, R189, R191): its quads, its rows and its sheaves' lines can be had again. A
gang comes back as a whole (R135). -/
def State.restore (s : State) (h : Nat) : Option State :=
  if (s.hartAt h).preempted && s.mayResume h then
    (s.unparkHart h).map (fun s =>
      let s := s.setHartAt h { s.hartAt h with preempted := false, owedX := [] }
      let s := s.regrant h
      s.farms.foldl State.wakeGang s)
  else none

/-- RESTORE (R191). -/
def execRestore (h : Nat) (s : State) : Out := .next ((s.restore h).getD s)

/-- Harts of partition p that run, by `HARTID` ascending. -/
def State.runningList (s : State) (p : Nat) : List Nat :=
  (List.range (16 * s.caps.steads)).filter (fun h => (s.hartAt h).part == p && (s.hartAt h).status == .running &&
    (s.hartAt h).needsReserved.isNone && !(s.hartAt h).gangWait)

/-- Some context of partition p waits and none of them can be given its quads (R144).
DEDUCED: notes/assumptions/30. -/
def State.oversubscribed (s : State) (p : Nat) : Bool :=
  let o := (s.partAt p).order
  !o.isEmpty && o.all (fun h => !s.mayResume h)

/-- The slice of partition p that stands has run its time (R140, R144). -/
def State.sliceOver (s : State) (p : Nat) : Bool :=
  match (s.partAt p).sliceStart with
  | none => false
  | some t => decide (t + 3600 * (s.partAt p).record.slice ≤ s.clk)

/-- SLICE_END (R144, R151): slices run while contexts wait; at the end of each, PREEMPT is posted with the waiting
context of least charge in field 3. The spec does not say which context field 2 suggests, nor which of two of equal
charge is named: the model takes the running context of greatest charge since its dispatch, 0 when none runs, the
first of equals by `HARTID` there and the first in the partition's order in field 3.
DESIGN CHOICE: notes/assumptions/41. -/
def execSliceEnd (p : Nat) (s : State) : Out :=
  let v := s.partAt p
  if !s.oversubscribed p then .next (s.setPartAt p { v with sliceStart := none })
  else if v.sliceStart.isNone then .next (s.setPartAt p { v with sliceStart := some s.clk })
  else if !s.sliceOver p then .next s
  else
    let victim := bestOf (fun h => ((s.hartAt h).sinceDispatch : Int)) (s.runningList p)
    let waiting := bestOf (fun h => -((s.hartAt h).lanecyc : Int)) v.order
    .next ((s.setPartAt p { v with sliceStart := some s.clk }).postPolicy p
      { kind := 2, f2 := victim.getD 0, f3 := waiting.getD 0, named := victim.isSome })

/- The end of a hart. -/

/-- The current hart's slots close as far as they can (R201, R281), and whether all have. In a farm that is stopped, a
send slot that would wait for its peer unbinds. -/
def State.closeSlots (s : State) : List ZIx → State × Bool
  | [] => (s, true)
  | z :: zs => match s.closeSlot s.cur z with
    | .done t => t.closeSlots zs
    | .waits =>
      if s.hart.ending then (s.setSlot s.cur z (s.slotAt s.cur z).unbind).closeSlots zs
      else ((s.closeSlots zs).1, false)

/-- A partition gives its slot on a stead back when no hart of it is placed there (R36). -/
def State.dropSlot (s : State) (p st : Nat) : State :=
  if (s.hartsOn st).any (fun h => (s.hartAt h).part == p && (s.hartAt h).placed) then s
  else s.setPartAt p { s.partAt p with slots := aerase (s.partAt p).slots st }

/-- The current hart ends (R45, R77, R142, R253, R281): its rows and quads go back first.
DEDUCED: notes/assumptions/31. -/
def State.endHart (s : State) : State :=
  let h := s.hart
  let me := s.cur
  let s := s.giveBack me .ended
  let s := { s with pinWait := s.pinWait.filter (· != me) }
  let s := s.setHartAt me { Hart.reset with status := .ended, grant := 0, part := h.part }
  let v := s.partAt h.part
  let s := s.setPartAt h.part { v with order := v.order.filter (· != me) }
  let s := match s.farmAt h.part h.farm with
    | some g =>
      if g.harts.contains me then s.setFarm { g with harts := g.harts.filter (· != me), exited := g.exited ++ [me] }
      else s
    | none => s
  ((s.farms.foldl State.wakeGang s).settleBudget h.part (steadOf me)).dropSlot h.part (steadOf me)

/-- EXIT after its sheaves are cleared: they leave, the slots close, then the strip, then the release, then the hart
ends (R281).
DEDUCED: notes/assumptions/30. -/
def exitTail (s : State) : Out :=
  if s.sheaves.any (·.hart == s.cur) || s.sendHeld then stallCtl s
  else
    let c := s.closeSlots (List.finRange 8)
    if !c.2 then stallCtl c.1
    else
      let t := c.1.closeStrip
      if t.releaseReady then .next t.endHart else stallCtl t

/-- EXIT (R281, R259). A hart that the scheduler stops drops its blocks and passes no event delivery (R155, R184). -/
def execExit (s : State) : Out :=
  let waits (s : State) : Out :=
    if !s.hart.blocksDone || !s.hart.pending.isEmpty || s.ops.any (·.hart == s.cur) then stallCtl s
    else
      let s := s.withHart { s.hart with exiting := true }
      exitTail ((List.range 16).foldl (fun s r => s.clearReg s.cur r) s)
  if s.hart.exiting then exitTail s
  else if s.hart.ending then waits (s.withHart { s.hart with
    queue := [], trapWait := none, asked := false,
    vq := (s.hart.vq.map (fun r => { r with last := none })).filter (fun r => !r.todo.isEmpty) })
  else synchronise s (waits s)

end Sys2Proof.Machine
end

