-- ==== Sys2Proof/Machine/Remote.lean ====
section
/-!
DEFINITION. Accesses of other chips to the pages this chip exports, and the intake tiers that hold them (R113, R205 to
R207); the intake bin headers (R146, R383).
-/

namespace Sys2Proof.Machine

/- Intake bins. -/

/-- Device virtual address of the header of bin i (R146). -/
def State.binAddr (s : State) (p i : Nat) : Word := BitVec.ofNat 64 ((s.partAt p).record.bins + 64 * i)

/-- The header of bin i of partition p (R146). -/
def State.binHeader (s : State) (p i : Nat) : Except Fail Nat :=
  match s.fetchBytes p (s.binAddr p i) 32 with
  | .error e => .error e
  | .ok bs => .ok (ofBytes bs)

/-- The head of bin i as the scheduler keeps it, or takes it from the header at first (R383). -/
def State.binHead (s : State) (p i header : Nat) : Nat :=
  (((s.partAt p).bins[i]?).bind (·.head)).getD (field header 192 64)

/-- What the scheduler keeps of bin i. -/
def State.binAt (s : State) (p i : Nat) : Bin := ((s.partAt p).bins[i]?).getD {}

/-- Replaces what the scheduler keeps of bin i. -/
def State.setBin (s : State) (p i : Nat) (b : Bin) : State :=
  let v := s.partAt p
  s.setPartAt p { v with bins := ((List.range 16).map (fun j => (v.bins[j]?).getD {})).set i b }

/- Exports. -/

/-- Fields of an export entry (R206). -/
def Export.valid (e : Export) : Bool := e.low.getLsbD 63
/-- The tier is gated by an intake bin. -/
def Export.intake (e : Export) : Bool := e.low.getLsbD 62
/-- The intake bin. -/
def Export.bin (e : Export) : Nat := field e.low.toNat 58 4
/-- The watchdog period in µs. -/
def Export.wdog (e : Export) : Nat := field e.low.toNat 32 26
/-- Blocks in the tier. -/
def Export.blocks (e : Export) : Nat := field e.low.toNat 0 32

/-- The partition of a tenant that exports a tier, with the entry (R113, R206). -/
def State.exportOf (s : State) (tenant tier : Nat) : Option (Nat × Export) :=
  match alookup s.exports (8 * tenant + tier) with
  | some e => if e.valid && decide (tier < 8) then some (e.part, e) else none
  | none => none

/-- A remote access resolved: its partition, its export entry and the far address of its first byte, when the block is
exported and the access stays in it (R113). -/
def State.resolveRemote (s : State) (r : RemoteReq) (n : Nat) : Option (Nat × Export × Word) :=
  match s.exportOf r.tenant r.tier with
  | none => none
  | some (p, e) =>
    if r.block < e.blocks && decide (r.off + n ≤ 65536) then
      some (p, e, e.base + BitVec.ofNat 64 (65536 * r.block + r.off))
    else none

/-- Bytes that a remote access covers. -/
def remoteBytes (op : RemoteOp) : Nat :=
  match op with
  | .read n => n
  | .write bs => bs.length
  | .fold f _ => ((Fmt.ofCode f.toNat).map Fmt.bytes).getD 0

/-- A remote write-back or fold performs in one step (R205). One that fails is the sender's to report; a write-back
fails on any poisoned line, one that it covers whole included (R210). -/
def State.performRemote (s : State) (p : Nat) (a : Word) (op : RemoteOp) : State :=
  let w : Who := ⟨p, (s.partAt p).record.tenant⟩
  match op with
  | .read n =>
    match s.accessAt w a n 0 .rd with
    | .error e => s.tellFault p noHart e
    | .ok _ => s
  | .write bs =>
    match s.locate w (true, a) bs.length 0 .wr with
    | .error e => s.tellFault p noHart e
    | .ok pas =>
      match s.meetsPoison pas false with
      | [] => s.store pas bs
      | ls => s.tellFault p noHart ⟨.poison, a, ls⟩
  | .fold c v =>
    match Fmt.ofCode c.toNat with
    | none => s
    | some f =>
      if f.bytes = 0 then s
      else match s.accessAt w a f.bytes 0 .fold with
        | .error e => s.tellFault p noHart e
        | .ok pas => s.writeAll pas (toBytes f.bytes (foldResult f (ofBytes (s.readAll pas)) (v.toNat % 1 <<< f.width)))

/-- Ticket i of bin b lies in [head, head + cap), so that a remote write to block i may perform (R207); a header that
cannot be read lets none perform. -/
def State.ticketOpen (s : State) (p b i : Nat) : Bool :=
  match s.binHeader p b with
  | .error _ => false
  | .ok h =>
    let head := s.binHead p b h
    decide (head ≤ i) && decide (i < head + field h 64 32)

/-- REMOTE_ACCESS (R205, R207): a read only answers; a write-back or a fold performs, or is held by its intake tier.
DESIGN CHOICE: notes/assumptions/46. -/
def execRemoteAccess (r : RemoteReq) (s : State) : Out :=
  match s.resolveRemote r (remoteBytes r.op) with
  | none => .next s
  | some (p, e, a) =>
    let writes := match r.op with | .read _ => false | _ => true
    if writes && e.intake && !s.ticketOpen p e.bin r.block then
      let x := s.fresh
      .next { x.2 with held := x.2.held ++ [{ id := x.1, part := p, bin := e.bin, req := r, since := s.time }] }
    else .next (s.performRemote p a r.op)

/-- A held write may perform (R207): the head has reached it, and no earlier one to its block is held.
DEDUCED: notes/assumptions/46. -/
def State.heldReady (s : State) (h : HeldWrite) : Bool :=
  s.ticketOpen h.part h.bin h.req.block &&
    (s.held.takeWhile (·.id != h.id)).all (fun g => g.part != h.part || g.bin != h.bin || g.req.block != h.req.block)

/-- The held write of number id performs, when it may (R118, R207). -/
def State.performHeld (s : State) (id : Nat) : State :=
  match s.held.find? (fun h => h.id == id && s.heldReady h) with
  | none => s
  | some h =>
    let s := { s with held := s.held.filter (·.id != h.id) }
    match s.resolveRemote h.req (remoteBytes h.req.op) with
    | none => s
    | some (p, _, a) => s.performRemote p a h.req.op

/-- The watchdog of a held write has run out (R207). -/
def State.watchdogDue (s : State) (h : HeldWrite) : Bool :=
  let wdog := ((alookup s.exports (8 * h.req.tenant + h.req.tier)).map (·.wdog)).getD 0
  !h.expired && wdog != 0 && decide (h.since + 1000 * wdog ≤ s.time)

/-- INTAKE_WATCHDOG of held write id (R207): the exporting partition's policy is told, with the oldest farm launched
from the bin that has not completed as the event's farm; the write stays held.
DEDUCED: notes/assumptions/46. -/
def execIntakeWatchdog (id : Nat) (s : State) : Out :=
  match s.held.find? (fun h => h.id == id && s.watchdogDue h) with
  | none => .next s
  | some h =>
    let s := { s with held := s.held.map (fun (g : HeldWrite) => if g.id == id then { g with expired := true } else g) }
    let farm := ((s.farms.find? (fun g => g.part == h.part && g.fromBin == some h.bin)).map (·.id)).getD 0
    .next (s.postPolicy h.part { kind := 3, cause := causeCode .engine, f3 := farm, f5 := h.bin })

end Sys2Proof.Machine
end

