-- ==== Sys2Proof/Machine/Policy.lean ====
section
/-!
DEFINITION. Rake policies: their images, decisions, the fall-back policy, intake launches, `PSWAP`, and the retirement
of sequences that a decision may ask for (R146 to R159, R322, R383).
-/

namespace Sys2Proof.Machine

/- Images (R153, R154, R158). -/

/-- Bits lo up of a rake instruction, n of them. -/
def rakeField (w : BitVec 16) (lo n : Nat) : Nat := field w.toNat lo n

/-- Opcode of a rake instruction (R153). -/
def rakeOp (w : BitVec 16) : Nat := rakeField w 11 5

/-- The instruction is defined and its reserved bits are zero (R153). -/
def rakeOk (w : BitVec 16) : Bool :=
  match rakeOp w with
  | 0x00 => rakeField w 0 11 = 0
  | 0x01 | 0x02 | 0x14 => true
  | 0x03 | 0x04 => rakeField w 5 3 = 0
  | 0x05 | 0x06 | 0x07 | 0x08 | 0x09 | 0x0A | 0x0B | 0x0D => rakeField w 0 2 = 0
  | 0x0C | 0x0E => rakeField w 3 5 = 0
  | 0x0F | 0x10 => rakeField w 4 4 = 0
  | 0x11 | 0x12 | 0x18 => rakeField w 8 3 = 0 && rakeField w 0 2 = 0
  | 0x13 => decide (rakeField w 8 3 ≤ 4)
  | 0x15 | 0x16 => rakeField w 0 8 = 0
  | 0x17 => rakeField w 3 8 = 0
  | _ => false

/-- The bodies of an image: where each `LOOPQ` stands, and its length (R154). -/
def rakeBodies (img : List (BitVec 16)) : List (Nat × Nat) :=
  (img.zipIdx.filter (fun e => rakeOp e.1 == 0x14)).map (fun e => (e.2, rakeField e.1 0 8))

/-- Position t lies in the body of the `LOOPQ` b. -/
def inBody (b : Nat × Nat) (t : Nat) : Bool := decide (b.1 < t) && decide (t ≤ b.1 + b.2)

/-- Instruction i of an image passes the checks of R158. Where a body holds a `LOOPQ`, the spec does not say which of
the two fails the check: the model takes the outer one, in whose body the other stands.
DESIGN CHOICE: notes/assumptions/42. -/
def rakePasses (img : List (BitVec 16)) (w : BitVec 16) (i : Nat) : Bool :=
  let bs := rakeBodies img
  rakeOk w &&
    (if rakeOp w = 0x14 then
      decide (i + rakeField w 0 8 < img.length) && !bs.any (fun b => inBody (i, rakeField w 0 8) b.1)
    else if rakeOp w = 0x13 then
      let t := i + 1 + rakeField w 0 8
      decide (t < img.length) && !bs.any (fun b => inBody b t && !inBody b i)
    else true)

/-- The first instruction of an image that fails a check (R158). -/
def rakeCheck (img : List (BitVec 16)) : Option Nat :=
  (img.zipIdx.find? (fun e => !rakePasses img e.1 e.2)).map (·.2)

/- Snapshots (R152). -/

/-- An intake bin as the scheduler reads it (R146, R152): array, cap, queue weight, head, ready entries and the bytes
of the head entry. -/
structure BinView where
  array : Word
  cap : Nat
  qweight : Nat
  head : Nat
  ready : Nat
  entry : Nat
  deriving DecidableEq, Repr

/-- The far address of the entry for ticket t (R146). -/
def BinView.entryAddr (b : BinView) (t : Nat) : Word := b.array + BitVec.ofNat 64 (64 * (t % b.cap))

/-- The entry bytes e hold ticket t, ready (R147). -/
def readyFor (e t : Nat) : Bool := e.testBit 63 && field e 0 32 == t % 1 <<< 32

/-- An entry of an intake bin. -/
def State.readEntry (s : State) (p : Nat) (a : Word) : Except Fail Nat :=
  match s.engineRead ⟨p, (s.partAt p).record.tenant⟩ a 64 with
  | .error e => .error e
  | .ok bs => .ok (ofBytes bs)

/-- Ready entries from ticket t on, in order (R152). -/
def State.readyRun (s : State) (p : Nat) (b : BinView) (t : Nat) : Nat → Nat
  | 0 => 0
  | n + 1 =>
    match s.readEntry p (b.entryAddr t) with
    | .ok e => if readyFor e t then 1 + s.readyRun p b (t + 1) n else 0
    | .error _ => 0

/-- Bin i of partition p, or the address whose read failed with why (R152, R383). -/
def State.binView (s : State) (p i : Nat) : Except (Word × Fail) BinView :=
  match s.binHeader p i with
  | .error e => .error (s.binAddr p i, e)
  | .ok h =>
    let b : BinView := { array := BitVec.ofNat 64 (field h 0 64), cap := field h 64 32, qweight := field h 96 32,
                         head := s.binHead p i h, ready := 0, entry := 0 }
    if b.cap = 0 then .ok b
    else match s.readEntry p (b.entryAddr b.head) with
      | .error e => .error (b.entryAddr b.head, e)
      | .ok e => .ok { b with ready := s.readyRun p b b.head (min 255 b.cap), entry := e }

/-- Bins of a partition (R140). -/
def State.binCount (s : State) (p : Nat) : Nat := (s.partAt p).record.nq

/-- Farms launched from bin i that have not completed (R152).
DESIGN CHOICE: notes/assumptions/59. -/
def State.binFarms (s : State) (p i : Nat) : Nat := s.farms.countP (fun g => g.part == p && g.fromBin == some i)

/-- The queue fields of bin i (R152); they read 0 where a read failed (R383).
DESIGN CHOICE: notes/assumptions/59. -/
def State.queueFields (s : State) (p i : Nat) : List Nat :=
  match s.binView p i with
  | .error _ => List.replicate 8 0
  | .ok b =>
    let head := fun (n : Nat) => if b.ready = 0 then 0 else n
    [b.ready, head (field b.entry 192 32), head (field b.entry 224 32),
     head (min ((s.time - field b.entry 256 64) / 1000) 0x7FFFFFFF), (s.binAt p i).credit.toNat, b.cap, s.binFarms p i,
     b.qweight]

/-- The partition fields (R152), on stead st. -/
def State.partFields (s : State) (p st : Nat) : List Nat :=
  let v := s.partAt p
  [(s.runningList p).length, v.record.hceil, v.pages, v.record.quota, v.record.nq,
   s.hartIds.countP (fun h => (s.hartAt h).part == p &&
     ((s.hartAt h).status == .running || (s.hartAt h).status == .runnable)),
   v.budgetOn st - s.quadsOf p st, (BitVec.ofInt 32 (v.need s.millisecond)).toNat]

/-- The fields of an event (R151). -/
def State.eventFields (s : State) (e : PolEvent) : List Nat :=
  [e.kind, if e.kind = 3 then e.cause else 0, e.f2, e.f3, e.f4, e.f5,
   if e.named then (s.hartAt e.f2).sinceDispatch else 0, s.time / 1024]

/-- What a decision sees (R152). -/
structure Snapshot where
  event : List Nat
  queues : List (List Nat)
  part : List Nat
  deriving DecidableEq, Repr

/-- The snapshot of a decision on event e (R152); the stead is that of the context that field 2 names. -/
def State.snapshot (s : State) (p : Nat) (e : PolEvent) : Snapshot :=
  { event := s.eventFields e
    queues := (List.range (s.binCount p)).map (s.queueFields p)
    part := s.partFields p (if e.named then steadOf e.f2 else 0) }

/- Running an image (R153 to R156). -/

/-- The registers of a decision, its outputs and its loop: register, body start, body end, pass. -/
structure Rake where
  pc : Nat := 0
  a : List (BitVec 32) := List.replicate 8 0
  m : List (BitVec 32)
  credit : List (BitVec 32)
  eq : Bool := false
  lt : Bool := false
  pick : Option Nat := none
  victim : Option Nat := none
  act : Option Nat := none
  loop : Option (Nat × Nat × Nat × Nat) := none
  deriving DecidableEq, Repr

/-- Register i. -/
def Rake.get (r : Rake) (i : Nat) : BitVec 32 := r.a.getD i 0
/-- Writes register i. -/
def Rake.put (r : Rake) (i : Nat) (v : BitVec 32) : Rake := { r with a := r.a.set i v }

/-- Where a loop stands before the instruction at `pc` (R154): the end of its body starts the next pass, and a position
past it leaves the loop.
DEDUCED: notes/assumptions/40. -/
def Rake.loopBack (r : Rake) (nq : Nat) : Rake :=
  match r.loop with
  | none => r
  | some (ad, start, stop, q) =>
    if r.pc = stop then
      if q + 1 < nq then { r.put ad (BitVec.ofNat 32 (q + 1)) with pc := start, loop := some (ad, start, stop, q + 1) }
      else { r with loop := none }
    else if stop < r.pc then { r with loop := none }
    else r

/-- An arithmetic operation of R153. -/
def rakeAlu (op : Nat) (x y : BitVec 32) : BitVec 32 :=
  match op with
  | 0x05 => x + y
  | 0x06 => x - y
  | 0x07 => x &&& y
  | 0x08 => x ||| y
  | 0x09 => x ^^^ y
  | 0x0A => if x.ult y then x else y
  | _ => if x.ult y then y else x

/-- The condition of a branch (R153). -/
def Rake.cond (r : Rake) (c : Nat) : Bool :=
  match c with
  | 0 => true
  | 1 => r.eq
  | 2 => !r.eq
  | 3 => r.lt
  | _ => !r.lt

/-- One rake instruction, `pc` already past it; none makes the decision invalid. -/
def Rake.one (r : Rake) (sn : Snapshot) (w : BitVec 16) : Option Rake :=
  let d := rakeField w 8 3
  let a := r.get (rakeField w 5 3)
  let t := r.get (rakeField w 2 3)
  let get (l : List Nat) (i : Nat) : BitVec 32 := BitVec.ofNat 32 (l.getD i 0)
  let nq := sn.queues.length
  let op := rakeOp w
  if op = 0x01 then some (r.put d (BitVec.ofNat 32 (rakeField w 0 8)))
  else if op = 0x02 then some (r.put d (r.get d + (BitVec.ofNat 8 (rakeField w 0 8)).signExtend 32))
  else if op = 0x03 then some (r.put d (r.get d <<< rakeField w 0 5))
  else if op = 0x04 then some (r.put d (r.get d >>> rakeField w 0 5))
  else if 0x05 ≤ op ∧ op ≤ 0x0B then some (r.put d (rakeAlu op a t))
  else if op = 0x0C then some (r.put d (get sn.event (rakeField w 0 3)))
  else if op = 0x0D then some (r.put d (get (sn.queues.getD a.toNat []) (rakeField w 2 3)))
  else if op = 0x0E then some (r.put d (get sn.part (rakeField w 0 3)))
  else if op = 0x0F then some (r.put d (r.m.getD (rakeField w 0 4) 0))
  else if op = 0x10 then some { r with m := r.m.set (rakeField w 0 4) (r.get d) }
  else if op = 0x11 then some { r with eq := a == t, lt := a.ult t }
  else if op = 0x12 then some { r with eq := a == t, lt := a.slt t }
  else if op = 0x13 then some (if r.cond (rakeField w 8 3) then { r with pc := r.pc + rakeField w 0 8 } else r)
  else if op = 0x14 then
    let n := rakeField w 0 8
    if nq = 0 then some { r with pc := r.pc + n }
    else if n = 0 then some (r.put d (BitVec.ofNat 32 (nq - 1)))
    else some { r.put d 0 with loop := some (d, r.pc, r.pc + n, 0) }
  else if op = 0x15 then some { r with pick := some (r.get d).toNat }
  else if op = 0x16 then some { r with victim := some (r.get d).toNat }
  else if op = 0x17 then some { r with act := some (rakeField w 0 3) }
  else if nq ≤ a.toNat then none
  else some { r with credit := r.credit.set a.toNat (r.credit.getD a.toNat 0 - t) }

/-- Runs an image to `DONE`; none on a 257th instruction, past the end, or in an invalid decision (R156). -/
def Rake.run (sn : Snapshot) (img : List (BitVec 16)) : Nat → Rake → Option Rake
  | 0, _ => none
  | n + 1, r =>
    let r := r.loopBack sn.queues.length
    match img[r.pc]? with
    | none => none
    | some w => if rakeOp w = 0 then some r else ({ r with pc := r.pc + 1 }.one sn w).bind (Rake.run sn img n)

/-- The outputs of a decision match its event (R155); one that `ACT #0` hands on is valid whatever else it put out.
DEDUCED: notes/assumptions/40. -/
def State.outputsOk (s : State) (p : Nat) (e : PolEvent) (sn : Snapshot) (r : Rake) : Bool :=
  r.act == some 0 ||
    match e.kind with
    | 1 => r.victim.isNone && r.act.isNone &&
        (match r.pick with | none => true | some b => (sn.queues.getD b []).getD 0 0 != 0)
    | 2 => r.pick.isNone && r.act.isNone && (match r.victim with | none => true | some h => (s.runningList p).contains h)
    | 3 => r.pick.isNone && r.victim.isNone && (match r.act with | none => true | some a => decide (a ≤ 4))
    | 4 => r.pick.isNone && r.victim.isNone && (match r.act with | none => true | some a => decide (a ≤ 2))
    | _ => r.pick.isNone && r.victim.isNone && r.act.isNone

/- The fall-back policy (R157). -/

/-- What a decision has put out (R155): a bin, a context, an action. -/
structure Output where
  pick : Option Nat := none
  victim : Option Nat := none
  act : Option Nat := none
  deriving DecidableEq, Repr

/-- The fall-back decision on an event (R157). -/
def State.fallback (s : State) (p : Nat) (e : PolEvent) (sn : Snapshot) : Output :=
  match e.kind with
  | 1 =>
    let ready := (List.range sn.queues.length).filter (fun b => (sn.queues.getD b []).getD 0 0 != 0)
    { pick := bestOf (fun b => (((sn.queues.getD b []).getD 3 0 : Nat) : Int)) ready }
  | 2 =>
    match bestOf (fun h => ((s.hartAt h).sinceDispatch : Int)) (s.runningList p) with
    | none => {}
    | some h =>
      if (s.partAt p).order.contains e.f3 && decide ((s.hartAt e.f3).lanecyc < (s.hartAt h).lanecyc) then
        { victim := some h } else {}
  | 3 => { act := some (if e.cause = causeCode .poison then 4 else 1) }
  | 4 => { act := some (if sn.part.getD 2 0 < sn.part.getD 3 0 then 1 else 2) }
  | _ => {}

/- Decisions. -/

/-- POLICY_ACTIVATION (R158): at a decision boundary the shadow copy becomes active; the counts and the enable bit
follow. -/
def Policy.activate (y : Policy) : Policy :=
  match y.shadow with
  | none => y
  | some img => { y with active := some img, shadow := none, count := 0, disabled := false }

/-- An overrun counts, and the 16th disables the policy (R156, R159). -/
def Policy.overrun (y : Policy) : Policy :=
  { y with count := min (y.count + 1) 16, total := min (y.total + 1) 0xFFFFFFFF,
           disabled := y.disabled || decide (16 ≤ y.count + 1) }

/-- Credits of the bins of a partition. -/
def State.credits (s : State) (p : Nat) : List (BitVec 32) := (List.range 16).map (fun i => (s.binAt p i).credit)

/-- The effects of `DONE` on the words and credits (R152). -/
def State.keepRake (s : State) (p : Nat) (r : Rake) : State :=
  let s := (List.range (s.binCount p)).foldl (fun s i =>
    s.setBin p i { s.binAt p i with credit := r.credit.getD i 0 }) s
  let v := s.partAt p
  s.setPartAt p { v with policy := { v.policy with m := r.m } }

/-- One decision on an event (R151 to R158): the policy's words and counts after it, and the outputs that stand. -/
def State.decideEvent (s : State) (p : Nat) (e : PolEvent) : State × Output :=
  let v := s.partAt p
  let s := s.setPartAt p { v with policy := v.policy.activate }
  let y := (s.partAt p).policy
  let sn := s.snapshot p e
  match (if y.disabled then none else y.active) with
  | none => (s, s.fallback p e sn)
  | some img =>
    match (Rake.run sn img 256 { m := y.m, credit := s.credits p }).filter (s.outputsOk p e sn) with
    | none =>
      let v := s.partAt p
      (s.setPartAt p { v with policy := v.policy.overrun }, s.fallback p e sn)
    | some r =>
      let t := s.keepRake p r
      if r.act = some 0 || (e.kind = 3 && r.act.isNone) then (t, s.fallback p e sn)
      else (t, { pick := r.pick, victim := r.victim, act := r.act })

/- Retiring a sequence (R149). -/

/-- The device virtual page of the line behind a directory entry. -/
def State.linePage (s : State) (part : Nat) (a : Word) : Option Nat :=
  (s.region ⟨part, (s.partAt part).record.tenant⟩ (a.toNat >>> 48)).map (fun r => (r.base + a.toNat % 1 <<< 48) / 65536)

/-- Lines and debts of retired pages are discarded when they are written back (R149). -/
def State.killPages (s : State) (p : Nat) (pages : List Nat) : State :=
  let gone := fun (a : Word) => match s.linePage p a with | some pg => pages.contains pg | none => false
  { s with lines := s.lines.map (fun l =>
      match l.key with
      | .far q _ _ | .fold q _ _ _ => if q = p && gone l.key.addr then { l with dead := true } else l
      | .own sid _ _ | .gath sid _ =>
        if (s.sheaves.any (fun sh => sh.sid == sid && sh.part == p)) && gone l.key.addr then { l with dead := true } else l
      | _ => l)
           debts := s.debts.map (fun d => if d.part = p && !d.key.isRemote && gone d.addr then { d with dead := true } else d) }

/-- The device takes back the page it has mapped at a device virtual page and its intermediate page (R149). -/
def State.unmapPage (s : State) (p va ia : Nat) : State :=
  let pg := (s.mapped2 p (ia * 65536)).join.map (· / 65536)
  let v := s.partAt p
  let s := s.setPartAt p { v with pages := v.pages - 1 }
  { s with over1 := s.over1.filter (fun m => !(m.1 == p && m.2.1 == va))
           over2 := (p, ia, none) :: s.over2.filter (fun m => !(m.1 == p && m.2.1 == ia))
           pool := s.pool ++ pg.toList }.rewatch p

/-- A sequence is retired (R149): its pages are unmapped and go back to the device pool, its pins go, and RETIRE is
posted with the hart and farm that asked, whose instruction names register xd. -/
def State.retireSeq (s : State) (p q : Nat) (asker : Option (Nat × Nat)) (xd : Nat) : State :=
  match (s.partAt p).seqs.find? (·.id == q) with
  | none => s
  | some x =>
    let s := s.dropPins p (some q) (asker.map (fun a => (a.1, xd)))
    let v := s.partAt p
    let s := s.setPartAt p { v with seqs := v.seqs.filter (·.id != q) }
    let s := s.killPages p (x.pages.map (·.1))
    let s := x.pages.foldl (fun s e => s.unmapPage p e.1 e.2) s
    let a := asker.getD (0, 0)
    s.postPolicy p { kind := 5, f2 := a.1, f3 := a.2, f4 := q, named := asker.isSome }

/- Intake launches (R147, R383). -/

/-- A write of the scheduler on its own account that failed is posted with the farm it launched (R383). -/
def State.schedulerFails (s : State) (p farm : Nat) (a : Word) : State :=
  s.postPolicy p { kind := 3, cause := causeCode .engine, f3 := farm, f5 := a.toNat % 1 <<< 32 }

/-- A write of the scheduler at a far address (R383). -/
def State.schedulerWrite (s : State) (p farm : Nat) (a : Word) (bs : List Byte) : State :=
  match s.engineWrite ⟨p, (s.partAt p).record.tenant⟩ a bs with
  | .ok t => t
  | .error e => (s.tellFault p noHart e).schedulerFails p farm a

/-- The scheduler's write of a bin header's head (R147, R383). -/
def State.writeHead (s : State) (p farm i : Nat) (bs : List Byte) : State :=
  let a := s.binAddr p i + 24
  match s.translate p .wr a.toNat with
  | .ok pa =>
    let pas := (List.range 8).map (pa + ·)
    match s.meetsPoison pas true with
    | [] => s.store pas bs
    | ls => (s.tellFault p noHart ⟨.poison, a, ls⟩).schedulerFails p farm a
  | .stage1 => s.schedulerFails p farm a
  | .stage2 ia => (s.tellFault p noHart ⟨.xfault, stage2Eval ia, []⟩).schedulerFails p farm a

/-- The scheduler owes a write from now on (R118). -/
def State.oweWrite (s : State) (w : OwedWrite) : State :=
  let r := s.fresh
  { r.2 with schedWrites := r.2.schedWrites ++ [{ w with id := r.1 }] }

/-- The write of number id that the scheduler owes performs, when it is the first of its partition (R118, R147). -/
def State.performOwed (s : State) (id : Nat) : State :=
  match s.schedWrites.find? (·.id == id) with
  | none => s
  | some w =>
    if (s.schedWrites.takeWhile (·.id != id)).any (·.part == w.part) then s
    else
      let s := { s with schedWrites := s.schedWrites.filter (·.id != id) }
      match w.head with
      | some b => s.writeHead w.part w.farm b w.bytes
      | none => s.schedulerWrite w.part w.farm w.addr w.bytes

/-- The launch of a sheet for an intake entry (R147): the farm, or the reason of its refusal. -/
def State.launchEntry (s : State) (p b : Nat) (sheet batch : Word) : State × Except Nat Nat :=
  match s.accessAt ⟨p, (s.partAt p).record.tenant⟩ sheet 64 64 .rd with
  | .error e => (s.tellFault p noHart e, .error 3)
  | .ok pas =>
    match s.acceptSheet p (ofBytes (s.readAll pas)) (some batch) none (some b) none with
    | .error r => (s, .error r)
    | .ok (t, f) => (t, .ok f)

/-- INTAKE_LAUNCH of bin b (R147, R383): the head entry is launched and the head advanced; the scheduler then owes the
reason of a refusal, the cleared ready word and the header's head, each in a step of its own (R118). -/
def State.intakeLaunch (s : State) (p b : Nat) : State :=
  match s.binView p b with
  | .error _ => s
  | .ok v =>
    if v.ready = 0 then s
    else
      let a := v.entryAddr v.head
      let r := s.launchEntry p b (BitVec.ofNat 64 (field v.entry 64 64)) (BitVec.ofNat 64 (field v.entry 128 64))
      let farm := match r.2 with | .ok f => f | .error _ => 0
      let next := (v.head + 1) % 1 <<< 64
      let s := r.1.setBin p b { r.1.binAt p b with head := some next }
      let s := match r.2 with
        | .ok _ => s
        | .error why => s.oweWrite { part := p, farm := 0, addr := a + 32, bytes := toBytes 1 why }
      (s.oweWrite { part := p, farm := farm, addr := a, bytes := toBytes 8 0 }).oweWrite
        { part := p, farm := farm, head := some b, bytes := toBytes 8 next }

/-- What is applied of a decision (R155). The spec gives the move of pins that `ACT 4` asks for only on a FAULT whose
cause is POISON (R170): on any other the model does nothing.
DESIGN CHOICE: notes/assumptions/41. -/
def State.applyOutput (s : State) (p : Nat) (e : PolEvent) (o : Output) : State :=
  match e.kind with
  | 1 => match o.pick with | some b => s.intakeLaunch p b | none => s
  | 2 => match o.victim with | some h => s.askPreempt h | none => s
  | 3 =>
    match o.act with
    | some 2 => s.retireSeq p e.f4 none 0
    | some 3 => s.stopFarm p e.f3
    | some 4 => if e.cause = causeCode .poison then s.repin p e.aux e.f4 e.f5 else s
    | _ => s
  | _ => s

/-- The scheduler looks at the bins of a partition (R383): a head is taken from its header at first; a read that fails
is posted once, until one succeeds. -/
def State.pollBins (s : State) (p : Nat) : State :=
  (List.range (s.binCount p)).foldl (fun s i =>
    let b := s.binAt p i
    match s.binView p i with
    | .ok v => if b.head = some v.head && !b.posted then s else s.setBin p i { b with head := some v.head, posted := false }
    | .error (a, e) =>
      if b.posted then s else ((s.tellVirtual p noHart a e).setBin p i { b with posted := true }).schedulerFails p 0 a) s

/-- Free harts of a partition, and its bins with a ready head, by head (R151). -/
def State.dispatchable (s : State) (p : Nat) : Option (Nat × List Nat) :=
  let free := (s.partAt p).record.hceil - s.running p
  let heads := (List.range (s.binCount p)).filterMap (fun i =>
    match s.binView p i with
    | .ok v => if v.ready = 0 then none else some (17 * v.head + i)
    | .error _ => none)
  if free = 0 || heads.isEmpty then none else some (free, heads)

/-- The next event to decide: the oldest posted, or DISPATCH when harts are free and a head is ready, and that has not
been decided already with no launch (R151). -/
def State.nextPolicyEvent (s : State) (p : Nat) : Option PolEvent :=
  match (s.partAt p).events with
  | e :: _ => some e
  | [] =>
    match s.dispatchable p with
    | none => none
    | some d => if (s.partAt p).idleAt = some d then none else some { kind := 1, f2 := d.1 }

/-- The scheduler has a decision to make for a partition, or finds a read of a bin that fails anew, or succeeds again
(R151, R383).
DEDUCED: notes/assumptions/41. -/
def State.decisionReady (s : State) (p : Nat) : Bool :=
  (s.partAt p).exists_ && ((s.nextPolicyEvent p).isSome || (List.range (s.binCount p)).any (fun i =>
    match s.binView p i with | .ok _ => (s.binAt p i).posted | .error _ => !(s.binAt p i).posted))

/-- DECISION of partition p (R151): it takes the next event, and its outputs take effect. -/
def execDecision (p : Nat) (s : State) : Out :=
  if !(s.partAt p).exists_ then .next s
  else
    let s := s.pollBins p
    match s.nextPolicyEvent p with
    | none => .next s
    | some e =>
      let v := s.partAt p
      let s := s.setPartAt p { v with events := v.events.drop 1 }
      let r := s.decideEvent p e
      let s := r.1.applyOutput p e r.2
      if e.kind = 1 then
        let v := s.partAt p
        .next (s.setPartAt p { v with idleAt := if r.2.pick.isNone then s.dispatchable p else none })
      else .next s

/-- The refusal of a launch at its acceptance, or its farm's queueing (R134, R253, R310): the scheduler reads the
sheet; a refusal answers at once, an accepted farm's xd waits for its placement. -/
def State.serveLaunch (s : State) (o : Op) (sheet : Word) : State :=
  let w : Who := ⟨o.part, o.tenant⟩
  match s.engineRead w sheet 64 with
  | .error e => (s.tellWork o.part o.hart e).failOp o 5 (causeCode e.cause) (s.failingFar w sheet 64 .rd e)
  | .ok bs =>
    match s.acceptSheet o.part (ofBytes bs) none (some (steadOf o.hart)) none (some o.oid) with
    | .error r => s.answerOp o (refusedLaunch r)
    | .ok (t, _) => t.setOp { o with phase := 1 }

/-- The service of a `PSWAP` (R158, R322): the scheduler reads and checks the image; an accepted one is the shadow
copy, and active at once when no event of the partition waits for its decision.
DEDUCED: notes/assumptions/42. -/
def State.servePswap (s : State) (o : Op) (a : Word) (n : Nat) : State :=
  let w : Who := ⟨o.part, o.tenant⟩
  match s.engineRead w a (2 * n) with
  | .error e => (s.tellWork o.part o.hart e).failOp o 5 (causeCode e.cause) (s.failingFar w a (2 * n) .rd e)
  | .ok bs =>
    let img := (List.range n).map (fun i => BitVec.ofNat 16 (ofBytes ((bs.drop (2 * i)).take 2)))
    match rakeCheck img with
    | some i => s.answerOp o (BitVec.ofNat 64 (1 + i <<< 16))
    | none =>
      let v := s.partAt o.part
      let y := { v.policy with shadow := some img }
      (s.setPartAt o.part { v with policy := if v.events.isEmpty then y.activate else y }).answerOp o 0

/-- LAUNCH_ACCEPTANCE of operation op (R150, R322): the scheduler serves the oldest of the launches and policy images
that have arrived. -/
def execLaunchAcceptance (op : Nat) (s : State) : Out :=
  match s.ops.find? Op.unservedLaunch with
  | none => .next s
  | some o =>
    if o.oid ≠ op then .next s
    else match o.kind with
      | .launch sheet => .next (s.serveLaunch o sheet)
      | .pswap a n => .next (s.servePswap o a n)
      | _ => .next s

/-- PSWAP (R158, R322): the checks of the instruction, then the hand-off. -/
def execPswap (d a b : Reg) (s : State) : Out :=
  if s.hart.level = 0 then
    faultAt s .priv (BitVec.ofNat 64 (((encode (.pswap d a b)).map (·.2)).getD 0))
  else reading [a, b] s (
    let addr := s.hart.rd a
    let n := (s.hart.rd b).toNat
    if n < 1 || 512 < n then retireWith s d 2
    else if s.heldByDeposit addr (2 * n) then stallCtl s
    else match s.accessAt s.who addr (2 * n) 64 .rd with
      | .error e => faultAccess s e
      | .ok _ => handOff d (.pswap addr n) s)

end Sys2Proof.Machine
end

