-- ==== Sys2Proof/Machine/Sequence.lean ====
section
/-!
DEFINITION. The sequence instructions SEQNEW, SEQGROW, SEQEND and SEQEND.t (R114, R148 to R150, R327, R328).
-/

namespace Sys2Proof.Machine

/-- A sequence instruction is served once every older access of its hart has performed and its `GFIND`s have answered,
after the launches that arrived before it (R125, R129, R150). -/
def served (s : State) (k : Out) : Out := if !s.accessesDone || s.findPending || !s.schedulerFree then stallCtl s else k

/-- A 64-byte sequence record (R148). -/
structure SeqRecord where
  table : Word
  cap : Nat
  pool : Nat
  nstop : Nat
  stops : List Nat
  reserved : Bool
  deriving DecidableEq, Repr

/-- The fields of a record's bytes (R148). -/
def seqRecord (w : Nat) : SeqRecord :=
  let b := fun lo n => field w (8 * lo) (8 * n)
  { table := BitVec.ofNat 64 (b 0 8), cap := b 8 4, pool := b 16 2, nstop := b 18 1,
    stops := (List.range (min 8 (b 18 1))).map (fun i => b (24 + 4 * i) 4), reserved := b 19 5 != 0 || b 56 8 != 0 }

/-- The pool handle names a region that the hart may read and write, with a base on a 64 KiB page (R328). -/
def State.poolRegion (s : State) (w : Who) (h : Nat) : Option Region :=
  if 4096 ≤ h then none else (s.region w h).filter (fun r => r.rd && r.wr && r.base % 65536 == 0)

/-- A record of `SEQNEW` is well formed (R328). -/
def State.seqRecordOk (s : State) (a : Word) (r : SeqRecord) : Bool :=
  r.cap != 0 && r.table.toNat % 4 == 0 && (s.regionFor s.who true r.table (4 * r.cap) .wr).isSome &&
    (s.poolRegion s.who r.pool).isSome && decide (r.nstop ≤ 8) && !r.reserved &&
    (s.accessAt s.who (a + 12) 4 0 .wr).toOption.isSome

/-- The lowest sequence id that is not live (R149). -/
def Part.freeSeq (v : Part) : Option Nat :=
  ((List.range (v.seqs.length + 1)).map (· + 1)).find? (fun i => v.seqs.all (·.id != i))

/-- The effect of `SEQNEW` once its record is well formed: the ADMIT decision, then the new sequence (R149). -/
def State.seqNew (s : State) (a : Word) (r : SeqRecord) : State × Nat :=
  let p := s.hart.part
  let e : PolEvent := { kind := 4, f2 := s.cur, f3 := s.hart.farm, f4 := r.nstop, named := true }
  let dec := s.decideEvent p e
  let s := dec.1
  let v := s.partAt p
  if dec.2.act = some 2 || decide (65535 ≤ v.seqs.length) then (s, 0)
  else match v.freeSeq, s.engineWrite s.who (a + 12) (toBytes 4 0) with
    | some id, .ok t =>
      let q : Seq := { id := id, hart := s.cur, farm := s.hart.farm, recAddr := a, table := r.table, cap := r.cap, len := 0,
                       pool := r.pool, stops := r.stops }
      (t.setPartAt p { t.partAt p with seqs := (t.partAt p).seqs ++ [q] }, id)
    | _, _ => (s, 0)

/-- SEQNEW (R149, R328): a malformed record answers 0 with no decision; ADMIT is decided in posting order.
DEDUCED: notes/assumptions/42. -/
def execSeqnew (d a : Reg) (s : State) : Out :=
  reading [a] s (
    let addr := s.hart.rd a
    served s (
      if s.heldByDeposit addr 64 then stallCtl s
      else if addr.toNat % 64 ≠ 0 then retireWith s d 0
      else match s.accessAt s.who addr 64 64 .rd with
        | .error e => retireWith (s.tellFault s.hart.part s.cur e) d 0
        | .ok pas =>
          let r := seqRecord (ofBytes (s.readAll pas))
          if !s.seqRecordOk addr r then retireWith s d 0
          else if !(s.partAt s.hart.part).events.isEmpty then stallCtl s
          else
            let x := s.seqNew addr r
            retireWith x.1 d (BitVec.ofNat 64 x.2)))

/-- The device virtual page of the lowest free block index of a sequence's pool, with that index (R149). -/
def State.freeBlock (s : State) (p : Nat) (q : Seq) : Option (Nat × Nat) :=
  match s.poolRegion s.who q.pool with
  | none => none
  | some r =>
    let used := (s.partAt p).seqs.flatMap (fun t => t.pages.map (·.1))
    ((List.range (min (r.length / 65536) (used.length + 1))).find? (fun i => !used.contains (r.base / 65536 + i))).map
      (fun i => (i, r.base / 65536 + i))

/-- A zeroed page of the device pool is mapped at a device virtual page; the intermediate page (R149).
DESIGN CHOICE: notes/assumptions/7. -/
def State.mapPage (s : State) (p va pg : Nat) : State × Nat :=
  let found := s.translate1 p .rd (va * 65536)
  let ia := (found.getD ((1 <<< 36 + va) * 65536)) / 65536
  let s := if found.isSome then s else { s with over1 := (p, va, ia) :: s.over1.filter (fun m => !(m.1 == p && m.2.1 == va)) }
  let s := s.cleanse ((List.range 1024).map (1024 * pg + ·))
  ({ s with over2 := (p, ia, some pg) :: s.over2.filter (fun m => !(m.1 == p && m.2.1 == ia))
            pool := s.pool.filter (· != pg)
            mem := memDropPage s.mem pg
            scrub := s.scrub.filter (· != pg) }.rewatch p, ia)

/-- A sequence grows by one block: its page, its table entry and its length (R149). -/
def State.growSeq (s : State) (p : Nat) (q : Seq) (i va pg : Nat) (entry len : List Nat) : State :=
  let r := s.mapPage p va pg
  let v := r.1.partAt p
  let q := { q with len := q.len + 1, pages := q.pages ++ [(va, r.2)] }
  let v := { v with pages := v.pages + 1, seqs := v.seqs.map (fun t => if t.id == q.id then q else t) }
  ((r.1.setPartAt p v).store entry (toBytes 4 i)).store len (toBytes 4 q.len)

/-- SEQGROW (R114, R149, R328). -/
def execSeqgrow (d a : Reg) (s : State) : Out :=
  reading [a] s (
    let p := s.hart.part
    let v := s.partAt p
    served s (
      match v.seqs.find? (fun q => q.id == (s.hart.rd a).toNat) with
      | none => retireWith s d 4
      | some q =>
        if s.heldByDeposit (q.table + BitVec.ofNat 64 (4 * q.len)) 4 || s.heldByDeposit q.recAddr 64 then stallCtl s
        else match (if q.len = q.cap then none else s.freeBlock p q) with
        | none => retireWith s d 3
        | some (i, va) =>
          if v.record.quota ≤ v.pages then
            retireWith (s.postPolicy p { kind := 3, cause := causeCode .quota, f2 := s.cur, f3 := s.hart.farm, f4 := q.id,
                                         named := true }) d 2
          else match s.pool with
            | [] => retireWith s d 1
            | pg :: _ =>
              match s.accessAt s.who (q.table + BitVec.ofNat 64 (4 * q.len)) 4 0 .wr, s.accessAt s.who (q.recAddr + 12) 4 0 .wr with
              | .error e, _ => faultAccess s e
              | _, .error e => faultAccess s e
              | .ok entry, .ok len => retireWith (s.growSeq p q i va pg entry len) d 0))

/-- SEQEND (R149): an id that is not live does nothing; the hart waits as for a release first. -/
def execSeqend (a : Reg) (s : State) : Out :=
  reading [a] s (
    let p := s.hart.part
    let id := (s.hart.rd a).toNat
    served s (
      if (s.partAt p).seqs.all (·.id != id) then retire s
      else if !s.releaseReady then stallCtl s
      else retire (s.retireSeq p id (some (s.cur, s.hart.farm)) 0)))

/-- SEQEND.t (R149): only on a stop token of the sequence; 1 when it has retired it. One whose pins cannot be taken off
their records answers as a failed operation (R385). -/
def execSeqendT (d a b : Reg) (s : State) : Out :=
  reading [a, b] s (
    let p := s.hart.part
    let id := (s.hart.rd a).toNat
    let token := (s.hart.rd b).toNat % 1 <<< 32
    served s (
      if !(s.partAt p).seqs.any (fun q => q.id == id && q.stops.contains token) then retireWith s d 0
      else if !s.releaseReady then stallCtl s
      else retireWith (s.retireSeq p id (some (s.cur, s.hart.farm)) d.val) d (if s.pinsStay p id then failedAnswer else 1)))

end Sys2Proof.Machine
end

