-- ==== Sys2Proof/Machine/Sieve.lean ====
section
/-!
DEFINITION. The Sieve: its instructions, binning, pair streams and records (R171 to R178, R260, R323, R324).
-/

namespace Sys2Proof.Machine

/- Exact f32 values. -/

/-- A finite f32 as a multiple of 2^-149; none for an infinity or a NaN. -/
def f32Exact (bits : Nat) : Option Int :=
  match decodeVal .f32 false bits with
  | .num neg m d => some ((if neg then -1 else 1) * ((m <<< 149 / d : Nat) : Int))
  | _ => none

/-- A multiple of 2^-149 rounded to f32, RNE (R177). -/
def f32Round (x : Int) : Nat := roundRNE .f32 (.num (decide (x < 0)) x.natAbs (1 <<< 149))

/-- An f32 product, RNE. -/
def f32Mul (a b : Nat) : Nat := roundRNE .f32 ((decodeVal .f32 false a).mul (decodeVal .f32 false b))
/-- An f32 sum, RNE. -/
def f32Add (a b : Nat) : Nat := roundRNE .f32 ((decodeVal .f32 false a).add false (decodeVal .f32 false b))

/-- A difference brought into [-L/2, L/2) by a multiple of L (R177). -/
def minImage (v l : Int) : Int := v - l * ((2 * v + l) / (2 * l))

/- The grid (R172). -/

/-- Dimension d is periodic. -/
def JobSheet.periodic (j : JobSheet) (d : Nat) : Bool := j.pmask.testBit d

/-- Box length in dimension d, exact. -/
def JobSheet.len (j : JobSheet) (d : Nat) : Int := (f32Exact (j.l.getD d 0)).getD 0

/-- floor(L / (rc + s)) in dimension d (R172). -/
def JobSheet.floor (j : JobSheet) (d : Nat) : Nat :=
  (j.len d / ((f32Exact j.rc).getD 0 + (f32Exact j.s).getD 0)).toNat

/-- Cells in dimension d (R172). -/
def JobSheet.cells (j : JobSheet) (d : Nat) : Nat :=
  if !j.periodic d && j.floor d = 0 then 1 else j.floor d

/-- Cells of the grid. -/
def JobSheet.total (j : JobSheet) : Nat := j.cells 0 * j.cells 1 * j.cells 2

/-- Linear index of a cell; x runs fastest (R172). -/
def JobSheet.linear (j : JobSheet) (x y z : Nat) : Nat := x + j.cells 0 * (y + j.cells 1 * z)

/-- Cell coordinate of an exact coordinate in dimension d (R172). -/
def JobSheet.cellOf (j : JobSheet) (d : Nat) (p : Int) : Nat :=
  let p := if j.periodic d then p % j.len d else p
  min (j.cells d - 1) ((p * j.cells d) / j.len d).toNat

/-- A coordinate is finite and, in a dimension that is not periodic, inside the box (R174). -/
def JobSheet.inBox (j : JobSheet) (d bits : Nat) : Bool :=
  match f32Exact bits with
  | none => false
  | some v => j.periodic d || (decide (0 ≤ v) && decide (v < j.len d))

/-- A point is good (R174 BADPOS). -/
def JobSheet.good (j : JobSheet) (p : List Nat) : Bool := (List.range 3).all (fun d => j.inBox d (p.getD d 0))

/-- The cell of a good point. -/
def JobSheet.place (j : JobSheet) (p : List Nat) : Nat :=
  let c := fun d => j.cellOf d ((f32Exact (p.getD d 0)).getD 0)
  j.linear (c 0) (c 1) (c 2)

/- Instructions. -/

/-- A sheet's bytes (R171). -/
def jobSheet (w : Nat) : JobSheet :=
  let b := fun lo n => field w (8 * lo) (8 * n)
  { pos := BitVec.ofNat 64 (b 0 8), count := b 8 4, cap := b 12 4, pmask := b 16 1, home := b 17 1,
    l := [b 24 4, b 28 4, b 32 4], rc := b 36 4, s := b 40 4 }

/-- The first check of R174 that a sheet fails: code in bits 7:0, and what failed in bits 15:8. -/
def sheetCheck (w : Nat) : Option Nat :=
  let j := jobSheet w
  let pos (bits : Nat) (zero : Bool) : Bool := match f32Exact bits with
    | none => false
    | some v => decide (0 < v) || (zero && v == 0)
  if field w 144 48 ≠ 0 || field w 352 160 ≠ 0 || 8 ≤ j.pmask || 4194304 < j.count || j.cap < 1 || 65535 < j.cap ||
      1 < j.home then some 1
  else match (List.range 3).find? (fun d => !pos (j.l.getD d 0) false) with
    | some d => some (2 + d <<< 8)
    | none =>
      if !pos j.rc false then some (2 + 3 <<< 8)
      else if !pos j.s true then some (2 + 4 <<< 8)
      else match (List.range 3).find? (fun d => j.periodic d && decide (j.len d < 2 * (f32Exact j.rc).getD 0)) with
        | some d => some (2 + d <<< 8)
        | none =>
          match (List.range 3).find? (fun d => j.periodic d && decide (j.floor d < 3)) with
          | some d => some (3 + d <<< 8)
          | none => if 1048576 < j.total then some 4 else none

/-- SIEVE with a code (R174). -/
def sieveFault (s : State) (code : Nat) : Out := faultAt s .sieve (BitVec.ofNat 64 code)

/-- The sheet that a Sieve instruction names, read at the instruction (R129, R323). -/
def withJobSheet (s : State) (addr : Word) (k : Nat → Out) : Out :=
  if s.heldByDeposit addr 64 then stallCtl s
  else match s.accessAt s.who addr 64 64 .rd with
    | .error e => faultAccess s e
    | .ok pas => k (ofBytes (s.loadBytes pas))

/-- SBIN (R173, R174, R323). -/
def execSbin (d a : Reg) (s : State) : Out :=
  reading [a] s (withJobSheet s (s.hart.rd a) (fun w =>
    match sheetCheck w with
    | some c => sieveFault s c
    | none => handOff d (.sbin (s.hart.rd a) (jobSheet w)) s))

/-- SPAIR (R173, R323, R324): the slot is reserved until the answer. -/
def execSpair (d : Reg) (z : ZIx) (a b : Reg) (s : State) : Out :=
  reading [a, b] s (withJobSheet s (s.hart.rd a) (fun w =>
    let v := s.slotAt s.cur z
    let x := (s.hart.rd b).toNat
    if v.bound ≠ .unbound then streamFault s 1
    else if field x 48 15 ≠ 0 then sieveFault s 1
    else if !s.accessesDone then stallCtl s
    else handOff d (.spair (s.hart.rd a) (jobSheet w).home z (field x 0 24) (field x 24 24) (x.testBit 63))
      (s.setSlot s.cur z { v with bound := .reserved s.nextId })))

/-- SSTAT (R173, R323). -/
def execSstat (d a : Reg) (s : State) : Out :=
  reading [a] s (withJobSheet s (s.hart.rd a) (fun w => handOff d (.sstat (s.hart.rd a) (jobSheet w).home) s))

/- Service. -/

/-- The sheet that an operation of the Sieve names. -/
def OpKind.job : OpKind → Option Word
  | .sbin a _ | .spair a _ _ _ _ _ | .sstat a _ => some a
  | _ => none

/-- Operation q has to be served by the Sieve before o, when it stands before it: one of the same hart, or of the same
job (R129, R174). -/
def Op.sieveBefore (q o : Op) : Bool :=
  q.kind.job.isSome && (q.hart == o.hart || (q.part == o.part && q.kind.job == o.kind.job))

/-- The operation that no other stands before: those of a job in order of arrival, and those of a hart in program
order. -/
def State.sieveHead (s : State) (oid : Nat) : Option Op :=
  (s.opById oid).filter (fun o =>
    o.kind.job.isSome && (s.ops.takeWhile (·.oid != oid)).all (fun q => !q.sieveBefore o))

/-- The job of a sheet (R323).
DEDUCED: notes/assumptions/43. -/
def State.jobAt (s : State) (p : Nat) (a : Word) : Option Job := s.jobs.find? (fun j => j.part == p && j.sheetAddr == a)

/-- The job of a sheet, at the instance that the home byte routes to (R17, R323). The spec checks the home byte of the
sheet for `SBIN` alone (R174): one above 1 that `SPAIR` or `SSTAT` reads names no instance, and the model finds no job
there, so that `SPAIR` answers UNBINNED and `SSTAT` state 0.
DESIGN CHOICE: notes/assumptions/43. -/
def State.jobHomed (s : State) (p : Nat) (a : Word) (home : Nat) : Option Job :=
  (s.jobAt p a).filter (·.sheet.home == home)

/-- A position's bytes as the bits of x, y and z. -/
def coordinates (bs : List Byte) : List Nat := (List.range 3).map (fun d => ofBytes ((bs.drop (4 * d)).take 4))

/-- Position i of a job: one engine read step (R171, R175), unless an earlier step for the operation has read it into
`got` (R118). The spec says that bytes 15:12 of a position are ignored and not whether the read covers them: the model
reads and checks bytes 11:0 alone.
DESIGN CHOICE: notes/assumptions/43. -/
def State.position (s : State) (w : Who) (j : JobSheet) (got : List (List Byte)) (i : Nat) : Except (Fail × Word) (List Nat) :=
  let a := j.pos + BitVec.ofNat 64 (16 * i)
  match got[i]? with
  | some bs => .ok (coordinates bs)
  | none =>
    match s.engineRead w a 12 with
    | .error e => .error (e, s.failingFar w a 12 .rd e)
    | .ok bs => .ok (coordinates bs)

/-- Positions of a list of points. -/
def State.positions (s : State) (w : Who) (j : JobSheet) (got : List (List Byte)) :
    List Nat → Except (Fail × Word) (List (List Nat))
  | [] => .ok []
  | i :: is =>
    match s.position w j got i with
    | .error e => .error e
    | .ok p => match s.positions w j got is with
      | .error e => .error e
      | .ok ps => .ok (p :: ps)

/-- Adds point i to its cell. -/
def addToCell (cells : List (Nat × List Nat)) (c i : Nat) : List (Nat × List Nat) :=
  ainsert cells c ((alookup cells c).getD [] ++ [i])

/-- An operation that fails after its hand-off (R174, R181, R186). -/
def State.sieveFails (s : State) (o : Op) (e : Fail × Word) : State :=
  (s.tellWork o.part o.hart e.1).failOp o 3 (causeCode e.1.cause) e.2

/-- A status with a value in bits 63:32 (R174). -/
def sieveStatus (code value : Nat) : Word := BitVec.ofNat 64 (code + value <<< 32)

/-- BINNING (R175). -/
def execBinning (op : Nat) (s : State) : Out :=
  match s.sieveHead op with
  | none => .next s
  | some o =>
    match o.kind with
    | .sbin a j =>
      if ((s.jobAt o.part a).map (fun k => !k.streams.isEmpty)).getD false then .next (s.answerOp o 3)
      else
        let s := { s with jobs := s.jobs.filter (fun k => !(k.part == o.part && k.sheetAddr == a)) }
        if j.count = 0 then .next (s.answerOp o 0)
        else match s.positions ⟨o.part, o.tenant⟩ j o.got (List.range j.count) with
          | .error e => .next (s.sieveFails o e)
          | .ok ps =>
            match ps.zipIdx.find? (fun e => !j.good e.1) with
            | some e => .next (s.answerOp o (sieveStatus 5 e.2))
            | none =>
              if 64 ≤ s.jobs.countP (fun k => k.state == 2 && k.sheet.home == j.home) ||
                  1 <<< 24 < 16 * j.count + 4 * j.total * (j.cap + 1) then .next (s.answerOp o 6)
              else
                let cells := ps.zipIdx.foldl (fun cs e => addToCell cs (j.place e.1) e.2) []
                let most := cells.foldl (fun n c => max n c.2.length) 0
                let job : Job := { part := o.part, sheetAddr := a, sheet := j, state := 2, cells := cells, ref := ps,
                                   occupancy := most }
                match cells.find? (fun c => decide (j.cap < c.2.length)) with
                | some c =>
                  let job := { job with state := 3, cells := [], ref := [] }
                  .next ({ s with jobs := s.jobs ++ [job] }.answerOp o (sieveStatus 1 c.1))
                | none => .next ({ s with jobs := s.jobs ++ [job] }.answerOp o 0)
    | _ => .next s

/-- SSTAT_SERVICE (R175). -/
def execSstatService (op : Nat) (s : State) : Out :=
  match s.sieveHead op with
  | none => .next s
  | some o =>
    match o.kind with
    | .sstat a home =>
      match s.jobHomed o.part a home with
      | none => .next (s.answerOp o 0)
      | some j => .next (s.answerOp o (sieveStatus (j.state + j.streams.length <<< 8) j.occupancy))
    | _ => .next s

/- Pair streams (R176, R177). -/

/-- What the check of a job's points at `SPAIR` finds (R176). -/
inductive PointCheck where
  | ok
  | status (code value : Nat)
  | failed (e : Fail × Word)
  deriving DecidableEq, Repr

/-- Point i has moved more than s/2 since binning, exactly (R176). -/
def Job.moved (j : Job) (i : Nat) (p : List Nat) : Bool :=
  let d (k : Nat) : Int :=
    let v := (f32Exact (p.getD k 0)).getD 0 - (f32Exact ((j.ref.getD i []).getD k 0)).getD 0
    if j.sheet.periodic k then minImage v (j.sheet.len k) else v
  let lim := (f32Exact j.sheet.s).getD 0
  decide (lim * lim < 4 * (d 0 * d 0 + d 1 * d 1 + d 2 * d 2))

/-- The points of a job, ascending, up to the first that is bad or has moved (R176). -/
def State.checkPoints (s : State) (w : Who) (j : Job) (got : List (List Byte)) : List Nat → PointCheck
  | [] => .ok
  | i :: is =>
    match s.position w j.sheet got i with
    | .error e => .failed e
    | .ok p =>
      if !j.sheet.good p then .status 5 i
      else if j.moved i p then .status 2 0
      else s.checkPoints w j got is

/-- Cell a shifted by o (each 0, 1 or 2 for -1, 0, +1) in dimension d, wrapping in a periodic one; none outside. -/
def JobSheet.shift (j : JobSheet) (d c o : Nat) : Option Nat :=
  let m := j.cells d
  if j.periodic d then some ((c + o + m - 1) % m)
  else if c + o < 1 || m < c + o then none else some (c + o - 1)

/-- The 27 neighbours of a cell, ox fastest (R176). -/
def JobSheet.neighbours (j : JobSheet) (a : Nat) : List Nat :=
  let x := a % j.cells 0
  let y := a / j.cells 0 % j.cells 1
  let z := a / (j.cells 0 * j.cells 1)
  (List.range 27).filterMap (fun o =>
    match j.shift 0 x (o % 3), j.shift 1 y (o / 3 % 3), j.shift 2 z (o / 9) with
    | some x, some y, some z => some (j.linear x y z)
    | _, _, _ => none)

/-- The candidate pairs of a range of cells in their order (R176). -/
def Job.candidates (j : Job) (first count : Nat) (full : Bool) : List (Nat × Nat) :=
  let pts := fun c => (alookup j.cells c).getD []
  let cells := (j.cells.map (·.1)).filter (fun a => decide (first ≤ a) && decide (a < first + count))
  cells.flatMap (fun a => (pts a).flatMap (fun i =>
    ((j.sheet.neighbours a).filter (fun b => full || decide (a ≤ b))).flatMap (fun b =>
      ((pts b).filter (fun k => k != i && (full || b != a || decide (i < k)))).map (fun k => (i, k)))))

/-- The record of a pair at two positions, when it lies within the cutoff (R177); none also for a coordinate that is
not finite. -/
def JobSheet.record (j : JobSheet) (i k : Nat) (pi pk : List Nat) : Option PairRec :=
  let delta (d : Nat) : Option Nat :=
    match f32Exact (pi.getD d 0), f32Exact (pk.getD d 0) with
    | some a, some b => some (f32Round (if j.periodic d then minImage (b - a) (j.len d) else b - a))
    | _, _ => none
  match delta 0, delta 1, delta 2 with
  | some dx, some dy, some dz =>
    let r2 := f32Add (f32Add (f32Mul dx dx) (f32Mul dy dy)) (f32Mul dz dz)
    if r2 < f32Mul j.rc j.rc then some { i := i, j := k, dx := dx, dy := dy, dz := dz, r2 := r2 } else none
  | _, _, _ => none

/-- The slot of an unanswered `SPAIR` is free again (R324). -/
def State.freeReserved (s : State) (o : Op) (z : ZIx) : State :=
  let v := s.slotAt o.hart z
  if v.bound = .reserved o.oid then s.setSlot o.hart z v.unbind else s

/-- STREAM_OPEN (R176, R324): OK binds the slot to a new stream of the job. -/
def execStreamOpen (op : Nat) (s : State) : Out :=
  match s.sieveHead op with
  | none => .next s
  | some o =>
    match o.kind with
    | .spair a home z first count full =>
      match (s.jobHomed o.part a home).filter (·.state == 2) with
      | none => .next ((s.freeReserved o z).answerOp o 4)
      | some j =>
        match s.checkPoints ⟨o.part, o.tenant⟩ j o.got (List.range j.sheet.count) with
        | .failed e => .next ((s.freeReserved o z).sieveFails o e)
        | .status c v => .next ((s.freeReserved o z).answerOp o (sieveStatus c v))
        | .ok =>
          let r := s.fresh
          let t : PairStream := { id := r.1, hart := o.hart, z := z, todo := j.candidates first count full }
          let s := { r.2 with jobs := r.2.jobs.map (fun (k : Job) =>
            if k.part == j.part && k.sheetAddr == j.sheetAddr then { k with streams := k.streams ++ [t] } else k) }
          let v := s.slotAt o.hart z
          .next ((s.setSlot o.hart z { v.unbind with bound := .pair r.1 }).answerOp o 0)
    | _ => .next s

/-- The pair stream of slot z of hart h, with its job. -/
def State.pairStream (s : State) (h : Nat) (z : ZIx) : Option (Job × PairStream) :=
  match (s.slotAt h z).bound with
  | .pair id => (s.jobs.filterMap (fun j => (j.streams.find? (·.id == id)).map (fun t => (j, t)))).head?
  | _ => none

/-- Replaces a pair stream. -/
def State.setStream (s : State) (t : PairStream) : State :=
  { s with jobs := s.jobs.map (fun j => { j with streams := j.streams.map (fun u => if u.id == t.id then t else u) }) }

/-- The read step of the first point of pair stream id's next pair (R118, R177); one that fails is left to the step that
forms the record. -/
def State.pairRead (s : State) (id : Nat) : State :=
  match (s.jobs.filterMap (fun j => (j.streams.find? (·.id == id)).map (fun t => (j, t)))).head? with
  | none => s
  | some (j, t) =>
    match t.todo with
    | [] => s
    | (i, _) :: _ =>
      match s.engineRead ⟨j.part, s.tenantOf j.part⟩ (j.sheet.pos + BitVec.ofNat 64 (16 * i)) 12 with
      | .ok bs => s.setStream { t with got := [bs] }
      | .error _ => s

/-- The positions of a stream's next pair, the first as an earlier step has read it or read now, the second read now. -/
def State.pairPositions (s : State) (w : Who) (j : Job) (t : PairStream) (i k : Nat) :
    Except (Fail × Word) (List Nat × List Nat) :=
  let first : Except (Fail × Word) (List Nat) :=
    match t.got with
    | bs :: _ => .ok (coordinates bs)
    | [] => s.position w j.sheet [] i
  match first, s.position w j.sheet [] k with
  | .error e, _ => .error e
  | _, .error e => .error e
  | .ok p, .ok q => .ok (p, q)

/-- PAIR_RECORD (R177): the next candidate pair is formed from the current positions, and its record waits in the slot
with its number in the stream (R178) when it lies within the cutoff; without one left the stream ends. A read that fails
ends it with an engine event.
DEDUCED: notes/assumptions/43. -/
def execPairRecord (h : Nat) (z : ZIx) (s : State) : Out :=
  match s.pairStream h z with
  | none => .next s
  | some (j, t) =>
    let v := s.slotAt h z
    match t.todo with
    | [] => .next (s.setSlot h z { v with ended := true })
    | (i, k) :: rest =>
      let w : Who := ⟨j.part, s.tenantOf j.part⟩
      match s.pairPositions w j t i k with
      | .error e =>
        let s := ((s.tellWork j.part h e.1).setStream { t with todo := [], got := [] }).setSlot h z { v with ended := true }
        .next (s.queueEvent h { engine := 3, index := z.val, code := causeCode e.1.cause, addr := e.2 })
      | .ok (pi, pk) =>
        let t := { t with todo := rest, got := [] }
        match j.sheet.record i k pi pk with
        | none => .next (s.setStream t)
        | some r =>
          let n := (t.sent + 1) % 1 <<< 32
          .next ((s.setStream { t with sent := n }).setSlot h z
            { v with records := v.records ++ [{ r with seq := t.sent }], expect := n })

end Sys2Proof.Machine
end

