-- ==== Sys2Proof/Machine/Partition.lean ====
section
/-!
DEFINITION. What the host driver does to partitions and to what they own: partition records, Granary fields, export
entries, page invalidation and scrubbing, and the end of a partition (R36, R45, R108, R115, R140 to R142, R160, R169,
R175, R206, R384, R385).
-/

namespace Sys2Proof.Machine

/- Partition records. -/

/-- A record with the fields that the writer owns taken from `new` and the rest from `old` (R103, R140). -/
def recordMerge (old new : PartRec) (supervisor : Bool) : PartRec :=
  if supervisor then { old with htab := new.htab, bins := new.bins, nq := new.nq, root1 := new.root1 }
  else { new with htab := old.htab, bins := old.bins, nq := old.nq, root1 := old.root1 }

/-- Byte offsets of the fields of a record that are out of their range, and of reserved bytes that are not zero
(R140). -/
def recordRange (r : PartRec) (supervisor : Bool) (harts steads : Nat) : List Nat :=
  let bad := fun (c : Bool) (off : Nat) => if c then [off] else []
  let each := fun (l : List Nat) (f : Nat → Nat → Bool) (off : Nat) =>
    (List.range steads).flatMap (fun i => bad (f i (l.getD i 0)) (off + i))
  if supervisor then
    bad (r.htab % 65536 != 0 || decide (1 <<< 57 ≤ r.htab)) 0 ++ bad (r.bins % 64 != 0 || decide (1 <<< 57 ≤ r.bins)) 8 ++
      bad (decide (16 < r.nq)) 16
  else
    bad ((r.zeros.getD 0 0) != 0) 17 ++ bad (decide (4096 ≤ r.tenant)) 18 ++ bad (decide (r.hceil < r.hfloor)) 20 ++
      bad (decide (r.hceil < max r.hfloor 1) || decide (harts < r.hceil)) 22 ++ bad (decide (1 <<< 32 ≤ r.quota)) 24 ++
      bad (decide (1 <<< 32 ≤ r.target)) 28 ++ bad (r.weight == 0 || decide (65536 ≤ r.weight)) 32 ++
      bad (r.slice == 0 || decide (65536 ≤ r.slice)) 34 ++ each r.qfloor (fun _ x => decide (64 < x)) 36 ++
      each r.qceil (fun i x => decide (x < max (r.qfloor.getD i 0) 1) || decide (64 < x)) 48 ++
      each r.rows (fun _ x => decide (12 < x)) 60 ++
      ((r.zeros.drop 1).zipIdx.filter (fun e => e.1 != 0)).map (fun e => 72 + e.2)

/-- Why a record is refused (R140, R384): the value of the record of kind 4, with the lowest reason. -/
def State.recordRefusal (s : State) (p : Nat) (r : PartRec) (supervisor : Bool) : Option Nat :=
  let others := s.partIds.filter (· != p)
  let sumOf := fun (f : PartRec → Nat) => f r + (others.map (fun q => f (s.partAt q).record)).sum
  let range := (recordRange r supervisor s.caps.harts s.caps.steads).head?
  if supervisor then range.map (fun off => 4 + off <<< 8)
  else match (List.range s.caps.steads).find? (fun st => decide (64 < sumOf (fun x => x.qfloor.getD st 0))) with
    | some st => some (1 + st <<< 8)
    | none =>
      if s.caps.harts < sumOf (·.hfloor) then some 2
      else if s.caps.harts < r.hceil then some 3
      else range.map (fun off => 4 + off <<< 8)

/-- Budgets of stead st brought back to 64 quads, one at a time, from the partitions that may give (R141, R142); `fuel`
bounds the number.
DEDUCED: notes/assumptions/44. -/
def State.makeRoom (s : State) (p st : Nat) : Nat → State
  | 0 => s
  | fuel + 1 =>
    if s.budgetSum st ≤ 64 then s
    else
      let low := fun q => max ((s.partAt q).record.qfloor.getD st 0) (s.owedMost q st)
      match bestOf (fun q => -((s.partAt q).need s.millisecond))
          (s.partIds.filter (fun q => q != p && decide (low q < (s.partAt q).budgetOn st))) with
      | some q => (s.setBudget q st ((s.partAt q).budgetOn st - 1)).makeRoom p st fuel
      | none => s.setBudget p st ((s.partAt p).budgetOn st - (s.budgetSum st - 64))

/-- Every stead gives its free quads to the harts that wait and whose partitions' budgets allow it (R252). -/
def State.allotAll (s : State) : State := (List.range s.caps.steads).foldl State.allot s

/-- The budgets of a partition after its record has been written (R141, R142), and the quads that they let harts have
(R252). -/
def State.rebudget (s : State) (p : Nat) : State :=
  ((List.range s.caps.steads).foldl (fun s st => (s.settleBudget p st).makeRoom p st 64) s).allotAll

/-- PARTITION_RECORD_WRITE (R140, R384): the first write of the host driver creates the partition, once bring-up has
opened the physical function (R217).
DEDUCED: notes/assumptions/44. -/
def execPartitionRecordWrite (vf : Nat) (supervisor : Bool) (r : PartRec) (s : State) : Out :=
  let v := s.partAt vf
  if s.phase ≠ .open_ || 192 ≤ vf || (supervisor && !v.exists_) then .next s
  else match s.recordRefusal vf r supervisor with
    | some value =>
      .next (s.postHost vf { kind := 4, hart := noHart, cause := 0, value := BitVec.ofNat 64 value, time := s.time })
    | none =>
      .next ((s.setPartAt vf { v with exists_ := true, record := recordMerge v.record r supervisor }).rebudget vf |>.rewatch vf)

/- Granary fields. -/

/-- A field record lies in its ranges (R160). -/
def fieldOk (r : FieldRec) : Bool :=
  decide (2 ≤ r.g) && decide (r.g ≤ 8) && decide (r.home ≤ 1) && decide (1 ≤ r.nodes) && decide (r.nodes ≤ 1 <<< 20) &&
    decide (r.pages < 1 <<< 32) && decide (r.view.toNat % 128 = 0) && decide (r.view.toNat < 1 <<< 60) &&
    r.zeros.all (· == 0)

/-- FIELD_CREATE (R160, R162, R217, R385): refused, and the refusal reported through the physical function, unless the
whole store is mapped, which it never is for a partition that does not exist, and while the device pool has too few
pages. Poisoned lines that it meets are told to the partition (R384).
DEDUCED: notes/assumptions/38. -/
def execFieldCreate (p : Nat) (num : Fin 8) (r : FieldRec) (s : State) : Out :=
  let v := s.partAt p
  let t := v.record.tenant
  let root : Node := { id := 0, hash := r.seed, state := .ready, npages := 0, depth := 0, parent := 0, stamp := s.time,
                       plist := [], chunk := [] }
  let f : GField := { tenant := t, num := num.val, part := p, record := r, nodes := [root],
                      pool := s.pool.take r.pages, free := List.range r.pages }
  let refused : State := { s with refusedFields := s.refusedFields ++ [(p, num.val)] }
  if s.phase ≠ .open_ then .next s
  else if !v.exists_ || !fieldOk r || (s.fieldOf t num.val).isSome || decide (s.pool.length < r.pages) then .next refused
  else match s.viewPlaces f 0 (storeBytes r) with
    | .error e => .next (refused.tellPoison p noHart e.lines)
    | .ok pas =>
      let s := s.store pas (f.recordAt 0 ++ List.replicate (storeBytes r - 128) 0)
      .next { s.setPartAt p { v with pages := v.pages + r.pages } with
        fields := s.fields ++ [f], pool := s.pool.drop r.pages }

/-- Operations of a field that has been removed fail, as their field no longer exists (R160, R164, R186). -/
def State.failFieldOps (s : State) (f : GField) : State :=
  (s.ops.filter (fun o => o.tenant == f.tenant && o.kind.field == some f.num)).foldl (fun s o =>
    s.failOp o 2 (causeCode .granary) 0) s

/-- A field goes: its operations fail, its bindings go, and its pages return to the device pool, but for those that
left the field's pool for repair (R114, R160, R170). -/
def State.removeField (s : State) (f : GField) : State :=
  let s := s.failFieldOps f
  let s := s.parts.foldl (fun s e =>
    let v := s.partAt e.1
    s.setPartAt e.1 { v with gbind := v.gbind.filter (fun b => b.2.tenant != f.tenant || b.2.field != f.num) }) s
  let lost := (f.nodes.filter (fun n => n.state = .poisoned)).flatMap (·.plist)
  let kept := (List.range f.pool.length).filter (fun i => f.free.contains i || f.nodes.any (fun n =>
    n.plist.contains i && !lost.contains i))
  let v := s.partAt f.part
  let s := s.setPartAt f.part { v with pages := v.pages - f.record.pages }
  { s with fields := s.fields.filter (fun g => !(g.tenant == f.tenant && g.num == f.num))
           pool := s.pool ++ kept.map (fun i => f.pool.getD i 0) }

/-- FIELD_REMOVE (R160): the field of the partition's tenant, or one that the partition created for an earlier tenant. -/
def execFieldRemove (p : Nat) (num : Fin 8) (s : State) : Out :=
  let mine := s.fields.filter (fun f => f.part == p && f.num == num.val)
  match (mine.find? (·.tenant == s.tenantOf p)).or mine.head? with
  | none => .next s
  | some f => .next (s.removeField f)

/-- EXPORT_ENTRY_WRITE (R206): the tenant's one entry of the tier. -/
def execExportEntryWrite (p : Nat) (tier : Fin 8) (base low : Word) (s : State) : Out :=
  if !(s.partAt p).exists_ then .next s
  else .next { s with
    exports := ainsert s.exports (8 * s.tenantOf p + tier.val) { part := p, base := base, low := low } }

/- Pages. -/

/-- An instruction of partition p pins a page, named at stage 1 or at stage 2 by a 64 KiB page in it (R104, R108). -/
def State.pagePinned (s : State) (p : Nat) (stage2 : Bool) (page : Nat) : Bool :=
  s.hartIds.any (fun h => (s.hartAt h).part == p && (s.hartAt h).vq.any (fun r =>
    r.pins.any (fun e => if stage2 then decide (e.ia ≤ page) && decide (page < e.ia + e.inn)
      else decide (e.va ≤ page) && decide (page < e.va + e.vn))))

/-- PAGE_INVALIDATION (R108): from the request on probes walk the tables anew, what the device had mapped itself in
the page's place included; it is complete once every instruction that pins the page has released it, which a later
step finds.
DEDUCED: notes/assumptions/45. -/
def execPageInvalidation (p : Nat) (stage2 : Bool) (page : Nat) (s : State) : Out :=
  let left := s.invals.filter (· != (p, stage2, page))
  let again := s.invals.contains (p, stage2, page)
  let t : State := { s with
    over1 := if stage2 || again then s.over1 else s.over1.filter (fun m => !(m.1 == p && m.2.1 == page))
    over2 := if stage2 && !again then s.over2.filter (fun m => !(m.1 == p && m.2.1 == page)) else s.over2
    invals := if s.pagePinned p stage2 page then left ++ [(p, stage2, page)] else left }
  .next (t.rewatch p)

/-- PAGE_SCRUB (R115): the scrubber clears a marked page and skips others. -/
def execPageScrub (page : Nat) (s : State) : Out := .next (s.scrubbed page)

/-- VF_RESET (R115): the pages reassigned carry the scrub-pending mark.
DEDUCED: notes/assumptions/45. -/
def execVfReset (_ : Nat) (pages : List Nat) (s : State) : Out :=
  .next { s with scrub := pages.foldl (fun l pg => if l.contains pg then l else l ++ [pg]) s.scrub }

/- The end of a partition. -/

/-- Contexts of partition p are free, with nothing of theirs left (R45). -/
def State.freeContexts (s : State) (p : Nat) : State :=
  let drop := fun (h : Hart) => if h.part = p && h.status != .free then Hart.reset else h
  { s with hart := drop s.hart, others := s.others.map (fun e => (e.1, drop e.2)) }

/-- What stands in the engines, lofts and links for partition p goes. -/
def State.dropWork (s : State) (p : Nat) : State :=
  let mine := s.hartIds.filter (fun h => (s.hartAt h).part == p && (s.hartAt h).status != .free)
  let sids := (s.sheaves.filter (·.part == p)).map (·.sid)
  let lines := s.lines.map (fun l => { l with holders := l.holders.filter (fun i => !sids.contains i)
                                              expected := l.expected.filter (fun i => !sids.contains i) })
  { s with
    sheaves := s.sheaves.filter (·.part != p)
    lines := lines.filter (fun l => !(l.holders.isEmpty && l.expected.isEmpty))
    fetches := s.fetches.filter (·.part != p)
    debts := s.debts.filter (·.part != p)
    ops := s.ops.filter (·.part != p)
    farms := s.farms.filter (·.part != p)
    jobs := s.jobs.filter (·.part != p)
    pinWait := s.pinWait.filter (fun h => !mine.contains h)
    transit := s.transit.filter (fun t => !(mine.contains t.toHart || mine.contains t.fromHart))
    held := s.held.filter (·.part != p)
    schedWrites := s.schedWrites.filter (·.part != p) }

/-- PARTITION_END (R36, R45, R149, R169, R175): its pins and bindings go, its sequences' pages return to the device
pool, its jobs are freed, its contexts, their quads and their rows are free, and its slots are given back (R252). What
its virtual function's queue holds stays. -/
def execPartitionEnd (p : Nat) (s : State) : Out :=
  let v := s.partAt p
  if !v.exists_ then .next s
  else
    let s := s.dropPins p none none
    let s := v.seqs.foldl (fun s q => q.pages.foldl (fun s e => s.unmapPage p e.1 e.2) s) s
    let s := (s.dropWork p).freeContexts p
    let v := s.partAt p
    let gone : Part := { pages := ((s.fields.filter (·.part == p)).map (·.record.pages)).sum, hostQueue := v.hostQueue, hostTail := v.hostTail, hostDrop := v.hostDrop, hostVector := v.hostVector }
    let t : State := { s.setPartAt p gone with
      over1 := s.over1.filter (·.1 != p), over2 := s.over2.filter (·.1 != p), exports := s.exports.filter (·.2.part != p)
      invals := s.invals.filter (·.1 != p)
      toldPoison := s.toldPoison.filter (·.1 != p) }
    .next t.allotAll

end Sys2Proof.Machine
end

