-- ==== Sys2Proof/Machine/Device.lean ====
section
/-!
DEFINITION. Memory protection, the host port, bring-up, telemetry and operating points (R116, R170, R204, R208 to R220).
-/

namespace Sys2Proof.Machine

/- Memory protection. -/

/-- Adds n to telemetry counter i, which saturates at 2^63 - 1 (R218). -/
def State.count (s : State) (i n : Nat) : State :=
  { s with telemetry := s.telemetry.set i (min (s.telemetry.getD i 0 + n) 0x7FFFFFFFFFFFFFFF) }

/-- The nodes, not yet poisoned, that own a page holding a poisoned line (R170): each with its field. -/
def State.hurtNodes (s : State) (hurt : Nat → Bool) : List (GField × Nat) :=
  s.fields.flatMap (fun f => (f.nodes.filter (fun n => n.state != .poisoned &&
    n.plist.any (fun q => hurt (f.pool.getD q 0)))).map (fun n => (f, n.id)))

/-- The nodes whose pages are hurt become poisoned with their subtrees (R170). -/
def State.poisonNodes (s : State) (hurt : Nat → Bool) : State :=
  (s.hurtNodes hurt).foldl (fun s e =>
    match s.fieldOf e.1.tenant e.1.num with
    | none => s
    | some f => if ((f.node e.2).map (·.state)).getD .poisoned = .poisoned then s else s.poisonSubtree f e.2) s

/-- Parity group of a channel (R208). -/
def groupOf (channel : Nat) : Nat := channel / 8

/-- The channel of a group that holds the parity line of stripe n, and those that hold its data lines, in order
(R208). -/
def parityChannel (n : Nat) : Nat := n % 8
/-- The data channels of stripe n. -/
def dataChannels (n : Nat) : List Nat := (List.range 8).filter (· != n % 8)

/-- The parity line of a stripe's data lines (R208), which is also any one of them from the parity and the others
(R210). -/
def parityLine (ls : List (BitVec 512)) : BitVec 512 := ls.foldl (· ^^^ ·) 0

/-- The channel that line l lies on: its place among the data channels of its stripe (R208).
DESIGN CHOICE: notes/assumptions/15. -/
def lineChannel (l : Nat) : Nat :=
  8 * Config.lineGroup l + (dataChannels (Config.lineStripe l)).getD (Config.lineSlot l).val 0

/-- The data lines of a stripe of a group, in order (R208).
DESIGN CHOICE: notes/assumptions/15. -/
def stripeLines (group stripe : Nat) : List Nat := (List.finRange 7).map (Config.stripeLine group stripe)

/-- The bytes of line l of main memory. -/
def State.lineData (s : State) (l : Nat) : BitVec 512 :=
  BitVec.ofNat 512 (ofBytes (s.readAll ((List.range 64).map (64 * l + ·))))

/-- What the parity line of a stripe holds (R208): it follows the data lines, since every write of one of them writes it
as well (R209). -/
def State.parityAt (s : State) (group stripe : Nat) : BitVec 512 :=
  parityLine ((stripeLines group stripe).map s.lineData)

/-- The other lines of the stripe of line l are there to rebuild it from (R210, R211): no other channel of the group has
failed, and none of them is poisoned. -/
def State.rebuildable (s : State) (l : Nat) : Bool :=
  let g := Config.lineGroup l
  !s.badChannels.any (fun c => groupOf c == g && c != lineChannel l) &&
    (stripeLines g (Config.lineStripe l)).all (fun m => m == l || !s.isPoisoned m)

/-- Corrected errors of a row since its last repair (R212). -/
def State.errorsOf (s : State) (bank row : Nat) : Nat :=
  ((s.rowErrors.find? (·.1 == (bank, row))).map (·.2)).getD 0

/-- POISONING (R170, R210, R212, R218): an error on the line at a physical address. ECC corrects it, which counts for
its row; the parity rebuild gives it back, while the other lines of its stripe are there; or the line becomes poisoned.
DEDUCED: notes/assumptions/47. -/
def execPoisoning (e : LineError) (s : State) : Out :=
  let l := e.pa / 64
  if s.isPoisoned l then .next s
  else
    let lost : State := ({ s with poisoned := s.poisoned ++ [l] }.count 3 1).poisonNodes (fun pg => pg == l / 1024)
    match e.kind with
    | .corrected bank row =>
      .next ({ s with rowErrors := ((bank, row), s.errorsOf bank row + 1) :: s.rowErrors.filter (·.1 != (bank, row)) }.count 1 1)
    | .rebuilt => .next (if s.rebuildable l then s.count 2 1 else lost)
    | .lost => .next lost

/-- Lines of group g that are poisoned already. -/
def State.poisonedIn (s : State) (g : Nat) : Nat := s.poisoned.eraseDups.countP (fun l => Config.lineGroup l == g)

/-- CHANNEL_FAILURE (R211, R218): the channel is served from parity; a second one of the group poisons every stripe of
the group, and the field nodes with pages there (R170). The lines that become poisoned count.
DESIGN CHOICE: notes/assumptions/15. -/
def execChannelFailure (channel : Nat) (s : State) : Out :=
  if s.badChannels.contains channel then .next s
  else
    let g := groupOf channel
    let second := s.badChannels.any (fun c => groupOf c == g) && !s.deadGroups.contains g
    let s := { s with badChannels := s.badChannels ++ [channel] }.count 5 1
    if !second then .next s
    else
      let s := { s with deadGroups := s.deadGroups ++ [g]
                        healed := s.healed.filter (fun l => Config.lineGroup l != g) }.count 3 (Config.groupLines g - s.poisonedIn g)
      .next (s.poisonNodes (fun pg => (List.range 1024).any (fun i => Config.lineGroup (1024 * pg + i) == g)))

/-- CHANNEL_RETRAINING (R213): accesses to the channel wait, at most 4 µs; nothing else changes. -/
def execChannelRetraining (_ : Nat) (s : State) : Out := .next s

/-- ROW_REPAIR (R212, R218): once its corrected errors have reached the threshold, the row is copied and its remap
recorded, while the bank has a spare row.
DESIGN CHOICE: notes/assumptions/15. -/
def execRowRepair (bank row : Nat) (s : State) : Out :=
  if s.errorsOf bank row < s.threshold || decide (Config.spareRows bank ≤ s.remaps.countP (·.1 == bank)) then .next s
  else .next ({ s with remaps := s.remaps ++ [(bank, row)], rowErrors := s.rowErrors.filter (·.1 != (bank, row)) }.count 4 1)

/-- REPAIR_THRESHOLD_WRITE (R212), through the physical function (R217). -/
def execRepairThresholdWrite (t : Nat) (s : State) : Out :=
  .next (if s.phase = .open_ && decide (1 ≤ t) && decide (t ≤ 255) then { s with threshold := t } else s)

/-- The nominal column of the line at a physical address (R203). -/
def nominalColumn (a : Nat) : Nat := Nat.xor (Nat.xor (field a 6 3) (field a 12 3)) (field a 18 3)

/-- The home column of the line at a physical address among the powered columns of its base die, in ascending order: the
fold table of the barn (R203). -/
def homeColumn (powered : List Nat) (a : Nat) : Nat :=
  if powered.contains (nominalColumn a) then nominalColumn a
  else powered.getD (Nat.xor (field a 9 3) (field a 15 3) % powered.length) 0

/-- Powered columns of a base die after pair j is switched (R204). -/
def switchPair (cols : List Nat) (j : Nat) (on : Bool) : List Nat :=
  (List.range 8).filter (fun c => if c / 2 = j then on else cols.contains c)

/-- COLUMN_POWER_CHANGE (R203, R204, R217): a change that would leave a die without a powered pair is refused. Which
column is a line's home moves no value, since memory holds one value for each byte (R117). -/
def execColumnPowerChange (die : Fin 2) (pair : Fin 4) (on : Bool) (s : State) : Out :=
  let cols := switchPair (s.columns.getD die.val []) pair.val on
  if s.phase ≠ .open_ || cols.isEmpty then .next s
  else
    let all := s.columns.set die.val cols
    .next { s with columns := all, caps := { s.caps with barncols := (all.map (·.length)).sum } }

/- The host port. -/

/-- HOST_ACCESS (R116, R210, R215): a write performs at the barn, unless it meets poison that it does not overwrite
whole; the driver takes records out of a virtual function's queue. A read changes nothing.
DEDUCED: notes/assumptions/47. -/
def execHostAccess (r : HostReq) (s : State) : Out :=
  match r with
  | .read _ _ => .next s
  | .write pa bs _ =>
    let pas := (List.range bs.length).map (pa + ·)
    if (s.meetsPoison pas true).isEmpty then .next (s.store pas bs) else .next s
  | .takeEvents vf n =>
    let v := s.partAt vf
    .next (s.setPartAt vf { v with hostQueue := v.hostQueue.drop n })

/- Bring-up (R217). -/

/-- A part as power-up finds it: everything at reset, but for what outlives power and the model's own schedule.
DEDUCED: notes/assumptions/49. -/
def State.powered (s : State) : State :=
  { State.reset with
    telemetry := s.telemetry, remaps := s.remaps, badChannels := s.badChannels
    deadGroups := (s.badChannels.map groupOf).eraseDups.filter (fun g => decide (2 ≤ s.badChannels.countP (groupOf · == g)))
    agenda := s.agenda, pace := s.pace, delay := s.delay, draw := s.draw, nextId := s.nextId }

/-- What the capability registers show of the units in service (R1, R12, R49, R214): four cores of four harts and, in
each stack, 112 GiB of addressable memory. -/
def capsOf (u : Units) : Caps :=
  let steads := max 1 (min u.steads 12)
  let n := max 1 (min u.stackCount 12)
  { stackCount := n, quads := max 1 (min u.quads 64), harts := 16 * steads, cores := 4 * steads, steads := steads
    mib := 114688 * n }

/-- POWER_UP (R212, R214, R217): the boot ROM checks the image; a good one is measured, the remaps are replayed and the
units in service set, later images are measured, and the physical function opens. A bad one leaves the part in recovery
with status 1.
DESIGN CHOICE: notes/assumptions/14. -/
def execPowerUp (image : List Byte) (rest : BringUp) (s : State) : Out :=
  let s := s.powered
  if Config.signatureValid image then
    .next { s with log := (image :: rest.later).map Config.sha3, phase := .open_, pool := Config.poolPages,
                   caps := capsOf rest.units }
  else .next { s with phase := .recovery, bringupStatus := 1 }

/-- ATTESTATION_REPORT (R217): the measurement log, the nonce and the signature over both.
DESIGN CHOICE: notes/assumptions/14. -/
def execAttestationReport (nonce : List Byte) (s : State) : Out :=
  if s.phase = .open_ && nonce.length = 32 then
    let body := s.log.flatMap (fun e => toBytes 64 e.toNat) ++ nonce
    .next { s with report := some (body ++ Config.sign body) }
  else .next s

/-- POWER_ON_HOUR (R218): power-on hours, and the histogram of the peak temperature.
DEDUCED: notes/assumptions/48. -/
def execPowerOnHour (tempC : Nat) (s : State) : Out :=
  let bin := if tempC < 30 then 6 else min 15 (6 + (tempC - 20) / 10)
  .next ((s.count 0 1).count bin 1)

/- Operating points (R219, R220). -/

/-- What a change from one point in force to another does, in its order (R219): the voltage before the frequency on
the way up, and behind it on the way down. -/
def pointMoves (old new : OpPoint) : List PointMove :=
  let f := fun (o : OpPoint) => min o.reqMhz o.capMhz
  let v := if old.reqMv = new.reqMv then [] else [PointMove.mv new.reqMv]
  if f old < f new then v ++ [.mhz (f new)] else if f new < f old then .mhz (f new) :: v else v

/-- The operating point of stead st changes. -/
def State.setPoint (s : State) (st : Nat) (o : OpPoint) : State :=
  let old := s.point st
  let ms := pointMoves old o
  { s with points := s.points.set st { o with moves := if ms.isEmpty then old.moves else ms } }

/-- OPERATING_POINT_REQUEST (R217, R219): denied below the fused voltage floor, or off the steps; the point in force is
the lower of the request and the thermal cap (`State.freq`). -/
def execOperatingPointRequest (st mhz mv : Nat) (s : State) : Out :=
  if s.phase = .open_ && decide (st < s.caps.steads) && decide (1200 ≤ mhz) && decide (mhz ≤ 3600) && mhz % 100 = 0 && mv % 5 = 0 &&
      decide (Config.voltageFloor mhz ≤ mv) then
    .next (s.setPoint st { s.point st with reqMhz := mhz, reqMv := mv })
  else .next s

/-- THERMAL_CAP_STEP (R220) of stead st at a temperature: above 100 °C the hottest stead's cap falls by one step; at or
below 95 °C it rises by one step while it limits the request.
DEDUCED: notes/assumptions/48. -/
def execThermalCapStep (st tempC : Nat) (s : State) : Out :=
  if s.caps.steads ≤ st then .next s
  else
    let o := { s.point st with tempC := tempC }
    let hottest := (List.range s.caps.steads).all (fun i => i == st || decide ((s.point i).tempC ≤ tempC))
    let o := if 100 < tempC && hottest then { o with capMhz := max 1200 (o.capMhz - 100) }
             else if tempC ≤ 95 && decide (o.capMhz < o.reqMhz) then { o with capMhz := o.capMhz + 100 }
             else o
    .next (s.setPoint st o)

end Sys2Proof.Machine
end

