-- ==== Sys2Proof/Machine/Flail.lean ====
section
/-!
DEFINITION. The Flail: outer products, bin rows and 4-of-8 sparsity (R44, R45, R130, R190, R254, R255, R314 to R319).
-/

namespace Sys2Proof.Machine

/- Bin cells. -/

/-- Columns of a bin row (R19). -/
def binCols : Nat := 4096

/-- Cell(row, column). -/
def Hart.cell (h : Hart) (row col : Nat) : BitVec 32 := (alookup h.cells (binCols * row + col)).getD 0

/-- Writes a cell; a zero cell is not listed. -/
def Hart.setCell (h : Hart) (row col : Nat) (v : BitVec 32) : Hart :=
  { h with cells := if v = 0 then aerase h.cells (binCols * row + col) else ainsert h.cells (binCols * row + col) v }

/-- Raises the high-water mark of a row (R190). -/
def Hart.raiseMark (h : Hart) (row n : Nat) : Hart :=
  { h with marks := ainsert h.marks row (max n ((alookup h.marks row).getD 0)) }

/-- The rows lie inside the hart's grant (R45). -/
def Hart.holdsRows (h : Hart) (base n : Nat) : Bool :=
  h.rowCount != 0 && decide (h.rowBase ≤ base) && decide (base + n ≤ h.rowBase + h.rowCount)

/-- MATT with `EVAL` 3 at dispatch (R45, R249). -/
def mattFault (s : State) : Out := faultBlock s .matt 3 s.hart.blockPos s.hart.vstart

/- Formats. -/

/-- A row of R315: formats of a and b, those of the bin, and whether scaling is allowed. -/
def flailRow (fa fb fd : Fmt) (scaled : Bool) : Bool :=
  let wide (f : Fmt) : Bool := f = .bf16 || f = .f16
  let eight (f : Fmt) : Bool := f = .e5m2 || f = .e4m3
  if wide fa && wide fb then fd = .f32 && !scaled
  else if eight fa && eight fb then fd = .f32 || wide fd
  else if fa.narrow && fb.narrow then wide fd
  else if fa = .s8 && fb = .s8 then (fd = .s32 || fd = .s16) && !scaled
  else (fa = .s8 || fa = .s4) && (fb = .s8 || fb = .s4) && fd = .s16 && !scaled

/-- The format checks of `MOPA` (R315, R316) for `n` B registers. -/
def flailFormats (d : Descr) (va vb : VIx) (n : Nat) (fa fb fd : Fmt) : Bool :=
  flailRow fa fb fd (d.asc || d.bsc) && !d.dsc && scaleOk d.asc va fa &&
    (!d.bsc || (fb.scalable && decide (vb.val + n < 64)))

/- Products. -/

/-- DecodeA (R316): 0 for an element at or above VLMAX of the format, or beyond the register's tag; ftz has no
effect. -/
def Hart.flailA (h : Hart) (d : Descr) (va : VIx) (f : Fmt) (e : Nat) : Val :=
  if vlmax h.lanes [f] ≤ e || decide (8 * h.v[va.val].tag ≤ f.container * (e / h.lanes) / 8) then .num false 0 1
  else h.valAt va e f d.asc false

/-- DecodeB of register vb + m at column j, its scale at element n·(j div 32) + m of register vb + n (R316, R317). -/
def Hart.flailB (h : Hart) (d : Descr) (vb : VIx) (f : Fmt) (n m j : Nat) : Val :=
  let x := decodeVal f false (h.bitsAt (vb + Fin.ofNat 64 m) j f)
  if d.bsc then
    let E := h.bitsAt (vb + Fin.ofNat 64 n) (n * (j / 32) + m) .x9
    if E = 511 then .nan false else x.scale ((E : Int) - 255)
  else x

/-- Acc (R316): one rounding to nearest for a float bin; modulo 2^w for an integer one. A NaN of any kind in the sum
raises NV, and an exact zero is +0.
DEDUCED: notes/assumptions/25. -/
def flailAcc (fd : Fmt) (v : Val) : Nat × Flags :=
  if fd.integer then
    match v with
    | .num neg m d => (wrapBits fd.width (let i : Int := (m / d : Nat); if neg then -i else i), flNone)
    | _ => (0, flNone)
  else
    match v with
    | .nan _ => place fd {} (.nan true)
    | .num _ 0 _ => (0, flNone)
    | v => place fd {} v

/-- The value a bin cell holds under fd (R315). -/
def cellVal (fd : Fmt) (c : BitVec 32) : Val := decodeVal fd false (c.toNat % 1 <<< fd.width)

/-- One column of `MOPA`: the terms of b with their positions in a group of eight, added into every row. -/
def Hart.flailColumn (h0 : Hart) (d : Descr) (va : VIx) (fa fd : Fmt) (base rows j : Nat) (terms : List (Nat × Val))
    (h : Hart) : Hart × Flags :=
  (List.range rows).foldl (fun acc i =>
    let s := terms.foldl (fun t kb => t.add false ((h0.flailA d va fa (8 * i + kb.1)).mul kb.2))
      (cellVal fd (acc.1.cell (base + i) j))
    let r := flailAcc fd s
    (acc.1.setCell (base + i) j (BitVec.ofNat 32 r.1), acc.2 ||| r.2)) (h, flNone)

/-- Columns from `VSTART` to n - 1 of a product: the hart after them and the flags of each column. -/
def Hart.flailColumns (h : Hart) (d : Descr) (va : VIx) (fa fd : Fmt) (base rows n : Nat)
    (terms : Nat → List (Nat × Val)) : Hart × List Flags :=
  let r := (List.range' h.vstart (n - h.vstart)).foldl (fun acc j =>
    let c := h.flailColumn d va fa fd base rows j (terms j) acc.1
    (c.1, acc.2 ++ [c.2])) (h, [])
  (if n ≤ h.vstart then r.1 else (List.range rows).foldl (fun g i => g.raiseMark (base + i) n) r.1, r.2)

/-- MOPA (R316). -/
def execMopa (k : Blk) (va vb : VIx) (base : BitVec 7) (units : BitVec 4) (s : State) : Out :=
  withFormats s k (fun d => [d.fa, d.fb, d.fd]) false
    (fun d fs => match fs with | [fa, fb, fd] => flailFormats d va vb 8 fa fb fd | _ => false)
    fun d fs =>
      match fs with
      | [fa, fb, fd] =>
        let h := s.hart
        let rows := 8 * units.toNat
        if !h.holdsRows base.toNat rows then mattFault s
        else
          let r := h.flailColumns d va fa fd base.toNat rows (min (h.vl k (vlmax h.lanes fs)) binCols)
            (fun j => (List.range 8).map (fun m => (m, h.flailB d vb fb 8 m j)))
          vDoneFlags (s.withHart r.1) r.2
      | _ => fmtFault s k

/-- Index i_m of a metadata container (R254). -/
def slotIndex (c m : Nat) : Nat := (c >>> (3 * m)) % 8

/-- A well-formed container (R254). -/
def wellFormedContainer (c : Nat) : Bool :=
  c / 4096 == 0 && decide (slotIndex c 0 < slotIndex c 1) && decide (slotIndex c 1 < slotIndex c 2) &&
    decide (slotIndex c 2 < slotIndex c 3)

/-- MOPAS (R317, R254, R255): the lowest column whose container is malformed takes MDATA. -/
def execMopas (k : Blk) (va vb vc : VIx) (base : BitVec 7) (units : BitVec 4) (s : State) : Out :=
  withFormats s k (fun d => [d.fa, d.fb, d.fc, d.fd]) false
    (fun d fs => match fs with
      | [fa, fb, fc, fd] => flailFormats d va vb 4 fa fb fd && fc = .n16
      | _ => false)
    fun d fs =>
      match fs with
      | [fa, fb, fc, fd] =>
        let h := s.hart
        let rows := 8 * units.toNat
        if !h.holdsRows base.toNat rows then mattFault s
        else
          let cols := min (h.vl k (vlmax h.lanes fs)) binCols
          let con := fun j => h.bitsAt vc j fc
          let bad := (List.range' h.vstart (cols - h.vstart)).find? (fun j => !wellFormedContainer (con j))
          let r := h.flailColumns d va fa fd base.toNat rows (bad.getD cols)
            (fun j => (List.range 4).map (fun m => (slotIndex (con j) m, h.flailB d vb fb 4 m j)))
          match bad with
          | none => vDoneFlags (s.withHart r.1) r.2
          | some j => faultBlock ((s.withHart r.1).accrue r.2).1 .mdata (BitVec.ofNat 64 (j <<< 32 + con j)) h.blockPos j
      | _ => fmtFault s k

/-- Formats that move bin rows (R318). -/
def Fmt.binMove (f : Fmt) : Bool := f = .s32 || f = .n32 || f = .f32

/-- MRD (R318). -/
def execMrd (k : Blk) (vd : VIx) (row : BitVec 7) (s : State) : Out :=
  withFormats s k (fun d => [d.fd]) false (fun d fs => fs.all (fun f => f.binMove && scaleOk d.dsc vd f))
    fun _ fs =>
      match fs with
      | [fd] =>
        let h := s.hart
        if !h.holdsRows row.toNat 1 then mattFault s
        else writeElems s k vd fd (h.vl k (vlmax h.lanes fs)) (fun j => ((h.cell row.toNat j).toNat, flNone))
      | _ => fmtFault s k

/-- MWR (R318). -/
def execMwr (k : Blk) (va : VIx) (row : BitVec 7) (s : State) : Out :=
  withFormats s k (fun d => [d.fa]) false (fun d fs => fs.all (fun f => f.binMove && scaleOk d.asc va f))
    fun _ fs =>
      match fs with
      | [fa] =>
        let h := s.hart
        let vl := h.vl k (vlmax h.lanes fs)
        if !h.holdsRows row.toNat 1 then mattFault s
        else
          let h' := (List.range' h.vstart (vl - h.vstart)).foldl (fun g j =>
            g.setCell row.toNat j (BitVec.ofNat 32 (h.bitsAt va j fa))) h
          vDone (s.withHart (if vl ≤ h.vstart then h' else h'.raiseMark row.toNat vl))
      | _ => fmtFault s k

/-- MZERO (R318): the marks stay. -/
def execMzero (k : Blk) (base : BitVec 7) (units : BitVec 4) (s : State) : Out :=
  withFormats s k (fun _ => []) false (fun _ _ => true)
    fun _ _ =>
      let h := s.hart
      let lo := base.toNat
      let hi := lo + 8 * units.toNat
      if !h.holdsRows lo (8 * units.toNat) then mattFault s
      else vDone (s.withHart { h with cells := h.cells.filter (fun c => c.1 < binCols * lo || binCols * hi ≤ c.1) })

end Sys2Proof.Machine
end

