-- ==== Sys2Proof/Machine/Float.lean ====
section
/-!
DEFINITION. Scalar floating point (R283 to R289).
-/

namespace Sys2Proof.Machine

/-- The format of a precision (R239, R54). -/
def precFmt : Prec → Fmt
  | .d => .f64
  | .s => .f32
  | .h => .f16
  | .b => .bf16

/-- Decode(p, low bits of x[a]) of R285. -/
def Hart.fval (h : Hart) (f : Fmt) (a : Reg) : Val := decodeVal f false ((h.rd a).toNat % 1 <<< f.width)

/-- The rounding mode of rm, or of `FRM` when rm = 7; none when `FRM` holds 5 to 7 (R284). -/
def Hart.roundMode (h : Hart) (m : Rm) : Option Nat :=
  match m with
  | .rne => some 0
  | .rtz => some 1
  | .rdn => some 2
  | .rup => some 3
  | .rna => some 4
  | .dyn => if h.frm.toNat ≤ 4 then some h.frm.toNat else none

/-- The 32-bit word of an instruction, as `EVAL` of ILLEGAL holds it (R284). -/
def wordOf (i : Instr) : Nat := ((encode i).map (·.2)).getD 0

/-- An instruction that rounds under rm (R284): ILLEGAL with its word when `FRM` holds an undefined mode. -/
def withMode (i : Instr) (m : Rm) (s : State) (k : Nat → Out) : Out :=
  match s.hart.roundMode m with
  | some r => k r
  | none => illegalWord s (wordOf i)

/-- Rounds an exact value into the precision, writes xd and accrues its flags (R285). -/
def retireRound (s : State) (f : Fmt) (mode : Nat) (d : Reg) (v : Val) (fl : Flags) : Out :=
  let r := place f { mode := mode } v
  retireFlags s d (BitVec.ofNat 64 r.1) (r.2 ||| fl)

/-- An arithmetic form with two sources (R285). -/
def farith (i : Instr) (op : Bool → Val → Val → Val × Flags) (p : Prec) (m : Rm) (d a b : Reg) (s : State) : Out :=
  reading [a, b] s (withMode i m s fun mode =>
    let f := precFmt p
    let r := op (mode = 2) (s.hart.fval f a) (s.hart.fval f b)
    retireRound s f mode d r.1 r.2)

/-- FADD (R285). -/
def execFadd (p : Prec) (m : Rm) (d a b : Reg) (s : State) : Out :=
  farith (.fadd p m d a b) (fun rdn x y => (x.add rdn y, flNone)) p m d a b s
/-- FSUB (R285). -/
def execFsub (p : Prec) (m : Rm) (d a b : Reg) (s : State) : Out :=
  farith (.fsub p m d a b) (fun rdn x y => (x.add rdn y.negate, flNone)) p m d a b s
/-- FMUL (R285). -/
def execFmul (p : Prec) (m : Rm) (d a b : Reg) (s : State) : Out :=
  farith (.fmul p m d a b) (fun _ x y => (x.mul y, flNone)) p m d a b s
/-- FDIV (R285). -/
def execFdiv (p : Prec) (m : Rm) (d a b : Reg) (s : State) : Out :=
  farith (.fdiv p m d a b) (fun _ x y => x.div y) p m d a b s
/-- FSQRT (R285). -/
def execFsqrt (p : Prec) (m : Rm) (d a : Reg) (s : State) : Out :=
  reading [a] s (withMode (.fsqrt p m d a) m s fun mode =>
    retireRound s (precFmt p) mode d (s.hart.fval (precFmt p) a).sqrt flNone)

/-- The bits of the canonical NaN of a format (R53). -/
def canonicalNan (f : Fmt) : Nat := ((f.spec.bind (·.nan)).getD 0)

/-- FMIN and FMAX: the chosen operand bit for bit, the canonical NaN for two NaNs, NV for a signalling one (R286). -/
def fchoose (max : Bool) (p : Prec) (d a b : Reg) (s : State) : Out :=
  reading [a, b] s (
    let f := precFmt p
    let x := s.hart.fval f a
    let y := s.hart.fval f b
    let low := fun (r : Reg) => (s.hart.rd r).toNat % 1 <<< f.width
    let bits := if x.isNan && y.isNan then canonicalNan f
      else if x.isNan then low b
      else if y.isNan then low a
      else
        let aLess := x.cmp y < 0 || (x.cmp y = 0 && x.neg && !y.neg)
        if max then (if aLess then low b else low a) else (if aLess then low a else low b)
    retireFlags s d (BitVec.ofNat 64 bits) (if x.isSignalling || y.isSignalling then flNV else flNone))

/-- FMIN (R286). -/
def execFmin (p : Prec) (_ : Rm) (d a b : Reg) (s : State) : Out :=
  fchoose false p d a b s
/-- FMAX (R286). -/
def execFmax (p : Prec) (_ : Rm) (d a b : Reg) (s : State) : Out :=
  fchoose true p d a b s

/-- A compare (R286): 0 with a NaN; NV for any NaN when `anyNan` holds, else for a signalling one. -/
def fcompare (anyNan : Bool) (test : Int → Bool) (p : Prec) (d a b : Reg) (s : State) : Out :=
  reading [a, b] s (
    let x := s.hart.fval (precFmt p) a
    let y := s.hart.fval (precFmt p) b
    let nan := x.isNan || y.isNan
    let nv := x.isSignalling || y.isSignalling || (anyNan && nan)
    retireFlags s d (if !nan && test (x.cmp y) then 1 else 0) (if nv then flNV else flNone))

/-- FEQ (R286). -/
def execFeq (p : Prec) (_ : Rm) (d a b : Reg) (s : State) : Out :=
  fcompare false (· == 0) p d a b s
/-- FLT (R286). -/
def execFlt (p : Prec) (_ : Rm) (d a b : Reg) (s : State) : Out :=
  fcompare true (decide <| · < 0) p d a b s
/-- FLE (R286). -/
def execFle (p : Prec) (_ : Rm) (d a b : Reg) (s : State) : Out :=
  fcompare true (decide <| · ≤ 0) p d a b s

/-- The format of a conversion operand (R287). -/
def cvtFmt : CvtTy → Fmt
  | .d => .f64
  | .s => .f32
  | .h => .f16
  | .b => .bf16
  | .l => .s64
  | .n => .n64

/-- FCVT (R287). -/
def execFcvt (dst src : CvtTy) (m : Rm) (d a : Reg) (s : State) : Out :=
  reading [a] s (withMode (.fcvt dst src m d a) m s fun mode =>
    retireRound s (cvtFmt dst) mode d (s.hart.fval (cvtFmt src) a) flNone)

/-- The fused multiply-add of R289. -/
def fmaOp (i : Instr) (p : Prec) (np nc : Bool) (m : Rm) (d a b c : Reg) (s : State) : Out :=
  reading [a, b, c] s (withMode i m s fun mode =>
    let f := precFmt p
    retireRound s f mode d (Val.fma (mode = 2) np nc (s.hart.fval f a) (s.hart.fval f b) (s.hart.fval f c)) flNone)

/-- FMA from opcode 0x0D (R240, R289). -/
def execFmaOpcode0d (p : Prec) (np nc : Bool) (m : Rm) (d a b c : Reg) (s : State) : Out :=
  fmaOp (.fmaOpcode0d p np nc m d a b c) p np nc m d a b c s
/-- FMA from opcode 0x0E (R240, R289). -/
def execFmaOpcode0e (p : Prec) (np nc : Bool) (m : Rm) (d a b c : Reg) (s : State) : Out :=
  fmaOp (.fmaOpcode0e p np nc m d a b c) p np nc m d a b c s

end Sys2Proof.Machine
end

