-- ==== Sys2Proof/Machine/Scalar.lean ====
section
/-!
DEFINITION. Register-register and immediate integer operations of the control stream (R264 to R268).
-/

namespace Sys2Proof.Machine

/-- Applies an operation at width 64, or on the low halves at width 32 with the result sign-extended (R266). -/
def atWidth (op : (n : Nat) → BitVec n → BitVec n → BitVec n) (w : Bool) (a b : Word) : Word :=
  if w then (op 32 (a.truncate 32) (b.truncate 32)).signExtend 64 else op 64 a b

/-- An instruction that reads xa and xb and writes xd (R264). -/
def alu2 (op : (n : Nat) → BitVec n → BitVec n → BitVec n) (d a b : Reg) (w : Bool) (s : State) : Out :=
  reading [a, b] s (retireWith s d (atWidth op w (s.hart.rd a) (s.hart.rd b)))

/-- An instruction that reads xa and writes xd. -/
def alu1 (op : (n : Nat) → BitVec n → BitVec n) (d a : Reg) (w : Bool) (s : State) : Out :=
  reading [a] s (retireWith s d (atWidth (fun n x _ => op n x) w (s.hart.rd a) 0))

/-- 1 when c holds, else 0. -/
def flagBit {n : Nat} (c : Bool) : BitVec n := if c then 1 else 0

/-- Quotients and remainders with the fixed results of R265. -/
def quotS (n : Nat) (a b : BitVec n) : BitVec n := if b = 0 then BitVec.allOnes n else a.sdiv b
/-- Natural quotient. -/
def quotN (n : Nat) (a b : BitVec n) : BitVec n := if b = 0 then BitVec.allOnes n else a / b
/-- Signed remainder: a - b × quotient. -/
def remS (n : Nat) (a b : BitVec n) : BitVec n := if b = 0 then a else a - b * quotS n a b
/-- Natural remainder. -/
def remN (n : Nat) (a b : BitVec n) : BitVec n := if b = 0 then a else a - b * quotN n a b

/-- High half of the exact signed product (R265). -/
def mulHigh (n : Nat) (a b : BitVec n) : BitVec n := BitVec.ofInt n ((a.toInt * b.toInt) / (1 <<< n : Nat))
/-- High half of the exact natural product. -/
def mulHighN (n : Nat) (a b : BitVec n) : BitVec n := BitVec.ofNat n ((a.toNat * b.toNat) >>> n)

/-- Leading zeros; n for zero. -/
def leadingZeros (n : Nat) (a : BitVec n) : BitVec n :=
  BitVec.ofNat n (if a = 0 then n else n - 1 - a.toNat.log2)
/-- Trailing zeros; n for zero. -/
def trailingZeros (n : Nat) (a : BitVec n) : BitVec n := BitVec.ofNat n (((List.range n).find? a.getLsbD).getD n)
/-- Count of one bits. -/
def onesCount (n : Nat) (a : BitVec n) : BitVec n := BitVec.ofNat n ((List.range n).countP a.getLsbD)

/-- ADD (R265). -/
def execAdd (d a b : Reg) (w : Bool) (s : State) : Out := alu2 (fun _ x y => x + y) d a b w s
/-- SUB (R265). -/
def execSub (d a b : Reg) (w : Bool) (s : State) : Out := alu2 (fun _ x y => x - y) d a b w s
/-- AND (R265). -/
def execAnd (d a b : Reg) (w : Bool) (s : State) : Out := alu2 (fun _ x y => x &&& y) d a b w s
/-- OR (R265). -/
def execOr (d a b : Reg) (w : Bool) (s : State) : Out := alu2 (fun _ x y => x ||| y) d a b w s
/-- XOR (R265). -/
def execXor (d a b : Reg) (w : Bool) (s : State) : Out := alu2 (fun _ x y => x ^^^ y) d a b w s
/-- SLL: by b mod w (R265). -/
def execSll (d a b : Reg) (w : Bool) (s : State) : Out := alu2 (fun n x y => x <<< (y.toNat % n)) d a b w s
/-- SRL (R265). -/
def execSrl (d a b : Reg) (w : Bool) (s : State) : Out := alu2 (fun n x y => x >>> (y.toNat % n)) d a b w s
/-- SRA (R265). -/
def execSra (d a b : Reg) (w : Bool) (s : State) : Out := alu2 (fun n x y => x.sshiftRight (y.toNat % n)) d a b w s
/-- SLT (R265). -/
def execSlt (d a b : Reg) (w : Bool) (s : State) : Out := alu2 (fun _ x y => flagBit (x.slt y)) d a b w s
/-- SLTN (R265). -/
def execSltn (d a b : Reg) (w : Bool) (s : State) : Out := alu2 (fun _ x y => flagBit (x.ult y)) d a b w s
/-- MIN (R265). -/
def execMin (d a b : Reg) (w : Bool) (s : State) : Out := alu2 (fun _ x y => if y.slt x then y else x) d a b w s
/-- MAX (R265). -/
def execMax (d a b : Reg) (w : Bool) (s : State) : Out := alu2 (fun _ x y => if x.slt y then y else x) d a b w s
/-- MINN (R265). -/
def execMinn (d a b : Reg) (w : Bool) (s : State) : Out := alu2 (fun _ x y => if y.ult x then y else x) d a b w s
/-- MAXN (R265). -/
def execMaxn (d a b : Reg) (w : Bool) (s : State) : Out := alu2 (fun _ x y => if x.ult y then y else x) d a b w s
/-- MUL (R265). -/
def execMul (d a b : Reg) (w : Bool) (s : State) : Out := alu2 (fun _ x y => x * y) d a b w s
/-- MULH (R265). -/
def execMulh (d a b : Reg) (w : Bool) (s : State) : Out := alu2 mulHigh d a b w s
/-- MULHN (R265). -/
def execMulhn (d a b : Reg) (w : Bool) (s : State) : Out := alu2 mulHighN d a b w s
/-- DIV (R265). -/
def execDiv (d a b : Reg) (w : Bool) (s : State) : Out := alu2 quotS d a b w s
/-- DIVN (R265). -/
def execDivn (d a b : Reg) (w : Bool) (s : State) : Out := alu2 quotN d a b w s
/-- REM (R265). -/
def execRem (d a b : Reg) (w : Bool) (s : State) : Out := alu2 remS d a b w s
/-- REMN (R265). -/
def execRemn (d a b : Reg) (w : Bool) (s : State) : Out := alu2 remN d a b w s
/-- CLZ (R265). -/
def execClz (d a : Reg) (w : Bool) (s : State) : Out := alu1 leadingZeros d a w s
/-- CTZ (R265). -/
def execCtz (d a : Reg) (w : Bool) (s : State) : Out := alu1 trailingZeros d a w s
/-- POPC (R265). -/
def execPopc (d a : Reg) (w : Bool) (s : State) : Out := alu1 onesCount d a w s

/-- An immediate operation (R268). -/
def aluImm (op : Word → Word) (d a : Reg) (s : State) : Out := reading [a] s (retireWith s d (op (s.hart.rd a)))

/-- ADDI (R268). -/
def execAddi (d a : Reg) (imm : BitVec 16) (s : State) : Out := aluImm (· + imm.signExtend 64) d a s
/-- ANDI (R268). -/
def execAndi (d a : Reg) (imm : BitVec 16) (s : State) : Out := aluImm (· &&& imm.zeroExtend 64) d a s
/-- ORI (R268). -/
def execOri (d a : Reg) (imm : BitVec 16) (s : State) : Out := aluImm (· ||| imm.zeroExtend 64) d a s
/-- XORI (R268). -/
def execXori (d a : Reg) (imm : BitVec 16) (s : State) : Out := aluImm (· ^^^ imm.zeroExtend 64) d a s
/-- SLTI (R268). -/
def execSlti (d a : Reg) (imm : BitVec 16) (s : State) : Out :=
  aluImm (fun x => flagBit (x.slt (imm.signExtend 64))) d a s
/-- SLLI (R268). -/
def execSlli (d a : Reg) (n : BitVec 6) (s : State) : Out := aluImm (fun x => x <<< n.toNat) d a s
/-- SRLI (R268). -/
def execSrli (d a : Reg) (n : BitVec 6) (s : State) : Out := aluImm (fun x => x >>> n.toNat) d a s
/-- SRAI (R268). -/
def execSrai (d a : Reg) (n : BitVec 6) (s : State) : Out := aluImm (fun x => x.sshiftRight n.toNat) d a s
/-- LUI: SignExtend(i) × 65,536 (R268). -/
def execLui (d : Reg) (imm : BitVec 16) (s : State) : Out := retireWith s d (imm.signExtend 64 <<< 16)
/-- AUIPC: its own PC plus SignExtend(i) × 65,536 (R268). -/
def execAuipc (d : Reg) (imm : BitVec 16) (s : State) : Out :=
  retireWith s d (s.hart.pc + imm.signExtend 64 <<< 16)

end Sys2Proof.Machine
end

