-- ==== Sys2Proof/Machine/TrapEntry.lean ====
section
/-!
DEFINITION. The TRAP_ENTRY step: a control-stream trap that waited for older blocks is taken once they are done
(R182).
-/

namespace Sys2Proof.Machine

/-- TRAP_ENTRY (R182). -/
def execTrapEntry (s : State) : Out :=
  match s.hart.trapWait with
  | none => .next s
  | some (c, ev, epc) => if s.hart.blocksDone then .next (s.takeTrap c ev epc false 0) else stallCtl s

end Sys2Proof.Machine
end

