-- ==== Sys2Proof/Machine/VectorFloat.lean ====
section
/-!
DEFINITION. Vector floating point and conversions (R56, R57, R65, R66, R345, R346, R348, R351 to R355, R370).
-/

namespace Sys2Proof.Machine

/- Arithmetic. -/

/-- The formats of R352 with their scaling bits: float operands, scaled sources under R55, a scaled destination
under R57. `b` is absent for an instruction with one source. -/
def floatFormats (h : Hart) (k : Blk) (d : Descr) (vd va : VIx) (vb : Option VIx) (fs : List Fmt) (fa fb fd : Fmt) :
    Bool :=
  fs.all Fmt.float && scaleOk d.asc va fa &&
    (match vb with | some r => scaleOk d.bsc r fb | none => true) && h.dscOk k d vd fd

/-- A floating-point instruction with two sources (R352): `op` gives the exact result and the flags of the operation
itself. -/
def floatOp (op : Bool → Val → Val → Val × Flags) (k : Blk) (vd va vb : VIx) (s : State) : Out :=
  withFormats s k (fun d => [d.fa, d.fb, d.fd]) false
    (fun d fs => match fs with
      | [fa, fb, fd] => floatFormats s.hart k d vd va (some vb) fs fa fb fd
      | _ => false)
    fun d fs =>
      match fs with
      | [fa, fb, fd] =>
        let h := s.hart
        let r := fun e => op (d.rnd = 2) (h.valAt va e fa d.asc d.ftz) (h.valAt vb e fb d.bsc d.ftz)
        s.placeAll k d vd fd (h.vl k (vlmax h.lanes fs)) (fun e => (r e).1) (fun e => (r e).2)
      | _ => fmtFault s k

/-- A floating-point instruction with one source and exact results (R348, R352), over formats that `ok` accepts. -/
def floatOp1 (ok : List Fmt → Bool) (op : Val → Val) (k : Blk) (vd va : VIx) (s : State) : Out :=
  withFormats s k (fun d => [d.fa, d.fd]) false
    (fun d fs => match fs with
      | [fa, fd] => ok fs && scaleOk d.asc va fa && s.hart.dscOk k d vd fd
      | _ => false)
    fun d fs =>
      match fs with
      | [fa, fd] =>
        let h := s.hart
        s.placeAll k d vd fd (h.vl k (vlmax h.lanes fs)) (fun e => op (h.valAt va e fa d.asc d.ftz)) (fun _ => flNone)
      | _ => fmtFault s k

/-- VFADD (R351). -/
def execVfadd (k : Blk) (vd va vb : VIx) (s : State) : Out :=
  floatOp (fun rdn a b => (a.add rdn b, flNone)) k vd va vb s
/-- VFSUB. -/
def execVfsub (k : Blk) (vd va vb : VIx) (s : State) : Out :=
  floatOp (fun rdn a b => (a.add rdn b.negate, flNone)) k vd va vb s
/-- VFMUL. -/
def execVfmul (k : Blk) (vd va vb : VIx) (s : State) : Out := floatOp (fun _ a b => (a.mul b, flNone)) k vd va vb s
/-- VFDIV. -/
def execVfdiv (k : Blk) (vd va vb : VIx) (s : State) : Out := floatOp (fun _ a b => a.div b) k vd va vb s
/-- VFSQRT. -/
def execVfsqrt (k : Blk) (vd va : VIx) (s : State) : Out := floatOp1 (·.all Fmt.float) Val.sqrt k vd va s

/-- The operand that `VFMIN` or `VFMAX` chooses, with NV for a signalling NaN (R353). -/
def chooseNV (max : Bool) (a b : Val) : Val × Flags :=
  (a.choose max b, if a.isSignalling || b.isSignalling then flNV else flNone)

/-- VFMIN (R353). -/
def execVfmin (k : Blk) (vd va vb : VIx) (s : State) : Out := floatOp (fun _ => chooseNV false) k vd va vb s
/-- VFMAX (R353). -/
def execVfmax (k : Blk) (vd va vb : VIx) (s : State) : Out := floatOp (fun _ => chooseNV true) k vd va vb s

/-- VFMA (R351, R289). -/
def execVfma (k : Blk) (vd va vb vc : VIx) (np nc : Bool) (s : State) : Out :=
  withFormats s k (fun d => [d.fa, d.fb, d.fc, d.fd]) false
    (fun d fs => match fs with
      | [fa, fb, _, fd] => floatFormats s.hart k d vd va (some vb) fs fa fb fd
      | _ => false)
    fun d fs =>
      match fs with
      | [fa, fb, fc, fd] =>
        let h := s.hart
        s.placeAll k d vd fd (h.vl k (vlmax h.lanes fs)) (fun e =>
          Val.fma (d.rnd = 2) np nc (h.valAt va e fa d.asc d.ftz) (h.valAt vb e fb d.bsc d.ftz)
            (h.valAt vc e fc false d.ftz)) (fun _ => flNone)
      | _ => fmtFault s k

/- Compare and classify. -/

/-- A float comparison of an ordered pair whose order is c, or of a pair with a NaN (R346). -/
def floatCond (cond : Cond) (a b : Val) : Bool :=
  if a.isNan || b.isNan then
    match cond with
    | .ne | .ltn | .gen | .unord => true
    | _ => false
  else
    let c := a.cmp b
    match cond with
    | .eq => c == 0
    | .ne => c != 0
    | .lt | .ltn => decide (c < 0)
    | .le => decide (c ≤ 0)
    | .gt => decide (0 < c)
    | .ge | .gen => decide (0 ≤ c)
    | .unord => false

/-- NV of a float comparison (R346): LT, LE, GT and GE raise it for any NaN, the others for a signalling one. -/
def floatCondNV (cond : Cond) (a b : Val) : Flags :=
  let ordered := cond = .lt || cond = .le || cond = .gt || cond = .ge
  if a.isSignalling || b.isSignalling || (ordered && (a.isNan || b.isNan)) then flNV else flNone

/-- VFCMP (R345, R346). -/
def execVfcmp (k : Blk) (pd : PIx) (va vb : VIx) (cond : Cond) (s : State) : Out :=
  withFormats s k (fun d => [d.fa, d.fb]) false
    (fun d fs => match fs with
      | [fa, fb] => fs.all Fmt.float && scaleOk d.asc va fa && scaleOk d.bsc vb fb
      | _ => false)
    fun d fs =>
      match fs with
      | [fa, fb] =>
        let h := s.hart
        let a := fun e => h.valAt va e fa d.asc d.ftz
        let b := fun e => h.valAt vb e fb d.bsc d.ftz
        writePred s k pd (h.vl k (vlmax h.lanes fs)) (fun e => floatCond cond (a e) (b e))
          (fun e => floatCondNV cond (a e) (b e))
      | _ => fmtFault s k

/-- The class bit of an encoding (R354). -/
def classOf (sp : FloatSpec) (width bits : Nat) : Nat :=
  let neg := bits.testBit (width - 1)
  match decodeFloat sp width bits with
  | .nan sig => if sig then 8 else 9
  | .inf n => if n then 0 else 7
  | .num _ m _ =>
    if m = 0 then (if neg then 3 else 4)
    else if subnormalBits sp width bits then (if neg then 2 else 5)
    else if neg then 1 else 6

/-- VFCLASS (R354): it never looks at ftz; under the NaN scale an element reports a quiet NaN. -/
def execVfclass (k : Blk) (vd va : VIx) (s : State) : Out :=
  withFormats s k (fun d => [d.fa, d.fd]) false
    (fun d fs => match fs with
      | [fa, fd] => fa.float && fd.integer && !fd.sliced && decide (16 ≤ fd.width) && scaleOk d.asc va fa && !d.dsc
      | _ => false)
    fun d fs =>
      match fs with
      | [fa, fd] =>
        let h := s.hart
        writeElems s k vd fd (h.vl k (vlmax h.lanes fs)) (fun e =>
          let nanScale := d.asc && h.bitsAt (va + 1) (e / 32) .x9 == 511
          let c := match fa.spec with
            | some sp => classOf sp fa.width (h.bitsAt va e fa)
            | none => 9
          fit fd (1 <<< (if nanScale then 9 else c) : Nat) true)
      | _ => fmtFault s k

/- Approximations (R65, R66). -/

/-- Whether the opaque choice of R65 takes the bracketing value farther from zero; op 0 is `VFRCP`, 1 `VFRSQ`,
2 `VFEXP2`, 3 `VROPE`. -/
def awayFor (op : Nat) (fd : Fmt) (operands : List Nat) : Bool := Config.approxAway op fd.code operands

/-- One of the two values of a format that bracket the exact magnitude n / d (R65), with the overflow and clamps of
R63: the value farther from zero when `away` holds or when no finite value lies beyond. `n / d` is no value of the
format.
DESIGN CHOICE: notes/assumptions/12. -/
def placeBracket (sp : FloatSpec) (width : Nat) (sat ftz neg away : Bool) (n d : Nat) : Nat × Flags :=
  let top : Int := (sp.maxMag >>> sp.m : Nat) - (sp.bias : Int)
  let up := away || decide (top < log2Frac n d)
  let r := placeMag sp width { mode := if up then (if neg then 2 else 3) else 1, sat := sat, ftz := ftz } neg n d
  (r.1, r.2 ||| flNX)

/-- The magnitude n / d in units of 2^q, rounded to nearest. -/
def nearestUnits (n d : Nat) (q : Int) : Nat := (roundAt {} false n d q).1

/-- An f64 approximation of the exact magnitude n / d (R65): a value of f64 whose relative error stays below 2^-50,
which the opaque error chooses; a subnormal true result is any subnormal or 0 (R66).
DESIGN CHOICE: notes/assumptions/12. -/
def placeApprox64 (sp : FloatSpec) (sat ftz neg : Bool) (j : Int) (n d : Nat) : Nat × Flags :=
  let top := log2Frac n d
  if top < -1022 then
    let c := ((nearestUnits n d (-1074) : Nat) : Int) + j
    let c := if 0 ≤ c ∧ c < (1 <<< 52 : Nat) then c.toNat else min (nearestUnits n d (-1074)) (1 <<< 52 - 1)
    (withSign sp 64 neg (if ftz then 0 else c), flUF ||| flNX)
  else
    let q := top - 53
    let near := 2 * nearestUnits n d (top - 52)
    let p := pow2 q
    let c := (near : Int) + j
    let good := 0 < c && (let m := c.toNat
      let low := m % (if m < 1 <<< 53 then 1 else if m < 1 <<< 54 then 2 else 4)
      let diff := ((m * p.1 * d : Nat) : Int) - (n * p.2 : Nat)
      low == 0 && (decide (-1022 < top) || decide (1 <<< 53 ≤ m)) && decide (diff.natAbs * (1 <<< 50 + 1) < n * p.2))
    let m := if good then c.toNat else near
    let r := placeMag sp 64 { mode := 0, sat := sat, ftz := ftz } neg (m * p.1) p.2
    (r.1, r.2 ||| flNX)

/-- Places the exact magnitude n / m, which is no value of the format, as an approximation instruction may: a result
that is subnormal stays subnormal or becomes 0 (R66). -/
def placeApprox (op : Nat) (fd : Fmt) (sp : FloatSpec) (d : Descr) (neg : Bool) (operands : List Nat) (n m : Nat) :
    Nat × Flags :=
  if fd = .f64 then placeApprox64 sp d.sat d.ftz neg (Config.approxError op operands) n m
  else
    let r := placeBracket sp fd.width d.sat d.ftz neg (awayFor op fd operands) n m
    if log2Frac n m < 1 - (sp.bias : Int) && r.1 % 1 <<< (fd.width - 1) == 1 <<< sp.m then
      placeBracket sp fd.width d.sat d.ftz neg false n m
    else r

/-- A power of two: its exponent when n / d is one. -/
def powerOfTwo (n d : Nat) : Option Int :=
  let t := log2Frac n d
  let p := pow2 t
  if n * p.2 = d * p.1 then some t else none

/-- Places 2^e exactly, or under R63 where the format does not hold it. -/
def placePow (fd : Fmt) (sp : FloatSpec) (d : Descr) (neg : Bool) (e : Int) : Nat × Flags :=
  let e := max (-3000) (min e 3000)
  let p := pow2 e
  let top : Int := (sp.maxMag >>> sp.m : Nat) - (sp.bias : Int)
  let up := decide (top < e)
  placeMag sp fd.width { mode := if up then (if neg then 2 else 3) else 1, sat := d.sat, ftz := d.ftz } neg p.1 p.2

/-- The canonical NaN with NV when `nv` holds. -/
def nanResult (sp : FloatSpec) (nv : Bool) : Nat × Flags := (sp.nan.getD 0, if nv then flNV else flNone)

/-- Infinity of a format that has one. -/
def infResult (sp : FloatSpec) (width : Nat) (neg : Bool) : Nat := withSign sp width neg (sp.inf.getD sp.maxMag)

/-- VFRCP of one value (R66).
DEDUCED: notes/assumptions/25. -/
def rcpOf (fd : Fmt) (sp : FloatSpec) (d : Descr) (operands : List Nat) (a : Val) : Nat × Flags :=
  match a with
  | .nan sig => nanResult sp sig
  | .inf neg => (withSign sp fd.width neg 0, flNone)
  | .num neg m e =>
    if m = 0 then (infResult sp fd.width neg, flDZ)
    else if log2Frac e m < 1 - (sp.bias : Int) then (withSign sp fd.width neg 0, flUF ||| flNX)
    else match powerOfTwo m e with
      | some t => placePow fd sp d neg (-t)
      | none => placeApprox 0 fd sp d neg operands e m

/-- 1 / sqrt(m / e) as a fraction: its root scaled to well over 200 bits, half a unit above the integer root. -/
def rsqrtFrac (m e : Nat) : Nat × Nat :=
  let k := 220 + m.log2
  let r := isqrt ((e * m) <<< (2 * k))
  (2 * r + 1, m <<< (k + 1))

/-- VFRSQ of one value (R66). -/
def rsqOf (fd : Fmt) (sp : FloatSpec) (d : Descr) (operands : List Nat) (a : Val) : Nat × Flags :=
  match a with
  | .nan sig => nanResult sp sig
  | .inf neg => if neg then nanResult sp true else (0, flNone)
  | .num neg m e =>
    if m = 0 then (infResult sp fd.width neg, flDZ)
    else if neg then nanResult sp true
    else
      let approx := let r := rsqrtFrac m e; placeApprox 1 fd sp d false operands r.1 r.2
      match powerOfTwo m e with
      | some t => if t % 2 = 0 then placePow fd sp d false (-(t / 2)) else approx
      | none => approx

/-- Bits of the fixed-point fractions below. -/
def fracBits : Nat := 256

/-- ln 2 scaled by 2^256, from its series 1/(k·2^k), cut below. -/
def ln2Fixed : Nat := (List.range 250).foldl (fun acc i => acc + (1 <<< fracBits) / ((i + 1) * 1 <<< (i + 1))) 0

/-- exp(y) scaled by 2^256 for y scaled by 2^256 and below 1: its series, cut below. -/
def expFixed (y : Nat) : Nat :=
  ((List.range 70).foldl (fun (acc : Nat × Nat) i =>
    let t := ((acc.2 * y) >>> fracBits) / (i + 1)
    (acc.1 + t, t)) (1 <<< fracBits, 1 <<< fracBits)).1

/-- 2^(x) for x = ± m / e that is no integer, as a fraction half a unit of 2^-256 above a lower bound. -/
def exp2Frac (neg : Bool) (m e : Nat) : Nat × Nat :=
  let x : Int := if neg then -(m : Int) else m
  let n := x / (e : Int)
  let f := (x % (e : Int)).toNat
  let y := ((f <<< fracBits) / e * ln2Fixed) >>> fracBits
  let lo := expFixed y
  let p := pow2 (max (-3000) (min n 3000))
  ((2 * lo + 1) * p.1, p.2 <<< (fracBits + 1))

/-- VFEXP2 of one value (R66); `subnormal` tells whether the input is subnormal in its own encoding. -/
def exp2Of (fd : Fmt) (sp : FloatSpec) (d : Descr) (operands : List Nat) (subnormal : Bool) (a : Val) : Nat × Flags :=
  match a with
  | .nan sig => nanResult sp sig
  | .inf neg => if neg then (0, flNone) else (infResult sp fd.width false, flNone)
  | .num neg m e =>
    if m = 0 then placePow fd sp d false 0
    else if subnormal then ((placePow fd sp d false 0).1, flNX)
    else if m % e = 0 then
      let n := m / e
      placePow fd sp d false (if neg then -(n : Int) else n)
    else let r := exp2Frac neg m e; placeApprox 2 fd sp d false operands r.1 r.2

/-- Formats that the approximations accept (R65). -/
def Fmt.wideFloat (f : Fmt) : Bool := f = .f64 || f = .f32 || f = .f16 || f = .bf16

/-- An approximation instruction (R355). -/
def approxOp (op : Fmt → FloatSpec → Descr → List Nat → Bool → Val → Nat × Flags) (k : Blk) (vd va : VIx) (s : State) :
    Out :=
  withFormats s k (fun d => [d.fa, d.fd]) false (fun d fs => fs.all Fmt.wideFloat && !d.asc && !d.dsc)
    fun d fs =>
      match fs with
      | [fa, fd] =>
        let h := s.hart
        writeElems s k vd fd (h.vl k (vlmax h.lanes fs)) (fun e =>
          let bits := h.bitsAt va e fa
          match fa.spec, fd.spec with
          | some sa, some sp =>
            op fd sp d [fa.code, bits] (subnormalBits sa fa.width bits) (decodeVal fa d.ftz bits)
          | _, _ => (0, flNone))
      | _ => fmtFault s k

/-- VFRCP (R355). -/
def execVfrcp (k : Blk) (vd va : VIx) (s : State) : Out := approxOp (fun fd sp d o _ v => rcpOf fd sp d o v) k vd va s
/-- VFRSQ (R355). -/
def execVfrsq (k : Blk) (vd va : VIx) (s : State) : Out := approxOp (fun fd sp d o _ v => rsqOf fd sp d o v) k vd va s
/-- VFEXP2 (R355). -/
def execVfexp2 (k : Blk) (vd va : VIx) (s : State) : Out := approxOp (fun fd sp d o sub v => exp2Of fd sp d o sub v) k vd va s

/- Conversions. -/

/-- Packed integers and floats (R348). -/
def Fmt.plain (f : Fmt) : Bool := (f.integer && !f.sliced) || f.float

/-- VCVT (R348): integers into integers clamp, and a scaled integer source rounds first.
DEDUCED: notes/assumptions/26. -/
def execVcvt (k : Blk) (vd va : VIx) (s : State) : Out :=
  let d := s.hart.descr k
  match Fmt.ofCode d.fa, Fmt.ofCode d.fd with
  | some fa, some fd =>
    if fa.integer && fd.integer && !d.dsc then
      withFormats s k (fun d => [d.fa, d.fd]) false (fun d fs => fs.all Fmt.plain && scaleOk d.asc va fa)
        fun d fs =>
          let h := s.hart
          let vl := h.vl k (vlmax h.lanes fs)
          if d.asc then
            writeElems (s.drawn d vl) k vd fd vl (fun e =>
              place fd { d.rounding s.draw e with sat := true } (h.valAt va e fa true d.ftz))
          else writeElems s k vd fd vl (fun e => fit fd (h.intAt va e fa) true)
    else floatOp1 (·.all Fmt.plain) id k vd va s
  | _, _ => fmtFault s k

/-- Formats that `VQSCALE` writes (R370). -/
def Fmt.quantized (f : Fmt) : Bool := f.narrow || f = .s4 || f = .s8

/-- VQSCALE (R370): the scales of vb divide; VLMAX comes from fa and fd. -/
def execVqscale (k : Blk) (vd va vb : VIx) (s : State) : Out :=
  withFormats s k (fun d => [d.fa, d.fb, d.fd]) false
    (fun d fs => match fs with
      | [fa, fb, fd] => (fa = .f32 || fa = .f16 || fa = .bf16) && fb = .x9 && fd.quantized && !(d.asc || d.bsc || d.dsc)
      | _ => false)
    fun d fs =>
      match fs with
      | [fa, _, fd] =>
        let h := s.hart
        let vl := h.vl k (vlmax h.lanes [fa, fd])
        writeElems (s.drawn d vl) k vd fd vl (fun e =>
          let E := h.bitsAt vb (e / 32) .x9
          if E = 511 then place fd {} (.nan false)
          else place fd (d.rounding s.draw e) ((h.valAt va e fa false d.ftz).scale (255 - (E : Int))))
      | _ => fmtFault s k

end Sys2Proof.Machine
end

