-- ==== Sys2Proof/Machine/VectorMove.lean ====
section
/-!
DEFINITION. Predicate instructions, register moves, permutes, reductions, scans, selections and 4-of-8 pruning (R64,
R254, R320, R321, R344, R347, R364 to R369, R371 to R373, R379, R380).
-/

namespace Sys2Proof.Machine

/- Predicates. -/

/-- The operation of `PLOG` (R321). -/
def logOp (op : LogOp) (a b : Bool) : Bool :=
  match op with
  | .and => a && b
  | .or => a || b
  | .xor => a != b
  | .andn => a && !b

/-- An instruction that writes predicate bits over the VLMAX of fd (R321). -/
def predOp (body : Hart → Nat → Bool) (k : Blk) (pd : PIx) (s : State) : Out :=
  withFormats s k (fun d => [d.fd]) false (fun _ _ => true)
    fun _ fs => writePred s k pd (s.hart.vl k (vlmax s.hart.lanes fs)) (body s.hart) (fun _ => flNone)

/-- PLOG (R321). -/
def execPlog (k : Blk) (pd pa pb : PIx) (op : LogOp) (s : State) : Out :=
  predOp (fun h e => logOp op (h.pbit pa e) (h.pbit pb e)) k pd s
/-- PSET (R321). -/
def execPset (k : Blk) (pd : PIx) (s : State) : Out := predOp (fun _ _ => true) k pd s

/-- PPOPC and PFIRST (R321): every active element takes c modulo 2^w. -/
def predCount (c : List Nat → Nat) (k : Blk) (vd : VIx) (pa : PIx) (s : State) : Out :=
  withFormats s k (fun d => [d.fd]) false
    (fun d fs => fs.all (fun f => f.integer && !f.sliced && decide (16 ≤ f.width) && scaleOk d.dsc vd f))
    fun _ fs =>
      match fs with
      | [fd] =>
        let h := s.hart
        let vl := h.vl k (vlmax h.lanes fs)
        let n := c ((h.actives k vl).filter (h.pbit pa))
        writeElems s k vd fd vl (fun _ => (n % 1 <<< fd.width, flNone))
      | _ => fmtFault s k

/-- PPOPC (R321). -/
def execPpopc (k : Blk) (vd : VIx) (pa : PIx) (s : State) : Out := predCount List.length k vd pa s
/-- PFIRST (R321). -/
def execPfirst (k : Blk) (vd : VIx) (pa : PIx) (s : State) : Out :=
  predCount (fun l => l.head?.getD (1 <<< 64 - 1)) k vd pa s

/- Scalar to vector. -/

/-- Instructions over one packed fd (R344). -/
def bcastFormats (fs : List Fmt) : Bool := fs.all (fun f => !f.sliced)

/-- VBCAST (R344). -/
def execVbcast (k : Blk) (vd : VIx) (xs : Reg) (s : State) : Out :=
  withFormats s k (fun d => [d.fd]) false (fun _ fs => bcastFormats fs)
    fun _ fs =>
      match fs with
      | [fd] => writeElems s k vd fd (s.hart.vl k (vlmax s.hart.lanes fs))
                  (fun _ => ((s.hart.view xs).toNat % 1 <<< fd.width, flNone))
      | _ => fmtFault s k

/-- VINS (R344): element x[xi] alone, when it lies from `VSTART` to VL - 1 and is active. -/
def execVins (k : Blk) (vd : VIx) (xs xi : Reg) (s : State) : Out :=
  withFormats s k (fun d => [d.fd]) false (fun _ fs => bcastFormats fs)
    fun _ fs =>
      match fs with
      | [fd] =>
        let h := s.hart
        let i := (h.view xi).toNat
        if h.vstart ≤ i && i < h.vl k (vlmax h.lanes fs) && h.active k i then
          vDone (s.withHart (h.wrV vd ((h.v[vd.val].setElem h.lanes fd i ((h.view xs).toNat % 1 <<< fd.width)).raise
            h.lanes fd (i + 1))))
        else vDone s
      | _ => fmtFault s k

/- Moves and permutes. -/

/-- fa = fd, packed (R347, R365, R369). -/
def sameFormats (fs : List Fmt) : Bool :=
  match fs with
  | [fa, fd] => fa = fd && !fa.sliced
  | _ => false

/-- An instruction that moves element bits of va under one format (R347, R365, R369): the source bits of an active
element from its index and VL. `marks` checks the scaling bits that the instruction uses. -/
def moveOp (marks : Descr → Fmt → Bool) (body : Hart → Fmt → Nat → Nat → Nat) (k : Blk) (vd : VIx) (s : State) : Out :=
  withFormats s k (fun d => [d.fa, d.fd]) false (fun d fs => sameFormats fs && fs.all (marks d))
    fun _ fs =>
      match fs with
      | [fa, _] =>
        let vl := s.hart.vl k (vlmax s.hart.lanes fs)
        writeElems s k vd fa vl (fun e => (body s.hart fa vl e, flNone))
      | _ => fmtFault s k

/-- The scaling bits of an instruction with the data operands va and vd of one format (R55). R57 speaks of a destination
that an instruction writes scaled: the model holds none of these instructions to its pg, pn and `VSTART` condition.
DEDUCED: notes/assumptions/26. -/
def moveMarks (vd va : VIx) (d : Descr) (f : Fmt) : Bool := marksOk [(d.asc, va, f), (d.dsc, vd, f)]

/-- VMOV (R365), which uses no scaling bit. -/
def execVmov (k : Blk) (vd va : VIx) (s : State) : Out :=
  moveOp (fun _ _ => true) (fun h f _ e => h.bitsAt va e f) k vd s
/-- VSLUP (R369): element e takes element e - x[xs]. -/
def execVslup (k : Blk) (vd va : VIx) (xs : Reg) (s : State) : Out :=
  moveOp (moveMarks vd va) (fun h f _ e => let n := (h.view xs).toNat; if n ≤ e then h.bitsAt va (e - n) f else 0) k vd s
/-- VSLDN (R369): element e takes element e + x[xs]. -/
def execVsldn (k : Blk) (vd va : VIx) (xs : Reg) (s : State) : Out :=
  moveOp (moveMarks vd va)
    (fun h f vl e => let n := (h.view xs).toNat; if e + n < vl then h.bitsAt va (e + n) f else 0) k vd s

/-- VMERGE (R365). -/
def execVmerge (k : Blk) (vd va vb : VIx) (pc : PIx) (s : State) : Out :=
  withFormats s k (fun d => [d.fa, d.fb, d.fd]) false
    (fun _ fs => match fs with
      | [fa, fb, fd] => fa = fd && fb = fd && !fd.sliced
      | _ => false)
    fun _ fs =>
      match fs with
      | [_, _, fd] =>
        let h := s.hart
        writeElems s k vd fd (h.vl k (vlmax h.lanes fs)) (fun e =>
          (if h.pbit pc e then h.bitsAt va e fd else h.bitsAt vb e fd, flNone))
      | _ => fmtFault s k

/-- Index formats of `VPERM` (R369). -/
def Fmt.permIndex (f : Fmt) : Bool :=
  f = .n8 || f = .n16 || f = .n32 || f = .n64 || f = .s32 || f = .s64

/-- VPERM (R369). -/
def execVperm (k : Blk) (vd va vb : VIx) (s : State) : Out :=
  withFormats s k (fun d => [d.fa, d.fb, d.fd]) false
    (fun d fs => match fs with
      | [fa, fb, fd] => fa = fd && !fd.sliced && fb.permIndex && moveMarks vd va d fd && scaleOk d.bsc vb fb
      | _ => false)
    fun _ fs =>
      match fs with
      | [_, fb, fd] =>
        let h := s.hart
        let vl := h.vl k (vlmax h.lanes fs)
        writeElems s k vd fd vl (fun e =>
          let i := h.intAt vb e fb
          (if 0 ≤ i ∧ i < (vl : Int) then h.bitsAt va i.toNat fd else 0, flNone))
      | _ => fmtFault s k

/-- A vector write element by element: the bits of an element, or none to leave it (R347). -/
def Hart.scatter (h : Hart) (vd : VIx) (f : Fmt) (vl : Nat) (body : Nat → Option Nat) : Hart :=
  let r := (List.range' h.vstart (vl - h.vstart)).foldl (fun r e =>
    match body e with
    | some x => r.setElem h.lanes f e x
    | none => r) h.v[vd.val]
  h.wrV vd (if vl ≤ h.vstart then r else r.raise h.lanes f vl)

/-- VCOMPR (R347). -/
def execVcompr (k : Blk) (vd va : VIx) (pb : PIx) (s : State) : Out :=
  withFormats s k (fun d => [d.fa, d.fd]) false (fun d fs => sameFormats fs && fs.all (moveMarks vd va d))
    fun _ fs =>
      match fs with
      | [fa, _] =>
        let h := s.hart
        let vl := h.vl k (vlmax h.lanes fs)
        let t := (List.range' h.vstart (vl - h.vstart)).filter (h.pbit pb)
        vDone (s.withHart (h.scatter vd fa vl (fun e =>
          match t[e - h.vstart]? with
          | some i => if h.active k e then some (h.bitsAt va i fa) else if k.pz then some 0 else none
          | none => if k.pz then some 0 else none)))
      | _ => fmtFault s k

/-- VEXPND (R347): the selected elements before e number the source element. -/
def execVexpnd (k : Blk) (vd va : VIx) (pb : PIx) (s : State) : Out :=
  withFormats s k (fun d => [d.fa, d.fd]) false (fun d fs => sameFormats fs && fs.all (moveMarks vd va d))
    fun _ fs =>
      match fs with
      | [fa, _] =>
        let h := s.hart
        let vl := h.vl k (vlmax h.lanes fs)
        vDone (s.withHart (h.scatter vd fa vl (fun e =>
          if h.pbit pb e && h.active k e then
            some (h.bitsAt va ((List.range' h.vstart (e - h.vstart)).countP (h.pbit pb)) fa)
          else if k.pz then some 0 else none)))
      | _ => fmtFault s k

/- Reductions and scans. -/

/-- Formats of the reductions (R371): both packed integer or both float, a scaled narrow float source. -/
def reduceFormats (d : Descr) (va : VIx) (fs : List Fmt) : Bool :=
  match fs with
  | [fa, fd] =>
    ((fa.integer && !fa.sliced && fd.integer && !fd.sliced && !d.asc) || (fa.float && fd.float && scaleOk d.asc va fa)) &&
      !d.dsc
  | _ => false

/-- A running result: its value, the flags so far, and the number of the next free value. -/
structure Acc where
  val : Val
  flags : Flags
  draw : Nat
  deriving DecidableEq, Repr

/-- One rounded step of a float reduction: Place(fd, v) as a value again. -/
def Acc.placed (a : Acc) (d : Descr) (fd : Fmt) (v : Val) : Acc × Nat :=
  let r := place fd (d.rounding a.draw 0) v
  ({ val := decodeVal fd false r.1, flags := a.flags ||| r.2, draw := a.draw + 1 }, r.1)

/-- An ordered sum (R64, R372): the exact first element, then one rounding for each addition. -/
def orderedSum (d : Descr) (fd : Fmt) : Acc → List Val → Acc
  | a, [] => a
  | a, v :: vs => orderedSum d fd (a.placed d fd (a.val.add (d.rnd = 2) v)).1 vs

/-- An unordered sum (R64): two of the values left, which the opaque choice names, join until one is left; any binary
tree is such a sequence.
DESIGN CHOICE: notes/assumptions/13. -/
def unorderedSum (d : Descr) (fd : Fmt) : Nat → Acc → List Val → Acc
  | 0, a, _ => a
  | fuel + 1, a, vs =>
    match vs with
    | [] => a
    | [v] => { a with val := v }
    | vs =>
      let n := vs.length
      let c := Config.treePick a.draw
      let i := c % n
      let rest := vs.eraseIdx i
      let j := (c / n) % (n - 1)
      let r := (a.placed d fd ((vs.getD i (.nan false)).add (d.rnd = 2) (rest.getD j (.nan false)))).1
      unorderedSum d fd fuel r (r.val :: rest.eraseIdx j)

/-- The float result of a reduction over the contributing values, with the union of its flags (R372). -/
structure Reducer where
  ints : List Int → Int
  floats : Descr → Fmt → Acc → List Val → Acc

/-- A reduction (R372): it writes element 0 when any element contributes.
DEDUCED: notes/assumptions/57. -/
def reduceOp (r : Reducer) (k : Blk) (vd va : VIx) (s : State) : Out :=
  withFormats s k (fun d => [d.fa, d.fd]) false (fun d fs => reduceFormats d va fs)
    fun d fs =>
      match fs with
      | [fa, fd] =>
        let h := s.hart
        let c := h.actives k (h.vl k (vlmax h.lanes fs))
        let write (bits : Nat) (s : State) : State :=
          s.withHart (h.wrV vd ((h.v[vd.val].setElem h.lanes fd 0 bits).raise h.lanes fd 1))
        if c.isEmpty then vDone s
        else if fd.integer then
          let x := fit fd (r.ints (c.map (fun e => h.intAt va e fa))) d.sat
          vDoneFlags (write x.1 s) [x.2]
        else
          let vs := c.map (fun e => h.valAt va e fa d.asc d.ftz)
          let a := r.floats d fd { val := .nan false, flags := flNone, draw := s.draw } vs
          let x := a.placed d fd a.val
          vDoneFlags (write x.2 { s with draw := x.1.draw }) [x.1.flags]
      | _ => fmtFault s k

/-- The first value as it stands, then a fold over the others. -/
def foldVals (f : Acc → List Val → Acc) (a : Acc) : List Val → Acc
  | [] => a
  | v :: vs => f { a with val := v } vs

/-- VREDSUM (R372). -/
def execVredsum (k : Blk) (vd va : VIx) (ordered : Bool) (s : State) : Out :=
  reduceOp { ints := List.sum
             floats := fun d fd a vs => if ordered then foldVals (orderedSum d fd) a vs
                                        else unorderedSum d fd vs.length a vs } k vd va s

/-- The largest or smallest of values (R353, R372), with NV for a signalling NaN that a step meets. -/
def chooseAll (max : Bool) (a : Acc) (vs : List Val) : Acc :=
  foldVals (fun a vs => vs.foldl (fun a v =>
    { a with val := a.val.choose max v,
             flags := a.flags ||| (if a.val.isSignalling || v.isSignalling then flNV else flNone) }) a) a vs

/-- The largest or smallest integer. -/
def chooseInt (max : Bool) (l : List Int) : Int :=
  match l with
  | [] => 0
  | x :: xs => xs.foldl (fun a b => if max then (if a < b then b else a) else (if b < a then b else a)) x

/-- VREDMAX (R372). -/
def execVredmax (k : Blk) (vd va : VIx) (s : State) : Out :=
  reduceOp { ints := chooseInt true, floats := fun _ _ => chooseAll true } k vd va s
/-- VREDMIN (R372). -/
def execVredmin (k : Blk) (vd va : VIx) (s : State) : Out :=
  reduceOp { ints := chooseInt false, floats := fun _ _ => chooseAll false } k vd va s

/-- The running sums of `VSCAN` over integers: each active element with its bits and flags (R373). -/
def scanInts (fd : Fmt) (sat : Bool) (get : Nat → Int) : Int → List Nat → List (Nat × Nat × Flags)
  | _, [] => []
  | acc, e :: es =>
    let x := acc + get e
    (e, fit fd x sat) :: scanInts fd sat get x es

/-- The running sums of `VSCAN` over floats (R373); `acc` is absent before the first active element. -/
def scanFloats (d : Descr) (fd : Fmt) (get : Nat → Val) : Option Val → Nat → List Nat → List (Nat × Nat × Flags)
  | _, _, [] => []
  | acc, draw, e :: es =>
    let v := match acc with
      | none => get e
      | some a => a.add (d.rnd = 2) (get e)
    let r := place fd (d.rounding draw 0) v
    let next := match acc with
      | none => v
      | some _ => decodeVal fd false r.1
    (e, r.1, r.2) :: scanFloats d fd get (some next) (draw + 1) es

/-- VSCAN (R373). -/
def execVscan (k : Blk) (vd va : VIx) (s : State) : Out :=
  withFormats s k (fun d => [d.fa, d.fd]) false (fun d fs => reduceFormats d va fs)
    fun d fs =>
      match fs with
      | [fa, fd] =>
        let h := s.hart
        let vl := h.vl k (vlmax h.lanes fs)
        let c := h.actives k vl
        let out := if fd.integer then scanInts fd d.sat (fun e => h.intAt va e fa) 0 c
          else scanFloats d fd (fun e => h.valAt va e fa d.asc d.ftz) none s.draw c
        vDoneFlags ((s.drawn d vl).withHart (h.wrV vd (h.frame k vd fd vl (fun e => (((alookup out e).map (·.1)).getD 0)))))
          (out.map (·.2.2))
      | _ => fmtFault s k

/- Selections. -/

/-- Whether element a goes before element b in the order of `VTOPK` (R380). -/
def topBefore (nanlow : Bool) (a b : Nat × Val) : Bool :=
  let c : Int :=
    if a.2.isNan && b.2.isNan then 0
    else if a.2.isNan then (if nanlow then -1 else 1)
    else if b.2.isNan then (if nanlow then 1 else -1)
    else a.2.cmp b.2
  decide (0 < c) || (c == 0 && decide (a.1 < b.1))

/-- Insertion into a list ordered by `before`. -/
def insertBy {α : Type} (before : α → α → Bool) (x : α) : List α → List α
  | [] => [x]
  | y :: ys => if before x y then x :: y :: ys else y :: insertBy before x ys

/-- A list in the order that `before` gives. -/
def orderBy {α : Type} (before : α → α → Bool) (l : List α) : List α := l.foldr (insertBy before) []

/-- VTOPK (R380): the indices go to vd + 1 as n32; the ratio limit counts fa and fd alone.
DEDUCED: notes/assumptions/26. -/
def execVtopk (k : Blk) (vd va : VIx) (xk : Reg) (nanlow : Bool) (s : State) : Out :=
  withFormats s k (fun d => [d.fa, d.fd]) false
    (fun d fs => sameFormats fs && fs.all (· != .x9) && !d.asc && !d.dsc)
    fun _ fs =>
      match fs with
      | [fa, _] =>
        let h := s.hart
        let c := h.actives k (h.vl k (vlmax h.lanes [fa, .n32]))
        let ranked := orderBy (topBefore nanlow) (c.map (fun e => (e, decodeVal fa false (h.bitsAt va e fa))))
        let best := (ranked.map (·.1)).take (h.view xk).toNat
        if best.isEmpty then vDone s
        else
          let m := best.length
          let put (f : Fmt) (r : VReg) (l : List Nat) : VReg :=
            ((l.zip (List.range m)).foldl (fun r p => r.setElem h.lanes f p.2 p.1) r).raise h.lanes f m
          vDone (s.withHart ((h.wrV vd (put fa h.v[vd.val] (best.map (fun e => h.bitsAt va e fa)))).wrV (vd + 1)
            (put .n32 h.v[(vd + 1).val] best)))
      | _ => fmtFault s k

/-- Mag of R379 as an order: whether position a of a group goes before position b. -/
def magBefore (a b : Nat × Val) : Bool :=
  let abs (v : Val) : Val := match v with
    | .num _ m d => .num false m d
    | .inf _ => .inf false
    | v => v
  topBefore false (a.1, abs a.2) (b.1, abs b.2)

/-- The four positions that a group of eight values keeps, ascending (R254, R379). -/
def keptFour (vs : List Val) : List Nat :=
  let best := ((orderBy magBefore ((List.range vs.length).zip vs)).map (·.1)).take 4
  (List.range 8).filter best.contains

/-- Formats that `VSPRUNE` reads (R379). -/
def Fmt.prunable (f : Fmt) : Bool := f = .s8 || f = .s4 || f = .bf16 || f = .f16 || f.narrow

/-- VSPRUNE (R254, R379).
DEDUCED: notes/assumptions/26. -/
def execVsprune (k : Blk) (vd va vc : VIx) (s : State) : Out :=
  withFormats s k (fun d => [d.fa, d.fc, d.fd]) false
    (fun d fs => match fs with
      | [fa, fc, fd] => fa.prunable && fd = fa && fc = .n16 && !d.asc && !d.dsc && s.hart.vstart % 8 == 0 &&
          s.hart.vl k (vlmax s.hart.lanes fs) % 8 == 0
      | _ => false)
    fun _ fs =>
      match fs with
      | [fa, _, _] =>
        let h := s.hart
        let L := h.lanes
        let vl := h.vl k (vlmax L fs)
        let step (r : VReg × VReg) (g : Nat) : VReg × VReg :=
          let put (vals : List Nat) (con : Nat) : VReg × VReg :=
            (((List.range 4).zip vals).foldl (fun v p => v.setElem L fa (4 * g + p.1) p.2) r.1, r.2.setElem L .n16 g con)
          if h.active k (8 * g) then
            let kept := keptFour ((List.range 8).map (fun i => decodeVal fa false (h.bitsAt va (8 * g + i) fa)))
            put (kept.map (fun i => h.bitsAt va (8 * g + i) fa))
              (((List.range 4).zip kept).foldl (fun n p => n + p.2 <<< (3 * p.1)) 0)
          else if k.pz then put [0, 0, 0, 0] 0
          else r
        if vl ≤ h.vstart then vDone s
        else
          let r := (List.range' (h.vstart / 8) (vl / 8 - h.vstart / 8)).foldl step (h.v[vd.val], h.v[vc.val])
          vDone (s.withHart ((h.wrV vd (r.1.raise L fa (vl / 2))).wrV vc (r.2.raise L .n16 (vl / 8))))
      | _ => fmtFault s k

end Sys2Proof.Machine
end

