-- ==== Sys2Proof/Machine/VectorRotate.lean ====
section
/-!
DEFINITION. `VROPE` (R374 to R376): rotary position embedding. The exact real r is enclosed by fixed-point series of
640 bits; its error lies far below the last place of any format, so the two values of fd that bracket the enclosure
bracket r.
-/

namespace Sys2Proof.Machine

/-- Bits after the point of the fixed-point numbers below. -/
def ropeBits : Nat := 640

/-- arctan(1 / x) scaled by 2^640, from its alternating series. -/
def arctanInv (x : Nat) : Int :=
  ((List.range 150).foldl (fun (acc : Int × Nat) k =>
    let t : Int := (acc.2 / (2 * k + 1) : Nat)
    (if k % 2 = 0 then acc.1 + t else acc.1 - t, acc.2 / (x * x))) (0, (1 <<< ropeBits) / x)).1

/-- 2π scaled by 2^640: 32·arctan(1/5) - 8·arctan(1/239). -/
def twoPiFixed : Int := 32 * arctanInv 5 - 8 * arctanInv 239

/-- (cos y, sin y) scaled by 2^640 for y scaled by 2^640, from their series. -/
def cosSinFixed (y : Int) : Int × Int :=
  let one : Int := (1 <<< ropeBits : Nat)
  let r := (List.range 200).foldl (fun (acc : Int × Int × Int) (k : Nat) =>
    let t := acc.1
    let c := if k % 4 = 0 then acc.2.1 + t else if k % 4 = 2 then acc.2.1 - t else acc.2.1
    let n := if k % 4 = 1 then acc.2.2 + t else if k % 4 = 3 then acc.2.2 - t else acc.2.2
    ((t * y / one) / ((k : Int) + 1), c, n)) (one, 0, 0)
  r.2

/-- An exact finite value times 2^640. -/
def Val.fixed (v : Val) : Int := v.over v.den * ((1 <<< ropeBits : Nat) : Int) / (v.den : Int)

/-- The finite number below r in a fraction over 2^1280 for θ ≠ 0: x0·cos θ - x1·sin θ, or x0·sin θ + x1·cos θ for an
odd element. -/
def rotated (even : Bool) (x0 x1 θ : Val) : Int :=
  let cs := cosSinFixed (θ.fixed % twoPiFixed)
  if even then x0.fixed * cs.1 - x1.fixed * cs.2 else x0.fixed * cs.2 + x1.fixed * cs.1

/-- One of the two values of the format that bracket a finite value, or the value itself when the format holds it.
DESIGN CHOICE: notes/assumptions/12. -/
def placeOrBracket (fd : Fmt) (sp : FloatSpec) (sat away : Bool) (v : Val) : Nat × Flags :=
  match v with
  | .num neg m d =>
    let r := placeFloat sp fd.width { mode := 1, sat := sat } v
    if m = 0 || r.2 = flNone then r else placeBracket sp fd.width sat false neg away m d
  | v => placeFloat sp fd.width { mode := 1, sat := sat } v

/-- A rotated element (R375, R376) from its pair, its angle factors and its parity. -/
def ropeElement (fd : Fmt) (sp : FloatSpec) (d : Descr) (operands : List Nat) (even : Bool) (x0 x1 pos freq : Val) :
    Nat × Flags :=
  let isInf (v : Val) : Bool := match v with | .inf _ => true | _ => false
  let θ := pos.mul freq
  let finite : Bool := match θ with | .num _ _ _ => true | _ => false
  if !finite || isInf x0 || isInf x1 then nanResult sp true
  else if x0.isNan || x1.isNan then nanResult sp (x0.isSignalling || x1.isSignalling)
  else
    let away := awayFor 3 fd operands
    if θ.isZero then placeOrBracket fd sp d.sat away (if even then x0 else x1)
    else if x0.isZero && x1.isZero then
      placeFloat sp fd.width {} (if even then x0.add false x1.negate else x0.add false x1)
    else
      let r := rotated even x0 x1 θ
      placeBracket sp fd.width d.sat false (decide (r < 0)) away (2 * r.natAbs + 1) (1 <<< (2 * ropeBits + 1))

/-- The axis of pair p (R374): 0, 1 or 2, none when the pair is not rotated. -/
def ropeAxis (part : BitVec 24) (p : Nat) : Option Nat :=
  let nt := (part.extractLsb' 0 8).toNat
  let nh := (part.extractLsb' 8 8).toNat
  let nw := (part.extractLsb' 16 8).toNat
  if p < nt then some 0 else if p < nt + nh then some 1 else if p < nt + nh + nw then some 2 else none

/-- Formats of `VROPE`'s data (R375). -/
def Fmt.ropeData (f : Fmt) : Bool := f = .f32 || f = .f16 || f = .bf16

/-- The dispatch checks of R375. -/
def ropeOk (h : Hart) (k : Blk) (xh : Reg) (d : Descr) (fs : List Fmt) : Bool :=
  match fs with
  | [fa, fb, fc, fd] =>
    let D := (h.view xh).toNat
    fa.ropeData && fb = .s32 && fc = .f32 && fd.ropeData && !(d.asc || d.bsc || d.dsc) && D % 2 == 0 && decide (8 ≤ D) &&
      decide (D / 2 ≤ vlmax h.lanes [fc]) && h.vl k (vlmax h.lanes fs) % D == 0 && h.vstart % D == 0
  | _ => false

/-- VROPE (R375, R376). -/
def execVrope (k : Blk) (vd va vb vc : VIx) (xh : Reg) (s : State) : Out :=
  withFormats s k (fun d => [d.fa, d.fb, d.fc, d.fd]) false (ropeOk s.hart k xh)
    fun d fs =>
      match fs with
      | [fa, fb, fc, fd] =>
        let h := s.hart
        let D := (h.view xh).toNat
        let vl := h.vl k (vlmax h.lanes fs)
        writeElems (s.drawn d vl) k vd fd vl (fun e =>
          let q := e / D
          let p := e % D / 2
          match ropeAxis h.viewRope p, fd.spec with
          | some axis, some sp =>
            let a := q * D + 2 * p
            let operands := [e % 2, fa.code, h.bitsAt va a fa, h.bitsAt va (a + 1) fa, h.bitsAt vb (3 * q + axis) fb,
              h.bitsAt vc p fc]
            ropeElement fd sp d operands (e % 2 == 0) (h.valAt va a fa false d.ftz) (h.valAt va (a + 1) fa false d.ftz)
              (h.valAt vb (3 * q + axis) fb false false) (h.valAt vc p fc false d.ftz)
          | _, _ => place fd (d.rounding s.draw e) (h.valAt va e fa false d.ftz))
      | _ => fmtFault s k

end Sys2Proof.Machine
end

