-- ==== Sys2Proof/Machine/Dispatch.lean ====
section
/-!
DEFINITION. The dispatch: one arm for each constructor of `Instr`.
-/

namespace Sys2Proof.Machine

open Sys2Proof

/-- What an instruction or a step of the machine does. -/
def exec (i : Instr) (s : State) : Host.Outcome State Fault Refusal :=
  match i with
  | .add d a b w => Sys2Proof.Machine.execAdd d a b w s
  | .sub d a b w => Sys2Proof.Machine.execSub d a b w s
  | .and d a b w => Sys2Proof.Machine.execAnd d a b w s
  | .or d a b w => Sys2Proof.Machine.execOr d a b w s
  | .xor d a b w => Sys2Proof.Machine.execXor d a b w s
  | .sll d a b w => Sys2Proof.Machine.execSll d a b w s
  | .srl d a b w => Sys2Proof.Machine.execSrl d a b w s
  | .sra d a b w => Sys2Proof.Machine.execSra d a b w s
  | .slt d a b w => Sys2Proof.Machine.execSlt d a b w s
  | .sltn d a b w => Sys2Proof.Machine.execSltn d a b w s
  | .min d a b w => Sys2Proof.Machine.execMin d a b w s
  | .max d a b w => Sys2Proof.Machine.execMax d a b w s
  | .minn d a b w => Sys2Proof.Machine.execMinn d a b w s
  | .maxn d a b w => Sys2Proof.Machine.execMaxn d a b w s
  | .mul d a b w => Sys2Proof.Machine.execMul d a b w s
  | .mulh d a b w => Sys2Proof.Machine.execMulh d a b w s
  | .mulhn d a b w => Sys2Proof.Machine.execMulhn d a b w s
  | .div d a b w => Sys2Proof.Machine.execDiv d a b w s
  | .divn d a b w => Sys2Proof.Machine.execDivn d a b w s
  | .rem d a b w => Sys2Proof.Machine.execRem d a b w s
  | .remn d a b w => Sys2Proof.Machine.execRemn d a b w s
  | .clz d a w => Sys2Proof.Machine.execClz d a w s
  | .ctz d a w => Sys2Proof.Machine.execCtz d a w s
  | .popc d a w => Sys2Proof.Machine.execPopc d a w s
  | .addi d a imm => Sys2Proof.Machine.execAddi d a imm s
  | .andi d a imm => Sys2Proof.Machine.execAndi d a imm s
  | .ori d a imm => Sys2Proof.Machine.execOri d a imm s
  | .xori d a imm => Sys2Proof.Machine.execXori d a imm s
  | .slti d a imm => Sys2Proof.Machine.execSlti d a imm s
  | .slli d a n => Sys2Proof.Machine.execSlli d a n s
  | .srli d a n => Sys2Proof.Machine.execSrli d a n s
  | .srai d a n => Sys2Proof.Machine.execSrai d a n s
  | .lui d imm => Sys2Proof.Machine.execLui d imm s
  | .auipc d imm => Sys2Proof.Machine.execAuipc d imm s
  | .fadd p m d a b => Sys2Proof.Machine.execFadd p m d a b s
  | .fsub p m d a b => Sys2Proof.Machine.execFsub p m d a b s
  | .fmul p m d a b => Sys2Proof.Machine.execFmul p m d a b s
  | .fdiv p m d a b => Sys2Proof.Machine.execFdiv p m d a b s
  | .fsqrt p m d a => Sys2Proof.Machine.execFsqrt p m d a s
  | .fmin p m d a b => Sys2Proof.Machine.execFmin p m d a b s
  | .fmax p m d a b => Sys2Proof.Machine.execFmax p m d a b s
  | .feq p m d a b => Sys2Proof.Machine.execFeq p m d a b s
  | .flt p m d a b => Sys2Proof.Machine.execFlt p m d a b s
  | .fle p m d a b => Sys2Proof.Machine.execFle p m d a b s
  | .fcvt dst src m d a => Sys2Proof.Machine.execFcvt dst src m d a s
  | .fmaOpcode0d p np nc m d a b c => Sys2Proof.Machine.execFmaOpcode0d p np nc m d a b c s
  | .fmaOpcode0e p np nc m d a b c => Sys2Proof.Machine.execFmaOpcode0e p np nc m d a b c s
  | .ld z sx aq d a off => Sys2Proof.Machine.execLd z sx aq d a off s
  | .st z rel d a off => Sys2Proof.Machine.execSt z rel d a off s
  | .amo op dword ord sc d a b => Sys2Proof.Machine.execAmo op dword ord sc d a b s
  | .fence kind sc => Sys2Proof.Machine.execFence kind sc s
  | .beq a b off => Sys2Proof.Machine.execBeq a b off s
  | .bne a b off => Sys2Proof.Machine.execBne a b off s
  | .blt a b off => Sys2Proof.Machine.execBlt a b off s
  | .bge a b off => Sys2Proof.Machine.execBge a b off s
  | .bltn a b off => Sys2Proof.Machine.execBltn a b off s
  | .bgen a b off => Sys2Proof.Machine.execBgen a b off s
  | .jal d off => Sys2Proof.Machine.execJal d off s
  | .jalr d a imm => Sys2Proof.Machine.execJalr d a imm s
  | .vf off => Sys2Proof.Machine.execVf off s
  | .setl d a fmt keep => Sys2Proof.Machine.execSetl d a fmt keep s
  | .vfr a => Sys2Proof.Machine.execVfr a s
  | .vget d a fmt va => Sys2Proof.Machine.execVget d a fmt va s
  | .hset d h a => Sys2Proof.Machine.execHset d h a s
  | .hclr h => Sys2Proof.Machine.execHclr h s
  | .adv k => Sys2Proof.Machine.execAdv k s
  | .kset k a b target => Sys2Proof.Machine.execKset k a b target s
  | .havail d h => Sys2Proof.Machine.execHavail d h s
  | .hflush h => Sys2Proof.Machine.execHflush h s
  | .hwait h => Sys2Proof.Machine.execHwait h s
  | .kget d k sel => Sys2Proof.Machine.execKget d k sel s
  | .matt d a => Sys2Proof.Machine.execMatt d a s
  | .mdet => Sys2Proof.Machine.execMdet s
  | .launch d a => Sys2Proof.Machine.execLaunch d a s
  | .exit => Sys2Proof.Machine.execExit s
  | .wait a b => Sys2Proof.Machine.execWait a b s
  | .yield => Sys2Proof.Machine.execYield s
  | .bar => Sys2Proof.Machine.execBar s
  | .strip d => Sys2Proof.Machine.execStrip d s
  | .seqnew d a => Sys2Proof.Machine.execSeqnew d a s
  | .seqgrow d a => Sys2Proof.Machine.execSeqgrow d a s
  | .seqend a => Sys2Proof.Machine.execSeqend a s
  | .seqendT d a b => Sys2Proof.Machine.execSeqendT d a b s
  | .gfind d a b => Sys2Proof.Machine.execGfind d a b s
  | .gdep d a => Sys2Proof.Machine.execGdep d a s
  | .gpin d a b => Sys2Proof.Machine.execGpin d a b s
  | .gunpin d a b => Sys2Proof.Machine.execGunpin d a b s
  | .gload d a b => Sys2Proof.Machine.execGload d a b s
  | .gdrop d a b => Sys2Proof.Machine.execGdrop d a b s
  | .sbin d a => Sys2Proof.Machine.execSbin d a s
  | .spair d z a b => Sys2Proof.Machine.execSpair d z a b s
  | .sstat d a => Sys2Proof.Machine.execSstat d a s
  | .sopen d z a => Sys2Proof.Machine.execSopen d z a s
  | .sclose z => Sys2Proof.Machine.execSclose z s
  | .csrr d n => Sys2Proof.Machine.execCsrr d n s
  | .csrw n a => Sys2Proof.Machine.execCsrw n a s
  | .csrs n a => Sys2Proof.Machine.execCsrs n a s
  | .csrc n a => Sys2Proof.Machine.execCsrc n a s
  | .trap code => Sys2Proof.Machine.execTrap code s
  | .tret => Sys2Proof.Machine.execTret s
  | .brk code => Sys2Proof.Machine.execBrk code s
  | .pswap d a b => Sys2Proof.Machine.execPswap d a b s
  | .readLifetimeCounter => Sys2Proof.Machine.execReadLifetimeCounter s
  | .readMeasurementLog => Sys2Proof.Machine.execReadMeasurementLog s
  | .postPartitionNotice => Sys2Proof.Machine.execPostPartitionNotice s
  | .vstop => Sys2Proof.Machine.execVstop s
  | .vnop c => Sys2Proof.Machine.execVnop c s
  | .vadd k vd va vb => Sys2Proof.Machine.execVadd k vd va vb s
  | .vsub k vd va vb => Sys2Proof.Machine.execVsub k vd va vb s
  | .vmul k vd va vb => Sys2Proof.Machine.execVmul k vd va vb s
  | .vmulh k vd va vb => Sys2Proof.Machine.execVmulh k vd va vb s
  | .vmin k vd va vb => Sys2Proof.Machine.execVmin k vd va vb s
  | .vmax k vd va vb => Sys2Proof.Machine.execVmax k vd va vb s
  | .vand k vd va vb => Sys2Proof.Machine.execVand k vd va vb s
  | .vor k vd va vb => Sys2Proof.Machine.execVor k vd va vb s
  | .vxor k vd va vb => Sys2Proof.Machine.execVxor k vd va vb s
  | .vsll k vd va vb => Sys2Proof.Machine.execVsll k vd va vb s
  | .vsrl k vd va vb => Sys2Proof.Machine.execVsrl k vd va vb s
  | .vsra k vd va vb => Sys2Proof.Machine.execVsra k vd va vb s
  | .vadds k vd va vb => Sys2Proof.Machine.execVadds k vd va vb s
  | .vsubs k vd va vb => Sys2Proof.Machine.execVsubs k vd va vb s
  | .vabsd k vd va vb => Sys2Proof.Machine.execVabsd k vd va vb s
  | .vmac k vd va vb vc => Sys2Proof.Machine.execVmac k vd va vb vc s
  | .vcmp k pd va vb cond => Sys2Proof.Machine.execVcmp k pd va vb cond s
  | .vaddi k vd va imm => Sys2Proof.Machine.execVaddi k vd va imm s
  | .vshi k vd va kind n => Sys2Proof.Machine.execVshi k vd va kind n s
  | .viota k vd => Sys2Proof.Machine.execViota k vd s
  | .vfadd k vd va vb => Sys2Proof.Machine.execVfadd k vd va vb s
  | .vfsub k vd va vb => Sys2Proof.Machine.execVfsub k vd va vb s
  | .vfmul k vd va vb => Sys2Proof.Machine.execVfmul k vd va vb s
  | .vfma k vd va vb vc np nc => Sys2Proof.Machine.execVfma k vd va vb vc np nc s
  | .vfdiv k vd va vb => Sys2Proof.Machine.execVfdiv k vd va vb s
  | .vfsqrt k vd va => Sys2Proof.Machine.execVfsqrt k vd va s
  | .vfrcp k vd va => Sys2Proof.Machine.execVfrcp k vd va s
  | .vfrsq k vd va => Sys2Proof.Machine.execVfrsq k vd va s
  | .vfexp2 k vd va => Sys2Proof.Machine.execVfexp2 k vd va s
  | .vfmin k vd va vb => Sys2Proof.Machine.execVfmin k vd va vb s
  | .vfmax k vd va vb => Sys2Proof.Machine.execVfmax k vd va vb s
  | .vfcmp k pd va vb cond => Sys2Proof.Machine.execVfcmp k pd va vb cond s
  | .vfclass k vd va => Sys2Proof.Machine.execVfclass k vd va s
  | .vcvt k vd va => Sys2Proof.Machine.execVcvt k vd va s
  | .vslice k vd va => Sys2Proof.Machine.execVslice k vd va s
  | .vunslice k vd va => Sys2Proof.Machine.execVunslice k vd va s
  | .vqscale k vd va vb => Sys2Proof.Machine.execVqscale k vd va vb s
  | .plog k pd pa pb op => Sys2Proof.Machine.execPlog k pd pa pb op s
  | .ppopc k vd pa => Sys2Proof.Machine.execPpopc k vd pa s
  | .pfirst k vd pa => Sys2Proof.Machine.execPfirst k vd pa s
  | .pset k pd => Sys2Proof.Machine.execPset k pd s
  | .vbcast k vd xs => Sys2Proof.Machine.execVbcast k vd xs s
  | .vins k vd xs xi => Sys2Proof.Machine.execVins k vd xs xi s
  | .vslup k vd va xs => Sys2Proof.Machine.execVslup k vd va xs s
  | .vsldn k vd va xs => Sys2Proof.Machine.execVsldn k vd va xs s
  | .vperm k vd va vb => Sys2Proof.Machine.execVperm k vd va vb s
  | .vcompr k vd va pb => Sys2Proof.Machine.execVcompr k vd va pb s
  | .vexpnd k vd va pb => Sys2Proof.Machine.execVexpnd k vd va pb s
  | .vmerge k vd va vb pc => Sys2Proof.Machine.execVmerge k vd va vb pc s
  | .vmov k vd va => Sys2Proof.Machine.execVmov k vd va s
  | .vredsum k vd va ordered => Sys2Proof.Machine.execVredsum k vd va ordered s
  | .vredmax k vd va => Sys2Proof.Machine.execVredmax k vd va s
  | .vredmin k vd va => Sys2Proof.Machine.execVredmin k vd va s
  | .vscan k vd va => Sys2Proof.Machine.execVscan k vd va s
  | .vtopk k vd va xk nanlow => Sys2Proof.Machine.execVtopk k vd va xk nanlow s
  | .vldh k vd h xo xs a => Sys2Proof.Machine.execVldh k vd h xo xs a s
  | .vsth k va h xo xs => Sys2Proof.Machine.execVsth k va h xo xs s
  | .vldhx k vd h xo vb a => Sys2Proof.Machine.execVldhx k vd h xo vb a s
  | .vsthx k va h xo vb => Sys2Proof.Machine.execVsthx k va h xo vb s
  | .vldf k vd xa xs ord => Sys2Proof.Machine.execVldf k vd xa xs ord s
  | .vstf k va xa xs ord => Sys2Proof.Machine.execVstf k va xa xs ord s
  | .vldx k vd xa vb sc ord => Sys2Proof.Machine.execVldx k vd xa vb sc ord s
  | .vstx k va xa vb sc ord => Sys2Proof.Machine.execVstx k va xa vb sc ord s
  | .vamo k op vd va xa vb sc ord vc => Sys2Proof.Machine.execVamo k op vd va xa vb sc ord vc s
  | .vldt k vd xo vb => Sys2Proof.Machine.execVldt k vd xo vb s
  | .vstt k va xo vb => Sys2Proof.Machine.execVstt k va xo vb s
  | .vlds k vd z field consume => Sys2Proof.Machine.execVlds k vd z field consume s
  | .vsts k va z last => Sys2Proof.Machine.execVsts k va z last s
  | .hmask k pd h xo => Sys2Proof.Machine.execHmask k pd h xo s
  | .mopa k va vb base units => Sys2Proof.Machine.execMopa k va vb base units s
  | .mopas k va vb vc base units => Sys2Proof.Machine.execMopas k va vb vc base units s
  | .mrd k vd row => Sys2Proof.Machine.execMrd k vd row s
  | .mwr k va row => Sys2Proof.Machine.execMwr k va row s
  | .mzero k base units => Sys2Proof.Machine.execMzero k base units s
  | .vsprune k vd va vc => Sys2Proof.Machine.execVsprune k vd va vc s
  | .vrope k vd va vb vc xh => Sys2Proof.Machine.execVrope k vd va vb vc xh s
  | .decision p => Sys2Proof.Machine.execDecision p s
  | .sliceEnd p => Sys2Proof.Machine.execSliceEnd p s
  | .preEmption h => Sys2Proof.Machine.execPreEmption h s
  | .restore h => Sys2Proof.Machine.execRestore h s
  | .farmStart p f => Sys2Proof.Machine.execFarmStart p f s
  | .hartPlacement p f => Sys2Proof.Machine.execHartPlacement p f s
  | .launchAcceptance op => Sys2Proof.Machine.execLaunchAcceptance op s
  | .completionWord p f => Sys2Proof.Machine.execCompletionWord p f s
  | .wakeRead h => Sys2Proof.Machine.execWakeRead h s
  | .hartDispatch h => Sys2Proof.Machine.execHartDispatch h s
  | .trapEntry => Sys2Proof.Machine.execTrapEntry s
  | .windowReset h => Sys2Proof.Machine.execWindowReset h s
  | .harvestOrder sid => Sys2Proof.Machine.execHarvestOrder sid s
  | .gleanerFetch st => Sys2Proof.Machine.execGleanerFetch st s
  | .lineArrival fid remote => Sys2Proof.Machine.execLineArrival fid remote s
  | .lineRelease sid => Sys2Proof.Machine.execLineRelease sid s
  | .gleanerWriteBack did => Sys2Proof.Machine.execGleanerWriteBack did s
  | .gleanerFold did => Sys2Proof.Machine.execGleanerFold did s
  | .multicastFill fid => Sys2Proof.Machine.execMulticastFill fid s
  | .streamDelivery h z => Sys2Proof.Machine.execStreamDelivery h z s
  | .pairRecord h z => Sys2Proof.Machine.execPairRecord h z s
  | .gfindWalk op => Sys2Proof.Machine.execGfindWalk op s
  | .answerStep op => Sys2Proof.Machine.execAnswerStep op s
  | .adoption op => Sys2Proof.Machine.execAdoption op s
  | .readyStep op => Sys2Proof.Machine.execReadyStep op s
  | .gpinService op => Sys2Proof.Machine.execGpinService op s
  | .gunpinService op => Sys2Proof.Machine.execGunpinService op s
  | .gloadService op => Sys2Proof.Machine.execGloadService op s
  | .gdropService op => Sys2Proof.Machine.execGdropService op s
  | .binning op => Sys2Proof.Machine.execBinning op s
  | .streamOpen op => Sys2Proof.Machine.execStreamOpen op s
  | .sstatService op => Sys2Proof.Machine.execSstatService op s
  | .poisoning e => Sys2Proof.Machine.execPoisoning e s
  | .intakeWatchdog id => Sys2Proof.Machine.execIntakeWatchdog id s
  | .pageInvalidation p stage2 page => Sys2Proof.Machine.execPageInvalidation p stage2 page s
  | .pageScrub page => Sys2Proof.Machine.execPageScrub page s
  | .vfReset vf pages => Sys2Proof.Machine.execVfReset vf pages s
  | .partitionRecordWrite vf supervisor r => Sys2Proof.Machine.execPartitionRecordWrite vf supervisor r s
  | .fieldCreate p num r => Sys2Proof.Machine.execFieldCreate p num r s
  | .fieldRemove p num => Sys2Proof.Machine.execFieldRemove p num s
  | .exportEntryWrite p tier base low => Sys2Proof.Machine.execExportEntryWrite p tier base low s
  | .columnPowerChange die pair on => Sys2Proof.Machine.execColumnPowerChange die pair on s
  | .repairThresholdWrite t => Sys2Proof.Machine.execRepairThresholdWrite t s
  | .rowRepair bank row => Sys2Proof.Machine.execRowRepair bank row s
  | .channelRetraining channel => Sys2Proof.Machine.execChannelRetraining channel s
  | .channelFailure channel => Sys2Proof.Machine.execChannelFailure channel s
  | .operatingPointRequest st mhz mv => Sys2Proof.Machine.execOperatingPointRequest st mhz mv s
  | .thermalCapStep st tempC => Sys2Proof.Machine.execThermalCapStep st tempC s
  | .powerUp image rest => Sys2Proof.Machine.execPowerUp image rest s
  | .attestationReport nonce => Sys2Proof.Machine.execAttestationReport nonce s
  | .powerOnHour tempC => Sys2Proof.Machine.execPowerOnHour tempC s
  | .remoteAccess r => Sys2Proof.Machine.execRemoteAccess r s
  | .hostAccess r => Sys2Proof.Machine.execHostAccess r s
  | .partitionEnd p => Sys2Proof.Machine.execPartitionEnd p s

end Sys2Proof.Machine
end

