-- ==== Sys2Proof/Machine/Schedule.lean ====
section
/-!
DEFINITION. Which steps of the machine's own agents are enabled, and the default order among them (R118,
notes/assumptions/3). Steps that come from outside the device stand on the agenda only.
-/

namespace Sys2Proof.Machine

/-- A step that stands when its condition holds. -/
def offer (c : Bool) (i : Instr) : List Instr := if c then [i] else []

/-- Steps of one farm (R133 to R137). -/
def State.farmSteps (s : State) (g : Farm) : List Instr :=
  (offer ((s.startFarm g.part g.id).isSome || (s.farmQuad g.part g.id).isSome ||
      (g.op.isSome && (s.placeFirst g.part g.id).isNone)) (.farmStart g.part g.id)).append
    ((offer (s.growFarm g.part g.id).isSome (.hartPlacement g.part g.id)).append
      (offer (s.completeFarm g.part g.id).isSome (.completionWord g.part g.id)))

/-- Steps of one context (R139, R144, R188, R381). -/
def State.contextSteps (s : State) (h : Nat) : List Instr :=
  (offer (s.rereads.contains h) (.wakeRead h)).append
    ((offer (s.preempt h).isSome (.preEmption h)).append
      ((offer (s.restore h).isSome (.restore h)).append
        (offer (s.mayResume h && !(s.hartAt h).preempted) (.hartDispatch h))))

/-- Steps of one partition (R144, R151). -/
def State.partSteps (s : State) (p : Nat) : List Instr :=
  (offer (s.decisionReady p) (.decision p)).append
    (offer (s.sliceOver p || s.oversubscribed p != (s.partAt p).sliceStart.isSome) (.sliceEnd p))

/-- Steps of the scheduler that are enabled (R133 to R155). -/
def State.schedulerSteps (s : State) : List Instr :=
  List.flatten [(s.ops.filter Op.unservedLaunch).head?.toList.map (fun o => Instr.launchAcceptance o.oid),
    s.farms.flatMap s.farmSteps, s.hartIds.flatMap s.contextSteps, s.partIds.flatMap s.partSteps,
    (s.held.filter s.watchdogDue).map (fun h => Instr.intakeWatchdog h.id)]

/-- Steps of one sheaf (R83). -/
def State.sheafSteps (s : State) (sh : Sheaf) : List Instr :=
  (offer (s.takeOrder sh.sid).isSome (.harvestOrder sh.sid)).append (offer (s.releaseOrder sh.sid).isSome (.lineRelease sh.sid))

/-- Steps of one fetch (R128, R251). -/
def State.fetchSteps (s : State) (f : Fetch) : List Instr :=
  if f.unread then offer (s.mayFetch f) (.gleanerFetch f.stead)
  else (offer (!f.arrived && !s.outOfTurn f) (.lineArrival f.fid none)).append
    (match f.multicast with
      | [] => []
      | st :: _ => offer (!s.fetches.any (fun g => g.sid == f.sid && decide (g.fid < f.fid) && g.multicast.contains st))
          (.multicastFill f.fid))

/-- The step of one debt (R120). -/
def State.debtSteps (s : State) (d : Debt) : List Instr :=
  offer (s.mayStep d) (match d.kind with
    | .fold _ _ _ => .gleanerFold d.did
    | _ => .gleanerWriteBack d.did)

/-- Steps of the Gleaner that are enabled (R128). -/
def State.gleanerSteps (s : State) : List Instr :=
  List.flatten [s.sheaves.flatMap s.sheafSteps, s.fetches.flatMap s.fetchSteps, s.debts.flatMap s.debtSteps]

/-- The step of an operation of the Granary or the Sieve, when it is enabled (R165, R167, R174, R294). -/
def State.opStep (s : State) (o : Op) : Option Instr :=
  let granary := fun (i : Instr) => if (s.granaryHead o.oid).isSome then some i else none
  let sieve := fun (i : Instr) => if (s.sieveHead o.oid).isSome then some i else none
  match o.kind with
  | .launch _ => none
  | .pswap _ _ => none
  | .gfind _ _ => granary (.gfindWalk o.oid)
  | .gdep d =>
    if o.phase = 0 then granary (.answerStep o.oid)
    else if o.phase = 1 then (if s.mayAdopt o d then some (.adoption o.oid) else none)
    else if o.phase = 3 then some (.readyStep o.oid)
    else match s.fieldOf o.tenant d.field with
      | some f => if s.mayReady o f then some (.readyStep o.oid) else none
      | none => none
  | .gpin _ _ => granary (.gpinService o.oid)
  | .gunpin _ _ => granary (.gunpinService o.oid)
  | .gload _ key =>
    if o.phase = 0 then granary (.gloadService o.oid)
    else match (alookup (s.partAt o.part).gbind key.low).filter (fun b => b.owner == o.oid) with
      | some b => if b.ready then some (.gloadService o.oid) else none
      | none => some (.gloadService o.oid)
  | .gdrop _ _ => granary (.gdropService o.oid)
  | .sbin _ _ => sieve (.binning o.oid)
  | .spair _ _ _ _ _ _ => sieve (.streamOpen o.oid)
  | .sstat _ _ => sieve (.sstatService o.oid)

/-- An engine or the scheduler takes one read or write step of its own (R118). An engine reads the next piece for an
operation ahead of the step that serves it: the next chunk of a `GFIND` that has matched so far (R166), or the next
position of a job (R175, R176), or the first position of a pair stream's next pair (R177); a read that fails is left
to that step. A held write performs (R207), or one that the scheduler owes (R147). -/
def State.engineStep (s : State) (oid : Nat) : State :=
  match s.opById oid with
  | none => ((s.pairRead oid).performHeld oid).performOwed oid
  | some o =>
    let n := o.got.length
    let piece (a : Word) (bytes : Nat) : State :=
      match s.engineRead ⟨o.part, o.tenant⟩ a bytes with
      | .ok bs => s.setOp { o with got := o.got ++ [bs] }
      | .error _ => s
    let point (j : JobSheet) : State :=
      if (s.sieveHead oid).isSome && decide (n < j.count) then piece (j.pos + BitVec.ofNat 64 (16 * n)) 12 else s
    match o.kind with
    | .gfind a key =>
      match s.granaryHead oid with
      | none => s
      | some (_, f) =>
        let g := chunkTokens f.record
        match s.findPath o f a 0 f.record.seed 0 n with
        | .error _ => s
        | .ok path =>
          if n < f.walkLimit o.part key && path.length = n + 1 then piece (a + BitVec.ofNat 64 (4 * g * n)) (4 * g) else s
    | .sbin _ j => point j
    | .spair a home _ _ _ _ =>
      match s.jobHomed o.part a home with
      | none => s
      | some j => point j.sheet
    | _ => s

/-- Steps of streams that are enabled (R131, R177). -/
def State.streamSteps (s : State) : List Instr :=
  ((s.transit.take 1).map (fun t => Instr.streamDelivery t.toHart t.toSlot)).append
    (s.jobs.flatMap (fun j => j.streams.flatMap (fun t =>
      offer (!(t.todo.isEmpty && (s.slotAt t.hart t.z).ended)) (.pairRecord t.hart t.z))))

/-- Invalidations that are not complete and whose page no instruction pins any more (R108). -/
def State.invalSteps (s : State) : List Instr :=
  s.invals.flatMap (fun e => offer (!s.pagePinned e.1 e.2.1 e.2.2) (.pageInvalidation e.1 e.2.1 e.2.2))

/-- The first write step that stands outside the instructions' steps: one that the scheduler owes, or a held write that
may perform (R147, R207). -/
def State.ownStep (s : State) : Option Nat :=
  (s.schedWrites.head?.map (·.id)).or ((s.held.find? s.heldReady).map (·.id))

/-- The first enabled step of another agent, in the model's default order: the Gleaner, operations, streams,
invalidations, the scheduler. -/
def State.nextEvent (s : State) : Option Instr :=
  match s.gleanerSteps with
  | i :: _ => some i
  | [] => match s.ops.filterMap s.opStep with
    | i :: _ => some i
    | [] => match s.streamSteps with
      | i :: _ => some i
      | [] => (s.invalSteps ++ s.schedulerSteps).head?

end Sys2Proof.Machine
end

