-- ==== Sys2Proof/WellFormed.lean ====
section
/-!
DEFINITION. Which terms of `Instr` some word of the spec stands for (R235 to R248): the checks that the types of
the operands do not already make.
-/

namespace Sys2Proof

/-- pg = pz = pn = 0 (R245). -/
def Blk.noPred (k : Blk) : Bool := k.pg == 0 && !k.pz && !k.pn

/-- xl = xf = 0 (R245). -/
def Blk.noLen (k : Blk) : Bool := k.xl == 0 && k.xf == 0

/-- units from 1 to 12 (R247). -/
def unitsWf (u : BitVec 4) : Bool := decide (1 ≤ u.toNat) && decide (u.toNat ≤ 12)

/-- Whether an `FCVT` operand type is s64 or n64 (R239). -/
def CvtTy.integer : CvtTy → Bool
  | .l => true
  | .n => true
  | _ => false

/-- Well-formed instructions: every other term is one no word encodes. -/
def Instr.wf : Instr → Bool
  | .fcvt dst src _ _ _ => dst != src && !(dst.integer && src.integer)
  | .fmaOpcode0d _ _ _ m _ _ _ _ => m == .rne || m == .rtz || m == .rdn || m == .rup
  | .fmaOpcode0e _ _ _ m _ _ _ _ => m == .rna || m == .dyn
  | .ld z sx _ _ _ _ => !(sx && z == .d)
  | .vcmp _ _ _ _ c => c != .unord
  | .vtopk _ vd _ _ _ => vd.val % 2 == 0
  | .vamo _ op _ _ _ _ _ _ vc => op == .cas || vc == 0
  | .vlds _ _ _ f _ => decide (f.toNat < 6)
  | .hmask _ pd _ _ => pd != 0
  | .mopa k _ vb _ u => k.noPred && unitsWf u && vb.val % 8 == 0
  | .mopas k _ vb _ _ u => k.noPred && unitsWf u && vb.val % 4 == 0
  | .mrd k _ _ => k.noPred
  | .mwr k _ _ => k.noPred
  | .mzero k _ u => k.noPred && k.noLen && unitsWf u
  | .vsprune _ vd _ vc => vd != vc
  | _ => true

/-- The machine's own steps, which no word encodes: the scheduler's, engines', host's and firmware's. -/
def Instr.isEvent : Instr → Bool
  | .decision .. | .sliceEnd .. | .preEmption .. | .restore .. | .farmStart .. | .hartPlacement .. => true
  | .launchAcceptance .. | .completionWord .. | .wakeRead .. | .hartDispatch .. | .trapEntry | .windowReset .. => true
  | .harvestOrder .. | .gleanerFetch .. | .lineArrival .. | .lineRelease .. | .gleanerWriteBack .. => true
  | .gleanerFold .. | .multicastFill .. | .streamDelivery .. | .pairRecord .. | .gfindWalk .. | .answerStep .. => true
  | .adoption .. | .readyStep .. | .gpinService .. | .gunpinService .. | .gloadService .. | .gdropService .. => true
  | .binning .. | .streamOpen .. | .sstatService .. | .poisoning .. | .intakeWatchdog .. | .pageInvalidation .. => true
  | .pageScrub .. | .vfReset .. | .partitionRecordWrite .. | .fieldCreate .. | .fieldRemove .. => true
  | .exportEntryWrite .. | .columnPowerChange .. | .repairThresholdWrite .. | .rowRepair .. => true
  | .channelRetraining .. | .channelFailure .. | .operatingPointRequest .. | .thermalCapStep .. | .powerUp .. => true
  | .attestationReport .. | .powerOnHour .. | .remoteAccess .. | .hostAccess .. | .partitionEnd .. => true
  | _ => false

end Sys2Proof
end

