-- ==== Sys2Proof/Machine/Turns.lean ====
section
/-!
DEFINITION. The turns of the machine's agents: what one step of a hart's control stream, of its vector sequencer, of
its store buffer or of another agent does, and the default order among them (R26, R119, notes/assumptions/3).
-/

namespace Sys2Proof.Machine

/-- The hart runs its control stream: it holds its quads, or the scheduler is ending it. -/
def Hart.live (h : Hart) : Bool :=
  (h.status == .running && h.needsReserved.isNone && !h.gangWait) ||
    (h.ending && h.status != .ended && h.status != .free)

/-- Every stalled stream may try again.
DESIGN CHOICE: notes/assumptions/4. -/
def State.unstalled (s : State) : State :=
  { s with hart := { s.hart with ctlStall := false, seqStall := false }
           others := s.others.map (fun e => (e.1, { e.2 with ctlStall := false, seqStall := false })) }

/-- After a turn of a stream: it keeps its stall mark when it stalled; otherwise every stream may try again. -/
def afterTurn (stalled : Hart → Bool) (o : Out) : Out :=
  match o with
  | .next s => .next (if stalled s.hart then s else s.unstalled)
  | .fault f => .fault f
  | .refused r => .refused r

/-- The control stream's next instruction (R21, R233, R243, R263): its word decoded, or the fault it takes. -/
def State.nextControl (s : State) : Except Fail Instr :=
  match s.fetchBytes s.hart.part s.hart.pc 4 with
  | .error e => .error e
  | .ok bs =>
    match decodeControl (ofBytes bs) with
    | .error _ => .error ⟨.illegal, BitVec.ofNat 64 (ofBytes bs), []⟩
    | .ok i => .ok i

/-- Control-stream instructions that reach memory beside `LD`, `ST`, `AMO` and `FENCE`, or hand work over. -/
def reachesMemory (i : Instr) : Bool :=
  match i with
  | .hset .. | .launch .. | .exit | .wait .. | .yield | .bar | .seqnew .. | .seqgrow .. | .seqend .. | .seqendT ..
  | .gfind .. | .gdep .. | .gpin .. | .gunpin .. | .gload .. | .gdrop .. | .sbin .. | .spair .. | .sstat .. | .sopen ..
  | .sclose .. | .pswap .. => true
  | _ => false

/-- An instruction of the control stream may run behind accesses that have retired and not performed (R119, R125): a
load waits for an older read of one of its bytes, and everything for an acquire among the vector accesses in flight. -/
def State.controlFree (s : State) (i : Instr) : Bool :=
  !s.hart.vq.any (·.acq) && (!s.hart.sbuf.any (·.reading) ||
    match i with
    | .ld z _ _ _ a off =>
      match s.locate s.who (farSum (s.hart.rd a) off.toInt) (sizeBytes z) 0 .rd with
      | .ok pas => !s.hart.sbuf.any (fun p => p.reading && p.pa.any pas.contains)
      | .error _ => true
    | i => !reachesMemory i)

/-- One turn of the current hart's control stream, its instruction run by `run`. -/
def State.controlTurnBy (run : Instr → State → Out) (s : State) : Out :=
  let s := s.withHart { s.hart with ctlStall := false }
  if !s.hart.live then .next s
  else if s.hart.trapWait.isSome then afterTurn (·.ctlStall) (exec .trapEntry s)
  else if s.hart.ending then afterTurn (·.ctlStall) (exec .exit s)
  else match s.nextControl with
    | .error e => afterTurn (·.ctlStall) (faultAt (s.tellVirtual s.hart.part s.cur s.hart.pc e) e.cause e.eval)
    | .ok i => afterTurn (·.ctlStall) (if s.controlFree i then run i s else stallCtl s)

/-- One turn of the current hart's control stream. -/
def State.controlTurn (s : State) : Out := s.controlTurnBy exec

/-- One turn of the current hart's control stream whose access retires before it performs, where it may (R119). -/
def State.lateTurn (s : State) : Out := s.controlTurnBy (fun i => execLate i (exec i))

/-- The vector registers that a block instruction names. -/
def vregsOf (i : Instr) : List VIx :=
  match i with
  | .vadd _ d a b | .vsub _ d a b | .vmul _ d a b | .vmulh _ d a b | .vmin _ d a b | .vmax _ d a b | .vand _ d a b
  | .vor _ d a b | .vxor _ d a b | .vsll _ d a b | .vsrl _ d a b | .vsra _ d a b | .vadds _ d a b | .vsubs _ d a b
  | .vabsd _ d a b | .vfadd _ d a b | .vfsub _ d a b | .vfmul _ d a b | .vfdiv _ d a b | .vfmin _ d a b
  | .vfmax _ d a b | .vqscale _ d a b | .vperm _ d a b => [d, a, b]
  | .vmac _ d a b c | .vrope _ d a b c _ => [d, a, b, c]
  | .vfma _ d a b c _ _ => [d, a, b, c]
  | .vcmp _ _ a b _ | .vfcmp _ _ a b _ => [a, b]
  | .vaddi _ d a _ => [d, a]
  | .vshi _ d a _ _ => [d, a]
  | .vfsqrt _ d a | .vfrcp _ d a | .vfrsq _ d a | .vfexp2 _ d a | .vfclass _ d a | .vcvt _ d a | .vslice _ d a
  | .vunslice _ d a | .vmov _ d a | .vredmax _ d a | .vredmin _ d a | .vscan _ d a => [d, a]
  | .viota _ d | .ppopc _ d _ | .pfirst _ d _ | .vbcast _ d _ | .vins _ d _ _ | .mrd _ d _ => [d]
  | .vslup _ d a _ | .vsldn _ d a _ => [d, a]
  | .vcompr _ d a _ | .vexpnd _ d a _ => [d, a]
  | .vmerge _ d a b _ => [d, a, b]
  | .vredsum _ d a _ => [d, a]
  | .vtopk _ d a _ _ => [d, a]
  | .vldh _ d _ _ _ _ => [d]
  | .vsth _ a _ _ _ => [a]
  | .vldhx _ d _ _ b _ => [d, b]
  | .vsthx _ a _ _ b => [a, b]
  | .vldf _ d _ _ _ => [d]
  | .vstf _ a _ _ _ => [a]
  | .vldx _ d _ b _ _ => [d, b]
  | .vstx _ a _ b _ _ => [a, b]
  | .vamo _ _ d a _ b _ _ c => [d, a, b, c]
  | .vldt _ d _ b => [d, b]
  | .vstt _ a _ b => [a, b]
  | .vlds _ d _ _ _ => [d]
  | .vsts _ a _ _ => [a]
  | .mopa _ a b _ _ => [a, b, b + 1, b + 2, b + 3, b + 4, b + 5, b + 6, b + 7]
  | .mopas _ a b c _ _ => [a, b, b + 1, b + 2, b + 3, c]
  | .mwr _ a _ => [a]
  | .vsprune _ d a c => [d, a, c]
  | _ => []

/-- A block instruction names a register that a vector access in flight still has to fill, or the scale register beside
one. -/
def Hart.awaits (h : Hart) (i : Instr) : Bool := (vregsOf i).any (fun v => h.filling v || h.filling (v + 1))

/-- Nothing holds a block instruction: no access of the hart is in flight, no `FENCE.rel` waits, and no probe of its
stead holds pins or waits for them. -/
def State.sequencerClear (s : State) : Bool :=
  s.hart.vq.isEmpty && s.pinWait.isEmpty && s.pinned (steadOf s.cur) = 0 && !s.hart.sbuf.any (·.kind == .fence)

/-- A block instruction behind accesses that have not performed (R41, R108, R119, R125, R126): a far access as `far`
runs its plan; any other runs as `run` says, waits for the registers it names, for an older acquire or `FENCE.rel`, and
takes no trap before the accesses in flight have performed. -/
def State.runGuarded (far : State → Blk → FarPlan → Out) (run : Instr → State → Out) (i : Instr) (s : State) : Out :=
  match farWith (State.farGuarded far) i s with
  | some o => if s.hart.awaits i then stallSeq s else o
  | none =>
    if s.hart.awaits i || (writes i && s.fenced) || ((reads i || writes i || acquires i) && s.hart.vq.any (·.acq)) then
      stallSeq s
    else match run i s with
      | .next t =>
        if !s.hart.vq.isEmpty && (t.hart.startHeld || t.hart.status != s.hart.status) then stallSeq s else .next t
      | o => o

/-- A stream access that waits has passed its checks (R40). -/
def State.noteChecked (i : Instr) (s : State) : State :=
  match i with
  | .vlds .. | .vsts .. =>
    match s.hart.block with
    | none => s
    | some b =>
      if !s.hart.seqStall then s
      else s.withHart { s.hart with queue := s.hart.queue.map (fun c => if c.serial == b.serial then { c with checked := true } else c) }
  | _ => s

/-- An outcome after `noteChecked`. -/
def noted (i : Instr) (o : Out) : Out :=
  match o with
  | .next s => .next (s.noteChecked i)
  | o => o

/-- A block instruction runs: as it stands when nothing holds it, and behind the accesses in flight otherwise. -/
def State.runBlock (i : Instr) (s : State) : Out :=
  if s.sequencerClear then noted i (exec i s) else noted i (s.runGuarded State.farAccess exec i)

/-- An instruction that takes the elements of a sheaf access one in a step (R118, R121); any other as it stands. -/
def execElement (i : Instr) (s : State) : Out := (sheafWith true i s).getD (exec i s)

/-- A block instruction takes its next step: a far access goes to its queue with its elements still to perform, and a
sheaf access performs one element (R118, R121). -/
def State.issueBlock (i : Instr) (s : State) : Out := noted i (s.runGuarded State.farIssue execElement i)

/-- One turn of the current hart's vector sequencer, its instruction run by `run`; a vector access whose word has still
to end stands before it. -/
def State.sequencerTurnBy (run : Instr → State → Out) (s : State) : Out :=
  let s := s.withHart { s.hart with seqStall := false }
  if !s.hart.live then .next s
  else match s.farEnds with
    | some o => afterTurn (·.seqStall) o
    | none => match s.seqStep with
      | .idle => .next s
      | .fault f =>
        if !s.hart.vq.isEmpty then stallSeq s
        else .next
          ((s.tellVirtual s.hart.part s.cur s.hart.blockPos f).takeTrap f.cause f.eval s.hart.blockPos true 0).unstalled
      | .convoy => if !s.hart.vq.isEmpty then stallSeq s else .next (s.takeTrap .convoy 0 s.hart.blockPos true 0).unstalled
      | .run i n => afterTurn (·.seqStall) (run i (s.withHart ((s.hart.markConvoy n).openStart i)))

/-- One turn of the current hart's vector sequencer. -/
def State.sequencerTurn (s : State) : Out := s.sequencerTurnBy (fun i s => s.runBlock i)

/-- One turn of the current hart's vector sequencer in the smallest step that R118 gives its instruction. -/
def State.issueTurn (s : State) : Out := s.sequencerTurnBy (fun i s => s.issueBlock i)

/-- A word that may wait with its check phase passed while the load behind it reads (R40, R119). -/
def waitsBehind (i : Instr) : Bool :=
  match i with
  | .vldh _ _ _ _ _ a => !a
  | .vldhx _ _ _ _ _ a => !a
  | .vsth .. => true
  | .vsthx .. => true
  | .vsts .. => true
  | _ => false

/-- The registers that a plain far load takes its addresses from; none for any other instruction. -/
def loadSources (i : Instr) : Option (List VIx) :=
  match i with
  | .vldf _ _ _ _ .plain => some []
  | .vldx _ _ _ b _ .plain => some [b]
  | _ => none

/-- Behind a word that waits, an element of the far load that follows it is read ahead (R40, R119): loads of younger
instructions may run ahead, because they can be unwound.
DESIGN CHOICE: notes/assumptions/10. -/
def State.earlyTurn (s : State) : Out :=
  if !s.hart.live || !s.hart.wordChecked then .next s
  else match s.seqStep with
    | .run i _ =>
      let t := s.withHart { s.hart with vstart := 0 }.pastWord
      (match t.seqStep with
      | .run j _ =>
        if waitsBehind i && (loadSources j).any (fun vs => !vs.any (fun v => writesV v i || s.hart.filling v)) then
          match farWith State.farEarly j t with
          | some (.next u) => .next (s.withHart { s.hart with early := u.hart.early })
          | _ => .next s
        else .next s
      | _ => .next s)
    | _ => .next s

/-- Element j of those left of access i in flight of the current hart performs, when it may. -/
def State.elemTurn (s : State) (i j : Nat) : Out := .next (if s.mayElem i j then (s.elem i j).unstalled else s)

/-- One step of another agent.
DEDUCED: notes/assumptions/16. -/
def State.eventTurn (s : State) (i : Instr) : Out :=
  if i.isEvent then
    match exec i s with
    | .next s => .next s.unstalled
    | .fault f => .fault f
    | .refused r => .refused r
  else .fault .notAnEvent

/-- Entry i of the current hart's queue performs, when it may. -/
def State.drainTurn (s : State) (i : Nat) : Out := .next (if s.mayDrain i then (s.drain i).unstalled else s)

/-- A turn of the agenda. -/
def State.turn (s : State) (t : Turn) : Out :=
  match t with
  | .control h => (s.switchTo h).controlTurn
  | .blocks h => (s.switchTo h).sequencerTurn
  | .drain h i => (s.switchTo h).drainTurn i
  | .event i => s.eventTurn i
  | .late h => (s.switchTo h).lateTurn
  | .issue h => (s.switchTo h).issueTurn
  | .elem h i j => (s.switchTo h).elemTurn i j
  | .read op => .next (s.engineStep op).unstalled
  | .early h => (s.switchTo h).earlyTurn

/-- The control stream of a hart can take a turn. -/
def Hart.controlReady (h : Hart) : Bool := h.live && !h.ctlStall
/-- The sequencer of a hart can take a turn. -/
def Hart.blocksReady (h : Hart) : Bool := h.live && !h.seqStall && h.block.isSome

/-- The first entry of the current hart's queue that may perform. -/
def State.drainable (s : State) : Option Nat := (List.range s.hart.sbuf.length).find? s.mayDrain

/-- Work of the current hart's two streams that goes on by itself: an access that has retired, or one in flight. -/
def State.background (s : State) : Option Out :=
  match s.drainable with
  | some i => some (s.drainTurn i)
  | none => if s.hart.vq.isEmpty then none else some (s.elemTurn 0 0)

/-- The default order when the agenda is empty: the current hart's control stream, its blocks, its accesses that wait,
a write that the scheduler owes or a tier holds, the first enabled step of another agent, another hart that can go on;
with nothing to do, time passes.
DESIGN CHOICE: notes/assumptions/3. -/
def State.defaultTurn (s : State) : Out :=
  if s.hart.controlReady then s.controlTurn
  else if s.hart.blocksReady then s.sequencerTurn
  else match s.background with
    | some o => o
    | none =>
      match s.ownStep with
      | some id => .next (s.engineStep id).unstalled
      | none =>
        match s.nextEvent with
        | some i => s.eventTurn i
        | none =>
          match s.others.find? (fun e => e.2.controlReady || e.2.blocksReady || (s.switchTo e.1).background.isSome) with
          | some e =>
            let s := s.switchTo e.1
            if s.hart.controlReady then s.controlTurn
            else if s.hart.blocksReady then s.sequencerTurn
            else s.background.getD (.next s)
          | none => .next s

/-- One step of the machine: the clock advances, then the agenda's turn or the default one is taken.
DESIGN CHOICE: notes/assumptions/3. -/
def State.oneStep (s : State) : Out :=
  let s := s.tick
  match s.agenda with
  | t :: ts => { s with agenda := ts }.turn t
  | [] => s.defaultTurn

/-- The page of device virtual address a mapped to itself at both stages for partition p, ahead of every other
mapping.
DESIGN CHOICE: notes/assumptions/17. -/
def State.identityPage (s : State) (p : Nat) (a : Nat) : State :=
  let pg := a / 65536
  { s with over1 := (p, pg, pg % 1 <<< 36) :: s.over1, over2 := (p, pg % 1 <<< 36, some (pg % 1 <<< 36)) :: s.over2 }

/-- The current hart made ready to take the next turn: it runs, nothing waits, and no turn of the agenda comes
first.
DESIGN CHOICE: notes/assumptions/17. -/
def State.readyToRun (s : State) : State :=
  { s with agenda := []
           hart := { s.hart with
             status := .running, needsReserved := none, preempted := false, gangWait := false, ending := false
             trapWait := none
             ctlStall := false, seqStall := false, pc := wordAddr s.hart.pc } }

/-- The bytes of a word placed at device virtual address a of the current hart's partition. -/
def State.placeCode (s : State) (a : Nat) (bytes : List Byte) : State :=
  let s := s.identityPage s.hart.part a
  let pa := a % 1 <<< 52
  let s := s.cleanse [pa / 64]
  s.writeAll ((List.range bytes.length).map (pa + ·)) bytes

/-- An instruction stored where the next step fetches: a control word at the program counter; a block word as the
only word queued for the sequencer, whose turn comes next. -/
def State.withWord (s : State) (nbits w : Nat) : State :=
  let s := s.readyToRun
  if nbits = 64 then
    let a := s.hart.pc &&& ~~~7#64
    let s := s.placeCode a.toNat (toBytes 8 w)
    { s with hart := { s.hart with queue := [] }.queueBlock a s.nextId, agenda := [.blocks s.cur] }
  else s.placeCode s.hart.pc.toNat (toBytes 4 w)

end Sys2Proof.Machine
end

