-- ==== Sys2Proof/Safety.lean ====
section
/-!
DEFINITION. What a safe run keeps: the memory in its canonical form, legal modes, aligned code addresses, and a step
that answers (R21, R22, R117, R179, R183).
-/

namespace Sys2Proof.Machine

/-- Some property holds of every hart context. -/
def State.EveryHart (s : State) (p : Hart → Prop) : Prop := p s.hart ∧ ∀ e ∈ s.others, p e.2

/-- The level of a hart and the levels that its handlers return to are 0 or 1 (R179, R183). -/
def Hart.ModesLegal (h : Hart) : Prop :=
  h.level ≤ 1 ∧ (h.bank0.estatus &&& 3).toNat ≤ 1 ∧ (h.bank1.estatus &&& 3).toNat ≤ 1

/-- The program counter and every register that holds a word address are multiples of 4 (R21, R183). -/
def Hart.CodeAligned (h : Hart) : Prop :=
  h.pc.toNat % 4 = 0 ∧ h.vfret.toNat % 4 = 0 ∧ h.bank0.tvec.toNat % 4 = 0 ∧ h.bank0.epc.toNat % 4 = 0 ∧
    h.bank1.epc.toNat % 4 = 0

/-- Every hart stands at a legal level. -/
def State.ModesLegal (s : State) : Prop := s.EveryHart Hart.ModesLegal

/-- Every hart's code addresses are aligned, and so are the vector base of every partition's supervisor (R180) and the
entry of every farm (R134). -/
def State.CodeAligned (s : State) : Prop :=
  s.EveryHart Hart.CodeAligned ∧ (∀ e ∈ s.parts, e.2.stvec.toNat % 4 = 0) ∧ ∀ g ∈ s.farms, g.entry.toNat % 4 = 0

/-- Bytes of a lane slice at or beyond the valid-length tag hold zero, as they read (R35). -/
def VReg.Covered (r : VReg) : Prop := ∀ j, 64 * r.tag ≤ j % 512 → r.bits.testBit j = false

/-- An outcome is a next state. -/
def Answers (o : Out) : Prop := ∃ t, o = .next t

/-- A run of n steps stops nowhere. -/
def RunsSafely : Nat → State → Prop
  | 0, _ => True
  | n + 1, s => ∃ t, step s = .next t ∧ RunsSafely n t

end Sys2Proof.Machine
end

