-- ==== Sys2Proof/Certificates/Slice0/Obligations.lean ====
section
/-!
DEFINITION. The statements for the provers, in the order of OBLIGATIONS.json. What a statement says of an instruction is
written here from the rules of the spec: `Claims` holds the values and conditions that several statements share.
-/

namespace Sys2Proof.Claims

open Sys2Proof Sys2Proof.Machine

/- What an instruction of the control stream waits for, and how it ends. -/

/-- An instruction that reads the registers rs runs at once: none of them awaits an answer (R164), and none holds the
unread answer of a failed operation whose event could be delivered now (R187). -/
def Readable (rs : List Reg) (s : State) : Prop :=
  (∀ r ∈ rs, s.hart.isPending r = false) ∧ ((∀ r ∈ rs, s.hart.failedX.contains r = false) ∨ s.deliverable = false)

/-- The state after an instruction that writes v to xd and goes on at `next` (R21, R46, R193). -/
def wrote (s : State) (d : Reg) (v next : Word) : State := { s with hart := s.hart.wr d v }.retireTo next

/-- The state after an instruction that goes on at `next` and writes no register. -/
def wentTo (s : State) (next : Word) : State := s.retireTo next

/-- The word that the spec calls 1 or 0. -/
def bit (c : Bool) : Word := if c then 1 else 0

/-- Nothing of the state but the current hart's mark that its control stream waits differs. -/
def waitsCtl (s : State) : State := { s with hart := { s.hart with ctlStall := true } }

/-- Nothing of the state but the current hart's mark that its blocks wait differs. -/
def waitsSeq (s : State) : State := { s with hart := { s.hart with seqStall := true } }

/- Integer arithmetic of R265 and R266, in exact integers. -/

/-- Bits of a register-register form: 64, or 32 with `.w`. -/
def bits (w : Bool) : Nat := if w then 32 else 64

/-- An operand as a natural number of the form's width. -/
def nat (w : Bool) (x : Word) : Nat := x.toNat % 2 ^ bits w

/-- An operand as a signed number of the form's width. -/
def int (w : Bool) (x : Word) : Int :=
  if nat w x < 2 ^ (bits w - 1) then (nat w x : Int) else (nat w x : Int) - 2 ^ bits w

/-- The register value of a result: its low bits of the form's width, sign-extended (R265, R266). -/
def word (w : Bool) (v : Int) : Word :=
  let m := v % 2 ^ bits w
  BitVec.ofInt 64 (if m < 2 ^ (bits w - 1) then m else m - 2 ^ bits w)

/-- Numbers k below the width with a property of 2^k. -/
def countBits (w : Bool) (p : Nat → Bool) : Int := ((List.range (bits w)).filter p).length

/-- Destination, sources and result of the register-register forms (R265, R266). -/
def regForm (h : Hart) (i : Instr) : Option (Reg × List Reg × Word) :=
  let n := fun w r => nat w (h.rd r)
  let z := fun w r => int w (h.rd r)
  match i with
  | .add d a b w => some (d, [a, b], word w (z w a + z w b))
  | .sub d a b w => some (d, [a, b], word w (z w a - z w b))
  | .and d a b w => some (d, [a, b], word w (Nat.land (n w a) (n w b)))
  | .or d a b w => some (d, [a, b], word w (Nat.lor (n w a) (n w b)))
  | .xor d a b w => some (d, [a, b], word w (Nat.xor (n w a) (n w b)))
  | .sll d a b w => some (d, [a, b], word w (n w a * 2 ^ (n w b % bits w)))
  | .srl d a b w => some (d, [a, b], word w (n w a / 2 ^ (n w b % bits w)))
  | .sra d a b w => some (d, [a, b], word w (z w a / 2 ^ (n w b % bits w)))
  | .slt d a b w => some (d, [a, b], word w (if z w a < z w b then 1 else 0))
  | .sltn d a b w => some (d, [a, b], word w (if n w a < n w b then 1 else 0))
  | .min d a b w => some (d, [a, b], word w (Min.min (z w a) (z w b)))
  | .max d a b w => some (d, [a, b], word w (Max.max (z w a) (z w b)))
  | .minn d a b w => some (d, [a, b], word w (Min.min (n w a) (n w b) : Nat))
  | .maxn d a b w => some (d, [a, b], word w (Max.max (n w a) (n w b) : Nat))
  | .mul d a b w => some (d, [a, b], word w (z w a * z w b))
  | .mulh d a b w => some (d, [a, b], word w ((z w a * z w b) / 2 ^ bits w))
  | .mulhn d a b w => some (d, [a, b], word w ((n w a * n w b) / 2 ^ bits w : Nat))
  | .div d a b w => some (d, [a, b], word w (if z w b = 0 then -1 else Int.tdiv (z w a) (z w b)))
  | .divn d a b w => some (d, [a, b], word w (if n w b = 0 then -1 else (n w a / n w b : Nat)))
  | .rem d a b w => some (d, [a, b], word w (if z w b = 0 then z w a else Int.tmod (z w a) (z w b)))
  | .remn d a b w => some (d, [a, b], word w (if n w b = 0 then n w a else (n w a % n w b : Nat)))
  | .clz d a w => some (d, [a], word w (countBits w (fun k => decide (n w a < 2 ^ k))))
  | .ctz d a w => some (d, [a], word w (countBits w (fun k => decide (n w a % 2 ^ (k + 1) = 0))))
  | .popc d a w => some (d, [a], word w (countBits w (fun k => decide (n w a / 2 ^ k % 2 = 1))))
  | _ => none

/-- Destination, sources and result of the immediate forms (R268), for an instruction at `pc`. -/
def immForm (h : Hart) (i : Instr) : Option (Reg × List Reg × Word) :=
  match i with
  | .addi d a imm => some (d, [a], BitVec.ofInt 64 ((h.rd a).toInt + imm.toInt))
  | .andi d a imm => some (d, [a], BitVec.ofNat 64 (Nat.land (h.rd a).toNat imm.toNat))
  | .ori d a imm => some (d, [a], BitVec.ofNat 64 (Nat.lor (h.rd a).toNat imm.toNat))
  | .xori d a imm => some (d, [a], BitVec.ofNat 64 (Nat.xor (h.rd a).toNat imm.toNat))
  | .slti d a imm => some (d, [a], if (h.rd a).toInt < imm.toInt then 1 else 0)
  | .slli d a k => some (d, [a], BitVec.ofNat 64 ((h.rd a).toNat * 2 ^ k.toNat))
  | .srli d a k => some (d, [a], BitVec.ofNat 64 ((h.rd a).toNat / 2 ^ k.toNat))
  | .srai d a k => some (d, [a], BitVec.ofInt 64 ((h.rd a).toInt / 2 ^ k.toNat))
  | .lui d imm => some (d, [], BitVec.ofInt 64 (imm.toInt * 65536))
  | .auipc d imm => some (d, [], BitVec.ofInt 64 ((h.pc.toNat : Int) + imm.toInt * 65536))
  | _ => none

/- Block instructions: what completing one leaves, and the frame of R334. -/

/-- Beside vector registers, predicates, flags and the numbers of free values, only what completing a block instruction
or taking a trap writes differs (R39, R42, R67, R70, R182). -/
def OnlyVector (s t : State) : Prop :=
  t = { s with
    hart := { s.hart with
      v := t.hart.v, p := t.hart.p, fflags := t.hart.fflags, ncnt := t.hart.ncnt, ntEn := t.hart.ntEn
      retcount := t.hart.retcount, bank0 := t.hart.bank0, bank1 := t.hart.bank1, vstart := t.hart.vstart
      startHeld := t.hart.startHeld, dbg := t.hart.dbg, level := t.hart.level, vfret := t.hart.vfret, pc := t.hart.pc
      queue := t.hart.queue, trapWait := t.hart.trapWait, status := t.hart.status, ending := t.hart.ending
      ctlStall := t.hart.ctlStall, early := t.hart.early }
    others := t.others, parts := t.parts, farms := t.farms, draw := t.draw }

/-- A block instruction has completed (R42, R46): with no class armed and no step asked for, `VSTART` is 0, the
instruction counts, its block stands at the next word, and no trap register, level or program counter differs. -/
def Completed (s t : State) : Prop :=
  s.hart.ntEn = 0 → s.hart.dbg.getLsbD 1 = false →
    t.hart.vstart = 0 ∧ t.hart.retcount = s.hart.retcount + 1 ∧ t.hart.bank0 = s.hart.bank0 ∧
      t.hart.bank1 = s.hart.bank1 ∧ t.hart.level = s.hart.level ∧ t.hart.pc = s.hart.pc ∧ t.others = s.others ∧
      t.parts = s.parts ∧ t.farms = s.farms ∧
      ∀ b, s.hart.block = some b → t.hart.block = some { b with pos := b.pos + 8, convoy := b.convoy - 1, checked := false }

/-- Flags of the active elements from `VSTART` to vl - 1 joined to those that stood (R67). -/
def joined (h : Hart) (k : Blk) (vl : Nat) (fl : Nat → Flags) : Flags :=
  ((h.actives k vl).map fl).foldl (· ||| ·) h.fflags

/-- The frame of R334 for a vector destination: elements from `VSTART` to vl - 1 take the result when active and are
undisturbed or zeroed when not; every other element, register and predicate is as it was. -/
structure Written (s t : State) (k : Blk) (vd : VIx) (f : Fmt) (vl : Nat) (res : Nat → Nat × Flags) : Prop where
  element : ∀ e < s.hart.lanes * f.perSlice, t.hart.bitsAt vd e f =
    if s.hart.vstart ≤ e ∧ e < vl then
      (if s.hart.active k e then (res e).1 % 2 ^ f.width else if k.pz then 0 else s.hart.bitsAt vd e f)
    else s.hart.bitsAt vd e f
  registers : ∀ v : VIx, v ≠ vd → t.hart.v[v.val] = s.hart.v[v.val]
  predicates : t.hart.p = s.hart.p
  flags : t.hart.fflags = joined s.hart k vl (fun e => (res e).2)
  rest : OnlyVector s t
  ended : Completed s t

/-- The frame of R334 for a predicate destination; p0 takes no write (R21). -/
structure WrittenP (s t : State) (k : Blk) (pd : PIx) (vl : Nat) (res : Nat → Bool × Flags) : Prop where
  element : ∀ e, t.hart.pbit pd e = (pd = 0 ||
    if s.hart.vstart ≤ e ∧ e < vl then
      (if s.hart.active k e then (res e).1 else if k.pz then false else s.hart.pbit pd e)
    else s.hart.pbit pd e)
  predicates : ∀ p : PIx, p ≠ pd → t.hart.p[p.val] = s.hart.p[p.val]
  registers : t.hart.v = s.hart.v
  flags : t.hart.fflags = joined s.hart k vl (fun e => (res e).2)
  rest : OnlyVector s t
  ended : Completed s t

/-- A block instruction that writes elements: its common fields, the format codes it uses with the destination's last,
whether packed and sliced formats may stand together, whether it accepts the formats, those that make VLMAX, and the
bits and flags of an active element from the formats and VL. -/
structure Form (α D : Type) where
  k : Blk
  dest : D
  codes : List Nat
  mixed : Bool := false
  accepts : List Fmt → Bool
  spans : List Fmt → List Fmt := id
  result : List Fmt → Nat → Nat → α × Flags

/-- The dispatch checks of R61 pass for the formats fs (R28, R29, R50). -/
structure Dispatches {α D : Type} (s : State) (F : Form α D) (fs : List Fmt) : Prop where
  sane : (s.hart.descr F.k).sane = true
  known : formats F.codes = some fs
  ratio : ratioOk fs = true
  kinds : (F.mixed || unmixed fs) = true
  accepted : F.accepts fs = true

/-- VL of an instruction over formats (R28, R29). -/
def length {α D : Type} (s : State) (F : Form α D) (fs : List Fmt) : Nat := s.hart.vl F.k (vlmax s.hart.lanes (F.spans fs))

/-- An instruction that passes the checks writes a vector register as its form says. -/
def Writes (s : State) (i : Instr) (F : Form Nat VIx) : Prop :=
  ∀ (fs : List Fmt) (fd : Fmt), Dispatches s F fs → fs.getLast? = some fd → s.hart.v[F.dest.val].Covered →
    ∃ t, exec i s = .next t ∧ Written s t F.k F.dest fd (length s F fs) (F.result fs (length s F fs))

/-- An instruction that passes the checks writes a predicate as its form says. -/
def WritesP (s : State) (i : Instr) (F : Form Bool PIx) : Prop :=
  ∀ fs : List Fmt, Dispatches s F fs →
    ∃ t, exec i s = .next t ∧ WrittenP s t F.k F.dest (length s F fs) (F.result fs (length s F fs))

/-- All formats are integer and no scaling bit of a used operand is set (R336). -/
def integers (scaled : Bool) (fs : List Fmt) : Bool := fs.all Fmt.integer && !scaled

/-- Two-source integer instructions (R335 to R337): x as a function of the operands' exact values, of the bits of a
read as a natural number and of those of b, and of w_fd; whether Fit always clamps. -/
def intPair (i : Instr) : Option (Blk × VIx × VIx × VIx × (Int → Int → Nat → Nat → Nat → Int) × Bool) :=
  match i with
  | .vadd k d a b => some (k, d, a, b, fun x y _ _ _ => x + y, false)
  | .vsub k d a b => some (k, d, a, b, fun x y _ _ _ => x - y, false)
  | .vmul k d a b => some (k, d, a, b, fun x y _ _ _ => x * y, false)
  | .vmulh k d a b => some (k, d, a, b, fun x y _ _ w => x * y / 2 ^ w, false)
  | .vmin k d a b => some (k, d, a, b, fun x y _ _ _ => Min.min x y, false)
  | .vmax k d a b => some (k, d, a, b, fun x y _ _ _ => Max.max x y, false)
  | .vand k d a b => some (k, d, a, b, fun x y _ _ _ => Int.land x y, false)
  | .vor k d a b => some (k, d, a, b, fun x y _ _ _ => Int.lor x y, false)
  | .vxor k d a b => some (k, d, a, b, fun x y _ _ _ => Int.xor x y, false)
  | .vsll k d a b => some (k, d, a, b, fun x _ _ n _ => x * 2 ^ n, false)
  | .vsrl k d a b => some (k, d, a, b, fun _ _ u n _ => (u : Int) / 2 ^ n, false)
  | .vsra k d a b => some (k, d, a, b, fun x _ _ n _ => x / 2 ^ n, false)
  | .vadds k d a b => some (k, d, a, b, fun x y _ _ _ => x + y, true)
  | .vsubs k d a b => some (k, d, a, b, fun x y _ _ _ => x - y, true)
  | .vabsd k d a b => some (k, d, a, b, fun x y _ _ _ => |x - y|, false)
  | _ => none

/-- A two-source integer instruction as a form (R336). -/
def pairForm (h : Hart) (k : Blk) (d a b : VIx) (op : Int → Int → Nat → Nat → Nat → Int) (clamp : Bool) : Form Nat VIx :=
  let c := h.descr k
  { k := k, dest := d, codes := [c.fa, c.fb, c.fd], accepts := integers (c.asc || c.bsc || c.dsc)
    result := fun fs _ e =>
      let fa := fs.getD 0 Fmt.s8
      let fb := fs.getD 1 Fmt.s8
      let fd := fs.getD 2 Fmt.s8
      fit fd (op (h.intAt a e fa) (h.intAt b e fb) (h.bitsAt a e fa) (h.bitsAt b e fb) fd.width) (c.sat || clamp) }

/-- The integer instructions as forms (R335 to R339, R357, R377, R378). -/
def intForm (h : Hart) (i : Instr) : Option (Form Nat VIx) :=
  let none1 := Fmt.s8
  match intPair i with
  | some (k, d, a, b, op, clamp) => some (pairForm h k d a b op clamp)
  | none =>
    match i with
    | .vmac k d a b c =>
      let x := h.descr k
      some { k := k, dest := d, codes := [x.fa, x.fb, x.fc, x.fd], accepts := integers (x.asc || x.bsc || x.dsc)
             result := fun fs _ e =>
               fit (fs.getD 3 none1) (h.intAt a e (fs.getD 0 none1) * h.intAt b e (fs.getD 1 none1) +
                 h.intAt c e (fs.getD 2 none1)) x.sat }
    | .vaddi k d a imm =>
      let c := h.descr k
      some { k := k, dest := d, codes := [c.fa, c.fd], accepts := integers (c.asc || c.dsc)
             result := fun fs _ e => fit (fs.getD 1 none1) (h.intAt a e (fs.getD 0 none1) + imm.toInt) true }
    | .vshi k d a kind n =>
      let c := h.descr k
      some { k := k, dest := d, codes := [c.fa, c.fd], accepts := integers (c.asc || c.dsc)
             result := fun fs _ e =>
               let fa := fs.getD 0 none1
               fit (fs.getD 1 none1) (match kind with
                 | .sll => h.intAt a e fa * 2 ^ n.toNat
                 | .srl => ((h.bitsAt a e fa : Nat) : Int) / 2 ^ n.toNat
                 | .sra => h.intAt a e fa / 2 ^ n.toNat) c.sat }
    | .viota k d =>
      let c := h.descr k
      some { k := k, dest := d, codes := [c.fd], accepts := fun fs => integers false fs && scaleOk c.dsc d (fs.getD 0 none1)
             result := fun fs _ e => fit (fs.getD 0 none1) e c.sat }
    | .vslice k d a =>
      let c := h.descr k
      some { k := k, dest := d, codes := [c.fa, c.fd], mixed := true
             accepts := fun fs => integers (c.asc || c.dsc) fs && fs.map Fmt.sliced == [false, true]
             result := fun fs _ e => fit (fs.getD 1 none1) (h.intAt a e (fs.getD 0 none1)) c.sat }
    | .vunslice k d a =>
      let c := h.descr k
      some { k := k, dest := d, codes := [c.fa, c.fd], mixed := true
             accepts := fun fs => integers (c.asc || c.dsc) fs && fs.map Fmt.sliced == [true, false]
             result := fun fs _ e => fit (fs.getD 1 none1) (h.intAt a e (fs.getD 0 none1)) c.sat }
    | _ => none

/-- Comparisons and predicate instructions as forms (R321, R345, R346). A comparison of integers takes LTN and GEN on
bit patterns; one of floats is false for a NaN but for NE, LTN, GEN and UNORD. -/
def predForm (h : Hart) (i : Instr) : Option (Form Bool PIx) :=
  match i with
  | .vcmp k p a b cond =>
    let c := h.descr k
    some { k := k, dest := p, codes := [c.fa, c.fb], accepts := integers (c.asc || c.bsc)
           result := fun fs _ e =>
             let x := h.intAt a e (fs.getD 0 Fmt.s8)
             let y := h.intAt b e (fs.getD 1 Fmt.s8)
             let u := h.bitsAt a e (fs.getD 0 Fmt.s8)
             let v := h.bitsAt b e (fs.getD 1 Fmt.s8)
             (match cond with
              | .eq => decide (x = y)
              | .ne => decide (x ≠ y)
              | .lt => decide (x < y)
              | .le => decide (x ≤ y)
              | .gt => decide (y < x)
              | .ge => decide (y ≤ x)
              | .ltn => decide (u < v)
              | .gen => decide (v ≤ u)
              | .unord => false, flNone) }
  | .vfcmp k p a b cond =>
    let c := h.descr k
    some { k := k, dest := p, codes := [c.fa, c.fb]
           accepts := fun fs => fs.all Fmt.float && scaleOk c.asc a (fs.getD 0 Fmt.s8) && scaleOk c.bsc b (fs.getD 1 Fmt.s8)
           result := fun fs _ e =>
             let x := h.valAt a e (fs.getD 0 Fmt.s8) c.asc c.ftz
             let y := h.valAt b e (fs.getD 1 Fmt.s8) c.bsc c.ftz
             let nan := x.isNan || y.isNan
             let signals := cond = .lt || cond = .le || cond = .gt || cond = .ge
             (if nan then cond = .ne || cond = .ltn || cond = .gen || cond = .unord
              else match cond with
                | .eq => decide (x.cmp y = 0)
                | .ne => decide (x.cmp y ≠ 0)
                | .lt | .ltn => decide (x.cmp y < 0)
                | .le => decide (x.cmp y ≤ 0)
                | .gt => decide (0 < x.cmp y)
                | .ge | .gen => decide (0 ≤ x.cmp y)
                | .unord => false,
              if x.isSignalling || y.isSignalling || (signals && nan) then flNV else flNone) }
  | .plog k p a b op =>
    some { k := k, dest := p, codes := [(h.descr k).fd], accepts := fun _ => true
           result := fun _ _ e =>
             (match op with
              | .and => h.pbit a e && h.pbit b e
              | .or => h.pbit a e || h.pbit b e
              | .xor => Bool.xor (h.pbit a e) (h.pbit b e)
              | .andn => h.pbit a e && !h.pbit b e, flNone) }
  | .pset k p => some { k := k, dest := p, codes := [(h.descr k).fd], accepts := fun _ => true, result := fun _ _ _ => (true, flNone) }
  | _ => none

/-- One packed format for source and destination (R347, R365, R369). -/
def samePacked (fs : List Fmt) : Bool := fs.all (fun f => fs.all (fun g => f == g)) && fs.all (fun f => !f.sliced)

/-- Destination d and source a of an instruction that moves bits of one format, each allowed the scaling that the
descriptor marks it with (R55). -/
def markedPair (c : Descr) (d a : VIx) (fs : List Fmt) : Bool :=
  scaleOk c.asc a (fs.getD 0 Fmt.s8) && scaleOk c.dsc d (fs.getLastD Fmt.s8)

/-- Packed integer destinations of at least 16 bits (R321). -/
def wideInteger (fs : List Fmt) : Bool := fs.all (fun f => f.integer && !f.sliced && decide (16 ≤ f.width))

/-- Data of whole bytes (R106). -/
def wholeBytes (f : Fmt) : Bool := !f.sliced && f != .x9 && decide (8 ≤ f.width)

/-- Data of the lane tables (R110), and how many bytes one element takes there (R51). -/
def tableBytes (f : Fmt) : Bool := !f.sliced && decide (8 ≤ f.width)

/-- Bytes of an element in a lane table: x9 stands in 16 bits. -/
def tableSize (f : Fmt) : Nat := if f = .x9 then 2 else f.width / 8

/-- Instructions that bring bits of registers, predicates, bin rows or lane tables into elements and raise no flag
(R318, R321, R344, R354, R363, R365, R369). -/
def moveForm (h : Hart) (i : Instr) : Option (Form Nat VIx) :=
  match i with
  | .vbcast k d x =>
    some { k := k, dest := d, codes := [(h.descr k).fd], accepts := fun fs => fs.all (fun f => !f.sliced)
           result := fun _ _ _ => ((h.view x).toNat, flNone) }
  | .vmov k d a =>
    some { k := k, dest := d, codes := [(h.descr k).fa, (h.descr k).fd], accepts := samePacked
           result := fun fs _ e => (h.bitsAt a e (fs.getD 0 Fmt.s8), flNone) }
  | .vslup k d a x =>
    some { k := k, dest := d, codes := [(h.descr k).fa, (h.descr k).fd]
           accepts := fun fs => samePacked fs && markedPair (h.descr k) d a fs
           result := fun fs _ e =>
             (if (h.view x).toNat ≤ e then h.bitsAt a (e - (h.view x).toNat) (fs.getD 0 Fmt.s8) else 0, flNone) }
  | .vsldn k d a x =>
    some { k := k, dest := d, codes := [(h.descr k).fa, (h.descr k).fd]
           accepts := fun fs => samePacked fs && markedPair (h.descr k) d a fs
           result := fun fs vl e =>
             (if e + (h.view x).toNat < vl then h.bitsAt a (e + (h.view x).toNat) (fs.getD 0 Fmt.s8) else 0, flNone) }
  | .vmerge k d a b p =>
    some { k := k, dest := d, codes := [(h.descr k).fa, (h.descr k).fb, (h.descr k).fd], accepts := samePacked
           result := fun fs _ e =>
             (if h.pbit p e then h.bitsAt a e (fs.getD 2 Fmt.s8) else h.bitsAt b e (fs.getD 2 Fmt.s8), flNone) }
  | .vperm k d a b =>
    some { k := k, dest := d, codes := [(h.descr k).fa, (h.descr k).fb, (h.descr k).fd]
           accepts := fun fs => samePacked [fs.getD 0 Fmt.s8, fs.getD 2 Fmt.s8] && (fs.getD 1 Fmt.s8).permIndex &&
             markedPair (h.descr k) d a fs && scaleOk (h.descr k).bsc b (fs.getD 1 Fmt.s8)
           result := fun fs vl e =>
             let j := h.intAt b e (fs.getD 1 Fmt.s8)
             (if 0 ≤ j ∧ j < vl then h.bitsAt a j.toNat (fs.getD 2 Fmt.s8) else 0, flNone) }
  | .ppopc k d p =>
    some { k := k, dest := d, codes := [(h.descr k).fd]
           accepts := fun fs => wideInteger fs && scaleOk (h.descr k).dsc d (fs.getD 0 Fmt.s8)
           result := fun _ vl _ => (((h.actives k vl).filter (h.pbit p)).length, flNone) }
  | .pfirst k d p =>
    some { k := k, dest := d, codes := [(h.descr k).fd]
           accepts := fun fs => wideInteger fs && scaleOk (h.descr k).dsc d (fs.getD 0 Fmt.s8)
           result := fun _ vl _ => (((h.actives k vl).find? (h.pbit p)).getD (2 ^ 64 - 1), flNone) }
  | .mrd k d row =>
    some { k := k, dest := d, codes := [(h.descr k).fd]
           accepts := fun fs => fs.all (fun f => (f = .s32 || f = .n32 || f = .f32) && scaleOk (h.descr k).dsc d f) && h.holdsRows row.toNat 1
           result := fun _ _ e => ((h.cell row.toNat e).toNat, flNone) }
  | .vldt k d xo b =>
    some { k := k, dest := d, codes := [(h.descr k).fb, (h.descr k).fd]
           accepts := fun fs => (fs.getD 0 Fmt.s8).index && tableBytes (fs.getD 1 Fmt.s8) &&
             scaleOk (h.descr k).bsc b (fs.getD 0 Fmt.s8) && scaleOk (h.descr k).dsc d (fs.getD 1 Fmt.s8)
           result := fun fs _ e =>
             let f := fs.getD 1 Fmt.s8
             let first := ((h.view xo).toInt + h.intAt b e (fs.getD 0 Fmt.s8)) * (tableSize f : Nat)
             (ofBytes ((List.range (tableSize f)).map (fun (j : Nat) =>
               h.tableByte (8192 * (e % h.lanes) + ((first + j) % 8192).toNat))), flNone) }
  | _ => none

/-- The float instructions with their exact results and the flags of the operation itself (R351 to R353). -/
def exactForm (h : Hart) (i : Instr) : Option (Form Val VIx) :=
  let pair (k : Blk) (d a b : VIx) (op : Bool → Val → Val → Val × Flags) : Form Val VIx :=
    let c := h.descr k
    { k := k, dest := d, codes := [c.fa, c.fb, c.fd]
      accepts := fun fs => fs.all Fmt.float && scaleOk c.asc a (fs.getD 0 Fmt.s8) && scaleOk c.bsc b (fs.getD 1 Fmt.s8)
      result := fun fs _ e =>
        op (c.rnd = 2) (h.valAt a e (fs.getD 0 Fmt.s8) c.asc c.ftz) (h.valAt b e (fs.getD 1 Fmt.s8) c.bsc c.ftz) }
  match i with
  | .vfadd k d a b => some (pair k d a b (fun rdn x y => (x.add rdn y, flNone)))
  | .vfsub k d a b => some (pair k d a b (fun rdn x y => (x.add rdn y.negate, flNone)))
  | .vfmul k d a b => some (pair k d a b (fun _ x y => (x.mul y, flNone)))
  | .vfdiv k d a b => some (pair k d a b (fun _ x y => x.div y))
  | .vfmin k d a b => some (pair k d a b (fun _ x y => (x.choose false y, if x.isSignalling || y.isSignalling then flNV else flNone)))
  | .vfmax k d a b => some (pair k d a b (fun _ x y => (x.choose true y, if x.isSignalling || y.isSignalling then flNV else flNone)))
  | .vfsqrt k d a =>
    let c := h.descr k
    some { k := k, dest := d, codes := [c.fa, c.fd], accepts := fun fs => fs.all Fmt.float && scaleOk c.asc a (fs.getD 0 Fmt.s8)
           result := fun fs _ e => ((h.valAt a e (fs.getD 0 Fmt.s8) c.asc c.ftz).sqrt, flNone) }
  | .vfma k d a b x np nc =>
    let c := h.descr k
    some { k := k, dest := d, codes := [c.fa, c.fb, c.fc, c.fd]
           accepts := fun fs => fs.all Fmt.float && scaleOk c.asc a (fs.getD 0 Fmt.s8) && scaleOk c.bsc b (fs.getD 1 Fmt.s8)
           result := fun fs _ e =>
             (Val.fma (c.rnd = 2) np nc
               (h.valAt a e (fs.getD 0 Fmt.s8) c.asc c.ftz) (h.valAt b e (fs.getD 1 Fmt.s8) c.bsc c.ftz)
               (h.valAt x e (fs.getD 2 Fmt.s8) false c.ftz), flNone) }
  | _ => none

/-- The float instructions whose destination is not block-scaled (R348, R351 to R353): Place of the exact result. -/
def floatVec (s : State) (i : Instr) : Option (Form Nat VIx) :=
  (exactForm s.hart i).map (fun F =>
    let c := s.hart.descr F.k
    { k := F.k, dest := F.dest, codes := F.codes, accepts := fun fs => F.accepts fs && !c.dsc
      result := fun fs vl e =>
        let x := F.result fs vl e
        let r := place (fs.getLastD Fmt.s8) (c.rounding s.draw e) x.1
        (r.1, r.2 ||| x.2) })

/-- The instructions that R57 lets write a block-scaled destination: those of R352, and `VCVT` (R348). -/
def scaledForm (h : Hart) (i : Instr) : Option (Form Val VIx) :=
  match i with
  | .vcvt k d a =>
    let c := h.descr k
    some { k := k, dest := d, codes := [c.fa, c.fd]
           accepts := fun fs => fs.all (fun f => (f.integer && !f.sliced) || f.float) && scaleOk c.asc a (fs.getD 0 Fmt.s8)
           result := fun fs _ e => (h.valAt a e (fs.getD 0 Fmt.s8) c.asc c.ftz, flNone) }
  | i => exactForm h i

/-- floor(log2 m) of a finite value of magnitude m that is not zero. -/
def logOf (v : Val) : Option Int :=
  match v with
  | .num _ m d => if m = 0 then none else some (log2Frac m d)
  | _ => none

/-- The scale E of block b of exact results (R57). -/
def scaleFor (f : Fmt) (vl : Nat) (exact : Nat → Val) (b : Nat) : Nat :=
  let vs := ((List.range' (32 * b) 32).filter (· < vl)).map exact
  if vs.any Val.isNan && ((f.spec.bind (·.nan)).isNone) then 511
  else ((vs.filterMap logOf).max?).elim 0 (fun g => (max 0 (min 510 (255 + g - (f.emax : Int)))).toNat)

/-- `VCVT` without a block-scaled destination (R348): from or into a float by Place; between integers clamped, a scaled
source rounded first. -/
def convertForm (s : State) (i : Instr) : Option (Form Nat VIx) :=
  let h := s.hart
  match i with
  | .vcvt k d a =>
    let c := h.descr k
    some { k := k, dest := d, codes := [c.fa, c.fd]
           accepts := fun fs => fs.all (fun f => (f.integer && !f.sliced) || f.float) && scaleOk c.asc a (fs.getD 0 Fmt.s8) && !c.dsc
           result := fun fs _ e =>
             let fa := fs.getD 0 Fmt.s8
             let fd := fs.getD 1 Fmt.s8
             if fa.integer && fd.integer then
               if c.asc then place fd { c.rounding s.draw e with sat := true } (h.valAt a e fa true c.ftz)
               else fit fd (h.intAt a e fa) true
             else place fd (c.rounding s.draw e) (h.valAt a e fa c.asc c.ftz) }
  | .vqscale k d a b =>
    let c := h.descr k
    some { k := k, dest := d, codes := [c.fa, c.fb, c.fd]
           accepts := fun fs =>
             let fa := fs.getD 0 Fmt.s8
             (fa = .f32 || fa = .f16 || fa = .bf16) && fs.getD 1 Fmt.s8 = .x9 &&
               ((fs.getD 2 Fmt.f64).narrow || fs.getD 2 Fmt.f64 = .s4 || fs.getD 2 Fmt.f64 = .s8) && !(c.asc || c.bsc || c.dsc)
           spans := fun fs => [fs.getD 0 Fmt.s8, fs.getD 2 Fmt.s8]
           result := fun fs _ e =>
             let E := h.bitsAt b (e / 32) .x9
             if E = 511 then place (fs.getD 2 Fmt.s8) {} (.nan false)
             else place (fs.getD 2 Fmt.s8) (c.rounding s.draw e)
               ((h.valAt a e (fs.getD 0 Fmt.s8) false c.ftz).scale (255 - (E : Int))) }
  | .vfclass k d a =>
    let c := h.descr k
    some { k := k, dest := d, codes := [c.fa, c.fd]
           accepts := fun fs => (fs.getD 0 Fmt.s8).float && wideInteger [fs.getD 1 Fmt.s8] && scaleOk c.asc a (fs.getD 0 Fmt.s8) && !c.dsc
           result := fun fs _ e =>
             let fa := fs.getD 0 Fmt.s8
             let cls : Nat := match fa.spec with
               | some sp => if c.asc && h.bitsAt (a + 1) (e / 32) .x9 = 511 then 9 else classOf sp fa.width (h.bitsAt a e fa)
               | none => 9
             (2 ^ cls, flNone) }
  | _ => none

/-- The approximations (R65). -/
inductive Approx where
  | rcp | rsq | exp2
  deriving DecidableEq, Repr

/-- The formats of the approximations (R65). -/
def approxFmt (f : Fmt) : Bool := f = .f64 || f = .f32 || f = .f16 || f = .bf16

/-- An approximation instruction, with its fields. -/
def approxOf (i : Instr) : Option (Approx × Blk × VIx × VIx) :=
  match i with
  | .vfrcp k d a => some (.rcp, k, d, a)
  | .vfrsq k d a => some (.rsq, k, d, a)
  | .vfexp2 k d a => some (.exp2, k, d, a)
  | _ => none

/-- An approximation as a form (R355), when g gives its result from the formats, sat, ftz and the bits of a: rnd has no
part in it. -/
def approxForm (g : Approx → Fmt → Fmt → Bool → Bool → Nat → Nat × Flags) (h : Hart) (i : Instr) : Option (Form Nat VIx) :=
  (approxOf i).map (fun x =>
    let k := x.2.1
    let c := h.descr k
    { k := k, dest := x.2.2.1, codes := [c.fa, c.fd], accepts := fun fs => fs.all approxFmt && !c.asc && !c.dsc
      result := fun fs _ e => g x.1 (fs.getD 0 Fmt.s8) (fs.getD 1 Fmt.s8) c.sat c.ftz (h.bitsAt x.2.2.2 e (fs.getD 0 Fmt.s8)) })

/-- Bits x of a float format hold the finite value of sign neg and magnitude q. -/
def Holds (f : Fmt) (x : Nat) (neg : Bool) (q : ℝ) : Prop := ∃ m d, decodeVal f false x = .num neg m d ∧ q = (m : ℝ) / d

/-- q is one of the two magnitudes of a format that bracket y (R65). -/
def Brackets (f : Fmt) (y q : ℝ) : Prop :=
  (q ≤ y ∧ ∀ x n p, x < 2 ^ f.width → Holds f x n p → p ≤ y → p ≤ q) ∨
    (y ≤ q ∧ ∀ x n p, x < 2 ^ f.width → Holds f x n p → y ≤ p → q ≤ p)

/-- The magnitude that an approximation approximates for the operand ± m / d (R65). -/
def Exactly (op : Approx) (neg : Bool) (m d : Nat) (Y : ℝ) : Prop :=
  0 < Y ∧ match op with
    | .rcp => Y * m = d
    | .rsq => Y ^ 2 * m = d
    | .exp2 => if neg then Y ^ d * 2 ^ m = 1 else Y ^ d = 2 ^ m

/-- What a bracket is taken around: the exact magnitude; for `VFEXP2` one of the same binade, within 2^-200 of it. -/
def Near (op : Approx) (Y y : ℝ) : Prop :=
  match op with
  | .exp2 => |y - Y| ≤ Y / 2 ^ 200 ∧ ∀ e : ℤ, (2 : ℝ) ^ e < y ↔ (2 : ℝ) ^ e < Y
  | _ => y = Y

/-- Bits of a format with a sign. -/
def signed (f : Fmt) (neg : Bool) (mag : Nat) : Nat := mag + if neg then 2 ^ (f.width - 1) else 0

/-- The result of R65 and R66 for the exact magnitude Y and a sign, in a format with the encoding sp: exact for a
power of two; zero for a reciprocal that is subnormal; otherwise within the bound, with the overflow and clamps of
R63. -/
def ApproxResult (op : Approx) (f : Fmt) (sp : FloatSpec) (sat ftz neg : Bool) (Y : ℝ) (r : Nat × Flags) : Prop :=
  let emin : ℤ := 1 - (sp.bias : ℤ)
  let top : ℝ := (2 : ℝ) ^ ((sp.bias : ℤ) + 1)
  let largest : ℝ := top - (2 : ℝ) ^ ((sp.bias : ℤ) - (sp.m : ℤ))
  let zero := r = (signed f neg 0, flUF ||| flNX)
  let overflow := r = if sat then (signed f neg sp.maxMag, flSAT ||| flNX) else (signed f neg (sp.inf.getD 0), flOF ||| flNX)
  if op = .rcp ∧ Y < (2 : ℝ) ^ emin then zero
  else
    (∀ e : ℤ, Y = (2 : ℝ) ^ e →
      if largest < Y then overflow
      else if emin ≤ e ∨ (ftz = false ∧ emin - (sp.m : ℤ) ≤ e) then Holds f r.1 neg Y ∧ r.2 = flNone
      else zero) ∧
    ((∀ e : ℤ, Y ≠ (2 : ℝ) ^ e) →
      if Y < (2 : ℝ) ^ emin then
        r.2 = flUF ||| flNX ∧ ∃ q, Holds f r.1 neg q ∧ q < (2 : ℝ) ^ emin ∧ (ftz = true → q = 0) ∧
          (ftz = false → f ≠ .f64 → ∃ y, Near op Y y ∧ Brackets f y q)
      else if f = .f64 then
        (r.2 = flNX ∧ ∃ q, Holds f r.1 neg q ∧ |q - Y| < Y / 2 ^ 50) ∨ (overflow ∧ largest < Y * (1 + 1 / 2 ^ 50))
      else ∃ y, Near op Y y ∧
        ((r.2 = flNX ∧ y < top ∧ ∃ q, Holds f r.1 neg q ∧ Brackets f y q) ∨ (overflow ∧ largest < y)))

/-- The result that R65 and R66 allow an approximation for the bits x of its operand. -/
def Approximates (op : Approx) (fa fd : Fmt) (sat ftz : Bool) (x : Nat) (r : Nat × Flags) : Prop :=
  ∀ sa sp, fa.spec = some sa → fd.spec = some sp →
    let nan := sp.nan.getD 0
    let inf := sp.inf.getD 0
    let one := sp.bias * 2 ^ sp.m
    let subnormal := x / 2 ^ sa.m % 2 ^ (fa.width - 1 - sa.m) = 0 ∧ x % 2 ^ sa.m ≠ 0
    match decodeVal fa ftz x with
    | .nan signalling => r = (nan, if signalling then flNV else flNone)
    | .inf neg =>
      r = (match op, neg with
        | .rcp, _ => (signed fd neg 0, flNone)
        | .rsq, false => (0, flNone)
        | .rsq, true => (nan, flNV)
        | .exp2, false => (inf, flNone)
        | .exp2, true => (0, flNone))
    | .num neg m d =>
      if m = 0 then r = (if op = .exp2 then (one, flNone) else (signed fd neg inf, flDZ))
      else if op = .rsq ∧ neg = true then r = (nan, flNV)
      else if op = .exp2 ∧ subnormal then r = (one, flNX)
      else ∀ Y, Exactly op neg m d Y → ApproxResult op fd sp sat ftz (decide (op = .rcp) && neg) Y r

/-- Elements that an instruction names itself: those for which `w` gives bits take them, every other element and
register is as it was, and fl joins the flags. -/
structure Scattered (s t : State) (vd : VIx) (f : Fmt) (w : Nat → Option Nat) (fl : Flags) : Prop where
  element : ∀ e < s.hart.lanes * f.perSlice, t.hart.bitsAt vd e f = (w e).elim (s.hart.bitsAt vd e f) (· % 2 ^ f.width)
  registers : ∀ v : VIx, v ≠ vd → t.hart.v[v.val] = s.hart.v[v.val]
  predicates : t.hart.p = s.hart.p
  flags : t.hart.fflags = s.hart.fflags ||| fl
  rest : OnlyVector s t
  ended : Completed s t

/-- An instruction that passes the checks writes the elements that its form names. -/
def Scatters (s : State) (i : Instr) (F : Form (Option Nat) VIx) : Prop :=
  ∀ (fs : List Fmt) (fd : Fmt), Dispatches s F fs → fs.getLast? = some fd → s.hart.v[F.dest.val].Covered →
    ∃ t, exec i s = .next t ∧
      Scattered s t F.dest fd (fun e => (F.result fs (length s F fs) e).1) (F.result fs (length s F fs) 0).2

/-- Indices from `VSTART` to vl - 1 that a predicate selects. -/
def selected (h : Hart) (p : PIx) (vl : Nat) : List Nat := (List.range' h.vstart (vl - h.vstart)).filter (h.pbit p)

/-- `VINS`, `VCOMPR` and `VEXPND` (R344, R347). -/
def scatterForm (h : Hart) (i : Instr) : Option (Form (Option Nat) VIx) :=
  match i with
  | .vins k d x xi =>
    some { k := k, dest := d, codes := [(h.descr k).fd], accepts := fun fs => fs.all (fun f => !f.sliced)
           result := fun _ vl e =>
             (if e = (h.view xi).toNat ∧ h.vstart ≤ e ∧ e < vl ∧ h.active k e then some (h.view x).toNat else none, flNone) }
  | .vcompr k d a p =>
    some { k := k, dest := d, codes := [(h.descr k).fa, (h.descr k).fd]
           accepts := fun fs => samePacked fs && markedPair (h.descr k) d a fs
           result := fun fs vl e =>
             (if h.vstart ≤ e ∧ e < vl then
                match (selected h p vl)[e - h.vstart]? with
                | some j => if h.active k e then some (h.bitsAt a j (fs.getD 0 Fmt.s8)) else if k.pz then some 0 else none
                | none => if k.pz then some 0 else none
              else none, flNone) }
  | .vexpnd k d a p =>
    some { k := k, dest := d, codes := [(h.descr k).fa, (h.descr k).fd]
           accepts := fun fs => samePacked fs && markedPair (h.descr k) d a fs
           result := fun fs vl e =>
             (if h.vstart ≤ e ∧ e < vl then
                if h.pbit p e && h.active k e then some (h.bitsAt a (selected h p e).length (fs.getD 0 Fmt.s8))
                else if k.pz then some 0 else none
              else none, flNone) }
  | _ => none

/-- Formats of a reduction or scan (R371). -/
def reducible (c : Descr) (a : VIx) (fs : List Fmt) : Bool :=
  ((wideOrNarrow fs && !c.asc) || (fs.all Fmt.float && scaleOk c.asc a (fs.getD 0 Fmt.s8))) && !c.dsc
where
  /-- Packed integers. -/
  wideOrNarrow (fs : List Fmt) : Bool := fs.all (fun f => f.integer && !f.sliced)

/-- The reductions (R372). -/
inductive Reduction where
  | sum (ordered : Bool)
  | largest
  | smallest
  deriving DecidableEq, Repr

/-- A reduction, with its fields. -/
def reductionOf (i : Instr) : Option (Reduction × Blk × VIx × VIx) :=
  match i with
  | .vredsum k d a ordered => some (.sum ordered, k, d, a)
  | .vredmax k d a => some (.largest, k, d, a)
  | .vredmin k d a => some (.smallest, k, d, a)
  | _ => none

/-- What a reduction of integers gives (R372). -/
def Reduction.ofInts (op : Reduction) (l : List Int) : Int :=
  match op with
  | .sum _ => l.sum
  | .largest => (l.max?).getD 0
  | .smallest => (l.min?).getD 0

/-- r is Place of v under a descriptor (R63): which random bits a stochastic rounding takes is open. -/
def Rounds (c : Descr) (f : Fmt) (v : Val) (r : Nat × Flags) : Prop :=
  ∃ u < 65536, r = place f { mode := c.rnd, sat := c.sat, ftz := c.ftz, u := if c.rnd = 5 then u else 0 } v

/-- The values vs added to a in their order, each sum rounded (R64, R372): the value reached, with the flags. -/
inductive OrderedSum (c : Descr) (f : Fmt) : Val → List Val → Val → Flags → Prop where
  | done {a} : OrderedSum c f a [] a flNone
  | add {a v vs r b fl} : Rounds c f (a.add (c.rnd = 2) v) r → OrderedSum c f (decodeVal f false r.1) vs b fl →
      OrderedSum c f a (v :: vs) b (r.2 ||| fl)

/-- The value of a binary tree whose leaves are the values of a list, each node rounded (R64), with the flags. -/
inductive TreeSum (c : Descr) (f : Fmt) : List Val → Val → Flags → Prop where
  | leaf {v} : TreeSum c f [v] v flNone
  | node {xs ys x y r fl gl} : TreeSum c f xs x fl → TreeSum c f ys y gl → Rounds c f (x.add (c.rnd = 2) y) r →
      TreeSum c f (xs ++ ys) (decodeVal f false r.1) (fl ||| gl ||| r.2)

/-- The element that pairwise choices take among values (R353, R372). -/
def chosen (most : Bool) (vs : List Val) : Val := vs.tail.foldl (·.choose most) (vs.headD (.nan false))

/-- The bits and flags that a reduction allows for the values of its contributing elements, of which there is one
(R64, R372): an ordered sum starts from the first as it stands; an unordered one is any tree over them in any order. -/
def Reduction.Allows (op : Reduction) (c : Descr) (f : Fmt) (vs : List Val) (x : Nat × Flags) : Prop :=
  ∃ v r fl, Rounds c f v r ∧ x = (r.1, fl ||| r.2) ∧
    let choice := fun (most : Bool) => v = chosen most vs ∧
      fl = if 2 ≤ vs.length ∧ vs.any Val.isSignalling = true then flNV else flNone
    match op with
    | .sum true => OrderedSum c f (vs.headD (.nan false)) vs.tail v fl
    | .sum false => ∃ ls, ls.Perm vs ∧ TreeSum c f ls v fl
    | .largest => choice true
    | .smallest => choice false

/-- The running sums of `VSCAN` over floats (R373): the first as it stands, each further one rounded; each is placed. -/
inductive ScanSums (c : Descr) (f : Fmt) : Option Val → List Val → List (Nat × Flags) → Prop where
  | done {acc} : ScanSums c f acc [] []
  | first {v vs r rs} : Rounds c f v r → ScanSums c f (some v) vs rs → ScanSums c f none (v :: vs) (r :: rs)
  | next {a v vs r rs} : Rounds c f (a.add (c.rnd = 2) v) r → ScanSums c f (some (decodeVal f false r.1)) vs rs →
      ScanSums c f (some a) (v :: vs) (r :: rs)

/-- The real number that a finite value stands for. -/
noncomputable def real (v : Val) : ℝ :=
  match v with
  | .num neg m d => (if neg then -1 else 1) * ((m : ℝ) / d)
  | _ => 0

/-- One of the two values of a format that bracket the magnitude y, which the format does not hold, with the flags and
the overflow of R62 and R63. -/
def BracketResult (f : Fmt) (sp : FloatSpec) (sat neg : Bool) (y : ℝ) (r : Nat × Flags) : Prop :=
  let top : ℝ := (2 : ℝ) ^ ((sp.bias : ℤ) + 1)
  let largest : ℝ := top - (2 : ℝ) ^ ((sp.bias : ℤ) - (sp.m : ℤ))
  let bracket := ∃ q, Holds f r.1 neg q ∧ Brackets f y q
  let overflow := r = if sat then (signed f neg sp.maxMag, flSAT ||| flNX) else (signed f neg (sp.inf.getD 0), flOF ||| flNX)
  if y < (2 : ℝ) ^ (1 - (sp.bias : ℤ)) then r.2 = flUF ||| flNX ∧ bracket
  else (r.2 = flNX ∧ y < top ∧ bracket) ∨ (overflow ∧ largest < y)

/-- The data formats of `VROPE` (R375). -/
def ropeFmt (f : Fmt) : Bool := f = .f32 || f = .f16 || f = .bf16

/-- The result that R375 and R376 allow an element of a rotated pair with the bits u0 and u1, the position up and the
frequency uf: where θ is not zero and the pair is not, a bracket of a real within 2^-200 of the pair's magnitude from
the exact one. -/
def Rotates (odd : Bool) (fa fd : Fmt) (sat ftz : Bool) (u0 u1 up uf : Nat) (r : Nat × Flags) : Prop :=
  ∀ sp, fd.spec = some sp →
    let nan := sp.nan.getD 0
    let x0 := decodeVal fa ftz u0
    let x1 := decodeVal fa ftz u1
    let freq := decodeVal .f32 ftz uf
    let infinite := fun (v : Val) => v = .inf false ∨ v = .inf true
    let θ := real (decodeVal .s32 false up) * real freq
    let exact := if odd then real x0 * Real.sin θ + real x1 * Real.cos θ else real x0 * Real.cos θ - real x1 * Real.sin θ
    (freq.isNan = true ∨ infinite freq ∨ infinite x0 ∨ infinite x1 → r = (nan, flNV)) ∧
    (freq.isNan = false → ¬ infinite freq → ¬ infinite x0 → ¬ infinite x1 →
      (x0.isNan = true ∨ x1.isNan = true → r = (nan, if x0.isSignalling || x1.isSignalling then flNV else flNone)) ∧
      (x0.isNan = false → x1.isNan = false →
        (θ = 0 → ∀ neg m d, (if odd then x1 else x0) = .num neg m d →
          (m = 0 → r = (signed fd neg 0, flNone)) ∧
          (m ≠ 0 → (∃ x q, x < 2 ^ fd.width ∧ Holds fd x neg q ∧ q = (m : ℝ) / d) → Holds fd r.1 neg ((m : ℝ) / d) ∧ r.2 = flNone) ∧
          (m ≠ 0 → (∀ x, x < 2 ^ fd.width → ¬ Holds fd x neg ((m : ℝ) / d)) → BracketResult fd sp sat neg ((m : ℝ) / d) r)) ∧
        (θ ≠ 0 → real x0 = 0 → real x1 = 0 → ∃ neg, r = (signed fd neg 0, flNone)) ∧
        (θ ≠ 0 → real x0 ≠ 0 ∨ real x1 ≠ 0 →
          ∃ (neg : Bool) (y : ℝ), 0 < y ∧ |(if neg then -y else y) - exact| ≤ (|real x0| + |real x1|) / 2 ^ 200 ∧
            BracketResult fd sp sat neg y r)))

/-- `VROPE` as a form (R374 to R376), when g gives a rotated element from its parity, the formats of the pair and the
result, sat, ftz and the bits of the pair, the position and the frequency. -/
def ropeForm (g : Bool → Fmt → Fmt → Bool → Bool → Nat → Nat → Nat → Nat → Nat × Flags) (s : State) (i : Instr) :
    Option (Form Nat VIx) :=
  let h := s.hart
  match i with
  | .vrope k d a b x xh =>
    let c := h.descr k
    let D := (h.view xh).toNat
    let part := h.viewRope.toNat
    let nt := part % 256
    let nh := part / 256 % 256
    let nw := part / 65536 % 256
    some { k := k, dest := d, codes := [c.fa, c.fb, c.fc, c.fd]
           accepts := fun fs =>
             ropeFmt (fs.getD 0 Fmt.s8) && fs.getD 1 Fmt.s8 = .s32 && fs.getD 2 Fmt.s8 = .f32 && ropeFmt (fs.getD 3 Fmt.s8) &&
               !(c.asc || c.bsc || c.dsc) && D % 2 = 0 && decide (8 ≤ D) && decide (D / 2 ≤ h.lanes * Fmt.f32.perSlice) &&
               h.vl k (vlmax h.lanes fs) % D = 0 && h.vstart % D = 0
           result := fun fs _ e =>
             let fa := fs.getD 0 Fmt.s8
             let fd := fs.getD 3 Fmt.s8
             let q := e / D
             let p := e % D / 2
             let rotated := fun (axis : Nat) => g (e % 2 = 1) fa fd c.sat c.ftz (h.bitsAt a (q * D + 2 * p) fa)
               (h.bitsAt a (q * D + 2 * p + 1) fa) (h.bitsAt b (3 * q + axis) .s32) (h.bitsAt x p .f32)
             if p < nt then rotated 0 else if p < nt + nh then rotated 1 else if p < nt + nh + nw then rotated 2
             else place fd (c.rounding s.draw e) (h.valAt a e fa false c.ftz) }
  | _ => none

/-- Beside bin cells and their marks, only what `OnlyVector` lets differ does. -/
def OnlyCells (s t : State) : Prop :=
  OnlyVector { s with hart := { s.hart with cells := t.hart.cells, marks := t.hart.marks } } t

/-- A Flail instruction that raises no flag leaves the cells that `w` gives, and completes (R318). -/
structure CellsTake (s t : State) (w : Nat → Nat → BitVec 32) : Prop where
  cell : ∀ r c, c < binCols → t.hart.cell r c = w r c
  registers : t.hart.v = s.hart.v
  predicates : t.hart.p = s.hart.p
  flags : t.hart.fflags = s.hart.fflags
  rest : OnlyCells s t
  ended : Completed s t

/-- The value of R316 that column j of row i takes: Acc of what the cell holds and of the products. -/
def outerCell (h : Hart) (d : Descr) (a : VIx) (fa fd : Fmt) (base i j : Nat) (terms : List (Nat × Val)) : Nat × Flags :=
  flailAcc fd (terms.foldl (fun v kb => v.add false ((h.flailA d a fa (8 * i + kb.1)).mul kb.2)) (cellVal fd (h.cell (base + i) j)))

end Sys2Proof.Claims

open Sys2Proof Sys2Proof.Machine

/-- R265 and R266: every register-register operation writes its exact result, at width 64 or with `.w` at width 32
sign-extended, and goes on at the next word; none traps and none raises a flag. -/
def Sys2Proof.Claims.RegisterArithmeticWritesExactResult : Prop :=
  ∀ (i : Instr) (s : State) (d : Reg) (rs : List Reg) (v : Word),
    Claims.regForm s.hart i = some (d, rs, v) → Claims.Readable rs s →
      exec i s = .next (Claims.wrote s d v (s.hart.pc + 4))

/-- R268: every immediate operation writes its result modulo 2^64 and goes on at the next word. -/
def Sys2Proof.Claims.ImmediateArithmeticWritesExactResult : Prop :=
  ∀ (i : Instr) (s : State) (d : Reg) (rs : List Reg) (v : Word),
    Claims.immForm s.hart i = some (d, rs, v) → Claims.Readable rs s →
      exec i s = .next (Claims.wrote s d v (s.hart.pc + 4))

/-- Both statements: `Claims.RegisterArithmeticWritesExactResult` and
`Claims.ImmediateArithmeticWritesExactResult`.
Choices of the model: notes/assumptions/24 (a younger write to a register that awaits an answer). -/
def Obligations.ArithmeticWritesExactResult : Prop :=
  Sys2Proof.Claims.RegisterArithmeticWritesExactResult ∧ Sys2Proof.Claims.ImmediateArithmeticWritesExactResult

/-- R335 to R339, R357, R377, R378 over the frame of R334: each integer instruction of a block writes Fit of its exact
result into every active element, and completes.
Choices of the model: notes/assumptions/26 (formats and clamping of vector instructions). -/
def Obligations.VectorIntegerWritesExactResult : Prop :=
  ∀ (s : State) (i : Instr) (F : Claims.Form Nat VIx), Claims.intForm s.hart i = some F → Claims.Writes s i F

/-- R321, R345, R346 over the frame of R334: comparisons and predicate operations write their bit into every active
element of the predicate, and complete.
Choices of the model: notes/assumptions/26 (formats and clamping of vector instructions). -/
def Obligations.PredicatesTakeComparisonBits : Prop :=
  ∀ (s : State) (i : Instr) (F : Claims.Form Bool PIx), Claims.predForm s.hart i = some F → Claims.WritesP s i F

/-- R321, R344, R363, R365, R369 over the frame of R334: moves, permutes, broadcasts, counts and lane-table loads bring
the bits that their rules name, and complete.
Choices of the model: notes/assumptions/26 (formats and clamping of vector instructions). -/
def Obligations.MovesBringNamedBits : Prop :=
  ∀ (s : State) (i : Instr) (F : Claims.Form Nat VIx), Claims.moveForm s.hart i = some F → Claims.Writes s i F

/-- R348, R351, R352, R353 over the frame of R334: float instructions whose destination is not block-scaled place their
exact result, with the flags of the operation, and complete.
Choices of the model: notes/assumptions/5 (clocks of a step and the number of a free value), 13 (random bits of
stochastic rounding and the tree of a sum), 57 (flags and counts at corners). -/
def Obligations.VectorFloatPlacesExactResult : Prop :=
  ∀ (s : State) (i : Instr) (F : Claims.Form Nat VIx), Claims.floatVec s i = some F → Claims.Writes s i F

/-- R348, R354, R370 over the frame of R334: conversions, scaled quantisation and classification, and their completion.
Choices of the model: notes/assumptions/5 (clocks of a step and the number of a free value), 13 (random bits of
stochastic rounding and the tree of a sum), 25 (flags of conversions out of range), 26 (formats and clamping of vector
instructions), 57 (flags and counts at corners). -/
def Obligations.ConversionsWriteElements : Prop :=
  ∀ (s : State) (i : Instr) (F : Claims.Form Nat VIx), Claims.convertForm s i = some F → Claims.Writes s i F

/-- R65, R66, R355: `VFRCP`, `VFRSQ` and `VFEXP2` write into each active element a result that depends on the formats,
sat, ftz and the operand's bits alone and that the rules allow: the special cases; powers of two exactly; and otherwise,
in f64, a value less than 2^-50 of the exact result away from it, and in any other format one of the two values that
bracket the exact result, which for `VFEXP2` is known to within 2^-200 of itself. Each completes.
Choices of the model: notes/assumptions/12 (which allowed value an approximation answers), 25 (flags of conversions
out of range). -/
def Obligations.ApproximationsWriteElements : Prop :=
  ∃ g : Claims.Approx → Fmt → Fmt → Bool → Bool → Nat → Nat × Flags,
    (∀ op fa fd sat ftz x, Claims.approxFmt fa = true → Claims.approxFmt fd = true → x < 2 ^ fa.width →
      Claims.Approximates op fa fd sat ftz x (g op fa fd sat ftz x)) ∧
    ∀ (s : State) (i : Instr) (F : Claims.Form Nat VIx), Claims.approxForm g s.hart i = some F → Claims.Writes s i F

/-- R344, R347: `VINS` writes one element, `VCOMPR` packs the selected elements together and `VEXPND` spreads them, and
each completes. -/
def Sys2Proof.Claims.InsertCompressExpandWriteNamedElements : Prop :=
  ∀ (s : State) (i : Instr) (F : Claims.Form (Option Nat) VIx), Claims.scatterForm s.hart i = some F → Claims.Scatters s i F

/-- R64, R371, R372: a reduction writes element 0 alone, when an element contributes, and completes: Fit of the exact
sum or of the extreme integer, the placed sum of floats in their order or over any tree of them, or the float that
pairwise choices take. -/
def Sys2Proof.Claims.ReductionsWriteElementZero : Prop :=
  ∀ (s : State) (i : Instr) (op : Claims.Reduction) (k : Blk) (d a : VIx) (fa fd : Fmt),
    let h := s.hart
    let c := h.descr k
    let F : Claims.Form Nat VIx :=
      { k := k, dest := d, codes := [c.fa, c.fd], accepts := Claims.reducible c a, result := fun _ _ _ => (0, flNone) }
    Claims.reductionOf i = some (op, k, d, a) → Claims.Dispatches s F [fa, fd] → h.v[d.val].Covered →
      let es := h.actives k (Claims.length s F [fa, fd])
      let writes := fun (x : Nat × Flags) => ∃ t, exec i s = .next t ∧
        Claims.Scattered s t d fd (fun e => if e = 0 then some x.1 else none) x.2
      (es = [] → ∃ t, exec i s = .next t ∧ Claims.Scattered s t d fd (fun _ => none) flNone) ∧
      (es ≠ [] → fd.integer = true → writes (fit fd (op.ofInts (es.map (fun j => h.intAt a j fa))) c.sat)) ∧
      (es ≠ [] → fd.integer = false → ∃ x, op.Allows c fd (es.map (fun j => h.valAt a j fa c.asc c.ftz)) x ∧ writes x)

/-- R64, R373: `VSCAN` writes the running sums of the active elements up to each: Fit of the exact one of integers,
and of floats the sum in their order, rounded at each addition. It completes. -/
def Sys2Proof.Claims.ScansWriteRunningSums : Prop :=
  ∀ (s : State) (k : Blk) (d a : VIx) (fa fd : Fmt),
    let h := s.hart
    let c := h.descr k
    let F : Claims.Form Nat VIx :=
      { k := k, dest := d, codes := [c.fa, c.fd], accepts := Claims.reducible c a, result := fun _ _ _ => (0, flNone) }
    Claims.Dispatches s F [fa, fd] → h.v[d.val].Covered →
      let vl := Claims.length s F [fa, fd]
      let es := h.actives k vl
      let writes := fun (x : Nat → Nat × Flags) => ∃ t, exec (.vscan k d a) s = .next t ∧ Claims.Written s t k d fd vl x
      (fd.integer = true → writes (fun e => fit fd (((h.actives k (e + 1)).map (fun j => h.intAt a j fa)).sum) c.sat)) ∧
      (fd.integer = false → ∃ rs, Claims.ScanSums c fd none (es.map (fun j => h.valAt a j fa c.asc c.ftz)) rs ∧
        writes (fun e => rs.getD (es.idxOf e) (0, flNone)))

/-- R374 to R376: `VROPE` writes into each active element of a rotated pair a result that depends on the formats, sat,
ftz and the operands' bits alone and that the rules allow, places the others, and completes. -/
def Sys2Proof.Claims.RotationsWritePairs : Prop :=
  ∃ g : Bool → Fmt → Fmt → Bool → Bool → Nat → Nat → Nat → Nat → Nat × Flags,
    (∀ odd fa fd sat ftz u0 u1 up uf, Claims.ropeFmt fa = true → Claims.ropeFmt fd = true → u0 < 2 ^ fa.width → u1 < 2 ^ fa.width →
      up < 2 ^ 32 → uf < 2 ^ 32 → Claims.Rotates odd fa fd sat ftz u0 u1 up uf (g odd fa fd sat ftz u0 u1 up uf)) ∧
    ∀ (s : State) (i : Instr) (F : Claims.Form Nat VIx), Claims.ropeForm g s i = some F → Claims.Writes s i F

/-- The three statements: `Claims.ReductionsWriteElementZero`, `Claims.ScansWriteRunningSums` and
`Claims.RotationsWritePairs`.
Choices of the model: notes/assumptions/12 (which allowed value an approximation answers), 13 (random bits of
stochastic rounding and the tree of a sum), 57 (flags and counts at corners). -/
def Obligations.ReductionsScansRotationsWriteElements : Prop :=
  Sys2Proof.Claims.ReductionsWriteElementZero ∧ Sys2Proof.Claims.ScansWriteRunningSums ∧ Sys2Proof.Claims.RotationsWritePairs

/-- R316, R317, R254: `MOPA` and `MOPAS` accumulate the outer product into the bin cells of their rows and the columns
from `VSTART` to VL - 1, join the flags of every cell they write to `FFLAGS`, leave every other cell, register and
predicate, and complete; for `MOPAS` every container names four ascending positions. -/
def Sys2Proof.Claims.OuterProductsAccumulate : Prop :=
  ∀ (s : State) (k : Blk) (a b c : VIx) (base : BitVec 7) (units : BitVec 4) (sparse : Bool) (fs : List Fmt),
    let h := s.hart
    let d := h.descr k
    let fa := fs.getD 0 Fmt.s8
    let fb := fs.getD 1 Fmt.s8
    let fd := fs.getLastD Fmt.s8
    let n := if sparse then 4 else 8
    let F : Claims.Form Nat Unit :=
      { k := k, dest := (), codes := if sparse then [d.fa, d.fb, d.fc, d.fd] else [d.fa, d.fb, d.fd]
        accepts := fun _ => flailFormats d a b n fa fb fd && (!sparse || fs.getD 2 Fmt.s8 = .n16), result := fun _ _ _ => (0, flNone) }
    let cols := min (Claims.length s F fs) binCols
    let con := fun j => h.bitsAt c j .n16
    let terms := fun j => (List.range n).map (fun m => (if sparse then slotIndex (con j) m else m, h.flailB d b fb n m j))
    Claims.Dispatches s F fs → h.holdsRows base.toNat (8 * units.toNat) = true →
      (sparse = true → ∀ j, h.vstart ≤ j → j < cols → wellFormedContainer (con j) = true) →
        ∃ t, exec (if sparse then .mopas k a b c base units else .mopa k a b base units) s = .next t ∧
          (∀ r j, j < binCols → t.hart.cell r j =
            if base.toNat ≤ r ∧ r < base.toNat + 8 * units.toNat ∧ h.vstart ≤ j ∧ j < cols then
              BitVec.ofNat 32 (Claims.outerCell h d a fa fd base.toNat (r - base.toNat) j (terms j)).1
            else h.cell r j) ∧
          t.hart.v = h.v ∧ t.hart.p = h.p ∧
          t.hart.fflags = ((List.range' h.vstart (cols - h.vstart)).flatMap (fun j => (List.range (8 * units.toNat)).map (fun i =>
            (Claims.outerCell h d a fa fd base.toNat i j (terms j)).2))).foldl (· ||| ·) h.fflags ∧
          Claims.OnlyCells s t ∧ Claims.Completed s t

/-- R318: `MWR` writes the elements of a register into the cells of a row, `MZERO` clears the cells of its rows; neither
raises a flag, every other cell, register and predicate is as it was, and each completes. -/
def Sys2Proof.Claims.BinRowsAreWrittenAndCleared : Prop :=
  (∀ (s : State) (k : Blk) (a : VIx) (row : BitVec 7) (f : Fmt),
    let F : Claims.Form Nat Unit :=
      { k := k, dest := (), codes := [(s.hart.descr k).fa]
        accepts := fun _ => (f = .s32 || f = .n32 || f = .f32) && scaleOk (s.hart.descr k).asc a f, result := fun _ _ _ => (0, flNone) }
    Claims.Dispatches s F [f] → s.hart.holdsRows row.toNat 1 = true →
      ∃ t, exec (.mwr k a row) s = .next t ∧ Claims.CellsTake s t (fun r c =>
        if r = row.toNat ∧ s.hart.vstart ≤ c ∧ c < Claims.length s F [f] then BitVec.ofNat 32 (s.hart.bitsAt a c f)
        else s.hart.cell r c)) ∧
  (∀ (s : State) (k : Blk) (base : BitVec 7) (units : BitVec 4),
    (s.hart.descr k).sane = true → s.hart.holdsRows base.toNat (8 * units.toNat) = true →
      ∃ t, exec (.mzero k base units) s = .next t ∧ Claims.CellsTake s t (fun r c =>
        if base.toNat ≤ r ∧ r < base.toNat + 8 * units.toNat then 0 else s.hart.cell r c))

/-- Both statements: `Claims.OuterProductsAccumulate` and
`Claims.BinRowsAreWrittenAndCleared`. -/
def Obligations.OuterProductsAndBinRows : Prop :=
  Sys2Proof.Claims.OuterProductsAccumulate ∧ Sys2Proof.Claims.BinRowsAreWrittenAndCleared

namespace Sys2Proof.Claims

/-- Beside the vector registers ds, the lane tables and what completing writes, nothing differs; fl joins the flags. -/
structure Leaves (s t : State) (ds : List VIx) (fl : Flags) : Prop where
  registers : ∀ v : VIx, v ∉ ds → t.hart.v[v.val] = s.hart.v[v.val]
  predicates : t.hart.p = s.hart.p
  flags : t.hart.fflags = s.hart.fflags ||| fl
  rest : OnlyVector s t
  ended : Completed s t

/-- Mag of R379 and the order of R380: v stands above w, a NaN above every number, or below it with `low`. -/
def above (low : Bool) (v w : Val) : Bool :=
  if v.isNan then !low && !w.isNan
  else if w.isNan then low
  else decide (0 < v.cmp w)

/-- Element i goes before element j: the larger value, and of equal ones the lower index. -/
def goesBefore (low : Bool) (val : Nat → Val) (i j : Nat) : Bool :=
  above low (val i) (val j) || (!above low (val j) (val i) && decide (i < j))

/-- How many of es go before e. -/
def rank (low : Bool) (val : Nat → Val) (es : List Nat) (e : Nat) : Nat := (es.filter (fun j => goesBefore low val j e)).length

/-- The absolute value of a value. -/
def magnitude (v : Val) : Val :=
  match v with
  | .num _ m d => .num false m d
  | .inf _ => .inf false
  | v => v

/-- Positions of a group of eight values that `VSPRUNE` keeps: the four largest magnitudes, ascending (R379). -/
def keeps (val : Nat → Val) : List Nat :=
  (List.range 8).filter (fun i => decide (rank false (fun j => magnitude (val j)) (List.range 8) i < 4))

/-- The bytes of active elements: the element's index, its bytes' places, and the bit at which it starts. -/
abbrev Places := Nat → List Nat

/-- Bit j of byte pa after the elements es have been stored in order: element e puts the w bits of `x e` from bit
`off e` of its bytes on (R341). -/
def storedBit (es : List Nat) (pas : Places) (off x : Nat → Nat) (w pa j : Nat) (before : Bool) : Bool :=
  es.foldl (fun bit e =>
    match (pas e).idxOf? pa with
    | none => bit
    | some i => if off e ≤ 8 * i + j ∧ 8 * i + j < off e + w then (x e).testBit (8 * i + j - off e) else bit) before

/-- A memory of bytes with the bytes bs put at the places pas. -/
def put (m : Nat → Byte) (pas : List Nat) (bs : List Byte) (a : Nat) : Byte :=
  ((pas.zip bs).find? (fun e => e.1 == a)).elim (m a) (·.2)

/-- The n-bit number x read as signed. -/
def asSigned (n x : Nat) : Int := if x % 2 ^ n < 2 ^ (n - 1) then (x % 2 ^ n : Nat) else (x % 2 ^ n : Nat) - 2 ^ n

/-- What an atomic operation on n bits stores, of the old value, the operand and the value compared (R109, R272). -/
def amoStores (op : AmoOp) (n old src cmp : Nat) : Option Nat :=
  match op with
  | .add => some ((old + src) % 2 ^ n)
  | .and => some (Nat.land old src)
  | .or => some (Nat.lor old src)
  | .xor => some (Nat.xor old src)
  | .min => some (if asSigned n src < asSigned n old then src else old)
  | .max => some (if asSigned n old < asSigned n src then src else old)
  | .minn => some (Min.min old src)
  | .maxn => some (Max.max old src)
  | .swp => some src
  | .cas => if old = cmp then some src else none
  | .fadd => some (roundRNE (if n = 64 then Fmt.f64 else Fmt.f32) ((decodeVal (if n = 64 then Fmt.f64 else Fmt.f32) false old).add false
      (decodeVal (if n = 64 then Fmt.f64 else Fmt.f32) false src)))

/-- Atomic elements in order (R109): the memory after them, and the old value that each found. -/
def amoRun (op : AmoOp) (n : Nat) (pas : Places) (src cmp : Nat → Nat) : List Nat → (Nat → Byte) → (Nat → Byte) × List (Nat × Nat)
  | [], m => (m, [])
  | e :: es, m =>
    let old := ofBytes ((pas e).map m)
    let m' := match amoStores op n old (src e) (cmp e) with
      | some v => put m (pas e) (toBytes (pas e).length v)
      | none => m
    let r := amoRun op n pas src cmp es m'
    (r.1, (e, old) :: r.2)

/-- What memory holds beside bytes, marks of pages to scrub and of poisoned lines (R115, R210), and the sleeping harts
whose word a write has reached (R381). -/
def sameMarks (s t : State) : State :=
  { s with mem := t.mem, scrub := t.scrub, poisoned := t.poisoned, healed := t.healed, ticket := t.ticket, rereads := t.rereads }

/-- A far access goes ahead (R107, R119, R122, R256): no vector access of the hart is in flight, none of its accesses
holds it up, none of its elements has been read ahead, and every active element below vl passes the checks at its far
address, its bytes standing at `pas`. -/
structure FarReady (s : State) (k : Blk) (vl : Nat) (perm : Perm) (waits : Bool) (unit : Nat → FarElem) (pas : Places) : Prop where
  alone : s.hart.vq = []
  fresh : ∀ v ∈ s.hart.early, v.1 ≠ s.hart.blockPos
  free : ∀ e ∈ s.hart.actives k vl, s.heldByDeposit (unit e).sum.2 (unit e).n = false
  older : waits = true → s.olderPerformed = true
  passes : ∀ e ∈ s.hart.actives k vl, s.access s.who (unit e).sum (unit e).n (unit e).align perm = .ok (pas e)

/-- The memory stands in its canonical form and no element has a byte twice. -/
def Apart (s : State) (k : Blk) (vl : Nat) (pas : Places) : Prop :=
  Memory.wf s.mem = true ∧ ∀ e ∈ s.hart.actives k vl, (pas e).Nodup

/-- Numbers of the total order that a far access takes: one for each active element with `.sc` (R123). -/
def tickets (s : State) (k : Blk) (vl : Nat) (sc : Bool) : Nat := s.ticket + if sc then (s.hart.actives k vl).length else 0

/-- Far loads as a form of the element's place (R105, R106, R341): the format of the data, the element's address, and
whether the access waits. -/
def farLoad (h : Hart) (i : Instr) : Option (Form FarElem VIx × Bool) :=
  match i with
  | .vldf k d xa xs ord =>
    some ({ k := k, dest := d, codes := [(h.descr k).fd]
            accepts := fun fs => fs.all (fun f => (wholeBytes f || (!f.sliced && f != .x9 && xs = 0)) && scaleOk (h.descr k).dsc d f)
            result := fun fs _ e => (farLinear (fs.getD 0 Fmt.s8) (h.view xa) (h.farStride xs) e, flNone) }, ord = .sc)
  | .vldx k d xa b sc ord =>
    some ({ k := k, dest := d, codes := [(h.descr k).fb, (h.descr k).fd]
            accepts := fun fs => (fs.getD 0 Fmt.s8).index && wholeBytes (fs.getD 1 Fmt.s8) &&
              scaleOk (h.descr k).bsc b (fs.getD 0 Fmt.s8) && scaleOk (h.descr k).dsc d (fs.getD 1 Fmt.s8)
            result := fun fs _ e => (farIndexed (fs.getD 1 Fmt.s8) (h.view xa) (h.intAt b e (fs.getD 0 Fmt.s8)) sc.val, flNone) }, ord = .sc)
  | _ => none

/-- Far stores in the same way; the register of the data stands for the destination, and its format comes first. -/
def farStore (h : Hart) (i : Instr) : Option (Form FarElem VIx × Bool) :=
  match i with
  | .vstf k a xa xs ord =>
    some ({ k := k, dest := a, codes := [(h.descr k).fa]
            accepts := fun fs => fs.all (fun f => (wholeBytes f || (!f.sliced && f != .x9 && xs = 0)) && scaleOk (h.descr k).asc a f)
            result := fun fs _ e => (farLinear (fs.getD 0 Fmt.s8) (h.view xa) (h.farStride xs) e, flNone) }, ord = .sc)
  | .vstx k a xa b sc ord =>
    some ({ k := k, dest := a, codes := [(h.descr k).fa, (h.descr k).fb]
            accepts := fun fs => (fs.getD 1 Fmt.s8).index && wholeBytes (fs.getD 0 Fmt.s8) &&
              scaleOk (h.descr k).asc a (fs.getD 0 Fmt.s8) && scaleOk (h.descr k).bsc b (fs.getD 1 Fmt.s8)
            result := fun fs _ e => (farIndexed (fs.getD 0 Fmt.s8) (h.view xa) (h.intAt b e (fs.getD 1 Fmt.s8)) sc.val, flNone) }, ord = .sc)
  | _ => none

end Sys2Proof.Claims

/-- R56, R57: a float instruction or a conversion with a block-scaled destination gives each block the scale of its
largest magnitude, every element below VL its scaled and saturated result, and the rest of the last block zero.
Choices of the model: notes/assumptions/5 (clocks of a step and the number of a free value), 13 (random bits of
stochastic rounding and the tree of a sum), 54 (unused bits of a vector register and instructions that write nothing). -/
def Obligations.BlockScaledDestinationsTakeScale : Prop :=
  ∀ (s : State) (i : Instr) (F : Claims.Form Val VIx) (fs : List Fmt) (fd : Fmt),
    Claims.scaledForm s.hart i = some F → Claims.Dispatches s F fs → fs.getLast? = some fd →
    (s.hart.descr F.k).dsc = true → fd.scalable = true → F.dest ≠ 63 → F.k.pg = 0 → F.k.pn = false → s.hart.vstart % 32 = 0 →
    s.hart.v[F.dest.val].Covered → s.hart.v[(F.dest + 1).val].Covered →
      let vl := Claims.length s F fs
      let exact := fun e => (F.result fs vl e).1
      let E := Claims.scaleFor fd vl exact
      let c := s.hart.descr F.k
      let res := fun e => place fd { c.rounding s.draw e with sat := true } ((exact e).scale (255 - (E (e / 32) : Int)))
      ∃ t, exec i s = .next t ∧
        (∀ e < s.hart.lanes * fd.perSlice, t.hart.bitsAt F.dest e fd =
          if s.hart.vstart ≤ e ∧ 32 * (e / 32) < vl then
            (if vl ≤ e ∨ E (e / 32) = 511 then 0 else (res e).1 % 2 ^ fd.width)
          else s.hart.bitsAt F.dest e fd) ∧
        (∀ b < s.hart.lanes * Fmt.x9.perSlice, t.hart.bitsAt (F.dest + 1) b .x9 =
          if s.hart.vstart ≤ 32 * b ∧ 32 * b < vl then E b else s.hart.bitsAt (F.dest + 1) b .x9) ∧
        Claims.Leaves s t [F.dest, F.dest + 1] (((s.hart.actives F.k vl).map (fun e =>
          if E (e / 32) = 511 then (if (exact e).isNan then flNV else flNone)
          else (res e).2 ||| (F.result fs vl e).2)).foldl (· ||| ·) flNone)

/-- R380: `VTOPK` writes the k largest active elements in their order to vd and their indices to vd + 1, keeps every
other element, and completes. -/
def Sys2Proof.Claims.TopKWritesValuesAndIndices : Prop :=
  ∀ (s : State) (k : Blk) (d a : VIx) (x : Reg) (low : Bool) (f : Fmt),
    let h := s.hart
    let c := h.descr k
    let F : Claims.Form Nat VIx :=
      { k := k, dest := d, codes := [c.fa, c.fd], accepts := fun fs => Claims.samePacked fs && f != .x9 && !c.asc && !c.dsc
        spans := fun _ => [f, .n32], result := fun _ _ _ => (0, flNone) }
    Claims.Dispatches s F [f, f] → h.v[d.val].Covered → h.v[(d + 1).val].Covered →
      let es := h.actives k (Claims.length s F [f, f])
      let val := fun e => decodeVal f false (h.bitsAt a e f)
      let pick := fun r => es.find? (fun e => Claims.rank low val es e == r && decide (r < (h.view x).toNat))
      ∃ t, exec (.vtopk k d a x low) s = .next t ∧
        (∀ r < h.lanes * f.perSlice, t.hart.bitsAt d r f = (pick r).elim (h.bitsAt d r f) (fun e => h.bitsAt a e f)) ∧
        (∀ r < h.lanes * Fmt.n32.perSlice, t.hart.bitsAt (d + 1) r .n32 = (pick r).elim (h.bitsAt (d + 1) r .n32) id) ∧
        Claims.Leaves s t [d, d + 1] flNone

/-- R254, R379: `VSPRUNE` keeps the four largest magnitudes of every group of eight, in place order, writes their
positions into the group's container, and completes. -/
def Sys2Proof.Claims.PruneKeepsFourLargestOfEight : Prop :=
  ∀ (s : State) (k : Blk) (d a c : VIx) (f : Fmt),
    let h := s.hart
    let x := h.descr k
    let F : Claims.Form Nat VIx :=
      { k := k, dest := d, codes := [x.fa, x.fc, x.fd]
        accepts := fun _ => (f = .s8 || f = .s4 || f = .bf16 || f = .f16 || f.narrow) && !x.asc && !x.dsc, result := fun _ _ _ => (0, flNone) }
    let vl := Claims.length s F [f, .n16, f]
    Claims.Dispatches s F [f, .n16, f] → d ≠ c → h.vstart % 8 = 0 → vl % 8 = 0 → h.v[d.val].Covered → h.v[c.val].Covered →
      let kept := fun g => Claims.keeps (fun i => decodeVal f false (h.bitsAt a (8 * g + i) f))
      ∃ t, exec (.vsprune k d a c) s = .next t ∧
        (∀ e < h.lanes * f.perSlice, t.hart.bitsAt d e f =
          if h.vstart ≤ 8 * (e / 4) ∧ 8 * (e / 4) < vl then
            (if h.active k (8 * (e / 4)) then h.bitsAt a (8 * (e / 4) + (kept (e / 4)).getD (e % 4) 0) f
             else if k.pz then 0 else h.bitsAt d e f)
          else h.bitsAt d e f) ∧
        (∀ g < h.lanes * Fmt.n16.perSlice, t.hart.bitsAt c g .n16 =
          if h.vstart ≤ 8 * g ∧ 8 * g < vl then
            (if h.active k (8 * g) then
               (kept g).getD 0 0 + 8 * (kept g).getD 1 0 + 64 * (kept g).getD 2 0 + 512 * (kept g).getD 3 0
             else if k.pz then 0 else h.bitsAt c g .n16)
          else h.bitsAt c g .n16) ∧
        Claims.Leaves s t [d, c] flNone

/-- Both statements: `Claims.TopKWritesValuesAndIndices` and
`Claims.PruneKeepsFourLargestOfEight`. That `VTOPK` counts fa and fd alone for the ratio of R29, and that `VSPRUNE`
checks the scaling bits of a and d alone, is the model's reading.
Choices of the model: notes/assumptions/26 (formats and clamping of vector instructions). -/
def Obligations.SelectionWritesTopKAndPruned : Prop :=
  Sys2Proof.Claims.TopKWritesValuesAndIndices ∧ Sys2Proof.Claims.PruneKeepsFourLargestOfEight

/-- R110, R363: `VSTT` writes the bytes of each active element into its own lane's table, the highest-indexed of those
that meet stays, every other byte of the tables is as it was, and it completes. -/
def Sys2Proof.Claims.LaneTableStoresKeepHighestElement : Prop :=
  ∀ (s : State) (k : Blk) (a : VIx) (xo : Reg) (b : VIx) (f fb : Fmt),
    let h := s.hart
    let F : Claims.Form Nat VIx :=
      { k := k, dest := a, codes := [(h.descr k).fa, (h.descr k).fb], accepts := fun _ => fb.index && Claims.tableBytes f &&
          scaleOk (h.descr k).asc a f && scaleOk (h.descr k).bsc b fb
        result := fun _ _ _ => (0, flNone) }
    Claims.Dispatches s F [f, fb] →
      let es := h.actives k (Claims.length s F [f, fb])
      let first := fun e => ((h.view xo).toInt + h.intAt b e fb) * (Claims.tableSize f : Nat)
      let place := fun e (p : Nat) => (((p % 8192 : Nat) - first e) % 8192).toNat
      ∃ t, exec (.vstt k a xo b) s = .next t ∧
        (∀ p < 8192 * h.lanes, t.hart.tableByte p =
          (es.reverse.find? (fun e => e % h.lanes == p / 8192 && decide (place e p < Claims.tableSize f))).elim (h.tableByte p)
            (fun e => BitVec.ofNat 8 (h.bitsAt a e f / 256 ^ place e p))) ∧
        Claims.Leaves { s with hart := { s.hart with laneTab := t.hart.laneTab, laneMask := t.hart.laneMask } } t [] flNone

/-- Both statements: `Claims.InsertCompressExpandWriteNamedElements` and
`Claims.LaneTableStoresKeepHighestElement`. -/
def Obligations.NamedElementsAndTableBytesAreWritten : Prop :=
  Sys2Proof.Claims.InsertCompressExpandWriteNamedElements ∧ Sys2Proof.Claims.LaneTableStoresKeepHighestElement

/-- R105 to R107, R341: a far load whose active elements all pass the checks writes the bits read at each one's far
address, and completes; memory is as it was.
Choices of the model: notes/assumptions/10 (accesses that retire or complete before they perform), 27 (poison and
vector accesses). -/
def Obligations.FarLoadsWriteBytesRead : Prop :=
  ∀ (s : State) (i : Instr) (F : Claims.Form FarElem VIx) (sc : Bool) (fs : List Fmt) (fd : Fmt) (pas : Claims.Places),
    Claims.farLoad s.hart i = some (F, sc) → Claims.Dispatches s F fs → fs.getLast? = some fd → s.hart.v[F.dest.val].Covered →
      let vl := Claims.length s F fs
      let unit := fun e => (F.result fs vl e).1
      Claims.FarReady s F.k vl .rd sc unit pas →
        ∃ t, exec i s = .next t ∧ t.ticket = Claims.tickets s F.k vl sc ∧
          Claims.Written { s with ticket := t.ticket } t F.k F.dest fd vl
            (fun e => (ofBytes ((pas e).map s.byteAt) / 2 ^ (unit e).off % 2 ^ fd.width, flNone))

/-- R105 to R107, R121, R341: a far store whose active elements all pass the checks leaves every bit of memory as it was
but those of its elements, of which the highest-indexed stays where they meet; registers and flags are as they were, and
it completes. -/
def Sys2Proof.Claims.FarStoresWriteTheirElementsAlone : Prop :=
  ∀ (s : State) (i : Instr) (F : Claims.Form FarElem VIx) (sc : Bool) (fs : List Fmt) (pas : Claims.Places),
    Claims.farStore s.hart i = some (F, sc) → Claims.Dispatches s F fs →
      let vl := Claims.length s F fs
      let unit := fun e => (F.result fs vl e).1
      let f := fs.getD 0 Fmt.s8
      Claims.FarReady s F.k vl .wr sc unit pas → Claims.Apart s F.k vl pas →
        ∃ t, exec i s = .next t ∧ t.ticket = Claims.tickets s F.k vl sc ∧
          (∀ pa, ∀ j < 8, (t.byteAt pa).getLsbD j = Claims.storedBit (s.hart.actives F.k vl) pas (fun e => (unit e).off)
            (fun e => s.hart.bitsAt F.dest e f) f.width pa j ((s.byteAt pa).getLsbD j)) ∧
          Claims.Leaves (Claims.sameMarks s t) t [] flNone

/-- R105 to R107, R109, R341: a `VAMO` whose active elements all pass the checks runs them in ascending order, each on
what those before it left; vd takes the old values, every other byte is as it was, and it completes. -/
def Sys2Proof.Claims.VectorAtomicsRunInElementOrder : Prop :=
  ∀ (s : State) (k : Blk) (op : AmoOp) (d a : VIx) (xa : Reg) (b : VIx) (sc : Fin 4) (ord : VamoOrd) (c : VIx) (f fb : Fmt)
    (pas : Claims.Places),
    let h := s.hart
    let F : Claims.Form Nat VIx :=
      { k := k, dest := d, codes := [(h.descr k).fa, (h.descr k).fb, (h.descr k).fd]
        accepts := fun _ => (if op = .fadd then f = .f32 || f = .f64 else f = .s32 || f = .s64 || f = .n32 || f = .n64) && fb.index &&
          scaleOk (h.descr k).asc a f && scaleOk (h.descr k).bsc b fb && scaleOk (h.descr k).dsc d f
        result := fun _ _ _ => (0, flNone) }
    let vl := Claims.length s F [f, fb, f]
    let unit := fun e => farIndexed f (h.view xa) (h.intAt b e fb) sc.val
    Claims.Dispatches s F [f, fb, f] → h.v[d.val].Covered →
    Claims.FarReady s k vl .rdwr (ord = .ar || ord = .sc) unit pas → Claims.Apart s k vl pas →
      let r := Claims.amoRun op f.width pas (fun e => h.bitsAt a e f) (fun e => h.bitsAt c e f) (h.actives k vl) s.byteAt
      ∃ t, exec (.vamo k op d a xa b sc ord c) s = .next t ∧ t.ticket = Claims.tickets s k vl (ord = .sc) ∧
        (∀ pa, t.byteAt pa = r.1 pa) ∧
        Claims.Written (Claims.sameMarks s t) t k d f vl (fun e => ((alookup r.2 e).getD 0, flNone))

/-- Both statements: `Claims.FarStoresWriteTheirElementsAlone` and
`Claims.VectorAtomicsRunInElementOrder`.
Choices of the model: notes/assumptions/10 (accesses that retire or complete before they perform), 27 (poison and
vector accesses). -/
def Obligations.FarStoresAndAtomicsRunInElementOrder : Prop :=
  Sys2Proof.Claims.FarStoresWriteTheirElementsAlone ∧ Sys2Proof.Claims.VectorAtomicsRunInElementOrder

namespace Sys2Proof.Claims

/-- Loads through a sheaf's window as forms of the offset (R92, R358): the sheaf register, and whether `.a` trims. -/
def sheafLoads (h : Hart) (i : Instr) : Option (Form Int VIx × HIx × Bool) :=
  match i with
  | .vldh k d r xo xs a =>
    some ({ k := k, dest := d, codes := [(h.descr k).fd], accepts := fun fs => fs.all (fun f => !f.sliced)
            result := fun _ _ e => ((h.view xo + BitVec.ofNat 64 e * (if xs = 0 then 1 else h.view xs)).toInt, flNone) }, r, a)
  | .vldhx k d r xo b a =>
    some ({ k := k, dest := d, codes := [(h.descr k).fb, (h.descr k).fd]
            accepts := fun fs => (fs.getD 0 Fmt.s8 = .n16 || fs.getD 0 Fmt.s8 = .n32) && !(fs.getD 1 Fmt.s8).sliced
            result := fun fs _ e => ((h.view xo + BitVec.ofInt 64 (h.intAt b e (fs.getD 0 Fmt.s8))).toInt, flNone) }, r, a)
  | _ => none

/-- Stores in the same way; the register of the data stands for the destination, and its format comes first. -/
def sheafStores (h : Hart) (i : Instr) : Option (Form Int VIx × HIx) :=
  match i with
  | .vsth k a r xo xs =>
    some ({ k := k, dest := a, codes := [(h.descr k).fa], accepts := fun fs => fs.all (fun f => !f.sliced)
            result := fun _ _ e => ((h.view xo + BitVec.ofNat 64 e * (if xs = 0 then 1 else h.view xs)).toInt, flNone) }, r)
  | .vsthx k a r xo b =>
    some ({ k := k, dest := a, codes := [(h.descr k).fa, (h.descr k).fb]
            accepts := fun fs => (fs.getD 1 Fmt.s8 = .n16 || fs.getD 1 Fmt.s8 = .n32) && !(fs.getD 0 Fmt.s8).sliced
            result := fun fs _ e => ((h.view xo + BitVec.ofInt 64 (h.intAt b e (fs.getD 1 Fmt.s8))).toInt, flNone) }, r)
  | _ => none

/-- The bits of loft lines that a place takes: a line and a bit of it (R87). -/
def placeBits (sh : Sheaf) (p : Place) : List (LineKey × Nat) :=
  let w := sh.desc.fmt.width
  let on (key : Nat → LineKey) (bit : Nat) := (List.range w).map (fun i => (key ((bit + i) / 512), (bit + i) % 512))
  match p with
  | .pad => []
  | .tab => []
  | .far bit => on sh.farKey bit
  | .gath bit => (List.range w).map (fun i => (.gath sh.sid bit, i))
  | .loc bit => on (.loc sh.sid) bit
  | .remote e bit => on (.remote sh.sharing e) bit

/-- Window elements either stand at the same place or share no bit. -/
def PlacesApart (sh : Sheaf) (w : Window) : Prop :=
  ∀ o < sh.desc.size, ∀ o' < sh.desc.size, sh.desc.place w o = sh.desc.place w o' ∨
    (placeBits sh (sh.desc.place w o)).Disjoint (placeBits sh (sh.desc.place w o'))

/-- What a stored element leaves at a place that held `old` (R89, R90). -/
def sheafValue (d : Desc) (old x : Nat) : Nat :=
  if d.mode = .foldO ∨ d.mode = .foldU then
    (if d.fmt.integer then (old + x) % 2 ^ d.fmt.width
     else roundRNE d.fmt ((decodeVal d.fmt false old).add false (decodeVal d.fmt false x)))
  else x % 2 ^ d.fmt.width

/-- The window of a sheaf that the current block sees (R86). -/
def blockWindow (s : State) (sh : Sheaf) : Option Window :=
  s.windowFor sh s.hart.viewCounters (s.hart.block.map (·.serial))

/-- The length of a sheaf load (R93, R359): with `.a` it ends before the first active element at or beyond the count
A, which is sampled once, so that a load in the middle of its elements keeps the length in `VLA`. -/
def trimmedTo (s : State) (k : Blk) (sh : Sheaf) (off : Nat → Int) (a : Bool) (VL : Nat) : Nat :=
  if a = false then VL
  else if s.hart.block.any (·.checked) then min s.hart.vla VL
  else
    let A := s.available sh s.hart.viewCounters (s.hart.block.map (·.serial))
    ((s.hart.actives k VL).find? (fun e => decide ((A : Int) ≤ off e))).getD VL

/-- The elements of a vector destination in the frame of R334 up to vl, of which the active ones take x; every other
register is as it was. -/
structure Framed (s u : State) (k : Blk) (vd : VIx) (f : Fmt) (vl : Nat) (x : Nat → Nat) : Prop where
  element : ∀ e < s.hart.lanes * f.perSlice, u.hart.bitsAt vd e f =
    if s.hart.vstart ≤ e ∧ e < vl then
      (if s.hart.active k e then x e % 2 ^ f.width else if k.pz then 0 else s.hart.bitsAt vd e f)
    else s.hart.bitsAt vd e f
  registers : ∀ v : VIx, v ≠ vd → u.hart.v[v.val] = s.hart.v[v.val]

/-- The elements es of register va have been stored in a window in ascending order (R89, R90, R93): every element of
the window is as the stores to its place leave it, and every line that none of them meets is as it was. -/
structure SheafStored (s t : State) (sh : Sheaf) (w : Window) (va : VIx) (off : Nat → Int) (es : List Nat) : Prop where
  elements : ∀ o < sh.desc.size, ∀ old, s.windowElem sh w o true = .ready old →
    t.windowElem sh w o true = .ready (if sh.desc.place w o = .pad then 0 else es.foldl (fun v e =>
      if sh.desc.place w (off e).toNat = sh.desc.place w o then
        sheafValue sh.desc v (s.hart.bitsAt va e sh.desc.fmt) else v) old)
  lines : ∀ st key, (∀ e ∈ es, sh.stead = st → key ∉ sh.placeKeys (sh.desc.place w (off e).toNat)) →
    t.lineAt st key = s.lineAt st key

/-- The window's elements stand apart, and no line shows folds of a save (R99). -/
def Separable (s : State) (sh : Sheaf) (w : Window) : Prop :=
  PlacesApart sh w ∧ ∀ key l, s.lineAt sh.stead key = some l → l.kept = []

/-- Taking a trap of a block word with `VSTART` e (R41, R182). -/
def blockTrap (s : State) (c : Cause) (ev : Nat) (e : Nat) : State := s.takeTrap c (BitVec.ofNat 64 ev) s.hart.blockPos true e

/-- The flits of a message of the elements es, `cap` to a flit (R199), from sequence number n on. -/
def flitsOf (n cap fmt : Nat) (last : Bool) (es : List Nat) : List Flit :=
  (List.range (max 1 ((es.length + cap - 1) / cap))).map (fun i =>
    { seq := (n + i) % 2 ^ 32, fmt := fmt, elems := (es.drop (cap * i)).take cap, left := es.length - cap * i, endMark := last })

end Sys2Proof.Claims

/-- R92, R93, R358, R359: a load through a sheaf's window whose active offsets lie in the window and whose elements have
arrived writes their bits, with `.a` only those below the first at or beyond the count A, and completes. -/
def Sys2Proof.Claims.SheafLoadsWriteWindowElements : Prop :=
  ∀ (s : State) (i : Instr) (F : Claims.Form Int VIx) (r : HIx) (a : Bool) (fs : List Fmt) (fd : Fmt) (sh : Sheaf) (w : Window)
    (x : Nat → Nat),
    Claims.sheafLoads s.hart i = some (F, r, a) → Claims.Dispatches s F fs → fs.getLast? = some fd →
    s.hart.v[F.dest.val].Covered → s.sheafIn s.cur r.val = some sh → sh.desc.fmt = fd →
    Claims.blockWindow s sh = some w →
      let off := fun e => (F.result fs (Claims.length s F fs) e).1
      let vl := Claims.trimmedTo s F.k sh off a (Claims.length s F fs)
      (∀ e ∈ s.hart.actives F.k vl, 0 ≤ off e ∧ off e < sh.desc.size ∧ s.windowElem sh w (off e).toNat true = .ready (x e)) →
        ∃ t, exec i s = .next t ∧ t.hart.vla = (if a then vl else s.hart.vla) ∧
          Claims.Written { s with hart := { s.hart with vla := t.hart.vla } } t F.k F.dest fd vl (fun e => (x e, flNone))

/-- R89, R90, R92, R93, R358: a store through a sheaf's window whose active offsets lie in the window and whose
elements stand ready, on lines that show no folds of a save (R99), leaves every element of the window as the stores to
its place leave it in ascending order, and every line that none of them meets as it was; nothing else but lines
changes, and it completes. -/
def Sys2Proof.Claims.SheafStoresChangeTheirElementsAlone : Prop :=
  ∀ (s : State) (i : Instr) (F : Claims.Form Int VIx) (r : HIx) (fs : List Fmt) (sh : Sheaf) (w : Window) (x : Nat → Nat),
    Claims.sheafStores s.hart i = some (F, r) → Claims.Dispatches s F fs → s.sheafIn s.cur r.val = some sh →
    sh.desc.fmt = fs.getD 0 Fmt.s8 → sh.desc.mode ≠ .inp →
    Claims.blockWindow s sh = some w → Claims.Separable s sh w →
      let off := fun e => (F.result fs (Claims.length s F fs) e).1
      let es := s.hart.actives F.k (Claims.length s F fs)
      (∀ e ∈ es, 0 ≤ off e ∧ off e < sh.desc.size ∧ s.windowElem sh w (off e).toNat false = .ready (x e)) →
        ∃ t, exec i s = .next t ∧ Claims.SheafStored s t sh w F.dest off es ∧ Claims.Leaves { s with lines := t.lines } t [] flNone

/-- R41, R74, R93, R94: an access to an empty sheaf register, a store to an IN sheaf, and an access in another format
take SHEAFCFG at dispatch. The first active element whose offset lies outside the window takes SHEAF with its offset,
once the active elements below it stand ready: a load, one with `.a` included, has then written them, and a store has
stored them. -/
def Sys2Proof.Claims.SheafAccessFaults : Prop :=
  ∀ (s : State) (i : Instr) (F : Claims.Form Int VIx) (r : HIx) (a store : Bool) (fs : List Fmt),
    (Claims.sheafLoads s.hart i = some (F, r, a) ∧ store = false ∨
      Claims.sheafStores s.hart i = some (F, r) ∧ a = false ∧ store = true) →
    Claims.Dispatches s F fs →
      (s.sheafIn s.cur r.val = none → exec i s = .next (Claims.blockTrap s .sheafcfg 0x10 s.hart.vstart)) ∧
      ∀ sh, s.sheafIn s.cur r.val = some sh →
        (store = true → sh.desc.mode = .inp → exec i s = .next (Claims.blockTrap s .sheafcfg 0x11 s.hart.vstart)) ∧
        ((store = true → sh.desc.mode ≠ .inp) → sh.desc.fmt ≠ (if store then fs.head? else fs.getLast?).getD Fmt.s8 →
          exec i s = .next (Claims.blockTrap s .sheafcfg 0x12 s.hart.vstart)) ∧
        (∀ (e : Nat) (x : Nat → Nat), (store = true → sh.desc.mode ≠ .inp) →
          sh.desc.fmt = (if store then fs.head? else fs.getLast?).getD Fmt.s8 → (store = false → s.hart.v[F.dest.val].Covered) →
          let off := fun j => (F.result fs (Claims.length s F fs) j).1
          let vl := Claims.trimmedTo s F.k sh off a (Claims.length s F fs)
          e ∈ s.hart.actives F.k vl → (off e < 0 ∨ (sh.desc.size : Int) ≤ off e) →
          (∀ j ∈ s.hart.actives F.k e, 0 ≤ off j ∧ off j < sh.desc.size ∧
            ∃ w, Claims.blockWindow s sh = some w ∧ s.windowElem sh w (off j).toNat (!store) = .ready (x j)) →
            ∃ u, exec i s = .next (u.takeTrap .sheaf (BitVec.ofInt 64 (off e)) s.hart.blockPos true e) ∧
              (store = false →
                u = { s with hart := { s.hart with v := u.hart.v, vla := if a then vl else s.hart.vla } } ∧
                  Claims.Framed s u F.k F.dest sh.desc.fmt e x) ∧
              (store = true → u = { s with lines := u.lines } ∧
                ∀ w, Claims.blockWindow s sh = some w → Claims.Separable s sh w →
                  Claims.SheafStored s u sh w F.dest off (s.hart.actives F.k e)))

/-- Both statements: `Claims.SheafStoresChangeTheirElementsAlone` and
`Claims.SheafAccessFaults`.
Choices of the model: notes/assumptions/34 (accesses through a sheaf). -/
def Obligations.SheafStoresAndFaults : Prop :=
  Sys2Proof.Claims.SheafStoresChangeTheirElementsAlone ∧ Sys2Proof.Claims.SheafAccessFaults

/-- The element at offset o of a window is pad at counters k, whatever entry a table-driven dimension meets (R75): one
of the other dimensions has its coordinate outside and does not wrap. -/
def Sys2Proof.Claims.padAt (d : Desc) (k : List Nat) (o : Nat) : Prop :=
  ∃ (i : Nat) (m : Dim), d.dims[i]? = some m ∧ ¬ (d.tab = true ∧ i = d.tdim) ∧ m.pk = false ∧
    let c := m.o + ((m.coef.zip k).map (fun ac => ac.1 * (ac.2 : Int))).sum +
      ((o / ((d.dims.take i).map (·.e)).prod % m.e : Nat) : Int)
    ¬ (0 ≤ c ∧ c < m.n)

/-- The element at offset o of the window at counters k has been delivered (R75, R82, R86): in the window that the order
of those counters made, or as pad while that has not been. -/
def Sys2Proof.Claims.Delivered (s : State) (sh : Sheaf) (k : List Nat) (pos : Option Nat) (o : Nat) : Prop :=
  match s.windowFor sh k pos with
  | some w => ∃ x, s.windowElem sh w o true = .ready x
  | none => Claims.padAt sh.desc k o

/-- R95, R301: `HMASK` of a sheaf of any format that a descriptor may name (R74) writes for each active element
whether its offset lies in the window and every element of the chunk that holds it has been delivered, a failed index
among them, and completes. -/
def Sys2Proof.Claims.HmaskTellsArrivedChunks : Prop :=
  ∀ (s : State) (k : Blk) (p : PIx) (r : HIx) (xo : Reg) (sh : Sheaf),
    (k.xf = 0 ∨ (s.hart.descr k).sane = true) → s.sheafIn s.cur r.val = some sh → sh.desc.fmt ≠ .x9 →
      let h := s.hart
      let VL := h.vl k (h.lanes * sh.desc.fmt.perSlice)
      let m := 512 / sh.desc.fmt.width
      let arrived := fun (o : Nat) => sh.desc.mode = .out ∨ sh.desc.mode = .foldO ∨ sh.desc.mode = .foldU ∨ sh.desc.mode = .loc ∨
        ∀ j, m * (o / m) ≤ j → j < m * (o / m) + m → j < sh.desc.size →
          Claims.Delivered s sh h.viewCounters (h.block.map (·.serial)) j ∨
            ∃ w ev, Claims.blockWindow s sh = some w ∧ s.windowElem sh w j true = .fail .sheafcfg ev
      ∀ (yes : Nat → Bool),
        (∀ e, yes e = true ↔ (let o := (h.view xo + BitVec.ofNat 64 e).toInt; 0 ≤ o ∧ o < sh.desc.size ∧ arrived o.toNat)) →
          ∃ t, exec (.hmask k p r xo) s = .next t ∧ Claims.WrittenP s t k p VL (fun e => (yes e, flNone))

/-- Both statements: `Claims.SheafLoadsWriteWindowElements` and
`Claims.HmaskTellsArrivedChunks`.
Choices of the model: notes/assumptions/33 (table-driven dimensions and failed lines), 34 (accesses through a sheaf). -/
def Obligations.SheafReadsAndArrivals : Prop :=
  Sys2Proof.Claims.SheafLoadsWriteWindowElements ∧ Sys2Proof.Claims.HmaskTellsArrivedChunks

/-- R199: a `VSTS` whose link is open and whose credit reaches queues its active elements on the link, in flits of a
message with consecutive sequence numbers, and completes; an empty message sends one flit. -/
def Sys2Proof.Claims.StreamSendsQueueFlits : Prop :=
  ∀ (s : State) (k : Blk) (a : VIx) (z : ZIx) (last : Bool) (f : Fmt) (g : Nat) (y : ZIx) (route : Nat),
    let h := s.hart
    let v := h.z[z.val]
    let F : Claims.Form Nat VIx :=
      { k := k, dest := a, codes := [(h.descr k).fa]
        accepts := fun _ => !f.sliced && decide (8 ≤ f.width) && scaleOk (h.descr k).asc a f, result := fun _ _ _ => (0, flNone) }
    Claims.Dispatches s F [f] → v.bound = .send g y route → s.linkOf s.cur z g y = .open_ → v.nextSend < 2 ^ 32 →
      let es := (h.actives k (Claims.length s F [f])).map (fun e => h.bitsAt a e f)
      let fl := Claims.flitsOf v.nextSend (4096 / f.container) f.code last es
      v.unacked + fl.length ≤ 8 →
        ∃ t, exec (.vsts k a z last) s = .next t ∧
          t.transit = s.transit ++ fl.map (fun x => { toHart := g, toSlot := y, fromHart := s.cur, fromSlot := z, flit := x }) ∧
          t.hart.z = h.z.set z.val { v with nextSend := (v.nextSend + fl.length) % 2 ^ 32, unacked := v.unacked + fl.length, sentEnd := v.sentEnd || last, sentFrom := [] } ∧
          Claims.Leaves { s with transit := t.transit, hart := { h with z := t.hart.z } } t [] flNone

/-- How many flits of a message the first q elements of it empty (R200): the flit that ends the message is the last. -/
def Sys2Proof.Claims.emptiedBy : List Flit → Nat → Nat
  | [], _ => 0
  | f :: fs, q =>
    if q < f.elems.length then 0
    else if f.left ≤ f.elems.length then 1
    else 1 + Sys2Proof.Claims.emptiedBy fs (q - f.elems.length)

/-- n credits have gone back to slot y of hart g, which sends to slot z of this one and may go on; of the other harts
nothing else has changed (R200), when no step was asked for. -/
def Sys2Proof.Claims.CreditBack (s t : State) (g : Nat) (y z : ZIx) (n : Nat) : Prop :=
  s.hart.dbg.getLsbD 1 = false → g ≠ s.cur →
    (∀ route, (s.slotAt g y).bound = .send s.cur z route →
      t.hartAt g = { s.hartAt g with
        z := (s.hartAt g).z.set y.val { s.slotAt g y with unacked := (s.slotAt g y).unacked - n }
        ctlStall := false, seqStall := false }) ∧
    ((∀ route, (s.slotAt g y).bound ≠ .send s.cur z route) → t.hartAt g = s.hartAt g) ∧
    ∀ h, h ≠ s.cur → h ≠ g → t.hartAt h = s.hartAt h

/-- R178, R200: a `VLDS` of a message whose elements have arrived reads the next ones, and one of a pair stream the
next records' field, at most VL of them; `VLA` tells how many. A read that does not consume opens a batch of that
length and leaves the slot's message; one that consumes takes the elements, drops the flits that they empty and gives
their sender a credit for each, and nothing of another hart changes. The empty message, and what follows the end mark
of a message or the last record, reads as length 0; consumed, it unbinds the slot when it stands for the end. -/
def Sys2Proof.Claims.StreamReadsTakeNextElements : Prop :=
  ∀ (s : State) (k : Blk) (d : VIx) (z : ZIx) (fld : BitVec 3) (consume : Bool) (fd : Fmt),
    let h := s.hart
    let v := h.z[z.val]
    let F : Claims.Form Nat VIx := { k := k, dest := d, codes := [(h.descr k).fd]
                                     accepts := fun _ => !fd.sliced && scaleOk (h.descr k).dsc d fd, result := fun _ _ _ => (0, flNone) }
    let VL := Claims.length s F [fd]
    Claims.Dispatches s F [fd] → h.v[d.val].Covered → 0 < VL →
      (∀ g y f fs, v.bound = .recv g y → fld = 0 → v.flits = f :: fs → f.fmt = fd.code → v.atEnd = false → v.done = 0 → v.batch = none → v.taken < f.left →
        let held := (messageElems v.flits).drop v.taken
        let vl := min VL (f.left - v.taken)
        vl ≤ held.length →
          let m := Claims.emptiedBy v.flits (v.taken + vl)
          ∃ t, exec (.vlds k d z fld consume) s = .next t ∧ t.hart.vla = vl ∧
            t.hart.z = h.z.set z.val (if consume then
                { v with flits := v.flits.drop m, taken := v.taken + vl - ((v.flits.take m).map (·.elems.length)).sum
                         atEnd := decide (vl = f.left - v.taken) && f.endMark }
              else { v with batch := some vl }) ∧
            Claims.CreditBack s t g y z (if consume then m else 0) ∧
            Claims.Written { s with others := t.others, hart := { h with vla := vl, z := t.hart.z } } t k d fd vl
              (fun e => (held.getD e 0, flNone))) ∧
      (∀ g y, v.bound = .recv g y → fld = 0 → v.batch = none →
        let reads := fun (v' : Slot) (credit : Nat) =>
          ∃ t, exec (.vlds k d z fld consume) s = .next t ∧ t.hart.vla = 0 ∧ t.hart.z = h.z.set z.val v' ∧
            Claims.CreditBack s t g y z credit ∧ Claims.Leaves { s with others := t.others, hart := { h with vla := 0, z := t.hart.z } } t [] flNone
        (v.atEnd = true → reads (if consume then { grantedBy := v.grantedBy } else { v with batch := some 0 }) 0) ∧
        (∀ f fs, v.atEnd = false → v.flits = f :: fs → f.left = 0 → f.fmt = 0 ∨ f.fmt = fd.code →
          reads (if consume then (if f.endMark then { grantedBy := v.grantedBy } else { v with flits := fs }) else { v with batch := some 0 })
            (if consume then 1 else 0))) ∧
      (∀ id, v.bound = .pair id → v.batch = none → v.records = [] → v.ended = true → pairFormat fld.toNat fd = true →
        ∃ t, exec (.vlds k d z fld consume) s = .next t ∧ t.hart.vla = 0 ∧
          t.hart.z = h.z.set z.val (if consume then { grantedBy := v.grantedBy } else { v with batch := some 0 }) ∧
          t.jobs = (if consume then s.jobs.map (fun j => { j with streams := j.streams.filter (fun q => q.id != id) }) else s.jobs) ∧
          Claims.Leaves { s with jobs := t.jobs, hart := { h with vla := 0, z := t.hart.z } } t [] flNone) ∧
      (∀ id, v.bound = .pair id → v.batch = none → v.records ≠ [] → pairFormat fld.toNat fd = true →
        let vl := min VL v.records.length
        ∃ t, exec (.vlds k d z fld consume) s = .next t ∧ t.hart.vla = vl ∧
          t.hart.z = h.z.set z.val (if consume then { v with records := v.records.drop vl } else { v with batch := some vl }) ∧
          Claims.Written { s with hart := { h with vla := vl, z := t.hart.z } } t k d fd vl
            (fun e => (((v.records[e]?).map (·.get fld.toNat)).getD 0, flNone)))

/-- Both statements: `Claims.StreamSendsQueueFlits` and
`Claims.StreamReadsTakeNextElements`.
Choices of the model: notes/assumptions/4 (bookkeeping fields that the spec does not name), 27 (poison and vector
accesses). -/
def Obligations.StreamsSendAndRead : Prop :=
  Sys2Proof.Claims.StreamSendsQueueFlits ∧ Sys2Proof.Claims.StreamReadsTakeNextElements

/-- R366, R25, R46, R367: `VNOP` does nothing but complete; `VSTOP` ends its block, which leaves the queue, counts, and
nothing else changes. -/
def Sys2Proof.Claims.MarkersOnlyComplete : Prop :=
  (∀ (s : State) (c : Bool), ∃ t, exec (.vnop c) s = .next t ∧ Claims.Leaves s t [] flNone) ∧
  (∀ (s : State) (b : Block), s.hart.block = some b →
    exec .vstop s = .next { s with hart := { s.hart with
      queue := s.hart.queue.filter (fun c => c.serial != b.serial), retcount := s.hart.retcount + 1 } })

/-- R61, R181: at dispatch a block instruction takes FMT, with `VSTART` as it was and the descriptor in `EVAL`, when
bits 63:32 of its descriptor are not zero or its rounding mode is 6 or 7; and an integer, predicate or approximation
instruction does when a code it uses is reserved or its formats are not accepted. -/
def Sys2Proof.Claims.BadDescriptorsTakeFmt : Prop :=
  ∀ (s : State) (i : Instr) (k : Blk), blkOf i = some k →
    let fault := Host.Outcome.next (s.takeTrap .fmt (s.hart.descr k).raw s.hart.blockPos true s.hart.vstart)
    ((∀ c, i ≠ .vnop c) → i ≠ .vstop → (∀ p r x, i = .hmask k p r x → k.xf ≠ 0) →
      ((s.hart.descr k).raw.toNat / 2 ^ 32 ≠ 0 ∨ 6 ≤ (s.hart.descr k).rnd) → exec i s = fault) ∧
    (∀ F, Claims.intForm s.hart i = some F → (∀ fs, ¬ Claims.Dispatches s F fs) → exec i s = fault) ∧
    (∀ F, Claims.predForm s.hart i = some F → (∀ fs, ¬ Claims.Dispatches s F fs) → exec i s = fault) ∧
    (∀ g F, Claims.approxForm g s.hart i = some F → (∀ fs, ¬ Claims.Dispatches s F fs) → exec i s = fault)

/-- Both statements: `Claims.MarkersOnlyComplete` and
`Claims.BadDescriptorsTakeFmt`.
Choices of the model: notes/assumptions/55 (what a bad descriptor leaves in VSTART). -/
def Obligations.MarkersAndDescriptorChecks : Prop :=
  Sys2Proof.Claims.MarkersOnlyComplete ∧ Sys2Proof.Claims.BadDescriptorsTakeFmt

namespace Sys2Proof.Claims

/- The control stream. -/

/-- Beside registers, flags and counts, only what ending a control-stream instruction or taking a trap writes differs
(R46, R70, R182, R193). -/
def OnlyControl (s t : State) : Prop :=
  t = { s with
    hart := { s.hart with
      x := t.hart.x, pending := t.hart.pending, failedX := t.hart.failedX, fflags := t.hart.fflags, ncnt := t.hart.ncnt
      ntEn := t.hart.ntEn, retcount := t.hart.retcount, bank0 := t.hart.bank0, bank1 := t.hart.bank1, vstart := t.hart.vstart
      startHeld := t.hart.startHeld, dbg := t.hart.dbg, level := t.hart.level, pc := t.hart.pc, trapWait := t.hart.trapWait
      status := t.hart.status, ending := t.hart.ending, ctlStall := t.hart.ctlStall, early := t.hart.early }
    others := t.others, parts := t.parts, farms := t.farms }

/-- A fault of a control-stream instruction at its own address (R182, R262). -/
def faults (s : State) (c : Cause) (ev : Word) : Out := .next (s.trapCtl c ev s.hart.pc)

/-- The rounding mode of a field (R284). -/
def modeOf (h : Hart) (m : Rm) : Option Nat :=
  match m with
  | .rne => some 0
  | .rtz => some 1
  | .rdn => some 2
  | .rup => some 3
  | .rna => some 4
  | .dyn => if h.frm.toNat < 5 then some h.frm.toNat else none

/-- The format of a precision (R239). -/
def ofPrec (p : Prec) : Fmt :=
  match p with
  | .d => .f64
  | .s => .f32
  | .h => .f16
  | .b => .bf16

/-- The format of a conversion operand (R287). -/
def ofCvt (t : CvtTy) : Fmt :=
  match t with
  | .d => .f64
  | .s => .f32
  | .h => .f16
  | .b => .bf16
  | .l => .s64
  | .n => .n64

/-- A scalar float instruction: its destination, sources and rounding field (none when it does not round), and the bits
and flags of its result under a mode. -/
structure ScalarFloat where
  dest : Reg
  sources : List Reg
  rounds : Option Rm
  result : Nat → Nat × Flags

/-- The scalar float instructions (R285 to R287, R289). -/
def scalarFloat (h : Hart) (i : Instr) : Option ScalarFloat :=
  let low := fun (f : Fmt) (r : Reg) => (h.rd r).toNat % 2 ^ f.width
  let val := fun (f : Fmt) (r : Reg) => decodeVal f false (low f r)
  let round (f : Fmt) (mode : Nat) (x : Val × Flags) : Nat × Flags := let r := place f { mode := mode } x.1; (r.1, r.2 ||| x.2)
  let arith (p : Prec) (m : Rm) (d a b : Reg) (op : Bool → Val → Val → Val × Flags) : ScalarFloat :=
    { dest := d, sources := [a, b], rounds := some m
      result := fun mode => round (ofPrec p) mode (op (mode = 2) (val (ofPrec p) a) (val (ofPrec p) b)) }
  let choice (p : Prec) (d a b : Reg) (first : Val → Val → Bool) : ScalarFloat :=
    let f := ofPrec p
    { dest := d, sources := [a, b], rounds := none
      result := fun _ =>
        let x := val f a
        let y := val f b
        (if x.isNan && y.isNan then (f.spec.bind (·.nan)).getD 0 else if x.isNan then low f b else if y.isNan then low f a
         else if first x y then low f a else low f b,
         if x.isSignalling || y.isSignalling then flNV else flNone) }
  let compare (p : Prec) (d a b : Reg) (anyNan : Bool) (test : Int → Bool) : ScalarFloat :=
    { dest := d, sources := [a, b], rounds := none
      result := fun _ =>
        let x := val (ofPrec p) a
        let y := val (ofPrec p) b
        let nan := x.isNan || y.isNan
        (if !nan && test (x.cmp y) then 1 else 0, if x.isSignalling || y.isSignalling || (anyNan && nan) then flNV else flNone) }
  let below (x y : Val) : Bool := decide (x.cmp y < 0) || (x.cmp y == 0 && x.neg && !y.neg)
  let fused (p : Prec) (np nc : Bool) (m : Rm) (d a b c : Reg) : ScalarFloat :=
    { dest := d, sources := [a, b, c], rounds := some m
      result := fun mode =>
        round (ofPrec p) mode (Val.fma (mode = 2) np nc (val (ofPrec p) a) (val (ofPrec p) b) (val (ofPrec p) c), flNone) }
  match i with
  | .fadd p m d a b => some (arith p m d a b (fun rdn x y => (x.add rdn y, flNone)))
  | .fsub p m d a b => some (arith p m d a b (fun rdn x y => (x.add rdn y.negate, flNone)))
  | .fmul p m d a b => some (arith p m d a b (fun _ x y => (x.mul y, flNone)))
  | .fdiv p m d a b => some (arith p m d a b (fun _ x y => x.div y))
  | .fsqrt p m d a =>
    some { dest := d, sources := [a], rounds := some m, result := fun mode => round (ofPrec p) mode ((val (ofPrec p) a).sqrt, flNone) }
  | .fmin p _ d a b => some (choice p d a b below)
  | .fmax p _ d a b => some (choice p d a b (fun x y => !below x y))
  | .feq p _ d a b => some (compare p d a b false (· == 0))
  | .flt p _ d a b => some (compare p d a b true (fun c => decide (c < 0)))
  | .fle p _ d a b => some (compare p d a b true (fun c => decide (c ≤ 0)))
  | .fcvt dst src m d a =>
    some { dest := d, sources := [a], rounds := some m, result := fun mode => round (ofCvt dst) mode (val (ofCvt src) a, flNone) }
  | .fmaOpcode0d p np nc m d a b c => some (fused p np nc m d a b c)
  | .fmaOpcode0e p np nc m d a b c => some (fused p np nc m d a b c)
  | _ => none

/-- The mode that a scalar float instruction rounds under; none when `FRM` holds no mode (R284). -/
def ScalarFloat.mode (h : Hart) (F : ScalarFloat) : Option Nat :=
  match F.rounds with
  | none => some 0
  | some m => modeOf h m

/-- Registers and condition of the branches (R276). -/
def branchForm (h : Hart) (i : Instr) : Option (Reg × Reg × BitVec 16 × Bool) :=
  let z := fun r => (h.rd r).toInt
  let n := fun r => (h.rd r).toNat
  match i with
  | .beq a b off => some (a, b, off, decide (n a = n b))
  | .bne a b off => some (a, b, off, decide (n a ≠ n b))
  | .blt a b off => some (a, b, off, decide (z a < z b))
  | .bge a b off => some (a, b, off, decide (z b ≤ z a))
  | .bltn a b off => some (a, b, off, decide (n a < n b))
  | .bgen a b off => some (a, b, off, decide (n b ≤ n a))
  | _ => none

/-- The address a number of words from the program counter (R276, R306, R349). -/
def ahead (s : State) (words : Int) : Word := BitVec.ofInt 64 ((s.hart.pc.toNat : Int) + 4 * words)

/-- Bytes of an access size (R311). -/
def sizeOf (z : Size) : Nat :=
  match z with
  | .b => 1
  | .h => 2
  | .w => 4
  | .d => 8

/-- A byte as a load of the control stream takes it: of the youngest buffered store that holds it, or of memory
(R119). -/
def loaded (s : State) (pa : Nat) : Byte :=
  (s.hart.sbuf.reverse.findSome? (fun p => ((p.pa.zip p.bytes).find? (fun e => e.1 == pa)).map (·.2))).getD (s.byteAt pa)

/-- An access that nothing of its hart has to perform before: no block is queued, no vector access is in flight, no
access that has retired and not performed has a byte of it, and no `FENCE.rel` waits. -/
def Alone (s : State) (pas : List Nat) : Prop :=
  s.hart.unheld = [] ∧ s.hart.vq = [] ∧ ∀ q ∈ s.hart.sbuf, q.kind ≠ .fence ∧ ∀ a ∈ pas, a ∉ q.pa

/-- No vector access and no retired access of the current hart that reads has still to perform, and no instruction left
in its blocks that are not held reads memory (R126). -/
def ReadsPerformed (s : State) : Prop :=
  s.blocksHave reads = false ∧ (∀ r ∈ s.hart.vq, r.reading = false) ∧ ∀ p ∈ s.hart.sbuf, p.reading = false

/-- Every order of the current hart's sheaves is taken up, and every fetch that one of them made or joined has read or
failed (R126, R251). -/
def FetchesPerformed (s : State) : Prop :=
  (∀ sh ∈ s.sheaves, sh.hart = s.cur → ∀ o ∈ sh.orders, o.taken = true) ∧
    ∀ f ∈ s.fetches, f.got = none → f.failed = none →
      f.hart ≠ s.cur ∧ ∀ l ∈ s.lines, l.fid = f.fid → l.status = .inflight → ∀ sh ∈ s.sheaves, sh.hart = s.cur → sh.sid ∉ l.holders

/-- Every access of the current hart has performed; a block as such is not asked about (R124, R126, R288). -/
def AccessesPerformed (s : State) : Prop :=
  s.blocksHave (fun i => reads i || writes i) = false ∧ s.hart.vq = [] ∧ s.hart.sbuf = []

/-- Every access of the current hart and every Gleaner debt of it has performed (R120, R124). -/
def Performed (s : State) : Prop :=
  AccessesPerformed s ∧
    (∀ sh ∈ s.sheaves, sh.hart = s.cur → sh.desc.mode ≠ .inp → sh.desc.mode ≠ .loc → ∀ o ∈ sh.orders, s.nextId ≤ o.oid) ∧
    ∀ d ∈ s.debts, d.hart = s.cur → s.nextId ≤ d.oid

/-- A value widened to f32 exactly (R27): a NaN keeps its sign and payload. -/
def widened (f : Fmt) (bits : Nat) : Nat :=
  match f.spec with
  | none => bits
  | some sp =>
    if f = .f64 ∨ f = .f32 then bits
    else if (decodeFloat sp f.width bits).isNan then
      bits / 2 ^ (f.width - 1) % 2 * 2 ^ 31 + 0x7F800000 + bits % 2 ^ sp.m * 2 ^ (23 - sp.m)
    else (place .f32 {} (decodeFloat sp f.width bits)).1

end Sys2Proof.Claims

/-- R283 to R289, R67: a scalar float instruction writes its rounded result to xd, leaves every other register, joins
its flags to `FFLAGS`, and changes nothing else but what ending it writes; with no threshold armed it goes on at the
next word and raises each count by its flags. With no mode in `FRM`, an instruction that rounds under it takes
ILLEGAL.
Choices of the model: notes/assumptions/24 (a younger write to a register that awaits an answer), 25 (flags of
conversions out of range), 57 (flags and counts at corners). -/
def Obligations.ScalarFloatPlacesResult : Prop :=
  ∀ (s : State) (i : Instr) (F : Claims.ScalarFloat), Claims.scalarFloat s.hart i = some F → Claims.Readable F.sources s →
    (∀ m, F.mode s.hart = some m →
      let r := F.result m
      (∃ t, exec i s = .next t ∧ Claims.OnlyControl s t ∧ t.hart.fflags = s.hart.fflags ||| r.2 ∧
        ∀ x, t.hart.rd x = if x = F.dest ∧ x ≠ 0 then BitVec.ofNat 64 r.1 else s.hart.rd x) ∧
      (s.hart.ntEn = 0 →
        exec i s = .next (Claims.wrote { s with hart := { s.hart with
          fflags := s.hart.fflags ||| r.2
          ncnt := Vector.ofFn (fun c : Fin 6 => BitVec.ofNat 32
            (min (s.hart.ncnt[c.val].toNat + (if hasClass r.2 c.val then 1 else 0)) (2 ^ 32 - 1))) } }
          F.dest (BitVec.ofNat 64 r.1) (s.hart.pc + 4)))) ∧
    (F.mode s.hart = none → ∀ n w, encode i = some (n, w) → exec i s = Claims.faults s .illegal (BitVec.ofNat 64 w))

/-- R276: a branch goes to its target when its condition holds and to the next word otherwise, and changes nothing
else. -/
def Obligations.BranchesChooseTarget : Prop :=
  ∀ (s : State) (i : Instr) (a b : Reg) (off : BitVec 16) (c : Bool),
    Claims.branchForm s.hart i = some (a, b, off, c) → Claims.Readable [a, b] s →
      exec i s = .next (Claims.wentTo s (if c then Claims.ahead s off.toInt else s.hart.pc + 4))

/-- R306: `JAL` and `JALR` write the address of the next word to xd and go to their target; a target of `JALR` that is
not a multiple of 4 takes ALIGN with the target in `EVAL` and leaves xd.
Choices of the model: notes/assumptions/24 (a younger write to a register that awaits an answer). -/
def Obligations.JumpsLinkAndGo : Prop :=
  (∀ (s : State) (d : Reg) (off : BitVec 21), exec (.jal d off) s = .next (Claims.wrote s d (s.hart.pc + 4) (Claims.ahead s off.toInt))) ∧
  (∀ (s : State) (d a : Reg) (imm : BitVec 16), Claims.Readable [a] s →
    let t := BitVec.ofInt 64 ((s.hart.rd a).toInt + imm.toInt)
    exec (.jalr d a imm) s =
      if t.toNat % 4 = 0 then .next (Claims.wrote s d (s.hart.pc + 4) t) else Claims.faults s .align t)

/-- R311, R119: a load that passes its checks writes to xd the bytes at its address, those of the youngest buffered
store first, extended as asked; one that fails takes its fault.
Choices of the model: notes/assumptions/4 (bookkeeping fields that the spec does not name), 10 (accesses that retire
or complete before they perform), 24 (a younger write to a register that awaits an answer), 52 (handle tables and
regions). -/
def Obligations.LoadsReadBytesExtended : Prop :=
  ∀ (s : State) (z : Size) (sx aq : Bool) (d a : Reg) (off : BitVec 12),
    let n := Claims.sizeOf z
    let fa := farSum (s.hart.rd a) off.toInt
    Claims.Readable [a] s → s.heldByDeposit fa.2 n = false → s.blocksHave acquires = false →
      (∀ pas, s.access s.who fa n n .rd = .ok pas →
        let v := ofBytes (pas.map (Claims.loaded s))
        exec (.ld z sx aq d a off) s =
          .next (Claims.wrote s d (if sx then BitVec.ofInt 64 (Claims.asSigned (8 * n) v) else BitVec.ofNat 64 v) (s.hart.pc + 4))) ∧
      (∀ e, s.access s.who fa n n .rd = .error e →
        exec (.ld z sx aq d a off) s = Claims.faults (s.tellFault s.hart.part s.cur e) e.cause e.eval)

/-- R330, R118, R119: a store that passes its checks either waits in the store buffer, memory as it was, or performs in
one step, when every byte of memory but its own is as it was; a load then finds its bytes either way, and no register
changes. With nothing before it and no delay, it performs at once.
Choices of the model: notes/assumptions/4 (bookkeeping fields that the spec does not name), 10 (accesses that retire
or complete before they perform), 24 (a younger write to a register that awaits an answer), 52 (handle tables and
regions). -/
def Obligations.StoresWriteTheirBytesAlone : Prop :=
  ∀ (s : State) (z : Size) (rel : Bool) (d a : Reg) (off : BitVec 12),
    let n := Claims.sizeOf z
    let fa := farSum (s.hart.rd a) off.toInt
    Claims.Readable [d, a] s → s.heldByDeposit fa.2 n = false →
      (∀ e, s.access s.who fa n n .wr = .error e →
        exec (.st z rel d a off) s = Claims.faults (s.tellFault s.hart.part s.cur e) e.cause e.eval) ∧
      (∀ pas, s.access s.who fa n n .wr = .ok pas → Memory.wf s.mem = true → pas.Nodup →
        ∃ u, exec (.st z rel d a off) s = .next (Claims.wentTo u (s.hart.pc + 4)) ∧
          u = { s with delay := u.delay, mem := u.mem, scrub := u.scrub, poisoned := u.poisoned, healed := u.healed
                       rereads := u.rereads, hart := { s.hart with sbuf := u.hart.sbuf } } ∧
          (∀ pa, Claims.loaded u pa = ((pas.idxOf? pa).map (fun i => BitVec.ofNat 8 ((s.hart.rd d).toNat / 256 ^ i))).getD (Claims.loaded s pa)) ∧
          ((∃ p, u.hart.sbuf = s.hart.sbuf ++ [p] ∧ p.pa = pas ∧ p.release = rel ∧ (∀ pa, u.byteAt pa = s.byteAt pa)) ∨
            (u.hart.sbuf = s.hart.sbuf ∧
              ∀ pa, u.byteAt pa = ((pas.idxOf? pa).map (fun i => BitVec.ofNat 8 ((s.hart.rd d).toNat / 256 ^ i))).getD (s.byteAt pa))) ∧
          (Claims.Alone s pas → rel = false → s.delay.headD false = false → u.hart.sbuf = s.hart.sbuf))

/-- R272, R273, R109: an `AMO` that passes its checks and finds nothing to wait for reads and writes its bytes in one
step, writes the old value to xd, takes a ticket with order 3, and leaves every other byte; one that fails takes its
fault.
Choices of the model: notes/assumptions/10 (accesses that retire or complete before they perform), 20 (what an
instruction waits for), 24 (a younger write to a register that awaits an answer). -/
def Obligations.AtomicsReadModifyWrite : Prop :=
  ∀ (s : State) (op : AmoOp) (dword : Bool) (ord : AmoOrder) (sc : Scope) (d a b : Reg),
    let n := if dword then 8 else 4
    let addr := s.hart.rd a
    let low := fun (r : Reg) => (s.hart.rd r).toNat % 2 ^ (8 * n)
    Claims.Readable (if op = .cas then [a, b, d] else [a, b]) s → s.heldByDeposit addr n = false →
      (∀ e, s.accessAt s.who addr n n .rdwr = .error e →
        exec (.amo op dword ord sc d a b) s = Claims.faults (s.tellFault s.hart.part s.cur e) e.cause e.eval) ∧
      (∀ pas, s.accessAt s.who addr n n .rdwr = .ok pas → Memory.wf s.mem = true → pas.Nodup → s.hart.blocksDone = true →
        (∀ p ∈ s.hart.sbuf, p.kind ≠ .fence ∧ ∀ x ∈ p.pa, x ∉ pas) → s.hart.vq = [] → (ord = .rel ∨ ord = .sc → Claims.Performed s) →
          let old := ofBytes (pas.map s.byteAt)
          let v := if dword then BitVec.ofNat 64 old
            else if op = .minn ∨ op = .maxn ∨ op = .fadd then BitVec.ofNat 64 old else BitVec.ofInt 64 (Claims.asSigned 32 old)
          ∃ u, exec (.amo op dword ord sc d a b) s = .next (Claims.wrote u d v (s.hart.pc + 4)) ∧
            u = { s with mem := u.mem, scrub := u.scrub, poisoned := u.poisoned, healed := u.healed, rereads := u.rereads
                         ticket := s.ticket + if ord = .sc then 1 else 0 } ∧
            ∀ pa, u.byteAt pa = match Claims.amoStores op (8 * n) old (low b) (low d) with
              | some x => ((pas.idxOf? pa).map (fun i => BitVec.ofNat 8 (x / 256 ^ i))).getD (s.byteAt pa)
              | none => s.byteAt pa)

/-- R126, R187, R288: a fence with no event to deliver ends when what it orders has performed, with a ticket for kind
sc, and waits otherwise.
Choices of the model: notes/assumptions/10 (accesses that retire or complete before they perform), 20 (what an
instruction waits for). -/
def Obligations.FencesWaitForOlderAccesses : Prop :=
  ∀ (s : State) (kind : FenceKind) (sc : Scope), s.deliverable = false →
    let ready := Claims.FetchesPerformed s ∧ if kind = .acq then Claims.ReadsPerformed s else Claims.Performed s
    (ready → exec (.fence kind sc) s = .next (Claims.wentTo (if kind = .sc then { s with ticket := s.ticket + 1 } else s) (s.hart.pc + 4))) ∧
    (¬ ready → exec (.fence kind sc) s = .next (Claims.waitsCtl s))

/-- R22 to R24, R86, R280, R349: `VF` and `VFR` to an aligned address queue the block with what it captures, wait while
four blocks are queued, and take ALIGN for an address that is not a multiple of 8.
Choices of the model: notes/assumptions/4 (bookkeeping fields that the spec does not name). -/
def Obligations.BlocksAreQueuedWithCapture : Prop :=
  ∀ (s : State) (i : Instr) (a : Word),
    ((∃ off : BitVec 26, i = .vf off ∧ a = Claims.ahead s off.toInt) ∨ ∃ r, i = .vfr r ∧ a = s.hart.rd r) →
    Claims.Readable (List.finRange 32) s →
      (a.toNat % 8 ≠ 0 → exec i s = Claims.faults s .align a) ∧
      (a.toNat % 8 = 0 → 4 ≤ s.hart.queue.length → exec i s = .next (Claims.waitsCtl s)) ∧
      (a.toNat % 8 = 0 → s.hart.queue.length < 4 → (∀ o ∈ s.ops, o.hart = s.cur → ∀ x k, o.kind ≠ .gfind x k) →
        exec i s = .next (Claims.wentTo { s with hart := { s.hart with
          queue := s.hart.queue ++ [{ addr := a, pos := a, view := s.hart.x, kvec := s.hart.k.toList.map (·.val), fmtdef := s.hart.fmtdef,
                                      ropepart := s.hart.ropepart, serial := s.hart.nextSerial, bound := s.nextId }]
          nextSerial := s.hart.nextSerial + 1 } } (s.hart.pc + 4)))

/-- R30, R32, R111, R329: `SETL` writes min(n, VLMAX) of the lanes it leaves; without `k` the grant becomes the kept
quads first and then the lowest free ones, and a changed grant empties the vector registers, the predicates and the
lane tables; with `k` nothing changes. A reserved format takes FMT. -/
def Sys2Proof.Claims.SetlGrantsLanes : Prop :=
  ∀ (s : State) (d a : Reg) (code : BitVec 6), Claims.Readable [a] s →
    let n := (s.hart.rd a).toNat
    (∀ k, Fmt.ofCode code.toNat = none → exec (.setl d a code k) s = Claims.faults s .fmt (code.zeroExtend 64)) ∧
    ∀ f, Fmt.ofCode code.toNat = some f →
      exec (.setl d a code true) s = .next (Claims.wrote s d (BitVec.ofNat 64 (min n (s.hart.lanes * f.perSlice))) (s.hart.pc + 4)) ∧
      (s.hart.blocksDone = false ∨ s.wakeFirst (steadOf s.cur) = true → exec (.setl d a code false) s = .next (Claims.waitsCtl s)) ∧
      (s.hart.blocksDone = true → s.hart.needsReserved = none → s.wakeFirst (steadOf s.cur) = false →
        let own := quadList s.hart.grant
        let free := s.freeQuads (steadOf s.cur)
        let avail := min (free.length + own.length)
          ((s.partAt s.hart.part).budgetOn (steadOf s.cur) - s.heldByOthers s.hart.part (steadOf s.cur) s.cur)
        let q := max 1 (min ((n + 3) / 4) avail)
        ∃ u, exec (.setl d a code false) s = .next (Claims.wrote u d (BitVec.ofNat 64 (min n (u.hart.lanes * f.perSlice))) (s.hart.pc + 4)) ∧
          (∀ j < 64, u.hart.grant.getLsbD j = ((own ++ free).take q).contains j) ∧
          u = { s with others := u.others, farms := u.farms
                       hart := { s.hart with grant := u.hart.grant, v := u.hart.v, p := u.hart.p, laneTab := u.hart.laneTab
                                             laneMask := u.hart.laneMask, gangWait := u.hart.gangWait } } ∧
          (u.hart.grant = s.hart.grant → u = s) ∧
          (u.hart.grant ≠ s.hart.grant → (∀ v : VIx, u.hart.v[v.val].tag = 0) ∧ (∀ v e g, u.hart.bitsAt v e g = 0) ∧
            (∀ p e, u.hart.pbit p e = decide (p = 0)) ∧
            ∀ b, u.hart.tableByte b = 0))

/-- R27, R356: `VGET` writes element x[xa] of va, 0 beyond VLMAX, extended or widened as its format says; a reserved
format takes FMT. -/
def Sys2Proof.Claims.VgetReadsOneElement : Prop :=
  ∀ (s : State) (d a : Reg) (code : BitVec 5) (va : VIx), Claims.Readable [a] s →
    (Fmt.ofCode code.toNat = none → exec (.vget d a code va) s = Claims.faults s .fmt (code.zeroExtend 64)) ∧
    ∀ f, Fmt.ofCode code.toNat = some f → s.blocksHave (writesV va) = false → s.hart.filling va = false →
      let e := (s.hart.rd a).toNat
      let bits := if s.hart.lanes * f.perSlice ≤ e then 0 else s.hart.bitsAt va e f
      exec (.vget d a code va) s = .next (Claims.wrote s d
        (if f.signed then BitVec.ofInt 64 (Claims.asSigned f.width bits) else BitVec.ofNat 64 (Claims.widened f bits)) (s.hart.pc + 4))

/-- R44, R45, R313: `MATT` grants the lowest run of free row units of the length asked for, or the longest free run
below it, and clears the rows; a hart that holds rows and a request of 0 take MATT; `MDET` gives the rows back. -/
def Sys2Proof.Claims.FlailRowsAreGrantedAndReturned : Prop :=
  (∀ (s : State) (d a : Reg), Claims.Readable [a] s →
    let n := (s.hart.rd a).toNat
    let st := steadOf s.cur
    (s.hart.rowCount ≠ 0 → exec (.matt d a) s = Claims.faults s .matt 1) ∧
    (s.hart.rowCount = 0 → n = 0 → exec (.matt d a) s = Claims.faults s .matt 2) ∧
    (s.hart.rowCount = 0 → n ≠ 0 →
      let others := (((s.hartsOn st).filter (fun g => g != s.cur && (s.hartAt g).part == s.hart.part)).map
        (fun g => (s.hartAt g).rowCount / 8)).sum
      let most := min (min 12 ((n + 7) / 8)) ((s.partAt s.hart.part).record.rows.getD st 0 - others)
      let run := fun (u m : Nat) => ∀ j, u ≤ j → j < u + m → j < 12 ∧ s.unitFree st s.cur j = true
      ∃ base m, m ≤ most ∧ run base m ∧ (∀ u k, k ≤ most → run u k → k ≤ m ∧ (k = m → 0 < m → base ≤ u)) ∧
        exec (.matt d a) s = .next (Claims.wrote { s with hart := { s.hart with
          rowBase := if m = 0 then 0 else 8 * base, rowCount := 8 * m, cells := [], marks := [] } } d (BitVec.ofNat 64 (8 * m)) (s.hart.pc + 4)))) ∧
  (∀ (s : State), s.blocksHave isFlail = false →
    exec .mdet s = .next (Claims.wentTo { s with hart := { s.hart with rowBase := 0, rowCount := 0, cells := [], marks := [] } } (s.hart.pc + 4)))

/-- R32: a `SETL` that changes the set of quads the hart holds empties every vector register and every predicate but p0;
one that leaves the set empties nothing. Either way the Flail rows, the sheaves, the counters and the scalar registers
but its xd stand. -/
def Obligations.ChangedGrantsEmptyRegisters : Prop :=
  ∀ (s : State) (d a : Reg) (code : BitVec 6) (f : Fmt) (keep : Bool), Claims.Readable [a] s → Fmt.ofCode code.toNat = some f →
    s.hart.needsReserved = none → s.hart.dbg.getLsbD 0 = false →
    (keep = true ∨ s.hart.blocksDone = true ∧ s.wakeFirst (steadOf s.cur) = false) →
      ∃ t, exec (.setl d a code keep) s = .next t ∧
        (t.hart.grant ≠ s.hart.grant →
          (∀ v : VIx, t.hart.v[v.val].tag = 0 ∧ ∀ e g, t.hart.bitsAt v e g = 0) ∧ ∀ (p : PIx) e, t.hart.pbit p e = decide (p = 0)) ∧
        (t.hart.grant = s.hart.grant → t.hart.v = s.hart.v ∧ t.hart.p = s.hart.p) ∧
        (t.hart.rowBase = s.hart.rowBase ∧ t.hart.rowCount = s.hart.rowCount ∧ t.hart.cells = s.hart.cells ∧ t.hart.marks = s.hart.marks) ∧
        (t.sheaves = s.sheaves ∧ t.lines = s.lines ∧ t.hart.hreg = s.hart.hreg) ∧ t.hart.k = s.hart.k ∧
        ∀ r, r ≠ d → t.hart.rd r = s.hart.rd r

/-- The three statements: `Claims.SetlGrantsLanes`, `Claims.VgetReadsOneElement` and
`Claims.FlailRowsAreGrantedAndReturned`.
Choices of the model: notes/assumptions/24 (a younger write to a register that awaits an answer), 29 (the order in
which farms and contexts are served), 53 (lane grants and budgets). -/
def Obligations.LanesRowsAndElementsAreGranted : Prop :=
  Sys2Proof.Claims.SetlGrantsLanes ∧ Sys2Proof.Claims.VgetReadsOneElement ∧ Sys2Proof.Claims.FlailRowsAreGrantedAndReturned

namespace Sys2Proof.Claims

/- Residency. -/

/-- Counter c counts up without a wrap (R77). -/
def counted (c : Counter) : Counter := { c with val := (c.val + 1) % 2 ^ 32 }

/-- Counter c does not wrap when it is advanced (R77). -/
def roomLeft (c : Counter) : Bool := decide (c.bound = 0) || decide (c.val + 1 < c.bound)

/-- The registers hold different sheaves, each one of this hart. -/
def Separate (s : State) : Prop :=
  (∀ r r' : HIx, s.hart.hreg[r.val] = s.hart.hreg[r'.val] → s.hart.hreg[r.val] = none ∨ r = r') ∧
    ∀ (r : HIx) (sh : Sheaf), s.sheafIn s.cur r.val = some sh → sh.hart = s.cur

/-- Every sheaf of the current hart that depends on a changed counter, and no other, gets one order with the new
counters at the end of its queue (R83). -/
def OrdersFor (s u : State) (changed : Nat → Prop) : Prop :=
  ∀ sid sh, s.sheafById sid = some sh →
    let takes := (∃ r : HIx, s.hart.hreg[r.val] = some sid) ∧ ∃ c < 8, changed c ∧ s.depends sh c = true
    (takes → ∃ o : Order, o.counters = u.hart.k.toList ∧ o.final = false ∧ u.sheafById sid = some { sh with orders := sh.orders ++ [o] }) ∧
    (¬ takes → u.sheafById sid = some sh)

/-- Beside counters and orders, u is s. -/
def OnlyOrders (s u : State) : Prop :=
  u = { s with nextId := u.nextId, sheaves := u.sheaves, hart := { s.hart with k := u.hart.k, advs := u.hart.advs } }

/-- Byte i of a line. -/
def lineByte (d : BitVec 512) (i : Nat) : Byte := d.extractLsb' (8 * i) 8

/-- A debt writes byte b at offset i of line key: among the bytes of its own line, or of a line that an element of its
own line reaches into (R89, R91). -/
def owesByte (x : Debt) (key : LineKey) (i : Nat) (b : Byte) : Prop :=
  ∃ data mask, x.kind = .write data mask ∧
    ((x.key = key ∧ mask.getLsbD i = true ∧ lineByte data i = b) ∨
      ∃ e ∈ x.spill, e.key = key ∧ e.mask.getLsbD i = true ∧ lineByte e.data i = b)

/-- Line key stands for an element that a sheaf gathers (R87). -/
def gathered (key : LineKey) : Prop := ∃ sid bit, key = .gath sid bit

/-- A debt folds the element at bit offset off of line l of a sheaf into its place, or stores the element that a sheaf
gathers at its far bit address (R87, R89, R90). -/
def owesElement (sh : Sheaf) (l : Line) (off : Nat) (x : Debt) : Prop :=
  let f := sh.desc.fmt
  x.addr = l.key.addr ∧
    if sh.desc.mode.folds then x.kind = .fold f off (l.data.toNat / 2 ^ off % 2 ^ f.width)
    else ∃ sid bit, l.key = .gath sid bit ∧ x.kind = .scatter f [(bit, l.data.toNat % 2 ^ f.width)]

/- Hand-offs. -/

/-- The Granary instructions with a key: its register, the value under which its low bits must lie, and what they ask
(R163, R292 to R295). -/
def keyed (h : Hart) (i : Instr) : Option (Reg × Reg × Reg × Nat × (GKey → OpKind)) :=
  match i with
  | .gpin d a b => some (d, a, b, 1, fun k => .gpin (h.rd a).toNat k)
  | .gunpin d a b => some (d, a, b, 1, fun k => .gunpin (h.rd a).toNat k)
  | .gload d a b => some (d, a, b, 32, fun k => .gload (h.rd a).toNat k)
  | .gdrop d a b => some (d, a, b, 1, fun k => .gdrop (h.rd a).toNat k)
  | .gfind d a b => some (d, a, b, 2 ^ 32, fun k => .gfind (h.rd a) k)
  | _ => none

/-- The key of R163 in a register value: field, sequence, low bits. -/
def keyIn (w : Word) : GKey := ⟨w.toNat / 2 ^ 48 % 8, w.toNat / 2 ^ 32 % 2 ^ 16, w.toNat % 2 ^ 32⟩

/-- A key passes the checks of R164 for the current hart. -/
def keyPasses (s : State) (w : Word) (bound : Nat) : Prop :=
  (s.fieldOf (s.tenantOf s.hart.part) (keyIn w).field).isSome = true ∧ w.toNat / 2 ^ 51 = 0 ∧ (keyIn w).low < bound ∧
    ((keyIn w).seq = 0 ∨ ∃ q ∈ (s.partAt s.hart.part).seqs, q.id = (keyIn w).seq)

/-- A sheet of n bytes that an instruction reads: nothing holds the read up, and its bytes make the number w. -/
def sheetAt (s : State) (a : Word) (w : Nat) : Prop :=
  s.heldByDeposit a 64 = false ∧ ∃ pas, s.accessAt s.who a 64 64 .rd = .ok pas ∧ w = ofBytes (s.loadBytes pas)

/-- The bytes lo up of a sheet. -/
def sheetField (w lo n : Nat) : Nat := w / 256 ^ lo % 256 ^ n

/-- An instruction that passes its checks asks `kind` of an engine or the scheduler, for xd (R129, R164, R173, R290 to
R295, R309, R323). -/
inductive Asks (s : State) : Instr → Reg → List Reg → OpKind → Prop where
  | launch {d a} : s.heldByDeposit (s.hart.rd a) 64 = false → (∃ pas, s.accessAt s.who (s.hart.rd a) 64 64 .rd = .ok pas) → Asks s (.launch d a) d [a] (.launch (s.hart.rd a))
  | key {i d a b bound k} : keyed s.hart i = some (d, a, b, bound, k) → (∀ d a b, i ≠ .gfind d a b) → keyPasses s (s.hart.rd b) bound →
      Asks s i d [a, b] (k (keyIn (s.hart.rd b)))
  | find {d a b f} : (s.hart.rd a).toNat % 4 = 0 → keyPasses s (s.hart.rd b) (2 ^ 32) →
      s.fieldOf (s.tenantOf s.hart.part) (keyIn (s.hart.rd b)).field = some f →
      (let m := 4 * chunkTokens f.record * ((keyIn (s.hart.rd b)).low / chunkTokens f.record)
       m = 0 ∨ ∃ pas, s.accessMapped (s.hart.rd a) m = .ok pas) →
      Asks s (.gfind d a b) d [a, b] (.gfind (s.hart.rd a) (keyIn (s.hart.rd b)))
  | deposit {d a w f} : sheetAt s (s.hart.rd a) w → sheetField w 24 40 = 0 → sheetField w 20 1 ≤ 16 →
      s.fieldOf (s.tenantOf s.hart.part) (sheetField w 21 1) = some f →
      (s.payloadPages s.who (BitVec.ofNat 64 (sheetField w 8 8)) (sheetField w 20 1)).isSome = true →
      (sheetField w 22 2 = 0 ∨ ∃ q ∈ (s.partAt s.hart.part).seqs, q.id = sheetField w 22 2) → sheetField w 0 8 % 4 = 0 →
      (∃ pas, s.accessMapped (BitVec.ofNat 64 (sheetField w 0 8)) (4 * chunkTokens f.record) = .ok pas) →
      Asks s (.gdep d a) d [a] (.gdep { tokens := BitVec.ofNat 64 (sheetField w 0 8), payload := BitVec.ofNat 64 (sheetField w 8 8),
                                        parent := sheetField w 16 4, npages := sheetField w 20 1, field := sheetField w 21 1,
                                        seq := sheetField w 22 2 })
  | bin {d a w} : sheetAt s (s.hart.rd a) w → sheetCheck w = none → Asks s (.sbin d a) d [a] (.sbin (s.hart.rd a) (jobSheet w))
  | stat {d a w} : sheetAt s (s.hart.rd a) w → Asks s (.sstat d a) d [a] (.sstat (s.hart.rd a) (sheetField w 17 1))
  | pair {d z a b w} : sheetAt s (s.hart.rd a) w → s.hart.z[z.val].bound = .unbound → (s.hart.rd b).toNat / 2 ^ 48 % 2 ^ 15 = 0 →
      Asks s (.spair d z a b) d [a, b] (.spair (s.hart.rd a) (sheetField w 17 1) z ((s.hart.rd b).toNat % 2 ^ 24)
        ((s.hart.rd b).toNat / 2 ^ 24 % 2 ^ 24) (decide (2 ^ 63 ≤ (s.hart.rd b).toNat)))

/-- The state in which the operation stands at the end of its engine's queue and xd awaits its answer (R129, R164); a
`SPAIR` reserves its slot (R324). -/
def handed (s : State) (d : Reg) (kind : OpKind) : State :=
  { s with
    nextId := s.nextId + 1
    ops := s.ops ++ [{ oid := s.nextId, hart := s.cur, part := s.hart.part, tenant := s.tenantOf s.hart.part, xd := d, kind := kind }]
    hart := { s.hart with
      pending := if d = 0 then s.hart.pending else s.hart.pending.filter (fun e => e.1 != d) ++ [(d, s.nextId)]
      failedX := if d = 0 then s.hart.failedX else s.hart.failedX.filter (· != d)
      z := match kind with
        | .spair _ _ z _ _ _ => s.hart.z.set z.val { s.hart.z[z.val] with bound := .reserved s.nextId }
        | _ => s.hart.z } }

end Sys2Proof.Claims

/-- R77, R83, R269, R307: `ADV` advances its counter and, where that wraps, its target, and queues an order on each
sheaf that depends on a counter it changed; `KSET` loads a counter reduced by its bound, with orders the same way;
`KGET` reads one. Nothing else changes.
Choices of the model: notes/assumptions/4 (bookkeeping fields that the spec does not name), 24 (a younger write to a
register that awaits an answer). -/
def Obligations.CountersCountAndOrder : Prop :=
  (∀ (s : State) (k : KIx), (s.hart.advs.filter s.advUnfinished).length < 4 → Claims.Separate s →
    let c := s.hart.k[k.val]
    ∃ u, exec (.adv k) s = .next (Claims.wentTo u (s.hart.pc + 4)) ∧ Claims.OnlyOrders s u ∧
      (Claims.roomLeft c = true → u.hart.k = s.hart.k.set k.val (Claims.counted c)) ∧
      (Claims.roomLeft c = false → c.target = none → u.hart.k = s.hart.k.set k.val { c with val := 0 }) ∧
      (∀ t : KIx, Claims.roomLeft c = false → c.target = some t → t ≠ k → Claims.roomLeft s.hart.k[t.val] = true →
        u.hart.k = (s.hart.k.set k.val { c with val := 0 }).set t.val (Claims.counted s.hart.k[t.val])) ∧
      Claims.OrdersFor s u (fun c => (s.hart.k.toList.getD c {}).val ≠ (u.hart.k.toList.getD c {}).val)) ∧
  (∀ (s : State) (k : KIx) (a b : Reg) (target : Option KIx), Claims.Readable [a, b] s → Claims.Separate s →
    let bound := (s.hart.rd b).toNat % 2 ^ 32
    let c : Counter := { val := if bound = 0 then (s.hart.rd a).toNat % 2 ^ 32 else (s.hart.rd a).toNat % bound, bound := bound, target := target }
    ∃ u, exec (.kset k a b target) s = .next (Claims.wentTo u (s.hart.pc + 4)) ∧ Claims.OnlyOrders s u ∧
      u.hart.k = s.hart.k.set k.val c ∧ Claims.OrdersFor s u (fun j => j = k.val ∧ c ≠ s.hart.k[k.val])) ∧
  (∀ (s : State) (d : Reg) (k : KIx) (sel : Fin 3),
    let c := s.hart.k[k.val]
    exec (.kget d k sel) s = .next (Claims.wrote s d (BitVec.ofNat 64
      (if sel = 0 then c.val else if sel = 1 then c.bound else c.target.elim 0 (fun t => 8 + t.val))) (s.hart.pc + 4)))

/-- R79, R80, R302 to R304: `HSET` of an empty register whose descriptor passes the checks and whose lines are free
loads it and answers 0, answers 1 or takes LOFTFULL when they are not, and takes SHEAFCFG or REGION when a check
fails; of a box that leaves its region, the address reported is the model's choice.
Choices of the model: notes/assumptions/4 (bookkeeping fields that the spec does not name), 24 (a younger write to a
register that awaits an answer), 52 (handle tables and regions), 58 (which far address fails first). -/
def Obligations.HsetLoadsDescriptor : Prop :=
  ∀ (s : State) (d : Reg) (r : HIx) (a : Reg) (pas : List Nat),
    Claims.Readable [a] s → s.hart.blocksDone = true → s.hart.hreg[r.val] = none → s.heldByDeposit (s.hart.rd a) 128 = false →
    s.accessAt s.who (s.hart.rd a) 128 128 .rd = .ok pas →
      let raw := ofBytes (pas.map (Claims.loaded s))
      (∀ c, s.checkDesc r.val raw = .error c → exec (.hset d r a) s = Claims.faults s .sheafcfg (BitVec.ofNat 64 c)) ∧
      ∀ desc, s.checkDesc r.val raw = .ok desc →
        (∀ ev, desc.mode ≠ .loc → s.boxFault desc = some ev → exec (.hset d r a) s =
          Claims.faults (s.tellFault s.hart.part s.cur ⟨.region, ev, s.tableLines s.hart.part ev⟩) .region ev) ∧
        ((desc.mode = .loc ∨ s.boxFault desc = none) → (∀ sh ∈ s.sheaves, sh.hart = s.cur → ∀ o ∈ sh.orders, o.final = false) →
          (s.freeLines (steadOf s.cur) < desc.lines → d ≠ 0 → exec (.hset d r a) s = .next (Claims.wrote s d 1 (s.hart.pc + 4))) ∧
          (s.freeLines (steadOf s.cur) < desc.lines → d = 0 → exec (.hset d r a) s = Claims.faults s .loftfull (BitVec.ofNat 64 desc.lines)) ∧
          (desc.lines ≤ s.freeLines (steadOf s.cur) → (∀ sh ∈ s.sheaves, sh.sid ≠ s.nextId) →
            ∃ u sh, exec (.hset d r a) s = .next (Claims.wrote u d 0 (s.hart.pc + 4)) ∧
              u = { s with nextId := u.nextId, lines := u.lines, sheaves := s.sheaves ++ [sh]
                           hart := { s.hart with hreg := s.hart.hreg.set r.val (some sh.sid) } } ∧
              sh.desc = desc ∧ sh.hart = s.cur ∧ sh.reserved = desc.lines ∧ sh.key = s.hart.rd a ∧
              u.sheafIn s.cur r.val = some sh ∧ (desc.mode ≠ .loc → sh.orders.length = 1 ∧ u.lines = s.lines)))

/-- R81, R82, R296 to R300: `HAVAIL` counts the elements of the window that have been delivered without a gap, pad
among them; `HCLR`
empties its register and queues the sheaf's last order; `HFLUSH` issues a write of every dirty byte and a fold of every
touched element of the sheaf's lines and leaves them clean; `HWAIT` ends when the window is delivered and nothing issued
for its register is outstanding, and waits otherwise.
Choices of the model: notes/assumptions/4 (bookkeeping fields that the spec does not name), 24 (a younger write to a
register that awaits an answer), 36 (debts of the return queue). -/
def Obligations.SheavesAreClearedFlushedAwaited : Prop :=
  (∀ (s : State) (d : Reg) (r : HIx),
    (s.sheafIn s.cur r.val = none → exec (.havail d r) s = .next (Claims.wrote s d 0 (s.hart.pc + 4))) ∧
    ∀ sh, s.sheafIn s.cur r.val = some sh →
      ∃ A ≤ sh.desc.size, exec (.havail d r) s = .next (Claims.wrote s d (BitVec.ofNat 64 A) (s.hart.pc + 4)) ∧
        (sh.desc.mode ≠ .inp → sh.desc.mode ≠ .inout → A = sh.desc.size) ∧
        (sh.desc.mode = .inp ∨ sh.desc.mode = .inout →
          let delivered := Claims.Delivered s sh (s.hart.k.toList.map (·.val)) none
          (∀ o < A, delivered o) ∧ (A < sh.desc.size → ¬ delivered A))) ∧
  (∀ (s : State) (r : HIx), s.hart.blocksDone = true →
    ∃ u, exec (.hclr r) s = .next (Claims.wentTo u (s.hart.pc + 4)) ∧
      u = { s with nextId := u.nextId, sheaves := u.sheaves, hart := { s.hart with hreg := s.hart.hreg.set r.val none } } ∧
      ∀ sid sh, s.sheafById sid = some sh →
        (s.hart.hreg[r.val] = some sid → ∃ o : Order, o.final = true ∧ u.sheafById sid = some { sh with orders := sh.orders ++ [o] }) ∧
        (s.hart.hreg[r.val] ≠ some sid → u.sheafById sid = some sh)) ∧
  (∀ (s : State) (r : HIx), s.hart.blocksDone = true →
    (s.sheafIn s.cur r.val = none → exec (.hflush r) s = .next (Claims.wentTo s (s.hart.pc + 4))) ∧
    ∀ sh, s.sheafIn s.cur r.val = some sh →
      ∃ u ds, exec (.hflush r) s = .next (Claims.wentTo u (s.hart.pc + 4)) ∧
        u = { s with nextId := u.nextId, lines := u.lines, debts := s.debts ++ ds } ∧
        (sh.desc.mode = .inp ∨ sh.desc.mode = .loc → u = s) ∧
        (sh.desc.mode ≠ .inp → sh.desc.mode ≠ .loc → ∀ key l, s.lineAt sh.stead key = some l → sh.sid ∈ l.holders → l.dead = false →
          (sh.desc.mode.folds = false → ¬ Claims.gathered key → ∀ j < 64, l.dirty.getLsbD j = true →
            ∃ x ∈ ds, x.sid = sh.sid ∧ Claims.owesByte x key j (Claims.lineByte l.data j)) ∧
          (sh.desc.mode.folds = true ∨ Claims.gathered key → ∀ off ∈ l.touched,
            ∃ x ∈ ds, x.key = key ∧ x.sid = sh.sid ∧ Claims.owesElement sh l off x) ∧
          ∃ l', u.lineAt sh.stead key = some l' ∧ l'.dirty = 0 ∧ l'.touched = [])) ∧
  (∀ (s : State) (r : HIx), s.hart.blocksDone = true → s.deliverable = false →
    (s.sheafIn s.cur r.val = none → exec (.hwait r) s = .next (Claims.wentTo s (s.hart.pc + 4))) ∧
    ∀ sh, s.sheafIn s.cur r.val = some sh →
      ((∃ x ∈ s.debts, x.hart = s.cur ∧ x.reg = r.val) → (sh.desc.mode ≠ .inp ∧ sh.desc.mode ≠ .inout) → exec (.hwait r) s = .next (Claims.waitsCtl s)) ∧
      ((∀ x ∈ s.debts, x.hart = s.cur → x.reg ≠ r.val) →
        (sh.desc.mode ≠ .inp ∧ sh.desc.mode ≠ .inout ∨
          ∃ w, s.windowFor sh (s.hart.k.toList.map (·.val)) none = some w ∧ ∀ o < sh.desc.size, ∃ x, s.windowElem sh w o true = .ready x) →
        exec (.hwait r) s = .next (Claims.wentTo s (s.hart.pc + 4))) ∧
      (∀ w o, sh.desc.mode = .inp ∨ sh.desc.mode = .inout → s.windowFor sh (s.hart.k.toList.map (·.val)) none = some w →
        o < sh.desc.size → s.windowElem sh w o true = .wait → exec (.hwait r) s = .next (Claims.waitsCtl s)))

/-- R129, R164, R173, R290 to R295, R309, R323, R324: an instruction that hands an operation over goes on at the next
word once every older access of the hart has performed, with the operation at the end of the queue and xd awaiting its
answer, and waits until then. -/
def Sys2Proof.Claims.OperationsAreHandedOver : Prop :=
  ∀ (s : State) (i : Instr) (d : Reg) (rs : List Reg) (kind : OpKind), Claims.Asks s i d rs kind → Claims.Readable rs s →
    (Claims.AccessesPerformed s → exec i s = .next (Claims.wentTo (Claims.handed s d kind) (s.hart.pc + 4))) ∧
    (¬ Claims.AccessesPerformed s → exec i s = .next (Claims.waitsCtl s))

/-- R164: a Granary instruction with a key takes GRANARY with the code of the first check that its key fails: 1 for a
field that does not exist, 2 for bits that must be zero, 5 for a sequence that is not live. -/
def Sys2Proof.Claims.BadKeysTakeGranary : Prop :=
  ∀ (s : State) (i : Instr) (d a b : Reg) (bound : Nat) (k : GKey → OpKind),
    Claims.keyed s.hart i = some (d, a, b, bound, k) → Claims.Readable [a, b] s →
    ((∃ x y z, i = .gfind x y z) → (s.hart.rd a).toNat % 4 = 0) →
      let w := s.hart.rd b
      let f := s.fieldOf (s.tenantOf s.hart.part) (Claims.keyIn w).field
      let live := (Claims.keyIn w).seq = 0 ∨ ∃ q ∈ (s.partAt s.hart.part).seqs, q.id = (Claims.keyIn w).seq
      (f = none → exec i s = Claims.faults s .granary 1) ∧
      (f ≠ none → (w.toNat / 2 ^ 51 ≠ 0 ∨ bound ≤ (Claims.keyIn w).low) → exec i s = Claims.faults s .granary 2) ∧
      (f ≠ none → w.toNat / 2 ^ 51 = 0 → (Claims.keyIn w).low < bound → ¬ live → exec i s = Claims.faults s .granary 5)

/-- Both statements: `Claims.OperationsAreHandedOver` and
`Claims.BadKeysTakeGranary`.
Choices of the model: notes/assumptions/20 (what an instruction waits for), 24 (a younger write to a register that
awaits an answer), 37 (checks of Granary and launch operands). -/
def Obligations.HandedOverOperationsAndBadKeys : Prop :=
  Sys2Proof.Claims.OperationsAreHandedOver ∧ Sys2Proof.Claims.BadKeysTakeGranary

namespace Sys2Proof.Claims

/- The end and the waits of a hart. -/

/-- The hart holds nothing that `EXIT` gives up before its release (R281): no block, no pending answer, no operation, no
sheaf, no bound slot and no strip. -/
structure HoldsNothing (s : State) : Prop where
  blocks : s.hart.blocksDone = true
  answers : s.hart.pending = []
  operations : ∀ o ∈ s.ops, o.hart ≠ s.cur
  registers : ∀ r : HIx, s.hart.hreg[r.val] = none
  sheaves : ∀ sh ∈ s.sheaves, sh.hart ≠ s.cur
  slots : ∀ z : ZIx, s.hart.z[z.val].bound = .unbound
  strip : s.hart.holdsStrip = false

/-- The farm of the current hart. -/
def farmOfHart (s : State) : Option Farm := s.farms.find? (fun g => g.part == s.hart.part && g.id == s.hart.farm)

/- CSRs. -/

/-- Bits of a register that a write changes (R46, R47, R60, R67, R69, R70, R180, R183, R193, R284, R374): none for one
that is read-only or not listed. `ESTATUS` stands apart. -/
def writable (n : Nat) : Option Word :=
  if n = 0x010 ∨ n = 0x011 then some 0x3FFFF
  else if n = 0x012 ∨ n = 0x040 ∨ n = 0x041 ∨ n = 0x840 ∨ n = 0x841 then some 0x01FFFFFFFFFFFFFC
  else if n = 0x019 then some 0xFFFFFF
  else if n = 0x020 ∨ n = 0x023 ∨ (0x028 ≤ n ∧ n ≤ 0x02D) ∨ (0x030 ≤ n ∧ n ≤ 0x035) then some 0xFFFFFFFF
  else if n = 0x021 then some 7
  else if n = 0x022 then some 0x3F
  else if n = 0x024 then some 0x3F3F
  else if n = 0x042 ∨ n = 0x842 then some 0xFF
  else if n = 0x043 ∨ n = 0x045 ∨ n = 0x843 ∨ n = 0x845 then some 0xFFFFFFFFFFFFFFFF
  else if n = 0x060 then some 3
  else if n = 0x801 then some 0xBE7FEE
  else none

/-- The value of a write instruction to a register that holds `old` (R279). -/
def csrForm (h : Hart) (i : Instr) : Option (BitVec 12 × Reg × (Word → Word)) :=
  match i with
  | .csrw n a => some (n, a, fun _ => h.rd a)
  | .csrs n a => some (n, a, fun old => old ||| h.rd a)
  | .csrc n a => some (n, a, fun old => old &&& ~~~h.rd a)
  | _ => none

/-- The access may go on (R26, R46): the level suffices, and the registers that blocks write wait for them. -/
def csrFree (s : State) (n : Nat) : Prop :=
  (0x800 ≤ n → n ≤ 0xBFF → s.hart.level ≠ 0) ∧
    (n = 0x010 ∨ n = 0x011 ∨ n = 0x022 ∨ (0x030 ≤ n ∧ n ≤ 0x035) → s.hart.blocksDone = true)

/-- The registers that a CSR write can change. -/
def OnlyCsrs (s u : State) : Prop :=
  u = { s with
    parts := u.parts
    hart := { s.hart with
      vstart := u.hart.vstart, startHeld := u.hart.startHeld, vla := u.hart.vla, vfret := u.hart.vfret, ropepart := u.hart.ropepart
      fmtdef := u.hart.fmtdef, frm := u.hart.frm, fflags := u.hart.fflags, nwin := u.hart.nwin, ntEn := u.hart.ntEn
      ntHost := u.hart.ntHost, nthr := u.hart.nthr, ncnt := u.hart.ncnt, bank0 := u.hart.bank0, bank1 := u.hart.bank1
      dbg := u.hart.dbg } }

/- Traps. -/

/-- The code of a cause as R181 numbers it. -/
def codeOf (c : Cause) : Nat :=
  match c with
  | .illegal => 1
  | .illegalv => 2
  | .convoy => 3
  | .priv => 4
  | .align => 5
  | .xfault => 6
  | .region => 7
  | .sheaf => 8
  | .sheafcfg => 9
  | .loftfull => 10
  | .fmt => 11
  | .matt => 12
  | .mdata => 13
  | .stream => 14
  | .quota => 15
  | .poison => 16
  | .granary => 17
  | .sieve => 18
  | .numthr => 19
  | .brk => 20
  | .step => 21
  | .trap => 22
  | .engine => 23

/-- The level that handles a cause before any escalation (R179, R180): level 0 when `TDELEG` delegates it and the hart
runs there. -/
def firstLevel (s : State) (c : Cause) : Nat :=
  if s.hart.level = 0 ∧ (s.partAt s.hart.part).tdeleg.getLsbD (codeOf c) = true then 0 else 1

/-- A handler of the level is active (R183). -/
def handling (b : TrapBank) : Bool := b.estatus.getLsbD 3

/-- The trap escalates from an active handler of level 0 (R182). -/
def escalates (s : State) (c : Cause) : Bool := firstLevel s c == 0 && handling s.hart.bank0

/-- The level that a trap enters (R182). -/
def enters (s : State) (c : Cause) : Nat := if escalates s c then 1 else firstLevel s c

/-- What a trap saves (R182, R183). -/
def saved (s : State) (c : Cause) (ev epc : Word) (inblk : Bool) (b : TrapBank) : TrapBank :=
  { b with epc := epc &&& 0x01FFFFFFFFFFFFFC, cause := BitVec.ofNat 64 (codeOf c), eval := ev
           estatus := BitVec.ofNat 64 (s.hart.level + 8 + (if inblk then 16 else 0) + (if escalates s c then 32 else 0) + 64 * s.hart.dbg.toNat) }

/-- The instructions that call firmware service `code` at level 1 (R216, R333). -/
def calls (i : Instr) (code : Nat) : Prop :=
  (∃ c : BitVec 12, i = .trap c ∧ c.toNat = code) ∨ (i = .readLifetimeCounter ∧ code = 0) ∨ (i = .readMeasurementLog ∧ code = 1) ∨
    (i = .postPartitionNotice ∧ code = 2)

end Sys2Proof.Claims

/-- R281, R124, R45, R77: an `EXIT` of a hart that holds nothing ends it once every access of it and every Gleaner debt
has performed: its quads and rows are given back, its scalar, vector and predicate registers and its counters are as at
reset, its farm counts it among those that have exited, and nothing of memory changes. It waits while an older block,
an answer or an operation is outstanding, and, holding nothing, while an access or a debt has not performed. -/
def Sys2Proof.Claims.ExitEndsHart : Prop :=
  ∀ (s : State), s.deliverable = false → s.hart.ending = false → s.hart.exiting = false →
    (Claims.HoldsNothing s → Claims.Performed s →
      ∃ t, exec .exit s = .next t ∧ t.hart = { Hart.reset with status := .ended, grant := 0, part := s.hart.part } ∧
        t.hart.rowCount = 0 ∧ t.hart.cells = [] ∧ t.hart.k = Vector.replicate 8 {} ∧ (∀ r, t.hart.rd r = 0) ∧
        (∀ v : VIx, t.hart.v[v.val].tag = 0 ∧ ∀ e f, t.hart.bitsAt v e f = 0) ∧ (∀ p e, t.hart.pbit p e = decide (p = 0)) ∧
        t.mem = s.mem ∧ t.cur = s.cur ∧
        ∀ g, Claims.farmOfHart s = some g → s.cur ∈ g.harts →
          t.farms.find? (fun f => f.part == g.part && f.id == g.id) =
            some { g with harts := g.harts.filter (· != s.cur), exited := g.exited ++ [s.cur] }) ∧
    (Claims.HoldsNothing s → ¬ Claims.Performed s →
      exec .exit s = .next (Claims.waitsCtl { s with hart := { s.hart with exiting := true } })) ∧
    (s.hart.blocksDone = false ∨ s.hart.pending ≠ [] ∨ (∃ o ∈ s.ops, o.hart = s.cur) → exec .exit s = .next (Claims.waitsCtl s))

/-- R33, R139, R381: `WAIT` on a word that differs goes on; on an equal one the hart sleeps with what it compares,
keeping every register and giving its quads back; `YIELD` gives them back and stands at the end of its partition's
order. -/
def Sys2Proof.Claims.WaitAndYieldGiveQuadsBack : Prop :=
  (∀ (s : State) (a b : Reg) (pas : List Nat), Claims.Readable [a, b] s → s.deliverable = false →
    s.heldByDeposit (s.hart.rd a) 8 = false → s.accessAt s.who (s.hart.rd a) 8 8 .rd = .ok pas → s.hart.blocksDone = true →
      let v := BitVec.ofNat 64 (ofBytes (pas.map (Claims.loaded s)))
      (v ≠ s.hart.rd b → exec (.wait a b) s = .next (Claims.wentTo s (s.hart.pc + 4))) ∧
      (v = s.hart.rd b → s.hart.needsReserved = none →
        ∃ t, exec (.wait a b) s = .next t ∧
          t.hart = { s.hart with status := .sleeping, sleepAddr := s.hart.rd a, sleepPas := pas, sleepCmp := s.hart.rd b, resumeNext := false,
                                 grant := 0, owed := if s.hart.holding then (quadList s.hart.grant).length else 0, gangWait := t.hart.gangWait } ∧
          t = { s with hart := t.hart, others := t.others, farms := t.farms, rereads := s.rereads.filter (· != s.cur) })) ∧
  (∀ (s : State), s.deliverable = false → s.hart.blocksDone = true → s.hart.needsReserved = none →
    ∃ t, exec .yield s = .next t ∧
      t.hart = { s.hart with status := .runnable, resumeNext := true, grant := 0, since := s.nextId
                             owed := if s.hart.holding then (quadList s.hart.grant).length else 0, gangWait := t.hart.gangWait } ∧
      (t.partAt s.hart.part).order = (s.partAt s.hart.part).order ++ [s.cur] ∧
      t = { s with hart := t.hart, others := t.others, farms := t.farms, parts := t.parts, nextId := s.nextId + 1 })

/-- Both statements: `Claims.ExitEndsHart` and `Claims.WaitAndYieldGiveQuadsBack`.
Choices of the model: notes/assumptions/20 (what an instruction waits for), 31 (the end of a hart, and write-backs
that fail). -/
def Obligations.HartsEndWaitAndYield : Prop :=
  Sys2Proof.Claims.ExitEndsHart ∧ Sys2Proof.Claims.WaitAndYieldGiveQuadsBack

/-- R275: `BAR` of a gang member waits until every block queued before it is done and its accesses and debts have
performed; it then counts, goes on when every other member has counted as many, and waits otherwise; outside a gang it
takes ILLEGAL. -/
def Sys2Proof.Claims.BarriersCountGangMembers : Prop :=
  ∀ (s : State),
    let n := s.hart.barcount + 1
    let others := fun (g : Farm) => ∀ h ∈ g.harts, h ≠ s.cur → n ≤ (s.hartAt h).barcount
    (∀ g, Claims.farmOfHart s = some g → g.gang = true → s.hart.barWaiting = false → s.deliverable = false →
      (s.hart.blocksDone = false ∨ ¬ Claims.Performed s → exec .bar s = .next (Claims.waitsCtl s)) ∧
      (s.hart.blocksDone = true → Claims.Performed s →
      (others g → exec .bar s = .next (Claims.wentTo { s with hart := { s.hart with barcount := n } } (s.hart.pc + 4))) ∧
      (¬ others g → exec .bar s = .next (Claims.waitsCtl { s with hart := { s.hart with barcount := n, barWaiting := true } })))) ∧
    ((∀ g, Claims.farmOfHart s = some g → g.gang = false) → exec .bar s = Claims.faults s .illegal 0x8C000200)

/-- R90, R136, R332: `STRIP` of a hart that holds none writes the first iteration of the farm's next strip, which it
then holds, and all ones when none is left. -/
def Sys2Proof.Claims.StripsAreClaimedInOrder : Prop :=
  ∀ (s : State) (d : Reg) (g : Farm), s.schedulerFree = true → s.hart.holdsStrip = false → Claims.farmOfHart s = some g → g.z ≠ 0 →
    (g.nextStrip * g.z < g.trips →
      ∃ u, exec (.strip d) s = .next (Claims.wrote u d (BitVec.ofNat 64 (g.nextStrip * g.z)) (s.hart.pc + 4)) ∧
        u = { s with farms := u.farms, hart := { s.hart with stripId := BitVec.ofNat 64 g.nextStrip, holdsStrip := true } } ∧
        Claims.farmOfHart u = some { g with nextStrip := g.nextStrip + 1 }) ∧
    (g.trips ≤ g.nextStrip * g.z →
      exec (.strip d) s = .next (Claims.wrote { s with hart := { s.hart with stripId := BitVec.allOnes 64 } } d (BitVec.allOnes 64) (s.hart.pc + 4)))

/-- Both statements: `Claims.BarriersCountGangMembers` and
`Claims.StripsAreClaimedInOrder`.
Choices of the model: notes/assumptions/20 (what an instruction waits for), 23 (folds of later strips), 24 (a younger
write to a register that awaits an answer). -/
def Obligations.BarriersAndStripsCount : Prop :=
  Sys2Proof.Claims.BarriersCountGangMembers ∧ Sys2Proof.Claims.StripsAreClaimedInOrder

namespace Sys2Proof.Claims

/- Sequences. -/

/-- A sequence instruction of the current hart is served (R125, R129, R150): its accesses have performed, its `GFIND`s
have answered, and no launch stands before it. -/
structure Served (s : State) : Prop where
  accesses : AccessesPerformed s
  finds : ∀ o ∈ s.ops, o.hart = s.cur → ∀ a k, o.kind ≠ .gfind a k
  launches : ∀ o ∈ s.ops, o.unservedLaunch = false

/-- Block index i of the pool of sequence q is free in partition p: it lies in the pool's region, and no live sequence
of the partition holds its page (R148, R149). -/
def FreeIndex (s : State) (p : Nat) (q : Seq) (i : Nat) : Prop :=
  ∃ r, s.poolRegion s.who q.pool = some r ∧ i < r.length / 65536 ∧ ∀ x ∈ (s.partAt p).seqs, ∀ e ∈ x.pages, e.1 ≠ r.base / 65536 + i

/-- Sequence q of partition p can hold no further block (R149): its table is full or no block index is free. -/
def Full (s : State) (p : Nat) (q : Seq) : Prop := q.len = q.cap ∨ ∀ i, ¬ FreeIndex s p q i

/-- The sequence that `id` names in the current hart's partition. -/
def seqNamed (s : State) (id : Nat) : Option Seq := (s.partAt s.hart.part).seqs.find? (fun x => x.id == id)

end Sys2Proof.Claims

/-- R148, R149, R328: a served `SEQNEW` of a record that is malformed or cannot be read answers 0; one of a
well-formed record answers 0 when the ADMIT decision refuses it or 65,535 sequences are live, and otherwise makes a
sequence of the lowest id that is not live, with no block and a length word of 0. While no policy image decides, ADMIT
is refused just when the partition's pages have reached its quota. -/
def Sys2Proof.Claims.SeqnewMakesLowestId : Prop :=
  ∀ (s : State) (d a : Reg), Claims.Readable [a] s → Claims.Served s → s.heldByDeposit (s.hart.rd a) 64 = false →
    let p := s.hart.part
    let v := s.partAt p
    let rec_ := s.hart.rd a
    (rec_.toNat % 64 ≠ 0 → exec (.seqnew d a) s = .next (Claims.wrote s d 0 (s.hart.pc + 4))) ∧
    (rec_.toNat % 64 = 0 →
      (∀ e, s.accessAt s.who rec_ 64 64 .rd = .error e →
        ∃ u, exec (.seqnew d a) s = .next (Claims.wrote u d 0 (s.hart.pc + 4)) ∧ u.hart = s.hart ∧ u.mem = s.mem ∧ (u.partAt p).seqs = v.seqs) ∧
      ∀ pas, s.accessAt s.who rec_ 64 64 .rd = .ok pas →
        let r := seqRecord (ofBytes (pas.map s.byteAt))
        (s.seqRecordOk rec_ r = false → exec (.seqnew d a) s = .next (Claims.wrote s d 0 (s.hart.pc + 4))) ∧
        (s.seqRecordOk rec_ r = true → v.events = [] →
          let dec := s.decideEvent p { kind := 4, f2 := s.cur, f3 := s.hart.farm, f4 := r.nstop, named := true }
          let refuses := dec.2.act = some 2
          (refuses ∨ 65535 ≤ v.seqs.length →
            exec (.seqnew d a) s = .next (Claims.wrote dec.1 d 0 (s.hart.pc + 4)) ∧ (dec.1.partAt p).seqs = v.seqs ∧ dec.1.mem = s.mem) ∧
          (∀ id len, ¬ refuses → v.seqs.length < 65535 → 1 ≤ id → (∀ q ∈ v.seqs, q.id ≠ id) →
            (∀ m, 1 ≤ m → m < id → ∃ q ∈ v.seqs, q.id = m) → s.accessAt s.who (rec_ + 12) 4 0 .wr = .ok len → Memory.wf s.mem = true → len.Nodup →
              ∃ u, exec (.seqnew d a) s = .next (Claims.wrote u d (BitVec.ofNat 64 id) (s.hart.pc + 4)) ∧ u.hart = s.hart ∧
                (u.partAt p).seqs = v.seqs ++ [{ id := id, hart := s.cur, farm := s.hart.farm, recAddr := rec_, table := r.table
                                                 cap := r.cap, len := 0, pool := r.pool, stops := r.stops }] ∧
                ∀ x, u.byteAt x = Claims.put s.byteAt len (toBytes 4 0) x) ∧
          (v.policy.shadow = none → v.policy.disabled = true ∨ v.policy.active = none → (refuses ↔ v.record.quota ≤ v.pages))))

/-- R114, R149, R328: a served `SEQGROW` answers the first check that fails, 4 for an id that is not live, 3 for a
full table or pool, 2 with a QUOTA event for a partition whose pages have reached its quota, 1 for an empty device
pool; it takes the fault of a write that is refused, changing no count; and otherwise it gives the sequence the lowest
free block: a page of the device pool that reads zero, its index in the table and the length one more. -/
def Sys2Proof.Claims.SeqgrowAnswersFirstFailure : Prop :=
  ∀ (s : State) (d a : Reg), Claims.Readable [a] s → Claims.Served s →
    let p := s.hart.part
    let v := s.partAt p
    let id := (s.hart.rd a).toNat
    (Claims.seqNamed s id = none → exec (.seqgrow d a) s = .next (Claims.wrote s d 4 (s.hart.pc + 4))) ∧
    ∀ q, Claims.seqNamed s id = some q →
      s.heldByDeposit (q.table + BitVec.ofNat 64 (4 * q.len)) 4 = false → s.heldByDeposit q.recAddr 64 = false →
      (Claims.Full s p q → exec (.seqgrow d a) s = .next (Claims.wrote s d 3 (s.hart.pc + 4))) ∧
      (¬ Claims.Full s p q →
        (v.record.quota ≤ v.pages →
          ∃ u, exec (.seqgrow d a) s = .next (Claims.wrote u d 2 (s.hart.pc + 4)) ∧ u = { s with parts := u.parts } ∧
            u.partAt p = { v with events := v.events ++ [{ kind := 3, cause := 15, f2 := s.cur, f3 := s.hart.farm, f4 := id, named := true }] }) ∧
        (v.pages < v.record.quota → s.pool = [] → exec (.seqgrow d a) s = .next (Claims.wrote s d 1 (s.hart.pc + 4))) ∧
        (∀ pg rest, v.pages < v.record.quota → s.pool = pg :: rest →
          let entryAt := s.accessAt s.who (q.table + BitVec.ofNat 64 (4 * q.len)) 4 0 .wr
          let lenAt := s.accessAt s.who (q.recAddr + 12) 4 0 .wr
          (∀ e, entryAt = .error e ∨ ((∃ x, entryAt = .ok x) ∧ lenAt = .error e) →
            exec (.seqgrow d a) s = Claims.faults (s.tellFault p s.cur e) e.cause e.eval) ∧
          (∀ i entry len, Claims.FreeIndex s p q i → (∀ j < i, ¬ Claims.FreeIndex s p q j) → entryAt = .ok entry → lenAt = .ok len →
            Memory.wf s.mem = true → entry.Nodup → len.Nodup →
              ∃ u page, exec (.seqgrow d a) s = .next (Claims.wrote u d 0 (s.hart.pc + 4)) ∧
                u.hart = { s.hart with sleepPas := u.hart.sleepPas } ∧
                (u.partAt p).pages = v.pages + 1 ∧ u.pool = s.pool.filter (· != pg) ∧
                (u.partAt p).seqs = v.seqs.map (fun x => if x.id = id then { q with len := q.len + 1, pages := q.pages ++ [page] } else x) ∧
                (∀ r, s.poolRegion s.who q.pool = some r → page.1 = r.base / 65536 + i) ∧
                ∀ x, u.byteAt x = Claims.put (Claims.put (fun y => if y / 65536 = pg then 0 else s.byteAt y) entry (toBytes 4 i))
                  len (toBytes 4 (q.len + 1)) x)))

/-- R149, R124, R327: `SEQEND` of an id that is not live does nothing; of a live one it waits as a release does, and
then retires it alone. `SEQEND.t` does so on a stop token of the sequence and answers 1, and otherwise answers 0 and
does nothing. -/
def Sys2Proof.Claims.SeqendRetiresSequence : Prop :=
  ∀ (s : State) (d a b : Reg), Claims.Readable [a, b] s → Claims.Served s →
    let p := s.hart.part
    let v := s.partAt p
    let id := (s.hart.rd a).toNat
    let live := ∃ q ∈ v.seqs, q.id = id
    let stops := ∃ q ∈ v.seqs, q.id = id ∧ (s.hart.rd b).toNat % 2 ^ 32 ∈ q.stops
    let retired := fun (u : State) =>
      u.hart = { s.hart with events := u.hart.events, lost := u.hart.lost, sleepPas := u.hart.sleepPas } ∧
      (u.partAt p).seqs = v.seqs.filter (·.id != id)
    (¬ live → exec (.seqend a) s = .next (Claims.wentTo s (s.hart.pc + 4))) ∧
    (live → ¬ Claims.Performed s → exec (.seqend a) s = .next (Claims.waitsCtl s)) ∧
    (live → Claims.Performed s → ∃ u, exec (.seqend a) s = .next (Claims.wentTo u (s.hart.pc + 4)) ∧ retired u) ∧
    (¬ stops → exec (.seqendT d a b) s = .next (Claims.wrote s d 0 (s.hart.pc + 4))) ∧
    (stops → ¬ Claims.Performed s → exec (.seqendT d a b) s = .next (Claims.waitsCtl s)) ∧
    (stops → Claims.Performed s →
      ∃ u, exec (.seqendT d a b) s = .next (Claims.wrote u d (if s.pinsStay p id then 0x80000000000000FF else 1) (s.hart.pc + 4)) ∧ retired u)

/-- The three statements: `Claims.SeqnewMakesLowestId`, `Claims.SeqgrowAnswersFirstFailure` and
`Claims.SeqendRetiresSequence`.
Choices of the model: notes/assumptions/7 (mappings that the device makes itself), 24 (a younger write to a register
that awaits an answer), 39 (adoption, poison and records that cannot be written), 42 (sequences and policy images). -/
def Obligations.SequencesGrowAndRetire : Prop :=
  Sys2Proof.Claims.SeqnewMakesLowestId ∧ Sys2Proof.Claims.SeqgrowAnswersFirstFailure ∧ Sys2Proof.Claims.SeqendRetiresSequence

/-- Hart h is one of farm g (R198, R281): it is placed for it, or it has ended and its context is no other farm's. -/
def Sys2Proof.Claims.hartOf (s : State) (g : Farm) (h : Nat) : Prop :=
  h ∈ g.harts ∨ h ∈ g.exited ∧
    ((s.hartAt h).part = g.part ∧ (s.hartAt h).farm = g.id ∨ (s.hartAt h).status = .free ∨ (s.hartAt h).status = .ended)

/-- R198, R201, R324, R325: `SOPEN` in a gang binds an unbound slot to its peer and answers 0, a receive slot granting
its peer credit, and takes STREAM with the code of the first check that fails; `SCLOSE` of an unbound slot does
nothing, and of a send slot whose messages are all credited sends the empty end message once and unbinds, after an
older `GFIND` and an older `FENCE.rel` of the hart (R125, R126).
Choices of the model: notes/assumptions/4 (bookkeeping fields that the spec does not name), 24 (a younger write to a
register that awaits an answer), 28 (closing and losing a stream). -/
def Obligations.SlotsOpenAndClose : Prop :=
  (∀ (s : State) (d : Reg) (z : ZIx) (a : Reg), Claims.Readable [a] s → s.hart.blocksDone = true →
    let w := (s.hart.rd a).toNat
    let peer := w % 256
    let y : ZIx := Fin.ofNat 8 (w / 256)
    let member := fun (g : Farm) => Claims.hartOf s g peer ∧ peer ≠ s.cur ∧ w / 2 ^ 12 % 4 ≠ 3 ∧ w / 2 ^ 14 = 0
    (s.hart.z[z.val].bound ≠ .unbound → exec (.sopen d z a) s = Claims.faults s .stream 1) ∧
    (s.hart.z[z.val].bound = .unbound → (∀ g, Claims.farmOfHart s = some g → g.gang = false) → exec (.sopen d z a) s = Claims.faults s .stream 3) ∧
    ∀ g, s.hart.z[z.val].bound = .unbound → Claims.farmOfHart s = some g → g.gang = true →
      (¬ member g → exec (.sopen d z a) s = Claims.faults s .stream 4) ∧
      (member g →
        ∃ u, exec (.sopen d z a) s = .next (Claims.wrote u d 0 (s.hart.pc + 4)) ∧
          u = { s with others := u.others, hart := { s.hart with z := u.hart.z } } ∧ (∀ j : ZIx, j ≠ z → u.hart.z[j.val] = s.hart.z[j.val]) ∧
          (u.slotAt s.cur z).nextSend = 0 ∧ (u.slotAt s.cur z).expect = 0 ∧
          (w / 2 ^ 11 % 2 = 1 → (u.slotAt s.cur z).bound = .send peer y (w / 2 ^ 12 % 4) ∧ u.others = s.others) ∧
          (w / 2 ^ 11 % 2 = 0 → (u.slotAt s.cur z).bound = .recv peer y ∧ (s.cur, z) ∈ (u.slotAt peer y).grantedBy))) ∧
  (∀ (s : State) (z : ZIx), s.hart.blocksDone = true →
    let v := s.hart.z[z.val]
    (v.bound = .unbound → exec (.sclose z) s = .next (Claims.wentTo s (s.hart.pc + 4))) ∧
    (∀ g y route, v.bound = .send g y route → (s.slotAt g y).bound = .recv s.cur z → 0 < v.unacked → exec (.sclose z) s = .next (Claims.waitsCtl s)) ∧
    (∀ g y route, v.bound = .send g y route → ((∃ o ∈ s.ops, o.hart = s.cur ∧ ∃ a k, o.kind = .gfind a k) ∨ ∃ q ∈ s.hart.sbuf, q.kind = .fence) →
      exec (.sclose z) s = .next (Claims.waitsCtl s)) ∧
    (∀ g y route, v.bound = .send g y route → (s.slotAt g y).bound = .recv s.cur z → v.unacked = 0 →
      (∀ o ∈ s.ops, o.hart = s.cur → ∀ a k, o.kind ≠ .gfind a k) → (∀ q ∈ s.hart.sbuf, q.kind ≠ .fence) →
      exec (.sclose z) s = .next (Claims.wentTo { s with
        hart := { s.hart with z := s.hart.z.set z.val { grantedBy := v.grantedBy.filter (· != (g, y)) } }
        transit := if v.sentEnd then s.transit else
          s.transit ++ [Transit.mk g y s.cur z { seq := v.nextSend, fmt := 0, elems := [], left := 0, endMark := true }] } (s.hart.pc + 4))))

/-- R26, R46, R279, R280: a CSR number that is not listed and a write to a read-only one take ILLEGAL, a privileged
one at level 0 takes PRIV; `CSRR` writes the register's value to xd. -/
def Sys2Proof.Claims.CsrAccessesAreChecked : Prop :=
  (∀ (s : State) (i : Instr) (n : BitVec 12) (w : Nat × Nat), encode i = some w →
    ((∃ d, i = .csrr d n) ∨ ∃ a f, Claims.csrForm s.hart i = some (n, a, f)) →
      (0x800 ≤ n.toNat → n.toNat ≤ 0xBFF → s.hart.level = 0 → exec i s = Claims.faults s .priv (BitVec.ofNat 64 w.2)) ∧
      (Claims.csrFree s n.toNat → csrListed n.toNat = none → exec i s = Claims.faults s .illegal (BitVec.ofNat 64 w.2)) ∧
      (Claims.csrFree s n.toNat → csrListed n.toNat = some true → (∀ d, i ≠ .csrr d n) → exec i s = Claims.faults s .illegal (BitVec.ofNat 64 w.2))) ∧
  (∀ (s : State) (d : Reg) (n : BitVec 12), csrListed n.toNat ≠ none → Claims.csrFree s n.toNat →
    exec (.csrr d n) s = .next (Claims.wrote s d (s.csrRead n.toNat) (s.hart.pc + 4))) ∧
  (∀ (s : State), s.csrRead 0x000 = BitVec.ofNat 64 s.cur ∧ s.csrRead 0x013 = s.hart.grant ∧ s.csrRead 0x070 = BitVec.ofNat 64 (s.sclk.getD (s.cur / 16) 0 / 36) ∧
    s.csrRead 0x071 = BitVec.ofNat 64 s.hart.retcount ∧ s.csrRead 0x072 = BitVec.ofNat 64 s.time ∧ s.csrRead 0x018 = BitVec.ofNat 64 (s.hart.rowBase + 256 * s.hart.rowCount))

/-- R47, R183, R279, R280: a CSR write makes the register's writable bits those of the new value and its other bits
zero, in `ESTATUS` bits 7:6 and a ppl not above the writer's level alone; every other register reads as before, and
the instruction goes on at the next word. -/
def Sys2Proof.Claims.CsrWritesKeepWritableBits : Prop :=
  ∀ (s : State) (i : Instr) (n : BitVec 12) (a : Reg) (f : Word → Word),
    Claims.csrForm s.hart i = some (n, a, f) → csrListed n.toNat = some false → Claims.csrFree s n.toNat → Claims.Readable [a] s →
      ∃ u, exec i s = .next (u.retireStep (s.hart.dbg.getLsbD 0) (s.hart.pc + 4)) ∧ Claims.OnlyCsrs s u ∧
        (∀ m, m ≠ n.toNat → csrListed m ≠ none → u.csrRead m = s.csrRead m) ∧
        (∀ mask, Claims.writable n.toNat = some mask → u.csrRead n.toNat = f (s.csrRead n.toNat) &&& mask) ∧
        (Claims.writable n.toNat = none →
          let old := s.csrRead n.toNat
          let new := f old
          (n.toNat = 0x044 ∨ n.toNat = 0x844) ∧
            u.csrRead n.toNat = (old &&& 0xFFFFFFFFFFFFFF3C) ||| (new &&& 0xC0) ||| (if (new &&& 3).toNat ≤ s.hart.level then new &&& 3 else old &&& 3))

/-- Both statements: `Claims.CsrAccessesAreChecked` and
`Claims.CsrWritesKeepWritableBits`.
Choices of the model: notes/assumptions/5 (clocks of a step and the number of a free value), 9 (registers that a
partition shares), 19 (counting and stepping at a trap), 24 (a younger write to a register that awaits an answer). -/
def Obligations.CsrAccessesReadAndWrite : Prop :=
  Sys2Proof.Claims.CsrAccessesAreChecked ∧ Sys2Proof.Claims.CsrWritesKeepWritableBits

/-- R179 to R183, R185, R41, R277: a trap that does not halt the hart saves its position, cause, value and status in the
registers of the level it enters, clears `DBGCTL`, goes to that level's vector, and holds the blocks behind a block
word; `BRK` and `TRAP` are such traps, the latter behind itself, and a trap that waited for older blocks is taken once
they are done. -/
def Sys2Proof.Claims.TrapsSaveAndEnterHandler : Prop :=
  (∀ (s : State) (c : Cause) (ev epc : Word) (inblk : Bool) (e : Nat),
    let l := Claims.enters s c
    ¬ (l = 1 ∧ Claims.handling s.hart.bank1 = true) →
      s.takeTrap c ev epc inblk e = { s with hart := { s.hart with
        bank0 := if l = 0 then Claims.saved s c ev epc inblk s.hart.bank0 else s.hart.bank0
        bank1 := if l = 1 then Claims.saved s c ev epc inblk s.hart.bank1 else s.hart.bank1
        vstart := e, startHeld := true, early := [], dbg := 0, level := l
        pc := if l = 0 then s.hart.bank0.tvec else (s.partAt s.hart.part).stvec
        vfret := if inblk then s.hart.pc &&& 0x01FFFFFFFFFFFFFC else s.hart.vfret
        queue := if inblk then s.hart.queue.map (fun b => if b.held = 0 then { b with held := 1 + l } else b) else s.hart.queue
        trapWait := none } }) ∧
  (∀ (s : State) (code : BitVec 12), s.hart.blocksDone = true →
    exec (.brk code) s = .next (s.takeTrap .brk (code.zeroExtend 64) s.hart.pc false 0) ∧
    (s.hart.level = 0 → exec (.trap code) s = .next (s.takeTrap .trap (code.zeroExtend 64) (s.hart.pc + 4) false 0))) ∧
  (∀ (s : State) (c : Cause) (ev epc : Word), s.hart.blocksDone = true → s.hart.trapWait = some (c, ev, epc) →
    exec .trapEntry s = .next (s.takeTrap c ev epc false 0))

/-- R184, R155, R215: a trap that would enter level 1 while its handler is active halts the hart instead, tells the host
both causes, and its farm is stopped: no register of the hart changes. -/
def Sys2Proof.Claims.SecondSupervisorTrapHalts : Prop :=
  ∀ (s : State) (c : Cause) (ev epc : Word) (inblk : Bool) (e : Nat),
    Claims.enters s c = 1 → Claims.handling s.hart.bank1 = true →
      let t := s.takeTrap c ev epc inblk e
      t.hart = { s.hart with status := .halted, trapWait := none, ending := t.hart.ending } ∧ t.mem = s.mem ∧
        ((s.partAt s.hart.part).hostQueue.length < 256 →
          (t.partAt s.hart.part).hostQueue = (s.partAt s.hart.part).hostQueue ++
            [{ kind := 2, hart := s.cur, cause := (s.hart.bank1.cause &&& 0xFF) ||| BitVec.ofNat 64 (256 * Claims.codeOf c), value := s.hart.bank1.eval, time := s.time }]) ∧
        ∀ g, Claims.farmOfHart s = some g → ∃ g', Claims.farmOfHart t = some g' ∧ g'.stopped = true ∧ (s.cur ∈ g.harts → t.hart.ending = true)

/-- Both statements: `Claims.TrapsSaveAndEnterHandler` and
`Claims.SecondSupervisorTrapHalts`.
Choices of the model: notes/assumptions/9 (registers that a partition shares), 19 (counting and stepping at a trap),
22 (VSTART while a handler runs). -/
def Obligations.TrapsEnterOrHalt : Prop :=
  Sys2Proof.Claims.TrapsSaveAndEnterHandler ∧ Sys2Proof.Claims.SecondSupervisorTrapHalts

/-- R185, R42, R43: a `TRET` of an active handler whose own blocks are done returns to the level that the trap left,
with `DBGCTL` as it was, at the saved address, or in the held block at that address; with no active handler it takes
ILLEGAL, and it waits for the handler's own blocks. -/
def Sys2Proof.Claims.TrapReturnRestores : Prop :=
  ∀ (s : State), s.hart.level ≤ 1 →
    let b := if s.hart.level = 0 then s.hart.bank0 else s.hart.bank1
    let b' := { b with estatus := b.estatus &&& ~~~8#64 }
    (Claims.handling b = false → s.deliverable = false → exec .tret s = Claims.faults s .illegal 0xF8000005) ∧
    (Claims.handling b = true → s.hart.blocksDone = false → exec .tret s = .next (Claims.waitsCtl s)) ∧
    (Claims.handling b = true → s.hart.blocksDone = true →
      ∃ t, exec .tret s = .next t ∧ t.hart.level = (b.estatus &&& 3).toNat ∧ t.hart.dbg = b.estatus.extractLsb' 6 2 ∧
        (s.hart.level = 0 → t.hart.bank0 = b' ∧ t.hart.bank1 = s.hart.bank1) ∧ (s.hart.level = 1 → t.hart.bank1 = b' ∧ t.hart.bank0 = s.hart.bank0) ∧
        t = { s with hart := { s.hart with
          bank0 := t.hart.bank0, bank1 := t.hart.bank1, dbg := t.hart.dbg, level := t.hart.level, retcount := s.hart.retcount + 1
          queue := t.hart.queue, startHeld := t.hart.startHeld, pc := t.hart.pc } } ∧
        (b.estatus.getLsbD 4 = false → t.hart.pc = b.epc ∧ t.hart.queue = s.hart.queue) ∧
        (b.estatus.getLsbD 4 = true → t.hart.pc = s.hart.vfret ∧
          ∀ k, s.hart.queue.find? (fun x => x.held == 1 + s.hart.level) = some k →
            t.hart.block = some { k with held := 0, pos := b.epc, convoy := 0 }))

/-- R216, R185, R333: at level 1 `TRAP` calls firmware: service 0 reads a lifetime counter, 1 stores 64 bytes of the
measurement log as a store of the hart does, 2 posts a notice to the partition's queue, and any other answers 2^63;
the result is in x1 and the hart goes on at the next word. -/
def Sys2Proof.Claims.FirmwareServicesAnswer : Prop :=
  ∀ (s : State) (i : Instr) (code : Nat), Claims.calls i code → s.hart.level = 1 → Claims.Readable [1, 2] s →
    let x1 := (s.hart.rd 1).toNat
    let next := s.hart.pc + 4
    (code = 0 → exec i s = .next (Claims.wrote s 1 (if x1 ≤ 15 then BitVec.ofNat 64 (s.telemetry.getD x1 0) else 0x8000000000000000) next)) ∧
    (code = 1 → s.log.length ≤ x1 → exec i s = .next (Claims.wrote s 1 0 next)) ∧
    (code = 1 → x1 < s.log.length → s.heldByDeposit (s.hart.rd 2) 64 = true → exec i s = .next (Claims.waitsCtl s)) ∧
    (∀ f, code = 1 → x1 < s.log.length → s.heldByDeposit (s.hart.rd 2) 64 = false → s.accessAt s.who (s.hart.rd 2) 64 0 .wr = .error f →
      exec i s = Claims.faults (s.tellFault s.hart.part s.cur f) f.cause f.eval) ∧
    (∀ e pas, code = 1 → s.log[x1]? = some e → s.heldByDeposit (s.hart.rd 2) 64 = false →
      s.accessAt s.who (s.hart.rd 2) 64 0 .wr = .ok pas → pas.Nodup → Memory.wf s.mem = true →
      let entry := fun (m : Nat → Byte) pa => ((pas.idxOf? pa).bind (fun j => (toBytes 64 e.toNat)[j]?)).getD (m pa)
      ∃ u, exec i s = .next (Claims.wrote u 1 (BitVec.ofNat 64 (s.log.length - x1 - 1)) next) ∧
        u = { s with delay := u.delay, mem := u.mem, scrub := u.scrub, poisoned := u.poisoned, healed := u.healed
                     rereads := u.rereads, hart := { s.hart with sbuf := u.hart.sbuf } } ∧
        (∀ pa, Claims.loaded u pa = entry (Claims.loaded s) pa) ∧
        ((∃ p, u.hart.sbuf = s.hart.sbuf ++ [p] ∧ p.pa = pas ∧ p.release = false ∧ ∀ pa, u.byteAt pa = s.byteAt pa) ∨
          (u.hart.sbuf = s.hart.sbuf ∧ ∀ pa, u.byteAt pa = entry s.byteAt pa)) ∧
        (Claims.Alone s pas → s.delay.headD false = false → u.hart.sbuf = s.hart.sbuf)) ∧
    (code = 2 → (s.partAt s.hart.part).hostQueue.length < 256 →
      ∃ u, exec i s = .next (Claims.wrote u 1 0 next) ∧ u = { s with parts := u.parts } ∧
        (u.partAt s.hart.part).hostQueue = (s.partAt s.hart.part).hostQueue ++
          [{ kind := 6, hart := s.cur, cause := 0, value := s.hart.rd 2, time := s.time }]) ∧
    (3 ≤ code → exec i s = .next (Claims.wrote s 1 0x8000000000000000 next))

/-- Both statements: `Claims.TrapReturnRestores` and
`Claims.FirmwareServicesAnswer`.
Choices of the model: notes/assumptions/20 (what an instruction waits for), 21 (firmware services), 22 (VSTART while a
handler runs), 24 (a younger write to a register that awaits an answer). -/
def Obligations.TrapReturnsAndFirmwareServices : Prop :=
  Sys2Proof.Claims.TrapReturnRestores ∧ Sys2Proof.Claims.FirmwareServicesAnswer

namespace Sys2Proof.Claims

/- Steps of the scheduler. -/

/-- The hart after its xd has taken the answer v of operation oid (R164): when it is still owed it. -/
def paid (h : Hart) (d : Reg) (oid : Nat) (v : Word) : Hart :=
  if (d, oid) ∈ h.pending then { h with x := h.x.set d.val v, pending := h.pending.filter (· != (d, oid)) } else h

/-- Operation o has left its engine with the answer v; no other operation has changed, and the registers that other
answers are owed to stand (R164). -/
structure Answered (s t : State) (o : Op) (v : Word) : Prop where
  ops : t.ops = s.ops.filter (fun q => q.oid != o.oid)
  x : (t.hartAt o.hart).x = (paid (s.hartAt o.hart) o.xd o.oid v).x
  pending : (t.hartAt o.hart).pending = (paid (s.hartAt o.hart) o.xd o.oid v).pending

end Sys2Proof.Claims

/-- R158, R322, R129: a `PSWAP` at level 1 with a length of 1 to 512 hands its image over, and a length outside
answers 2; a refused address takes its fault, and level 0 takes PRIV. The scheduler's service answers 1 with the first
instruction that fails a check, and otherwise 0, the image standing as the shadow copy, or as the active policy of a
partition with no event to decide; an image that it cannot read answers 2^63 | 0xFF and changes no policy.
Choices of the model: notes/assumptions/24 (a younger write to a register that awaits an answer), 40 (programs of rake
policies), 42 (sequences and policy images). -/
def Obligations.PswapStagesImage : Prop :=
  (∀ (s : State) (d a b : Reg),
    let addr := s.hart.rd a
    let n := (s.hart.rd b).toNat
    (∀ w, encode (.pswap d a b) = some w → s.hart.level = 0 → exec (.pswap d a b) s = Claims.faults s .priv (BitVec.ofNat 64 w.2)) ∧
    (s.hart.level ≠ 0 → Claims.Readable [a, b] s →
      (n < 1 ∨ 512 < n → exec (.pswap d a b) s = .next (Claims.wrote s d 2 (s.hart.pc + 4))) ∧
      (1 ≤ n → n ≤ 512 → s.heldByDeposit addr (2 * n) = false →
        (∀ e, s.accessAt s.who addr (2 * n) 64 .rd = .error e →
          exec (.pswap d a b) s = Claims.faults (s.tellFault s.hart.part s.cur e) e.cause e.eval) ∧
        (∀ pas, s.accessAt s.who addr (2 * n) 64 .rd = .ok pas → Claims.AccessesPerformed s →
          exec (.pswap d a b) s = .next (Claims.wentTo (Claims.handed s d (.pswap addr n)) (s.hart.pc + 4)))))) ∧
  (∀ (s : State) (o : Op) (a : Word) (n : Nat), s.ops.find? Op.unservedLaunch = some o → o.kind = .pswap a n →
    let y := (s.partAt o.part).policy
    let answers := fun (v : Word) (y' : Policy) => ∃ t, exec (.launchAcceptance o.oid) s = .next t ∧ Claims.Answered s t o v ∧
      (t.partAt o.part).policy = y' ∧ t.mem = s.mem
    (∀ e, s.accessAt ⟨o.part, o.tenant⟩ a (2 * n) 0 .rd = .error e → answers 0x80000000000000FF y) ∧
    (∀ pas, s.accessAt ⟨o.part, o.tenant⟩ a (2 * n) 0 .rd = .ok pas →
      let img := (List.range n).map (fun j => BitVec.ofNat 16 (ofBytes ((pas.drop (2 * j)).take 2 |>.map s.byteAt)))
      (∀ j, rakeCheck img = some j → answers (BitVec.ofNat 64 (1 + 65536 * j)) y) ∧
      (rakeCheck img = none → answers 0
        (if (s.partAt o.part).events = [] then { y with active := some img, shadow := none, count := 0, disabled := false }
          else { y with shadow := some img }))))

namespace Sys2Proof.Claims

/- Launching and placement. -/

/-- The fields of a launch sheet lie in their ranges and its reserved bytes are zero (R133, R134). -/
def launchOk (w : Nat) : Prop :=
  let b := sheetField w
  b 0 8 % 4 = 0 ∧ 1 ≤ b 16 2 ∧ b 16 2 ≤ b 18 2 ∧ b 18 2 ≤ 192 ∧ b 20 1 < 2 ∧ (b 20 1 = 1 → b 16 2 = b 18 2) ∧
    (b 21 1 ≤ 15 ∨ b 21 1 = 255) ∧ b 22 2 = 0 ∧ b 32 4 ≠ 0 ∧ b 36 4 = 0 ∧ b 48 8 % 8 = 0 ∧ b 56 8 = 0

/-- The farm that a sheet asks for in partition p (R133), under the number id. -/
def farmOfSheet (w p id : Nat) : Farm :=
  let b := sheetField w
  { part := p, id := id, entry := BitVec.ofNat 64 (b 0 8), arg := BitVec.ofNat 64 (b 8 8), batch := BitVec.ofNat 64 (b 40 8)
    hmin := b 16 2, hmax := b 18 2, gang := b 20 1 == 1, bin := if b 21 1 = 255 then none else some (b 21 1)
    trips := b 24 8, z := b 32 4, done := BitVec.ofNat 64 (b 48 8), stead := none, op := none }

/-- The reason for which partition p is refused a sheet of these bytes (R134); none when it is accepted. -/
def sheetRefusal (s : State) (p w : Nat) (reason : Option Nat) : Prop :=
  let most := (s.partAt p).record.hceil
  let room := sheetField w 16 2 ≤ most ∧ (sheetField w 20 1 = 1 → sheetField w 18 2 ≤ most)
  let full := 256 ≤ s.farms.countP (·.part == p)
  (¬ launchOk w ∧ reason = some 3) ∨ (launchOk w ∧ ¬ room ∧ reason = some 1) ∨ (launchOk w ∧ room ∧ full ∧ reason = some 2) ∨
    (launchOk w ∧ room ∧ ¬ full ∧ reason = none)

/-- A hart as placement leaves it (R135, R252): x1 and x2 hold the sheet's argument and batch, every other register is
as reset leaves it, and it holds the lowest free quad, or waits for one under the next number. -/
def newborn (s : State) (g : Farm) (st : Nat) : Hart :=
  let v := s.partAt g.part
  let quad := if s.quadsOf g.part st < v.budgetOn st then (s.freeQuads st).head? else none
  { Hart.reset with
    pc := g.entry, x := ((Vector.replicate 32 0).set 1 g.arg).set 2 g.batch, farm := g.id
    part := g.part, status := .running, grant := (quad.map (1#64 <<< ·)).getD 0
    needsReserved := if quad.isSome then none else some s.nextId, gangWait := g.gang }

/-- A further hart of farm g can be placed on stead st, that of the hart which launched it, in context h (R252). -/
structure Placeable (s : State) (g : Farm) (st h : Nat) : Prop where
  ceiling : s.running g.part < (s.partAt g.part).record.hceil
  home : g.stead = some st
  stead : st < s.caps.steads
  takes : s.canTake g.part st ((s.partAt g.part).budgetOn st) = true
  context : s.freeContext st = some h
  floors : s.floorsHold g.part = true

/-- No further hart of partition p can be placed, and none can gain it a quad (R140, R143, R252): as many harts of it
run as its ceiling allows, or it has budget but no stead can take a hart of it. -/
def NoPlace (s : State) (p : Nat) : Prop :=
  (s.partAt p).record.hceil ≤ s.running p ∨
    ((∃ st < s.caps.steads, (s.partAt p).budgetOn st ≠ 0) ∧ ∀ st < s.caps.steads, s.canTake p st ((s.partAt p).budgetOn st) = false)

/-- No more than hart contexts, farms, operations, partitions and the next number differ. -/
def OnlyScheduler (s t : State) : Prop :=
  t = { s with hart := t.hart, others := t.others, farms := t.farms, ops := t.ops, parts := t.parts, nextId := t.nextId }

end Sys2Proof.Claims

/-- R133 to R137, R253, R310: the scheduler reads the sheet of the oldest launch; it answers the reason of a refusal,
or queues the farm the sheet asks for under a number of its own, whose xd waits. A farm that can start places its
first hart, and one that may have a further hart places it, in the state of R135; a farm that no stead can take is
queued and its `LAUNCH` answered, and one that woken or yielded contexts come before waits. A farm whose harts have
all ended leaves, writes its completion word and posts RETIRE.
Choices of the model: notes/assumptions/16 (steps of the machine as constructors), 24 (a younger write to a register
that awaits an answer), 29 (the order in which farms and contexts are served). -/
def Obligations.LaunchesBecomeFarms : Prop :=
  (∀ (s : State) (o : Op) (sheet : Word) (pas : List Nat),
    s.ops.find? Op.unservedLaunch = some o → o.kind = .launch sheet → s.accessAt ⟨o.part, o.tenant⟩ sheet 64 0 .rd = .ok pas →
      let w := ofBytes (pas.map s.byteAt)
      (∀ reason, Claims.sheetRefusal s o.part w (some reason) → ∃ t, exec (.launchAcceptance o.oid) s = .next t ∧ Claims.OnlyScheduler s t ∧
        t.farms = s.farms ∧ Claims.Answered s t o (BitVec.ofNat 64 (2 ^ 63 + reason))) ∧
      (Claims.sheetRefusal s o.part w none →
        ∃ t id, exec (.launchAcceptance o.oid) s = .next t ∧ Claims.OnlyScheduler s t ∧ 1 ≤ id ∧ id ≤ 65535 ∧
          (∀ g ∈ s.farms, g.part = o.part → g.id ≠ id) ∧ t.farms = s.farms ++ [{ Claims.farmOfSheet w o.part id with stead := some (o.hart / 16), op := some o.oid }] ∧
          t.ops = s.ops.map (fun q => if q.oid == o.oid then { o with phase := 1 } else q) ∧ t.hart = s.hart ∧ t.others = s.others)) ∧
  (∀ (s : State) (p f : Nat) (g : Farm), s.farmAt p f = some g →
    (∀ o, g.started = false → g.stopped = false → g.gang = false → 1 ≤ g.hmin → Claims.NoPlace s p → g.op = some o.oid → s.opById o.oid = some o →
      ∃ t, exec (.farmStart p f) s = .next t ∧ Claims.OnlyScheduler s t ∧ Claims.Answered s t o (BitVec.ofNat 64 f) ∧
        t.farmAt p f = some { g with op := none }) ∧
    (∀ st h, (s.partAt p).order ≠ [] → g.started = false → g.stopped = false → g.gang = false → g.hmin = 1 → Claims.Placeable s g st h →
      exec (.farmStart p f) s = .next s) ∧
    (∀ st h, (s.partAt p).order = [] → g.started = false → g.stopped = false → g.gang = false → g.hmin = 1 → Claims.Placeable s g st h →
      ∃ t g', exec (.farmStart p f) s = .next t ∧ Claims.OnlyScheduler s t ∧ t.hartAt h = Claims.newborn s g st ∧ t.farmAt p f = some g' ∧
        g' = { g with started := true, harts := g.harts ++ [h], op := g'.op }) ∧
    (∀ st h, g.started = true → g.stopped = false → g.gang = false → g.harts ≠ [] → g.harts.length < g.hmax → g.z ≠ 0 →
      g.nextStrip * g.z < g.trips → Claims.Placeable s g st h →
        ∃ t, exec (.hartPlacement p f) s = .next t ∧ Claims.OnlyScheduler s t ∧ t.hartAt h = Claims.newborn s g st ∧
          t.farmAt p f = some { g with harts := g.harts ++ [h] } ∧ ∀ i, i ≠ h → t.hartAt i = s.hartAt i) ∧
    (∀ pas, (g.started = true ∨ g.stopped = true) → g.harts = [] → g.op = none → g.z ≠ 0 → Memory.wf s.mem = true → pas.Nodup →
      s.accessAt ⟨p, (s.partAt p).record.tenant⟩ g.done 8 0 .wr = .ok pas →
        let status := if g.stopped then 1 else if g.nextStrip * g.z < g.trips then 2 else 0
        ∃ t, exec (.completionWord p f) s = .next t ∧ t.farmAt p f = none ∧ t.hart = s.hart ∧ t.others = s.others ∧
          (∀ a, t.byteAt a = Claims.put s.byteAt pas (toBytes 8 (f + 2 ^ 32 * status)) a) ∧
          (t.partAt p).events = (s.partAt p).events ++ [{ kind := 5, f3 := f }]))

/-- R33, R139, R144, R188 to R191, R381: the scheduler reads the word of a sleeping hart after a write of it has
performed, and makes the hart runnable when the word differs or cannot be read; a
runnable context that may resume receives the lowest free quads it is owed and runs, at the next instruction when it
waited at a `WAIT` or `YIELD`; pre-emption takes a running hart's quads and keeps its registers, and a restore gives
quads back. Contexts stand in their partition's order as they became runnable.
Choices of the model: notes/assumptions/16 (steps of the machine as constructors), 18 (context images), 29 (the order
in which farms and contexts are served), 30 (time slices, waking and halting). -/
def Obligations.ContextsWakeAndResume : Prop :=
  ∀ (s : State) (h : Nat),
    let v := s.hartAt h
    let order := fun (t : State) => (t.partAt v.part).order
    let word := fun (pas : List Nat) => BitVec.ofNat 64 (ofBytes (pas.map s.byteAt))
    let granted := quadMask ((s.freeQuads (h / 16)).take v.owed)
    let told := { s with rereads := s.rereads.filter (· != h) }
    (v.status = .sleeping →
      (h ∉ s.rereads → exec (.wakeRead h) s = .next s) ∧
      (∀ pas, h ∈ s.rereads → s.accessAt ⟨v.part, s.tenantOf v.part⟩ v.sleepAddr 8 8 .rd = .ok pas →
        (word pas = v.sleepCmp → exec (.wakeRead h) s = .next told) ∧
        (word pas ≠ v.sleepCmp →
          ∃ t, exec (.wakeRead h) s = .next t ∧ Claims.OnlyScheduler told t ∧
            t.hartAt h = { v with status := .runnable, resumeNext := true, since := s.nextId } ∧
            order t = order s ++ [h] ∧ ∀ i, i ≠ h → t.hartAt i = s.hartAt i)) ∧
      (∀ e, h ∈ s.rereads → s.accessAt ⟨v.part, s.tenantOf v.part⟩ v.sleepAddr 8 8 .rd = .error e →
        ∃ t, exec (.wakeRead h) s = .next t ∧ Claims.OnlyScheduler told t ∧
          t.hartAt h = { v with status := .runnable, resumeNext := false, since := s.nextId } ∧ order t = order s ++ [h])) ∧
    (s.mayResume h = true → v.preempted = false → v.needsReserved = none → v.dbg.getLsbD 0 = false →
      ∃ t, exec (.hartDispatch h) s = .next t ∧ Claims.OnlyScheduler s t ∧
        t.hartAt h = { v with status := .running, grant := granted, owed := 0, sinceDispatch := 0, resumeNext := false
                              pc := if v.resumeNext then v.pc + 4 else v.pc, retcount := if v.resumeNext then v.retcount + 1 else v.retcount
                              gangWait := (t.hartAt h).gangWait } ∧
        order t = (order s).filter (· != h) ∧
        ∀ i, i ≠ h → t.hartAt i = { s.hartAt i with grant := (t.hartAt i).grant, needsReserved := (t.hartAt i).needsReserved
                                                    gangWait := (t.hartAt i).gangWait }) ∧
    (v.asked = true → v.status = .running → v.needsReserved = none → v.ending = false → v.vq = [] → (∀ z : ZIx, v.z[z.val].sentFrom = []) →
      (v.block = none ∨ v.vstart = 0 ∨ v.startHeld = true) →
      (∀ d ∈ ((s.stopHart h).parkHart h).debts, d.hart ≠ h) →
        ∃ t, exec (.preEmption h) s = .next t ∧ order t = order s ++ [h] ∧
          let w := t.hartAt h
          w = { v with status := .runnable, grant := 0, owed := (quadList v.grant).length, preempted := true, asked := false, resumeNext := false
                       early := [], queue := v.queue.map (fun b => { b with checked := false }), owedX := v.pending.map (·.1)
                       since := w.since, gangWait := w.gangWait, z := w.z, events := w.events, lost := w.lost, ctlStall := w.ctlStall, seqStall := w.seqStall }) ∧
    (v.preempted = true → v.resumeNext = false → v.needsReserved = none → s.mayResume h = true →
        ∃ t, exec (.restore h) s = .next t ∧ order t = (order s).filter (· != h) ∧
          let w := t.hartAt h
          w = { v with status := .running, grant := granted, owed := 0, sinceDispatch := 0, preempted := false, owedX := []
                       gangWait := w.gangWait })

namespace Sys2Proof.Claims

/- Decisions. -/

/-- A rake instruction with these fields (R153). -/
def rakeWord (op ad low : Nat) : BitVec 16 := BitVec.ofNat 16 (2 ^ 11 * op + 2 ^ 8 * ad + low)

/-- The rake instruction goes on at the next one. -/
def rakePlain (op : Nat) : Prop := 1 ≤ op ∧ op ≤ 0x18 ∧ op ≠ 0x13 ∧ op ≠ 0x14

/-- The effect of a rake instruction that goes on at the next one, by its row of R153; none where it makes the decision
invalid (R155). -/
def rakeRow (sn : Snapshot) (r : Rake) (op ad low : Nat) : Option Rake :=
  let a := fun i => r.a.getD i 0
  let x := a (low / 32 % 8)
  let y := a (low / 4 % 8)
  let put := fun (v : BitVec 32) => some { r with a := r.a.set ad v }
  match op with
  | 0x01 => put (BitVec.ofNat 32 low)
  | 0x02 => put (a ad + BitVec.ofInt 32 (asSigned 8 low))
  | 0x03 => put (BitVec.ofNat 32 ((a ad).toNat * 2 ^ (low % 32)))
  | 0x04 => put (BitVec.ofNat 32 ((a ad).toNat / 2 ^ (low % 32)))
  | 0x05 => put (x + y)
  | 0x06 => put (x - y)
  | 0x07 => put (x &&& y)
  | 0x08 => put (x ||| y)
  | 0x09 => put (x ^^^ y)
  | 0x0A => put (BitVec.ofNat 32 (min x.toNat y.toNat))
  | 0x0B => put (BitVec.ofNat 32 (max x.toNat y.toNat))
  | 0x0C => put (BitVec.ofNat 32 (sn.event.getD (low % 8) 0))
  | 0x0D => put (BitVec.ofNat 32 (((sn.queues[x.toNat]?).getD []).getD (low / 4 % 8) 0))
  | 0x0E => put (BitVec.ofNat 32 (sn.part.getD (low % 8) 0))
  | 0x0F => put (r.m.getD (low % 16) 0)
  | 0x10 => some { r with m := r.m.set (low % 16) (a ad) }
  | 0x11 => some { r with eq := decide (x = y), lt := decide (x.toNat < y.toNat) }
  | 0x12 => some { r with eq := decide (x = y), lt := decide (x.toInt < y.toInt) }
  | 0x15 => some { r with pick := some (a ad).toNat }
  | 0x16 => some { r with victim := some (a ad).toNat }
  | 0x17 => some { r with act := some (low % 8) }
  | _ =>
    if sn.queues.length ≤ x.toNat then none
    else some { r with credit := r.credit.set x.toNat (r.credit.getD x.toNat 0 - y) }

/-- The effects of the instructions of a list, one behind the other. -/
def rakeRows (sn : Snapshot) (ws : List (Nat × Nat × Nat)) (r : Rake) : Option Rake :=
  ws.foldlM (fun r w => rakeRow sn r w.1 w.2.1 w.2.2) r

/-- The bins' reads succeed, and the scheduler keeps the head of each (R383). -/
def BinsKnown (s : State) (p : Nat) : Prop :=
  ∀ i < (s.partAt p).record.nq, (s.binAt p i).posted = false ∧ ∃ b, s.binView p i = .ok b ∧ (s.binAt p i).head = some b.head

/-- The outputs of a decision match its event (R155), or hand it to the fall-back policy. -/
def OutputsMatch (s : State) (p : Nat) (e : PolEvent) (sn : Snapshot) (r : Rake) : Prop :=
  r.act = some 0 ∨
    (r.pick ≠ none → e.kind = 1) ∧ (r.victim ≠ none → e.kind = 2) ∧ (r.act ≠ none → e.kind = 3 ∨ e.kind = 4) ∧
      (∀ b, r.pick = some b → 0 < ((sn.queues[b]?).getD []).getD 0 0) ∧ (∀ h, r.victim = some h → h ∈ s.runningList p) ∧
      ∀ a, r.act = some a → a ≤ if e.kind = 3 then 4 else 2

/-- The state in which event e has left the queue of partition p and its policy is y. -/
def decided (s : State) (p : Nat) (es : List PolEvent) (y : Policy) : State :=
  s.setPartAt p { s.partAt p with events := es, policy := y }

/-- The state in which the event has left the queue and what the decision r wrote to m-words and credits stands (R152,
R153). -/
def Keeps (s : State) (p : Nat) (es : List PolEvent) (r : Rake) (u : State) : Prop :=
  let v := s.partAt p
  ∃ bins, u = s.setPartAt p { v with events := es, policy := { v.policy with m := r.m }, bins := bins } ∧
    ∀ i < v.record.nq, i < 16 → u.binAt p i = { s.binAt p i with credit := r.credit.getD i 0 }

/-- What the fall-back policy does to event e in the state u (R157): of a PREEMPT, the running context of greatest
charge since its dispatch is asked to stop for a waiting one of smaller charge; QUOTA, another FAULT but POISON, ADMIT
and RETIRE change nothing. -/
def FallsBack (s u : State) (p : Nat) (e : PolEvent) : Prop :=
  (e.kind = 4 ∨ e.kind = 5 ∨ (e.kind = 3 ∧ e.cause ≠ 16) → exec (.decision p) s = .next u) ∧
  (e.kind = 2 →
    let most := fun h => h ∈ s.runningList p ∧ (∀ i ∈ s.runningList p, (s.hartAt i).sinceDispatch ≤ (s.hartAt h).sinceDispatch) ∧
      ∀ i ∈ s.runningList p, i < h → (s.hartAt i).sinceDispatch < (s.hartAt h).sinceDispatch
    let gives := fun h => e.f3 ∈ (s.partAt p).order ∧ (s.hartAt e.f3).lanecyc < (s.hartAt h).lanecyc
    (∀ h, most h → ¬ gives h → exec (.decision p) s = .next u) ∧
    (∀ h, most h → gives h → (∀ g, s.farmAt p (s.hartAt h).farm = some g → g.gang = false) →
      exec (.decision p) s = .next (u.setHartAt h { s.hartAt h with asked := true })))

/-- The head entry of bin b has been launched from the state u (R147, R383): the farm of its sheet with the entry's
batch is queued, or is refused; the head of the bin is one more, and the scheduler owes the reason of a refusal, the
cleared ready word and the header's head, in this order. -/
def EntryLaunched (u t : State) (p b : Nat) (w : BinView) : Prop :=
  let a := w.array + BitVec.ofNat 64 (64 * (w.head % w.cap))
  let sheet := BitVec.ofNat 64 (sheetField w.entry 8 8)
  let next := (w.head + 1) % 2 ^ 64
  let found := u.accessAt ⟨p, (u.partAt p).record.tenant⟩ sheet 64 64 .rd
  let owes := fun n f => [{ id := n, part := p, farm := f, addr := a, bytes := toBytes 8 0 },
    ({ id := n + 1, part := p, farm := f, head := some b, bytes := toBytes 8 next } : OwedWrite)]
  let refused := fun (why : Nat) => t.farms = u.farms ∧
    t.schedWrites = u.schedWrites ++ { id := u.nextId, part := p, farm := 0, addr := a + 32, bytes := toBytes 1 why } :: owes (u.nextId + 1) 0
  t.mem = u.mem ∧ (t.binAt p b).head = some next ∧
  (∀ e, found = .error e → refused 3) ∧
  ∀ pas, found = .ok pas →
    let bytes := ofBytes (pas.map u.byteAt)
    (∀ why, sheetRefusal u p bytes (some why) → refused why) ∧
    (sheetRefusal u p bytes none →
      ∃ id, 1 ≤ id ∧ id ≤ 65535 ∧ (∀ g ∈ u.farms, g.part = p → g.id ≠ id) ∧
        t.farms = u.farms ++ [{ farmOfSheet bytes p id with batch := BitVec.ofNat 64 (sheetField w.entry 16 8), fromBin := some b }] ∧
        t.schedWrites = u.schedWrites ++ owes u.nextId id)

end Sys2Proof.Claims

/-- R140, R144, R151: while contexts of a partition wait and none can resume, time slices run; the end of one posts
PREEMPT with the running context of greatest charge since its dispatch and the waiting one of least charge. -/
def Sys2Proof.Claims.SlicesPostPreempt : Prop :=
  ∀ (s : State) (p : Nat),
    let v := s.partAt p
    (s.oversubscribed p = false → exec (.sliceEnd p) s = .next (s.setPartAt p { v with sliceStart := none })) ∧
    (s.oversubscribed p = true → v.sliceStart = none → exec (.sliceEnd p) s = .next (s.setPartAt p { v with sliceStart := some s.clk })) ∧
    (∀ t0, s.oversubscribed p = true → v.sliceStart = some t0 →
      (s.clk < t0 + 3600 * v.record.slice → exec (.sliceEnd p) s = .next s) ∧
      (t0 + 3600 * v.record.slice ≤ s.clk →
        ∃ e, exec (.sliceEnd p) s = .next (s.setPartAt p { v with sliceStart := some s.clk, events := v.events ++ [e] }) ∧ e.kind = 2 ∧
          (∀ h ∈ s.runningList p, e.f2 ∈ s.runningList p ∧ (s.hartAt h).sinceDispatch ≤ (s.hartAt e.f2).sinceDispatch) ∧
          e.f3 ∈ v.order ∧ ∀ h ∈ v.order, (s.hartAt e.f3).lanecyc ≤ (s.hartAt h).lanecyc))

/-- R153, R154, R156: what a run of a policy image does at an instruction: `DONE` ends it; a row of R153 has its effect;
a branch goes forward when its condition holds; `LOOPQ` runs a body of such rows once for each bin, with the bin's
number in its register; and a run that has executed 256 instructions, or that passes the last one, has no result. -/
def Sys2Proof.Claims.RakeImagesRun : Prop :=
  ∀ (sn : Snapshot) (img : List (BitVec 16)) (n : Nat) (r : Rake), r.loop = none →
    let on := fun (m : Nat) (q : Rake) (pc : Nat) => Rake.run sn img m { q with pc := pc }
    Rake.run sn img 0 r = none ∧ (img.length ≤ r.pc → Rake.run sn img n r = none) ∧
    ∀ op ad low, op < 32 → ad < 8 → low < 256 → img[r.pc]? = some (Claims.rakeWord op ad low) →
      (op = 0 → Rake.run sn img (n + 1) r = some r) ∧
      (Claims.rakePlain op → Rake.run sn img (n + 1) r = (Claims.rakeRow sn r op ad low).bind (fun q => on n q (r.pc + 1))) ∧
      (op = 0x13 → Rake.run sn img (n + 1) r = on n r (r.pc + 1 +
        if ad = 0 ∨ (ad = 1 ∧ r.eq = true) ∨ (ad = 2 ∧ r.eq = false) ∨ (ad = 3 ∧ r.lt = true) ∨ (4 ≤ ad ∧ r.lt = false) then low else 0)) ∧
      (∀ body, op = 0x14 → body.length = low →
        (∀ i w, body[i]? = some w → Claims.rakePlain w.1 ∧ w.2.1 < 8 ∧ w.2.2 < 256 ∧ img[r.pc + 1 + i]? = some (Claims.rakeWord w.1 w.2.1 w.2.2)) →
          Rake.run sn img (n + 1 + sn.queues.length * low) r =
            ((List.range sn.queues.length).foldlM (fun (r : Rake) q => Claims.rakeRows sn body { r with a := r.a.set ad (BitVec.ofNat 32 q) }) r).bind
              (fun q => on n q (r.pc + 1 + low)))

/-- R151 to R157, R147, R383: a decision takes the oldest event. A policy that is disabled leaves it to the fall-back
policy. An image runs on a snapshot with its registers zero: a run without a result, or whose outputs do not match the
event, is an overrun, which counts, disables the policy at the 16th and leaves the event to the fall-back policy and
every m-word and credit as it was; otherwise its m-words and credits stand, and its outputs take effect. With no
event, a free hart and a ready bin, DISPATCH is decided, and the head entry of the bin picked is launched. -/
def Sys2Proof.Claims.DecisionsTakeEffect : Prop :=
  ∀ (s : State) (p : Nat),
    let v := s.partAt p
    let y := v.policy
    v.exists_ = true → v.record.nq ≤ 16 → Claims.BinsKnown s p → y.shadow = none →
    (∀ e es, v.events = e :: es → y.disabled = true ∨ y.active = none → Claims.FallsBack s (Claims.decided s p es y) p e) ∧
    (∀ e es img, v.events = e :: es → 2 ≤ e.kind → e.kind ≤ 5 → y.disabled = false → y.active = some img →
      let sn := s.snapshot p e
      let run := Rake.run sn img 256 { m := y.m, credit := (List.range 16).map (fun i => (s.binAt p i).credit) }
      ((∀ r, run = some r → ¬ Claims.OutputsMatch s p e sn r) → Claims.FallsBack s (Claims.decided s p es { y with
        count := min (y.count + 1) 16, total := min (y.total + 1) (2 ^ 32 - 1), disabled := decide (16 ≤ y.count + 1) }) p e) ∧
      ∀ r, run = some r → Claims.OutputsMatch s p e sn r → ∃ u, Claims.Keeps s p es r u ∧
        (r.act = some 0 → Claims.FallsBack s u p e) ∧
        (r.act ≠ some 0 → e.kind ≠ 3 → r.victim = none → exec (.decision p) s = .next u) ∧
        (∀ h, r.act ≠ some 0 → r.victim = some h → (∀ g, s.farmAt p (s.hartAt h).farm = some g → g.gang = false) →
          exec (.decision p) s = .next (u.setHartAt h { s.hartAt h with asked := true })) ∧
        (e.kind = 3 →
          (r.act = none → Claims.FallsBack s u p e) ∧
          (r.act = some 1 → exec (.decision p) s = .next u) ∧
          (r.act = some 2 → ∃ t, exec (.decision p) s = .next t ∧ (t.partAt p).seqs = v.seqs.filter (·.id != e.f4)) ∧
          (∀ g, r.act = some 3 → s.farmAt p e.f3 = some g →
            ∃ t, exec (.decision p) s = .next t ∧ t.farmAt p e.f3 = some { g with stopped := true } ∧
              ∀ h ∈ g.harts, t.hartAt h = { s.hartAt h with ending := true }) ∧
          (r.act = some 4 → e.cause ≠ 16 → exec (.decision p) s = .next u))) ∧
    (∀ d, v.events = [] → s.dispatchable p = some d → v.idleAt ≠ some d →
      let e : PolEvent := { kind := 1, f2 := d.1 }
      let sn := s.snapshot p e
      let ready := fun b => 0 < ((sn.queues[b]?).getD []).getD 0 0
      let age := fun b => ((sn.queues[b]?).getD []).getD 3 0
      let launches := fun u b => ∀ w, s.binView p b = .ok w → ∃ t, exec (.decision p) s = .next t ∧ Claims.EntryLaunched u t p b w
      (∀ b, y.disabled = true ∨ y.active = none → ready b → (∀ i, ready i → age i ≤ age b ∧ (i < b → age i < age b)) → launches s b) ∧
      (∀ img r, y.disabled = false → y.active = some img →
        Rake.run sn img 256 { m := y.m, credit := (List.range 16).map (fun i => (s.binAt p i).credit) } = some r →
        Claims.OutputsMatch s p e sn r → r.act ≠ some 0 → ∃ u, Claims.Keeps s p [] r u ∧
          (r.pick = none → ∃ idle, exec (.decision p) s = .next (u.setPartAt p { u.partAt p with idleAt := idle })) ∧
          ∀ b, r.pick = some b → launches u b))

/-- R147, R383: a write that the scheduler owes performs in a step of its own once it is the oldest of its partition:
the reason of a refusal, a cleared ready word, or a header's head. No byte but its own changes. -/
def Sys2Proof.Claims.OwedWritesPerform : Prop :=
  ∀ (s : State) (before after : List OwedWrite) (w : OwedWrite) (pas : List Nat),
    s.schedWrites = before ++ w :: after → (∀ x ∈ before, x.part ≠ w.part) → (∀ x ∈ before ++ after, x.id ≠ w.id) →
    s.opById w.id = none → (∀ j ∈ s.jobs, ∀ t ∈ j.streams, t.id ≠ w.id) → (∀ h ∈ s.held, h.id ≠ w.id) → Memory.wf s.mem = true → pas.Nodup →
      let v := s.partAt w.part
      let u := s.engineStep w.id
      let performs := u.schedWrites = before ++ after ∧ u.hart = s.hart ∧ u.others = s.others ∧ u.parts = s.parts ∧
        ∀ x, u.byteAt x = Claims.put s.byteAt pas w.bytes x
      (w.head = none → s.accessAt ⟨w.part, v.record.tenant⟩ w.addr w.bytes.length 0 .wr = .ok pas → performs) ∧
      ∀ b pa, w.head = some b → s.translate w.part .wr (BitVec.ofNat 64 (v.record.bins + 64 * b) + 24).toNat = .ok pa →
        pas = (List.range 8).map (pa + ·) → s.meetsPoison pas true = [] → w.bytes.length = 8 → performs

/-- R70: when `CLKCOUNT` becomes a multiple of `NWIN`, the counts of a hart's classes become zero. -/
def Sys2Proof.Claims.WindowsReset : Prop :=
  ∀ (s : State) (h : Nat),
    let v := s.hartAt h
    v.nwin ≠ 0 → s.sclk.getD (h / 16) 0 / 36 % v.nwin.toNat = 0 → s.sclkWas.getD (h / 16) 0 / 36 ≠ s.sclk.getD (h / 16) 0 / 36 →
      exec (.windowReset h) s = .next (s.setHartAt h { v with ncnt := Vector.replicate 6 0 })

/-- The five statements: `Claims.SlicesPostPreempt`, `Claims.RakeImagesRun`, `Claims.DecisionsTakeEffect`,
`Claims.OwedWritesPerform` and `Claims.WindowsReset`.
Choices of the model: notes/assumptions/5 (clocks of a step and the number of a free value), 16 (steps of the machine
as constructors), 30 (time slices, waking and halting), 40 (programs of rake policies), 41 (policy events). -/
def Obligations.SlicesAndDecisionsArePosted : Prop :=
  Sys2Proof.Claims.SlicesPostPreempt ∧ Sys2Proof.Claims.RakeImagesRun ∧ Sys2Proof.Claims.DecisionsTakeEffect ∧
    Sys2Proof.Claims.OwedWritesPerform ∧ Sys2Proof.Claims.WindowsReset

namespace Sys2Proof.Claims

/- Steps of the Gleaner. -/

/-- A line with the 64 bytes d that a fetch brought: those that the stead has stored since stay (R87). -/
structure Filled (l l' : Line) (d : BitVec 512) : Prop where
  status : l'.status = .arrived
  bytes : ∀ i < 64, l'.data.extractLsb' (8 * i) 8 = if l.stored.getLsbD i then l.data.extractLsb' (8 * i) 8 else d.extractLsb' (8 * i) 8
  rest : l' = { l with status := l'.status, data := l'.data }

/-- No more than lines and fetches differ. -/
def OnlyLoft (s t : State) : Prop := t = { s with lines := t.lines, fetches := t.fetches }

/-- Offsets in a line of the bytes that a mask names, ascending. -/
def masked (m : BitVec 64) : List Nat := (List.range 64).filter m.getLsbD

end Sys2Proof.Claims

/-- R83, R87, R89, R94, R96, R98, R128, R202, R250, R251: a harvest order that is taken up gives every window it names
a place in the stead's directory, fetching the lines it makes when the mode fetches; the oldest fetch that may read
reads its line's bytes, or the element that its sheaf gathers, in one step, or its failure; what it brought fills the
line that waits for it on its own stead, and on each further stead of a multicast in turn, and a failed fetch leaves
the line failed.
Choices of the model: notes/assumptions/4 (bookkeeping fields that the spec does not name), 16 (steps of the machine
as constructors), 32 (names of loft lines and failed fetches). -/
def Obligations.OrdersFetchAndFillLines : Prop :=
  (∀ (s : State) (sid : Nat) (sh : Sheaf) (o : Order) (os : List Order),
    s.sheafById sid = some sh → sh.orders = o :: os → o.taken = false →
      (o.final = true → exec (.harvestOrder sid) s = .next (s.setSheaf { sh with orders := { o with taken := true } :: os })) ∧
      (o.final = false → sh.desc.tab = false → o.also = [] →
        ∃ t sh', exec (.harvestOrder sid) s = .next t ∧ t.sheafById sid = some sh' ∧ (sh'.orders.map (·.taken)).head? = some true ∧
          t = { s with sheaves := t.sheaves, lines := t.lines, fetches := t.fetches, nextId := t.nextId } ∧
          ∀ k ∈ sh.desc.vectors o.counters, ∃ w ∈ sh'.windows, w.kvec = k ∧
            ∀ key ∈ sh.windowKeys w, ∃ l, t.lineAt sh.stead key = some l ∧ sid ∈ l.holders ∧
              (s.lineAt sh.stead key = none → l.status = if sh.desc.mode.fetches then .inflight else .zero) ∧
              (s.lineAt sh.stead key = none → sh.saved = [] → l.data = 0) ∧
              (s.lineAt sh.stead key = none → sh.desc.mode.fetches = true →
                ∃ f ∈ t.fetches, f.fid = l.fid ∧ f.stead = sh.stead ∧ f.key = key ∧ f.got = none ∧ f.failed = none))) ∧
  (∀ (s : State) (st : Nat) (f : Fetch),
    let who : Who := ⟨f.part, s.tenantOf f.part⟩
    let off := f.addr.toNat % 2 ^ 48
    let becomes := fun (g : Fetch) (t : State) => t = { s with fetches := s.fetches.map (fun x => if x.fid == f.fid then g else x) }
    let fails := fun (c : Cause) => ∃ t, exec (.gleanerFetch st) s = .next t ∧
      t.fetches = s.fetches.map (fun x => if x.fid == f.fid then { f with failed := some c } else x) ∧ t.mem = s.mem ∧ t.hart = s.hart
    s.fetches.find? (fun f => f.stead == st && s.mayFetch f) = some f →
      (¬ Claims.gathered f.key →
        (∀ r pas, s.regionFor who true f.addr 1 .rd = some r → s.placeSpan f.part r .rd off f.addr (min 64 (r.length - off)) = .ok pas →
          (s.meetsPoison pas false = [] →
            ∃ t, exec (.gleanerFetch st) s = .next t ∧ becomes { f with got := some (BitVec.ofNat 512 (ofBytes (pas.map s.byteAt))) } t) ∧
          (s.meetsPoison pas false ≠ [] → fails .poison)) ∧
        (s.regionFor who true f.addr 1 .rd = none → fails .xfault)) ∧
      (∀ sid bit sh, f.key = .gath sid bit → s.sheafById f.sid = some sh →
        let w := sh.desc.fmt.width
        let found := s.accessAt who (BitVec.ofNat 64 (bit / 8)) ((w + 7) / 8) 0 .rd
        (∀ pas, found = .ok pas → ∃ t, exec (.gleanerFetch st) s = .next t ∧
          becomes { f with got := some (BitVec.ofNat 512 (ofBytes (pas.map s.byteAt) % 2 ^ w)) } t) ∧
        (∀ e, found = .error e → fails (if e.cause = .poison then .poison else .xfault)))) ∧
  (∀ (s : State) (fid : Nat) (f : Fetch) (l : Line), s.fetches.find? (fun f => f.fid == fid && !f.arrived) = some f →
    (f.cast = true → ∀ g ∈ s.fetches, g.sid = f.sid → g.cast = true → g.fid < f.fid → g.arrived = true) →
    s.lineAt f.stead f.key = some l → l.fid = fid → l.status = .inflight →
      let line := fun (t : State) => t.lineAt f.stead f.key
      (∀ d r, f.got = some d →
        ∃ t l', exec (.lineArrival fid r) s = .next t ∧ Claims.OnlyLoft s t ∧ line t = some l' ∧ Claims.Filled l l' d) ∧
      (∀ c r, f.got = none → f.failed = some c →
        ∃ t, exec (.lineArrival fid r) s = .next t ∧ Claims.OnlyLoft s t ∧ line t = some { l with status := .failed c }) ∧
      (∀ bs, f.got = none → f.failed = none → f.key.isRemote = true →
        ∃ t l', exec (.lineArrival fid (some (.bytes bs))) s = .next t ∧ Claims.OnlyLoft s t ∧ line t = some l' ∧
          Claims.Filled l l' (BitVec.ofNat 512 (ofBytes (bs.take 64)))) ∧
      (f.got = none → f.failed = none → f.key.isRemote = true →
        ∃ t, exec (.lineArrival fid (some .failed)) s = .next t ∧ Claims.OnlyLoft s t ∧ line t = some { l with status := .failed .xfault })) ∧
  (∀ (s : State) (fid st : Nat) (sts : List Nat) (f : Fetch) (l : Line) (d : BitVec 512),
    s.fetches.find? (fun f => f.fid == fid && !f.unread) = some f → f.multicast = st :: sts → f.got = some d →
    (∀ g ∈ s.fetches, g.sid = f.sid → g.fid < fid → st ∉ g.multicast) →
    s.lineAt st f.key = some l → l.fid = fid → l.status = .inflight →
      ∃ t l', exec (.multicastFill fid) s = .next t ∧ Claims.OnlyLoft s t ∧ t.lineAt st f.key = some l' ∧ Claims.Filled l l' d ∧
        ∀ g ∈ t.fetches, g.fid = fid → g.multicast = sts)

namespace Sys2Proof.Claims

/-- The lines that a write-back writes to: its own and those that an element of it reaches into, each with its far
address, its bytes and its mask (R89, R91). -/
def entries (d : Debt) (data : BitVec 512) (mask : BitVec 64) : List (Word × BitVec 512 × BitVec 64) :=
  (d.addr, data, mask) :: d.spill.map (fun p => (p.addr, p.data, p.mask))

/-- Offset o of line e stands at pa o, for every offset that its mask names, and no poisoned line is met: the bytes from
the first such offset to the last are placed through one region and both stages (R96, R104). -/
def StandsAt (s : State) (who : Who) (e : Word × BitVec 512 × BitVec 64) (pa : Nat → Nat) : Prop :=
  let offs := masked e.2.2
  let first := offs.head?.getD 0
  let n := offs.getLast?.getD 0 + 1 - first
  let a := e.1 + BitVec.ofNat 64 first
  ∃ r pas, s.regionFor who true a n .wr = some r ∧ s.placeSpan who.part r .wr (a.toNat % 2 ^ 48) a n = .ok pas ∧
    (∀ o ∈ offs, pa o = pas.getD (o - first) 0) ∧ s.meetsPoison (offs.map pa) false = []

end Sys2Proof.Claims

/-- R81, R83, R86, R87, R89 to R91, R128, R261: an order that releases lets go of the lines its windows do not name;
the last order of a sheaf issues what its lines owe and ends the sheaf. A write-back stores exactly the dirty bytes of
its lines, in one step, and that of an element which the sheaf gathers at its place; a fold adds its
value to one element in one step, in two's complement or rounded to nearest even; neither touches another byte, and
both leave the return queue.
Choices of the model: notes/assumptions/16 (steps of the machine as constructors), 23 (folds of later strips), 36
(debts of the return queue). -/
def Obligations.ReleasesPayTheirDebts : Prop :=
  (∀ (s : State) (sid : Nat) (sh : Sheaf) (o : Order) (os : List Order),
    s.sheafById sid = some sh → sh.orders = o :: os → o.taken = true → s.orderFree sh o = true →
      (o.final = true →
        ∃ t, exec (.lineRelease sid) s = .next t ∧ t.sheafById sid = none ∧ t.mem = s.mem ∧ t.hart = s.hart ∧
          (∀ l ∈ t.lines, l.stead = sh.stead → sid ∉ l.holders) ∧ (∀ d ∈ s.debts, d ∈ t.debts) ∧
          ∀ key l, s.lineAt sh.stead key = some l → sid ∈ l.holders → l.dead = false →
            (sh.desc.mode = .out ∨ sh.desc.mode = .inout → ¬ Claims.gathered key → ∀ j < 64, l.dirty.getLsbD j = true →
              ∃ d ∈ t.debts, d.sid = sid ∧ Claims.owesByte d key j (Claims.lineByte l.data j)) ∧
            (sh.desc.mode.folds = true ∨ (sh.desc.mode = .out ∨ sh.desc.mode = .inout) ∧ Claims.gathered key → ∀ off ∈ l.touched,
              ∃ d ∈ t.debts, d.key = key ∧ d.sid = sid ∧ Claims.owesElement sh l off d)) ∧
      (o.final = false →
        ∃ t sh', exec (.lineRelease sid) s = .next t ∧ t.sheafById sid = some sh' ∧ sh' = { sh with orders := os, windows := sh.windows.take o.wins } ∧
          t.mem = s.mem ∧ t.hart = s.hart ∧ ∀ l ∈ t.lines, l.stead = sh.stead → sid ∈ l.holders → ∃ w ∈ sh'.windows, l.key ∈ sh.windowKeys w)) ∧
  (∀ (s : State) (did : Nat) (d : Debt) (data : BitVec 512) (mask : BitVec 64) (pa : Word × BitVec 512 × BitVec 64 → Nat → Nat),
    let es := Claims.entries d data mask
    s.debts.find? (·.did == did) = some d → s.mayPerform d = true → d.kind = .write data mask → d.key.isRemote = false → d.dead = false →
    (∀ e ∈ es, Claims.StandsAt s ⟨d.part, s.tenantOf d.part⟩ e (pa e)) → Memory.wf s.mem = true →
    (∀ e ∈ es, ∀ e' ∈ es, ∀ o ∈ Claims.masked e.2.2, ∀ o' ∈ Claims.masked e'.2.2, pa e o = pa e' o' → e = e' ∧ o = o') →
      ∃ t, exec (.gleanerWriteBack did) s = .next t ∧ t.debts = s.debts.filter (·.did != did) ∧ t.hart = s.hart ∧ t.others = s.others ∧
        (∀ e ∈ es, ∀ o ∈ Claims.masked e.2.2, t.byteAt (pa e o) = Claims.lineByte e.2.1 o) ∧
        ∀ x, (∀ e ∈ es, ∀ o ∈ Claims.masked e.2.2, pa e o ≠ x) → t.byteAt x = s.byteAt x) ∧
  (∀ (s : State) (did : Nat) (d : Debt) (f : Fmt) (els : List (Nat × Nat)) (pl : Nat → List Nat),
    s.debts.find? (·.did == did) = some d → s.mayPerform d = true → d.kind = .scatter f els → d.key.isRemote = false → d.dead = false →
    f.width % 8 = 0 → Memory.wf s.mem = true →
    (∀ e ∈ els, s.accessAt ⟨d.part, s.tenantOf d.part⟩ (BitVec.ofNat 64 (e.1 / 8)) (f.width / 8) 0 .wr = .ok (pl e.1) ∧
      s.meetsPoison (pl e.1) false = [] ∧ (pl e.1).Nodup) →
      ∃ t, exec (.gleanerWriteBack did) s = .next t ∧ t.debts = s.debts.filter (·.did != did) ∧ t.hart = s.hart ∧ t.others = s.others ∧
        ∀ x, t.byteAt x = els.foldl (fun m e => Claims.put m (pl e.1) (toBytes (f.width / 8) e.2)) s.byteAt x) ∧
  (∀ (s : State) (did : Nat) (d : Debt) (f : Fmt) (off value : Nat) (pas : List Nat),
    s.debts.find? (·.did == did) = some d → s.mayPerform d = true → d.kind = .fold f off value → d.key.isRemote = false → d.dead = false →
    s.accessAt ⟨d.part, s.tenantOf d.part⟩ (d.addr + BitVec.ofNat 64 (off / 8)) f.bytes 0 .fold = .ok pas →
    Memory.wf s.mem = true → pas.Nodup →
      let old := ofBytes (pas.map s.byteAt)
      let new := if f.integer then (old + value) % 2 ^ f.width
        else roundRNE f ((decodeVal f false old).add false (decodeVal f false value))
      ∃ t, exec (.gleanerFold did) s = .next t ∧ t.debts = s.debts.filter (·.did != did) ∧ t.hart = s.hart ∧ t.others = s.others ∧
        ∀ x, t.byteAt x = Claims.put s.byteAt pas (toBytes f.bytes new) x)

namespace Sys2Proof.Claims

/- Steps of streams and of the Sieve. -/

/-- A transit is toward slot z of hart h. -/
def toward (h : Nat) (z : ZIx) (t : Transit) : Prop := t.toHart = h ∧ t.toSlot = z

end Sys2Proof.Claims

/-- R131, R178, R192, R200: the oldest flit toward a slot arrives: a slot that receives from its sender queues it and
expects the next number, and drops one it has seen before, whose credit goes back unless it still holds that flit; a
slot that no longer receives drops it and returns the credit. A candidate pair of a stream within the cutoff becomes a
record that waits in its slot with its number in the stream; with no candidate left the stream ends.
Choices of the model: notes/assumptions/16 (steps of the machine as constructors), 28 (closing and losing a stream),
43 (the Sieve). -/
def Obligations.FlitsAndPairRecordsArrive : Prop :=
  (∀ (s : State) (h : Nat) (z : ZIx) (t : Transit) (before after : List Transit),
    s.transit = before ++ t :: after → (∀ x ∈ before, ¬ Claims.toward h z x) → Claims.toward h z t →
      let v := s.slotAt h z
      let rest := { s with transit := before ++ after }
      let ahead := (2 ^ 32 + t.flit.seq - v.expect) % 2 ^ 32
      (v.bound = .recv t.fromHart t.fromSlot → ahead < 2 ^ 31 →
        exec (.streamDelivery h z) s = .next (rest.setSlot h z { v with flits := v.flits ++ [t.flit], expect := (t.flit.seq + 1) % 2 ^ 32 })) ∧
      (v.bound = .recv t.fromHart t.fromSlot → 2 ^ 31 ≤ ahead → (∃ f ∈ v.flits, f.seq = t.flit.seq) →
        exec (.streamDelivery h z) s = .next rest) ∧
      (∀ route, v.bound ≠ .recv t.fromHart t.fromSlot ∨ (2 ^ 31 ≤ ahead ∧ ∀ f ∈ v.flits, f.seq ≠ t.flit.seq) → t.fromHart ≠ h → (s.slotAt t.fromHart t.fromSlot).bound = .send h z route →
        ∃ u, exec (.streamDelivery h z) s = .next u ∧ u = { rest with hart := u.hart, others := u.others } ∧
          u.slotAt t.fromHart t.fromSlot = { s.slotAt t.fromHart t.fromSlot with unacked := (s.slotAt t.fromHart t.fromSlot).unacked - 1 } ∧
          u.slotAt h z = v)) ∧
  (∀ (s : State) (h : Nat) (z : ZIx) (j : Job) (t : PairStream), s.pairStream h z = some (j, t) →
    let v := s.slotAt h z
    (t.todo = [] → exec (.pairRecord h z) s = .next (s.setSlot h z { v with ended := true })) ∧
    (∀ i k rest pi pk, t.todo = (i, k) :: rest →
      (t.got = [] → s.position ⟨j.part, s.tenantOf j.part⟩ j.sheet [] i = .ok pi) → (∀ bs, t.got.head? = some bs → coordinates bs = pi) →
      s.position ⟨j.part, s.tenantOf j.part⟩ j.sheet [] k = .ok pk →
      let on := fun (n : Nat) => { s with jobs := s.jobs.map (fun q => { q with
        streams := q.streams.map (fun u => if u.id = t.id then { t with todo := rest, got := [], sent := n } else u) }) }
      let n := (t.sent + 1) % 2 ^ 32
      (∀ r, j.sheet.record i k pi pk = some r →
        exec (.pairRecord h z) s = .next ((on n).setSlot h z { v with records := v.records ++ [{ r with seq := t.sent }], expect := n })) ∧
      (j.sheet.record i k pi pk = none → exec (.pairRecord h z) s = .next (on t.sent))))

/-- R171 to R176, R324: `SBIN` of a sheet whose points are all readable and good, and whose cells hold no more than
its capacity, answers 0 and leaves a binned job that holds every point in its cell and the occupancy of its largest
one; the lowest bad point is answered with 5, an open stream with 3, and no points with 0. `SPAIR` of a binned job
whose points stand good and have not moved answers 0, binding its slot to a stream of the candidate pairs; of one that
is not binned it answers 4 and frees the slot. `SSTAT` answers the job's state, its open streams and its largest cell,
or 0.
Choices of the model: notes/assumptions/16 (steps of the machine as constructors), 43 (the Sieve). -/
def Obligations.SieveBinsAndOpensStreams : Prop :=
  (∀ (s : State) (o : Op) (a : Word) (j : JobSheet), s.sieveHead o.oid = some o → o.kind = .sbin a j →
    let mine := fun (k : Job) => k.part == o.part && k.sheetAddr == a
    let kept := s.jobs.filter (fun k => !mine k)
    let who : Who := ⟨o.part, o.tenant⟩
    let answers := fun (v : Nat) (jobs : List Job) => ∃ t, exec (.binning o.oid) s = .next t ∧
      Claims.Answered s t o (BitVec.ofNat 64 v) ∧ t.jobs = jobs ∧ t.mem = s.mem
    (∀ k, s.jobAt o.part a = some k → k.streams ≠ [] → answers 3 s.jobs) ∧
    ((∀ k, s.jobAt o.part a = some k → k.streams = []) →
      (j.count = 0 → answers 0 kept) ∧
      (∀ ps, j.count ≠ 0 → s.positions who j o.got (List.range j.count) = .ok ps →
        (∀ i p, ps[i]? = some p → j.good p = false → (∀ m q, m < i → ps[m]? = some q → j.good q = true) → answers (5 + 2 ^ 32 * i) kept) ∧
        ((∀ p ∈ ps, j.good p = true) → kept.countP (fun k => k.state == 2 && k.sheet.home == j.home) < 64 →
          16 * j.count + 4 * j.total * (j.cap + 1) ≤ 2 ^ 24 → (∀ c, ps.countP (fun p => j.place p == c) ≤ j.cap) →
            ∃ t job, exec (.binning o.oid) s = .next t ∧ Claims.Answered s t o 0 ∧ t.jobs = kept ++ [job] ∧ t.mem = s.mem ∧
              job.part = o.part ∧ job.sheetAddr = a ∧ job.sheet = j ∧ job.state = 2 ∧ job.ref = ps ∧ job.streams = [] ∧
              (∀ c i, i ∈ (alookup job.cells c).getD [] ↔ ∃ p, ps[i]? = some p ∧ j.place p = c) ∧
              (∀ c, ps.countP (fun p => j.place p == c) ≤ job.occupancy) ∧ job.occupancy ≤ j.cap ∧
              ∃ c, ps.countP (fun p => j.place p == c) = job.occupancy)))) ∧
  (∀ (s : State) (o : Op) (a : Word) (home : Nat) (z : ZIx) (first count : Nat) (full : Bool),
    s.sieveHead o.oid = some o → o.kind = .spair a home z first count full → (s.slotAt o.hart z).bound = .reserved o.oid →
      ((∀ j, s.jobAt o.part a = some j → j.sheet.home = home → j.state ≠ 2) →
        ∃ t, exec (.streamOpen o.oid) s = .next t ∧ Claims.Answered s t o 4 ∧ (t.slotAt o.hart z).bound = .unbound ∧ t.jobs = s.jobs) ∧
      (∀ j, s.jobAt o.part a = some j → j.sheet.home = home → j.state = 2 →
        s.checkPoints ⟨o.part, o.tenant⟩ j o.got (List.range j.sheet.count) = .ok →
          ∃ t, exec (.streamOpen o.oid) s = .next t ∧ Claims.Answered s t o 0 ∧ (t.slotAt o.hart z).bound = .pair s.nextId ∧
            t.jobAt o.part a = some { j with streams := j.streams ++ [{ id := s.nextId, hart := o.hart, z := z, todo := j.candidates first count full }] })) ∧
  (∀ (s : State) (o : Op) (a : Word) (home : Nat), s.sieveHead o.oid = some o → o.kind = .sstat a home →
    ((∀ j, s.jobAt o.part a = some j → j.sheet.home ≠ home) → ∃ t, exec (.sstatService o.oid) s = .next t ∧ Claims.Answered s t o 0 ∧ t.jobs = s.jobs) ∧
    (∀ j, s.jobAt o.part a = some j → j.sheet.home = home →
      ∃ t, exec (.sstatService o.oid) s = .next t ∧ t.jobs = s.jobs ∧
        Claims.Answered s t o (BitVec.ofNat 64 (j.state + 2 ^ 8 * j.streams.length + 2 ^ 32 * j.occupancy))))

namespace Sys2Proof.Claims

/- Steps of the Granary. -/

/-- Operation o is served with the answer v, and its field becomes g, once the store has been written; where a write
of it fails the operation answers 2^63 | 0xFF and no field changes (R162, R164, R385). -/
def Settles (s : State) (i : Instr) (o : Op) (f g : GField) (v : Nat) : Prop :=
  (∀ u, s.commit f g = .ok u →
    ∃ t, exec i s = .next t ∧ Answered s t o (BitVec.ofNat 64 v) ∧ t.fieldOf f.tenant f.num = some g) ∧
  ∀ e, s.commit f g = .error e →
    ∃ t, exec i s = .next t ∧ Answered s t o 0x80000000000000FF ∧ t.fields = s.fields

/-- Operation o is served with the answer v, and nothing of the fields or of memory changes. -/
def Answers (s : State) (i : Instr) (o : Op) (v : Nat) : Prop :=
  ∃ t, exec i s = .next t ∧ Answered s t o (BitVec.ofNat 64 v) ∧ t.fields = s.fields ∧ t.mem = s.mem

/-- Node id of a field is a prefix that may be pinned: ready, and not the root (R295). -/
def pinnable (f : GField) (id : Nat) : Prop := id ≠ 0 ∧ ∃ n, f.node id = some n ∧ n.state = .ready

/-- The partition holds as many pins on the field as it may (R165). -/
def pinsFull (f : GField) (p : Nat) : Prop := 65536 ≤ f.pins.countP (·.part == p)

/-- A node that holds no poison. -/
def sound (f : GField) (id : Nat) (n : Node) : Prop := f.node id = some n ∧ n.state ≠ .poisoned

end Sys2Proof.Claims

/-- R161, R166 to R168, R293: a `GFIND` stamps the nodes of the longest path that its tokens match, pins the last one
against its sequence and answers its number and depth. A `GDEP` under a parent that is missing or poisoned answers 2;
a chunk that a sound child holds answers that child's number with bit 0 set; another chunk, where there is room, makes
a filling node under the lowest free number, its hash its parent's advanced over the chunk. Adoption, once nothing older
is in its way, exchanges each page of the payload, in ascending order, for the lowest-numbered free pool page, and the
ready step makes the node ready.
Choices of the model: notes/assumptions/16 (steps of the machine as constructors), 37 (checks of Granary and launch
operands), 38 (writes of the node store), 39 (adoption, poison and records that cannot be written). -/
def Obligations.FieldsFindAndTakeDeposits : Prop :=
  (∀ (s : State) (o : Op) (f : GField) (a : Word) (key : GKey) (path : List Nat) (last : Nat), s.granaryHead o.oid = some (o, f) → o.kind = .gfind a key →
    s.findPath o f a 0 f.record.seed 0 (if f.pinned o.part then 0 else min (key.low / 2 ^ f.record.g) f.nodes.length) = .ok path →
    path.getLast? = some last →
      let stamped := { f with nodes := f.nodes.map (fun n => if n.id ∈ path then { n with stamp := s.time } else n) }
      let g := if last = 0 then stamped else { stamped with pins := f.pins ++ [{ node := last, part := o.part, seq := key.seq }] }
      Claims.Settles s (.gfindWalk o.oid) o f g (2 ^ 32 * last + ((f.node last).map (·.depth)).getD 0)) ∧
  (∀ (s : State) (o : Op) (f : GField) (d : Deposit), s.granaryHead o.oid = some (o, f) → o.kind = .gdep d →
    ((∀ p, ¬ Claims.sound f d.parent p) → Claims.Answers s (.answerStep o.oid) o 2) ∧
    (∀ p e, Claims.sound f d.parent p → s.readTokens o d.tokens (2 ^ f.record.g) = .error e →
      ∃ t, exec (.answerStep o.oid) s = .next t ∧ Claims.Answered s t o 0x80000000000000FF ∧ t.fields = s.fields) ∧
    ∀ chunk, s.readTokens o d.tokens (2 ^ f.record.g) = .ok chunk →
      let pinsTo := fun (id : Nat) => if d.seq = 0 then [] else [Pin.mk id o.part d.seq none]
      let same := fun (n : Node) => n ∈ f.children d.parent ∧ n.state ≠ .poisoned ∧ n.chunk = chunk
      (∀ p, Claims.sound f d.parent p →
        (d.seq ≠ 0 → Claims.pinsFull f o.part → Claims.Answers s (.answerStep o.oid) o 3) ∧
        (d.seq = 0 ∨ ¬ Claims.pinsFull f o.part →
          (∀ n, same n → (∀ m, same m → m = n) →
            Claims.Settles s (.answerStep o.oid) o f { f with pins := f.pins ++ pinsTo n.id } (2 ^ 32 * n.id + 1)) ∧
          (∀ id u, (∀ n, ¬ same n) → f.nodes.length ≤ f.record.nodes → d.npages + f.owedPages ≤ f.free.length →
            id ≤ f.record.nodes → f.node id = none → (∀ m, m < id → f.node m ≠ none) →
            let n : Node := { id := id, hash := chunk.foldl (fun h t => h.rotateLeft 5 ^^^ BitVec.ofNat 64 (t % 2 ^ 32)) p.hash, state := .filling
                              npages := d.npages, depth := p.depth + 2 ^ f.record.g, parent := d.parent, stamp := s.time, plist := [], chunk := chunk }
            let g := { f with nodes := f.nodes ++ [n], pins := f.pins ++ pinsTo id }
            s.commit f g = .ok u →
              ∃ t, exec (.answerStep o.oid) s = .next t ∧ t.fieldOf f.tenant f.num = some g ∧
                t.ops = s.ops.map (fun q => if q.oid == o.oid then { o with phase := if d.npages = 0 then 2 else 1, node := id } else q) ∧
                (t.hartAt o.hart).x = (Claims.paid (s.hartAt o.hart) o.xd o.oid (BitVec.ofNat 64 (2 ^ 32 * id))).x)))) ∧
  (∀ (s : State) (o : Op) (f : GField) (d : Deposit) (n : Node) (pgs : List (Nat × Nat)) (qs : List Nat), s.opById o.oid = some o → o.kind = .gdep d →
    s.mayAdopt o d = true → s.fieldOf o.tenant d.field = some f → f.node o.node = some n → s.payloadPages ⟨o.part, o.tenant⟩ d.payload d.npages = some pgs →
    qs.Pairwise (· < ·) → qs.length = pgs.length → (∀ q ∈ qs, q ∈ f.free ∧ q < f.pool.length) → (∀ q ∈ f.free, q ∉ qs → ∀ r ∈ qs, r < q) →
    (∃ u, (s.adoptPages o.part f pgs).1.commit f ((s.adoptPages o.part f pgs).2.1.setNode { n with plist := qs }) = .ok u) →
      ∃ t g n', exec (.adoption o.oid) s = .next t ∧ t.fieldOf o.tenant d.field = some g ∧ g.node o.node = some n' ∧ n' = { n with plist := qs } ∧
        g.free = f.free.filter (fun q => !qs.contains q) ∧ (∀ h, t.hartAt h = { s.hartAt h with sleepPas := (t.hartAt h).sleepPas }) ∧
        t.ops = s.ops.map (fun q => if q.oid == o.oid then { o with phase := 2 } else q) ∧
        (∀ (i q : Nat) (pg : Nat × Nat), qs[i]? = some q → pgs[i]? = some pg → g.pool.getD q 0 = pg.2) ∧
        (∀ (i q : Nat) (pg : Nat × Nat), (pgs.map (·.1)).Nodup → qs[i]? = some q → pgs[i]? = some pg →
          t.mapped2 o.part (65536 * pg.1) = some (some (65536 * f.pool.getD q 0)))) ∧
  (∀ (s : State) (o : Op) (f : GField) (d : Deposit) (n : Node), s.opById o.oid = some o → o.kind = .gdep d → o.phase = 2 →
    s.fieldOf o.tenant d.field = some f → f.node o.node = some n → s.mayReady o f = true →
      let g := f.setNode { n with state := .ready }
      ∀ u, s.commit f g = .ok u →
        ∃ t, exec (.readyStep o.oid) s = .next t ∧ t.fieldOf o.tenant d.field = some g ∧ t.ops = s.ops.filter (fun q => q.oid != o.oid) ∧
          t.hart = s.hart ∧ t.others = s.others)

/-- R165, R169, R258, R292, R294, R295: `GPIN` adds a pin on a ready node and `GUNPIN` takes one back, each answering
0; a node that is the root or not ready answers 4, a pin too many 3 and one that does not stand 5. `GLOAD` of a ready
node into a free slot binds the slot to the node's pages, with a pin, and answers the slot's address, one that waited
for a filling node likewise once its binding is ready, and a poisoned or missing node answers 2^63 + 4. `GDROP` frees
a subtree without pins or filling nodes and answers 0, and otherwise answers 6, or 4 for a node that does not exist.
Choices of the model: notes/assumptions/16 (steps of the machine as constructors), 38 (writes of the node store). -/
def Obligations.FieldsPinBindAndDrop : Prop :=
  (∀ (s : State) (o : Op) (f : GField) (id : Nat) (key : GKey), s.granaryHead o.oid = some (o, f) →
    let pin : Pin := { node := id, part := o.part, seq := key.seq }
    (o.kind = .gpin id key →
      (¬ Claims.pinnable f id → Claims.Answers s (.gpinService o.oid) o 4) ∧
      (Claims.pinnable f id → Claims.pinsFull f o.part → Claims.Answers s (.gpinService o.oid) o 3) ∧
      (Claims.pinnable f id → ¬ Claims.pinsFull f o.part →
        Claims.Settles s (.gpinService o.oid) o f { f with pins := f.pins ++ [pin] } 0)) ∧
    (o.kind = .gunpin id key →
      (¬ Claims.pinnable f id → Claims.Answers s (.gunpinService o.oid) o 4) ∧
      (Claims.pinnable f id → pin ∉ f.pins → Claims.Answers s (.gunpinService o.oid) o 5) ∧
      (Claims.pinnable f id → pin ∈ f.pins →
        Claims.Settles s (.gunpinService o.oid) o f { f with pins := f.pins.erase pin } 0)) ∧
    (o.kind = .gdrop id key →
      let ids := (f.under id).filter (· != 0)
      let busy := ∃ i ∈ ids, 0 < f.pinsOn i ∨ ∃ n, f.node i = some n ∧ n.state = .filling
      (f.node id = none → Claims.Answers s (.gdropService o.oid) o 4) ∧
      (f.node id ≠ none → busy → Claims.Answers s (.gdropService o.oid) o 6) ∧
      (f.node id ≠ none → ¬ busy → ∀ g, g = ids.foldl GField.freeNode f →
        g.nodes = f.nodes.filter (fun n => !ids.contains n.id) ∧ g.pins = f.pins ∧ g.pool = f.pool ∧
          Claims.Settles s (.gdropService o.oid) o f g 0))) ∧
  (∀ (s : State) (o : Op) (f : GField) (id : Nat) (key : GKey), s.granaryHead o.oid = some (o, f) → o.kind = .gload id key → o.phase = 0 →
    alookup (s.partAt o.part).gbind key.low = none →
      (id = 0 → Claims.Answers s (.gloadService o.oid) o 0) ∧
      (id ≠ 0 → (∀ n, ¬ Claims.sound f id n) → Claims.Answers s (.gloadService o.oid) o (2 ^ 63 + 4)) ∧
      (∀ n u, id ≠ 0 → f.node id = some n → n.state = .ready → ¬ Claims.pinsFull f o.part →
        let g := { f with pins := f.pins ++ [{ node := id, part := o.part, seq := 0, slot := some key.low }] }
        s.commit f g = .ok u →
          ∃ t, exec (.gloadService o.oid) s = .next t ∧ Claims.Answered s t o (BitVec.ofNat 64 (2 ^ 48 * (4064 + key.low))) ∧
            t.fieldOf f.tenant f.num = some g ∧
            alookup (t.partAt o.part).gbind key.low =
              some { owner := o.oid, tenant := o.tenant, field := key.field, node := id, pages := n.plist.map (fun q => f.pool.getD q 0), ready := true })) ∧
  (∀ (s : State) (o : Op) (id : Nat) (key : GKey) (b : GBind), s.opById o.oid = some o → o.kind = .gload id key → o.phase = 1 →
    alookup (s.partAt o.part).gbind key.low = some b → b.owner = o.oid → b.ready = true →
      Claims.Answers s (.gloadService o.oid) o (2 ^ 48 * (4064 + key.low)))

namespace Sys2Proof.Claims

/- Steps of memory, of firmware and of the host. -/

/-- Telemetry counter i n higher, held at 2^63 - 1 (R218). -/
def counts (s : State) (i n : Nat) : List Nat := s.telemetry.set i (min (s.telemetry.getD i 0 + n) (2 ^ 63 - 1))

/-- A node of field f owns a page that `hurt` names (R170). -/
def owns (f : GField) (n : Node) (hurt : Nat → Prop) : Prop := ∃ q ∈ n.plist, hurt (f.pool.getD q 0)

end Sys2Proof.Claims

/-- Corrected errors of a row since its last repair (R212). -/
def Sys2Proof.Claims.errors (s : State) (bank row : Nat) : Nat := ((s.rowErrors.find? (·.1 == (bank, row))).map (·.2)).getD 0

/-- R170, R208, R210 to R213, R218: an error that ECC corrects counts for its row, one that parity rebuilds counts,
and a line that neither gives back becomes poisoned and counts, with the field nodes on its page; parity gives a line
back while no other channel of its group has failed and no other line of its stripe is poisoned, and the parity line
of a stripe and the others give any one of it back. A channel that fails counts, and a second one of a group poisons
the group's every line, of which those that were not poisoned count; a row whose errors have reached the threshold is
repaired and counts while its bank has a spare row; the repair threshold takes 1 to 255 once the physical function is
open; a retraining leaves everything.
Choices of the model: notes/assumptions/15 (maps and sizes that an implementation fixes), 16 (steps of the machine as
constructors), 47 (errors, poison and failed channels), 48 (telemetry and operating points). -/
def Sys2Proof.Claims.MemoryErrorsCount : Prop :=
  (∀ (s : State) (pa : Nat) (e : ErrorKind),
    let hurt := fun pg => pg = pa / 65536
    let l := pa / 64
    let g := Config.lineGroup l
    let n := Config.lineStripe l
    let own := 8 * g + ((List.range 8).filter (· != n % 8)).getD (Config.lineSlot l).val 0
    let lost := e = .lost ∨ (e = .rebuilt ∧ ((∃ c ∈ s.badChannels, c / 8 = g ∧ c ≠ own) ∨
      ∃ i : Fin 7, Config.stripeLine g n i ≠ l ∧ s.isPoisoned (Config.stripeLine g n i) = true))
    (s.isPoisoned (pa / 64) = true → exec (.poisoning ⟨pa, e⟩) s = .next s) ∧
    (s.isPoisoned (pa / 64) = false → ∀ bank row, e = .corrected bank row →
      ∃ t, exec (.poisoning ⟨pa, e⟩) s = .next t ∧ t = { s with rowErrors := t.rowErrors, telemetry := Claims.counts s 1 1 } ∧
        ∀ b r, Claims.errors t b r = Claims.errors s b r + if b = bank ∧ r = row then 1 else 0) ∧
    (s.isPoisoned (pa / 64) = false → e = .rebuilt → ¬ lost →
      exec (.poisoning ⟨pa, e⟩) s = .next { s with telemetry := Claims.counts s 2 1 }) ∧
    (s.isPoisoned (pa / 64) = false → lost → (∀ f ∈ s.fields, ∀ n ∈ f.nodes, ¬ Claims.owns f n hurt) →
      exec (.poisoning ⟨pa, e⟩) s = .next { s with poisoned := s.poisoned ++ [pa / 64], telemetry := Claims.counts s 3 1 }) ∧
    (s.isPoisoned (pa / 64) = false → lost →
      ∃ t, exec (.poisoning ⟨pa, e⟩) s = .next t ∧ t.telemetry = Claims.counts s 3 1 ∧ t.hart = s.hart ∧ t.others = s.others ∧
        ∀ f n, s.fieldOf f.tenant f.num = some f → f.node n.id = some n → Claims.owns f n hurt →
          ∃ g m, t.fieldOf f.tenant f.num = some g ∧ g.node n.id = some m ∧ m.state = .poisoned)) ∧
  (∀ (ls : List (BitVec 512)) (i : Nat) (d : BitVec 512), ls[i]? = some d → parityLine (parityLine ls :: ls.eraseIdx i) = d) ∧
  (∀ (s : State) (c : Nat),
    let partner := ∃ b ∈ s.badChannels, b / 8 = c / 8
    let failed := { s with badChannels := s.badChannels ++ [c], telemetry := Claims.counts s 5 1 }
    (c ∈ s.badChannels → exec (.channelFailure c) s = .next s) ∧
    (c ∉ s.badChannels → ¬ partner → exec (.channelFailure c) s = .next failed) ∧
    (c ∉ s.badChannels → partner → c / 8 ∉ s.deadGroups → s.fields = [] →
      ∃ t, exec (.channelFailure c) s = .next t ∧ t.badChannels = s.badChannels ++ [c] ∧ t.mem = s.mem ∧ t.hart = s.hart ∧
        t.telemetry = Claims.counts failed 3 (Config.groupLines (c / 8) - s.poisoned.eraseDups.countP (fun l => Config.lineGroup l == c / 8)) ∧
        ∀ l, t.isPoisoned l = true ↔ (s.isPoisoned l = true ∨ (Config.lineGroup l = c / 8 ∧ l / 1024 ∉ s.scrub))) ∧
    exec (.channelRetraining c) s = .next s) ∧
  (∀ (s : State) (bank row t : Nat),
    let repairs := s.threshold ≤ Claims.errors s bank row ∧ s.remaps.countP (fun r => r.1 == bank) < Config.spareRows bank
    (repairs → ∃ u, exec (.rowRepair bank row) s = .next u ∧
      u = { s with remaps := s.remaps ++ [(bank, row)], rowErrors := u.rowErrors, telemetry := Claims.counts s 4 1 } ∧
      ∀ b r, Claims.errors u b r = if b = bank ∧ r = row then 0 else Claims.errors s b r) ∧
    (¬ repairs → exec (.rowRepair bank row) s = .next s) ∧
    (s.phase = .open_ → 1 ≤ t → t ≤ 255 → exec (.repairThresholdWrite t) s = .next { s with threshold := t }) ∧
    (s.phase ≠ .open_ ∨ ¬ (1 ≤ t ∧ t ≤ 255) → exec (.repairThresholdWrite t) s = .next s))

/-- R203, R204, R217: once the physical function is open a pair of columns is switched unless its die would keep none,
and `CAPUNITS` gives the count; a line's home column is its nominal one while that is powered, and always a powered
one. -/
def Sys2Proof.Claims.ColumnsSwitchInPairs : Prop :=
  (∀ (s : State) (die : Fin 2) (pair : Fin 4) (on : Bool), s.columns.length = 2 →
    let now := s.columns.getD die.val []
    let kept := s.phase = .open_ ∧ (on = true ∨ ∃ c ∈ now, c < 8 ∧ c / 2 ≠ pair.val)
    (¬ kept → exec (.columnPowerChange die pair on) s = .next s) ∧
    (kept → ∃ t, exec (.columnPowerChange die pair on) s = .next t ∧ t = { s with columns := t.columns, caps := t.caps } ∧
      (∀ c, c ∈ t.columns.getD die.val [] ↔ c < 8 ∧ if c / 2 = pair.val then on = true else c ∈ now) ∧
      t.columns.getD (1 - die.val) [] = s.columns.getD (1 - die.val) [] ∧
      t.caps = { s.caps with barncols := (t.columns.getD 0 []).length + (t.columns.getD 1 []).length })) ∧
  (∀ (cols : List Nat) (a : BitVec 52),
    let nominal := (a.extractLsb' 6 3 ^^^ a.extractLsb' 12 3 ^^^ a.extractLsb' 18 3).toNat
    (nominal ∈ cols → homeColumn cols a.toNat = nominal) ∧
    (nominal ∉ cols → cols ≠ [] →
      cols[(a.extractLsb' 9 3 ^^^ a.extractLsb' 15 3).toNat % cols.length]? = some (homeColumn cols a.toNat)))

/-- Both statements: `Claims.MemoryErrorsCount` and `Claims.ColumnsSwitchInPairs`.
Choices of the model: notes/assumptions/15 (maps and sizes that an implementation fixes), 16 (steps of the machine as
constructors), 47 (errors, poison and failed channels), 48 (telemetry and operating points). -/
def Obligations.MemoryFaultsAndRepairsAreKept : Prop :=
  Sys2Proof.Claims.MemoryErrorsCount ∧ Sys2Proof.Claims.ColumnsSwitchInPairs

/-- What a change from a point in force of frequency f0 and voltage v0 to one of f1 and v1 does, in its order (R219):
upward the voltage first, downward the frequency first. -/
def Sys2Proof.Claims.movesTo (f0 v0 f1 v1 : Nat) : List PointMove :=
  let volts := if v0 = v1 then [] else [PointMove.mv v1]
  if f0 < f1 then volts ++ [.mhz f1] else if f1 < f0 then [.mhz f1] ++ volts else volts

/-- R211, R212, R214, R217 to R220: power-up measures a good image and every later one, sets the units in service and
opens the physical function, everything else at its reset value but telemetry, remaps, failed channels with the groups
that have lost two, and the model's own schedule, and leaves the part in recovery with status 1 after a bad one; a
report is the measurement log and the nonce with the signature over both; each hour counts with its peak temperature;
a request for an operating point is taken unless it lies below the voltage floor or, as the model infers, off the
steps, or the physical function is closed, and a stead's thermal cap falls one step above 100 °C, when no other stead
is hotter, and rises one step at or below 95 °C while it limits the request. The point in force is the lower of
request and cap, and moves to its new value in the order of R219.
Choices of the model: notes/assumptions/14 (digests, signatures and the device page pool), 15 (maps and sizes that an
implementation fixes), 48 (telemetry and operating points), 49 (power-up). -/
def Obligations.BringUpAndOperatingPoints : Prop :=
  (∀ (s : State) (image : List Byte) (later : List (List Byte)) (u : Units),
    ∃ t, exec (.powerUp image ⟨later, u⟩) s = .next t ∧ (∀ h, t.hartAt h = Hart.reset) ∧
      (∀ g, g ∈ t.deadGroups ↔ 2 ≤ s.badChannels.countP (fun c => c / 8 == g)) ∧
      let kept : State := { State.reset with
        telemetry := s.telemetry, remaps := s.remaps, badChannels := s.badChannels, deadGroups := t.deadGroups
        agenda := s.agenda, pace := s.pace, delay := s.delay, draw := s.draw, nextId := s.nextId }
      (Config.signatureValid image = true →
        t = { kept with phase := .open_, log := Config.sha3 image :: later.map Config.sha3, pool := Config.poolPages, caps := t.caps } ∧
        (1 ≤ u.steads → u.steads ≤ 12 → 1 ≤ u.quads → u.quads ≤ 64 → 1 ≤ u.stackCount → u.stackCount ≤ 12 →
          t.caps = { State.reset.caps with steads := u.steads, cores := 4 * u.steads, harts := 16 * u.steads, quads := u.quads
                                           stackCount := u.stackCount, mib := 112 * 1024 * u.stackCount })) ∧
      (Config.signatureValid image = false → t = { kept with phase := .recovery, bringupStatus := 1 })) ∧
  (∀ (s : State) (nonce : List Byte),
    let body := s.log.flatMap (fun e => toBytes 64 e.toNat) ++ nonce
    (s.phase = .open_ → nonce.length = 32 → exec (.attestationReport nonce) s = .next { s with report := some (body ++ Config.sign body) }) ∧
    (s.phase ≠ .open_ ∨ nonce.length ≠ 32 → exec (.attestationReport nonce) s = .next s)) ∧
  (∀ (s : State) (temp : Nat) (i : Nat), s.telemetry.length = 16 →
    (i = 6 ∧ temp < 30 ∨ i = 15 ∧ 110 ≤ temp ∨ 7 ≤ i ∧ i ≤ 14 ∧ 10 * i - 40 ≤ temp ∧ temp < 10 * i - 30) →
      let hours := { s with telemetry := Claims.counts s 0 1 }
      exec (.powerOnHour temp) s = .next { s with telemetry := Claims.counts hours i 1 }) ∧
  (∀ (s : State) (st mhz mv : Nat), s.points.length = s.caps.steads → st < s.caps.steads →
    let o := s.points.getD st {}
    let good := s.phase = .open_ ∧ 1200 ≤ mhz ∧ mhz ≤ 3600 ∧ mhz % 100 = 0 ∧ mv % 5 = 0 ∧ Config.voltageFloor mhz ≤ mv
    let moves := Claims.movesTo (min o.reqMhz o.capMhz) o.reqMv (min mhz o.capMhz) mv
    (good → ∃ t, exec (.operatingPointRequest st mhz mv) s = .next t ∧ t.freq st = min mhz o.capMhz ∧
      t = { s with points := s.points.set st { o with reqMhz := mhz, reqMv := mv, moves := if moves = [] then o.moves else moves } }) ∧
    (¬ good → exec (.operatingPointRequest st mhz mv) s = .next s)) ∧
  (∀ (s : State) (st temp : Nat), st < s.caps.steads →
    let o := s.points.getD st {}
    let hottest := ∀ i < s.caps.steads, i ≠ st → (s.points.getD i {}).tempC ≤ temp
    let moves := fun cap => Claims.movesTo (min o.reqMhz o.capMhz) o.reqMv (min o.reqMhz cap) o.reqMv
    let sets := fun cap => exec (.thermalCapStep st temp) s =
      .next { s with points := s.points.set st { o with tempC := temp, capMhz := cap, moves := if moves cap = [] then o.moves else moves cap } }
    (100 < temp → hottest → sets (max 1200 (o.capMhz - 100))) ∧
    (temp ≤ 95 → o.capMhz < o.reqMhz → sets (o.capMhz + 100)) ∧
    (¬ (100 < temp ∧ hottest) → ¬ (temp ≤ 95 ∧ o.capMhz < o.reqMhz) → sets o.capMhz))

namespace Sys2Proof.Claims

/-- No more than memory, its marks, the sleeping harts it is reread for, partitions and what they have been told of
poison differ. -/
def OnlyMemory (s t : State) : Prop :=
  t = { s with mem := t.mem, scrub := t.scrub, poisoned := t.poisoned, healed := t.healed, rereads := t.rereads, parts := t.parts
               toldPoison := t.toldPoison }

/-- A remote access is resolved to n bytes from far address a of partition p, through export entry e (R113, R206): the
tenant's partition exports the tier, the block is one of the tier's, and the access stays in it. -/
def Exported (s : State) (r : RemoteReq) (n : Nat) (p : Nat) (e : Export) (a : Word) : Prop :=
  s.exportOf r.tenant r.tier = some (p, e) ∧ r.block < e.low.toNat % 2 ^ 32 ∧ r.off + n ≤ 65536 ∧
    a = e.base + BitVec.ofNat 64 (65536 * r.block + r.off)

/-- The tier is not gated, or the bin stands within reach of the block's ticket (R207). -/
def gateOpen (s : State) (r : RemoteReq) (p : Nat) (e : Export) : Prop :=
  e.low.getLsbD 62 = false ∨ s.ticketOpen p (e.low.toNat / 2 ^ 58 % 16) r.block = true

end Sys2Proof.Claims

/-- R113, R116, R205 to R207, R215: a host write performs and leaves every other byte, a host read changes nothing,
and the driver takes records from the front of a queue. A remote write-back or fold to an exported block performs on
its bytes alone, a write-back that meets poison leaves them, and one whose ticket its intake bin has not reached is
held, all else as it was; once the head has reached its ticket, and no earlier one to its block is held, it performs
in a step of its own and leaves the tier; a remote read changes nothing. When a held write has waited its watchdog
time, FAULT is posted once with the bin and the oldest farm launched from it, and the write stays.
Choices of the model: notes/assumptions/46 (what another chip answers), 47 (errors, poison and failed channels), 50
(host events and interrupts). -/
def Obligations.HostAndRemoteAccessesPerform : Prop :=
  (∀ (s : State) (pa n : Nat) (bs : List Byte) (rel : Bool), Memory.wf s.mem = true →
    let pas := (List.range bs.length).map (pa + ·)
    exec (.hostAccess (.read pa n)) s = .next s ∧
    (s.meetsPoison pas true = [] → ∃ t, exec (.hostAccess (.write pa bs rel)) s = .next t ∧ Claims.OnlyMemory s t ∧
      ∀ x, t.byteAt x = if pa ≤ x ∧ x < pa + bs.length then bs.getD (x - pa) 0 else s.byteAt x) ∧
    (s.meetsPoison pas true ≠ [] → exec (.hostAccess (.write pa bs rel)) s = .next s)) ∧
  (∀ (s : State) (vf n : Nat),
    exec (.hostAccess (.takeEvents vf n)) s = .next (s.setPartAt vf { s.partAt vf with hostQueue := (s.partAt vf).hostQueue.drop n })) ∧
  (∀ (s : State) (r : RemoteReq) (p : Nat) (e : Export) (a : Word) (pas : List Nat), Memory.wf s.mem = true → pas.Nodup →
    let who : Who := ⟨p, (s.partAt p).record.tenant⟩
    (∀ n, r.op = .read n → Claims.Exported s r n p e a → s.accessAt who a n 0 .rd = .ok pas → exec (.remoteAccess r) s = .next s) ∧
    (∀ bs, r.op = .write bs → Claims.Exported s r bs.length p e a → Claims.gateOpen s r p e → s.accessAt who a bs.length 0 .wr = .ok pas →
      ∃ t, exec (.remoteAccess r) s = .next t ∧ Claims.OnlyMemory s t ∧
        ∀ x, t.byteAt x = if s.meetsPoison pas false = [] then Claims.put s.byteAt pas bs x else s.byteAt x) ∧
    (∀ c v f, r.op = .fold c v → Fmt.ofCode c.toNat = some f → f.bytes ≠ 0 → Claims.Exported s r f.bytes p e a → Claims.gateOpen s r p e →
      s.accessAt who a f.bytes 0 .fold = .ok pas →
        let old := ofBytes (pas.map s.byteAt)
        let value := v.toNat % 2 ^ f.width
        let new := if f.integer then (old + value) % 2 ^ f.width
          else roundRNE f ((decodeVal f false old).add false (decodeVal f false value))
        ∃ t, exec (.remoteAccess r) s = .next t ∧ Claims.OnlyMemory s t ∧ ∀ x, t.byteAt x = Claims.put s.byteAt pas (toBytes f.bytes new) x) ∧
    (∀ n, (∃ bs, r.op = .write bs ∧ n = bs.length) ∨ (∃ c v f, r.op = .fold c v ∧ Fmt.ofCode c.toNat = some f ∧ n = f.bytes) →
      Claims.Exported s r n p e a → ¬ Claims.gateOpen s r p e →
      exec (.remoteAccess r) s = .next { s with
        held := s.held ++ [{ id := s.nextId, part := p, bin := e.low.toNat / 2 ^ 58 % 16, req := r, since := s.time }], nextId := s.nextId + 1 })) ∧
  (∀ (s : State) (before after : List HeldWrite) (w : HeldWrite) (p : Nat) (e : Export) (a : Word) (pas : List Nat),
    s.held = before ++ w :: after → (∀ h ∈ before ++ after, h.id ≠ w.id) → s.ticketOpen w.part w.bin w.req.block = true →
    (∀ h ∈ before, ¬ (h.part = w.part ∧ h.bin = w.bin ∧ h.req.block = w.req.block)) →
    s.opById w.id = none → (∀ j ∈ s.jobs, ∀ t ∈ j.streams, t.id ≠ w.id) → (∀ x ∈ s.schedWrites, x.id ≠ w.id) → Memory.wf s.mem = true → pas.Nodup →
      let who : Who := ⟨p, (s.partAt p).record.tenant⟩
      let rest := { s with held := before ++ after }
      let u := s.engineStep w.id
      (∀ bs, w.req.op = .write bs → Claims.Exported s w.req bs.length p e a → s.accessAt who a bs.length 0 .wr = .ok pas →
        Claims.OnlyMemory rest u ∧ ∀ x, u.byteAt x = if s.meetsPoison pas false = [] then Claims.put s.byteAt pas bs x else s.byteAt x) ∧
      (∀ c v f, w.req.op = .fold c v → Fmt.ofCode c.toNat = some f → f.bytes ≠ 0 → Claims.Exported s w.req f.bytes p e a →
        s.accessAt who a f.bytes 0 .fold = .ok pas →
          let old := ofBytes (pas.map s.byteAt)
          let value := v.toNat % 2 ^ f.width
          let new := if f.integer then (old + value) % 2 ^ f.width
            else roundRNE f ((decodeVal f false old).add false (decodeVal f false value))
          Claims.OnlyMemory rest u ∧ ∀ x, u.byteAt x = Claims.put s.byteAt pas (toBytes f.bytes new) x)) ∧
  (∀ (s : State) (w : HeldWrite) (e : Export), s.held.find? (·.id == w.id) = some w → w.expired = false →
    alookup s.exports (8 * w.req.tenant + w.req.tier) = some e →
      let wdog := e.low.toNat / 2 ^ 32 % 2 ^ 26
      let farm := ((s.farms.find? (fun g => g.part == w.part && g.fromBin == some w.bin)).map (·.id)).getD 0
      (wdog ≠ 0 → w.since + 1000 * wdog ≤ s.time →
        ∃ t, exec (.intakeWatchdog w.id) s = .next t ∧ (t.partAt w.part).events = (s.partAt w.part).events ++ [{ kind := 3, cause := 23, f3 := farm, f5 := w.bin }] ∧
          t = { s with held := t.held, parts := t.parts } ∧ t.held.find? (·.id == w.id) = some { w with expired := true }) ∧
      (wdog = 0 ∨ s.time < w.since + 1000 * wdog → s.held.countP (·.id == w.id) = 1 → exec (.intakeWatchdog w.id) s = .next s))

namespace Sys2Proof.Claims

/-- The field of a partition record at byte offset off lies outside the range that R140 gives it, or the byte there that
must be zero is not, among those that the host or the supervisor writes. -/
def outOfRange (s : State) (r : PartRec) (sup : Bool) (off : Nat) : Prop :=
  let perStead := fun (base : Nat) (bad : Nat → Prop) => ∃ i < s.caps.steads, off = base + i ∧ bad i
  if sup then
    (off = 0 ∧ (r.htab % 65536 ≠ 0 ∨ 2 ^ 57 ≤ r.htab)) ∨ (off = 8 ∧ (r.bins % 64 ≠ 0 ∨ 2 ^ 57 ≤ r.bins)) ∨ (off = 16 ∧ 16 < r.nq)
  else
    (off = 17 ∧ r.zeros.getD 0 0 ≠ 0) ∨ (off = 18 ∧ 4095 < r.tenant) ∨ (off = 20 ∧ r.hceil < r.hfloor) ∨
      (off = 22 ∧ (r.hceil < r.hfloor ∨ r.hceil < 1 ∨ s.caps.harts < r.hceil)) ∨ (off = 24 ∧ 2 ^ 32 ≤ r.quota) ∨
      (off = 28 ∧ 2 ^ 32 ≤ r.target) ∨ (off = 32 ∧ (r.weight < 1 ∨ 65535 < r.weight)) ∨ (off = 34 ∧ (r.slice < 1 ∨ 65535 < r.slice)) ∨
      perStead 36 (fun i => 64 < r.qfloor.getD i 0) ∨
      perStead 48 (fun i => r.qceil.getD i 0 < r.qfloor.getD i 0 ∨ r.qceil.getD i 0 < 1 ∨ 64 < r.qceil.getD i 0) ∨
      perStead 60 (fun i => 12 < r.rows.getD i 0) ∨ ∃ j, off = 72 + j ∧ r.zeros.getD (1 + j) 0 ≠ 0

/-- A write of record r for virtual function vf is refused with this value (R140, R384): the lowest reason it meets,
with the first stead whose quad floors exceed 64, or the first byte that is out of range. The supervisor's write meets
the last reason alone. -/
def Refuses (s : State) (vf : Nat) (r : PartRec) (sup : Bool) (why : Nat) : Prop :=
  let sum := fun (f : PartRec → Nat) => f r + ((s.partIds.filter (· != vf)).map (fun q => f (s.partAt q).record)).sum
  let full := fun st => sup = false ∧ st < s.caps.steads ∧ 64 < sum (fun x => x.qfloor.getD st 0)
  let harts := sup = false ∧ s.caps.harts < sum (·.hfloor)
  let ceiling := sup = false ∧ s.caps.harts < r.hceil
  (∃ st, full st ∧ (∀ i < st, ¬ full i) ∧ why = 1 + 256 * st) ∨
    (∀ st, ¬ full st) ∧ ((harts ∧ why = 2) ∨ (¬ harts ∧ ceiling ∧ why = 3) ∨
      ∃ off, ¬ harts ∧ ¬ ceiling ∧ outOfRange s r sup off ∧ (∀ o < off, ¬ outOfRange s r sup o) ∧ why = 4 + 256 * off)

end Sys2Proof.Claims

/-- R36, R45, R108, R115, R140, R142, R160, R169, R175, R206, R384, R385: a partition record whose fields lie in their
ranges is taken, the host's writes leaving the supervisor's fields and the other way round, and one that does not is
refused with a record of kind 4, whose value gives the lowest reason. A field is created with its root alone and its
pages charged, or refused with a report, and a removed one leaves with its operations, one of an earlier tenant
included; a tenant's export entry is written; an invalidation takes back what the device had mapped for the page, and
is complete once no instruction pins it; scrubbing a page changes no byte that is read and clears its mark, and pages
given away by a reset read as zero. A partition that ends leaves nothing of its own in any engine, and its contexts
are free.
Choices of the model: notes/assumptions/6 (where the roots of the translation tables stand), 7 (mappings that the
device makes itself), 38 (writes of the node store), 44 (partition records), 45 (invalidations, pins, scrubbing and
resets of a function). -/
def Obligations.PartitionsAreWrittenAndEnded : Prop :=
  (∀ (s : State) (vf : Nat) (sup : Bool) (r : PartRec), s.phase = .open_ → vf < 192 → (sup = true → (s.partAt vf).exists_ = true) →
    s.caps.steads ≤ 12 →
    let old := (s.partAt vf).record
    ((∀ why, ¬ Claims.Refuses s vf r sup why) →
      ∃ t, exec (.partitionRecordWrite vf sup r) s = .next t ∧ t = { s with parts := t.parts, hart := t.hart, others := t.others } ∧
        (∀ h, t.hartAt h = { s.hartAt h with grant := (t.hartAt h).grant, needsReserved := (t.hartAt h).needsReserved
                                             gangWait := (t.hartAt h).gangWait, sleepPas := (t.hartAt h).sleepPas }) ∧
        (t.partAt vf).exists_ = true ∧
        (t.partAt vf).record = if sup then { old with htab := r.htab, bins := r.bins, nq := r.nq, root1 := r.root1 }
          else { r with htab := old.htab, bins := old.bins, nq := old.nq, root1 := old.root1 }) ∧
    (∀ why, Claims.Refuses s vf r sup why → (s.partAt vf).hostQueue.length < 256 →
      ∃ t, exec (.partitionRecordWrite vf sup r) s = .next t ∧ t = { s with parts := t.parts } ∧ (t.partAt vf).record = old ∧
        (t.partAt vf).hostQueue = (s.partAt vf).hostQueue ++
          [{ kind := 4, hart := 0xFFFFFFFF, cause := 0, value := BitVec.ofNat 64 why, time := s.time }])) ∧
  (∀ (s : State) (p : Nat) (num : Fin 8) (r : FieldRec),
    let v := s.partAt p
    let t0 := v.record.tenant
    let size := 128 * (r.nodes + 1) + 4 * 2 ^ r.g * r.nodes
    let root : Node := { id := 0, hash := r.seed, state := .ready, npages := 0, depth := 0, parent := 0, stamp := s.time, plist := [], chunk := [] }
    let f : GField := { tenant := t0, num := num.val, part := p, record := r, nodes := [root], pool := s.pool.take r.pages, free := List.range r.pages }
    let good := 2 ≤ r.g ∧ r.g ≤ 8 ∧ r.home ≤ 1 ∧ 1 ≤ r.nodes ∧ r.nodes ≤ 2 ^ 20 ∧ r.pages < 2 ^ 32 ∧ r.view.toNat % 128 = 0 ∧ r.view.toNat < 2 ^ 60 ∧
      ∀ z ∈ r.zeros, z = 0
    (∀ pas, s.phase = .open_ → v.exists_ = true → good → s.fieldOf t0 num.val = none → r.pages ≤ s.pool.length → s.viewPlaces f 0 size = .ok pas →
      Memory.wf s.mem = true → pas.Nodup →
        ∃ t, exec (.fieldCreate p num r) s = .next t ∧ t.fieldOf t0 num.val = some f ∧ (t.partAt p).pages = v.pages + r.pages ∧
          t.pool = s.pool.drop r.pages ∧ t.hart = s.hart ∧
          ∀ x, t.byteAt x = Claims.put s.byteAt pas (toBytes 8 r.seed.toNat ++ toBytes 2 (hashTag r.seed) ++ [2] ++ List.replicate 13 0 ++
            toBytes 8 s.time ++ List.replicate (size - 32) 0) x) ∧
    let refused := { s with refusedFields := s.refusedFields ++ [(p, num.val)] }
    (s.phase = .open_ → v.exists_ = false ∨ ¬ good ∨ s.fieldOf t0 num.val ≠ none ∨ s.pool.length < r.pages →
      exec (.fieldCreate p num r) s = .next refused) ∧
    (∀ e, s.phase = .open_ → v.exists_ = true → good → s.fieldOf t0 num.val = none → r.pages ≤ s.pool.length → s.viewPlaces f 0 size = .error e →
      exec (.fieldCreate p num r) s = .next (refused.tellPoison p 0xFFFFFFFF e.lines)) ∧
    (s.phase ≠ .open_ → exec (.fieldCreate p num r) s = .next s) ∧
    (∀ g, s.fieldOf t0 num.val = some g → g.part = p →
      ∃ t, exec (.fieldRemove p num) s = .next t ∧ t.fieldOf t0 num.val = none ∧ t.mem = s.mem ∧
        (∀ o ∈ t.ops, ¬ (o.tenant = t0 ∧ o.kind.field = some num.val)) ∧ (t.partAt p).pages = v.pages - g.record.pages) ∧
    (∀ g, s.fields.find? (fun k => k.part == p && k.num == num.val) = some g → (∀ k ∈ s.fields, k.part = p → k.num = num.val → k.tenant ≠ t0) →
      ∃ t, exec (.fieldRemove p num) s = .next t ∧ t.fieldOf g.tenant num.val = none ∧ t.mem = s.mem ∧
        (t.partAt p).pages = v.pages - g.record.pages)) ∧
  (∀ (s : State) (p : Nat) (tier : Fin 8) (base low : Word), (s.partAt p).exists_ = true →
    let key := 8 * s.tenantOf p + tier.val
    ∃ t, exec (.exportEntryWrite p tier base low) s = .next t ∧ t = { s with exports := t.exports } ∧
      alookup t.exports key = some { part := p, base := base, low := low } ∧ ∀ k, k ≠ key → alookup t.exports k = alookup s.exports k) ∧
  (∀ (s : State) (p page : Nat) (st2 : Bool),
    let asked := (p, st2, page) ∈ s.invals
    ∃ t, exec (.pageInvalidation p st2 page) s = .next t ∧
      t = { s with over1 := t.over1, over2 := t.over2, invals := t.invals, hart := t.hart, others := t.others } ∧
      (∀ h, t.hartAt h = { s.hartAt h with sleepPas := (t.hartAt h).sleepPas }) ∧
      ((p, st2, page) ∈ t.invals ↔ s.pagePinned p st2 page = true) ∧ (∀ e, e ≠ (p, st2, page) → (e ∈ t.invals ↔ e ∈ s.invals)) ∧
      (¬ asked → (st2 = false → ∀ m ∈ t.over1, ¬ (m.1 = p ∧ m.2.1 = page)) ∧ (st2 = true → ∀ m ∈ t.over2, ¬ (m.1 = p ∧ m.2.1 = page))) ∧
      (asked ∨ st2 = true → t.over1 = s.over1) ∧ (asked ∨ st2 = false → t.over2 = s.over2)) ∧
  (∀ (s : State) (page vf : Nat) (pages : List Nat), Memory.wf s.mem = true →
    (∃ t, exec (.pageScrub page) s = .next t ∧ t = { s with mem := t.mem, scrub := t.scrub, poisoned := t.poisoned, healed := t.healed } ∧
      (∀ a, t.byteAt a = s.byteAt a) ∧ (∀ q, q ∈ t.scrub ↔ q ∈ s.scrub ∧ q ≠ page) ∧
      (page ∉ s.scrub → t = s) ∧ (page ∈ s.scrub → ∀ l, l / 1024 = page → t.isPoisoned l = false)) ∧
    (∃ t, exec (.vfReset vf pages) s = .next t ∧ t = { s with scrub := t.scrub } ∧
      ∀ a, t.byteAt a = if a / 65536 ∈ pages then 0 else s.byteAt a)) ∧
  (∀ (s : State) (p : Nat), (s.partAt p).exists_ = true →
    ∃ t, exec (.partitionEnd p) s = .next t ∧ (t.partAt p).exists_ = false ∧
      (∀ h, (t.hartAt h).part = p → (t.hartAt h).status = .free) ∧ (∀ sh ∈ t.sheaves, sh.part ≠ p) ∧ (∀ d ∈ t.debts, d.part ≠ p) ∧
      (∀ o ∈ t.ops, o.part ≠ p) ∧ (∀ g ∈ t.farms, g.part ≠ p) ∧ (∀ j ∈ t.jobs, j.part ≠ p) ∧ (∀ m ∈ t.over1, m.1 ≠ p) ∧
      (t.partAt p).pages = ((t.fields.filter (·.part == p)).map (·.record.pages)).sum ∧
      ((∀ f ∈ s.fields, ∀ n ∈ f.pins, n.part ≠ p) → (t.partAt p).hostQueue = (s.partAt p).hostQueue) ∧
      ∀ f u, s.fields = [f] → s.commit f { f with pins := f.pins.filter (fun n => n.part != p) } = .ok u →
        ∀ g ∈ t.fields, ∀ n ∈ g.pins, n.part ≠ p)

namespace Sys2Proof.Claims

/- The machine. -/

/-- What follows a turn of a hart's stream: it keeps its mark when it waits, and otherwise every stream may try again. -/
def afterTurn (waits : Hart → Bool) (o : Out) : Out :=
  match o with
  | .next t => .next (if waits t.hart then t else t.unstalled)
  | .fault f => .fault f
  | .refused r => .refused r

/-- The current hart's control stream takes the next turn: the agenda says so, or it is empty and the stream does not
wait. The hart runs, and no trap or end of it is due first. -/
structure ControlNext (s : State) : Prop where
  turn : (s.agenda = [] ∧ s.hart.ctlStall = false) ∨ ∃ ts, s.agenda = .control s.cur :: ts
  runs : s.hart.status = .running ∧ s.hart.needsReserved = none ∧ s.hart.gangWait = false
  first : s.hart.trapWait = none ∧ s.hart.ending = false

/-- The current hart's oldest block that is not held takes the next turn. -/
structure BlockNext (s : State) (b : Block) : Prop where
  turn : (s.agenda = [] ∧ s.hart.ctlStall = true ∧ s.hart.seqStall = false) ∨ ∃ ts, s.agenda = .blocks s.cur :: ts
  runs : s.hart.status = .running ∧ s.hart.needsReserved = none ∧ s.hart.gangWait = false ∧ s.hart.ending = false
  oldest : s.hart.block = some b

/-- The state in which a control-stream turn runs: the clock has moved, and the turn has left the agenda. -/
def inControl (s : State) : State :=
  { s.tick with agenda := s.agenda.tail, hart := { s.tick.hart with ctlStall := false } }

/-- The same for a turn of the sequencer. -/
def inBlocks (s : State) : State :=
  { s.tick with agenda := s.agenda.tail, hart := { s.tick.hart with seqStall := false } }

/-- Accesses that have retired and not performed let an instruction of the control stream run (R119, R122, R125): no
acquire is among those in flight, and no scalar access still reads memory, unless the instruction is a load of other
bytes than those, or neither reaches memory nor hands work over. -/
def Passes (i : Instr) (u : State) : Prop :=
  (∀ r ∈ u.hart.vq, r.acq = false) ∧
    ((∀ p ∈ u.hart.sbuf, p.reading = false) ∨
      match i with
      | .ld z _ _ _ a off =>
        ∀ pas, u.locate u.who (farSum (u.hart.rd a) off.toInt) (sizeBytes z) 0 .rd = .ok pas →
          ∀ p ∈ u.hart.sbuf, p.reading = true → ∀ x ∈ p.pa, x ∉ pas
      | i => reachesMemory i = false)

/-- Nothing stands between a block instruction and memory (R41, R108, R119, R126): no vector access of the hart is in
flight, no probe of its stead holds pins or waits for them, and no `FENCE.rel` waits. -/
structure Unobstructed (u : State) : Prop where
  flight : u.hart.vq = []
  pins : u.pinWait = [] ∧ u.pinned (steadOf u.cur) = 0
  fences : ∀ p ∈ u.hart.sbuf, p.kind ≠ .fence

/-- A stream access that waits has passed its checks, and its block holds back no younger store for them (R40). -/
def afterChecks (i : Instr) (o : Out) : Out :=
  match i, o with
  | .vlds .., .next t | .vsts .., .next t =>
    .next (if t.hart.seqStall then
      { t with hart := { t.hart with
        queue := t.hart.queue.map (fun c => if t.hart.block.map (·.serial) = some c.serial then { c with checked := true } else c) } }
      else t)
  | _, o => o

/-- Instructions of which the spec prints the word: what stands there, its size in bits, and the word. -/
def specWords : List (Instr × Nat × Nat) :=
  [(.add 3 4 5 true, 32, 0x04642C00), (.fmaOpcode0e .d true false .dyn 3 4 5 6, 32, 0x38642987), (.st .d true 6 20 0, 32, 0x44D4D000),
   (.beq 9 10 5, 32, 0x512A0005), (.jalr 31 5 0, 32, 0x6FE50000), (.setl 5 4 0x0A false, 32, 0x80A40014), (.vget 3 2 0x0A 9, 32, 0x80625112),
   (.havail 3 1, 32, 0x84600208), (.matt 6 7, 32, 0x88C70000), (.launch 5 6, 32, 0x8CA60000), (.seqendT 3 12 13, 32, 0x8C6C6C40),
   (.sopen 3 1 4, 32, 0x98640010), (.brk 1, 32, 0xF8000016), (.tret, 32, 0xF8000005),
   (.vaddi { xl := 5, xf := 6 } 1 1 0x1FF1, 64, 0x210208000014DFF1), (.vfma { xl := 9 } 2 3 4 5 true false, 64, 0x3304188280240001),
   (.vmerge { xl := 9, xf := 6 } 4 1 2 3, 64, 0x760808418024C000), (.vtopk { xl := 4, xf := 5 } 6 1 7 false, 64, 0x840C08000010A007),
   (.vldf { xl := 4, xf := 5 } 4 10 0 .plain, 64, 0x940800000010A00A),
   (.vamo { xl := 4, xf := 7 } .cas 5 6 20 3 2 .sc 7, 64, 0x980A30638010F354), (.vsts { xl := 4, xf := 5 } 4 2 false, 64, 0x9C0020000010A002),
   (.mopa { xl := 4, xf := 5 } 8 16 0 1, 64, 0xA00042000010A080), (.vsprune { xl := 11, xf := 12 } 2 1 3, 64, 0xA5040801802D8000),
   (.vstop, 64, 0x0100000000000000)]

end Sys2Proof.Claims

/-- R22, R24, R37, R100, R119, R233, R243, R249, R263: when the control stream has its turn, the bytes at the program
counter are fetched through both stages; those that decode are run, unless an access that has retired must perform
first, and the step is that of the instruction with nothing but the clock before it and the marks of waiting after it; a
word that is no instruction takes ILLEGAL with the word, and bytes that cannot be fetched take the fault of their
address. A block word runs likewise, with its convoy marked, when no access of the hart is in flight; and then a word
that is no block instruction takes ILLEGALV, and a convoy that needs more than its units CONVOY. Every step is a
turn, of the agenda or the default one, in the state where the clock has moved by at least one.
Choices of the model: notes/assumptions/3 (which agent moves next), 4 (bookkeeping fields that the spec does not
name), 5 (clocks of a step and the number of a free
value), 8 (table entries are read at physical addresses), 10 (accesses that retire or complete before they perform). -/
def Obligations.StepRunsDecodedInstruction : Prop :=
  (∀ s : State, Claims.ControlNext s →
    let u := Claims.inControl s
    (∀ bs i, u.fetchBytes u.hart.part u.hart.pc 4 = .ok bs → decodeControl (ofBytes bs) = .ok i →
      (Claims.Passes i u → step s = Claims.afterTurn (·.ctlStall) (exec i u)) ∧
      (¬ Claims.Passes i u → step s = .next { u with hart := { u.hart with ctlStall := true } })) ∧
    (∀ bs e, u.fetchBytes u.hart.part u.hart.pc 4 = .ok bs → decodeControl (ofBytes bs) = .error e →
      step s = Claims.afterTurn (·.ctlStall) (Claims.faults (u.tellVirtual u.hart.part u.cur u.hart.pc ⟨.illegal, BitVec.ofNat 64 (ofBytes bs), []⟩)
        .illegal (BitVec.ofNat 64 (ofBytes bs)))) ∧
    (∀ e, u.fetchBytes u.hart.part u.hart.pc 4 = .error e →
      step s = Claims.afterTurn (·.ctlStall) (Claims.faults (u.tellVirtual u.hart.part u.cur u.hart.pc e) e.cause e.eval))) ∧
  (∀ (s : State) (b : Block), Claims.BlockNext s b →
    let u := Claims.inBlocks s
    (∀ bs i, u.fetchBytes u.hart.part b.pos 8 = .ok bs → decodeBlock (ofBytes bs) = .ok i →
      ((b.pos - b.addr).toNat / 8 ≠ 255 ∨ i = .vstop) → Claims.Unobstructed u →
      (b.convoy ≠ 0 ∨ unitsFit ((u.convoyFrom b 256 b.pos).map (unitsOf u.hart)) = true) →
        ∃ n, (b.convoy ≠ 0 → n = b.convoy) ∧ step s =
          Claims.afterTurn (·.seqStall) (Claims.afterChecks i (exec i (u.withHart ((u.hart.markConvoy n).openStart i))))) ∧
    (∀ bs e, u.hart.vq = [] → u.fetchBytes u.hart.part b.pos 8 = .ok bs → decodeBlock (ofBytes bs) = .error e →
      step s = .next ((u.tellVirtual u.hart.part u.cur b.pos ⟨.illegalv, BitVec.ofNat 64 (ofBytes bs), []⟩).takeTrap
        .illegalv (BitVec.ofNat 64 (ofBytes bs)) b.pos true 0).unstalled) ∧
    (∀ e, u.hart.vq = [] → u.fetchBytes u.hart.part b.pos 8 = .error e →
      step s = .next ((u.tellVirtual u.hart.part u.cur b.pos e).takeTrap e.cause e.eval b.pos true 0).unstalled) ∧
    (∀ i, u.hart.vq = [] → u.blockWord b b.pos = .ok i → b.convoy = 0 → unitsFit ((u.convoyFrom b 256 b.pos).map (unitsOf u.hart)) = false →
      step s = .next (u.takeTrap .convoy 0 b.pos true 0).unstalled) ∧
    (u.hart.vq ≠ [] → (∀ r ∈ u.hart.vq, r.last = none) → ∀ f, u.blockWord b b.pos = .error f → step s = .next { u with hart := { u.hart with seqStall := true } })) ∧
  (∀ s : State,
    let n := max 1 (s.pace.headD 1)
    let u := s.tick
    (∀ t ts, s.agenda = t :: ts → step s = { u with agenda := ts }.turn t) ∧ (s.agenda = [] → step s = u.defaultTurn) ∧
      u.clk = s.clk + n ∧ u.time = (s.clk + n) * 5 / 18 ∧ u.mem = s.mem ∧ u.hart.x = s.hart.x ∧ u.hart.pc = s.hart.pc ∧ u.hart.v = s.hart.v)

/-- R47, R48, R49, R60, R67, R69, R77, R145, R159, R180, R183, R186, R193, R212, R284, R374: after reset memory stands
empty in its canonical form, every context is as reset leaves it, and every register to which the spec gives a reset
value reads it: FMTDEF is f32 everywhere, a hart holds its reserved quad alone, every quad is free, RAKESTAT shows a
disabled policy, the capabilities are those of an RZP-4812, and the repair threshold is 8; the invariants of the model
hold.
Choices of the model: notes/assumptions/1 (registers without a stated reset value), 2 (a byte of memory that nothing
has written), 51 (the part that the model is). -/
def Obligations.ResetGivesStatedValues : Prop :=
  let s := State.reset
  s.mem = [] ∧ Memory.wf s.mem = true ∧ s.ModesLegal ∧ s.CodeAligned ∧ (∀ h, s.hartAt h = Hart.reset) ∧
    (∀ k : KIx, s.hart.k[k.val] = { val := 0, bound := 0, target := none }) ∧
    (∀ n ∈ [0x001, 0x003, 0x004, 0x010, 0x011, 0x012, 0x018, 0x019, 0x021, 0x022, 0x023, 0x024, 0x044, 0x050, 0x060, 0x801, 0x844],
      s.csrRead n = 0) ∧
    (∀ c < 6, s.csrRead (0x028 + c) = 0 ∧ s.csrRead (0x030 + c) = 0) ∧
    s.csrRead 0x002 = BitVec.allOnes 64 ∧ s.csrRead 0x013 = 1 ∧ (∀ n < 4, s.csrRead (0x014 + n) = BitVec.allOnes 64) ∧
    s.csrRead 0x020 = 0x0028A28A ∧ s.csrRead 0x800 = 0x100 ∧ s.csrRead 0x078 = 0x100C40C0300C ∧
    s.csrRead 0x079 = 0x1200150000 ∧ s.csrRead 0x07A = 0x10001 ∧ s.threshold = 8

/-- R117: every step keeps memory in its canonical form, so that what memory holds determines its data.
Choices of the model: notes/assumptions/2 (a byte of memory that nothing has written). -/
def Obligations.StepKeepsMemoryForm : Prop :=
  ∀ s t : State, Memory.wf s.mem = true → step s = .next t → Memory.wf t.mem = true

/-- R21, R134, R179, R180, R183: every step keeps each hart at level 0 or 1, with the levels its handlers return to, and
keeps every program counter, every register that holds a word address and every farm's entry a multiple of 4.
Choices of the model: notes/assumptions/1 (registers without a stated reset value). -/
def Obligations.StepKeepsModesAndAlignment : Prop :=
  (∀ s t : State, s.ModesLegal → step s = .next t → t.ModesLegal) ∧ ∀ s t : State, s.CodeAligned → step s = .next t → t.CodeAligned

/-- R231 to R248: every well-formed instruction with a word is read back from it, with every operand. -/
def Obligations.EncodedInstructionsDecode : Prop :=
  ∀ (i : Instr) (n w : Nat), i.wf = true → encode i = some (n, w) → decodeTableWord n w = some i

/-- R231 to R248: a word that decodes is the word of what it decodes to, which is well formed: no bit of it is
ignored. -/
def Obligations.DecodedWordsEncode : Prop :=
  (∀ (w : Nat) (i : Instr), w < 2 ^ 32 → decodeControl w = .ok i → i.wf = true ∧ encode i = some (32, w)) ∧
  ∀ (w : Nat) (i : Instr), w < 2 ^ 64 → decodeBlock w = .ok i → i.wf = true ∧ encode i = some (64, w)

/-- R232 to R247: the words that the spec's encodings give a few instructions decode to them. -/
def Obligations.SpecWordsDecode : Prop :=
  ∀ e ∈ Claims.specWords, decodeTableWord e.2.1 e.2.2 = some e.1
end

