-- ==== Sys2Proof/Laws/State.lean ====
section
/-!
SUPPORT. The fields of the state after each small update, one lemma per field: what an update leaves alone, and what it
writes. Later proofs cite these and unfold no record update.
-/

namespace Sys2Proof.Machine

/- One lemma after another: a compile then needs few threads. -/
set_option Elab.async false

/- `State.withHart` writes the current hart alone. -/

@[simp] theorem State.withHart_hart (s : State) (v : Hart) : (s.withHart v).hart = v := rfl
@[simp] theorem State.withHart_cur (s : State) (v : Hart) : (s.withHart v).cur = s.cur := rfl
@[simp] theorem State.withHart_others (s : State) (v : Hart) : (s.withHart v).others = s.others := rfl
@[simp] theorem State.withHart_mem (s : State) (v : Hart) : (s.withHart v).mem = s.mem := rfl
@[simp] theorem State.withHart_poisoned (s : State) (v : Hart) : (s.withHart v).poisoned = s.poisoned := rfl
@[simp] theorem State.withHart_deadGroups (s : State) (v : Hart) : (s.withHart v).deadGroups = s.deadGroups := rfl
@[simp] theorem State.withHart_healed (s : State) (v : Hart) : (s.withHart v).healed = s.healed := rfl
@[simp] theorem State.withHart_toldPoison (s : State) (v : Hart) : (s.withHart v).toldPoison = s.toldPoison := rfl
@[simp] theorem State.withHart_scrub (s : State) (v : Hart) : (s.withHart v).scrub = s.scrub := rfl
@[simp] theorem State.withHart_over1 (s : State) (v : Hart) : (s.withHart v).over1 = s.over1 := rfl
@[simp] theorem State.withHart_over2 (s : State) (v : Hart) : (s.withHart v).over2 = s.over2 := rfl
@[simp] theorem State.withHart_pool (s : State) (v : Hart) : (s.withHart v).pool = s.pool := rfl
@[simp] theorem State.withHart_clk (s : State) (v : Hart) : (s.withHart v).clk = s.clk := rfl
@[simp] theorem State.withHart_time (s : State) (v : Hart) : (s.withHart v).time = s.time := rfl
@[simp] theorem State.withHart_sclk (s : State) (v : Hart) : (s.withHart v).sclk = s.sclk := rfl
@[simp] theorem State.withHart_sclkWas (s : State) (v : Hart) : (s.withHart v).sclkWas = s.sclkWas := rfl
@[simp] theorem State.withHart_ticket (s : State) (v : Hart) : (s.withHart v).ticket = s.ticket := rfl
@[simp] theorem State.withHart_sheaves (s : State) (v : Hart) : (s.withHart v).sheaves = s.sheaves := rfl
@[simp] theorem State.withHart_lines (s : State) (v : Hart) : (s.withHart v).lines = s.lines := rfl
@[simp] theorem State.withHart_fetches (s : State) (v : Hart) : (s.withHart v).fetches = s.fetches := rfl
@[simp] theorem State.withHart_debts (s : State) (v : Hart) : (s.withHart v).debts = s.debts := rfl
@[simp] theorem State.withHart_ops (s : State) (v : Hart) : (s.withHart v).ops = s.ops := rfl
@[simp] theorem State.withHart_parts (s : State) (v : Hart) : (s.withHart v).parts = s.parts := rfl
@[simp] theorem State.withHart_farms (s : State) (v : Hart) : (s.withHart v).farms = s.farms := rfl
@[simp] theorem State.withHart_fields (s : State) (v : Hart) : (s.withHart v).fields = s.fields := rfl
@[simp] theorem State.withHart_jobs (s : State) (v : Hart) : (s.withHart v).jobs = s.jobs := rfl
@[simp] theorem State.withHart_transit (s : State) (v : Hart) : (s.withHart v).transit = s.transit := rfl
@[simp] theorem State.withHart_held (s : State) (v : Hart) : (s.withHart v).held = s.held := rfl
@[simp] theorem State.withHart_schedWrites (s : State) (v : Hart) : (s.withHart v).schedWrites = s.schedWrites := rfl
@[simp] theorem State.withHart_outbox (s : State) (v : Hart) : (s.withHart v).outbox = s.outbox := rfl
@[simp] theorem State.withHart_exports (s : State) (v : Hart) : (s.withHart v).exports = s.exports := rfl
@[simp] theorem State.withHart_pinWait (s : State) (v : Hart) : (s.withHart v).pinWait = s.pinWait := rfl
@[simp] theorem State.withHart_invals (s : State) (v : Hart) : (s.withHart v).invals = s.invals := rfl
@[simp] theorem State.withHart_rereads (s : State) (v : Hart) : (s.withHart v).rereads = s.rereads := rfl
@[simp] theorem State.withHart_caps (s : State) (v : Hart) : (s.withHart v).caps = s.caps := rfl
@[simp] theorem State.withHart_columns (s : State) (v : Hart) : (s.withHart v).columns = s.columns := rfl
@[simp] theorem State.withHart_threshold (s : State) (v : Hart) : (s.withHart v).threshold = s.threshold := rfl
@[simp] theorem State.withHart_remaps (s : State) (v : Hart) : (s.withHart v).remaps = s.remaps := rfl
@[simp] theorem State.withHart_rowErrors (s : State) (v : Hart) : (s.withHart v).rowErrors = s.rowErrors := rfl
@[simp] theorem State.withHart_badChannels (s : State) (v : Hart) : (s.withHart v).badChannels = s.badChannels := rfl
@[simp] theorem State.withHart_points (s : State) (v : Hart) : (s.withHart v).points = s.points := rfl
@[simp] theorem State.withHart_telemetry (s : State) (v : Hart) : (s.withHart v).telemetry = s.telemetry := rfl
@[simp] theorem State.withHart_log (s : State) (v : Hart) : (s.withHart v).log = s.log := rfl
@[simp] theorem State.withHart_phase (s : State) (v : Hart) : (s.withHart v).phase = s.phase := rfl
@[simp] theorem State.withHart_bringupStatus (s : State) (v : Hart) : (s.withHart v).bringupStatus = s.bringupStatus := rfl
@[simp] theorem State.withHart_refusedFields (s : State) (v : Hart) : (s.withHart v).refusedFields = s.refusedFields := rfl
@[simp] theorem State.withHart_report (s : State) (v : Hart) : (s.withHart v).report = s.report := rfl
@[simp] theorem State.withHart_agenda (s : State) (v : Hart) : (s.withHart v).agenda = s.agenda := rfl
@[simp] theorem State.withHart_pace (s : State) (v : Hart) : (s.withHart v).pace = s.pace := rfl
@[simp] theorem State.withHart_delay (s : State) (v : Hart) : (s.withHart v).delay = s.delay := rfl
@[simp] theorem State.withHart_draw (s : State) (v : Hart) : (s.withHart v).draw = s.draw := rfl
@[simp] theorem State.withHart_nextId (s : State) (v : Hart) : (s.withHart v).nextId = s.nextId := rfl

/- `State.setPartAt` writes the list of partitions alone. -/

@[simp] theorem State.setPartAt_hart (s : State) (p : Nat) (v : Part) : (s.setPartAt p v).hart = s.hart := rfl
@[simp] theorem State.setPartAt_cur (s : State) (p : Nat) (v : Part) : (s.setPartAt p v).cur = s.cur := rfl
@[simp] theorem State.setPartAt_others (s : State) (p : Nat) (v : Part) : (s.setPartAt p v).others = s.others := rfl
@[simp] theorem State.setPartAt_mem (s : State) (p : Nat) (v : Part) : (s.setPartAt p v).mem = s.mem := rfl
@[simp] theorem State.setPartAt_poisoned (s : State) (p : Nat) (v : Part) : (s.setPartAt p v).poisoned = s.poisoned := rfl
@[simp] theorem State.setPartAt_deadGroups (s : State) (p : Nat) (v : Part) : (s.setPartAt p v).deadGroups = s.deadGroups := rfl
@[simp] theorem State.setPartAt_healed (s : State) (p : Nat) (v : Part) : (s.setPartAt p v).healed = s.healed := rfl
@[simp] theorem State.setPartAt_toldPoison (s : State) (p : Nat) (v : Part) : (s.setPartAt p v).toldPoison = s.toldPoison := rfl
@[simp] theorem State.setPartAt_scrub (s : State) (p : Nat) (v : Part) : (s.setPartAt p v).scrub = s.scrub := rfl
@[simp] theorem State.setPartAt_over1 (s : State) (p : Nat) (v : Part) : (s.setPartAt p v).over1 = s.over1 := rfl
@[simp] theorem State.setPartAt_over2 (s : State) (p : Nat) (v : Part) : (s.setPartAt p v).over2 = s.over2 := rfl
@[simp] theorem State.setPartAt_pool (s : State) (p : Nat) (v : Part) : (s.setPartAt p v).pool = s.pool := rfl
@[simp] theorem State.setPartAt_clk (s : State) (p : Nat) (v : Part) : (s.setPartAt p v).clk = s.clk := rfl
@[simp] theorem State.setPartAt_time (s : State) (p : Nat) (v : Part) : (s.setPartAt p v).time = s.time := rfl
@[simp] theorem State.setPartAt_sclk (s : State) (p : Nat) (v : Part) : (s.setPartAt p v).sclk = s.sclk := rfl
@[simp] theorem State.setPartAt_sclkWas (s : State) (p : Nat) (v : Part) : (s.setPartAt p v).sclkWas = s.sclkWas := rfl
@[simp] theorem State.setPartAt_ticket (s : State) (p : Nat) (v : Part) : (s.setPartAt p v).ticket = s.ticket := rfl
@[simp] theorem State.setPartAt_sheaves (s : State) (p : Nat) (v : Part) : (s.setPartAt p v).sheaves = s.sheaves := rfl
@[simp] theorem State.setPartAt_lines (s : State) (p : Nat) (v : Part) : (s.setPartAt p v).lines = s.lines := rfl
@[simp] theorem State.setPartAt_fetches (s : State) (p : Nat) (v : Part) : (s.setPartAt p v).fetches = s.fetches := rfl
@[simp] theorem State.setPartAt_debts (s : State) (p : Nat) (v : Part) : (s.setPartAt p v).debts = s.debts := rfl
@[simp] theorem State.setPartAt_ops (s : State) (p : Nat) (v : Part) : (s.setPartAt p v).ops = s.ops := rfl
@[simp] theorem State.setPartAt_farms (s : State) (p : Nat) (v : Part) : (s.setPartAt p v).farms = s.farms := rfl
@[simp] theorem State.setPartAt_fields (s : State) (p : Nat) (v : Part) : (s.setPartAt p v).fields = s.fields := rfl
@[simp] theorem State.setPartAt_jobs (s : State) (p : Nat) (v : Part) : (s.setPartAt p v).jobs = s.jobs := rfl
@[simp] theorem State.setPartAt_transit (s : State) (p : Nat) (v : Part) : (s.setPartAt p v).transit = s.transit := rfl
@[simp] theorem State.setPartAt_held (s : State) (p : Nat) (v : Part) : (s.setPartAt p v).held = s.held := rfl
@[simp] theorem State.setPartAt_schedWrites (s : State) (p : Nat) (v : Part) : (s.setPartAt p v).schedWrites = s.schedWrites := rfl
@[simp] theorem State.setPartAt_outbox (s : State) (p : Nat) (v : Part) : (s.setPartAt p v).outbox = s.outbox := rfl
@[simp] theorem State.setPartAt_exports (s : State) (p : Nat) (v : Part) : (s.setPartAt p v).exports = s.exports := rfl
@[simp] theorem State.setPartAt_pinWait (s : State) (p : Nat) (v : Part) : (s.setPartAt p v).pinWait = s.pinWait := rfl
@[simp] theorem State.setPartAt_invals (s : State) (p : Nat) (v : Part) : (s.setPartAt p v).invals = s.invals := rfl
@[simp] theorem State.setPartAt_rereads (s : State) (p : Nat) (v : Part) : (s.setPartAt p v).rereads = s.rereads := rfl
@[simp] theorem State.setPartAt_caps (s : State) (p : Nat) (v : Part) : (s.setPartAt p v).caps = s.caps := rfl
@[simp] theorem State.setPartAt_columns (s : State) (p : Nat) (v : Part) : (s.setPartAt p v).columns = s.columns := rfl
@[simp] theorem State.setPartAt_threshold (s : State) (p : Nat) (v : Part) : (s.setPartAt p v).threshold = s.threshold := rfl
@[simp] theorem State.setPartAt_remaps (s : State) (p : Nat) (v : Part) : (s.setPartAt p v).remaps = s.remaps := rfl
@[simp] theorem State.setPartAt_rowErrors (s : State) (p : Nat) (v : Part) : (s.setPartAt p v).rowErrors = s.rowErrors := rfl
@[simp] theorem State.setPartAt_badChannels (s : State) (p : Nat) (v : Part) : (s.setPartAt p v).badChannels = s.badChannels := rfl
@[simp] theorem State.setPartAt_points (s : State) (p : Nat) (v : Part) : (s.setPartAt p v).points = s.points := rfl
@[simp] theorem State.setPartAt_telemetry (s : State) (p : Nat) (v : Part) : (s.setPartAt p v).telemetry = s.telemetry := rfl
@[simp] theorem State.setPartAt_log (s : State) (p : Nat) (v : Part) : (s.setPartAt p v).log = s.log := rfl
@[simp] theorem State.setPartAt_phase (s : State) (p : Nat) (v : Part) : (s.setPartAt p v).phase = s.phase := rfl
@[simp] theorem State.setPartAt_bringupStatus (s : State) (p : Nat) (v : Part) : (s.setPartAt p v).bringupStatus = s.bringupStatus := rfl
@[simp] theorem State.setPartAt_refusedFields (s : State) (p : Nat) (v : Part) : (s.setPartAt p v).refusedFields = s.refusedFields := rfl
@[simp] theorem State.setPartAt_report (s : State) (p : Nat) (v : Part) : (s.setPartAt p v).report = s.report := rfl
@[simp] theorem State.setPartAt_agenda (s : State) (p : Nat) (v : Part) : (s.setPartAt p v).agenda = s.agenda := rfl
@[simp] theorem State.setPartAt_pace (s : State) (p : Nat) (v : Part) : (s.setPartAt p v).pace = s.pace := rfl
@[simp] theorem State.setPartAt_delay (s : State) (p : Nat) (v : Part) : (s.setPartAt p v).delay = s.delay := rfl
@[simp] theorem State.setPartAt_draw (s : State) (p : Nat) (v : Part) : (s.setPartAt p v).draw = s.draw := rfl
@[simp] theorem State.setPartAt_nextId (s : State) (p : Nat) (v : Part) : (s.setPartAt p v).nextId = s.nextId := rfl

/- `State.fresh` takes the next identity number. -/

@[simp] theorem State.fresh_fst (s : State) : s.fresh.1 = s.nextId := rfl
@[simp] theorem State.fresh_nextId (s : State) : s.fresh.2.nextId = s.nextId + 1 := rfl
@[simp] theorem State.fresh_hart (s : State) : s.fresh.2.hart = s.hart := rfl
@[simp] theorem State.fresh_cur (s : State) : s.fresh.2.cur = s.cur := rfl
@[simp] theorem State.fresh_others (s : State) : s.fresh.2.others = s.others := rfl
@[simp] theorem State.fresh_mem (s : State) : s.fresh.2.mem = s.mem := rfl
@[simp] theorem State.fresh_poisoned (s : State) : s.fresh.2.poisoned = s.poisoned := rfl
@[simp] theorem State.fresh_deadGroups (s : State) : s.fresh.2.deadGroups = s.deadGroups := rfl
@[simp] theorem State.fresh_healed (s : State) : s.fresh.2.healed = s.healed := rfl
@[simp] theorem State.fresh_toldPoison (s : State) : s.fresh.2.toldPoison = s.toldPoison := rfl
@[simp] theorem State.fresh_scrub (s : State) : s.fresh.2.scrub = s.scrub := rfl
@[simp] theorem State.fresh_over1 (s : State) : s.fresh.2.over1 = s.over1 := rfl
@[simp] theorem State.fresh_over2 (s : State) : s.fresh.2.over2 = s.over2 := rfl
@[simp] theorem State.fresh_pool (s : State) : s.fresh.2.pool = s.pool := rfl
@[simp] theorem State.fresh_clk (s : State) : s.fresh.2.clk = s.clk := rfl
@[simp] theorem State.fresh_time (s : State) : s.fresh.2.time = s.time := rfl
@[simp] theorem State.fresh_sclk (s : State) : s.fresh.2.sclk = s.sclk := rfl
@[simp] theorem State.fresh_sclkWas (s : State) : s.fresh.2.sclkWas = s.sclkWas := rfl
@[simp] theorem State.fresh_ticket (s : State) : s.fresh.2.ticket = s.ticket := rfl
@[simp] theorem State.fresh_sheaves (s : State) : s.fresh.2.sheaves = s.sheaves := rfl
@[simp] theorem State.fresh_lines (s : State) : s.fresh.2.lines = s.lines := rfl
@[simp] theorem State.fresh_fetches (s : State) : s.fresh.2.fetches = s.fetches := rfl
@[simp] theorem State.fresh_debts (s : State) : s.fresh.2.debts = s.debts := rfl
@[simp] theorem State.fresh_ops (s : State) : s.fresh.2.ops = s.ops := rfl
@[simp] theorem State.fresh_parts (s : State) : s.fresh.2.parts = s.parts := rfl
@[simp] theorem State.fresh_farms (s : State) : s.fresh.2.farms = s.farms := rfl
@[simp] theorem State.fresh_fields (s : State) : s.fresh.2.fields = s.fields := rfl
@[simp] theorem State.fresh_jobs (s : State) : s.fresh.2.jobs = s.jobs := rfl
@[simp] theorem State.fresh_transit (s : State) : s.fresh.2.transit = s.transit := rfl
@[simp] theorem State.fresh_held (s : State) : s.fresh.2.held = s.held := rfl
@[simp] theorem State.fresh_schedWrites (s : State) : s.fresh.2.schedWrites = s.schedWrites := rfl
@[simp] theorem State.fresh_outbox (s : State) : s.fresh.2.outbox = s.outbox := rfl
@[simp] theorem State.fresh_exports (s : State) : s.fresh.2.exports = s.exports := rfl
@[simp] theorem State.fresh_pinWait (s : State) : s.fresh.2.pinWait = s.pinWait := rfl
@[simp] theorem State.fresh_invals (s : State) : s.fresh.2.invals = s.invals := rfl
@[simp] theorem State.fresh_rereads (s : State) : s.fresh.2.rereads = s.rereads := rfl
@[simp] theorem State.fresh_caps (s : State) : s.fresh.2.caps = s.caps := rfl
@[simp] theorem State.fresh_columns (s : State) : s.fresh.2.columns = s.columns := rfl
@[simp] theorem State.fresh_threshold (s : State) : s.fresh.2.threshold = s.threshold := rfl
@[simp] theorem State.fresh_remaps (s : State) : s.fresh.2.remaps = s.remaps := rfl
@[simp] theorem State.fresh_rowErrors (s : State) : s.fresh.2.rowErrors = s.rowErrors := rfl
@[simp] theorem State.fresh_badChannels (s : State) : s.fresh.2.badChannels = s.badChannels := rfl
@[simp] theorem State.fresh_points (s : State) : s.fresh.2.points = s.points := rfl
@[simp] theorem State.fresh_telemetry (s : State) : s.fresh.2.telemetry = s.telemetry := rfl
@[simp] theorem State.fresh_log (s : State) : s.fresh.2.log = s.log := rfl
@[simp] theorem State.fresh_phase (s : State) : s.fresh.2.phase = s.phase := rfl
@[simp] theorem State.fresh_bringupStatus (s : State) : s.fresh.2.bringupStatus = s.bringupStatus := rfl
@[simp] theorem State.fresh_refusedFields (s : State) : s.fresh.2.refusedFields = s.refusedFields := rfl
@[simp] theorem State.fresh_report (s : State) : s.fresh.2.report = s.report := rfl
@[simp] theorem State.fresh_agenda (s : State) : s.fresh.2.agenda = s.agenda := rfl
@[simp] theorem State.fresh_pace (s : State) : s.fresh.2.pace = s.pace := rfl
@[simp] theorem State.fresh_delay (s : State) : s.fresh.2.delay = s.delay := rfl
@[simp] theorem State.fresh_draw (s : State) : s.fresh.2.draw = s.draw := rfl

/- `State.setByte` writes memory, may clear a scrub mark, and notes the harts that sleep on the byte. -/

/-- A page that is not marked is left as it is. -/
theorem State.scrubbed_other (s : State) (pg : Nat) (h : s.scrub.contains pg = false) : s.scrubbed pg = s := by
  unfold State.scrubbed; rw [h]; rfl
@[simp] theorem State.scrubbed_hart (s : State) (pg : Nat) : (s.scrubbed pg).hart = s.hart := by
  unfold State.scrubbed; split <;> rfl
@[simp] theorem State.scrubbed_cur (s : State) (pg : Nat) : (s.scrubbed pg).cur = s.cur := by
  unfold State.scrubbed; split <;> rfl
@[simp] theorem State.scrubbed_others (s : State) (pg : Nat) : (s.scrubbed pg).others = s.others := by
  unfold State.scrubbed; split <;> rfl
@[simp] theorem State.scrubbed_deadGroups (s : State) (pg : Nat) : (s.scrubbed pg).deadGroups = s.deadGroups := by
  unfold State.scrubbed; split <;> rfl
@[simp] theorem State.scrubbed_toldPoison (s : State) (pg : Nat) : (s.scrubbed pg).toldPoison = s.toldPoison := by
  unfold State.scrubbed; split <;> rfl
@[simp] theorem State.scrubbed_over1 (s : State) (pg : Nat) : (s.scrubbed pg).over1 = s.over1 := by
  unfold State.scrubbed; split <;> rfl
@[simp] theorem State.scrubbed_over2 (s : State) (pg : Nat) : (s.scrubbed pg).over2 = s.over2 := by
  unfold State.scrubbed; split <;> rfl
@[simp] theorem State.scrubbed_pool (s : State) (pg : Nat) : (s.scrubbed pg).pool = s.pool := by
  unfold State.scrubbed; split <;> rfl
@[simp] theorem State.scrubbed_clk (s : State) (pg : Nat) : (s.scrubbed pg).clk = s.clk := by
  unfold State.scrubbed; split <;> rfl
@[simp] theorem State.scrubbed_time (s : State) (pg : Nat) : (s.scrubbed pg).time = s.time := by
  unfold State.scrubbed; split <;> rfl
@[simp] theorem State.scrubbed_sclk (s : State) (pg : Nat) : (s.scrubbed pg).sclk = s.sclk := by
  unfold State.scrubbed; split <;> rfl
@[simp] theorem State.scrubbed_sclkWas (s : State) (pg : Nat) : (s.scrubbed pg).sclkWas = s.sclkWas := by
  unfold State.scrubbed; split <;> rfl
@[simp] theorem State.scrubbed_ticket (s : State) (pg : Nat) : (s.scrubbed pg).ticket = s.ticket := by
  unfold State.scrubbed; split <;> rfl
@[simp] theorem State.scrubbed_sheaves (s : State) (pg : Nat) : (s.scrubbed pg).sheaves = s.sheaves := by
  unfold State.scrubbed; split <;> rfl
@[simp] theorem State.scrubbed_lines (s : State) (pg : Nat) : (s.scrubbed pg).lines = s.lines := by
  unfold State.scrubbed; split <;> rfl
@[simp] theorem State.scrubbed_fetches (s : State) (pg : Nat) : (s.scrubbed pg).fetches = s.fetches := by
  unfold State.scrubbed; split <;> rfl
@[simp] theorem State.scrubbed_debts (s : State) (pg : Nat) : (s.scrubbed pg).debts = s.debts := by
  unfold State.scrubbed; split <;> rfl
@[simp] theorem State.scrubbed_ops (s : State) (pg : Nat) : (s.scrubbed pg).ops = s.ops := by
  unfold State.scrubbed; split <;> rfl
@[simp] theorem State.scrubbed_parts (s : State) (pg : Nat) : (s.scrubbed pg).parts = s.parts := by
  unfold State.scrubbed; split <;> rfl
@[simp] theorem State.scrubbed_farms (s : State) (pg : Nat) : (s.scrubbed pg).farms = s.farms := by
  unfold State.scrubbed; split <;> rfl
@[simp] theorem State.scrubbed_fields (s : State) (pg : Nat) : (s.scrubbed pg).fields = s.fields := by
  unfold State.scrubbed; split <;> rfl
@[simp] theorem State.scrubbed_jobs (s : State) (pg : Nat) : (s.scrubbed pg).jobs = s.jobs := by
  unfold State.scrubbed; split <;> rfl
@[simp] theorem State.scrubbed_transit (s : State) (pg : Nat) : (s.scrubbed pg).transit = s.transit := by
  unfold State.scrubbed; split <;> rfl
@[simp] theorem State.scrubbed_held (s : State) (pg : Nat) : (s.scrubbed pg).held = s.held := by
  unfold State.scrubbed; split <;> rfl
@[simp] theorem State.scrubbed_schedWrites (s : State) (pg : Nat) : (s.scrubbed pg).schedWrites = s.schedWrites := by
  unfold State.scrubbed; split <;> rfl
@[simp] theorem State.scrubbed_outbox (s : State) (pg : Nat) : (s.scrubbed pg).outbox = s.outbox := by
  unfold State.scrubbed; split <;> rfl
@[simp] theorem State.scrubbed_exports (s : State) (pg : Nat) : (s.scrubbed pg).exports = s.exports := by
  unfold State.scrubbed; split <;> rfl
@[simp] theorem State.scrubbed_pinWait (s : State) (pg : Nat) : (s.scrubbed pg).pinWait = s.pinWait := by
  unfold State.scrubbed; split <;> rfl
@[simp] theorem State.scrubbed_invals (s : State) (pg : Nat) : (s.scrubbed pg).invals = s.invals := by
  unfold State.scrubbed; split <;> rfl
@[simp] theorem State.scrubbed_rereads (s : State) (pg : Nat) : (s.scrubbed pg).rereads = s.rereads := by
  unfold State.scrubbed; split <;> rfl
@[simp] theorem State.scrubbed_caps (s : State) (pg : Nat) : (s.scrubbed pg).caps = s.caps := by
  unfold State.scrubbed; split <;> rfl
@[simp] theorem State.scrubbed_columns (s : State) (pg : Nat) : (s.scrubbed pg).columns = s.columns := by
  unfold State.scrubbed; split <;> rfl
@[simp] theorem State.scrubbed_threshold (s : State) (pg : Nat) : (s.scrubbed pg).threshold = s.threshold := by
  unfold State.scrubbed; split <;> rfl
@[simp] theorem State.scrubbed_remaps (s : State) (pg : Nat) : (s.scrubbed pg).remaps = s.remaps := by
  unfold State.scrubbed; split <;> rfl
@[simp] theorem State.scrubbed_rowErrors (s : State) (pg : Nat) : (s.scrubbed pg).rowErrors = s.rowErrors := by
  unfold State.scrubbed; split <;> rfl
@[simp] theorem State.scrubbed_badChannels (s : State) (pg : Nat) : (s.scrubbed pg).badChannels = s.badChannels := by
  unfold State.scrubbed; split <;> rfl
@[simp] theorem State.scrubbed_points (s : State) (pg : Nat) : (s.scrubbed pg).points = s.points := by
  unfold State.scrubbed; split <;> rfl
@[simp] theorem State.scrubbed_telemetry (s : State) (pg : Nat) : (s.scrubbed pg).telemetry = s.telemetry := by
  unfold State.scrubbed; split <;> rfl
@[simp] theorem State.scrubbed_log (s : State) (pg : Nat) : (s.scrubbed pg).log = s.log := by
  unfold State.scrubbed; split <;> rfl
@[simp] theorem State.scrubbed_phase (s : State) (pg : Nat) : (s.scrubbed pg).phase = s.phase := by
  unfold State.scrubbed; split <;> rfl
@[simp] theorem State.scrubbed_bringupStatus (s : State) (pg : Nat) : (s.scrubbed pg).bringupStatus = s.bringupStatus := by
  unfold State.scrubbed; split <;> rfl
@[simp] theorem State.scrubbed_refusedFields (s : State) (pg : Nat) : (s.scrubbed pg).refusedFields = s.refusedFields := by
  unfold State.scrubbed; split <;> rfl
@[simp] theorem State.scrubbed_report (s : State) (pg : Nat) : (s.scrubbed pg).report = s.report := by
  unfold State.scrubbed; split <;> rfl
@[simp] theorem State.scrubbed_agenda (s : State) (pg : Nat) : (s.scrubbed pg).agenda = s.agenda := by
  unfold State.scrubbed; split <;> rfl
@[simp] theorem State.scrubbed_pace (s : State) (pg : Nat) : (s.scrubbed pg).pace = s.pace := by
  unfold State.scrubbed; split <;> rfl
@[simp] theorem State.scrubbed_delay (s : State) (pg : Nat) : (s.scrubbed pg).delay = s.delay := by
  unfold State.scrubbed; split <;> rfl
@[simp] theorem State.scrubbed_draw (s : State) (pg : Nat) : (s.scrubbed pg).draw = s.draw := by
  unfold State.scrubbed; split <;> rfl
@[simp] theorem State.scrubbed_nextId (s : State) (pg : Nat) : (s.scrubbed pg).nextId = s.nextId := by
  unfold State.scrubbed; split <;> rfl
@[simp] theorem State.setByte_hart (s : State) (pa : Nat) (b : Byte) : (s.setByte pa b).hart = s.hart :=
  s.scrubbed_hart _
@[simp] theorem State.setByte_cur (s : State) (pa : Nat) (b : Byte) : (s.setByte pa b).cur = s.cur :=
  s.scrubbed_cur _
@[simp] theorem State.setByte_others (s : State) (pa : Nat) (b : Byte) : (s.setByte pa b).others = s.others :=
  s.scrubbed_others _
@[simp] theorem State.setByte_deadGroups (s : State) (pa : Nat) (b : Byte) : (s.setByte pa b).deadGroups = s.deadGroups :=
  s.scrubbed_deadGroups _
@[simp] theorem State.setByte_toldPoison (s : State) (pa : Nat) (b : Byte) : (s.setByte pa b).toldPoison = s.toldPoison :=
  s.scrubbed_toldPoison _
@[simp] theorem State.setByte_over1 (s : State) (pa : Nat) (b : Byte) : (s.setByte pa b).over1 = s.over1 :=
  s.scrubbed_over1 _
@[simp] theorem State.setByte_over2 (s : State) (pa : Nat) (b : Byte) : (s.setByte pa b).over2 = s.over2 :=
  s.scrubbed_over2 _
@[simp] theorem State.setByte_pool (s : State) (pa : Nat) (b : Byte) : (s.setByte pa b).pool = s.pool :=
  s.scrubbed_pool _
@[simp] theorem State.setByte_clk (s : State) (pa : Nat) (b : Byte) : (s.setByte pa b).clk = s.clk :=
  s.scrubbed_clk _
@[simp] theorem State.setByte_time (s : State) (pa : Nat) (b : Byte) : (s.setByte pa b).time = s.time :=
  s.scrubbed_time _
@[simp] theorem State.setByte_sclk (s : State) (pa : Nat) (b : Byte) : (s.setByte pa b).sclk = s.sclk :=
  s.scrubbed_sclk _
@[simp] theorem State.setByte_sclkWas (s : State) (pa : Nat) (b : Byte) : (s.setByte pa b).sclkWas = s.sclkWas :=
  s.scrubbed_sclkWas _
@[simp] theorem State.setByte_ticket (s : State) (pa : Nat) (b : Byte) : (s.setByte pa b).ticket = s.ticket :=
  s.scrubbed_ticket _
@[simp] theorem State.setByte_sheaves (s : State) (pa : Nat) (b : Byte) : (s.setByte pa b).sheaves = s.sheaves :=
  s.scrubbed_sheaves _
@[simp] theorem State.setByte_lines (s : State) (pa : Nat) (b : Byte) : (s.setByte pa b).lines = s.lines :=
  s.scrubbed_lines _
@[simp] theorem State.setByte_fetches (s : State) (pa : Nat) (b : Byte) : (s.setByte pa b).fetches = s.fetches :=
  s.scrubbed_fetches _
@[simp] theorem State.setByte_debts (s : State) (pa : Nat) (b : Byte) : (s.setByte pa b).debts = s.debts :=
  s.scrubbed_debts _
@[simp] theorem State.setByte_ops (s : State) (pa : Nat) (b : Byte) : (s.setByte pa b).ops = s.ops :=
  s.scrubbed_ops _
@[simp] theorem State.setByte_parts (s : State) (pa : Nat) (b : Byte) : (s.setByte pa b).parts = s.parts :=
  s.scrubbed_parts _
@[simp] theorem State.setByte_farms (s : State) (pa : Nat) (b : Byte) : (s.setByte pa b).farms = s.farms :=
  s.scrubbed_farms _
@[simp] theorem State.setByte_fields (s : State) (pa : Nat) (b : Byte) : (s.setByte pa b).fields = s.fields :=
  s.scrubbed_fields _
@[simp] theorem State.setByte_jobs (s : State) (pa : Nat) (b : Byte) : (s.setByte pa b).jobs = s.jobs :=
  s.scrubbed_jobs _
@[simp] theorem State.setByte_transit (s : State) (pa : Nat) (b : Byte) : (s.setByte pa b).transit = s.transit :=
  s.scrubbed_transit _
@[simp] theorem State.setByte_held (s : State) (pa : Nat) (b : Byte) : (s.setByte pa b).held = s.held :=
  s.scrubbed_held _
@[simp] theorem State.setByte_schedWrites (s : State) (pa : Nat) (b : Byte) : (s.setByte pa b).schedWrites = s.schedWrites :=
  s.scrubbed_schedWrites _
@[simp] theorem State.setByte_outbox (s : State) (pa : Nat) (b : Byte) : (s.setByte pa b).outbox = s.outbox :=
  s.scrubbed_outbox _
@[simp] theorem State.setByte_exports (s : State) (pa : Nat) (b : Byte) : (s.setByte pa b).exports = s.exports :=
  s.scrubbed_exports _
@[simp] theorem State.setByte_pinWait (s : State) (pa : Nat) (b : Byte) : (s.setByte pa b).pinWait = s.pinWait :=
  s.scrubbed_pinWait _
@[simp] theorem State.setByte_invals (s : State) (pa : Nat) (b : Byte) : (s.setByte pa b).invals = s.invals :=
  s.scrubbed_invals _
@[simp] theorem State.setByte_caps (s : State) (pa : Nat) (b : Byte) : (s.setByte pa b).caps = s.caps :=
  s.scrubbed_caps _
@[simp] theorem State.setByte_columns (s : State) (pa : Nat) (b : Byte) : (s.setByte pa b).columns = s.columns :=
  s.scrubbed_columns _
@[simp] theorem State.setByte_threshold (s : State) (pa : Nat) (b : Byte) : (s.setByte pa b).threshold = s.threshold :=
  s.scrubbed_threshold _
@[simp] theorem State.setByte_remaps (s : State) (pa : Nat) (b : Byte) : (s.setByte pa b).remaps = s.remaps :=
  s.scrubbed_remaps _
@[simp] theorem State.setByte_rowErrors (s : State) (pa : Nat) (b : Byte) : (s.setByte pa b).rowErrors = s.rowErrors :=
  s.scrubbed_rowErrors _
@[simp] theorem State.setByte_badChannels (s : State) (pa : Nat) (b : Byte) : (s.setByte pa b).badChannels = s.badChannels :=
  s.scrubbed_badChannels _
@[simp] theorem State.setByte_points (s : State) (pa : Nat) (b : Byte) : (s.setByte pa b).points = s.points :=
  s.scrubbed_points _
@[simp] theorem State.setByte_telemetry (s : State) (pa : Nat) (b : Byte) : (s.setByte pa b).telemetry = s.telemetry :=
  s.scrubbed_telemetry _
@[simp] theorem State.setByte_log (s : State) (pa : Nat) (b : Byte) : (s.setByte pa b).log = s.log :=
  s.scrubbed_log _
@[simp] theorem State.setByte_phase (s : State) (pa : Nat) (b : Byte) : (s.setByte pa b).phase = s.phase :=
  s.scrubbed_phase _
@[simp] theorem State.setByte_bringupStatus (s : State) (pa : Nat) (b : Byte) : (s.setByte pa b).bringupStatus = s.bringupStatus :=
  s.scrubbed_bringupStatus _
@[simp] theorem State.setByte_refusedFields (s : State) (pa : Nat) (b : Byte) : (s.setByte pa b).refusedFields = s.refusedFields :=
  s.scrubbed_refusedFields _
@[simp] theorem State.setByte_report (s : State) (pa : Nat) (b : Byte) : (s.setByte pa b).report = s.report :=
  s.scrubbed_report _
@[simp] theorem State.setByte_agenda (s : State) (pa : Nat) (b : Byte) : (s.setByte pa b).agenda = s.agenda :=
  s.scrubbed_agenda _
@[simp] theorem State.setByte_pace (s : State) (pa : Nat) (b : Byte) : (s.setByte pa b).pace = s.pace :=
  s.scrubbed_pace _
@[simp] theorem State.setByte_delay (s : State) (pa : Nat) (b : Byte) : (s.setByte pa b).delay = s.delay :=
  s.scrubbed_delay _
@[simp] theorem State.setByte_draw (s : State) (pa : Nat) (b : Byte) : (s.setByte pa b).draw = s.draw :=
  s.scrubbed_draw _
@[simp] theorem State.setByte_nextId (s : State) (pa : Nat) (b : Byte) : (s.setByte pa b).nextId = s.nextId :=
  s.scrubbed_nextId _

/- `State.writeAll` writes memory, may clear scrub marks, and notes the harts that sleep on the bytes. -/

@[simp] theorem State.writeAll_hart (s : State) (pas : List Nat) (bs : List Byte) : (s.writeAll pas bs).hart = s.hart := by
  induction pas generalizing s bs with
  | nil => simp [State.writeAll]
  | cons pa pas ih => cases bs <;> simp [State.writeAll, ih]
@[simp] theorem State.writeAll_cur (s : State) (pas : List Nat) (bs : List Byte) : (s.writeAll pas bs).cur = s.cur := by
  induction pas generalizing s bs with
  | nil => simp [State.writeAll]
  | cons pa pas ih => cases bs <;> simp [State.writeAll, ih]
@[simp] theorem State.writeAll_others (s : State) (pas : List Nat) (bs : List Byte) : (s.writeAll pas bs).others = s.others := by
  induction pas generalizing s bs with
  | nil => simp [State.writeAll]
  | cons pa pas ih => cases bs <;> simp [State.writeAll, ih]
@[simp] theorem State.writeAll_deadGroups (s : State) (pas : List Nat) (bs : List Byte) : (s.writeAll pas bs).deadGroups = s.deadGroups := by
  induction pas generalizing s bs with
  | nil => simp [State.writeAll]
  | cons pa pas ih => cases bs <;> simp [State.writeAll, ih]
@[simp] theorem State.writeAll_toldPoison (s : State) (pas : List Nat) (bs : List Byte) : (s.writeAll pas bs).toldPoison = s.toldPoison := by
  induction pas generalizing s bs with
  | nil => simp [State.writeAll]
  | cons pa pas ih => cases bs <;> simp [State.writeAll, ih]
@[simp] theorem State.writeAll_over1 (s : State) (pas : List Nat) (bs : List Byte) : (s.writeAll pas bs).over1 = s.over1 := by
  induction pas generalizing s bs with
  | nil => simp [State.writeAll]
  | cons pa pas ih => cases bs <;> simp [State.writeAll, ih]
@[simp] theorem State.writeAll_over2 (s : State) (pas : List Nat) (bs : List Byte) : (s.writeAll pas bs).over2 = s.over2 := by
  induction pas generalizing s bs with
  | nil => simp [State.writeAll]
  | cons pa pas ih => cases bs <;> simp [State.writeAll, ih]
@[simp] theorem State.writeAll_pool (s : State) (pas : List Nat) (bs : List Byte) : (s.writeAll pas bs).pool = s.pool := by
  induction pas generalizing s bs with
  | nil => simp [State.writeAll]
  | cons pa pas ih => cases bs <;> simp [State.writeAll, ih]
@[simp] theorem State.writeAll_clk (s : State) (pas : List Nat) (bs : List Byte) : (s.writeAll pas bs).clk = s.clk := by
  induction pas generalizing s bs with
  | nil => simp [State.writeAll]
  | cons pa pas ih => cases bs <;> simp [State.writeAll, ih]
@[simp] theorem State.writeAll_time (s : State) (pas : List Nat) (bs : List Byte) : (s.writeAll pas bs).time = s.time := by
  induction pas generalizing s bs with
  | nil => simp [State.writeAll]
  | cons pa pas ih => cases bs <;> simp [State.writeAll, ih]
@[simp] theorem State.writeAll_sclk (s : State) (pas : List Nat) (bs : List Byte) : (s.writeAll pas bs).sclk = s.sclk := by
  induction pas generalizing s bs with
  | nil => simp [State.writeAll]
  | cons pa pas ih => cases bs <;> simp [State.writeAll, ih]
@[simp] theorem State.writeAll_sclkWas (s : State) (pas : List Nat) (bs : List Byte) : (s.writeAll pas bs).sclkWas = s.sclkWas := by
  induction pas generalizing s bs with
  | nil => simp [State.writeAll]
  | cons pa pas ih => cases bs <;> simp [State.writeAll, ih]
@[simp] theorem State.writeAll_ticket (s : State) (pas : List Nat) (bs : List Byte) : (s.writeAll pas bs).ticket = s.ticket := by
  induction pas generalizing s bs with
  | nil => simp [State.writeAll]
  | cons pa pas ih => cases bs <;> simp [State.writeAll, ih]
@[simp] theorem State.writeAll_sheaves (s : State) (pas : List Nat) (bs : List Byte) : (s.writeAll pas bs).sheaves = s.sheaves := by
  induction pas generalizing s bs with
  | nil => simp [State.writeAll]
  | cons pa pas ih => cases bs <;> simp [State.writeAll, ih]
@[simp] theorem State.writeAll_lines (s : State) (pas : List Nat) (bs : List Byte) : (s.writeAll pas bs).lines = s.lines := by
  induction pas generalizing s bs with
  | nil => simp [State.writeAll]
  | cons pa pas ih => cases bs <;> simp [State.writeAll, ih]
@[simp] theorem State.writeAll_fetches (s : State) (pas : List Nat) (bs : List Byte) : (s.writeAll pas bs).fetches = s.fetches := by
  induction pas generalizing s bs with
  | nil => simp [State.writeAll]
  | cons pa pas ih => cases bs <;> simp [State.writeAll, ih]
@[simp] theorem State.writeAll_debts (s : State) (pas : List Nat) (bs : List Byte) : (s.writeAll pas bs).debts = s.debts := by
  induction pas generalizing s bs with
  | nil => simp [State.writeAll]
  | cons pa pas ih => cases bs <;> simp [State.writeAll, ih]
@[simp] theorem State.writeAll_ops (s : State) (pas : List Nat) (bs : List Byte) : (s.writeAll pas bs).ops = s.ops := by
  induction pas generalizing s bs with
  | nil => simp [State.writeAll]
  | cons pa pas ih => cases bs <;> simp [State.writeAll, ih]
@[simp] theorem State.writeAll_parts (s : State) (pas : List Nat) (bs : List Byte) : (s.writeAll pas bs).parts = s.parts := by
  induction pas generalizing s bs with
  | nil => simp [State.writeAll]
  | cons pa pas ih => cases bs <;> simp [State.writeAll, ih]
@[simp] theorem State.writeAll_farms (s : State) (pas : List Nat) (bs : List Byte) : (s.writeAll pas bs).farms = s.farms := by
  induction pas generalizing s bs with
  | nil => simp [State.writeAll]
  | cons pa pas ih => cases bs <;> simp [State.writeAll, ih]
@[simp] theorem State.writeAll_fields (s : State) (pas : List Nat) (bs : List Byte) : (s.writeAll pas bs).fields = s.fields := by
  induction pas generalizing s bs with
  | nil => simp [State.writeAll]
  | cons pa pas ih => cases bs <;> simp [State.writeAll, ih]
@[simp] theorem State.writeAll_jobs (s : State) (pas : List Nat) (bs : List Byte) : (s.writeAll pas bs).jobs = s.jobs := by
  induction pas generalizing s bs with
  | nil => simp [State.writeAll]
  | cons pa pas ih => cases bs <;> simp [State.writeAll, ih]
@[simp] theorem State.writeAll_transit (s : State) (pas : List Nat) (bs : List Byte) : (s.writeAll pas bs).transit = s.transit := by
  induction pas generalizing s bs with
  | nil => simp [State.writeAll]
  | cons pa pas ih => cases bs <;> simp [State.writeAll, ih]
@[simp] theorem State.writeAll_held (s : State) (pas : List Nat) (bs : List Byte) : (s.writeAll pas bs).held = s.held := by
  induction pas generalizing s bs with
  | nil => simp [State.writeAll]
  | cons pa pas ih => cases bs <;> simp [State.writeAll, ih]
@[simp] theorem State.writeAll_schedWrites (s : State) (pas : List Nat) (bs : List Byte) : (s.writeAll pas bs).schedWrites = s.schedWrites := by
  induction pas generalizing s bs with
  | nil => simp [State.writeAll]
  | cons pa pas ih => cases bs <;> simp [State.writeAll, ih]
@[simp] theorem State.writeAll_outbox (s : State) (pas : List Nat) (bs : List Byte) : (s.writeAll pas bs).outbox = s.outbox := by
  induction pas generalizing s bs with
  | nil => simp [State.writeAll]
  | cons pa pas ih => cases bs <;> simp [State.writeAll, ih]
@[simp] theorem State.writeAll_exports (s : State) (pas : List Nat) (bs : List Byte) : (s.writeAll pas bs).exports = s.exports := by
  induction pas generalizing s bs with
  | nil => simp [State.writeAll]
  | cons pa pas ih => cases bs <;> simp [State.writeAll, ih]
@[simp] theorem State.writeAll_pinWait (s : State) (pas : List Nat) (bs : List Byte) : (s.writeAll pas bs).pinWait = s.pinWait := by
  induction pas generalizing s bs with
  | nil => simp [State.writeAll]
  | cons pa pas ih => cases bs <;> simp [State.writeAll, ih]
@[simp] theorem State.writeAll_invals (s : State) (pas : List Nat) (bs : List Byte) : (s.writeAll pas bs).invals = s.invals := by
  induction pas generalizing s bs with
  | nil => simp [State.writeAll]
  | cons pa pas ih => cases bs <;> simp [State.writeAll, ih]
@[simp] theorem State.writeAll_caps (s : State) (pas : List Nat) (bs : List Byte) : (s.writeAll pas bs).caps = s.caps := by
  induction pas generalizing s bs with
  | nil => simp [State.writeAll]
  | cons pa pas ih => cases bs <;> simp [State.writeAll, ih]
@[simp] theorem State.writeAll_columns (s : State) (pas : List Nat) (bs : List Byte) : (s.writeAll pas bs).columns = s.columns := by
  induction pas generalizing s bs with
  | nil => simp [State.writeAll]
  | cons pa pas ih => cases bs <;> simp [State.writeAll, ih]
@[simp] theorem State.writeAll_threshold (s : State) (pas : List Nat) (bs : List Byte) : (s.writeAll pas bs).threshold = s.threshold := by
  induction pas generalizing s bs with
  | nil => simp [State.writeAll]
  | cons pa pas ih => cases bs <;> simp [State.writeAll, ih]
@[simp] theorem State.writeAll_remaps (s : State) (pas : List Nat) (bs : List Byte) : (s.writeAll pas bs).remaps = s.remaps := by
  induction pas generalizing s bs with
  | nil => simp [State.writeAll]
  | cons pa pas ih => cases bs <;> simp [State.writeAll, ih]
@[simp] theorem State.writeAll_rowErrors (s : State) (pas : List Nat) (bs : List Byte) : (s.writeAll pas bs).rowErrors = s.rowErrors := by
  induction pas generalizing s bs with
  | nil => simp [State.writeAll]
  | cons pa pas ih => cases bs <;> simp [State.writeAll, ih]
@[simp] theorem State.writeAll_badChannels (s : State) (pas : List Nat) (bs : List Byte) : (s.writeAll pas bs).badChannels = s.badChannels := by
  induction pas generalizing s bs with
  | nil => simp [State.writeAll]
  | cons pa pas ih => cases bs <;> simp [State.writeAll, ih]
@[simp] theorem State.writeAll_points (s : State) (pas : List Nat) (bs : List Byte) : (s.writeAll pas bs).points = s.points := by
  induction pas generalizing s bs with
  | nil => simp [State.writeAll]
  | cons pa pas ih => cases bs <;> simp [State.writeAll, ih]
@[simp] theorem State.writeAll_telemetry (s : State) (pas : List Nat) (bs : List Byte) : (s.writeAll pas bs).telemetry = s.telemetry := by
  induction pas generalizing s bs with
  | nil => simp [State.writeAll]
  | cons pa pas ih => cases bs <;> simp [State.writeAll, ih]
@[simp] theorem State.writeAll_log (s : State) (pas : List Nat) (bs : List Byte) : (s.writeAll pas bs).log = s.log := by
  induction pas generalizing s bs with
  | nil => simp [State.writeAll]
  | cons pa pas ih => cases bs <;> simp [State.writeAll, ih]
@[simp] theorem State.writeAll_phase (s : State) (pas : List Nat) (bs : List Byte) : (s.writeAll pas bs).phase = s.phase := by
  induction pas generalizing s bs with
  | nil => simp [State.writeAll]
  | cons pa pas ih => cases bs <;> simp [State.writeAll, ih]
@[simp] theorem State.writeAll_bringupStatus (s : State) (pas : List Nat) (bs : List Byte) : (s.writeAll pas bs).bringupStatus = s.bringupStatus := by
  induction pas generalizing s bs with
  | nil => simp [State.writeAll]
  | cons pa pas ih => cases bs <;> simp [State.writeAll, ih]
@[simp] theorem State.writeAll_refusedFields (s : State) (pas : List Nat) (bs : List Byte) : (s.writeAll pas bs).refusedFields = s.refusedFields := by
  induction pas generalizing s bs with
  | nil => simp [State.writeAll]
  | cons pa pas ih => cases bs <;> simp [State.writeAll, ih]
@[simp] theorem State.writeAll_report (s : State) (pas : List Nat) (bs : List Byte) : (s.writeAll pas bs).report = s.report := by
  induction pas generalizing s bs with
  | nil => simp [State.writeAll]
  | cons pa pas ih => cases bs <;> simp [State.writeAll, ih]
@[simp] theorem State.writeAll_agenda (s : State) (pas : List Nat) (bs : List Byte) : (s.writeAll pas bs).agenda = s.agenda := by
  induction pas generalizing s bs with
  | nil => simp [State.writeAll]
  | cons pa pas ih => cases bs <;> simp [State.writeAll, ih]
@[simp] theorem State.writeAll_pace (s : State) (pas : List Nat) (bs : List Byte) : (s.writeAll pas bs).pace = s.pace := by
  induction pas generalizing s bs with
  | nil => simp [State.writeAll]
  | cons pa pas ih => cases bs <;> simp [State.writeAll, ih]
@[simp] theorem State.writeAll_delay (s : State) (pas : List Nat) (bs : List Byte) : (s.writeAll pas bs).delay = s.delay := by
  induction pas generalizing s bs with
  | nil => simp [State.writeAll]
  | cons pa pas ih => cases bs <;> simp [State.writeAll, ih]
@[simp] theorem State.writeAll_draw (s : State) (pas : List Nat) (bs : List Byte) : (s.writeAll pas bs).draw = s.draw := by
  induction pas generalizing s bs with
  | nil => simp [State.writeAll]
  | cons pa pas ih => cases bs <;> simp [State.writeAll, ih]
@[simp] theorem State.writeAll_nextId (s : State) (pas : List Nat) (bs : List Byte) : (s.writeAll pas bs).nextId = s.nextId := by
  induction pas generalizing s bs with
  | nil => simp [State.writeAll]
  | cons pa pas ih => cases bs <;> simp [State.writeAll, ih]

/- `Hart.wr` writes one scalar register and settles what was owed to it. -/

@[simp] theorem Hart.wr_pc (h : Hart) (r : Reg) (v : Word) : (h.wr r v).pc = h.pc := by
  unfold Hart.wr; split <;> rfl
@[simp] theorem Hart.wr_v (h : Hart) (r : Reg) (v : Word) : (h.wr r v).v = h.v := by
  unfold Hart.wr; split <;> rfl
@[simp] theorem Hart.wr_p (h : Hart) (r : Reg) (v : Word) : (h.wr r v).p = h.p := by
  unfold Hart.wr; split <;> rfl
@[simp] theorem Hart.wr_k (h : Hart) (r : Reg) (v : Word) : (h.wr r v).k = h.k := by
  unfold Hart.wr; split <;> rfl
@[simp] theorem Hart.wr_z (h : Hart) (r : Reg) (v : Word) : (h.wr r v).z = h.z := by
  unfold Hart.wr; split <;> rfl
@[simp] theorem Hart.wr_hreg (h : Hart) (r : Reg) (v : Word) : (h.wr r v).hreg = h.hreg := by
  unfold Hart.wr; split <;> rfl
@[simp] theorem Hart.wr_laneTab (h : Hart) (r : Reg) (v : Word) : (h.wr r v).laneTab = h.laneTab := by
  unfold Hart.wr; split <;> rfl
@[simp] theorem Hart.wr_laneMask (h : Hart) (r : Reg) (v : Word) : (h.wr r v).laneMask = h.laneMask := by
  unfold Hart.wr; split <;> rfl
@[simp] theorem Hart.wr_queue (h : Hart) (r : Reg) (v : Word) : (h.wr r v).queue = h.queue := by
  unfold Hart.wr; split <;> rfl
@[simp] theorem Hart.wr_grant (h : Hart) (r : Reg) (v : Word) : (h.wr r v).grant = h.grant := by
  unfold Hart.wr; split <;> rfl
@[simp] theorem Hart.wr_rowBase (h : Hart) (r : Reg) (v : Word) : (h.wr r v).rowBase = h.rowBase := by
  unfold Hart.wr; split <;> rfl
@[simp] theorem Hart.wr_rowCount (h : Hart) (r : Reg) (v : Word) : (h.wr r v).rowCount = h.rowCount := by
  unfold Hart.wr; split <;> rfl
@[simp] theorem Hart.wr_cells (h : Hart) (r : Reg) (v : Word) : (h.wr r v).cells = h.cells := by
  unfold Hart.wr; split <;> rfl
@[simp] theorem Hart.wr_marks (h : Hart) (r : Reg) (v : Word) : (h.wr r v).marks = h.marks := by
  unfold Hart.wr; split <;> rfl
@[simp] theorem Hart.wr_farm (h : Hart) (r : Reg) (v : Word) : (h.wr r v).farm = h.farm := by
  unfold Hart.wr; split <;> rfl
@[simp] theorem Hart.wr_stripId (h : Hart) (r : Reg) (v : Word) : (h.wr r v).stripId = h.stripId := by
  unfold Hart.wr; split <;> rfl
@[simp] theorem Hart.wr_holdsStrip (h : Hart) (r : Reg) (v : Word) : (h.wr r v).holdsStrip = h.holdsStrip := by
  unfold Hart.wr; split <;> rfl
@[simp] theorem Hart.wr_part (h : Hart) (r : Reg) (v : Word) : (h.wr r v).part = h.part := by
  unfold Hart.wr; split <;> rfl
@[simp] theorem Hart.wr_vstart (h : Hart) (r : Reg) (v : Word) : (h.wr r v).vstart = h.vstart := by
  unfold Hart.wr; split <;> rfl
@[simp] theorem Hart.wr_startHeld (h : Hart) (r : Reg) (v : Word) : (h.wr r v).startHeld = h.startHeld := by
  unfold Hart.wr; split <;> rfl
@[simp] theorem Hart.wr_vla (h : Hart) (r : Reg) (v : Word) : (h.wr r v).vla = h.vla := by
  unfold Hart.wr; split <;> rfl
@[simp] theorem Hart.wr_vfret (h : Hart) (r : Reg) (v : Word) : (h.wr r v).vfret = h.vfret := by
  unfold Hart.wr; split <;> rfl
@[simp] theorem Hart.wr_ropepart (h : Hart) (r : Reg) (v : Word) : (h.wr r v).ropepart = h.ropepart := by
  unfold Hart.wr; split <;> rfl
@[simp] theorem Hart.wr_fmtdef (h : Hart) (r : Reg) (v : Word) : (h.wr r v).fmtdef = h.fmtdef := by
  unfold Hart.wr; split <;> rfl
@[simp] theorem Hart.wr_frm (h : Hart) (r : Reg) (v : Word) : (h.wr r v).frm = h.frm := by
  unfold Hart.wr; split <;> rfl
@[simp] theorem Hart.wr_fflags (h : Hart) (r : Reg) (v : Word) : (h.wr r v).fflags = h.fflags := by
  unfold Hart.wr; split <;> rfl
@[simp] theorem Hart.wr_nwin (h : Hart) (r : Reg) (v : Word) : (h.wr r v).nwin = h.nwin := by
  unfold Hart.wr; split <;> rfl
@[simp] theorem Hart.wr_ntEn (h : Hart) (r : Reg) (v : Word) : (h.wr r v).ntEn = h.ntEn := by
  unfold Hart.wr; split <;> rfl
@[simp] theorem Hart.wr_ntHost (h : Hart) (r : Reg) (v : Word) : (h.wr r v).ntHost = h.ntHost := by
  unfold Hart.wr; split <;> rfl
@[simp] theorem Hart.wr_nthr (h : Hart) (r : Reg) (v : Word) : (h.wr r v).nthr = h.nthr := by
  unfold Hart.wr; split <;> rfl
@[simp] theorem Hart.wr_ncnt (h : Hart) (r : Reg) (v : Word) : (h.wr r v).ncnt = h.ncnt := by
  unfold Hart.wr; split <;> rfl
@[simp] theorem Hart.wr_bank0 (h : Hart) (r : Reg) (v : Word) : (h.wr r v).bank0 = h.bank0 := by
  unfold Hart.wr; split <;> rfl
@[simp] theorem Hart.wr_bank1 (h : Hart) (r : Reg) (v : Word) : (h.wr r v).bank1 = h.bank1 := by
  unfold Hart.wr; split <;> rfl
@[simp] theorem Hart.wr_level (h : Hart) (r : Reg) (v : Word) : (h.wr r v).level = h.level := by
  unfold Hart.wr; split <;> rfl
@[simp] theorem Hart.wr_engev (h : Hart) (r : Reg) (v : Word) : (h.wr r v).engev = h.engev := by
  unfold Hart.wr; split <;> rfl
@[simp] theorem Hart.wr_events (h : Hart) (r : Reg) (v : Word) : (h.wr r v).events = h.events := by
  unfold Hart.wr; split <;> rfl
@[simp] theorem Hart.wr_lost (h : Hart) (r : Reg) (v : Word) : (h.wr r v).lost = h.lost := by
  unfold Hart.wr; split <;> rfl
@[simp] theorem Hart.wr_dbg (h : Hart) (r : Reg) (v : Word) : (h.wr r v).dbg = h.dbg := by
  unfold Hart.wr; split <;> rfl
@[simp] theorem Hart.wr_retcount (h : Hart) (r : Reg) (v : Word) : (h.wr r v).retcount = h.retcount := by
  unfold Hart.wr; split <;> rfl
@[simp] theorem Hart.wr_lanecyc (h : Hart) (r : Reg) (v : Word) : (h.wr r v).lanecyc = h.lanecyc := by
  unfold Hart.wr; split <;> rfl
@[simp] theorem Hart.wr_sinceDispatch (h : Hart) (r : Reg) (v : Word) : (h.wr r v).sinceDispatch = h.sinceDispatch := by
  unfold Hart.wr; split <;> rfl
@[simp] theorem Hart.wr_status (h : Hart) (r : Reg) (v : Word) : (h.wr r v).status = h.status := by
  unfold Hart.wr; split <;> rfl
@[simp] theorem Hart.wr_ending (h : Hart) (r : Reg) (v : Word) : (h.wr r v).ending = h.ending := by
  unfold Hart.wr; split <;> rfl
@[simp] theorem Hart.wr_sleepAddr (h : Hart) (r : Reg) (v : Word) : (h.wr r v).sleepAddr = h.sleepAddr := by
  unfold Hart.wr; split <;> rfl
@[simp] theorem Hart.wr_sleepPas (h : Hart) (r : Reg) (v : Word) : (h.wr r v).sleepPas = h.sleepPas := by
  unfold Hart.wr; split <;> rfl
@[simp] theorem Hart.wr_sleepCmp (h : Hart) (r : Reg) (v : Word) : (h.wr r v).sleepCmp = h.sleepCmp := by
  unfold Hart.wr; split <;> rfl
@[simp] theorem Hart.wr_resumeNext (h : Hart) (r : Reg) (v : Word) : (h.wr r v).resumeNext = h.resumeNext := by
  unfold Hart.wr; split <;> rfl
@[simp] theorem Hart.wr_owed (h : Hart) (r : Reg) (v : Word) : (h.wr r v).owed = h.owed := by
  unfold Hart.wr; split <;> rfl
@[simp] theorem Hart.wr_since (h : Hart) (r : Reg) (v : Word) : (h.wr r v).since = h.since := by
  unfold Hart.wr; split <;> rfl
@[simp] theorem Hart.wr_needsReserved (h : Hart) (r : Reg) (v : Word) : (h.wr r v).needsReserved = h.needsReserved := by
  unfold Hart.wr; split <;> rfl
@[simp] theorem Hart.wr_asked (h : Hart) (r : Reg) (v : Word) : (h.wr r v).asked = h.asked := by
  unfold Hart.wr; split <;> rfl
@[simp] theorem Hart.wr_preempted (h : Hart) (r : Reg) (v : Word) : (h.wr r v).preempted = h.preempted := by
  unfold Hart.wr; split <;> rfl
@[simp] theorem Hart.wr_owedX (h : Hart) (r : Reg) (v : Word) : (h.wr r v).owedX = h.owedX := by
  unfold Hart.wr; split <;> rfl
@[simp] theorem Hart.wr_gangWait (h : Hart) (r : Reg) (v : Word) : (h.wr r v).gangWait = h.gangWait := by
  unfold Hart.wr; split <;> rfl
@[simp] theorem Hart.wr_advs (h : Hart) (r : Reg) (v : Word) : (h.wr r v).advs = h.advs := by
  unfold Hart.wr; split <;> rfl
@[simp] theorem Hart.wr_barcount (h : Hart) (r : Reg) (v : Word) : (h.wr r v).barcount = h.barcount := by
  unfold Hart.wr; split <;> rfl
@[simp] theorem Hart.wr_barWaiting (h : Hart) (r : Reg) (v : Word) : (h.wr r v).barWaiting = h.barWaiting := by
  unfold Hart.wr; split <;> rfl
@[simp] theorem Hart.wr_exiting (h : Hart) (r : Reg) (v : Word) : (h.wr r v).exiting = h.exiting := by
  unfold Hart.wr; split <;> rfl
@[simp] theorem Hart.wr_sbuf (h : Hart) (r : Reg) (v : Word) : (h.wr r v).sbuf = h.sbuf := by
  unfold Hart.wr; split <;> rfl
@[simp] theorem Hart.wr_vq (h : Hart) (r : Reg) (v : Word) : (h.wr r v).vq = h.vq := by
  unfold Hart.wr; split <;> rfl
@[simp] theorem Hart.wr_early (h : Hart) (r : Reg) (v : Word) : (h.wr r v).early = h.early := by
  unfold Hart.wr; split <;> rfl
@[simp] theorem Hart.wr_trapWait (h : Hart) (r : Reg) (v : Word) : (h.wr r v).trapWait = h.trapWait := by
  unfold Hart.wr; split <;> rfl
@[simp] theorem Hart.wr_nextSerial (h : Hart) (r : Reg) (v : Word) : (h.wr r v).nextSerial = h.nextSerial := by
  unfold Hart.wr; split <;> rfl
@[simp] theorem Hart.wr_ctlStall (h : Hart) (r : Reg) (v : Word) : (h.wr r v).ctlStall = h.ctlStall := by
  unfold Hart.wr; split <;> rfl
@[simp] theorem Hart.wr_seqStall (h : Hart) (r : Reg) (v : Word) : (h.wr r v).seqStall = h.seqStall := by
  unfold Hart.wr; split <;> rfl

/-- x0 reads 0 (R21). -/
@[simp] theorem Hart.rd_zero (h : Hart) : h.rd 0 = 0 := rfl

/-- A register written reads as what was written (R21). -/
theorem Hart.rd_wr_same (h : Hart) (r : Reg) (v : Word) (hr : r ≠ 0) : (h.wr r v).rd r = v := by
  simp [Hart.wr, Hart.rd, hr]

/-- A write to x0 is discarded (R21). -/
@[simp] theorem Hart.wr_zero (h : Hart) (v : Word) : h.wr 0 v = h := rfl

/-- A write leaves every other register alone. -/
theorem Hart.rd_wr_other (h : Hart) (r q : Reg) (v : Word) (hq : q ≠ r) : (h.wr r v).rd q = h.rd q := by
  by_cases h0 : r = 0
  · simp [h0]
  · by_cases hz : q = 0
    · simp [hz]
    · have : r.val ≠ q.val := fun e => hq (Fin.ext e.symm)
      simp [Hart.wr, Hart.rd, h0, hz, this]

/- `Hart.wrV` writes one vector register. -/

@[simp] theorem Hart.wrV_pc (h : Hart) (v : VIx) (r : VReg) : (h.wrV v r).pc = h.pc := rfl
@[simp] theorem Hart.wrV_x (h : Hart) (v : VIx) (r : VReg) : (h.wrV v r).x = h.x := rfl
@[simp] theorem Hart.wrV_p (h : Hart) (v : VIx) (r : VReg) : (h.wrV v r).p = h.p := rfl
@[simp] theorem Hart.wrV_k (h : Hart) (v : VIx) (r : VReg) : (h.wrV v r).k = h.k := rfl
@[simp] theorem Hart.wrV_z (h : Hart) (v : VIx) (r : VReg) : (h.wrV v r).z = h.z := rfl
@[simp] theorem Hart.wrV_hreg (h : Hart) (v : VIx) (r : VReg) : (h.wrV v r).hreg = h.hreg := rfl
@[simp] theorem Hart.wrV_laneTab (h : Hart) (v : VIx) (r : VReg) : (h.wrV v r).laneTab = h.laneTab := rfl
@[simp] theorem Hart.wrV_laneMask (h : Hart) (v : VIx) (r : VReg) : (h.wrV v r).laneMask = h.laneMask := rfl
@[simp] theorem Hart.wrV_queue (h : Hart) (v : VIx) (r : VReg) : (h.wrV v r).queue = h.queue := rfl
@[simp] theorem Hart.wrV_grant (h : Hart) (v : VIx) (r : VReg) : (h.wrV v r).grant = h.grant := rfl
@[simp] theorem Hart.wrV_rowBase (h : Hart) (v : VIx) (r : VReg) : (h.wrV v r).rowBase = h.rowBase := rfl
@[simp] theorem Hart.wrV_rowCount (h : Hart) (v : VIx) (r : VReg) : (h.wrV v r).rowCount = h.rowCount := rfl
@[simp] theorem Hart.wrV_cells (h : Hart) (v : VIx) (r : VReg) : (h.wrV v r).cells = h.cells := rfl
@[simp] theorem Hart.wrV_marks (h : Hart) (v : VIx) (r : VReg) : (h.wrV v r).marks = h.marks := rfl
@[simp] theorem Hart.wrV_farm (h : Hart) (v : VIx) (r : VReg) : (h.wrV v r).farm = h.farm := rfl
@[simp] theorem Hart.wrV_stripId (h : Hart) (v : VIx) (r : VReg) : (h.wrV v r).stripId = h.stripId := rfl
@[simp] theorem Hart.wrV_holdsStrip (h : Hart) (v : VIx) (r : VReg) : (h.wrV v r).holdsStrip = h.holdsStrip := rfl
@[simp] theorem Hart.wrV_part (h : Hart) (v : VIx) (r : VReg) : (h.wrV v r).part = h.part := rfl
@[simp] theorem Hart.wrV_vstart (h : Hart) (v : VIx) (r : VReg) : (h.wrV v r).vstart = h.vstart := rfl
@[simp] theorem Hart.wrV_startHeld (h : Hart) (v : VIx) (r : VReg) : (h.wrV v r).startHeld = h.startHeld := rfl
@[simp] theorem Hart.wrV_vla (h : Hart) (v : VIx) (r : VReg) : (h.wrV v r).vla = h.vla := rfl
@[simp] theorem Hart.wrV_vfret (h : Hart) (v : VIx) (r : VReg) : (h.wrV v r).vfret = h.vfret := rfl
@[simp] theorem Hart.wrV_ropepart (h : Hart) (v : VIx) (r : VReg) : (h.wrV v r).ropepart = h.ropepart := rfl
@[simp] theorem Hart.wrV_fmtdef (h : Hart) (v : VIx) (r : VReg) : (h.wrV v r).fmtdef = h.fmtdef := rfl
@[simp] theorem Hart.wrV_frm (h : Hart) (v : VIx) (r : VReg) : (h.wrV v r).frm = h.frm := rfl
@[simp] theorem Hart.wrV_fflags (h : Hart) (v : VIx) (r : VReg) : (h.wrV v r).fflags = h.fflags := rfl
@[simp] theorem Hart.wrV_nwin (h : Hart) (v : VIx) (r : VReg) : (h.wrV v r).nwin = h.nwin := rfl
@[simp] theorem Hart.wrV_ntEn (h : Hart) (v : VIx) (r : VReg) : (h.wrV v r).ntEn = h.ntEn := rfl
@[simp] theorem Hart.wrV_ntHost (h : Hart) (v : VIx) (r : VReg) : (h.wrV v r).ntHost = h.ntHost := rfl
@[simp] theorem Hart.wrV_nthr (h : Hart) (v : VIx) (r : VReg) : (h.wrV v r).nthr = h.nthr := rfl
@[simp] theorem Hart.wrV_ncnt (h : Hart) (v : VIx) (r : VReg) : (h.wrV v r).ncnt = h.ncnt := rfl
@[simp] theorem Hart.wrV_bank0 (h : Hart) (v : VIx) (r : VReg) : (h.wrV v r).bank0 = h.bank0 := rfl
@[simp] theorem Hart.wrV_bank1 (h : Hart) (v : VIx) (r : VReg) : (h.wrV v r).bank1 = h.bank1 := rfl
@[simp] theorem Hart.wrV_level (h : Hart) (v : VIx) (r : VReg) : (h.wrV v r).level = h.level := rfl
@[simp] theorem Hart.wrV_engev (h : Hart) (v : VIx) (r : VReg) : (h.wrV v r).engev = h.engev := rfl
@[simp] theorem Hart.wrV_events (h : Hart) (v : VIx) (r : VReg) : (h.wrV v r).events = h.events := rfl
@[simp] theorem Hart.wrV_lost (h : Hart) (v : VIx) (r : VReg) : (h.wrV v r).lost = h.lost := rfl
@[simp] theorem Hart.wrV_dbg (h : Hart) (v : VIx) (r : VReg) : (h.wrV v r).dbg = h.dbg := rfl
@[simp] theorem Hart.wrV_retcount (h : Hart) (v : VIx) (r : VReg) : (h.wrV v r).retcount = h.retcount := rfl
@[simp] theorem Hart.wrV_lanecyc (h : Hart) (v : VIx) (r : VReg) : (h.wrV v r).lanecyc = h.lanecyc := rfl
@[simp] theorem Hart.wrV_sinceDispatch (h : Hart) (v : VIx) (r : VReg) : (h.wrV v r).sinceDispatch = h.sinceDispatch := rfl
@[simp] theorem Hart.wrV_pending (h : Hart) (v : VIx) (r : VReg) : (h.wrV v r).pending = h.pending := rfl
@[simp] theorem Hart.wrV_failedX (h : Hart) (v : VIx) (r : VReg) : (h.wrV v r).failedX = h.failedX := rfl
@[simp] theorem Hart.wrV_status (h : Hart) (v : VIx) (r : VReg) : (h.wrV v r).status = h.status := rfl
@[simp] theorem Hart.wrV_ending (h : Hart) (v : VIx) (r : VReg) : (h.wrV v r).ending = h.ending := rfl
@[simp] theorem Hart.wrV_sleepAddr (h : Hart) (v : VIx) (r : VReg) : (h.wrV v r).sleepAddr = h.sleepAddr := rfl
@[simp] theorem Hart.wrV_sleepPas (h : Hart) (v : VIx) (r : VReg) : (h.wrV v r).sleepPas = h.sleepPas := rfl
@[simp] theorem Hart.wrV_sleepCmp (h : Hart) (v : VIx) (r : VReg) : (h.wrV v r).sleepCmp = h.sleepCmp := rfl
@[simp] theorem Hart.wrV_resumeNext (h : Hart) (v : VIx) (r : VReg) : (h.wrV v r).resumeNext = h.resumeNext := rfl
@[simp] theorem Hart.wrV_owed (h : Hart) (v : VIx) (r : VReg) : (h.wrV v r).owed = h.owed := rfl
@[simp] theorem Hart.wrV_since (h : Hart) (v : VIx) (r : VReg) : (h.wrV v r).since = h.since := rfl
@[simp] theorem Hart.wrV_needsReserved (h : Hart) (v : VIx) (r : VReg) : (h.wrV v r).needsReserved = h.needsReserved := rfl
@[simp] theorem Hart.wrV_asked (h : Hart) (v : VIx) (r : VReg) : (h.wrV v r).asked = h.asked := rfl
@[simp] theorem Hart.wrV_preempted (h : Hart) (v : VIx) (r : VReg) : (h.wrV v r).preempted = h.preempted := rfl
@[simp] theorem Hart.wrV_owedX (h : Hart) (v : VIx) (r : VReg) : (h.wrV v r).owedX = h.owedX := rfl
@[simp] theorem Hart.wrV_gangWait (h : Hart) (v : VIx) (r : VReg) : (h.wrV v r).gangWait = h.gangWait := rfl
@[simp] theorem Hart.wrV_advs (h : Hart) (v : VIx) (r : VReg) : (h.wrV v r).advs = h.advs := rfl
@[simp] theorem Hart.wrV_barcount (h : Hart) (v : VIx) (r : VReg) : (h.wrV v r).barcount = h.barcount := rfl
@[simp] theorem Hart.wrV_barWaiting (h : Hart) (v : VIx) (r : VReg) : (h.wrV v r).barWaiting = h.barWaiting := rfl
@[simp] theorem Hart.wrV_exiting (h : Hart) (v : VIx) (r : VReg) : (h.wrV v r).exiting = h.exiting := rfl
@[simp] theorem Hart.wrV_sbuf (h : Hart) (v : VIx) (r : VReg) : (h.wrV v r).sbuf = h.sbuf := rfl
@[simp] theorem Hart.wrV_vq (h : Hart) (v : VIx) (r : VReg) : (h.wrV v r).vq = h.vq := rfl
@[simp] theorem Hart.wrV_early (h : Hart) (v : VIx) (r : VReg) : (h.wrV v r).early = h.early := rfl
@[simp] theorem Hart.wrV_trapWait (h : Hart) (v : VIx) (r : VReg) : (h.wrV v r).trapWait = h.trapWait := rfl
@[simp] theorem Hart.wrV_nextSerial (h : Hart) (v : VIx) (r : VReg) : (h.wrV v r).nextSerial = h.nextSerial := rfl
@[simp] theorem Hart.wrV_ctlStall (h : Hart) (v : VIx) (r : VReg) : (h.wrV v r).ctlStall = h.ctlStall := rfl
@[simp] theorem Hart.wrV_seqStall (h : Hart) (v : VIx) (r : VReg) : (h.wrV v r).seqStall = h.seqStall := rfl

/-- The register written. -/
@[simp] theorem Hart.wrV_same (h : Hart) (v : VIx) (r : VReg) : (h.wrV v r).v[v.val] = r := by simp [Hart.wrV]

/-- Every other register. -/
theorem Hart.wrV_other (h : Hart) (v u : VIx) (r : VReg) (hu : u ≠ v) : (h.wrV v r).v[u.val] = h.v[u.val] := by
  have : v.val ≠ u.val := fun e => hu (Fin.ext e.symm)
  simp [Hart.wrV, this]

/- `Hart.wrP` writes one predicate. -/

@[simp] theorem Hart.wrP_pc (h : Hart) (p : PIx) (v : Nat) : (h.wrP p v).pc = h.pc := by
  unfold Hart.wrP; split <;> rfl
@[simp] theorem Hart.wrP_x (h : Hart) (p : PIx) (v : Nat) : (h.wrP p v).x = h.x := by
  unfold Hart.wrP; split <;> rfl
@[simp] theorem Hart.wrP_v (h : Hart) (p : PIx) (v : Nat) : (h.wrP p v).v = h.v := by
  unfold Hart.wrP; split <;> rfl
@[simp] theorem Hart.wrP_k (h : Hart) (p : PIx) (v : Nat) : (h.wrP p v).k = h.k := by
  unfold Hart.wrP; split <;> rfl
@[simp] theorem Hart.wrP_z (h : Hart) (p : PIx) (v : Nat) : (h.wrP p v).z = h.z := by
  unfold Hart.wrP; split <;> rfl
@[simp] theorem Hart.wrP_hreg (h : Hart) (p : PIx) (v : Nat) : (h.wrP p v).hreg = h.hreg := by
  unfold Hart.wrP; split <;> rfl
@[simp] theorem Hart.wrP_laneTab (h : Hart) (p : PIx) (v : Nat) : (h.wrP p v).laneTab = h.laneTab := by
  unfold Hart.wrP; split <;> rfl
@[simp] theorem Hart.wrP_laneMask (h : Hart) (p : PIx) (v : Nat) : (h.wrP p v).laneMask = h.laneMask := by
  unfold Hart.wrP; split <;> rfl
@[simp] theorem Hart.wrP_queue (h : Hart) (p : PIx) (v : Nat) : (h.wrP p v).queue = h.queue := by
  unfold Hart.wrP; split <;> rfl
@[simp] theorem Hart.wrP_grant (h : Hart) (p : PIx) (v : Nat) : (h.wrP p v).grant = h.grant := by
  unfold Hart.wrP; split <;> rfl
@[simp] theorem Hart.wrP_rowBase (h : Hart) (p : PIx) (v : Nat) : (h.wrP p v).rowBase = h.rowBase := by
  unfold Hart.wrP; split <;> rfl
@[simp] theorem Hart.wrP_rowCount (h : Hart) (p : PIx) (v : Nat) : (h.wrP p v).rowCount = h.rowCount := by
  unfold Hart.wrP; split <;> rfl
@[simp] theorem Hart.wrP_cells (h : Hart) (p : PIx) (v : Nat) : (h.wrP p v).cells = h.cells := by
  unfold Hart.wrP; split <;> rfl
@[simp] theorem Hart.wrP_marks (h : Hart) (p : PIx) (v : Nat) : (h.wrP p v).marks = h.marks := by
  unfold Hart.wrP; split <;> rfl
@[simp] theorem Hart.wrP_farm (h : Hart) (p : PIx) (v : Nat) : (h.wrP p v).farm = h.farm := by
  unfold Hart.wrP; split <;> rfl
@[simp] theorem Hart.wrP_stripId (h : Hart) (p : PIx) (v : Nat) : (h.wrP p v).stripId = h.stripId := by
  unfold Hart.wrP; split <;> rfl
@[simp] theorem Hart.wrP_holdsStrip (h : Hart) (p : PIx) (v : Nat) : (h.wrP p v).holdsStrip = h.holdsStrip := by
  unfold Hart.wrP; split <;> rfl
@[simp] theorem Hart.wrP_part (h : Hart) (p : PIx) (v : Nat) : (h.wrP p v).part = h.part := by
  unfold Hart.wrP; split <;> rfl
@[simp] theorem Hart.wrP_vstart (h : Hart) (p : PIx) (v : Nat) : (h.wrP p v).vstart = h.vstart := by
  unfold Hart.wrP; split <;> rfl
@[simp] theorem Hart.wrP_startHeld (h : Hart) (p : PIx) (v : Nat) : (h.wrP p v).startHeld = h.startHeld := by
  unfold Hart.wrP; split <;> rfl
@[simp] theorem Hart.wrP_vla (h : Hart) (p : PIx) (v : Nat) : (h.wrP p v).vla = h.vla := by
  unfold Hart.wrP; split <;> rfl
@[simp] theorem Hart.wrP_vfret (h : Hart) (p : PIx) (v : Nat) : (h.wrP p v).vfret = h.vfret := by
  unfold Hart.wrP; split <;> rfl
@[simp] theorem Hart.wrP_ropepart (h : Hart) (p : PIx) (v : Nat) : (h.wrP p v).ropepart = h.ropepart := by
  unfold Hart.wrP; split <;> rfl
@[simp] theorem Hart.wrP_fmtdef (h : Hart) (p : PIx) (v : Nat) : (h.wrP p v).fmtdef = h.fmtdef := by
  unfold Hart.wrP; split <;> rfl
@[simp] theorem Hart.wrP_frm (h : Hart) (p : PIx) (v : Nat) : (h.wrP p v).frm = h.frm := by
  unfold Hart.wrP; split <;> rfl
@[simp] theorem Hart.wrP_fflags (h : Hart) (p : PIx) (v : Nat) : (h.wrP p v).fflags = h.fflags := by
  unfold Hart.wrP; split <;> rfl
@[simp] theorem Hart.wrP_nwin (h : Hart) (p : PIx) (v : Nat) : (h.wrP p v).nwin = h.nwin := by
  unfold Hart.wrP; split <;> rfl
@[simp] theorem Hart.wrP_ntEn (h : Hart) (p : PIx) (v : Nat) : (h.wrP p v).ntEn = h.ntEn := by
  unfold Hart.wrP; split <;> rfl
@[simp] theorem Hart.wrP_ntHost (h : Hart) (p : PIx) (v : Nat) : (h.wrP p v).ntHost = h.ntHost := by
  unfold Hart.wrP; split <;> rfl
@[simp] theorem Hart.wrP_nthr (h : Hart) (p : PIx) (v : Nat) : (h.wrP p v).nthr = h.nthr := by
  unfold Hart.wrP; split <;> rfl
@[simp] theorem Hart.wrP_ncnt (h : Hart) (p : PIx) (v : Nat) : (h.wrP p v).ncnt = h.ncnt := by
  unfold Hart.wrP; split <;> rfl
@[simp] theorem Hart.wrP_bank0 (h : Hart) (p : PIx) (v : Nat) : (h.wrP p v).bank0 = h.bank0 := by
  unfold Hart.wrP; split <;> rfl
@[simp] theorem Hart.wrP_bank1 (h : Hart) (p : PIx) (v : Nat) : (h.wrP p v).bank1 = h.bank1 := by
  unfold Hart.wrP; split <;> rfl
@[simp] theorem Hart.wrP_level (h : Hart) (p : PIx) (v : Nat) : (h.wrP p v).level = h.level := by
  unfold Hart.wrP; split <;> rfl
@[simp] theorem Hart.wrP_engev (h : Hart) (p : PIx) (v : Nat) : (h.wrP p v).engev = h.engev := by
  unfold Hart.wrP; split <;> rfl
@[simp] theorem Hart.wrP_events (h : Hart) (p : PIx) (v : Nat) : (h.wrP p v).events = h.events := by
  unfold Hart.wrP; split <;> rfl
@[simp] theorem Hart.wrP_lost (h : Hart) (p : PIx) (v : Nat) : (h.wrP p v).lost = h.lost := by
  unfold Hart.wrP; split <;> rfl
@[simp] theorem Hart.wrP_dbg (h : Hart) (p : PIx) (v : Nat) : (h.wrP p v).dbg = h.dbg := by
  unfold Hart.wrP; split <;> rfl
@[simp] theorem Hart.wrP_retcount (h : Hart) (p : PIx) (v : Nat) : (h.wrP p v).retcount = h.retcount := by
  unfold Hart.wrP; split <;> rfl
@[simp] theorem Hart.wrP_lanecyc (h : Hart) (p : PIx) (v : Nat) : (h.wrP p v).lanecyc = h.lanecyc := by
  unfold Hart.wrP; split <;> rfl
@[simp] theorem Hart.wrP_sinceDispatch (h : Hart) (p : PIx) (v : Nat) : (h.wrP p v).sinceDispatch = h.sinceDispatch := by
  unfold Hart.wrP; split <;> rfl
@[simp] theorem Hart.wrP_pending (h : Hart) (p : PIx) (v : Nat) : (h.wrP p v).pending = h.pending := by
  unfold Hart.wrP; split <;> rfl
@[simp] theorem Hart.wrP_failedX (h : Hart) (p : PIx) (v : Nat) : (h.wrP p v).failedX = h.failedX := by
  unfold Hart.wrP; split <;> rfl
@[simp] theorem Hart.wrP_status (h : Hart) (p : PIx) (v : Nat) : (h.wrP p v).status = h.status := by
  unfold Hart.wrP; split <;> rfl
@[simp] theorem Hart.wrP_ending (h : Hart) (p : PIx) (v : Nat) : (h.wrP p v).ending = h.ending := by
  unfold Hart.wrP; split <;> rfl
@[simp] theorem Hart.wrP_sleepAddr (h : Hart) (p : PIx) (v : Nat) : (h.wrP p v).sleepAddr = h.sleepAddr := by
  unfold Hart.wrP; split <;> rfl
@[simp] theorem Hart.wrP_sleepPas (h : Hart) (p : PIx) (v : Nat) : (h.wrP p v).sleepPas = h.sleepPas := by
  unfold Hart.wrP; split <;> rfl
@[simp] theorem Hart.wrP_sleepCmp (h : Hart) (p : PIx) (v : Nat) : (h.wrP p v).sleepCmp = h.sleepCmp := by
  unfold Hart.wrP; split <;> rfl
@[simp] theorem Hart.wrP_resumeNext (h : Hart) (p : PIx) (v : Nat) : (h.wrP p v).resumeNext = h.resumeNext := by
  unfold Hart.wrP; split <;> rfl
@[simp] theorem Hart.wrP_owed (h : Hart) (p : PIx) (v : Nat) : (h.wrP p v).owed = h.owed := by
  unfold Hart.wrP; split <;> rfl
@[simp] theorem Hart.wrP_since (h : Hart) (p : PIx) (v : Nat) : (h.wrP p v).since = h.since := by
  unfold Hart.wrP; split <;> rfl
@[simp] theorem Hart.wrP_needsReserved (h : Hart) (p : PIx) (v : Nat) : (h.wrP p v).needsReserved = h.needsReserved := by
  unfold Hart.wrP; split <;> rfl
@[simp] theorem Hart.wrP_asked (h : Hart) (p : PIx) (v : Nat) : (h.wrP p v).asked = h.asked := by
  unfold Hart.wrP; split <;> rfl
@[simp] theorem Hart.wrP_preempted (h : Hart) (p : PIx) (v : Nat) : (h.wrP p v).preempted = h.preempted := by
  unfold Hart.wrP; split <;> rfl
@[simp] theorem Hart.wrP_owedX (h : Hart) (p : PIx) (v : Nat) : (h.wrP p v).owedX = h.owedX := by
  unfold Hart.wrP; split <;> rfl
@[simp] theorem Hart.wrP_gangWait (h : Hart) (p : PIx) (v : Nat) : (h.wrP p v).gangWait = h.gangWait := by
  unfold Hart.wrP; split <;> rfl
@[simp] theorem Hart.wrP_advs (h : Hart) (p : PIx) (v : Nat) : (h.wrP p v).advs = h.advs := by
  unfold Hart.wrP; split <;> rfl
@[simp] theorem Hart.wrP_barcount (h : Hart) (p : PIx) (v : Nat) : (h.wrP p v).barcount = h.barcount := by
  unfold Hart.wrP; split <;> rfl
@[simp] theorem Hart.wrP_barWaiting (h : Hart) (p : PIx) (v : Nat) : (h.wrP p v).barWaiting = h.barWaiting := by
  unfold Hart.wrP; split <;> rfl
@[simp] theorem Hart.wrP_exiting (h : Hart) (p : PIx) (v : Nat) : (h.wrP p v).exiting = h.exiting := by
  unfold Hart.wrP; split <;> rfl
@[simp] theorem Hart.wrP_sbuf (h : Hart) (p : PIx) (v : Nat) : (h.wrP p v).sbuf = h.sbuf := by
  unfold Hart.wrP; split <;> rfl
@[simp] theorem Hart.wrP_vq (h : Hart) (p : PIx) (v : Nat) : (h.wrP p v).vq = h.vq := by
  unfold Hart.wrP; split <;> rfl
@[simp] theorem Hart.wrP_early (h : Hart) (p : PIx) (v : Nat) : (h.wrP p v).early = h.early := by
  unfold Hart.wrP; split <;> rfl
@[simp] theorem Hart.wrP_trapWait (h : Hart) (p : PIx) (v : Nat) : (h.wrP p v).trapWait = h.trapWait := by
  unfold Hart.wrP; split <;> rfl
@[simp] theorem Hart.wrP_nextSerial (h : Hart) (p : PIx) (v : Nat) : (h.wrP p v).nextSerial = h.nextSerial := by
  unfold Hart.wrP; split <;> rfl
@[simp] theorem Hart.wrP_ctlStall (h : Hart) (p : PIx) (v : Nat) : (h.wrP p v).ctlStall = h.ctlStall := by
  unfold Hart.wrP; split <;> rfl
@[simp] theorem Hart.wrP_seqStall (h : Hart) (p : PIx) (v : Nat) : (h.wrP p v).seqStall = h.seqStall := by
  unfold Hart.wrP; split <;> rfl

/-- Putting a context where it stands, and reading it back. -/
theorem State.hartAt_cur (s : State) : s.hartAt s.cur = s.hart := by simp [State.hartAt]

/-- The current context replaced through its number. -/
theorem State.setHartAt_cur (s : State) (v : Hart) : s.setHartAt s.cur v = s.withHart v := by
  simp [State.setHartAt, State.withHart]

end Sys2Proof.Machine
end

