-- ==== Sys2Proof/Laws/Control.lean ====
section
/-!
SUPPORT. What each shared operation of the control stream can do, said once: reading registers, taking a trap, ending an
instruction, accruing flags, completing a block instruction (R39, R42, R46, R67, R70, R164, R182, R184, R187, R193).
-/

namespace Sys2Proof.Machine

/- One lemma after another: a compile then needs few threads. -/
set_option Elab.async false

/-- An instruction that waits for no register runs (R164, R187). -/
theorem reading_runs {rs : List Reg} {s : State} {k : Out} (h : ∀ r ∈ rs, s.hart.isPending r = false)
    (hf : (∀ r ∈ rs, s.hart.failedX.contains r = false) ∨ s.deliverable = false) : reading rs s k = k := by
  have h1 : rs.any s.hart.isPending = false := by simpa using h
  have h2 : (rs.any s.hart.failedX.contains && s.deliverable) = false := by
    rcases hf with hf | hf
    · have : rs.any s.hart.failedX.contains = false := by simpa using hf
      simp [this]
    · simp [hf]
  simp only [reading, h1, h2, Bool.false_eq_true, if_false]

/-- An instruction that reads a register awaiting an answer waits (R164). -/
theorem reading_waits {rs : List Reg} {s : State} {k : Out} {r : Reg} (hr : r ∈ rs) (h : s.hart.isPending r = true) :
    reading rs s k = stallCtl s := by
  have h1 : rs.any s.hart.isPending = true := by rw [List.any_eq_true]; exact ⟨r, hr, h⟩
  simp only [reading, h1, if_true]

/-- `t` differs from `s` in what taking a trap may change (R182, R184): the trap registers, the level, `VSTART`, the
program counter and what holds blocks of the current hart, what its words have read ahead, its status, and the lists of
other harts, partitions and farms. -/
def TrapMay (s t : State) : Prop :=
  ∃ b0 b1 vs sh dbg lv vf pc q ea tw st en cs others parts farms,
    t = { s with hart := { s.hart with bank0 := b0, bank1 := b1, vstart := vs, startHeld := sh, dbg := dbg, level := lv,
                                       vfret := vf, pc := pc, queue := q, early := ea, trapWait := tw, status := st,
                                       ending := en, ctlStall := cs }
                 others := others, parts := parts, farms := farms }

theorem TrapMay.refl (s : State) : TrapMay s s :=
  ⟨_, _, _, _, _, _, _, _, _, _, _, _, _, _, _, _, _, rfl⟩

theorem TrapMay.trans {s t u : State} (h1 : TrapMay s t) (h2 : TrapMay t u) : TrapMay s u := by
  obtain ⟨_, _, _, _, _, _, _, _, _, _, _, _, _, _, _, _, _, rfl⟩ := h1
  obtain ⟨_, _, _, _, _, _, _, _, _, _, _, _, _, _, _, _, _, rfl⟩ := h2
  exact ⟨_, _, _, _, _, _, _, _, _, _, _, _, _, _, _, _, _, rfl⟩

theorem TrapMay.ite {s a b : State} {c : Prop} [Decidable c] (h1 : TrapMay s a) (h2 : TrapMay s b) :
    TrapMay s (if c then a else b) := by
  by_cases h : c
  · rw [if_pos h]; exact h1
  · rw [if_neg h]; exact h2

/-- What stopping a farm may change. -/
theorem State.stopFarm_may (s : State) (p f : Nat) : TrapMay s (s.stopFarm p f) := by
  unfold State.stopFarm
  split
  · exact TrapMay.refl s
  · rename_i g _
    have key : ∀ (l : List Nat) (t : State), TrapMay s t →
        TrapMay s (l.foldl (fun s h => s.setHartAt h { s.hartAt h with ending := true }) t) := by
      intro l
      induction l with
      | nil => intro t h; exact h
      | cons a l ih =>
        intro t h
        rw [List.foldl_cons]
        refine ih _ (h.trans ?_)
        unfold State.setHartAt State.hartAt
        split
        · exact ⟨_, _, _, _, _, _, _, _, _, _, _, _, _, _, _, _, _, rfl⟩
        · exact ⟨_, _, _, _, _, _, _, _, _, _, _, _, _, _, _, _, _, rfl⟩
    exact key _ _ ⟨_, _, _, _, _, _, _, _, _, _, _, _, _, _, _, _, _, rfl⟩

theorem State.postHost_may (s : State) (p : Nat) (r : HostRecord) : TrapMay s (s.postHost p r) := by
  unfold State.postHost
  exact TrapMay.ite ⟨_, _, _, _, _, _, _, _, _, _, _, _, _, _, _, _, _, rfl⟩
    ⟨_, _, _, _, _, _, _, _, _, _, _, _, _, _, _, _, _, rfl⟩

/-- What an escalation from level 1 may change (R184). -/
theorem State.halt_may (s : State) (c : Cause) : TrapMay s (s.halt c) := by
  unfold State.halt
  refine TrapMay.trans ?_ (State.stopFarm_may _ _ _)
  refine TrapMay.trans ?_ (State.postHost_may _ _ _)
  exact ⟨_, _, _, _, _, _, _, _, _, _, _, _, _, _, _, _, _, rfl⟩

/-- What taking a trap may change (R182). -/
theorem State.takeTrap_may (s : State) (c : Cause) (ev epc : Word) (ib : Bool) (vst : Nat) :
    TrapMay s (s.takeTrap c ev epc ib vst) := by
  unfold State.takeTrap
  exact TrapMay.ite (s.halt_may c) ⟨_, _, _, _, _, _, _, _, _, _, _, _, _, _, _, _, _, rfl⟩

/-- What a trap at a control-stream instruction may change. -/
theorem State.trapCtl_may (s : State) (c : Cause) (ev epc : Word) : TrapMay s (s.trapCtl c ev epc) := by
  unfold State.trapCtl
  split
  · exact s.takeTrap_may _ _ _ _ _
  · exact ⟨_, _, _, _, _, _, _, _, _, _, _, _, _, _, _, _, _, rfl⟩

/-- `t` differs from `s` in what ending an instruction may change: the count of retired instructions besides. -/
def RetireMay (s t : State) : Prop := ∃ n, TrapMay { s with hart := { s.hart with retcount := n } } t

theorem State.retireStep_may (s : State) (step : Bool) (next : Word) : RetireMay s (s.retireStep step next) := by
  refine ⟨s.hart.retcount + 1, ?_⟩
  unfold State.retireStep
  dsimp only
  split
  · refine TrapMay.trans ?_ (State.trapCtl_may _ _ _ _)
    exact ⟨_, _, _, _, _, _, _, _, _, _, _, _, _, _, _, _, _, rfl⟩
  · exact ⟨_, _, _, _, _, _, _, _, _, _, _, _, _, _, _, _, _, rfl⟩

/-- Ending an instruction leaves x, v, p, k, z, the flags and memory as they are. -/
theorem State.retireTo_may (s : State) (next : Word) : RetireMay s (s.retireTo next) := s.retireStep_may _ _

/-- With no STEP asked for, an instruction ends at `next`, counted (R46, R193). -/
theorem State.retireTo_plain (s : State) (next : Word) (h : s.hart.dbg.getLsbD 0 = false) :
    s.retireTo next = { s with hart := { s.hart with pc := next, retcount := s.hart.retcount + 1 } } := by
  unfold State.retireTo State.retireStep; rw [h]; rfl

/-- What accruing flags may change (R67, R70). -/
theorem State.accrue_may (s : State) (fs : List Flags) :
    ∃ en parts, (s.accrue fs).1 = { s with hart := { s.hart.accrueFlags fs with ntEn := en }, parts := parts } := by
  have key : ∀ (f : State → Fin 6 → HostRecord) (p : Nat) (l : List (Fin 6)) (t : State),
      ∃ parts, l.foldl (fun s c => s.postHost p (f s c)) t = { t with parts := parts } := by
    intro f p l
    induction l with
    | nil => intro t; exact ⟨_, rfl⟩
    | cons a l ih =>
      intro t
      rw [List.foldl_cons]
      have : ∃ parts, t.postHost p (f t a) = { t with parts := parts } := by
        unfold State.postHost
        by_cases h : (t.partAt p).hostQueue.length < 256
        · exact ⟨_, by rw [if_pos h]; rfl⟩
        · exact ⟨_, by rw [if_neg h]; rfl⟩
      obtain ⟨q, hq⟩ := this
      rw [hq]
      obtain ⟨q', hq'⟩ := ih { t with parts := q }
      exact ⟨q', hq'⟩
  unfold State.accrue
  dsimp only
  exact ⟨_, key (fun t c => HostRecord.mk 3 t.cur (BitVec.ofNat 64 c.val)
    (numthrEval c.val (s.hart.accrueFlags fs).ncnt[c.val]) t.time) _ _ _⟩

/-- What completing a block instruction may change (R39, R42, R46). -/
theorem State.completed_may (s : State) (nt : Option Word) : RetireMay s (s.completed nt) := by
  refine ⟨s.hart.retcount + 1, ?_⟩
  have hp : ∀ h : Hart, ∃ q ea, h.pastWord = { h with queue := q, early := ea } := by
    intro h; unfold Hart.pastWord; split <;> exact ⟨_, _, rfl⟩
  obtain ⟨q, ea, hq⟩ := hp { s.hart with vstart := 0, retcount := s.hart.retcount + 1 }
  unfold State.completed
  dsimp only
  rw [hq]
  have h0 : TrapMay { s with hart := { s.hart with retcount := s.hart.retcount + 1 } }
      (s.withHart { s.hart with vstart := 0, retcount := s.hart.retcount + 1, queue := q, early := ea }) :=
    ⟨_, _, _, _, _, _, _, _, _, _, _, _, _, _, _, _, _, rfl⟩
  split
  · exact h0.trans (State.takeTrap_may _ _ _ _ _ _)
  · split
    · exact h0.trans (State.takeTrap_may _ _ _ _ _ _)
    · exact h0

end Sys2Proof.Machine
end

