-- ==== Sys2Proof/Laws/Memory.lean ====
section
/-!
SUPPORT. Memory: every operation keeps the canonical form, a byte written reads back, every other byte stays, and bytes
and numbers agree.
-/

namespace Sys2Proof.Machine

/- One lemma after another: a compile then needs few threads. -/
set_option Elab.async false

/- The canonical form. -/

theorem memWfFrom_mono {lo lo' : Nat} (h : lo ≤ lo') : ∀ {m : List Host.Cell}, memWfFrom lo' m = true → memWfFrom lo m = true
  | [], _ => rfl
  | (k, v) :: m, hm => by
    simp only [memWfFrom, Bool.and_eq_true, decide_eq_true_eq] at hm ⊢
    exact ⟨⟨by omega, hm.1.2⟩, hm.2⟩

theorem memGet_below : ∀ {m : List Host.Cell} {lo a : Nat}, memWfFrom lo m = true → a < lo → memGet m a = unlistedByte
  | [], _, _, _, _ => rfl
  | (k, v) :: m, lo, a, hm, ha => by
    simp only [memWfFrom, Bool.and_eq_true, decide_eq_true_eq] at hm
    have : a < k := by omega
    simp [memGet, this, Nat.ne_of_lt this]

theorem memSet_wfFrom : ∀ {m : List Host.Cell} {lo a : Nat} (b : Byte), memWfFrom lo m = true → lo ≤ a →
    memWfFrom lo (memSet m a b) = true
  | [], lo, a, b, _, ha => by
    by_cases hb : b = unlistedByte <;> simp [memSet, memWfFrom, hb, ha]
  | (k, v) :: m, lo, a, b, hm, ha => by
    simp only [memWfFrom, Bool.and_eq_true, decide_eq_true_eq] at hm
    obtain ⟨⟨hk, hv⟩, hr⟩ := hm
    unfold memSet
    by_cases h1 : a < k
    · by_cases hb : b = unlistedByte
      · simp [h1, hb, memWfFrom, hk, hv, hr]
      · simp only [h1, if_true, hb, if_false, memWfFrom, Bool.and_eq_true, decide_eq_true_eq]
        exact ⟨⟨ha, by simpa using hb⟩, ⟨⟨by omega, hv⟩, hr⟩⟩
    · by_cases h2 : a = k
      · subst h2
        by_cases hb : b = unlistedByte
        · simpa [hb] using memWfFrom_mono (by omega) hr
        · simp only [h1, if_false, if_true, hb, memWfFrom, Bool.and_eq_true, decide_eq_true_eq]
          exact ⟨⟨ha, by simpa using hb⟩, hr⟩
      · simp only [h1, h2, if_false, memWfFrom, Bool.and_eq_true, decide_eq_true_eq]
        exact ⟨⟨hk, hv⟩, memSet_wfFrom b hr (by omega)⟩

/-- A byte written keeps the canonical form. -/
theorem memSet_wf {m : List Host.Cell} (a : Nat) (b : Byte) (h : Memory.wf m = true) : Memory.wf (memSet m a b) = true :=
  memSet_wfFrom b h (Nat.zero_le a)

theorem memFilter_wfFrom (p : Host.Cell → Bool) : ∀ {m : List Host.Cell} {lo : Nat}, memWfFrom lo m = true →
    memWfFrom lo (m.filter p) = true
  | [], _, _ => rfl
  | (k, v) :: m, lo, hm => by
    simp only [memWfFrom, Bool.and_eq_true, decide_eq_true_eq] at hm
    obtain ⟨⟨hk, hv⟩, hr⟩ := hm
    have ih := memFilter_wfFrom p hr
    by_cases hp : p (k, v) = true
    · simp only [List.filter_cons, hp, if_true, memWfFrom, Bool.and_eq_true, decide_eq_true_eq]
      exact ⟨⟨hk, hv⟩, ih⟩
    · simp only [List.filter_cons, hp]
      exact memWfFrom_mono (by omega) ih

/-- A page dropped keeps the canonical form. -/
theorem memDropPage_wf {m : List Host.Cell} (pg : Nat) (h : Memory.wf m = true) : Memory.wf (memDropPage m pg) = true :=
  memFilter_wfFrom _ h

/- Reading what was written. -/

/-- The byte written reads back. -/
theorem memGet_memSet_same : ∀ {m : List Host.Cell} {lo : Nat} (a : Nat) (b : Byte), memWfFrom lo m = true →
    memGet (memSet m a b) a = b
  | [], _, a, b, _ => by by_cases hb : b = unlistedByte <;> simp [memSet, memGet, hb]
  | (k, v) :: m, lo, a, b, hm => by
    simp only [memWfFrom, Bool.and_eq_true, decide_eq_true_eq] at hm
    obtain ⟨⟨hk, hv⟩, hr⟩ := hm
    unfold memSet
    by_cases h1 : a < k
    · by_cases hb : b = unlistedByte
      · simp [h1, hb, memGet, Nat.ne_of_lt h1]
      · simp [h1, hb, memGet]
    · by_cases h2 : a = k
      · subst h2
        by_cases hb : b = unlistedByte
        · simp [hb, memGet_below hr (Nat.lt_succ_self a)]
        · simp [hb, memGet]
      · simp [h1, h2, memGet, memGet_memSet_same a b hr]

/-- Every other byte stays. -/
theorem memGet_memSet_other : ∀ {m : List Host.Cell} {lo : Nat} {a c : Nat} (b : Byte), memWfFrom lo m = true → c ≠ a →
    memGet (memSet m a b) c = memGet m c
  | [], _, a, c, b, _, hc => by by_cases hb : b = unlistedByte <;> simp [memSet, memGet, hb, hc]
  | (k, v) :: m, lo, a, c, b, hm, hc => by
    simp only [memWfFrom, Bool.and_eq_true, decide_eq_true_eq] at hm
    obtain ⟨⟨hk, hv⟩, hr⟩ := hm
    unfold memSet
    by_cases h1 : a < k
    · by_cases hb : b = unlistedByte
      · simp [h1, hb]
      · by_cases h3 : c < a
        · have : c < k := by omega
          simp [h1, hb, memGet, hc, h3, this, Nat.ne_of_lt this]
        · simp [h1, hb, memGet, hc, h3]
    · by_cases h2 : a = k
      · subst h2
        by_cases hb : b = unlistedByte
        · by_cases h3 : c < a
          · simp [hb, memGet, hc, h3, memGet_below hr (by omega : c < a + 1)]
          · simp [hb, memGet, hc, h3]
        · simp [hb, memGet, hc]
      · simp only [h1, h2, if_false, memGet]
        rw [memGet_memSet_other b hr hc]

theorem memGet_filter (p : Host.Cell → Bool) : ∀ {m : List Host.Cell} {lo : Nat} (c : Nat), memWfFrom lo m = true →
    (∀ v, p (c, v) = true) → memGet (m.filter p) c = memGet m c
  | [], _, _, _, _ => rfl
  | (k, v) :: m, lo, c, hm, hp => by
    simp only [memWfFrom, Bool.and_eq_true, decide_eq_true_eq] at hm
    obtain ⟨_, hr⟩ := hm
    have ih := memGet_filter p c hr hp
    by_cases hk : p (k, v) = true
    · simp [hk, memGet, ih]
    · have hne : c ≠ k := fun e => hk (e ▸ hp v)
      by_cases hlt : c < k
      · have : memGet (m.filter p) c = unlistedByte := by
          rw [ih]; exact memGet_below hr (by omega)
        simp [hk, memGet, hne, hlt, this]
      · simp [hk, memGet, hne, hlt, ih]

/-- A page dropped leaves the bytes of every other page. -/
theorem memGet_dropPage_other {m : List Host.Cell} (pg c : Nat) (h : Memory.wf m = true) (hc : c / 65536 ≠ pg) :
    memGet (memDropPage m pg) c = memGet m c :=
  memGet_filter _ c h (fun _ => by simpa using hc)

theorem memGet_filter_gone (p : Host.Cell → Bool) (c : Nat) (hp : ∀ v, p (c, v) = false) :
    ∀ (m : List Host.Cell), memGet (m.filter p) c = unlistedByte
  | [] => rfl
  | (k, v) :: m => by
    have ih := memGet_filter_gone p c hp m
    by_cases hk : p (k, v) = true
    · have hne : c ≠ k := by rintro rfl; simp [hp v] at hk
      by_cases hlt : c < k <;> simp [hk, memGet, hne, hlt, ih]
    · simp [hk, ih]

/-- The bytes of a page dropped read as unlisted. -/
theorem memGet_dropPage_same (m : List Host.Cell) (pg c : Nat) (hc : c / 65536 = pg) :
    memGet (memDropPage m pg) c = unlistedByte :=
  memGet_filter_gone _ c (fun _ => by simpa using hc) m

/- The state's memory. -/

/-- Clearing a scrub mark keeps the canonical form. -/
theorem State.scrubbed_wf (s : State) (pg : Nat) (h : Memory.wf s.mem = true) : Memory.wf (s.scrubbed pg).mem = true := by
  unfold State.scrubbed; split
  · exact memDropPage_wf pg h
  · exact h

/-- A byte written keeps the canonical form. -/
theorem State.setByte_wf (s : State) (pa : Nat) (b : Byte) (h : Memory.wf s.mem = true) :
    Memory.wf (s.setByte pa b).mem = true :=
  memSet_wf pa b (s.scrubbed_wf _ h)

/-- Bytes written keep the canonical form. -/
theorem State.writeAll_wf (s : State) (pas : List Nat) (bs : List Byte) (h : Memory.wf s.mem = true) :
    Memory.wf (s.writeAll pas bs).mem = true := by
  induction pas generalizing s bs with
  | nil => simpa [State.writeAll] using h
  | cons pa pas ih =>
    cases bs with
    | nil => simpa [State.writeAll] using h
    | cons b bs => exact ih _ _ (s.setByte_wf pa b h)

/-- A store that performs writes memory as `writeAll` does, and otherwise clears poison alone. -/
theorem State.store_mem (s : State) (pas : List Nat) (bs : List Byte) : (s.store pas bs).mem = (s.writeAll pas bs).mem := by
  unfold State.store; dsimp only; split <;> rfl

/-- A store that performs keeps the canonical form. -/
theorem State.store_wf (s : State) (pas : List Nat) (bs : List Byte) (h : Memory.wf s.mem = true) :
    Memory.wf (s.store pas bs).mem = true := by
  rw [State.store_mem]; exact s.writeAll_wf pas bs h

theorem State.scrubbed_scrub_same (s : State) (pg : Nat) : (s.scrubbed pg).scrub.contains pg = false := by
  unfold State.scrubbed
  split
  · simp
  · rename_i h; simpa using h

theorem State.scrubbed_scrub_other (s : State) {pg q : Nat} (h : q ≠ pg) :
    (s.scrubbed pg).scrub.contains q = s.scrub.contains q := by
  unfold State.scrubbed
  split
  · simp [h]
  · rfl

/-- Clearing a scrub mark changes no byte that a read step sees (R115). -/
theorem State.byteAt_scrubbed (s : State) (pg c : Nat) (h : Memory.wf s.mem = true) :
    (s.scrubbed pg).byteAt c = s.byteAt c := by
  unfold State.byteAt
  by_cases hc : c / 65536 = pg
  · have h1 := s.scrubbed_scrub_same pg
    rw [hc, h1]
    by_cases hs : s.scrub.contains pg = true
    · have h2 : (s.scrubbed pg).mem = memDropPage s.mem pg := by unfold State.scrubbed; rw [if_pos hs]
      rw [h2, hs, memGet_dropPage_same _ _ _ hc]; rfl
    · have h2 : s.scrubbed pg = s := by unfold State.scrubbed; rw [if_neg hs]
      rw [h2]; simp only [hs]
  · rw [s.scrubbed_scrub_other hc]
    split
    · rfl
    · unfold State.scrubbed
      split
      · exact memGet_dropPage_other pg c h hc
      · rfl

/-- The byte written reads back. -/
theorem State.byteAt_setByte_same (s : State) (pa : Nat) (b : Byte) (h : Memory.wf s.mem = true) :
    (s.setByte pa b).byteAt pa = b := by
  have h1 := s.scrubbed_scrub_same (pa / 65536)
  unfold State.byteAt State.setByte
  simp only [h1]
  exact memGet_memSet_same pa b (s.scrubbed_wf _ h)

/-- A byte written leaves every other byte as a read step sees it. -/
theorem State.byteAt_setByte_other (s : State) (pa c : Nat) (b : Byte) (h : Memory.wf s.mem = true) (hc : c ≠ pa) :
    (s.setByte pa b).byteAt c = s.byteAt c := by
  rw [← s.byteAt_scrubbed (pa / 65536) c h]
  unfold State.byteAt State.setByte
  dsimp only
  rw [memGet_memSet_other b (s.scrubbed_wf _ h) hc]

/-- Bytes written leave every other byte as a read step sees it. -/
theorem State.byteAt_writeAll_other (s : State) (pas : List Nat) (bs : List Byte) (c : Nat) (h : Memory.wf s.mem = true)
    (hc : c ∉ pas) : (s.writeAll pas bs).byteAt c = s.byteAt c := by
  induction pas generalizing s bs with
  | nil => simp [State.writeAll]
  | cons pa pas ih =>
    cases bs with
    | nil => simp [State.writeAll]
    | cons b bs =>
      simp only [List.mem_cons, not_or] at hc
      rw [State.writeAll, ih _ _ (s.setByte_wf pa b h) hc.2, s.byteAt_setByte_other pa c b h hc.1]

/-- Bytes written to distinct places read back. -/
theorem State.readAll_writeAll (s : State) (pas : List Nat) (bs : List Byte) (h : Memory.wf s.mem = true)
    (hd : pas.Nodup) (hl : pas.length = bs.length) : (s.writeAll pas bs).readAll pas = bs := by
  induction pas generalizing s bs with
  | nil => cases bs <;> simp_all [State.readAll]
  | cons pa pas ih =>
    cases bs with
    | nil => simp at hl
    | cons b bs =>
      obtain ⟨hn, hd⟩ := List.nodup_cons.mp hd
      have h1 := s.setByte_wf pa b h
      have ih := ih (s.setByte pa b) bs h1 hd (by simpa using hl)
      simp only [State.readAll, List.map_cons, State.writeAll] at ih ⊢
      rw [ih, State.byteAt_writeAll_other _ _ _ _ h1 hn, s.byteAt_setByte_same pa b h]

/-- Reads see the same bytes when only the list of poisoned lines changed. -/
theorem State.byteAt_store (s : State) (pas : List Nat) (bs : List Byte) (c : Nat) :
    (s.store pas bs).byteAt c = (s.writeAll pas bs).byteAt c := by
  unfold State.store; dsimp only; split <;> rfl

/- Bytes and numbers. -/

/-- n bytes of a number. -/
@[simp] theorem toBytes_length (n v : Nat) : (toBytes n v).length = n := by
  induction n generalizing v with
  | zero => rfl
  | succ n ih => simp [toBytes, ih]

/-- The number that its low n bytes stand for. -/
theorem ofBytes_toBytes (n v : Nat) : ofBytes (toBytes n v) = v % 256 ^ n := by
  induction n generalizing v with
  | zero => simp [toBytes, ofBytes, Nat.mod_one]
  | succ n ih =>
    simp only [toBytes, ofBytes, ih, BitVec.toNat_ofNat]
    rw [show 256 ^ (n + 1) = 256 * 256 ^ n from Nat.pow_succ', Nat.mod_mul (x := v) (a := 256) (b := 256 ^ n)]

/-- n bytes make a number below 256^n. -/
theorem ofBytes_lt (bs : List Byte) : ofBytes bs < 256 ^ bs.length := by
  induction bs with
  | nil => simp [ofBytes]
  | cons b bs ih =>
    have := b.isLt
    simp only [ofBytes, List.length_cons, Nat.pow_succ]
    omega

end Sys2Proof.Machine
end

