-- ==== Sys2Proof/Laws/PerInstr.lean ====
section
/-!
SUPPORT. Statements made for every instruction, one lemma for each constructor: `Width` says that a word is one of 32
or of 64 bits and fits in them (R231).
-/

namespace Sys2Proof.Laws.Width

open Sys2Proof

/- One lemma after another: a compile then needs few threads. -/
set_option Elab.async false

/-- The word of an instruction has 32 or 64 bits and fits in them. -/
def Statement (i : Instr) : Prop := ∀ n w, encode i = some (n, w) → (n = 32 ∨ n = 64) ∧ w < 2 ^ n

theorem bit_le (b : Bool) : b2n b ≤ 1 := by cases b <;> decide

theorem encR_lt {op func : Nat} (d a b : Reg) (ho : op < 2 ^ 6) (hf : func < 2 ^ 11) : encR op d a b func < 2 ^ 32 := by
  have := d.isLt; have := a.isLt; have := b.isLt
  unfold encR; omega

theorem encI_lt {op : Nat} (d a : Reg) (imm : BitVec 16) (ho : op < 2 ^ 6) : encI op d a imm < 2 ^ 32 := by
  have := d.isLt; have := a.isLt; have := imm.isLt
  unfold encI; omega

theorem encB_lt {vop ext : Nat} (k : Blk) (vd va vb vc : VIx) (hv : vop < 2 ^ 8) (he : ext < 2 ^ 13) :
    encB vop k vd va vb vc ext < 2 ^ 64 := by
  have := vd.isLt; have := va.isLt; have := vb.isLt; have := vc.isLt; have := k.pg.isLt; have := k.xl.isLt; have := k.xf.isLt
  have := bit_le k.c; have := bit_le k.pz; have := bit_le k.pn
  unfold encB; omega

theorem none_holds {i : Instr} (h : encode i = none) : Statement i := by
  intro n w e
  rw [h] at e
  cases e

theorem some_holds {i : Instr} {m v : Nat} (h : encode i = some (m, v)) (hm : m = 32 ∨ m = 64) (hv : v < 2 ^ m) :
    Statement i := by
  intro n w e
  rw [h] at e
  cases e
  exact ⟨hm, hv⟩

theorem precNum_le (x : Prec) : precNum x ≤ 3 := by cases x <;> decide

theorem rmNum_le (x : Rm) : rmNum x ≤ 7 := by cases x <;> decide

theorem cvtNum_le (x : CvtTy) : cvtNum x ≤ 5 := by cases x <;> decide

theorem sizeNum_le (x : Size) : sizeNum x ≤ 3 := by cases x <;> decide

theorem amoNum_le (x : AmoOp) : amoNum x ≤ 15 := by cases x <;> decide

theorem amoOrderNum_le (x : AmoOrder) : amoOrderNum x ≤ 3 := by cases x <;> decide

theorem scopeNum_le (x : Scope) : scopeNum x ≤ 7 := by cases x <;> decide

theorem fenceNum_le (x : FenceKind) : fenceNum x ≤ 3 := by cases x <;> decide

theorem condNum_le (x : Cond) : condNum x ≤ 15 := by cases x <;> decide

theorem shKindNum_le (x : ShKind) : shKindNum x ≤ 3 := by cases x <;> decide

theorem logNum_le (x : LogOp) : logNum x ≤ 7 := by cases x <;> decide

theorem ldOrdNum_le (x : LdOrd) : ldOrdNum x ≤ 3 := by cases x <;> decide

theorem stOrdNum_le (x : StOrd) : stOrdNum x ≤ 3 := by cases x <;> decide

theorem vamoOrdNum_le (x : VamoOrd) : vamoOrdNum x ≤ 3 := by cases x <;> decide

theorem encF_lt {op : Nat} (p : Prec) (m : Rm) (d a b : Reg) (ho : op < 2 ^ 6) : encF p m d a b op < 2 ^ 32 := by
  have := precNum_le p; have := rmNum_le m
  exact encR_lt _ _ _ (by decide) (by omega)

theorem add (d : Reg) (a : Reg) (b : Reg) (w : Bool) : Statement (.add d a b w) := by
  have := bit_le w
  exact some_holds rfl (.inl rfl) (encR_lt _ _ _ (by decide) (by omega))

theorem sub (d : Reg) (a : Reg) (b : Reg) (w : Bool) : Statement (.sub d a b w) := by
  have := bit_le w
  exact some_holds rfl (.inl rfl) (encR_lt _ _ _ (by decide) (by omega))

theorem and (d : Reg) (a : Reg) (b : Reg) (w : Bool) : Statement (.and d a b w) := by
  have := bit_le w
  exact some_holds rfl (.inl rfl) (encR_lt _ _ _ (by decide) (by omega))

theorem or (d : Reg) (a : Reg) (b : Reg) (w : Bool) : Statement (.or d a b w) := by
  have := bit_le w
  exact some_holds rfl (.inl rfl) (encR_lt _ _ _ (by decide) (by omega))

theorem xor (d : Reg) (a : Reg) (b : Reg) (w : Bool) : Statement (.xor d a b w) := by
  have := bit_le w
  exact some_holds rfl (.inl rfl) (encR_lt _ _ _ (by decide) (by omega))

theorem sll (d : Reg) (a : Reg) (b : Reg) (w : Bool) : Statement (.sll d a b w) := by
  have := bit_le w
  exact some_holds rfl (.inl rfl) (encR_lt _ _ _ (by decide) (by omega))

theorem srl (d : Reg) (a : Reg) (b : Reg) (w : Bool) : Statement (.srl d a b w) := by
  have := bit_le w
  exact some_holds rfl (.inl rfl) (encR_lt _ _ _ (by decide) (by omega))

theorem sra (d : Reg) (a : Reg) (b : Reg) (w : Bool) : Statement (.sra d a b w) := by
  have := bit_le w
  exact some_holds rfl (.inl rfl) (encR_lt _ _ _ (by decide) (by omega))

theorem slt (d : Reg) (a : Reg) (b : Reg) (w : Bool) : Statement (.slt d a b w) := by
  have := bit_le w
  exact some_holds rfl (.inl rfl) (encR_lt _ _ _ (by decide) (by omega))

theorem sltn (d : Reg) (a : Reg) (b : Reg) (w : Bool) : Statement (.sltn d a b w) := by
  have := bit_le w
  exact some_holds rfl (.inl rfl) (encR_lt _ _ _ (by decide) (by omega))

theorem min (d : Reg) (a : Reg) (b : Reg) (w : Bool) : Statement (.min d a b w) := by
  have := bit_le w
  exact some_holds rfl (.inl rfl) (encR_lt _ _ _ (by decide) (by omega))

theorem max (d : Reg) (a : Reg) (b : Reg) (w : Bool) : Statement (.max d a b w) := by
  have := bit_le w
  exact some_holds rfl (.inl rfl) (encR_lt _ _ _ (by decide) (by omega))

theorem minn (d : Reg) (a : Reg) (b : Reg) (w : Bool) : Statement (.minn d a b w) := by
  have := bit_le w
  exact some_holds rfl (.inl rfl) (encR_lt _ _ _ (by decide) (by omega))

theorem maxn (d : Reg) (a : Reg) (b : Reg) (w : Bool) : Statement (.maxn d a b w) := by
  have := bit_le w
  exact some_holds rfl (.inl rfl) (encR_lt _ _ _ (by decide) (by omega))

theorem mul (d : Reg) (a : Reg) (b : Reg) (w : Bool) : Statement (.mul d a b w) := by
  have := bit_le w
  exact some_holds rfl (.inl rfl) (encR_lt _ _ _ (by decide) (by omega))

theorem mulh (d : Reg) (a : Reg) (b : Reg) (w : Bool) : Statement (.mulh d a b w) := by
  have := bit_le w
  exact some_holds rfl (.inl rfl) (encR_lt _ _ _ (by decide) (by omega))

theorem mulhn (d : Reg) (a : Reg) (b : Reg) (w : Bool) : Statement (.mulhn d a b w) := by
  have := bit_le w
  exact some_holds rfl (.inl rfl) (encR_lt _ _ _ (by decide) (by omega))

theorem div (d : Reg) (a : Reg) (b : Reg) (w : Bool) : Statement (.div d a b w) := by
  have := bit_le w
  exact some_holds rfl (.inl rfl) (encR_lt _ _ _ (by decide) (by omega))

theorem divn (d : Reg) (a : Reg) (b : Reg) (w : Bool) : Statement (.divn d a b w) := by
  have := bit_le w
  exact some_holds rfl (.inl rfl) (encR_lt _ _ _ (by decide) (by omega))

theorem rem (d : Reg) (a : Reg) (b : Reg) (w : Bool) : Statement (.rem d a b w) := by
  have := bit_le w
  exact some_holds rfl (.inl rfl) (encR_lt _ _ _ (by decide) (by omega))

theorem remn (d : Reg) (a : Reg) (b : Reg) (w : Bool) : Statement (.remn d a b w) := by
  have := bit_le w
  exact some_holds rfl (.inl rfl) (encR_lt _ _ _ (by decide) (by omega))

theorem clz (d : Reg) (a : Reg) (w : Bool) : Statement (.clz d a w) := by
  have := bit_le w
  exact some_holds rfl (.inl rfl) (encR_lt _ _ _ (by decide) (by omega))

theorem ctz (d : Reg) (a : Reg) (w : Bool) : Statement (.ctz d a w) := by
  have := bit_le w
  exact some_holds rfl (.inl rfl) (encR_lt _ _ _ (by decide) (by omega))

theorem popc (d : Reg) (a : Reg) (w : Bool) : Statement (.popc d a w) := by
  have := bit_le w
  exact some_holds rfl (.inl rfl) (encR_lt _ _ _ (by decide) (by omega))

theorem addi (d : Reg) (a : Reg) (imm : BitVec 16) : Statement (.addi d a imm) :=
  some_holds rfl (.inl rfl) (encI_lt _ _ _ (by decide))

theorem andi (d : Reg) (a : Reg) (imm : BitVec 16) : Statement (.andi d a imm) :=
  some_holds rfl (.inl rfl) (encI_lt _ _ _ (by decide))

theorem ori (d : Reg) (a : Reg) (imm : BitVec 16) : Statement (.ori d a imm) :=
  some_holds rfl (.inl rfl) (encI_lt _ _ _ (by decide))

theorem xori (d : Reg) (a : Reg) (imm : BitVec 16) : Statement (.xori d a imm) :=
  some_holds rfl (.inl rfl) (encI_lt _ _ _ (by decide))

theorem slti (d : Reg) (a : Reg) (imm : BitVec 16) : Statement (.slti d a imm) :=
  some_holds rfl (.inl rfl) (encI_lt _ _ _ (by decide))

theorem slli (d : Reg) (a : Reg) (n : BitVec 6) : Statement (.slli d a n) := by
  have := n.isLt
  exact some_holds rfl (.inl rfl) (encR_lt _ _ _ (by decide) (by omega))

theorem srli (d : Reg) (a : Reg) (n : BitVec 6) : Statement (.srli d a n) := by
  have := n.isLt
  exact some_holds rfl (.inl rfl) (encR_lt _ _ _ (by decide) (by omega))

theorem srai (d : Reg) (a : Reg) (n : BitVec 6) : Statement (.srai d a n) := by
  have := n.isLt
  exact some_holds rfl (.inl rfl) (encR_lt _ _ _ (by decide) (by omega))

theorem lui (d : Reg) (imm : BitVec 16) : Statement (.lui d imm) :=
  some_holds rfl (.inl rfl) (encI_lt _ _ _ (by decide))

theorem auipc (d : Reg) (imm : BitVec 16) : Statement (.auipc d imm) :=
  some_holds rfl (.inl rfl) (encI_lt _ _ _ (by decide))

theorem fadd (p : Prec) (m : Rm) (d : Reg) (a : Reg) (b : Reg) : Statement (.fadd p m d a b) :=
  some_holds rfl (.inl rfl) (encF_lt _ _ _ _ _ (by decide))

theorem fsub (p : Prec) (m : Rm) (d : Reg) (a : Reg) (b : Reg) : Statement (.fsub p m d a b) :=
  some_holds rfl (.inl rfl) (encF_lt _ _ _ _ _ (by decide))

theorem fmul (p : Prec) (m : Rm) (d : Reg) (a : Reg) (b : Reg) : Statement (.fmul p m d a b) :=
  some_holds rfl (.inl rfl) (encF_lt _ _ _ _ _ (by decide))

theorem fdiv (p : Prec) (m : Rm) (d : Reg) (a : Reg) (b : Reg) : Statement (.fdiv p m d a b) :=
  some_holds rfl (.inl rfl) (encF_lt _ _ _ _ _ (by decide))

theorem fsqrt (p : Prec) (m : Rm) (d : Reg) (a : Reg) : Statement (.fsqrt p m d a) :=
  some_holds rfl (.inl rfl) (encF_lt _ _ _ _ _ (by decide))

theorem fmin (p : Prec) (m : Rm) (d : Reg) (a : Reg) (b : Reg) : Statement (.fmin p m d a b) :=
  some_holds rfl (.inl rfl) (encF_lt _ _ _ _ _ (by decide))

theorem fmax (p : Prec) (m : Rm) (d : Reg) (a : Reg) (b : Reg) : Statement (.fmax p m d a b) :=
  some_holds rfl (.inl rfl) (encF_lt _ _ _ _ _ (by decide))

theorem feq (p : Prec) (m : Rm) (d : Reg) (a : Reg) (b : Reg) : Statement (.feq p m d a b) :=
  some_holds rfl (.inl rfl) (encF_lt _ _ _ _ _ (by decide))

theorem flt (p : Prec) (m : Rm) (d : Reg) (a : Reg) (b : Reg) : Statement (.flt p m d a b) :=
  some_holds rfl (.inl rfl) (encF_lt _ _ _ _ _ (by decide))

theorem fle (p : Prec) (m : Rm) (d : Reg) (a : Reg) (b : Reg) : Statement (.fle p m d a b) :=
  some_holds rfl (.inl rfl) (encF_lt _ _ _ _ _ (by decide))

theorem fcvt (dst : CvtTy) (src : CvtTy) (m : Rm) (d : Reg) (a : Reg) : Statement (.fcvt dst src m d a) := by
  have := cvtNum_le dst; have := cvtNum_le src; have := rmNum_le m; have := d.isLt; have := a.isLt
  exact some_holds rfl (.inl rfl) (by omega)

theorem fmaOpcode0d (p : Prec) (np : Bool) (nc : Bool) (m : Rm) (d : Reg) (a : Reg) (b : Reg) (c : Reg) : Statement (.fmaOpcode0d p np nc m d a b c) := by
  have := precNum_le p; have := bit_le np; have := bit_le nc; have := rmNum_le m; have := c.isLt
  exact some_holds rfl (.inl rfl) (encR_lt _ _ _ (by decide) (by omega))

theorem fmaOpcode0e (p : Prec) (np : Bool) (nc : Bool) (m : Rm) (d : Reg) (a : Reg) (b : Reg) (c : Reg) : Statement (.fmaOpcode0e p np nc m d a b c) := by
  have := precNum_le p; have := bit_le np; have := bit_le nc; have := rmNum_le m; have := c.isLt
  exact some_holds rfl (.inl rfl) (encR_lt _ _ _ (by decide) (by omega))

theorem ld (z : Size) (sx : Bool) (aq : Bool) (d : Reg) (a : Reg) (off : BitVec 12) : Statement (.ld z sx aq d a off) := by
  have := sizeNum_le z; have := bit_le sx; have := bit_le aq; have := d.isLt; have := a.isLt; have := off.isLt
  exact some_holds rfl (.inl rfl) (by omega)

theorem st (z : Size) (rel : Bool) (d : Reg) (a : Reg) (off : BitVec 12) : Statement (.st z rel d a off) := by
  have := sizeNum_le z; have := bit_le rel; have := d.isLt; have := a.isLt; have := off.isLt
  exact some_holds rfl (.inl rfl) (by omega)

theorem amo (op : AmoOp) (dw : Bool) (ord : AmoOrder) (sc : Scope) (d : Reg) (a : Reg) (b : Reg) : Statement (.amo op dw ord sc d a b) := by
  have := amoNum_le op; have := bit_le dw; have := amoOrderNum_le ord; have := scopeNum_le sc
  exact some_holds rfl (.inl rfl) (encR_lt _ _ _ (by decide) (by omega))

theorem fence (kind : FenceKind) (sc : Scope) : Statement (.fence kind sc) := by
  have := fenceNum_le kind; have := scopeNum_le sc
  exact some_holds rfl (.inl rfl) (by omega)

theorem beq (a : Reg) (b : Reg) (off : BitVec 16) : Statement (.beq a b off) :=
  some_holds rfl (.inl rfl) (encI_lt _ _ _ (by decide))

theorem bne (a : Reg) (b : Reg) (off : BitVec 16) : Statement (.bne a b off) :=
  some_holds rfl (.inl rfl) (encI_lt _ _ _ (by decide))

theorem blt (a : Reg) (b : Reg) (off : BitVec 16) : Statement (.blt a b off) :=
  some_holds rfl (.inl rfl) (encI_lt _ _ _ (by decide))

theorem bge (a : Reg) (b : Reg) (off : BitVec 16) : Statement (.bge a b off) :=
  some_holds rfl (.inl rfl) (encI_lt _ _ _ (by decide))

theorem bltn (a : Reg) (b : Reg) (off : BitVec 16) : Statement (.bltn a b off) :=
  some_holds rfl (.inl rfl) (encI_lt _ _ _ (by decide))

theorem bgen (a : Reg) (b : Reg) (off : BitVec 16) : Statement (.bgen a b off) :=
  some_holds rfl (.inl rfl) (encI_lt _ _ _ (by decide))

theorem jal (d : Reg) (off : BitVec 21) : Statement (.jal d off) := by
  have := d.isLt; have := off.isLt
  exact some_holds rfl (.inl rfl) (by omega)

theorem jalr (d : Reg) (a : Reg) (imm : BitVec 16) : Statement (.jalr d a imm) :=
  some_holds rfl (.inl rfl) (encI_lt _ _ _ (by decide))

theorem vf (off : BitVec 26) : Statement (.vf off) := by
  have := off.isLt
  exact some_holds rfl (.inl rfl) (by omega)

theorem setl (d : Reg) (a : Reg) (f : BitVec 6) (k : Bool) : Statement (.setl d a f k) := by
  have := f.isLt; have := bit_le k
  exact some_holds rfl (.inl rfl) (encR_lt _ _ _ (by decide) (by omega))

theorem vfr (a : Reg) : Statement (.vfr a) :=
  some_holds rfl (.inl rfl) (encR_lt _ _ _ (by decide) (by decide))

theorem vget (d : Reg) (a : Reg) (f : BitVec 5) (va : VIx) : Statement (.vget d a f va) := by
  have := d.isLt; have := a.isLt; have := f.isLt; have := va.isLt
  exact some_holds rfl (.inl rfl) (by omega)

theorem hset (d : Reg) (h : HIx) (a : Reg) : Statement (.hset d h a) := by
  have := h.isLt
  exact some_holds rfl (.inl rfl) (encR_lt _ _ _ (by decide) (by omega))

theorem hclr (h : HIx) : Statement (.hclr h) := by
  have := h.isLt
  exact some_holds rfl (.inl rfl) (encR_lt _ _ _ (by decide) (by omega))

theorem adv (c : KIx) : Statement (.adv c) := by
  have := c.isLt
  exact some_holds rfl (.inl rfl) (encR_lt _ _ _ (by decide) (by omega))

theorem kset (c : KIx) (a b : Reg) (t : Option KIx) : Statement (.kset c a b t) := by
  have := c.isLt; have := a.isLt; have := b.isLt
  cases t with
  | none => exact some_holds rfl (.inl rfl) (encR_lt _ _ _ (by decide) (by omega))
  | some t =>
    have := t.isLt
    refine some_holds rfl (.inl rfl) ?_
    simp only [encR]
    omega

theorem havail (d : Reg) (h : HIx) : Statement (.havail d h) := by
  have := h.isLt
  exact some_holds rfl (.inl rfl) (encR_lt _ _ _ (by decide) (by omega))

theorem hflush (h : HIx) : Statement (.hflush h) := by
  have := h.isLt
  exact some_holds rfl (.inl rfl) (encR_lt _ _ _ (by decide) (by omega))

theorem hwait (h : HIx) : Statement (.hwait h) := by
  have := h.isLt
  exact some_holds rfl (.inl rfl) (encR_lt _ _ _ (by decide) (by omega))

theorem kget (d : Reg) (c : KIx) (sel : Fin 3) : Statement (.kget d c sel) := by
  have := c.isLt; have := sel.isLt
  exact some_holds rfl (.inl rfl) (encR_lt _ _ _ (by decide) (by omega))

theorem matt (d : Reg) (a : Reg) : Statement (.matt d a) :=
  some_holds rfl (.inl rfl) (encR_lt _ _ _ (by decide) (by decide))

theorem mdet : Statement .mdet :=
  some_holds rfl (.inl rfl) (encR_lt _ _ _ (by decide) (by decide))

theorem launch (d : Reg) (a : Reg) : Statement (.launch d a) :=
  some_holds rfl (.inl rfl) (encR_lt _ _ _ (by decide) (by decide))

theorem exit : Statement .exit :=
  some_holds rfl (.inl rfl) (encR_lt _ _ _ (by decide) (by decide))

theorem wait (a : Reg) (b : Reg) : Statement (.wait a b) :=
  some_holds rfl (.inl rfl) (encR_lt _ _ _ (by decide) (by decide))

theorem yield : Statement .yield :=
  some_holds rfl (.inl rfl) (encR_lt _ _ _ (by decide) (by decide))

theorem bar : Statement .bar :=
  some_holds rfl (.inl rfl) (encR_lt _ _ _ (by decide) (by decide))

theorem strip (d : Reg) : Statement (.strip d) :=
  some_holds rfl (.inl rfl) (encR_lt _ _ _ (by decide) (by decide))

theorem seqnew (d : Reg) (a : Reg) : Statement (.seqnew d a) :=
  some_holds rfl (.inl rfl) (encR_lt _ _ _ (by decide) (by decide))

theorem seqgrow (d : Reg) (a : Reg) : Statement (.seqgrow d a) :=
  some_holds rfl (.inl rfl) (encR_lt _ _ _ (by decide) (by decide))

theorem seqend (a : Reg) : Statement (.seqend a) :=
  some_holds rfl (.inl rfl) (encR_lt _ _ _ (by decide) (by decide))

theorem seqendT (d : Reg) (a : Reg) (b : Reg) : Statement (.seqendT d a b) :=
  some_holds rfl (.inl rfl) (encR_lt _ _ _ (by decide) (by decide))

theorem gfind (d : Reg) (a : Reg) (b : Reg) : Statement (.gfind d a b) :=
  some_holds rfl (.inl rfl) (encR_lt _ _ _ (by decide) (by decide))

theorem gdep (d : Reg) (a : Reg) : Statement (.gdep d a) :=
  some_holds rfl (.inl rfl) (encR_lt _ _ _ (by decide) (by decide))

theorem gpin (d : Reg) (a : Reg) (b : Reg) : Statement (.gpin d a b) :=
  some_holds rfl (.inl rfl) (encR_lt _ _ _ (by decide) (by decide))

theorem gunpin (d : Reg) (a : Reg) (b : Reg) : Statement (.gunpin d a b) :=
  some_holds rfl (.inl rfl) (encR_lt _ _ _ (by decide) (by decide))

theorem gload (d : Reg) (a : Reg) (b : Reg) : Statement (.gload d a b) :=
  some_holds rfl (.inl rfl) (encR_lt _ _ _ (by decide) (by decide))

theorem gdrop (d : Reg) (a : Reg) (b : Reg) : Statement (.gdrop d a b) :=
  some_holds rfl (.inl rfl) (encR_lt _ _ _ (by decide) (by decide))

theorem sbin (d : Reg) (a : Reg) : Statement (.sbin d a) :=
  some_holds rfl (.inl rfl) (encR_lt _ _ _ (by decide) (by decide))

theorem spair (d : Reg) (z : ZIx) (a : Reg) (b : Reg) : Statement (.spair d z a b) := by
  have := z.isLt
  exact some_holds rfl (.inl rfl) (encR_lt _ _ _ (by decide) (by omega))

theorem sstat (d : Reg) (a : Reg) : Statement (.sstat d a) :=
  some_holds rfl (.inl rfl) (encR_lt _ _ _ (by decide) (by decide))

theorem sopen (d : Reg) (z : ZIx) (a : Reg) : Statement (.sopen d z a) := by
  have := z.isLt
  exact some_holds rfl (.inl rfl) (encR_lt _ _ _ (by decide) (by omega))

theorem sclose (z : ZIx) : Statement (.sclose z) := by
  have := z.isLt
  exact some_holds rfl (.inl rfl) (encR_lt _ _ _ (by decide) (by omega))

theorem csrr (d : Reg) (n : BitVec 12) : Statement (.csrr d n) := by
  have := d.isLt; have := n.isLt
  exact some_holds rfl (.inl rfl) (by omega)

theorem csrw (n : BitVec 12) (a : Reg) : Statement (.csrw n a) := by
  have := n.isLt; have := a.isLt
  exact some_holds rfl (.inl rfl) (by omega)

theorem csrs (n : BitVec 12) (a : Reg) : Statement (.csrs n a) := by
  have := n.isLt; have := a.isLt
  exact some_holds rfl (.inl rfl) (by omega)

theorem csrc (n : BitVec 12) (a : Reg) : Statement (.csrc n a) := by
  have := n.isLt; have := a.isLt
  exact some_holds rfl (.inl rfl) (by omega)

theorem trap (n : BitVec 12) : Statement (.trap n) := by
  have := n.isLt
  exact some_holds rfl (.inl rfl) (by omega)

theorem tret : Statement .tret := some_holds rfl (.inl rfl) (by decide)

theorem brk (n : BitVec 12) : Statement (.brk n) := by
  have := n.isLt
  exact some_holds rfl (.inl rfl) (by omega)

theorem pswap (d : Reg) (a : Reg) (b : Reg) : Statement (.pswap d a b) :=
  some_holds rfl (.inl rfl) (encR_lt _ _ _ (by decide) (by decide))

theorem readLifetimeCounter : Statement .readLifetimeCounter := none_holds rfl

theorem readMeasurementLog : Statement .readMeasurementLog := none_holds rfl

theorem postPartitionNotice : Statement .postPartitionNotice := none_holds rfl

theorem vstop : Statement .vstop := some_holds rfl (.inr rfl) (by decide)

theorem vnop (c : Bool) : Statement (.vnop c) := by
  have := bit_le c
  exact some_holds rfl (.inr rfl) (by omega)

theorem vadd (k : Blk) (vd : VIx) (va : VIx) (vb : VIx) : Statement (.vadd k vd va vb) :=
  some_holds rfl (.inr rfl) (encB_lt _ _ _ _ _ (by decide) (by decide))

theorem vsub (k : Blk) (vd : VIx) (va : VIx) (vb : VIx) : Statement (.vsub k vd va vb) :=
  some_holds rfl (.inr rfl) (encB_lt _ _ _ _ _ (by decide) (by decide))

theorem vmul (k : Blk) (vd : VIx) (va : VIx) (vb : VIx) : Statement (.vmul k vd va vb) :=
  some_holds rfl (.inr rfl) (encB_lt _ _ _ _ _ (by decide) (by decide))

theorem vmulh (k : Blk) (vd : VIx) (va : VIx) (vb : VIx) : Statement (.vmulh k vd va vb) :=
  some_holds rfl (.inr rfl) (encB_lt _ _ _ _ _ (by decide) (by decide))

theorem vmin (k : Blk) (vd : VIx) (va : VIx) (vb : VIx) : Statement (.vmin k vd va vb) :=
  some_holds rfl (.inr rfl) (encB_lt _ _ _ _ _ (by decide) (by decide))

theorem vmax (k : Blk) (vd : VIx) (va : VIx) (vb : VIx) : Statement (.vmax k vd va vb) :=
  some_holds rfl (.inr rfl) (encB_lt _ _ _ _ _ (by decide) (by decide))

theorem vand (k : Blk) (vd : VIx) (va : VIx) (vb : VIx) : Statement (.vand k vd va vb) :=
  some_holds rfl (.inr rfl) (encB_lt _ _ _ _ _ (by decide) (by decide))

theorem vor (k : Blk) (vd : VIx) (va : VIx) (vb : VIx) : Statement (.vor k vd va vb) :=
  some_holds rfl (.inr rfl) (encB_lt _ _ _ _ _ (by decide) (by decide))

theorem vxor (k : Blk) (vd : VIx) (va : VIx) (vb : VIx) : Statement (.vxor k vd va vb) :=
  some_holds rfl (.inr rfl) (encB_lt _ _ _ _ _ (by decide) (by decide))

theorem vsll (k : Blk) (vd : VIx) (va : VIx) (vb : VIx) : Statement (.vsll k vd va vb) :=
  some_holds rfl (.inr rfl) (encB_lt _ _ _ _ _ (by decide) (by decide))

theorem vsrl (k : Blk) (vd : VIx) (va : VIx) (vb : VIx) : Statement (.vsrl k vd va vb) :=
  some_holds rfl (.inr rfl) (encB_lt _ _ _ _ _ (by decide) (by decide))

theorem vsra (k : Blk) (vd : VIx) (va : VIx) (vb : VIx) : Statement (.vsra k vd va vb) :=
  some_holds rfl (.inr rfl) (encB_lt _ _ _ _ _ (by decide) (by decide))

theorem vadds (k : Blk) (vd : VIx) (va : VIx) (vb : VIx) : Statement (.vadds k vd va vb) :=
  some_holds rfl (.inr rfl) (encB_lt _ _ _ _ _ (by decide) (by decide))

theorem vsubs (k : Blk) (vd : VIx) (va : VIx) (vb : VIx) : Statement (.vsubs k vd va vb) :=
  some_holds rfl (.inr rfl) (encB_lt _ _ _ _ _ (by decide) (by decide))

theorem vabsd (k : Blk) (vd : VIx) (va : VIx) (vb : VIx) : Statement (.vabsd k vd va vb) :=
  some_holds rfl (.inr rfl) (encB_lt _ _ _ _ _ (by decide) (by decide))

theorem vmac (k : Blk) (vd : VIx) (va : VIx) (vb : VIx) (vc : VIx) : Statement (.vmac k vd va vb vc) :=
  some_holds rfl (.inr rfl) (encB_lt _ _ _ _ _ (by decide) (by decide))

theorem vcmp (k : Blk) (pd : PIx) (va : VIx) (vb : VIx) (c : Cond) : Statement (.vcmp k pd va vb c) := by
  have := condNum_le c
  exact some_holds rfl (.inr rfl) (encB_lt _ _ _ _ _ (by decide) (by omega))

theorem vaddi (k : Blk) (vd : VIx) (va : VIx) (imm : BitVec 13) : Statement (.vaddi k vd va imm) := by
  have := imm.isLt
  exact some_holds rfl (.inr rfl) (encB_lt _ _ _ _ _ (by decide) (by omega))

theorem vshi (k : Blk) (vd : VIx) (va : VIx) (q : ShKind) (n : BitVec 7) : Statement (.vshi k vd va q n) := by
  have := shKindNum_le q; have := n.isLt
  exact some_holds rfl (.inr rfl) (encB_lt _ _ _ _ _ (by decide) (by omega))

theorem viota (k : Blk) (vd : VIx) : Statement (.viota k vd) :=
  some_holds rfl (.inr rfl) (encB_lt _ _ _ _ _ (by decide) (by decide))

theorem vfadd (k : Blk) (vd : VIx) (va : VIx) (vb : VIx) : Statement (.vfadd k vd va vb) :=
  some_holds rfl (.inr rfl) (encB_lt _ _ _ _ _ (by decide) (by decide))

theorem vfsub (k : Blk) (vd : VIx) (va : VIx) (vb : VIx) : Statement (.vfsub k vd va vb) :=
  some_holds rfl (.inr rfl) (encB_lt _ _ _ _ _ (by decide) (by decide))

theorem vfmul (k : Blk) (vd : VIx) (va : VIx) (vb : VIx) : Statement (.vfmul k vd va vb) :=
  some_holds rfl (.inr rfl) (encB_lt _ _ _ _ _ (by decide) (by decide))

theorem vfma (k : Blk) (vd : VIx) (va : VIx) (vb : VIx) (vc : VIx) (np : Bool) (nc : Bool) : Statement (.vfma k vd va vb vc np nc) := by
  have := bit_le np; have := bit_le nc
  exact some_holds rfl (.inr rfl) (encB_lt _ _ _ _ _ (by decide) (by omega))

theorem vfdiv (k : Blk) (vd : VIx) (va : VIx) (vb : VIx) : Statement (.vfdiv k vd va vb) :=
  some_holds rfl (.inr rfl) (encB_lt _ _ _ _ _ (by decide) (by decide))

theorem vfsqrt (k : Blk) (vd : VIx) (va : VIx) : Statement (.vfsqrt k vd va) :=
  some_holds rfl (.inr rfl) (encB_lt _ _ _ _ _ (by decide) (by decide))

theorem vfrcp (k : Blk) (vd : VIx) (va : VIx) : Statement (.vfrcp k vd va) :=
  some_holds rfl (.inr rfl) (encB_lt _ _ _ _ _ (by decide) (by decide))

theorem vfrsq (k : Blk) (vd : VIx) (va : VIx) : Statement (.vfrsq k vd va) :=
  some_holds rfl (.inr rfl) (encB_lt _ _ _ _ _ (by decide) (by decide))

theorem vfexp2 (k : Blk) (vd : VIx) (va : VIx) : Statement (.vfexp2 k vd va) :=
  some_holds rfl (.inr rfl) (encB_lt _ _ _ _ _ (by decide) (by decide))

theorem vfmin (k : Blk) (vd : VIx) (va : VIx) (vb : VIx) : Statement (.vfmin k vd va vb) :=
  some_holds rfl (.inr rfl) (encB_lt _ _ _ _ _ (by decide) (by decide))

theorem vfmax (k : Blk) (vd : VIx) (va : VIx) (vb : VIx) : Statement (.vfmax k vd va vb) :=
  some_holds rfl (.inr rfl) (encB_lt _ _ _ _ _ (by decide) (by decide))

theorem vfcmp (k : Blk) (pd : PIx) (va : VIx) (vb : VIx) (c : Cond) : Statement (.vfcmp k pd va vb c) := by
  have := condNum_le c
  exact some_holds rfl (.inr rfl) (encB_lt _ _ _ _ _ (by decide) (by omega))

theorem vfclass (k : Blk) (vd : VIx) (va : VIx) : Statement (.vfclass k vd va) :=
  some_holds rfl (.inr rfl) (encB_lt _ _ _ _ _ (by decide) (by decide))

theorem vcvt (k : Blk) (vd : VIx) (va : VIx) : Statement (.vcvt k vd va) :=
  some_holds rfl (.inr rfl) (encB_lt _ _ _ _ _ (by decide) (by decide))

theorem vslice (k : Blk) (vd : VIx) (va : VIx) : Statement (.vslice k vd va) :=
  some_holds rfl (.inr rfl) (encB_lt _ _ _ _ _ (by decide) (by decide))

theorem vunslice (k : Blk) (vd : VIx) (va : VIx) : Statement (.vunslice k vd va) :=
  some_holds rfl (.inr rfl) (encB_lt _ _ _ _ _ (by decide) (by decide))

theorem vqscale (k : Blk) (vd : VIx) (va : VIx) (vb : VIx) : Statement (.vqscale k vd va vb) :=
  some_holds rfl (.inr rfl) (encB_lt _ _ _ _ _ (by decide) (by decide))

theorem plog (k : Blk) (pd : PIx) (pa : PIx) (pb : PIx) (op : LogOp) : Statement (.plog k pd pa pb op) := by
  have := logNum_le op
  exact some_holds rfl (.inr rfl) (encB_lt _ _ _ _ _ (by decide) (by omega))

theorem ppopc (k : Blk) (vd : VIx) (pa : PIx) : Statement (.ppopc k vd pa) :=
  some_holds rfl (.inr rfl) (encB_lt _ _ _ _ _ (by decide) (by decide))

theorem pfirst (k : Blk) (vd : VIx) (pa : PIx) : Statement (.pfirst k vd pa) :=
  some_holds rfl (.inr rfl) (encB_lt _ _ _ _ _ (by decide) (by decide))

theorem pset (k : Blk) (pd : PIx) : Statement (.pset k pd) :=
  some_holds rfl (.inr rfl) (encB_lt _ _ _ _ _ (by decide) (by decide))

theorem vbcast (k : Blk) (vd : VIx) (xs : Reg) : Statement (.vbcast k vd xs) := by
  have := xs.isLt
  exact some_holds rfl (.inr rfl) (encB_lt _ _ _ _ _ (by decide) (by omega))

theorem vins (k : Blk) (vd : VIx) (xs : Reg) (xi : Reg) : Statement (.vins k vd xs xi) := by
  have := xs.isLt; have := xi.isLt
  exact some_holds rfl (.inr rfl) (encB_lt _ _ _ _ _ (by decide) (by omega))

theorem vslup (k : Blk) (vd : VIx) (va : VIx) (xs : Reg) : Statement (.vslup k vd va xs) := by
  have := xs.isLt
  exact some_holds rfl (.inr rfl) (encB_lt _ _ _ _ _ (by decide) (by omega))

theorem vsldn (k : Blk) (vd : VIx) (va : VIx) (xs : Reg) : Statement (.vsldn k vd va xs) := by
  have := xs.isLt
  exact some_holds rfl (.inr rfl) (encB_lt _ _ _ _ _ (by decide) (by omega))

theorem vperm (k : Blk) (vd : VIx) (va : VIx) (vb : VIx) : Statement (.vperm k vd va vb) :=
  some_holds rfl (.inr rfl) (encB_lt _ _ _ _ _ (by decide) (by decide))

theorem vcompr (k : Blk) (vd : VIx) (va : VIx) (pb : PIx) : Statement (.vcompr k vd va pb) :=
  some_holds rfl (.inr rfl) (encB_lt _ _ _ _ _ (by decide) (by decide))

theorem vexpnd (k : Blk) (vd : VIx) (va : VIx) (pb : PIx) : Statement (.vexpnd k vd va pb) :=
  some_holds rfl (.inr rfl) (encB_lt _ _ _ _ _ (by decide) (by decide))

theorem vmerge (k : Blk) (vd : VIx) (va : VIx) (vb : VIx) (pc : PIx) : Statement (.vmerge k vd va vb pc) :=
  some_holds rfl (.inr rfl) (encB_lt _ _ _ _ _ (by decide) (by decide))

theorem vmov (k : Blk) (vd : VIx) (va : VIx) : Statement (.vmov k vd va) :=
  some_holds rfl (.inr rfl) (encB_lt _ _ _ _ _ (by decide) (by decide))

theorem vredsum (k : Blk) (vd : VIx) (va : VIx) (o : Bool) : Statement (.vredsum k vd va o) := by
  have := bit_le o
  exact some_holds rfl (.inr rfl) (encB_lt _ _ _ _ _ (by decide) (by omega))

theorem vredmax (k : Blk) (vd : VIx) (va : VIx) : Statement (.vredmax k vd va) :=
  some_holds rfl (.inr rfl) (encB_lt _ _ _ _ _ (by decide) (by decide))

theorem vredmin (k : Blk) (vd : VIx) (va : VIx) : Statement (.vredmin k vd va) :=
  some_holds rfl (.inr rfl) (encB_lt _ _ _ _ _ (by decide) (by decide))

theorem vscan (k : Blk) (vd : VIx) (va : VIx) : Statement (.vscan k vd va) :=
  some_holds rfl (.inr rfl) (encB_lt _ _ _ _ _ (by decide) (by decide))

theorem vtopk (k : Blk) (vd : VIx) (va : VIx) (xk : Reg) (nl : Bool) : Statement (.vtopk k vd va xk nl) := by
  have := xk.isLt; have := bit_le nl
  exact some_holds rfl (.inr rfl) (encB_lt _ _ _ _ _ (by decide) (by omega))

theorem vldh (k : Blk) (vd : VIx) (h : HIx) (xo : Reg) (xs : Reg) (a : Bool) : Statement (.vldh k vd h xo xs a) := by
  have := h.isLt; have := xo.isLt; have := bit_le a
  exact some_holds rfl (.inr rfl) (encB_lt _ _ _ _ _ (by decide) (by omega))

theorem vsth (k : Blk) (va : VIx) (h : HIx) (xo : Reg) (xs : Reg) : Statement (.vsth k va h xo xs) := by
  have := h.isLt; have := xo.isLt
  exact some_holds rfl (.inr rfl) (encB_lt _ _ _ _ _ (by decide) (by omega))

theorem vldhx (k : Blk) (vd : VIx) (h : HIx) (xo : Reg) (vb : VIx) (a : Bool) : Statement (.vldhx k vd h xo vb a) := by
  have := h.isLt; have := xo.isLt; have := bit_le a
  exact some_holds rfl (.inr rfl) (encB_lt _ _ _ _ _ (by decide) (by omega))

theorem vsthx (k : Blk) (va : VIx) (h : HIx) (xo : Reg) (vb : VIx) : Statement (.vsthx k va h xo vb) := by
  have := h.isLt; have := xo.isLt
  exact some_holds rfl (.inr rfl) (encB_lt _ _ _ _ _ (by decide) (by omega))

theorem vldf (k : Blk) (vd : VIx) (xa : Reg) (xs : Reg) (o : LdOrd) : Statement (.vldf k vd xa xs o) := by
  have := xa.isLt; have := ldOrdNum_le o
  exact some_holds rfl (.inr rfl) (encB_lt _ _ _ _ _ (by decide) (by omega))

theorem vstf (k : Blk) (va : VIx) (xa : Reg) (xs : Reg) (o : StOrd) : Statement (.vstf k va xa xs o) := by
  have := xa.isLt; have := stOrdNum_le o
  exact some_holds rfl (.inr rfl) (encB_lt _ _ _ _ _ (by decide) (by omega))

theorem vldx (k : Blk) (vd : VIx) (xa : Reg) (vb : VIx) (s : Fin 4) (o : LdOrd) : Statement (.vldx k vd xa vb s o) := by
  have := xa.isLt; have := s.isLt; have := ldOrdNum_le o
  exact some_holds rfl (.inr rfl) (encB_lt _ _ _ _ _ (by decide) (by omega))

theorem vstx (k : Blk) (va : VIx) (xa : Reg) (vb : VIx) (s : Fin 4) (o : StOrd) : Statement (.vstx k va xa vb s o) := by
  have := xa.isLt; have := s.isLt; have := stOrdNum_le o
  exact some_holds rfl (.inr rfl) (encB_lt _ _ _ _ _ (by decide) (by omega))

theorem vamo (k : Blk) (op : AmoOp) (vd : VIx) (va : VIx) (xa : Reg) (vb : VIx) (s : Fin 4) (o : VamoOrd) (vc : VIx) : Statement (.vamo k op vd va xa vb s o vc) := by
  have := amoNum_le op; have := xa.isLt; have := s.isLt; have := vamoOrdNum_le o
  exact some_holds rfl (.inr rfl) (encB_lt _ _ _ _ _ (by decide) (by omega))

theorem vldt (k : Blk) (vd : VIx) (xo : Reg) (vb : VIx) : Statement (.vldt k vd xo vb) := by
  have := xo.isLt
  exact some_holds rfl (.inr rfl) (encB_lt _ _ _ _ _ (by decide) (by omega))

theorem vstt (k : Blk) (va : VIx) (xo : Reg) (vb : VIx) : Statement (.vstt k va xo vb) := by
  have := xo.isLt
  exact some_holds rfl (.inr rfl) (encB_lt _ _ _ _ _ (by decide) (by omega))

theorem vlds (k : Blk) (vd : VIx) (z : ZIx) (f : BitVec 3) (c : Bool) : Statement (.vlds k vd z f c) := by
  have := z.isLt; have := f.isLt; have := bit_le c
  exact some_holds rfl (.inr rfl) (encB_lt _ _ _ _ _ (by decide) (by omega))

theorem vsts (k : Blk) (va : VIx) (z : ZIx) (e : Bool) : Statement (.vsts k va z e) := by
  have := z.isLt; have := bit_le e
  exact some_holds rfl (.inr rfl) (encB_lt _ _ _ _ _ (by decide) (by omega))

theorem hmask (k : Blk) (pd : PIx) (h : HIx) (xo : Reg) : Statement (.hmask k pd h xo) := by
  have := h.isLt; have := xo.isLt
  exact some_holds rfl (.inr rfl) (encB_lt _ _ _ _ _ (by decide) (by omega))

theorem mopa (k : Blk) (va : VIx) (vb : VIx) (base : BitVec 7) (units : BitVec 4) : Statement (.mopa k va vb base units) := by
  have := base.isLt; have := units.isLt
  exact some_holds rfl (.inr rfl) (encB_lt _ _ _ _ _ (by decide) (by omega))

theorem mopas (k : Blk) (va : VIx) (vb : VIx) (vc : VIx) (base : BitVec 7) (units : BitVec 4) : Statement (.mopas k va vb vc base units) := by
  have := base.isLt; have := units.isLt
  exact some_holds rfl (.inr rfl) (encB_lt _ _ _ _ _ (by decide) (by omega))

theorem mrd (k : Blk) (vd : VIx) (row : BitVec 7) : Statement (.mrd k vd row) := by
  have := row.isLt
  exact some_holds rfl (.inr rfl) (encB_lt _ _ _ _ _ (by decide) (by omega))

theorem mwr (k : Blk) (va : VIx) (row : BitVec 7) : Statement (.mwr k va row) := by
  have := row.isLt
  exact some_holds rfl (.inr rfl) (encB_lt _ _ _ _ _ (by decide) (by omega))

theorem mzero (k : Blk) (base : BitVec 7) (units : BitVec 4) : Statement (.mzero k base units) := by
  have := base.isLt; have := units.isLt
  exact some_holds rfl (.inr rfl) (encB_lt _ _ _ _ _ (by decide) (by omega))

theorem vsprune (k : Blk) (vd : VIx) (va : VIx) (vc : VIx) : Statement (.vsprune k vd va vc) :=
  some_holds rfl (.inr rfl) (encB_lt _ _ _ _ _ (by decide) (by decide))

theorem vrope (k : Blk) (vd : VIx) (va : VIx) (vb : VIx) (vc : VIx) (xh : Reg) : Statement (.vrope k vd va vb vc xh) := by
  have := xh.isLt
  exact some_holds rfl (.inr rfl) (encB_lt _ _ _ _ _ (by decide) (by omega))

theorem decision (p : Nat) : Statement (.decision p) := none_holds rfl

theorem sliceEnd (p : Nat) : Statement (.sliceEnd p) := none_holds rfl

theorem preEmption (h : Nat) : Statement (.preEmption h) := none_holds rfl

theorem restore (h : Nat) : Statement (.restore h) := none_holds rfl

theorem farmStart (p f : Nat) : Statement (.farmStart p f) := none_holds rfl

theorem hartPlacement (p f : Nat) : Statement (.hartPlacement p f) := none_holds rfl

theorem launchAcceptance (op : Nat) : Statement (.launchAcceptance op) := none_holds rfl

theorem completionWord (p f : Nat) : Statement (.completionWord p f) := none_holds rfl

theorem wakeRead (h : Nat) : Statement (.wakeRead h) := none_holds rfl

theorem hartDispatch (h : Nat) : Statement (.hartDispatch h) := none_holds rfl

theorem trapEntry : Statement .trapEntry := none_holds rfl

theorem windowReset (h : Nat) : Statement (.windowReset h) := none_holds rfl

theorem harvestOrder (sid : Nat) : Statement (.harvestOrder sid) := none_holds rfl

theorem gleanerFetch (st : Nat) : Statement (.gleanerFetch st) := none_holds rfl

theorem lineArrival (fid : Nat) (remote : Option RemoteAnswer) : Statement (.lineArrival fid remote) := none_holds rfl

theorem lineRelease (sid : Nat) : Statement (.lineRelease sid) := none_holds rfl

theorem gleanerWriteBack (did : Nat) : Statement (.gleanerWriteBack did) := none_holds rfl

theorem gleanerFold (did : Nat) : Statement (.gleanerFold did) := none_holds rfl

theorem multicastFill (fid : Nat) : Statement (.multicastFill fid) := none_holds rfl

theorem streamDelivery (h : Nat) (z : ZIx) : Statement (.streamDelivery h z) := none_holds rfl

theorem pairRecord (h : Nat) (z : ZIx) : Statement (.pairRecord h z) := none_holds rfl

theorem gfindWalk (op : Nat) : Statement (.gfindWalk op) := none_holds rfl

theorem answerStep (op : Nat) : Statement (.answerStep op) := none_holds rfl

theorem adoption (op : Nat) : Statement (.adoption op) := none_holds rfl

theorem readyStep (op : Nat) : Statement (.readyStep op) := none_holds rfl

theorem gpinService (op : Nat) : Statement (.gpinService op) := none_holds rfl

theorem gunpinService (op : Nat) : Statement (.gunpinService op) := none_holds rfl

theorem gloadService (op : Nat) : Statement (.gloadService op) := none_holds rfl

theorem gdropService (op : Nat) : Statement (.gdropService op) := none_holds rfl

theorem binning (op : Nat) : Statement (.binning op) := none_holds rfl

theorem streamOpen (op : Nat) : Statement (.streamOpen op) := none_holds rfl

theorem sstatService (op : Nat) : Statement (.sstatService op) := none_holds rfl

theorem poisoning (e : LineError) : Statement (.poisoning e) := none_holds rfl

theorem intakeWatchdog (id : Nat) : Statement (.intakeWatchdog id) := none_holds rfl

theorem pageInvalidation (p : Nat) (stage2 : Bool) (page : Nat) : Statement (.pageInvalidation p stage2 page) := none_holds rfl

theorem pageScrub (page : Nat) : Statement (.pageScrub page) := none_holds rfl

theorem vfReset (vf : Nat) (pages : List Nat) : Statement (.vfReset vf pages) := none_holds rfl

theorem partitionRecordWrite (vf : Nat) (supervisor : Bool) (r : PartRec) : Statement (.partitionRecordWrite vf supervisor r) := none_holds rfl

theorem fieldCreate (p : Nat) (num : Fin 8) (r : FieldRec) : Statement (.fieldCreate p num r) := none_holds rfl

theorem fieldRemove (p : Nat) (num : Fin 8) : Statement (.fieldRemove p num) := none_holds rfl

theorem exportEntryWrite (p : Nat) (tier : Fin 8) (base low : Word) : Statement (.exportEntryWrite p tier base low) := none_holds rfl

theorem columnPowerChange (die : Fin 2) (pair : Fin 4) (on : Bool) : Statement (.columnPowerChange die pair on) := none_holds rfl

theorem repairThresholdWrite (t : Nat) : Statement (.repairThresholdWrite t) := none_holds rfl

theorem rowRepair (bank row : Nat) : Statement (.rowRepair bank row) := none_holds rfl

theorem channelRetraining (channel : Nat) : Statement (.channelRetraining channel) := none_holds rfl

theorem channelFailure (channel : Nat) : Statement (.channelFailure channel) := none_holds rfl

theorem operatingPointRequest (st mhz mv : Nat) : Statement (.operatingPointRequest st mhz mv) := none_holds rfl

theorem thermalCapStep (st tempC : Nat) : Statement (.thermalCapStep st tempC) := none_holds rfl

theorem powerUp (image : List Byte) (rest : BringUp) : Statement (.powerUp image rest) := none_holds rfl

theorem attestationReport (nonce : List Byte) : Statement (.attestationReport nonce) := none_holds rfl

theorem powerOnHour (tempC : Nat) : Statement (.powerOnHour tempC) := none_holds rfl

theorem remoteAccess (r : RemoteReq) : Statement (.remoteAccess r) := none_holds rfl

theorem hostAccess (r : HostReq) : Statement (.hostAccess r) := none_holds rfl

theorem partitionEnd (p : Nat) : Statement (.partitionEnd p) := none_holds rfl

end Sys2Proof.Laws.Width
end

