-- ==== Sys2Proof/Laws/Vector.lean ====
section
/-!
SUPPORT. Elements of vector registers: reading one back after a write, what a write leaves alone, and the frame of a
vector write (R34, R35, R51, R58, R334).
-/

namespace Sys2Proof.Machine

/- One lemma after another: a compile then needs few threads. -/
set_option Elab.async false

/- Fields of a natural number, bit by bit. -/

theorem testBit_field (v off n i : Nat) : (field v off n).testBit i = (decide (i < n) && v.testBit (off + i)) := by
  simp [field, Nat.shiftLeft_eq, Nat.testBit_mod_two_pow, Nat.testBit_shiftRight]

theorem testBit_putField (v off n x i : Nat) :
    (putField v off n x).testBit i = if off ≤ i ∧ i < off + n then x.testBit (i - off) else v.testBit i := by
  have hv : v = 2 ^ off * (2 ^ n * (v / 2 ^ off / 2 ^ n) + v / 2 ^ off % 2 ^ n) + v % 2 ^ off := by
    rw [Nat.div_add_mod, Nat.div_add_mod]
  have he : putField v off n x = 2 ^ off * (2 ^ n * (v / 2 ^ off / 2 ^ n) + x % 2 ^ n) + v % 2 ^ off := by
    simp only [putField, field, Nat.shiftLeft_eq, Nat.shiftRight_eq_div_pow, one_mul]
    rw [Nat.mul_comm (v / 2 ^ off % 2 ^ n), Nat.mul_comm (x % 2 ^ n)]
    have h1 : 2 ^ off * (v / 2 ^ off % 2 ^ n) ≤ v := by
      calc 2 ^ off * (v / 2 ^ off % 2 ^ n) ≤ 2 ^ off * (v / 2 ^ off) := Nat.mul_le_mul_left _ (Nat.mod_le _ _)
        _ ≤ v := Nat.mul_div_le _ _
    have h2 : v - 2 ^ off * (v / 2 ^ off % 2 ^ n) = 2 ^ off * (2 ^ n * (v / 2 ^ off / 2 ^ n)) + v % 2 ^ off := by
      conv_lhs => lhs; rw [hv]
      rw [Nat.mul_add]; omega
    rw [h2, Nat.mul_add]; omega
  have hl : v % 2 ^ off < 2 ^ off := Nat.mod_lt _ (by positivity)
  have hf : v / 2 ^ off % 2 ^ n < 2 ^ n := Nat.mod_lt _ (by positivity)
  have hx : x % 2 ^ n < 2 ^ n := Nat.mod_lt _ (by positivity)
  rw [he, Nat.testBit_two_pow_mul_add _ hl, Nat.testBit_two_pow_mul_add _ hx]
  conv_rhs => rw [hv, Nat.testBit_two_pow_mul_add _ hl, Nat.testBit_two_pow_mul_add _ hf]
  by_cases h1 : i < off
  · have : ¬ (off ≤ i ∧ i < off + n) := by omega
    simp [h1, this]
  · simp only [h1, if_false]
    by_cases h2 : i - off < n
    · have : off ≤ i ∧ i < off + n := by omega
      simp [h2, this, Nat.testBit_mod_two_pow]
    · have : ¬ (off ≤ i ∧ i < off + n) := by omega
      simp [h2, this]

theorem setBit_eq_putField (v e : Nat) (b : Bool) : setBit v e b = putField v e 1 (if b then 1 else 0) := by
  have hf : field v e 1 = if v.testBit e then 1 else 0 := by
    rw [field, Nat.testBit_eq_decide_div_mod_eq, Nat.shiftRight_eq_div_pow, Nat.shiftLeft_eq]
    have := Nat.mod_two_eq_zero_or_one (v / 2 ^ e)
    rcases this with h | h <;> simp [h]
  unfold setBit putField
  rw [hf]
  cases hv : v.testBit e <;> cases b <;> simp
  have := Nat.ge_two_pow_of_testBit hv
  rw [Nat.shiftLeft_eq]; omega

theorem testBit_setBit (v e i : Nat) (b : Bool) : (setBit v e b).testBit i = if i = e then b else v.testBit i := by
  rw [setBit_eq_putField, testBit_putField]
  by_cases h : i = e
  · subst h; cases b <;> simp
  · rw [if_neg (by omega), if_neg h]

/-- Bits set in turn at places that a function names. -/
theorem testBit_setBits (at_ : Nat → Nat) (x : Nat) (v i : Nat) : ∀ (n : Nat),
    ((List.range n).foldl (fun v b => setBit v (at_ b) (x.testBit b)) v).testBit i =
      match (List.range n).reverse.find? (fun b => i == at_ b) with
      | some b => x.testBit b
      | none => v.testBit i
  | 0 => by simp
  | n + 1 => by
    rw [List.range_succ, List.foldl_append, List.reverse_append]
    simp only [List.foldl_cons, List.foldl_nil, List.reverse_cons, List.reverse_nil, List.nil_append,
      List.singleton_append, List.find?_cons, testBit_setBit]
    by_cases h : i = at_ n
    · simp [h]
    · have : (i == at_ n) = false := by simpa using h
      simp only [h, if_false, this]
      exact testBit_setBits at_ x v i n

/-- Bits gathered in turn. -/
theorem testBit_gather (c : Nat → Bool) (n i : Nat) :
    ((List.range n).foldl (fun acc b => if c b then acc + 1 <<< b else acc) 0 < 2 ^ n) ∧
    ((List.range n).foldl (fun acc b => if c b then acc + 1 <<< b else acc) 0).testBit i = (decide (i < n) && c i) := by
  induction n with
  | zero => simp
  | succ n ih =>
    rw [List.range_succ, List.foldl_append]
    simp only [List.foldl_cons, List.foldl_nil]
    set a := (List.range n).foldl (fun acc b => if c b then acc + 1 <<< b else acc) 0
    obtain ⟨h1, h2⟩ := ih
    have h3 : 2 ^ (n + 1) = 2 ^ n + 2 ^ n := by rw [Nat.pow_succ]; omega
    split
    · rename_i hc
      refine ⟨by rw [Nat.shiftLeft_eq]; omega, ?_⟩
      have : a + 1 <<< n = 2 ^ n * 1 + a := by rw [Nat.shiftLeft_eq]; omega
      rw [this, Nat.testBit_two_pow_mul_add _ h1, h2]
      by_cases hi : i < n
      · simp [hi, Nat.lt_succ_of_lt hi]
      · by_cases hn : i = n
        · subst hn; simp [hc]
        · obtain ⟨j, rfl⟩ : ∃ j, i = n + (j + 1) := ⟨i - n - 1, by omega⟩
          simp [Nat.testBit_succ, show n + (j + 1) - n = j + 1 by omega]
    · rename_i hc
      refine ⟨by omega, ?_⟩
      rw [h2]
      by_cases hi : i < n
      · simp [hi, Nat.lt_succ_of_lt hi]
      · by_cases hn : i = n
        · subst hn; simp [hc]
        · simp [hi, show ¬ i < n + 1 by omega]

/- Where an element stands. -/

/-- Place of bit b of element e in a register of L lanes. -/
def bitOff (L : Nat) (f : Fmt) (e b : Nat) : Nat :=
  if f.sliced then slicedOff L f.width e b else 512 * (e % L) + f.container * (e / L) + b

/-- The format is one of R50: a sliced one has 1 to 16 bits. -/
def Fmt.legal (f : Fmt) : Bool := !f.sliced || (decide (1 ≤ f.width) && decide (f.width ≤ 16))

/-- A code names a format of R50. -/
theorem ofCode_legal {c : Nat} {f : Fmt} (h : Fmt.ofCode c = some f) : f.legal = true := by
  unfold Fmt.ofCode at h
  split at h <;> first
    | (injection h with h; subst h; rfl)
    | (split at h
       · rename_i hc; injection h with h; subst h; simp at hc; exact (by simp; omega : (!true || (decide (1 ≤ c - 31) && decide (c - 31 ≤ 16))) = true)
       · split at h
         · rename_i hc; injection h with h; subst h; simp at hc; exact (by simp; omega : (!true || (decide (1 ≤ c - 47) && decide (c - 47 ≤ 16))) = true)
         · cases h)

/-- Sizes of a packed format: its elements fill a slice up to its used bits. -/
theorem packed_sizes {f : Fmt} (h : f.sliced = false) :
    1 ≤ f.width ∧ f.width ≤ f.container ∧ f.perSlice * f.container = usedBits f ∧ usedBits f ≤ 512 := by
  cases f <;> first | (simp [Fmt.sliced] at h; done) | decide

theorem sliced_sizes {f : Fmt} (h : f.sliced = true) (hl : f.legal = true) :
    1 ≤ f.width ∧ f.perSlice = 32 * (16 / f.width) ∧ usedBits f = 32 * (f.width * (16 / f.width)) ∧ usedBits f ≤ 512 := by
  have h1 : 1 ≤ f.width := by cases f <;> simp [Fmt.sliced, Fmt.legal] at h hl ⊢ <;> omega
  refine ⟨h1, by simp [Fmt.perSlice, h], by simp [usedBits, h], ?_⟩
  have : f.width * (16 / f.width) ≤ 16 := Nat.mul_div_le 16 f.width
  simp [usedBits, h]; omega

/-- The lane an element stands in. -/
def laneOf (L : Nat) (f : Fmt) (e : Nat) : Nat := if f.sliced then e / 32 % L else e % L

/-- A bit of an element stands in the used bits of its lane's slice, and tells its element and its number. -/
theorem bitOff_spec {L : Nat} {f : Fmt} {e b : Nat} (hl : f.legal = true) (he : e < L * f.perSlice) (hb : b < f.width) :
    ∃ o, bitOff L f e b = 512 * laneOf L f e + o ∧ o < usedBits f ∧
      o = if f.sliced then 32 * (f.width * (e / 32 / L) + b) + e % 32 else f.container * (e / L) + b := by
  have hL : 0 < L := by rcases Nat.eq_zero_or_pos L with h | h; · subst h; simp at he
                        · exact h
  cases hs : f.sliced
  · obtain ⟨h1, h2, h3, h4⟩ := packed_sizes hs
    refine ⟨f.container * (e / L) + b, by simp [bitOff, laneOf, hs]; omega, ?_, by simp⟩
    have : e / L < f.perSlice := Nat.div_lt_of_lt_mul he
    have : f.container * (e / L + 1) ≤ f.perSlice * f.container := by rw [Nat.mul_comm]; exact Nat.mul_le_mul_right _ this
    rw [Nat.mul_add] at this; omega
  · obtain ⟨h1, h2, h3, h4⟩ := sliced_sizes hs hl
    refine ⟨32 * (f.width * (e / 32 / L) + b) + e % 32, by simp [bitOff, slicedOff, laneOf, hs]; omega, ?_, by simp⟩
    have : e / 32 / L < 16 / f.width := by
      apply Nat.div_lt_of_lt_mul; apply Nat.div_lt_of_lt_mul; rw [h2] at he; nlinarith
    have : f.width * (e / 32 / L + 1) ≤ f.width * (16 / f.width) := Nat.mul_le_mul_left _ this
    rw [Nat.mul_add] at this; omega

theorem div_of_lt (c q b : Nat) (hb : b < c) : (c * q + b) / c = q := by
  rw [Nat.mul_add_div (by omega), Nat.div_eq_of_lt hb, Nat.add_zero]

theorem bitOff_inj {L : Nat} {f : Fmt} {e e' b b' : Nat} (hl : f.legal = true) (he : e < L * f.perSlice)
    (he' : e' < L * f.perSlice) (hb : b < f.width) (hb' : b' < f.width) (h : bitOff L f e b = bitOff L f e' b') :
    e = e' ∧ b = b' := by
  obtain ⟨o, h1, h2, h3⟩ := bitOff_spec hl he hb
  obtain ⟨o', h1', h2', h3'⟩ := bitOff_spec hl he' hb'
  have hu : usedBits f ≤ 512 := by
    cases hs : f.sliced
    · exact (packed_sizes hs).2.2.2
    · exact (sliced_sizes hs hl).2.2.2
  have hlane : laneOf L f e = laneOf L f e' := by omega
  have ho : o = o' := by omega
  rw [h3, h3'] at ho
  cases hs : f.sliced
  · simp only [hs, laneOf] at ho hlane
    obtain ⟨w1, w2, -, -⟩ := packed_sizes hs
    simp at ho hlane
    have hq : e / L = e' / L := by
      rw [← div_of_lt f.container (e / L) b (by omega), ← div_of_lt f.container (e' / L) b' (by omega), ho]
    rw [hq] at ho
    refine ⟨?_, by omega⟩
    rw [← Nat.div_add_mod e L, ← Nat.div_add_mod e' L, hq, hlane]
  · simp only [hs, laneOf] at ho hlane
    obtain ⟨w1, -, -, -⟩ := sliced_sizes hs hl
    simp at ho hlane
    have hr : e % 32 = e' % 32 := by omega
    have hm : f.width * (e / 32 / L) + b = f.width * (e' / 32 / L) + b' := by omega
    have hq : e / 32 / L = e' / 32 / L := by
      rw [← div_of_lt f.width (e / 32 / L) b hb, ← div_of_lt f.width (e' / 32 / L) b' hb', hm]
    rw [hq] at hm
    refine ⟨?_, by omega⟩
    have hg : e / 32 = e' / 32 := by rw [← Nat.div_add_mod (e / 32) L, ← Nat.div_add_mod (e' / 32) L, hq, hlane]
    omega

/- Reading and writing an element. -/

/-- An element of a register whose bytes beyond the tag are zero, bit by bit (R34, R35). -/
theorem testBit_elem {r : VReg} (hc : r.Covered) {L : Nat} {f : Fmt} {e : Nat} (hl : f.legal = true)
    (he : e < L * f.perSlice) (b : Nat) :
    (r.elem L f e).testBit b = (decide (b < f.width) && r.bits.testBit (bitOff L f e b)) := by
  by_cases hb : b < f.width
  · obtain ⟨o, h1, h2, h3⟩ := bitOff_spec hl he hb
    cases hs : f.sliced
    · simp only [VReg.elem, hs, Bool.false_eq_true, if_false, testBit_field, hb, decide_true, Bool.true_and]
      have ho : bitOff L f e b = 512 * (e % L) + f.container * (e / L) + b := by simp [bitOff, hs]
      rw [ho]
      by_cases ht : f.container * (e / L) + b < 64 * r.tag
      · have : b < min f.width (64 * r.tag - f.container * (e / L)) := by omega
        simp [this]
      · have h4 : ¬ b < min f.width (64 * r.tag - f.container * (e / L)) := by omega
        have : r.bits.testBit (512 * (e % L) + f.container * (e / L) + b) = false := by
          apply hc
          have := (packed_sizes hs).2.2.2
          simp [hs] at h3; subst h3
          rw [Nat.add_assoc, Nat.mul_add_mod, Nat.mod_eq_of_lt (by omega)]; omega
        simp [h4, this]
    · have ho : bitOff L f e b = slicedOff L f.width e b := by simp [bitOff, hs]
      simp only [VReg.elem, hs, if_true]
      rw [(testBit_gather _ _ _).2]
      simp only [hb, decide_true, Bool.true_and, ho]
      by_cases ht : slicedOff L f.width e b % 512 < 64 * r.tag
      · simp [ht]
      · simp [ht, hc _ (Nat.le_of_not_lt ht)]
  · cases hs : f.sliced
    · have : ¬ b < min f.width (64 * r.tag - f.container * (e / L)) := by omega
      simp [VReg.elem, hs, testBit_field, this, hb]
    · simp only [VReg.elem, hs, if_true]
      rw [(testBit_gather _ _ _).2]; simp [hb]

/-- The register's bits after a write of element e (R34, R51, R58). -/
theorem testBit_setElem (r : VReg) {L : Nat} {f : Fmt} {e : Nat} (x : Nat) (hl : f.legal = true)
    (he : e < L * f.perSlice) {e' b : Nat} (he' : e' < L * f.perSlice) (hb : b < f.width) :
    (r.setElem L f e x).bits.testBit (bitOff L f e' b) =
      if e' = e then x.testBit b else r.bits.testBit (bitOff L f e' b) := by
  obtain ⟨o, h1, h2, h3⟩ := bitOff_spec hl he' hb
  have hu : usedBits f ≤ 512 := by
    cases hs : f.sliced
    · exact (packed_sizes hs).2.2.2
    · exact (sliced_sizes hs hl).2.2.2
  unfold VReg.setElem
  dsimp only
  cases hs : f.sliced
  · simp only [Bool.false_eq_true, if_false, testBit_putField]
    obtain ⟨w1, w2, -, -⟩ := packed_sizes hs
    have ho : ∀ e b, bitOff L f e b = 512 * (e % L) + f.container * (e / L) + b := by intro e b; simp [bitOff, hs]
    by_cases hee : e' = e
    · subst hee
      rw [if_pos (by rw [ho]; omega), if_pos rfl, ho]
      simp [Nat.shiftLeft_eq, Nat.testBit_mod_two_pow, hb]
    · rw [if_neg hee, if_neg]
      rw [ho]; intro ⟨a1, a2⟩
      obtain ⟨o2, k1, k2, k3⟩ := bitOff_spec (b := 0) hl he (by omega)
      have k4 := ho e 0
      have hlane : laneOf L f e' = laneOf L f e := by
        have : f.container * (e / L + 1) ≤ usedBits f := by
          rw [← (packed_sizes hs).2.2.1, Nat.mul_comm]
          exact Nat.mul_le_mul_right _ (Nat.div_lt_of_lt_mul he)
        rw [Nat.mul_add] at this
        simp [hs] at k3 h3
        simp only [laneOf, hs] at h1 k1 ⊢
        simp at h1 k1 ⊢
        rw [ho] at h1
        omega
      simp only [laneOf, hs] at hlane
      simp at hlane
      rw [hlane] at a1 a2
      have hq : e' / L = e / L := by
        have b1 : f.container * (e / L) ≤ f.container * (e' / L) + b := by omega
        have b2 : f.container * (e' / L) + b < f.container * (e / L + 1) := by rw [Nat.mul_add]; omega
        have c1 : (f.container * (e' / L) + b) / f.container = e' / L := div_of_lt _ _ _ (by omega)
        have c2 : (f.container * (e' / L) + b) / f.container < e / L + 1 := Nat.div_lt_of_lt_mul b2
        have c3 : e / L ≤ (f.container * (e' / L) + b) / f.container := (Nat.le_div_iff_mul_le (by omega)).mpr (by rw [Nat.mul_comm]; exact b1)
        omega
      apply hee
      rw [← Nat.div_add_mod e' L, ← Nat.div_add_mod e L, hq, hlane]
  · simp only [if_true]
    rw [testBit_setBits]
    have ho : ∀ e b, bitOff L f e b = slicedOff L f.width e b := by intro e b; simp [bitOff, hs]
    by_cases hee : e' = e
    · subst hee
      have : (List.range f.width).reverse.find? (fun c => bitOff L f e' b == slicedOff L f.width e' c) = some b := by
        rw [List.find?_eq_some_iff_getElem]
        refine ⟨by simp [ho], f.width - 1 - b, by simp; omega, ?_, ?_⟩
        · simp; omega
        · intro j hj
          simp only [List.length_range, List.getElem_reverse, List.getElem_range, Bool.not_eq_true']
          rw [beq_eq_false_iff_ne]
          intro hc
          have := (bitOff_inj (b' := f.width - 1 - j) hl he he' hb (by omega) (by rw [hc, ho])).2
          omega
      rw [this, if_pos rfl]
    · have : (List.range f.width).reverse.find? (fun c => bitOff L f e' b == slicedOff L f.width e c) = none := by
        rw [List.find?_eq_none]
        intro c hc
        simp only [List.mem_reverse, List.mem_range] at hc
        intro hh
        apply hee
        exact (bitOff_inj (b' := c) hl he' he hb hc (by rw [beq_iff_eq] at hh; rw [hh, ho])).1
      rw [this, if_neg hee]

/-- A write of an element sets no bit outside it. -/
theorem setElem_sets (r : VReg) {L : Nat} {f : Fmt} {e : Nat} (x j : Nat)
    (h : (r.setElem L f e x).bits.testBit j = true) :
    r.bits.testBit j = true ∨ ∃ b < f.width, j = bitOff L f e b := by
  unfold VReg.setElem at h
  dsimp only at h
  cases hs : f.sliced
  · simp only [hs, Bool.false_eq_true, if_false, testBit_putField] at h
    split at h
    · rename_i hj
      right
      simp only [Nat.shiftLeft_eq, Nat.testBit_mod_two_pow, one_mul, Bool.and_eq_true, decide_eq_true_eq] at h
      exact ⟨j - (512 * (e % L) + f.container * (e / L)), h.1, by simp [bitOff, hs]; omega⟩
    · exact .inl h
  · simp only [hs, if_true, testBit_setBits] at h
    split at h
    · rename_i c hc
      have h1 := List.find?_some hc
      have h2 := List.mem_of_find?_eq_some hc
      right
      exact ⟨c, by simpa using h2, by simpa [bitOff, hs] using h1⟩
    · exact .inl h

@[simp] theorem setElem_tag (r : VReg) (L : Nat) (f : Fmt) (e x : Nat) : (r.setElem L f e x).tag = r.tag := rfl

/-- Elements written one after another: those for which `w` gives bits. -/
def putElems (L : Nat) (f : Fmt) (w : Nat → Option Nat) (es : List Nat) (r : VReg) : VReg :=
  es.foldl (fun r e => match w e with
    | some x => r.setElem L f e x
    | none => r) r

theorem putElems_tag (L : Nat) (f : Fmt) (w : Nat → Option Nat) (es : List Nat) (r : VReg) :
    (putElems L f w es r).tag = r.tag := by
  induction es generalizing r with
  | nil => rfl
  | cons e es ih => simp only [putElems, List.foldl_cons] at ih ⊢; rw [ih]; split <;> simp

theorem putElems_sets {L : Nat} {f : Fmt} {w : Nat → Option Nat} {es : List Nat} {r : VReg} {j : Nat}
    (h : (putElems L f w es r).bits.testBit j = true) :
    r.bits.testBit j = true ∨ ∃ e ∈ es, ∃ b < f.width, j = bitOff L f e b := by
  induction es generalizing r with
  | nil => exact .inl h
  | cons e es ih =>
    rcases ih (r := match w e with | some x => r.setElem L f e x | none => r) h with h | ⟨e', he, hb⟩
    · split at h
      · rcases setElem_sets r _ _ h with h | hb
        · exact .inl h
        · exact .inr ⟨e, by simp, hb⟩
      · exact .inl h
    · exact .inr ⟨e', by simp [he], hb⟩

theorem testBit_putElems {L : Nat} {f : Fmt} (w : Nat → Option Nat) {es : List Nat} (r : VReg) (hl : f.legal = true)
    (hn : es.Nodup) (he : ∀ e ∈ es, e < L * f.perSlice) {e b : Nat} (he' : e < L * f.perSlice) (hb : b < f.width) :
    (putElems L f w es r).bits.testBit (bitOff L f e b) =
      match (if e ∈ es then w e else none) with
      | some x => x.testBit b
      | none => r.bits.testBit (bitOff L f e b) := by
  induction es generalizing r with
  | nil => rfl
  | cons d es ih =>
    rw [List.nodup_cons] at hn
    have := ih (match w d with | some x => r.setElem L f d x | none => r) hn.2 (fun e h => he e (by simp [h]))
    rw [show putElems L f w (d :: es) r = putElems L f w es (match w d with | some x => r.setElem L f d x | none => r) from rfl,
      this]
    by_cases hd : e = d
    · subst hd
      simp only [hn.1, if_false, List.mem_cons, true_or, if_true]
      cases hw : w e with
      | none => rfl
      | some x => simp only [testBit_setElem r x hl he' he' hb, if_true]
    · simp only [List.mem_cons, hd, false_or]
      cases hw : (if e ∈ es then w e else none) with
      | some x => rfl
      | none =>
        dsimp only
        cases hwd : w d with
        | none => rfl
        | some x => simp only [testBit_setElem r x hl (he d (by simp)) he' hb, hd, if_false]

/-- Clearing the unused bits changes no element and sets no bit. -/
theorem testBit_trim (r : VReg) {L : Nat} {f : Fmt} (hl : f.legal = true) {e b : Nat} (he : e < L * f.perSlice)
    (hb : b < f.width) : (r.trim L f).bits.testBit (bitOff L f e b) = r.bits.testBit (bitOff L f e b) := by
  obtain ⟨o, h1, h2, h3⟩ := bitOff_spec hl he hb
  unfold VReg.trim
  split
  · rename_i hu
    have : ∀ (ls : List Nat) (v : Nat), (ls.foldl (fun v lane => putField v (512 * lane + usedBits f) (512 - usedBits f) 0) v).testBit
        (bitOff L f e b) = v.testBit (bitOff L f e b) := by
      intro ls
      induction ls with
      | nil => intro v; rfl
      | cons l ls ih => intro v; rw [List.foldl_cons, ih, testBit_putField, if_neg]; omega
    exact this _ _
  · rfl

theorem trim_sets {r : VReg} {L : Nat} {f : Fmt} {j : Nat} (h : (r.trim L f).bits.testBit j = true) :
    r.bits.testBit j = true := by
  unfold VReg.trim at h
  split at h
  · have : ∀ (ls : List Nat) (v : Nat), (ls.foldl (fun v lane => putField v (512 * lane + usedBits f) (512 - usedBits f) 0) v).testBit
        j = true → v.testBit j = true := by
      intro ls
      induction ls with
      | nil => intro v hv; exact hv
      | cons l ls ih =>
        intro v hv
        have := ih _ hv
        rw [testBit_putField] at this
        split at this
        · simp at this
        · exact this
    exact this _ _ h
  · exact h

/-- What a write of length n does beside its elements changes no element and sets no bit. -/
theorem testBit_raise (r : VReg) {L : Nat} {f : Fmt} (n : Nat) (hl : f.legal = true) {e b : Nat} (he : e < L * f.perSlice)
    (hb : b < f.width) : (r.raise L f n).bits.testBit (bitOff L f e b) = r.bits.testBit (bitOff L f e b) := by
  simp only [VReg.raise]
  split
  · rfl
  · exact testBit_trim r hl he hb

theorem raise_sets {r : VReg} {L : Nat} {f : Fmt} {n j : Nat} (h : (r.raise L f n).bits.testBit j = true) :
    r.bits.testBit j = true := by
  simp only [VReg.raise] at h
  split at h
  · exact h
  · exact trim_sets h

/-- The tag after a write of length n covers every element below n (R35). -/
theorem raise_covers (r : VReg) {L : Nat} {f : Fmt} {n e b : Nat} (hl : f.legal = true) (he : e < n)
    (hn : n ≤ L * f.perSlice) (hb : b < f.width) : bitOff L f e b % 512 < 64 * (r.raise L f n).tag := by
  have heL : e < L * f.perSlice := by omega
  have hL : 0 < L := by rcases Nat.eq_zero_or_pos L with h | h; · subst h; simp at heL
                        · exact h
  obtain ⟨o, h1, h2, h3⟩ := bitOff_spec hl heL hb
  have hu : usedBits f ≤ 512 := by
    cases hs : f.sliced
    · exact (packed_sizes hs).2.2.2
    · exact (sliced_sizes hs hl).2.2.2
  have hm : bitOff L f e b % 512 = o := by omega
  rw [hm]
  cases hs : f.sliced
  · obtain ⟨w1, w2, -, -⟩ := packed_sizes hs
    simp only [hs, Bool.false_eq_true, if_false] at h3
    have hq : e / L + 1 ≤ (n + L - 1) / L := by
      rw [← Nat.add_div_right e hL]; exact Nat.div_le_div_right (by omega)
    have := Nat.mul_le_mul_right f.container hq
    rw [Nat.add_mul, Nat.mul_comm (e / L)] at this
    simp only [VReg.raise, hs, Bool.false_eq_true, if_false]
    omega
  · obtain ⟨w1, -, -, -⟩ := sliced_sizes hs hl
    simp only [hs, if_true] at h3
    have hq : e / 32 / L + 1 ≤ (n + 32 * L - 1) / (32 * L) := by
      rw [Nat.div_div_eq_div_mul, ← Nat.add_div_right e (by omega)]; exact Nat.div_le_div_right (by omega)
    have := Nat.mul_le_mul_left f.width hq
    rw [Nat.mul_add] at this
    simp only [VReg.raise, hs, if_true]
    have h5 : 4 * f.width * ((n + 32 * L - 1) / (32 * L)) = 4 * (f.width * ((n + 32 * L - 1) / (32 * L))) := by rw [Nat.mul_assoc]
    omega

/-- Elements below n written in turn, the tag raised for length n: the register stays covered, and reads as written. -/
theorem putElems_elem {L : Nat} {f : Fmt} (w : Nat → Option Nat) {es : List Nat} {r : VReg} {n : Nat} (hc : r.Covered)
    (hl : f.legal = true) (hn : es.Nodup) (hes : ∀ e ∈ es, e < n) (hN : n ≤ L * f.perSlice) :
    let t := (putElems L f w es r).raise L f n
    t.Covered ∧ ∀ e < L * f.perSlice, t.elem L f e =
      match (if e ∈ es then w e else none) with
      | some x => x % 2 ^ f.width
      | none => r.elem L f e := by
  intro t
  have htag : r.tag ≤ t.tag := by
    simp only [t, VReg.raise]; rw [putElems_tag]; exact Nat.le_max_left _ _
  have hcov : t.Covered := by
    intro j hj
    by_contra hj1
    simp only [Bool.not_eq_false] at hj1
    rcases putElems_sets (raise_sets hj1) with h | ⟨e, he, b, hb, rfl⟩
    · rw [hc j (by omega)] at h; cases h
    · have := raise_covers (putElems L f w es r) hl (hes e he) hN hb
      exact absurd hj (by simp only [t]; omega)
  refine ⟨hcov, fun e he => ?_⟩
  apply Nat.eq_of_testBit_eq
  intro b
  rw [testBit_elem hcov hl he]
  by_cases hb : b < f.width
  · rw [show t.bits.testBit (bitOff L f e b) = (putElems L f w es r).bits.testBit (bitOff L f e b) from testBit_raise _ n hl he hb,
      testBit_putElems w r hl hn (fun e h => by have := hes e h; omega) he hb]
    cases h : (if e ∈ es then w e else none) with
    | some x => simp [hb, Nat.testBit_mod_two_pow]
    | none => simp [testBit_elem hc hl he, hb]
  · cases h : (if e ∈ es then w e else none) with
    | some x => simp [hb, Nat.testBit_mod_two_pow]
    | none => simp [testBit_elem hc hl he, hb]

/-- The frame of R334 for a vector destination. -/
theorem Hart.frame_elem {h : Hart} {k : Blk} {vd : VIx} {f : Fmt} {vl : Nat} {body : Nat → Nat}
    (hc : h.v[vd.val].Covered) (hl : f.legal = true) (hn : vl ≤ h.lanes * f.perSlice) :
    (h.frame k vd f vl body).Covered ∧ ∀ e < h.lanes * f.perSlice, (h.frame k vd f vl body).elem h.lanes f e =
      if h.vstart ≤ e ∧ e < vl then
        (if h.active k e then body e % 2 ^ f.width else if k.pz then 0 else h.v[vd.val].elem h.lanes f e)
      else h.v[vd.val].elem h.lanes f e := by
  let w : Nat → Option Nat := fun e => if h.active k e then some (body e) else if k.pz then some 0 else none
  have hf : h.frame k vd f vl body = (let r := putElems h.lanes f w (List.range' h.vstart (vl - h.vstart)) h.v[vd.val]
      if vl ≤ h.vstart then r else r.raise h.lanes f vl) := by
    have : (fun (r : VReg) e => if h.active k e then r.setElem h.lanes f e (body e)
          else if k.pz then r.setElem h.lanes f e 0 else r) =
        (fun r e => match w e with | some x => r.setElem h.lanes f e x | none => r) := by
      funext r e
      simp only [w]
      by_cases h1 : h.active k e = true
      · simp [h1]
      · by_cases h2 : k.pz = true <;> simp [h1, h2]
    unfold Hart.frame putElems
    rw [this]
  rw [hf]
  by_cases hv : vl ≤ h.vstart
  · have : vl - h.vstart = 0 := by omega
    simp only [this, hv, if_true]
    refine ⟨hc, fun e _ => ?_⟩
    rw [if_neg (by omega)]; rfl
  · simp only [hv, if_false]
    have hm : ∀ e, e ∈ List.range' h.vstart (vl - h.vstart) ↔ h.vstart ≤ e ∧ e < vl := by
      intro e; rw [List.mem_range'_1]; omega
    have := putElems_elem w (es := List.range' h.vstart (vl - h.vstart)) (n := vl) hc hl List.nodup_range'
      (fun e h => ((hm e).mp h).2) hn
    refine ⟨this.1, fun e he => ?_⟩
    rw [this.2 e he]
    simp only [hm, w]
    by_cases h1 : h.vstart ≤ e ∧ e < vl
    · simp only [h1, and_self, if_true]
      by_cases h2 : h.active k e = true
      · simp [h2]
      · simp only [h2]; by_cases h3 : k.pz = true <;> simp [h3]
    · simp only [h1, if_false]

/-- The frame of R334 for a predicate destination. -/
theorem Hart.framePred_bit (h : Hart) (k : Blk) (old vl : Nat) (body : Nat → Bool) (e : Nat) :
    (h.framePred k old vl body).testBit e =
      if h.vstart ≤ e ∧ e < vl then (if h.active k e then body e else if k.pz then false else old.testBit e)
      else old.testBit e := by
  have key : ∀ (es : List Nat) (p : Nat), es.Nodup → (es.foldl (fun p e =>
      if h.active k e then setBit p e (body e) else if k.pz then setBit p e false else p) p).testBit e =
      if e ∈ es then (if h.active k e then body e else if k.pz then false else p.testBit e) else p.testBit e := by
    intro es
    induction es with
    | nil => intro p _; rfl
    | cons d es ih =>
      intro p hn
      rw [List.nodup_cons] at hn
      rw [List.foldl_cons, ih _ hn.2]
      by_cases hd : e = d
      · subst hd
        simp only [hn.1, if_false, List.mem_cons, true_or, if_true]
        by_cases h1 : h.active k e = true
        · simp [h1, testBit_setBit]
        · by_cases h2 : k.pz = true <;> simp [h1, h2, testBit_setBit]
      · have hp : (if h.active k d then setBit p d (body d) else if k.pz then setBit p d false else p).testBit e =
            p.testBit e := by
          by_cases h1 : h.active k d = true
          · simp [h1, testBit_setBit, hd]
          · by_cases h2 : k.pz = true <;> simp [h1, h2, testBit_setBit, hd]
        simp only [hp, List.mem_cons, hd, false_or]
  unfold Hart.framePred
  rw [key _ _ List.nodup_range']
  have hm : e ∈ List.range' h.vstart (vl - h.vstart) ↔ h.vstart ≤ e ∧ e < vl := by rw [List.mem_range'_1]; omega
  simp only [hm]

end Sys2Proof.Machine
end

