-- ==== Sys2Proof/Machine/Image.lean ====
section
/-!
DEFINITION. The context image of a saved hart (R189, R190): its 1 KiB header, its section directory and its sections, as
the host driver reads them through the physical function. The hart context of the state stands for what the image holds
between a save and a restore; these functions give the bytes of it.
-/

namespace Sys2Proof.Machine

/-- The n low bytes of a number, the lowest first. -/
def le (n : Nat) (v : Nat) : List Byte := toBytes n v

/-- Quads of a hart: those it holds, or those it gave up and is owed (R33, R190). -/
def Hart.quads (h : Hart) : Nat := if h.grant = 0 then h.owed else popCount h.grant.toNat 64

/-- Lanes of a hart's image. -/
def Hart.imageLanes (h : Hart) : Nat := 4 * h.quads

/-- A mask of the numbers below n that satisfy f. -/
def maskOf (n : Nat) (f : Nat → Bool) : Nat := (List.range n).foldl (fun m i => if f i then m + 1 <<< i else m) 0

/- Sections (R190). -/

/-- Section 0: the tags, then the bytes that the tag of each register covers, lane by lane. -/
def Hart.imageVectors (h : Hart) : List Byte :=
  h.v.toList.flatMap (fun r => le 1 r.tag) ++
    (h.v.toList.filter (fun r => r.tag != 0)).flatMap (fun r =>
      (List.range h.imageLanes).flatMap (fun i => le (8 * r.tag) (r.bits >>> (512 * i))))

/-- Bits of a predicate on lane i of L: those of elements i, L + i, 2L + i and so on.
DESIGN CHOICE: notes/assumptions/18. -/
def predLane (p L i : Nat) : Nat := maskOf 512 (fun j => p.testBit (L * j + i))

/-- Section 1: the predicates that are not all false, and 64 bytes a lane for each. -/
def Hart.imagePredicates (h : Hart) : List Byte :=
  le 8 (maskOf 64 (fun i => h.p.toList.getD i 0 != 0)) ++
    (h.p.toList.filter (· != 0)).flatMap (fun p =>
      (List.range h.imageLanes).flatMap (fun i => le 64 (predLane p h.imageLanes i)))

/-- Section 2: the lanes whose table has been written since the grant, and 8 KiB for each. -/
def Hart.imageTables (h : Hart) : List Byte :=
  let used (i : Nat) : Bool := h.laneMask.testBit i
  le 32 (maskOf 256 used) ++
    ((List.range 256).filter used).flatMap (fun i => (List.range 8192).map (fun a => (alookup h.laneTab (8192 * i + a)).getD 0))

/-- The sheaves that a hart's residency registers hold, in order of the registers. -/
def State.heldSheaves (s : State) (h : Nat) : List Sheaf :=
  (s.hartAt h).hreg.toList.filterMap (fun r => r.bind s.sheafById)

/-- A counter in an image: value, bound, and the register of its target with bit 7 set, or 0.
DESIGN CHOICE: notes/assumptions/18. -/
def Counter.image (c : Counter) : List Byte :=
  le 8 c.val ++ le 8 c.bound ++ le 1 (match c.target with | none => 0 | some k => 128 + k.val)

/-- Section 3: the registers that hold a sheaf, the descriptors, the counters, and the vector each queued block
captured. -/
def State.imageResidency (s : State) (h : Nat) : List Byte :=
  let v := s.hartAt h
  le 2 (maskOf 16 (fun i => ((v.hreg.toList.getD i none).bind s.sheafById).isSome)) ++
    (s.heldSheaves h).flatMap (fun sh => le 128 sh.desc.raw.toNat) ++ v.k.toList.flatMap Counter.image ++
    v.queue.flatMap (fun b => b.kvec.flatMap (le 8))

/-- Section 4: the window of each LOCAL sheaf. -/
def State.imageLocal (s : State) (h : Nat) : List Byte :=
  ((s.heldSheaves h).filter (fun sh => sh.desc.mode = .loc)).flatMap (fun sh =>
    (List.range sh.desc.lines).flatMap (fun i =>
      le 64 (((s.lineAt sh.stead (.loc sh.sid i)).map (fun (l : Line) => l.data)).getD 0).toNat))

/-- Section 5: the address of each queued block, where it stands, and its scalar view. -/
def Hart.imageBlocks (h : Hart) : List Byte :=
  h.queue.flatMap (fun b => le 8 b.addr.toNat ++ le 8 b.pos.toNat ++ b.view.toList.flatMap (fun x => le 8 x.toNat))

/-- Section 6: of each held row, the columns up to its high-water mark. -/
def Hart.imageRows (h : Hart) : List Byte :=
  (List.range h.rowCount).flatMap (fun i =>
    let row := h.rowBase + i
    (List.range ((alookup h.marks row).getD 0)).flatMap (fun c => le 4 (h.cell row c).toNat))

/-- What a slot is bound to, in an image.
DESIGN CHOICE: notes/assumptions/18. -/
def Binding.image (b : Binding) : List Byte :=
  match b with
  | .unbound => le 8 0
  | .reserved op => le 1 1 ++ le 7 op
  | .pair id => le 1 2 ++ le 7 id
  | .send g y r => le 1 3 ++ le 1 y.val ++ le 2 r ++ le 4 g
  | .recv g y => le 1 4 ++ le 1 y.val ++ le 2 0 ++ le 4 g

/-- A pair record with its sequence number (R178).
DESIGN CHOICE: notes/assumptions/18. -/
def PairRec.image (r : PairRec) : List Byte := [r.seq, r.i, r.j, r.dx, r.dy, r.dz, r.r2].flatMap (le 4)

/-- Section 7: of each slot its binding, the sequence numbers, the flits it holds and the pair records that wait in it,
each with its number (R178).
DESIGN CHOICE: notes/assumptions/18. -/
def Hart.imageSlots (h : Hart) : List Byte :=
  h.z.toList.flatMap (fun v => v.bound.image ++ le 4 v.nextSend ++ le 4 v.expect ++ le 4 v.flits.length ++
    v.flits.flatMap (fun f => le 4 f.seq ++ le 4 f.fmt ++ le 4 f.left ++ le 4 (if f.endMark then 1 else 0) ++
      le 4 f.elems.length ++ f.elems.flatMap (le 8)) ++
    le 4 v.records.length ++ v.records.flatMap PairRec.image)

/-- Section 8: the queued events, each as `ENGEV` would show it, with its `EVAL`. -/
def Hart.imageEvents (h : Hart) : List Byte :=
  h.events.flatMap (fun e => le 8 (engevOf e false).toNat ++ le 8 e.addr.toNat)

/-- The registers whose answers were owed when the hart was saved, ascending (R188, R190). -/
def Hart.owedRegs (h : Hart) : List Reg := (List.finRange 32).filter h.owedX.contains

/-- Section 9: of each register whose answer was owed at the save, the answer once it has arrived, which x then holds,
and 0 until it does.
DESIGN CHOICE: notes/assumptions/18. -/
def Hart.imageAnswers (h : Hart) : List Byte :=
  h.owedRegs.flatMap (fun r => le 8 (if h.isPending r then 0 else (h.rd r).toNat))

/-- The sections of hart h's image in the order of its directory. -/
def State.imageSections (s : State) (h : Nat) : List (List Byte) :=
  let v := s.hartAt h
  [v.imageVectors, v.imagePredicates, v.imageTables, s.imageResidency h, s.imageLocal h, v.imageBlocks, v.imageRows,
   v.imageSlots, v.imageEvents, v.imageAnswers]

/- The header (R190). -/

/-- The control registers that the header holds, in its order: `VLA`, `ROPEPART`, `FMTDEF`, `FRM`, `FFLAGS`, `NWIN`,
`NTCTL`, the limits and counts, the level-0 trap registers, `DBGCTL`, `LANECYC` and `ENGEV`. -/
def imageCsrs : List Nat :=
  [0x011, 0x019, 0x020, 0x021, 0x022, 0x023, 0x024] ++ (List.range 6).map (0x028 + ·) ++ (List.range 6).map (0x030 + ·) ++
    (List.range 6).map (0x040 + ·) ++ [0x060, 0x073, 0x050]

/-- Bytes 0x010 to 0x017 of the header. Bit 50 says that the saved position lies in a block, as it does while a block
that no trap holds has still to end (R24, R188). -/
def Hart.imageState (h : Hart) : Nat :=
  h.vstart % 1 <<< 18 + h.quads <<< 20 + h.rowCount <<< 32 + h.rowBase <<< 40 + h.level <<< 48 +
    (if h.block.isSome then 1 <<< 50 else 0)

/-- Bytes 0x018 to 0x01F of the header. -/
def Hart.imagePending (h : Hart) : Nat :=
  maskOf 32 (fun i => h.owedX.any (·.val == i)) + h.events.length <<< 32 + (if h.lost then 1 <<< 36 else 0)

/-- The directory entries of sections of these lengths, the first of which starts at offset a. -/
def imageDirectory (a : Nat) : List Nat → List Nat
  | [] => []
  | n :: ns => (a + n <<< 32) :: imageDirectory (a + n) ns

/-- The context image of hart h (R190). -/
def State.image (s : State) (h : Nat) : List Byte :=
  let v := s.hartAt h
  let t := s.switchTo h
  let parts := s.imageSections h
  let header := le 8 v.pc.toNat ++ le 8 v.vfret.toNat ++ le 8 v.imageState ++ le 8 v.imagePending ++
    v.x.toList.flatMap (fun x => le 8 x.toNat) ++ imageCsrs.flatMap (fun n => le 8 (t.csrRead n).toNat)
  let directory := (imageDirectory 1024 (parts.map (·.length))).flatMap (le 8)
  header ++ directory ++ List.replicate 48 0 ++ List.replicate 384 0 ++ parts.flatten

/-- The images that stand in the device memory that the firmware reserves, by `HARTID`: one for each hart that is saved
(R189, R190). They follow the context, so that an answer that comes after the save stands in its image (R188).
DESIGN CHOICE: notes/assumptions/18. -/
def State.images (s : State) : List (Nat × List Byte) :=
  (s.hartIds.filter (fun h => (s.hartAt h).preempted)).map (fun h => (h, s.image h))

end Sys2Proof.Machine
end

