-- ==== Sys2Proof/Tests/Slice0.lean ====
section
/-!
SUPPORT. Tests of the model: terms that are not well formed are refused, words that the spec prints decode to what they
stand for, single steps answer what the rules give, and every statement's hypotheses are met by a concrete state.
-/

namespace Sys2Proof.Tests

open Sys2Proof Sys2Proof.Machine

/- One theorem after another, so that the kernel's evaluations do not all wait for one another. -/
set_option Elab.async false

/- Well-formedness: each check refuses a term. -/

theorem test_wf_fcvt_same : (Instr.fcvt .s .s .rne 1 2).wf = false := by decide
theorem test_wf_fcvt_integers : (Instr.fcvt .l .n .rne 1 2).wf = false := by decide
theorem test_wf_fma_low_mode : (Instr.fmaOpcode0d .s false false .rna 1 2 3 4).wf = false := by decide
theorem test_wf_fma_high_mode : (Instr.fmaOpcode0e .s false false .rne 1 2 3 4).wf = false := by decide
theorem test_wf_ld_signed_doubleword : (Instr.ld .d true false 1 2 0).wf = false := by decide
theorem test_wf_vcmp_unord : (Instr.vcmp {} 1 2 3 .unord).wf = false := by decide
theorem test_wf_vtopk_odd : (Instr.vtopk {} 5 1 7 false).wf = false := by decide
theorem test_wf_vamo_comparand : (Instr.vamo {} .add 1 2 3 4 0 .plain 5).wf = false := by decide
theorem test_wf_vlds_field : (Instr.vlds {} 1 0 6 true).wf = false := by decide
theorem test_wf_hmask_p0 : (Instr.hmask {} 0 1 2).wf = false := by decide
theorem test_wf_mopa_predicate : (Instr.mopa { pg := 1 } 1 8 0 1).wf = false := by decide
theorem test_wf_mopa_units : (Instr.mopa {} 1 8 0 13).wf = false := by decide
theorem test_wf_mopa_group : (Instr.mopa {} 1 9 0 1).wf = false := by decide
theorem test_wf_mopas_group : (Instr.mopas {} 1 6 2 0 1).wf = false := by decide
theorem test_wf_mrd_predicate : (Instr.mrd { pz := true } 1 0).wf = false := by decide
theorem test_wf_mwr_predicate : (Instr.mwr { pn := true } 1 0).wf = false := by decide
theorem test_wf_mzero_length : (Instr.mzero { xl := 3 } 0 1).wf = false := by decide
theorem test_wf_vsprune_same : (Instr.vsprune {} 2 1 2).wf = false := by decide

/- Words that the spec prints, or that its encoding tables give bit by bit (R232 to R248). -/

theorem test_decode_integer : decodeTableWord 32 0x04642C00 = some (.add 3 4 5 true) := by decide
theorem test_decode_immediate : decodeTableWord 32 0x08E7FFFF = some (.addi 7 7 0xFFFF) := by decide
theorem test_decode_float : decodeTableWord 32 0x38642987 = some (.fmaOpcode0e .d true false .dyn 3 4 5 6) := by decide
theorem test_decode_load : decodeTableWord 32 0x40F5C000 = some (.ld .d false false 7 21 0) := by decide
theorem test_decode_store : decodeTableWord 32 0x44D4D000 = some (.st .d true 6 20 0) := by decide
theorem test_decode_branch : decodeTableWord 32 0x512A0005 = some (.beq 9 10 5) := by decide
theorem test_decode_jump : decodeTableWord 32 0x6FE50000 = some (.jalr 31 5 0) := by decide
theorem test_decode_lanes : decodeTableWord 32 0x80A40014 = some (.setl 5 4 0x0A false) := by decide
theorem test_decode_residency : decodeTableWord 32 0x84600208 = some (.havail 3 1) := by decide
theorem test_decode_rows : decodeTableWord 32 0x88000080 = some .mdet := by decide
theorem test_decode_scheduler : decodeTableWord 32 0x8C000200 = some .bar := by decide
theorem test_decode_granary : decodeTableWord 32 0x90642800 = some (.gfind 3 4 5) := by decide
theorem test_decode_stream : decodeTableWord 32 0x98000090 = some (.sclose 1) := by decide
theorem test_decode_system : decodeTableWord 32 0xF8000016 = some (.brk 1) := by decide
theorem test_decode_block_stop : decodeTableWord 64 0x0100000000000000 = some .vstop := by decide
theorem test_decode_block_marker : decodeTableWord 64 0x0280000000000000 = some (.vnop true) := by decide
theorem test_decode_block_integer :
    decodeTableWord 64 0x210208000014DFF1 = some (.vaddi { xl := 5, xf := 6 } 1 1 0x1FF1) := by decide
theorem test_decode_block_float :
    decodeTableWord 64 0x3304188280240001 = some (.vfma { xl := 9 } 2 3 4 5 true false) := by decide
theorem test_decode_block_permute :
    decodeTableWord 64 0x760808418024C000 = some (.vmerge { xl := 9, xf := 6 } 4 1 2 3) := by decide
theorem test_decode_block_memory :
    decodeTableWord 64 0x980A30638010F354 = some (.vamo { xl := 4, xf := 7 } .cas 5 6 20 3 2 .sc 7) := by decide
theorem test_decode_block_flail : decodeTableWord 64 0xA00042000010A080 = some (.mopa { xl := 4, xf := 5 } 8 16 0 1) := by decide
/-- A block word with `VSTOP` and any other bit set is refused (R249). -/
theorem test_decode_refuses_stop_with_operands : decodeTableWord 64 0x0100000000000001 = none := by decide
/-- Major opcode 0 is none (R233). -/
theorem test_decode_refuses_opcode_zero : decodeTableWord 32 0 = none := by decide

/- States for the witnesses. -/

/-- Scalar registers that hold the listed values, and zero elsewhere. -/
def regs (l : List (Nat × Word)) : Vector Word 32 := Vector.ofFn (fun i : Fin 32 => (alookup l i.val).getD 0)

/-- A state in which h runs: page 0 maps to itself, and handle 0 of the table at address 0 gives the tenant 0 every
access to its first 65,536 bytes. -/
def machine (h : Hart) (mem : List Host.Cell := []) : State :=
  { hart := { h with status := .running }, mem := (10, 1) :: (15, 0xF0) :: mem, over1 := [(0, 0, 0)], over2 := [(0, 0, some 0)] }

/-- A hart that runs blocks in the formats with these codes. -/
def inFormats (fa fb fc fd : Nat) : Hart := { fmtdef := BitVec.ofNat 32 (fa + 64 * fb + 4096 * fc + 262144 * fd) }

theorem zero_covered : VReg.Covered {} := fun j _ => Nat.zero_testBit j

/-- What the statements on block instructions ask of a state, an instruction and its formats. -/
def Runs {α D : Type} (s : State) (F : Claims.Form α D) (fs : List Fmt) (fd : Fmt) : Prop :=
  Claims.Dispatches s F fs ∧ fs.getLast? = some fd

/- Hypotheses of the statements, in their order. -/

theorem witness_register_arithmetic :
    Claims.regForm (machine { x := regs [(1, 7), (2, 0)] }).hart (.div 3 1 2 false) = some (3, [1, 2], -1) ∧
      Claims.Readable [1, 2] (machine { x := regs [(1, 7), (2, 0)] }) := ⟨by decide, by decide, .inl (by decide)⟩

theorem witness_immediate_arithmetic :
    Claims.immForm (machine { x := regs [(1, -1)] }).hart (.addi 3 1 1) = some (3, [1], 0) ∧
      Claims.Readable [1] (machine { x := regs [(1, -1)] }) := ⟨by decide, by decide, .inl (by decide)⟩

theorem witness_vector_integer : ∃ F, Claims.intForm (inFormats 3 3 3 3) (.vadd {} 1 2 3) = some F ∧
    Runs (machine (inFormats 3 3 3 3)) F [.s32, .s32, .s32] .s32 ∧ VReg.Covered {} :=
  ⟨_, rfl, ⟨⟨by decide, by decide, by decide, by decide, by decide⟩, rfl⟩, zero_covered⟩

theorem witness_predicates : ∃ F, Claims.predForm (inFormats 3 3 3 3) (.vcmp {} 1 2 3 .lt) = some F ∧
    Claims.Dispatches (machine (inFormats 3 3 3 3)) F [.s32, .s32] :=
  ⟨_, rfl, by decide, by decide, by decide, by decide, by decide⟩

theorem witness_moves : ∃ F, Claims.moveForm (inFormats 3 3 3 3) (.vslup {} 1 2 4) = some F ∧
    Runs (machine (inFormats 3 3 3 3)) F [.s32, .s32] .s32 ∧ VReg.Covered {} :=
  ⟨_, rfl, ⟨⟨by decide, by decide, by decide, by decide, by decide⟩, rfl⟩, zero_covered⟩

theorem witness_vector_float : ∃ F, Claims.floatVec (machine (inFormats 10 10 10 10)) (.vfadd {} 1 2 3) = some F ∧
    Runs (machine (inFormats 10 10 10 10)) F [.f32, .f32, .f32] .f32 ∧ VReg.Covered {} :=
  ⟨_, rfl, ⟨⟨by decide, by decide, by decide, by decide, by decide⟩, rfl⟩, zero_covered⟩

theorem witness_conversions : ∃ F, Claims.convertForm (machine (inFormats 10 10 10 3)) (.vcvt {} 1 2) = some F ∧
    Runs (machine (inFormats 10 10 10 3)) F [.f32, .s32] .s32 ∧ VReg.Covered {} :=
  ⟨_, rfl, ⟨⟨by decide, by decide, by decide, by decide, by decide⟩, rfl⟩, zero_covered⟩

/-- A result for every approximation. -/
def anyResult : Claims.Approx → Fmt → Fmt → Bool → Bool → Nat → Nat × Flags := fun _ _ _ _ _ _ => (0, flNone)

theorem witness_approximations : ∃ F, Claims.approxForm anyResult (inFormats 10 10 10 10) (.vfrcp {} 1 2) = some F ∧
    Runs (machine (inFormats 10 10 10 10)) F [.f32, .f32] .f32 ∧ VReg.Covered {} :=
  ⟨_, rfl, ⟨⟨by decide, by decide, by decide, by decide, by decide⟩, rfl⟩, zero_covered⟩

theorem witness_insert : ∃ F, Claims.scatterForm (inFormats 3 3 3 3) (.vins {} 1 2 3) = some F ∧
    Runs (machine (inFormats 3 3 3 3)) F [.s32] .s32 ∧ VReg.Covered {} :=
  ⟨_, rfl, ⟨⟨by decide, by decide, by decide, by decide, by decide⟩, rfl⟩, zero_covered⟩

/-- The form that the statements give a reduction or a scan of v2 into v1. -/
def sumForm (h : Hart) (k : Blk) : Claims.Form Nat VIx :=
  { k := k, dest := 1, codes := [(h.descr k).fa, (h.descr k).fd], accepts := Claims.reducible (h.descr k) 2, result := fun _ _ _ => (0, flNone) }

/-- A hart of one quad whose x4 is 2. -/
def twoElements (fa fd : Nat) : Hart := { inFormats fa 3 3 fd with grant := 1, x := regs [(4, 2)] }

/-- Integers and floats, each with elements that contribute, and a length of 0. -/
theorem witness_reductions : Claims.reductionOf (.vredsum { xl := 4 } 1 2 true) = some (.sum true, { xl := 4 }, 1, 2) ∧
    Runs (machine (twoElements 3 4)) (sumForm (twoElements 3 4) { xl := 4 }) [.s32, .s64] .s64 ∧
    Runs (machine (twoElements 10 10)) (sumForm (twoElements 10 10) { xl := 4 }) [.f32, .f32] .f32 ∧
    (twoElements 3 4).actives { xl := 4 } (Claims.length (machine (twoElements 3 4)) (sumForm (twoElements 3 4) { xl := 4 }) [.s32, .s64]) ≠ [] ∧
    (twoElements 10 10).actives { xl := 4 } (Claims.length (machine (twoElements 10 10)) (sumForm (twoElements 10 10) { xl := 4 }) [.f32, .f32]) ≠ [] ∧
    (twoElements 3 4).actives { xl := 5 } (Claims.length (machine (twoElements 3 4)) (sumForm (twoElements 3 4) { xl := 5 }) [.s32, .s64]) = [] ∧
    Fmt.s64.integer = true ∧ Fmt.f32.integer = false ∧ VReg.Covered {} :=
  ⟨rfl, ⟨⟨by decide, by decide, by decide, by decide, by decide⟩, rfl⟩, ⟨⟨by decide, by decide, by decide, by decide, by decide⟩, rfl⟩,
    by decide, by decide, by decide, rfl, rfl, zero_covered⟩

theorem witness_scans : Runs (machine (twoElements 3 3)) (sumForm (twoElements 3 3) { xl := 4 }) [.s32, .s32] .s32 ∧
    Runs (machine (twoElements 10 10)) (sumForm (twoElements 10 10) { xl := 4 }) [.f32, .f32] .f32 ∧ VReg.Covered {} :=
  ⟨⟨⟨by decide, by decide, by decide, by decide, by decide⟩, rfl⟩, ⟨⟨by decide, by decide, by decide, by decide, by decide⟩, rfl⟩, zero_covered⟩

/-- Pairs of 8 elements in f32, over 16 elements. -/
def ropeHart : Hart := { inFormats 10 3 10 10 with grant := 1, x := regs [(4, 16), (6, 8)] }

theorem witness_rotations : ∃ F, Claims.ropeForm (fun _ _ _ _ _ _ _ _ _ => (0, flNone)) (machine ropeHart) (.vrope { xl := 4 } 1 2 3 7 6) = some F ∧
    Runs (machine ropeHart) F [.f32, .s32, .f32, .f32] .f32 ∧ VReg.Covered {} :=
  ⟨_, rfl, ⟨⟨by decide, by decide, by decide, by decide, by decide⟩, rfl⟩, zero_covered⟩

/-- A hart that holds the first 8 rows of the Flail. -/
def withRows (h : Hart) : Hart := { h with rowCount := 8 }

theorem witness_outer_products : ∃ F : Claims.Form Nat Unit, F.codes = [1, 1, 3] ∧ F.accepts = (fun _ => flailFormats
      ((withRows (inFormats 1 1 12 3)).descr {}) 8 16 8 .s8 .s8 .s32) ∧
    Claims.Dispatches (machine (withRows (inFormats 1 1 12 3))) F [.s8, .s8, .s32] ∧
    (withRows (inFormats 1 1 12 3)).holdsRows 0 (8 * (1 : BitVec 4).toNat) = true :=
  ⟨{ k := {}, dest := (), codes := [1, 1, 3], accepts := fun _ => flailFormats ((withRows (inFormats 1 1 12 3)).descr {}) 8 16 8 .s8 .s8 .s32,
     result := fun _ _ _ => (0, flNone) }, rfl, rfl, ⟨by decide, by decide, by decide, by decide, by decide⟩, by decide⟩

/-- A hart whose v2 holds one container with the positions 0 to 3, and that runs one column. -/
def sparseHart : Hart :=
  { withRows (inFormats 1 1 6 3) with v := (Vector.replicate 64 {}).set 2 { tag := 8, bits := 0x688 }, x := regs [(4, 1)] }

/-- The form that the statement gives `MOPAS` on it. -/
def sparseForm : Claims.Form Nat Unit :=
  { k := { xl := 4 }, dest := (), codes := [1, 1, 6, 3]
    accepts := fun _ => flailFormats (sparseHart.descr { xl := 4 }) 8 16 4 .s8 .s8 .s32, result := fun _ _ _ => (0, flNone) }

theorem witness_sparse_outer_products : Claims.Dispatches (machine sparseHart) sparseForm [.s8, .s8, .n16, .s32] ∧
    sparseHart.holdsRows 0 (8 * (1 : BitVec 4).toNat) = true ∧
    min (Claims.length (machine sparseHart) sparseForm [.s8, .s8, .n16, .s32]) binCols = 1 ∧
    ∀ j, j < 1 → wellFormedContainer (sparseHart.bitsAt 2 j .n16) = true :=
  ⟨⟨by decide, by decide, by decide, by decide, by decide⟩, by decide, by decide, by decide⟩

theorem witness_bin_rows : ∃ F : Claims.Form Nat Unit, F.codes = [3] ∧
    F.accepts = (fun _ => (Fmt.s32 = .s32 || Fmt.s32 = .n32 || Fmt.s32 = .f32) && scaleOk ((inFormats 3 3 3 3).descr {}).asc 1 .s32) ∧
    Claims.Dispatches (machine (withRows (inFormats 3 3 3 3))) F [.s32] ∧ (withRows (inFormats 3 3 3 3)).holdsRows 7 1 = true ∧
    ((withRows (inFormats 3 3 3 3)).descr {}).sane = true ∧ (withRows (inFormats 3 3 3 3)).holdsRows 0 (8 * (1 : BitVec 4).toNat) = true :=
  ⟨{ k := {}, dest := (), codes := [3]
     accepts := fun _ => (Fmt.s32 = .s32 || Fmt.s32 = .n32 || Fmt.s32 = .f32) && scaleOk ((inFormats 3 3 3 3).descr {}).asc 1 .s32
     result := fun _ _ _ => (0, flNone) },
    rfl, rfl, ⟨by decide, by decide, by decide, by decide, by decide⟩, by decide, by decide, by decide⟩

/-- A descriptor whose destination is block-scaled (R60). -/
def scaledHart : Hart := { fmtdef := BitVec.ofNat 32 (10 + 64 * 10 + 4096 * 10 + 262144 * 14 + 2 ^ 31) }

theorem witness_block_scale : ∃ F, Claims.scaledForm scaledHart (.vfadd {} 2 4 5) = some F ∧
    Runs (machine scaledHart) F [.f32, .f32, .e4m3] .e4m3 ∧ (scaledHart.descr F.k).dsc = true ∧ F.dest ≠ 63 ∧
    F.k.pg = 0 ∧ F.k.pn = false ∧ scaledHart.vstart % 32 = 0 ∧ VReg.Covered {} :=
  ⟨_, rfl, ⟨⟨by decide, by decide, by decide, by decide, by decide⟩, rfl⟩, by decide, by decide, by decide, by decide, by decide, zero_covered⟩

theorem witness_top_k : ∃ F : Claims.Form Nat VIx, F.codes = [3, 3] ∧ F.spans = (fun _ => [.s32, .n32]) ∧
    Claims.Dispatches (machine (inFormats 3 3 3 3)) F [.s32, .s32] ∧ VReg.Covered {} :=
  ⟨{ k := {}, dest := 6, codes := [3, 3], spans := fun _ => [.s32, .n32]
     accepts := fun fs => Claims.samePacked fs && Fmt.s32 != .x9 && !((inFormats 3 3 3 3).descr {}).asc && !((inFormats 3 3 3 3).descr {}).dsc
     result := fun _ _ _ => (0, flNone) }, rfl, rfl, ⟨by decide, by decide, by decide, by decide, by decide⟩, zero_covered⟩

/-- What `VSPRUNE` asks of the data format s8. -/
def pruneOk : Bool :=
  (Fmt.s8 = .s8 || Fmt.s8 = .s4 || Fmt.s8 = .bf16 || Fmt.s8 = .f16 || Fmt.s8.narrow) && !((inFormats 1 1 6 1).descr {}).asc &&
    !((inFormats 1 1 6 1).descr {}).dsc

theorem witness_prune : ∃ F : Claims.Form Nat VIx, F.codes = [1, 6, 1] ∧ F.accepts = (fun _ => pruneOk) ∧
    Claims.Dispatches (machine (inFormats 1 1 6 1)) F [.s8, .n16, .s8] ∧ (2 : VIx) ≠ 3 ∧ (inFormats 1 1 6 1).vstart % 8 = 0 ∧
    Claims.length (machine (inFormats 1 1 6 1)) F [.s8, .n16, .s8] % 8 = 0 ∧ VReg.Covered {} :=
  ⟨{ k := {}, dest := 2, codes := [1, 6, 1], accepts := fun _ => pruneOk, result := fun _ _ _ => (0, flNone) },
    rfl, rfl, ⟨by decide, by decide, by decide, by decide, by decide⟩, by decide, by decide, by decide, zero_covered⟩

/-- What `VSTT` asks of data in x9 and an index in n32. -/
def tableOk : Bool :=
  Fmt.n32.index && Claims.tableBytes .x9 && scaleOk ((inFormats 19 7 3 3).descr {}).asc 1 .x9 && scaleOk ((inFormats 19 7 3 3).descr {}).bsc 2 .n32

theorem witness_lane_tables : ∃ F : Claims.Form Nat VIx, F.codes = [19, 7] ∧ F.accepts = (fun _ => tableOk) ∧
    Claims.Dispatches (machine (inFormats 19 7 3 3)) F [.x9, .n32] :=
  ⟨{ k := {}, dest := 1, codes := [19, 7], accepts := fun _ => tableOk
     result := fun _ _ _ => (0, flNone) }, rfl, rfl, by decide, by decide, by decide, by decide, by decide⟩

/-- A state whose x4 is 1, for instructions of one element, and whose x5 is an address. -/
def oneElement (fa fb fc fd : Nat) : State := machine { inFormats fa fb fc fd with x := regs [(4, 1), (5, 0x100)] }

/-- The bytes of that element. -/
def atAddress : Claims.Places := fun _ => [0x100, 0x101, 0x102, 0x103]

theorem witness_far_loads : ∃ F, Claims.farLoad (oneElement 3 3 3 3).hart (.vldf { xl := 4 } 1 5 0 .sc) = some (F, true) ∧
    Runs (oneElement 3 3 3 3) F [.s32] .s32 ∧ VReg.Covered {} ∧
    Claims.FarReady (oneElement 3 3 3 3) F.k (Claims.length (oneElement 3 3 3 3) F [.s32]) .rd true
      (fun e => (F.result [.s32] (Claims.length (oneElement 3 3 3 3) F [.s32]) e).1) atAddress :=
  ⟨_, rfl, ⟨⟨by decide, by decide, by decide, by decide, by decide⟩, rfl⟩, zero_covered,
    by decide +kernel, by decide +kernel, by decide +kernel, by decide +kernel, by decide +kernel⟩

theorem witness_far_stores : ∃ F, Claims.farStore (oneElement 3 3 3 3).hart (.vstf { xl := 4 } 1 5 0 .u) = some (F, false) ∧
    Claims.Dispatches (oneElement 3 3 3 3) F [.s32] ∧
    Claims.FarReady (oneElement 3 3 3 3) F.k (Claims.length (oneElement 3 3 3 3) F [.s32]) .wr false
      (fun e => (F.result [.s32] (Claims.length (oneElement 3 3 3 3) F [.s32]) e).1) atAddress ∧
    Claims.Apart (oneElement 3 3 3 3) F.k (Claims.length (oneElement 3 3 3 3) F [.s32]) atAddress :=
  ⟨_, rfl, ⟨by decide, by decide, by decide, by decide, by decide⟩,
    ⟨by decide +kernel, by decide +kernel, by decide +kernel, by decide +kernel, by decide +kernel⟩, by decide +kernel, by decide +kernel⟩

theorem witness_vector_atomics : ∃ F : Claims.Form Nat VIx, F.codes = [3, 7, 3] ∧ F.k = { xl := 4 } ∧
    Claims.Dispatches (oneElement 3 7 3 3) F [.s32, .n32, .s32] ∧ VReg.Covered {} ∧
    Claims.FarReady (oneElement 3 7 3 3) F.k (Claims.length (oneElement 3 7 3 3) F [.s32, .n32, .s32]) .rdwr true
      (fun e => farIndexed .s32 ((oneElement 3 7 3 3).hart.view 5) ((oneElement 3 7 3 3).hart.intAt 2 e .n32) 0) atAddress ∧
    Claims.Apart (oneElement 3 7 3 3) F.k (Claims.length (oneElement 3 7 3 3) F [.s32, .n32, .s32]) atAddress :=
  ⟨{ k := { xl := 4 }, dest := 1, codes := [3, 7, 3], accepts := fun _ => true, result := fun _ _ _ => (0, flNone) }, rfl, rfl,
    ⟨by decide, by decide, by decide, by decide, by decide⟩, zero_covered,
    ⟨by decide +kernel, by decide +kernel, by decide +kernel, by decide +kernel, by decide +kernel⟩, by decide +kernel, by decide +kernel⟩

/- Single steps, with the results that the spec's words or worked examples give. -/

/-- Scalar register r after an instruction on the listed registers. -/
def xAfter (i : Instr) (l : List (Nat × Word)) (r : Nat) : Option Word :=
  match exec i (machine { x := regs l }) with
  | .next t => some (t.hart.x.toList.getD r 0)
  | _ => none

/-- 0x7FFF_FFFF + 1 (R266). -/
theorem test_add_w : xAfter (.add 3 1 2 true) [(1, 0x7FFFFFFF), (2, 1)] 3 = some 0xFFFFFFFF80000000 := by decide
theorem test_srl_w : xAfter (.srl 3 1 2 true) [(1, 0x80000000)] 3 = some 0xFFFFFFFF80000000 := by decide
/-- -7 by 2 (R265). -/
theorem test_div : xAfter (.div 3 1 2 false) [(1, -7), (2, 2)] 3 = some (-3) := by decide
theorem test_rem : xAfter (.rem 3 1 2 false) [(1, -7), (2, 2)] 3 = some (-1) := by decide
theorem test_div_by_zero : xAfter (.divn 3 1 2 false) [(1, 9)] 3 = some (-1) := by decide
theorem test_rem_overflow : xAfter (.rem 3 1 2 false) [(1, 0x8000000000000000), (2, -1)] 3 = some 0 := by decide
theorem test_mulhn : xAfter (.mulhn 3 1 2 false) [(1, -1), (2, -1)] 3 = some (-2) := by decide
theorem test_sll_by_width : xAfter (.sll 3 1 2 false) [(1, 5), (2, 64)] 3 = some 5 := by decide
theorem test_clz_of_zero : xAfter (.clz 3 1 true) [] 3 = some 32 := by decide
theorem test_x0_discards : xAfter (.addi 0 0 1) [] 0 = some 0 := by decide
theorem test_lui : xAfter (.lui 3 0x8000) [] 3 = some 0xFFFFFFFF80000000 := by decide
theorem test_source_is_destination : xAfter (.sub 1 2 1 false) [(1, 3), (2, 10)] 1 = some 7 := by decide
/-- 1.5 + 2.25 in f32 (R52, R288). -/
theorem test_fadd : xAfter (.fadd .s .rne 3 1 2) [(1, 0x3FC00000), (2, 0x40100000)] 3 = some 0x40700000 := by decide +kernel
/-- 1 divided by zero: infinity (R63). -/
theorem test_fdiv_by_zero : xAfter (.fdiv .s .rne 3 1 2) [(1, 0x3F800000)] 3 = some 0x7F800000 := by decide +kernel

/-- Bytes 0x80 to 0x87 at address 0x100, a load of the first four, sign-extended, in little-endian order (R4, R311). -/
theorem test_ld_w_sx :
    (match exec (.ld .w true false 3 1 0)
        (machine { x := regs [(1, 0x100)] } [(0x100, 0x80), (0x101, 0x81), (0x102, 0x82), (0x103, 0x83)]) with
      | .next t => some (t.hart.x.toList.getD 3 0)
      | _ => none) = some 0xFFFFFFFF83828180 := by decide +kernel
theorem test_st_h :
    (match exec (.st .h false 3 1 2) (machine { x := regs [(1, 0x100), (3, 0xABCD)] }) with
      | .next t => some (t.byteAt 0x101, t.byteAt 0x102, t.byteAt 0x103, t.byteAt 0x104)
      | _ => none) = some (0, 0xCD, 0xAB, 0) := by decide +kernel
/-- A misaligned load takes ALIGN with the address in `EVAL` (R262, R311). -/
theorem test_ld_misaligned :
    (match exec (.ld .w false false 3 1 0) (machine { x := regs [(1, 0x101)] }) with
      | .next t => some (t.hart.bank1.cause, t.hart.bank1.eval, t.hart.level)
      | _ => none) = some (5, 0x101, 1) := by decide +kernel

/-- `TRAP #5` at level 0 (R185): level 1, cause 0x16, the code, and the next instruction. -/
theorem test_trap :
    (match exec (.trap 5) (machine { pc := 0x1000 }) with
      | .next t => some (t.hart.level, t.hart.bank1.cause, t.hart.bank1.eval, t.hart.bank1.epc)
      | _ => none) = some (1, 0x16, 5, 0x1004) := by decide +kernel
/-- `BRK #1` (R185) is reported at itself. -/
theorem test_brk :
    (match exec (.brk 1) (machine { pc := 0x1000 }) with
      | .next t => some (t.hart.bank1.cause, t.hart.bank1.epc)
      | _ => none) = some (0x14, 0x1000) := by decide +kernel
/-- `TRET` with no handler active takes ILLEGAL (R185). -/
theorem test_tret_without_handler :
    (match exec .tret (machine { pc := 0x1000 }) with
      | .next t => some t.hart.bank1.cause
      | _ => none) = some 1 := by decide +kernel
theorem test_beq_backward :
    (match exec (.beq 1 2 0xFFFF) (machine { pc := 0x1000 }) with
      | .next t => some t.hart.pc
      | _ => none) = some 0xFFC := by decide +kernel
/-- A level-0 read of a supervisor's register takes PRIV (R46, R180). -/
theorem test_csrr_privileged :
    (match exec (.csrr 3 0x841) (machine {}) with
      | .next t => some t.hart.bank1.cause
      | _ => none) = some 4 := by decide +kernel

/-- A register of four lanes that holds the listed elements of a format. -/
def vec (f : Fmt) (l : List Nat) : VReg := ((l.zipIdx).foldl (fun r p => r.setElem 4 f p.2 p.1) ({} : VReg)).raise 4 f l.length

/-- One quad, the formats with these codes, v1, v2 and v3 as given and x4 elements. -/
def quad (fa fb fc fd n : Nat) (a b c : VReg) : Hart :=
  { inFormats fa fb fc fd with grant := 1, x := regs [(4, BitVec.ofNat 64 n)]
                               v := (((Vector.replicate 64 ({} : VReg)).set 1 a).set 2 b).set 3 c }

/-- The first n elements of v10 after an instruction, and the flags. -/
def vAfter (i : Instr) (f : Fmt) (n : Nat) (h : Hart) : Option (List Nat × Nat) :=
  match exec i (machine h) with
  | .next t => some ((List.range n).map (fun e => t.hart.bitsAt 10 e f), t.hart.fflags.toNat)
  | _ => none

theorem test_vadd_wraps :
    vAfter (.vadd { xl := 4 } 10 1 2) .s8 3 (quad 1 1 1 1 2 (vec .s8 [127, 1, 9]) (vec .s8 [1, 1, 9]) {}) = some ([0x80, 2, 0], 0) := by
  decide +kernel
/-- The saturating sum clamps with SAT (R63). -/
theorem test_vadds_clamps :
    vAfter (.vadds { xl := 4 } 10 1 2) .s8 1 (quad 1 1 1 1 1 (vec .s8 [127]) (vec .s8 [1]) {}) = some ([0x7F], 0x20) := by
  decide +kernel
theorem test_vaddi_predicated :
    vAfter (.vaddi { xl := 4, pg := 2, pz := true } 10 1 1) .n8 2
      { quad 5 5 5 5 2 (vec .n8 [7, 8]) {} {} with p := (Vector.replicate 64 0).set 2 2 } = some ([0, 9], 0) := by decide +kernel
/-- 1 + 2 in f32, and infinity minus infinity: NaN with NV (R53, R63). -/
theorem test_vfadd :
    vAfter (.vfadd { xl := 4 } 10 1 2) .f32 2 (quad 10 10 10 10 2 (vec .f32 [0x3F800000, 0x7F800000]) (vec .f32 [0x40000000, 0xFF800000]) {}) =
      some ([0x40400000, 0x7FC00000], 0x10) := by decide +kernel
/-- 2.5 to s32 under RNE is 2, inexact (R63). -/
theorem test_vcvt :
    vAfter (.vcvt { xl := 4 } 10 1) .s32 1 (quad 10 10 10 3 1 (vec .f32 [0x40200000]) {} {}) = some ([2], 1) := by decide +kernel
theorem test_viota : vAfter (.viota { xl := 4 } 10) .n16 6 (quad 6 6 6 6 6 {} {} {}) = some ([0, 1, 2, 3, 4, 5], 0) := by decide +kernel
/-- The NaN of e4m3 keeps its sign and its payload as an f32 (R27). -/
theorem test_vget_nan :
    (match exec (.vget 3 0 14 1) (machine (quad 14 14 14 14 1 (vec .e4m3 [0xFF]) {} {})) with
      | .next t => some (t.hart.x.toList.getD 3 0)
      | _ => none) = some 0xFFF00000 := by decide +kernel
/-- Approximations of powers of two are exact (R65): 1/2 and 2^3. -/
theorem test_vfrcp_of_two :
    vAfter (.vfrcp { xl := 4 } 10 1) .f32 1 (quad 10 10 10 10 1 (vec .f32 [0x40000000]) {} {}) = some ([0x3F000000], 0) := by decide +kernel
theorem test_vfexp2_of_three :
    vAfter (.vfexp2 { xl := 4 } 10 1) .f32 1 (quad 10 10 10 10 1 (vec .f32 [0x40400000]) {} {}) = some ([0x41000000], 0) := by decide +kernel
/-- A scaling bit on an index that cannot be scaled takes FMT (R55). -/
theorem test_vperm_scaled_index :
    (match exec (.vperm { xl := 4 } 10 1 2) (machine { quad 3 3 3 3 1 {} {} {} with fmtdef := BitVec.ofNat 32 (3 + 64 * 3 + 262144 * 3 + 2 ^ 30) }) with
      | .next t => some t.hart.bank1.cause
      | _ => none) = some 11 := by decide +kernel
/-- An ordered sum of 1, 2 and 3 (R64). -/
theorem test_vredsum_ordered :
    vAfter (.vredsum { xl := 4 } 10 1 true) .s32 1 (quad 3 3 3 3 3 (vec .s32 [1, 2, 3]) {} {}) = some ([6], 0) := by decide +kernel
theorem test_vshi_sra :
    vAfter (.vshi { xl := 4 } 10 1 .sra 2) .s8 1 (quad 1 1 1 1 1 (vec .s8 [0x88]) {} {}) = some ([0xE2], 0) := by decide +kernel
/-- A sliced sum (R59) and the words that its write clears (R58): ss7 uses 14 of the 16 words. -/
theorem test_sliced_add_clears :
    (match exec (.vadd { xl := 4 } 10 1 2)
        (machine { quad 38 38 38 38 1 (vec (.ss 7) [63]) (vec (.ss 7) [1]) {} with
                     v := (((Vector.replicate 64 ({} : VReg)).set 1 (vec (.ss 7) [63])).set 2 (vec (.ss 7) [1])).set 10 ⟨8, 2 ^ 511 + 2 ^ 1023⟩ }) with
      | .next t => some (t.hart.bitsAt 10 0 (.ss 7), t.hart.bitsAt 10 252 .n8, t.hart.bitsAt 10 253 .n8)
      | _ => none) = some (64, 0, 0) := by decide +kernel

/-- The indexed load that R109 works out: element 3 lies outside the region of handle 5. -/
theorem test_vldx_region :
    (match exec (.vldx { xl := 4 } 10 20 3 2 .plain)
        (machine { quad 10 7 10 10 6 {} {} (vec .n32 [0, 1, 1, 0x400, 2, 3]) with x := regs [(4, 6), (20, 0x0005000000001000)] }
          [(88, 0x10), (89, 0x10), (95, 0xF0), (0x1000, 0x11), (0x1004, 0x22)]) with
      | .next t => some (t.hart.bank1.cause, t.hart.bank1.eval, t.hart.vstart, (List.range 4).map (fun e => t.hart.bitsAt 10 e .n32))
      | _ => none) = some (7, 0x0005000000002000, 3, [0x11, 0x22, 0x22, 0]) := by decide +kernel

/-- One cell of an outer product of s8 vectors (R316): 1·5 + 2·6 on top of 100. -/
theorem test_mopa :
    (match exec (.mopa { xl := 4 } 1 8 0 1)
        (machine { withRows (quad 1 1 1 3 1 (vec .s8 [1, 2]) {} {}) with
                     cells := [(0, 100)]
                     v := (((Vector.replicate 64 ({} : VReg)).set 1 (vec .s8 [1, 2])).set 8 (vec .s8 [5])).set 9 (vec .s8 [6]) }) with
      | .next t => some (t.hart.cell 0 0, t.hart.cell 1 0)
      | _ => none) = some (117, 0) := by decide +kernel

/- Sheaves. -/

/-- A sheaf of one s32 element in the mode, over far address 0x200. -/
def oneDesc (m : Mode) (loc : Bool := false) : Desc :=
  { base := if loc then 0 else 0x200, mode := m, fmt := .s32, fmtCode := 3, shared := false, tab := false, tdim := 0, tsrc := 0, look := 0
    pace := 0, dims := [{ pk := false, e := 1, o := 0, n := 1, stride := 1, coef := [0, 0, 0, 0, 0, 0, 0, 0] }] }

/-- It stands in h1 of the current hart, with one window. -/
def oneSheaf (m : Mode) : Sheaf :=
  { sid := 1, hart := 0, part := 0, stead := 0, reg := 1, key := 0x300, desc := oneDesc m, reserved := 2
    windows := [{ kvec := [0, 0, 0, 0, 0, 0, 0, 0] }] }

/-- Its line, which has arrived. -/
def oneLine : Line := { stead := 0, key := .far 0 0 8, status := .arrived, data := 77, holders := [1], fid := 9 }

/-- A hart that runs one element over s32, with its offset in x6, 0. -/
def sheafHart : Hart :=
  { inFormats 3 3 3 3 with x := regs [(4, 1), (6, 0), (7, 5)], hreg := (Vector.replicate 16 none).set 1 (some 1) }

/-- The state that holds the sheaf. -/
def withSheafIn (m : Mode) : State := { machine sheafHart with sheaves := [oneSheaf m], lines := [oneLine] }

/-- Its window. -/
def oneWindow : Window := { kvec := [0, 0, 0, 0, 0, 0, 0, 0] }

/-- The same for two elements, whose second offset lies outside the window. -/
def twoOffsets (m : Mode) : State := { withSheafIn m with hart := { sheafHart with x := regs [(4, 2), (6, 0)] } }

/-- A load of one element, and with `.a` a count A of 1. -/
theorem witness_sheaf_loads : (∃ F, Claims.sheafLoads sheafHart (.vldh { xl := 4 } 1 1 6 0 false) = some (F, 1, false) ∧
    Runs (withSheafIn .inp) F [.s32] .s32 ∧ VReg.Covered {} ∧
    (withSheafIn .inp).sheafIn 0 (1 : HIx).val = some (oneSheaf .inp) ∧ (oneSheaf .inp).desc.fmt = .s32 ∧
    Claims.blockWindow (withSheafIn .inp) (oneSheaf .inp) = some oneWindow ∧
    (∀ e ∈ sheafHart.actives F.k (Claims.length (withSheafIn .inp) F [.s32]),
      0 ≤ (F.result [.s32] (Claims.length (withSheafIn .inp) F [.s32]) e).1 ∧
      (F.result [.s32] (Claims.length (withSheafIn .inp) F [.s32]) e).1 < (oneSheaf .inp).desc.size ∧
      (withSheafIn .inp).windowElem (oneSheaf .inp) oneWindow (F.result [.s32] (Claims.length (withSheafIn .inp) F [.s32]) e).1.toNat true =
        .ready 77)) ∧
    Claims.trimmedTo (twoOffsets .inp) { xl := 4 } (oneSheaf .inp) (fun e => (e : Int)) true 2 = 1 :=
  ⟨⟨_, rfl, ⟨⟨by decide, by decide, by decide, by decide, by decide⟩, rfl⟩, zero_covered, by decide +kernel, by decide,
    by decide +kernel, by decide +kernel⟩, by decide +kernel⟩

theorem separable_one (m : Mode) : Claims.Separable (withSheafIn m) (oneSheaf m) oneWindow :=
  ⟨fun o ho o' ho' => .inl (by
      have h : (oneSheaf m).desc.size = 1 := by cases m <;> decide
      rw [h] at ho ho'
      rw [Nat.lt_one_iff.mp ho, Nat.lt_one_iff.mp ho']),
    fun key l hl => by
      have h : l ∈ (withSheafIn m).lines := List.mem_of_find?_eq_some hl
      rw [List.mem_singleton.mp h]; rfl⟩

theorem witness_sheaf_stores : ∃ F, Claims.sheafStores sheafHart (.vsth { xl := 4 } 1 1 6 0) = some (F, 1) ∧
    Claims.Dispatches (withSheafIn .inout) F [.s32] ∧ (withSheafIn .inout).sheafIn 0 (1 : HIx).val = some (oneSheaf .inout) ∧
    (oneSheaf .inout).desc.fmt = .s32 ∧ (oneSheaf .inout).desc.mode ≠ .inp ∧
    Claims.blockWindow (withSheafIn .inout) (oneSheaf .inout) = some oneWindow ∧
    Claims.Separable (withSheafIn .inout) (oneSheaf .inout) oneWindow ∧
    (∀ e ∈ sheafHart.actives F.k (Claims.length (withSheafIn .inout) F [.s32]),
      0 ≤ (F.result [.s32] (Claims.length (withSheafIn .inout) F [.s32]) e).1 ∧
      (F.result [.s32] (Claims.length (withSheafIn .inout) F [.s32]) e).1 < (oneSheaf .inout).desc.size ∧
      (withSheafIn .inout).windowElem (oneSheaf .inout) oneWindow (F.result [.s32] (Claims.length (withSheafIn .inout) F [.s32]) e).1.toNat false =
        .ready 77) :=
  ⟨_, rfl, ⟨by decide, by decide, by decide, by decide, by decide⟩, by decide +kernel, by decide, by decide, by decide +kernel,
    separable_one .inout, by decide +kernel⟩

/-- Each clause of the faults: an empty register, a store to an IN sheaf, another format, and an offset outside the
window after one that stands ready, of a load and of a store. -/
theorem witness_sheaf_faults :
    (∃ F, Claims.sheafLoads (inFormats 3 3 3 3) (.vldh {} 1 1 6 0 false) = some (F, 1, false) ∧
      Claims.Dispatches (machine (inFormats 3 3 3 3)) F [.s32] ∧ (machine (inFormats 3 3 3 3)).sheafIn 0 (1 : HIx).val = none) ∧
    (∃ F, Claims.sheafStores sheafHart (.vsth { xl := 4 } 1 1 6 0) = some (F, 1) ∧ Claims.Dispatches (withSheafIn .inp) F [.s32] ∧
      (withSheafIn .inp).sheafIn 0 (1 : HIx).val = some (oneSheaf .inp) ∧ (oneSheaf .inp).desc.mode = .inp) ∧
    (∃ F, Claims.sheafLoads { sheafHart with fmtdef := 262144 * 10 } (.vldh { xl := 4 } 1 1 6 0 false) = some (F, 1, false) ∧
      Claims.Dispatches { withSheafIn .inp with hart := { sheafHart with fmtdef := 262144 * 10 } } F [.f32] ∧ (oneSheaf .inp).desc.fmt ≠ .f32) ∧
    (∃ F, Claims.sheafLoads (twoOffsets .inp).hart (.vldh { xl := 4 } 1 1 6 0 false) = some (F, 1, false) ∧
      Claims.Dispatches (twoOffsets .inp) F [.s32] ∧ 1 ∈ (twoOffsets .inp).hart.actives F.k 2 ∧
      Claims.trimmedTo (twoOffsets .inp) F.k (oneSheaf .inp) (fun j => (F.result [.s32] 2 j).1) false 2 = 2 ∧
      (F.result [.s32] 2 1).1 = 1 ∧ (oneSheaf .inp).desc.size = 1 ∧ (twoOffsets .inp).hart.actives F.k 1 = [0] ∧ (F.result [.s32] 2 0).1 = 0 ∧
      Claims.blockWindow (twoOffsets .inp) (oneSheaf .inp) = some oneWindow ∧
      (twoOffsets .inp).windowElem (oneSheaf .inp) oneWindow 0 true = .ready 77) ∧
    (∃ F, Claims.sheafStores (twoOffsets .inout).hart (.vsth { xl := 4 } 1 1 6 0) = some (F, 1) ∧
      Claims.Dispatches (twoOffsets .inout) F [.s32] ∧ 1 ∈ (twoOffsets .inout).hart.actives F.k (Claims.length (twoOffsets .inout) F [.s32]) ∧
      (F.result [.s32] 2 1).1 = 1 ∧ Claims.blockWindow (twoOffsets .inout) (oneSheaf .inout) = some oneWindow ∧
      (twoOffsets .inout).windowElem (oneSheaf .inout) oneWindow 0 false = .ready 77) :=
  ⟨⟨_, rfl, ⟨by decide, by decide, by decide, by decide, by decide⟩, by decide +kernel⟩,
   ⟨_, rfl, ⟨by decide, by decide, by decide, by decide, by decide⟩, by decide +kernel, by decide⟩,
   ⟨_, rfl, ⟨by decide, by decide, by decide, by decide, by decide⟩, by decide⟩,
   ⟨_, rfl, ⟨by decide, by decide, by decide, by decide, by decide⟩, by decide +kernel, rfl, by decide +kernel, by decide, by decide +kernel,
     by decide +kernel, by decide +kernel, by decide +kernel⟩,
   ⟨_, rfl, ⟨by decide, by decide, by decide, by decide, by decide⟩, by decide +kernel, by decide +kernel, by decide +kernel, by decide +kernel⟩⟩

/-- A sheaf that nothing loads; and for one that loads, an element that has arrived and one that is pad. -/
theorem witness_hmask : (sheafHart.descr {}).sane = true ∧ (withSheafIn .out).sheafIn 0 (1 : HIx).val = some (oneSheaf .out) ∧
    (oneSheaf .out).desc.fmt ≠ .x9 ∧
    (∀ e, decide ((sheafHart.view 6 + BitVec.ofNat 64 e).toInt = 0) = true ↔
      (0 ≤ (sheafHart.view 6 + BitVec.ofNat 64 e).toInt ∧ (sheafHart.view 6 + BitVec.ofNat 64 e).toInt < ((oneSheaf .out).desc.size : Nat))) ∧
    Claims.Delivered (withSheafIn .inp) (oneSheaf .inp) sheafHart.viewCounters none 0 ∧
    Claims.padAt { oneDesc .inp with dims := [{ pk := false, e := 2, o := 0, n := 1, stride := 1, coef := [] }] } [0, 0, 0, 0, 0, 0, 0, 0] 1 := by
  refine ⟨by decide, by decide +kernel, by decide, fun e => ?_, ?_, 0, _, rfl, by decide, rfl, by decide⟩
  · have h : (oneSheaf .out).desc.size = 1 := by decide
    rw [h, decide_eq_true_iff]
    omega
  · have h : (withSheafIn .inp).windowFor (oneSheaf .inp) sheafHart.viewCounters none = some oneWindow := by decide +kernel
    unfold Claims.Delivered
    rw [h]
    exact ⟨77, by decide +kernel⟩

/- Streams. -/

/-- A sender in context 0 and its receiver in context 1, each on slot 1. -/
def linked (flits : List Flit) : State :=
  { machine { inFormats 3 3 3 3 with
      x := regs [(4, 1)], z := ((Vector.replicate 8 {}).set 1 { bound := .send 1 1 0, grantedBy := [(1, 1)] }).set 2
        { bound := .recv 1 2, flits := flits } } with
    others := [(1, { status := .running, z := ((Vector.replicate 8 {}).set 1 { bound := .recv 0 1 }).set 2 { bound := .send 0 2 0 } })] }

theorem witness_stream_sends : ∃ F : Claims.Form Nat VIx, F.codes = [3] ∧ F.k = { xl := 4 } ∧ Claims.Dispatches (linked []) F [.s32] ∧
    (linked []).hart.z[(1 : ZIx).val].bound = .send 1 1 0 ∧ (linked []).linkOf 0 1 1 1 = .open_ ∧
    (linked []).hart.z[(1 : ZIx).val].nextSend < 2 ^ 32 ∧
    (Claims.flitsOf 0 (4096 / Fmt.s32.container) Fmt.s32.code true
      (((linked []).hart.actives F.k (Claims.length (linked []) F [.s32])).map (fun e => (linked []).hart.bitsAt 1 e .s32))).length ≤ 8 :=
  ⟨{ k := { xl := 4 }, dest := 1, codes := [3], accepts := fun _ => true, result := fun _ _ _ => (0, flNone) }, rfl, rfl,
    ⟨by decide, by decide, by decide, by decide, by decide⟩, by decide, by decide +kernel, by decide, by decide +kernel⟩

/-- One element in a message, and the empty message. -/
def oneFlit : Flit := { seq := 0, fmt := 3, elems := [42], left := 1, endMark := false }

/-- A message of one element waits at the receive slot, whose sender's slot is known; the empty message; a slot at its
end mark; and a pair stream with a record, and with none left. -/
theorem witness_stream_reads :
    (∃ F : Claims.Form Nat VIx, F.codes = [3] ∧ F.k = { xl := 4 } ∧ Claims.Dispatches (linked [oneFlit]) F [.s32] ∧
      0 < Claims.length (linked [oneFlit]) F [.s32] ∧
      min (Claims.length (linked [oneFlit]) F [.s32]) (1 - 0) ≤ ((messageElems [oneFlit]).drop 0).length) ∧
    ((linked [oneFlit]).hart.z[2].bound = .recv 1 2 ∧ (linked [oneFlit]).hart.z[2].atEnd = false ∧ (linked [oneFlit]).hart.z[2].batch = none ∧
      (linked [oneFlit]).hart.z[2].done = 0 ∧ ((linked [oneFlit]).slotAt 1 2).bound = .send 0 2 0 ∧ (linked [oneFlit]).hart.dbg.getLsbD 1 = false) ∧
    (linked [{ oneFlit with elems := [], left := 0, fmt := 0 }]).hart.z[2].flits = [{ oneFlit with elems := [], left := 0, fmt := 0 }] ∧
    ({ bound := .recv 1 2, atEnd := true } : Slot).atEnd = true ∧
    ({ bound := .pair 4, ended := true } : Slot).records = [] ∧ ({ bound := .pair 4, records := [{ i := 0, j := 1, dx := 0, dy := 0, dz := 0, r2 := 0 }] } : Slot).records ≠ [] ∧
    pairFormat 0 .n32 = true ∧ VReg.Covered {} :=
  ⟨⟨{ k := { xl := 4 }, dest := 1, codes := [3], accepts := fun _ => true, result := fun _ _ _ => (0, flNone) }, rfl, rfl,
    ⟨by decide, by decide, by decide, by decide, by decide⟩, by decide +kernel, by decide +kernel⟩,
    ⟨by decide, by decide, by decide, by decide, by decide +kernel, by decide⟩, by decide, rfl, rfl, by decide, by decide, zero_covered⟩

/-- A hart with one queued block. -/
def inBlock : Hart :=
  { queue := [{ addr := 0x1000, pos := 0x1000, view := regs [], kvec := [0, 0, 0, 0, 0, 0, 0, 0], fmtdef := 0, ropepart := 0, serial := 0 }] }

theorem witness_markers : ∃ b, inBlock.block = some b := ⟨_, rfl⟩

/-- A descriptor with rounding mode 6, and formats that an integer instruction does not accept. -/
theorem witness_bad_descriptors :
    6 ≤ (({ fmtdef := 0x06000000 } : Hart).descr {}).rnd ∧ blkOf (.vadd {} 1 2 3) = some {} ∧
    (∃ F, Claims.intForm (inFormats 10 10 10 10) (.vadd {} 1 2 3) = some F ∧ ∀ fs, ¬ Claims.Dispatches (machine (inFormats 10 10 10 10)) F fs) ∧
    (∃ F, Claims.predForm (inFormats 0 3 3 3) (.vcmp {} 1 2 3 .lt) = some F ∧ ∀ fs, ¬ Claims.Dispatches (machine (inFormats 0 3 3 3)) F fs) ∧
    (∃ F, Claims.approxForm anyResult (inFormats 3 3 3 3) (.vfrcp {} 1 2) = some F ∧ ∀ fs, ¬ Claims.Dispatches (machine (inFormats 3 3 3 3)) F fs) := by
  refine ⟨by decide, rfl, ⟨_, rfl, ?_⟩, ⟨_, rfl, ?_⟩, ⟨_, rfl, ?_⟩⟩ <;> rintro fs ⟨-, hk, -, -, ha⟩
  · have : fs = [.f32, .f32, .f32] := Option.some.inj (hk.symm.trans (by decide))
    subst this; exact absurd ha (by decide)
  · exact absurd (hk.symm.trans (by decide : _ = none)) (by simp)
  · have : fs = [.s32, .s32] := Option.some.inj (hk.symm.trans (by decide))
    subst this; exact absurd ha (by decide)

/- The control stream. -/

theorem witness_scalar_float :
    (∃ F, Claims.scalarFloat (machine {}).hart (.fadd .d .dyn 3 1 2) = some F ∧ Claims.Readable F.sources (machine {}) ∧ F.mode (machine {}).hart = some 0) ∧
    (machine {}).hart.ntEn = 0 ∧
    (∃ F, Claims.scalarFloat (machine { frm := 5 }).hart (.fadd .d .dyn 3 1 2) = some F ∧ F.mode (machine { frm := 5 }).hart = none) :=
  ⟨⟨_, rfl, ⟨by decide, .inl (by decide)⟩, by decide⟩, by decide, _, rfl, by decide⟩

theorem witness_branches : Claims.branchForm (machine { x := regs [(1, -1)] }).hart (.bltn 1 2 0xFFFF) = some (1, 2, 0xFFFF, false) ∧
    Claims.Readable [1, 2] (machine { x := regs [(1, -1)] }) := ⟨by decide, by decide, .inl (by decide)⟩

/-- A target that is a multiple of 4 and one that is not. -/
theorem witness_jumps : Claims.Readable [1] (machine { x := regs [(1, 6)] }) ∧
    (BitVec.ofInt 64 (((machine { x := regs [(1, 6)] }).hart.rd 1).toInt + (-2 : BitVec 16).toInt)).toNat % 4 = 0 ∧
    (BitVec.ofInt 64 (((machine { x := regs [(1, 6)] }).hart.rd 1).toInt + (0 : BitVec 16).toInt)).toNat % 4 ≠ 0 :=
  ⟨⟨by decide, .inl (by decide)⟩, by decide, by decide⟩

/-- With no sheaf and no debt, every access that has performed is every access and debt. -/
theorem performed_of {s : State} (h : Claims.AccessesPerformed s) (hs : s.sheaves = []) (hd : s.debts = []) : Claims.Performed s :=
  ⟨h, by rw [hs]; simp, by rw [hd]; simp⟩

/-- A hart whose x1 is an aligned address and whose x2 is not. -/
def addresses : State := machine { x := regs [(1, 0x100), (2, 0x101)] }

theorem witness_loads : Claims.Readable [1] addresses ∧ addresses.heldByDeposit 0x100 4 = false ∧ addresses.blocksHave acquires = false ∧
    addresses.access addresses.who (farSum (addresses.hart.rd 1) 0) 4 4 .rd = .ok [0x100, 0x101, 0x102, 0x103] ∧
    addresses.access addresses.who (farSum (addresses.hart.rd 2) 0) 4 4 .rd = .error ⟨.align, 0x101, []⟩ :=
  ⟨⟨by decide, .inl (by decide)⟩, by decide +kernel, by decide +kernel, by decide +kernel, by decide +kernel⟩

theorem witness_stores : Claims.Readable [3, 1] addresses ∧
    addresses.access addresses.who (farSum (addresses.hart.rd 2) 0) 4 4 .wr = .error ⟨.align, 0x101, []⟩ ∧
    addresses.access addresses.who (farSum (addresses.hart.rd 1) 0) 4 4 .wr = .ok [0x100, 0x101, 0x102, 0x103] ∧
    Memory.wf addresses.mem = true ∧ [0x100, 0x101, 0x102, 0x103].Nodup ∧ Claims.Alone addresses [0x100, 0x101, 0x102, 0x103] ∧
    addresses.delay.headD false = false :=
  ⟨⟨by decide, .inl (by decide)⟩, by decide +kernel, by decide +kernel, by decide, by decide, ⟨by decide, by decide⟩, by decide⟩

theorem witness_atomics : Claims.Readable [1, 4, 5] addresses ∧
    addresses.accessAt addresses.who (addresses.hart.rd 2) 4 4 .rdwr = .error ⟨.align, 0x101, []⟩ ∧
    addresses.accessAt addresses.who (addresses.hart.rd 1) 8 8 .rdwr = .ok [0x100, 0x101, 0x102, 0x103, 0x104, 0x105, 0x106, 0x107] ∧
    addresses.heldByDeposit (addresses.hart.rd 1) 8 = false ∧ Memory.wf addresses.mem = true ∧ addresses.hart.blocksDone = true ∧
    addresses.hart.sbuf = [] ∧ addresses.hart.vq = [] ∧ Claims.Performed addresses :=
  ⟨⟨by decide, .inl (by decide)⟩, by decide +kernel, by decide +kernel, by decide +kernel, by decide, by decide, by decide, by decide,
    performed_of ⟨by decide +kernel, by decide +kernel, by decide +kernel⟩ rfl rfl⟩

theorem quiet_accesses : Claims.AccessesPerformed (machine {}) := ⟨by decide +kernel, by decide +kernel, by decide +kernel⟩

theorem quiet_performed : Claims.Performed (machine {}) := performed_of quiet_accesses rfl rfl

/-- A hart with a store that has retired and not performed. -/
def storing : State := machine { sbuf := [{ pa := [0x100], bytes := [7], release := false, serial := 0, bound := 1 }] }

theorem storing_not_performed : ¬ Claims.AccessesPerformed storing := fun h => absurd h.2.2 (by decide)

/-- A state where every kind of fence is ready, and one where a store stands before those that release. -/
theorem witness_fences : (machine {}).deliverable = false ∧ Claims.FetchesPerformed (machine {}) ∧ Claims.ReadsPerformed (machine {}) ∧
    Claims.Performed (machine {}) ∧ storing.deliverable = false ∧ ¬ Claims.Performed storing :=
  ⟨by decide, ⟨by decide +kernel, by decide +kernel⟩, ⟨by decide +kernel, by decide +kernel, by decide +kernel⟩, quiet_performed, by decide,
    fun h => storing_not_performed h.1⟩

theorem witness_blocks_queued : Claims.Readable (List.finRange 32) (machine { x := regs [(1, 0x104)] }) ∧
    ((machine { x := regs [(1, 0x104)] }).hart.rd 1).toNat % 8 ≠ 0 ∧
    ((machine inBlock).hart.rd 0).toNat % 8 = 0 ∧ (machine inBlock).hart.queue.length < 4 ∧ (machine inBlock).ops = [] ∧
    4 ≤ (machine { queue := List.replicate 4 { addr := 0, pos := 0, view := regs [], kvec := [], fmtdef := 0, ropepart := 0, serial := 0 } }).hart.queue.length :=
  ⟨⟨by decide, .inl (by decide)⟩, by decide, by decide, by decide, by decide, by decide⟩

theorem witness_setl : Claims.Readable [1] (machine {}) ∧ Fmt.ofCode (0 : BitVec 6).toNat = none ∧ Fmt.ofCode (10 : BitVec 6).toNat = some .f32 ∧
    (machine {}).hart.blocksDone = true ∧ (machine {}).hart.needsReserved = none ∧ (machine {}).wakeFirst 0 = false ∧
    (machine {}).hart.dbg.getLsbD 0 = false ∧ (machine inBlock).hart.blocksDone = false :=
  ⟨⟨by decide, .inl (by decide)⟩, by decide, by decide, by decide, by decide, by decide +kernel, by decide, by decide⟩

/-- A grant that changes, from quads 0 and 1 to quad 0, and one that stays. -/
theorem witness_grants : ({ machine { grant := 3 } with parts := [(0, { budget := [4] })] } : State).setlGrant 4 ≠ 3 ∧
    ({ machine { grant := 1 } with parts := [(0, { budget := [4] })] } : State).setlGrant 4 = 1 := ⟨by decide +kernel, by decide +kernel⟩

theorem witness_vget : Claims.Readable [1] (machine {}) ∧ Fmt.ofCode (0x1F : BitVec 5).toNat = none ∧ Fmt.ofCode (1 : BitVec 5).toNat = some .s8 ∧
    (machine {}).blocksHave (writesV 5) = false ∧ (machine {}).hart.filling 5 = false :=
  ⟨⟨by decide, .inl (by decide)⟩, by decide, by decide, by decide +kernel, by decide⟩

/-- A hart that holds rows, a request of 0, and a request that is neither. -/
theorem witness_flail_rows : Claims.Readable [1] (machine { x := regs [(1, 9)] }) ∧ (machine (withRows {})).hart.rowCount ≠ 0 ∧
    (machine {}).hart.rowCount = 0 ∧ ((machine {}).hart.rd 1).toNat = 0 ∧ ((machine { x := regs [(1, 9)] }).hart.rd 1).toNat ≠ 0 ∧
    (machine {}).blocksHave isFlail = false :=
  ⟨⟨by decide, .inl (by decide)⟩, by decide, by decide, by decide, by decide, by decide +kernel⟩

/- Residency. -/

/-- Counters 0 and 1: 0 wraps at 1 into 1, which has room. -/
def counting : State :=
  machine { k := ((Vector.replicate 8 {}).set 0 { val := 0, bound := 1, target := some 1 }).set 1 { val := 4, bound := 0 } }

theorem counting_empty : ∀ r : HIx, counting.hart.hreg[r.val] = none := by decide +kernel

theorem counting_unloaded : ∀ r : HIx, counting.sheafIn counting.cur r.val = none := by decide +kernel

theorem separate_of_empty {s : State} (h : ∀ r : HIx, s.hart.hreg[r.val] = none) (h' : ∀ r : HIx, s.sheafIn s.cur r.val = none) :
    Claims.Separate s :=
  ⟨fun r _ _ => .inl (h r), fun r sh e => by rw [h' r] at e; cases e⟩

theorem counting_separate : Claims.Separate counting := separate_of_empty counting_empty counting_unloaded

theorem witness_counters : (counting.hart.advs.filter counting.advUnfinished).length < 4 ∧ Claims.Separate counting ∧
    Claims.roomLeft counting.hart.k[(1 : KIx).val] = true ∧
    (Claims.roomLeft counting.hart.k[(0 : KIx).val] = false ∧ counting.hart.k[(0 : KIx).val].target = some 1 ∧ (1 : KIx) ≠ 0) ∧
    (Claims.roomLeft { val := 0, bound := 1 } = false ∧ ({ val := 0, bound := 1 } : Counter).target = none) ∧
    Claims.Readable [1, 2] counting :=
  ⟨by decide, counting_separate, by decide, ⟨by decide, by decide, by decide⟩, ⟨by decide, by decide⟩, by decide, .inl (by decide)⟩

/-- A descriptor at 0x400: rank 1, 16 elements of s32 with stride 1; `ctl` gives the mode. -/
def descAt (mode : Nat) (quota : Nat := 0) : State :=
  let s := machine { x := regs [(1, 0x400)] }
  let raw := 0x200 + (3 + 64 + 512 * mode) * 2 ^ 64 + (1 + 16 * 2 ^ 32 + 16 * 2 ^ 80) * 2 ^ 128
  { s.writeAll ((List.range 128).map (0x400 + ·)) (toBytes 128 raw) with
    sheaves := if quota = 0 then [] else [{ oneSheaf .inp with hart := 7, reserved := quota }] }

/-- What `HSET` reads there. -/
def rawAt (s : State) : Nat := ofBytes (((List.range 128).map (0x400 + ·)).map (Claims.loaded s))

/-- A descriptor that loads, one without lines left, one that fails a check, and one whose box leaves its region. -/
theorem witness_hset : Claims.Readable [1] (descAt 0) ∧ (descAt 0).hart.blocksDone = true ∧ (descAt 0).hart.hreg[(1 : HIx).val] = none ∧
    (descAt 0).heldByDeposit 0x400 128 = false ∧ (descAt 0).sheaves = [] ∧
    (descAt 0).accessAt (descAt 0).who ((descAt 0).hart.rd 1) 128 128 .rd = .ok ((List.range 128).map (0x400 + ·)) ∧
    ((descAt 0).checkDesc 1 (rawAt (descAt 0))).toOption.any (fun d => decide ((descAt 0).boxFault d = none ∧ d.mode = .inp ∧
      d.lines ≤ (descAt 0).freeLines 0)) = true ∧
    ((descAt 0 196608).checkDesc 1 (rawAt (descAt 0 196608))).toOption.any (fun d => decide ((descAt 0 196608).boxFault d = none ∧
      (descAt 0 196608).freeLines 0 < d.lines)) = true ∧
    ((descAt 7).checkDesc 1 (rawAt (descAt 7))).toOption = none ∧
    ((descAt 0).boxFault { (oneDesc .inp) with base := 0xFFFE }).isSome = true :=
  ⟨⟨by decide +kernel, .inl (by decide +kernel)⟩, by decide +kernel, by decide +kernel, by decide +kernel, by decide +kernel, by decide +kernel,
    by decide +kernel, by decide +kernel, by decide +kernel, by decide +kernel⟩

/-- The sheaf as one that stores, with a write-back owed. -/
def owing : State :=
  { withSheafIn .out with debts := [{ did := 4, sid := 1, hart := 0, part := 0, stead := 0, reg := 1, farm := 0, oid := 3, key := .far 0 0 8
                                      addr := 0x200, kind := .write 77 1 }] }

/-- A register that is empty, one whose sheaf has arrived, and one that owes a debt; `HWAIT` of a line not arrived. -/
theorem witness_sheaves_cleared : (machine {}).sheafIn 0 (1 : HIx).val = none ∧ (withSheafIn .inp).sheafIn 0 (1 : HIx).val = some (oneSheaf .inp) ∧
    (withSheafIn .inp).hart.blocksDone = true ∧ (withSheafIn .inp).deliverable = false ∧
    (withSheafIn .inp).windowFor (oneSheaf .inp) ((withSheafIn .inp).hart.k.toList.map (·.val)) none = some { kvec := [0, 0, 0, 0, 0, 0, 0, 0] } ∧
    (∀ o < (oneSheaf .inp).desc.size, (withSheafIn .inp).windowElem (oneSheaf .inp) { kvec := [0, 0, 0, 0, 0, 0, 0, 0] } o true = .ready 77) ∧
    (∃ x ∈ owing.debts, x.hart = owing.cur ∧ x.reg = (1 : HIx).val) ∧ (∀ x ∈ (withSheafIn .inp).debts, x.hart = 0 → x.reg ≠ (1 : HIx).val) ∧
    ({ withSheafIn .inp with lines := [{ oneLine with status := .inflight }] }).windowElem (oneSheaf .inp)
      { kvec := [0, 0, 0, 0, 0, 0, 0, 0] } 0 true = .wait ∧
    (∃ l, ({ withSheafIn .out with lines := [{ oneLine with dirty := 1 }] }).lineAt 0 (.far 0 0 8) = some l ∧ (oneSheaf .out).sid ∈ l.holders ∧ l.dead = false ∧ l.dirty ≠ 0) ∧
    (∃ l, ({ withSheafIn .foldU with lines := [{ oneLine with touched := [32] }] }).lineAt 0 (.far 0 0 8) = some l ∧ (oneSheaf .foldU).sid ∈ l.holders ∧
      (oneSheaf .foldU).desc.mode.folds = true ∧ 32 ∈ l.touched) :=
  ⟨by decide +kernel, by decide +kernel, by decide +kernel, by decide +kernel, by decide +kernel, by decide +kernel,
    ⟨_, List.mem_singleton.mpr rfl, rfl, rfl⟩, by decide +kernel, by decide +kernel, ⟨_, rfl, by decide, by decide, by decide⟩,
    _, rfl, by decide, by decide, by decide⟩

/- Hand-offs. -/

/-- A field of the Granary with its root alone. -/
def oneField : GField :=
  { tenant := 0, num := 2, part := 0, record := { g := 2, nodes := 4, view := 0x1000 }
    nodes := [{ id := 0, hash := 0, state := .ready, npages := 0, depth := 0, parent := 0, stamp := 0, plist := [], chunk := [] }] }

/-- A state with that field, a job sheet at 0x400, and registers that name them: x1 the sheet, x2 a key of the field,
x3 a key of field 5, x4 a key with a bit that must be zero, x5 one of a sequence that does not live. -/
def asking : State :=
  let s := machine { x := regs [(1, 0x400), (2, 0x0002000000000000), (3, 0x0005000000000000), (4, 0x0012000000000000), (5, 0x0002000900000000)] }
  let sheet := 0x1000 + 2 ^ 64 * 1 + 2 ^ 96 * 4 + 2 ^ 192 * 0x41200000 + 2 ^ 224 * 0x41200000 + 2 ^ 256 * 0x41200000 + 2 ^ 288 * 0x3F800000
  { s.writeAll ((List.range 64).map (0x400 + ·)) (toBytes 64 sheet) with fields := [oneField] }

theorem asking_sheet : Claims.sheetAt asking (asking.hart.rd 1) (ofBytes (asking.loadBytes ((List.range 64).map (0x400 + ·)))) :=
  ⟨by decide +kernel, _, (by decide +kernel : _ = Except.ok ((List.range 64).map (0x400 + ·))), rfl⟩

theorem asking_key : Claims.keyPasses asking (asking.hart.rd 2) 1 := ⟨by decide +kernel, by decide +kernel, by decide +kernel, .inl (by decide +kernel)⟩

/-- The same with a store that has not performed. -/
def askingStored : State := { asking with hart := { asking.hart with sbuf := storing.hart.sbuf } }

/-- Each way of asking: a launch, a key, a find, the Sieve's three, and the ends of what they wait for. -/
theorem witness_hand_offs : Claims.Asks asking (.launch 6 1) 6 [1] (.launch (asking.hart.rd 1)) ∧
    Claims.Asks asking (.gpin 6 7 2) 6 [7, 2] (.gpin (asking.hart.rd 7).toNat (Claims.keyIn (asking.hart.rd 2))) ∧
    Claims.Asks asking (.gfind 6 1 2) 6 [1, 2] (.gfind (asking.hart.rd 1) (Claims.keyIn (asking.hart.rd 2))) ∧
    (∃ j, Claims.Asks asking (.sbin 6 1) 6 [1] (.sbin (asking.hart.rd 1) j)) ∧ (∃ n, Claims.Asks asking (.sstat 6 1) 6 [1] (.sstat (asking.hart.rd 1) n)) ∧
    (∃ k, Claims.Asks asking (.spair 6 1 1 7) 6 [1, 7] k) ∧
    Claims.Readable [1, 2, 7] asking ∧ Claims.AccessesPerformed asking ∧
    (Claims.Asks askingStored (.gpin 6 7 2) 6 [7, 2] (.gpin (askingStored.hart.rd 7).toNat (Claims.keyIn (askingStored.hart.rd 2))) ∧
      ¬ Claims.AccessesPerformed askingStored) := by
  have hf : asking.fieldOf (asking.tenantOf asking.hart.part) (Claims.keyIn (asking.hart.rd 2)).field = some oneField := by decide +kernel
  refine ⟨.launch (by decide +kernel) ⟨_, (by decide +kernel : _ = Except.ok ((List.range 64).map (0x400 + ·)))⟩,
    .key (bound := 1) (k := fun k => .gpin (asking.hart.rd 7).toNat k) rfl (by simp) asking_key,
    .find (f := oneField) (by decide +kernel) ⟨by decide +kernel, by decide +kernel, by decide +kernel, .inl (by decide +kernel)⟩ hf (.inl (by decide +kernel)),
    ⟨_, .bin asking_sheet (by decide +kernel)⟩, ⟨_, .stat asking_sheet⟩, ⟨_, .pair asking_sheet (by decide +kernel) (by decide +kernel)⟩,
    ⟨by decide +kernel, .inl (by decide +kernel)⟩, ⟨by decide +kernel, by decide +kernel, by decide +kernel⟩,
    .key (bound := 1) (k := fun k => .gpin (askingStored.hart.rd 7).toNat k) rfl (by simp)
      ⟨by decide +kernel, by decide +kernel, by decide +kernel, .inl (by decide +kernel)⟩, fun h => absurd h.2.2 (by decide +kernel)⟩

/-- A deposit without pages of the sheet at 0x800. -/
theorem witness_deposit : ∃ s : State, ∃ k, Claims.Asks s (.gdep 6 1) 6 [1] k := by
  let s : State := { (machine { x := regs [(1, 0x800)] }).writeAll ((List.range 64).map (0x800 + ·)) (toBytes 64 (0x1000 + 2 ^ 168 * 2)) with fields := [oneField] }
  refine ⟨s, _, .deposit (w := ofBytes (s.loadBytes ((List.range 64).map (0x800 + ·)))) (f := oneField)
    ⟨by decide +kernel, _, (by decide +kernel : _ = Except.ok ((List.range 64).map (0x800 + ·))), rfl⟩
    (by decide +kernel) (by decide +kernel) (by decide +kernel) (by decide +kernel) (.inl (by decide +kernel)) (by decide +kernel)
    ⟨_, (by decide +kernel : _ = Except.ok ((List.range 16).map (0x1000 + ·)))⟩⟩

theorem witness_bad_keys : (∃ k, Claims.keyed asking.hart (.gpin 6 7 3) = some (6, 7, 3, 1, k)) ∧ Claims.Readable [7, 3] asking ∧
    asking.fieldOf (asking.tenantOf asking.hart.part) (Claims.keyIn (asking.hart.rd 3)).field = none ∧
    (asking.fieldOf (asking.tenantOf asking.hart.part) (Claims.keyIn (asking.hart.rd 4)).field ≠ none ∧ (asking.hart.rd 4).toNat / 2 ^ 51 ≠ 0) ∧
    (asking.fieldOf (asking.tenantOf asking.hart.part) (Claims.keyIn (asking.hart.rd 5)).field ≠ none ∧ (asking.hart.rd 5).toNat / 2 ^ 51 = 0 ∧
      (Claims.keyIn (asking.hart.rd 5)).low < 1 ∧ (Claims.keyIn (asking.hart.rd 5)).seq ≠ 0 ∧ (asking.partAt asking.hart.part).seqs = []) :=
  ⟨⟨_, rfl⟩, ⟨by decide +kernel, .inl (by decide +kernel)⟩, by decide +kernel, ⟨by decide +kernel, by decide +kernel⟩, by decide +kernel, by decide +kernel,
    by decide +kernel, by decide +kernel, by decide +kernel⟩

/- The end and the waits of a hart. -/

/-- A farm of the current hart, with a second member. -/
def ownFarm (gang : Bool) : Farm :=
  { part := 0, id := 1, entry := 0, arg := 0, batch := 0, hmin := 1, hmax := 2, gang := gang, bin := none, trips := 10, z := 4, done := 0
    started := true, harts := [0, 1] }

/-- The current hart as its member. -/
def inFarm (gang : Bool) (h : Hart := {}) : State := { machine { h with farm := 1 } with farms := [ownFarm gang] }

/-- A member that holds nothing, before and after a store of it has performed, and one that holds a block or an
answer. -/
theorem witness_exit : (inFarm false).deliverable = false ∧ (inFarm false).hart.ending = false ∧ (inFarm false).hart.exiting = false ∧
    Claims.HoldsNothing (inFarm false) ∧ Claims.Performed (inFarm false) ∧ Claims.farmOfHart (inFarm false) = some (ownFarm false) ∧
    (inFarm false).cur ∈ (ownFarm false).harts ∧ Claims.HoldsNothing storing ∧ ¬ Claims.Performed storing ∧
    (machine inBlock).hart.blocksDone = false ∧ (machine { pending := [(3, 5)] }).hart.pending ≠ [] :=
  ⟨by decide, by decide, by decide, ⟨by decide, by decide, by decide, by decide, by decide, by decide, by decide⟩,
    performed_of ⟨by decide +kernel, by decide +kernel, by decide +kernel⟩ rfl rfl, by decide +kernel, by decide,
    ⟨by decide, by decide, by decide, by decide, by decide, by decide, by decide⟩, fun h => storing_not_performed h.1, by decide, by decide⟩

/-- A word that equals what `WAIT` compares with, and one that differs. -/
theorem witness_wait_yield : Claims.Readable [1, 2] addresses ∧ addresses.deliverable = false ∧ addresses.heldByDeposit 0x100 8 = false ∧
    addresses.accessAt addresses.who (addresses.hart.rd 1) 8 8 .rd = .ok [0x100, 0x101, 0x102, 0x103, 0x104, 0x105, 0x106, 0x107] ∧
    addresses.hart.blocksDone = true ∧ addresses.hart.needsReserved = none ∧
    BitVec.ofNat 64 (ofBytes ([0x100, 0x101, 0x102, 0x103, 0x104, 0x105, 0x106, 0x107].map (Claims.loaded addresses))) = addresses.hart.rd 0 ∧
    BitVec.ofNat 64 (ofBytes ([0x100, 0x101, 0x102, 0x103, 0x104, 0x105, 0x106, 0x107].map (Claims.loaded addresses))) ≠ addresses.hart.rd 2 :=
  ⟨⟨by decide, .inl (by decide)⟩, by decide, by decide +kernel, by decide +kernel, by decide, by decide, by decide +kernel, by decide +kernel⟩

/-- A member that waits for another, one whose fellow has counted, and a farm that is no gang. -/
theorem witness_barriers : Claims.farmOfHart (inFarm true) = some (ownFarm true) ∧ (ownFarm true).gang = true ∧
    (inFarm true).hart.barWaiting = false ∧ (inFarm true).deliverable = false ∧ (inFarm true).hart.blocksDone = true ∧ Claims.Performed (inFarm true) ∧
    ((inFarm true inBlock).hart.blocksDone = false ∧ (inFarm true inBlock).deliverable = false) ∧
    ¬ 0 + 1 ≤ ((inFarm true).hartAt 1).barcount ∧
    0 + 1 ≤ (({ inFarm true with others := [(1, { barcount := 1 })] } : State).hartAt 1).barcount ∧
    Claims.farmOfHart (inFarm false) = some (ownFarm false) ∧ (ownFarm false).gang = false :=
  ⟨by decide +kernel, by decide, by decide, by decide, by decide, performed_of ⟨by decide +kernel, by decide +kernel, by decide +kernel⟩ rfl rfl,
    ⟨by decide, by decide⟩, by decide +kernel, by decide +kernel, by decide +kernel, by decide⟩

/-- Strips left, and the last one claimed: 10 trips of 4 make three. -/
theorem witness_strips : (inFarm false).schedulerFree = true ∧ (inFarm false).hart.holdsStrip = false ∧
    Claims.farmOfHart (inFarm false) = some (ownFarm false) ∧ (ownFarm false).z ≠ 0 ∧ 2 * (ownFarm false).z < (ownFarm false).trips ∧
    (ownFarm false).trips ≤ 3 * (ownFarm false).z := ⟨by decide, by decide, by decide +kernel, by decide, by decide, by decide⟩

/- Sequences and slots. -/

/-- The sequence that it has: its record stands at 0x400, its table at 0x500, and its pool is that handle. -/
def oneSeq (len pool : Nat) (table : Word := 0x500) : Seq :=
  { id := 7, hart := 0, farm := 1, recAddr := 0x400, table := table, cap := 2, len := len, pool := pool, stops := [65] }

/-- A partition with that sequence and a quota; handle 1 is one block, and 0x400 holds a record like the sequence's. x1
names the sequence, x2 the record, x3 neither, x4 a record that cannot be read. -/
def sequenced (q : Seq) (quota : Nat := 4) (pool : List Nat := [9]) : State :=
  let s := machine { x := regs [(1, 7), (2, 0x400), (3, 65), (4, 0x20000)] } [(26, 1), (31, 0xF0)]
  { s.writeAll ((List.range 64).map (0x400 + ·)) (toBytes 64 (0x500 + 2 ^ 64 * 2 + 2 ^ 128 * 1)) with
    pool := pool, over1 := [(0, 0, 0), (0, 1, 1)], over2 := [(0, 0, some 0), (0, 1, some 1)]
    parts := [(0, { exists_ := true, record := { quota := quota }, seqs := [q] })] }

/-- With its accesses performed and no operation handed over, a hart's sequence instruction is served. -/
theorem served_of {s : State} (h : Claims.AccessesPerformed s) (ho : s.ops = []) : Claims.Served s :=
  ⟨h, by rw [ho]; simp, by rw [ho]; simp⟩

/-- Block index 0 of the pool is free. -/
theorem sequenced_free : Claims.FreeIndex (sequenced (oneSeq 0 1)) 0 (oneSeq 0 1) 0 :=
  ⟨{ base := 0, length := 65536, rd := true, wr := true, fold := true }, by decide +kernel, by decide, by decide +kernel⟩

/-- The record as `SEQNEW` reads it, and one of no entry. -/
def aRecord : SeqRecord := { table := 0x500, cap := 2, pool := 1, nstop := 0, stops := [], reserved := false }

/-- `SEQNEW` of a record not aligned, one that cannot be read, one malformed, one that ADMIT refuses, and one that makes
the sequence 1. -/
theorem witness_seqnew : Claims.Readable [1, 2, 3, 4] (sequenced (oneSeq 0 1)) ∧ Claims.Served (sequenced (oneSeq 0 1)) ∧
    (∀ r ∈ [1, 2, 4], (sequenced (oneSeq 0 1)).heldByDeposit ((sequenced (oneSeq 0 1)).hart.rd r) 64 = false) ∧
    ((sequenced (oneSeq 0 1)).hart.rd 1).toNat % 64 ≠ 0 ∧ ((sequenced (oneSeq 0 1)).hart.rd 2).toNat % 64 = 0 ∧
    (∃ e, (sequenced (oneSeq 0 1)).accessAt (sequenced (oneSeq 0 1)).who ((sequenced (oneSeq 0 1)).hart.rd 4) 64 64 .rd = .error e) ∧
    (sequenced (oneSeq 0 1)).accessAt (sequenced (oneSeq 0 1)).who ((sequenced (oneSeq 0 1)).hart.rd 2) 64 64 .rd = .ok ((List.range 64).map (0x400 + ·)) ∧
    seqRecord (ofBytes (((List.range 64).map (0x400 + ·)).map (sequenced (oneSeq 0 1)).byteAt)) = aRecord ∧
    (sequenced (oneSeq 0 1)).seqRecordOk 0x400 aRecord = true ∧ (sequenced (oneSeq 0 1)).seqRecordOk 0x400 { aRecord with cap := 0 } = false ∧
    ((sequenced (oneSeq 0 1)).partAt 0).events = [] ∧
    ((sequenced (oneSeq 0 1)).decideEvent 0 { kind := 4, f2 := 0, f3 := 0, f4 := 0, named := true }).2.act ≠ some 2 ∧
    ((sequenced (oneSeq 0 1) 0).decideEvent 0 { kind := 4, f2 := 0, f3 := 0, f4 := 0, named := true }).2.act = some 2 ∧
    65535 ≤ (List.replicate 65535 (oneSeq 0 1)).length ∧ (∀ q ∈ ((sequenced (oneSeq 0 1)).partAt 0).seqs, q.id ≠ 1) ∧
    (sequenced (oneSeq 0 1)).accessAt (sequenced (oneSeq 0 1)).who (0x400 + 12) 4 0 .wr = .ok [0x40C, 0x40D, 0x40E, 0x40F] ∧
    Memory.wf (sequenced (oneSeq 0 1)).mem = true ∧
    (((sequenced (oneSeq 0 1)).partAt 0).policy.shadow = none ∧ ((sequenced (oneSeq 0 1)).partAt 0).policy.active = none) :=
  ⟨⟨by decide +kernel, .inl (by decide +kernel)⟩, served_of ⟨by decide +kernel, by decide +kernel, by decide +kernel⟩ (by decide +kernel), by decide +kernel, by decide +kernel, by decide +kernel,
    ⟨⟨.region, 0x20000, []⟩, by decide +kernel⟩, by decide +kernel, by decide +kernel, by decide +kernel, by decide +kernel, by decide +kernel, by decide +kernel,
    by decide +kernel, Nat.le_of_eq List.length_replicate.symm, by decide +kernel, by decide +kernel, by decide +kernel, by decide +kernel⟩

/-- `SEQGROW` of no sequence, a full table, a pool that is no region, a quota that is reached, an empty device pool,
writes that are refused, and a block that is given. -/
theorem witness_seqgrow : Claims.seqNamed (sequenced (oneSeq 0 1)) 65 = none ∧ Claims.seqNamed (sequenced (oneSeq 0 1)) 7 = some (oneSeq 0 1) ∧
    Claims.Full (sequenced (oneSeq 2 1)) 0 (oneSeq 2 1) ∧ Claims.Full (sequenced (oneSeq 0 2)) 0 (oneSeq 0 2) ∧
    ¬ Claims.Full (sequenced (oneSeq 0 1)) 0 (oneSeq 0 1) ∧ (sequenced (oneSeq 0 1) 0).poolRegion ⟨0, 0⟩ 1 = (sequenced (oneSeq 0 1)).poolRegion ⟨0, 0⟩ 1 ∧
    ((sequenced (oneSeq 0 1) 0).partAt 0).record.quota ≤ ((sequenced (oneSeq 0 1) 0).partAt 0).pages ∧
    ((sequenced (oneSeq 0 1)).partAt 0).pages < ((sequenced (oneSeq 0 1)).partAt 0).record.quota ∧ (sequenced (oneSeq 0 1) 4 []).pool = [] ∧
    (∃ e, (sequenced (oneSeq 0 1)).accessAt (sequenced (oneSeq 0 1)).who 0x20000 4 0 .wr = .error e) ∧
    ((oneSeq 0 1 0x20000).table + BitVec.ofNat 64 (4 * (oneSeq 0 1 0x20000).len) = 0x20000) ∧
    Claims.FreeIndex (sequenced (oneSeq 0 1)) 0 (oneSeq 0 1) 0 ∧ (sequenced (oneSeq 0 1)).pool = 9 :: [] ∧
    (sequenced (oneSeq 0 1)).accessAt (sequenced (oneSeq 0 1)).who ((oneSeq 0 1).table + BitVec.ofNat 64 (4 * (oneSeq 0 1).len)) 4 0 .wr =
      .ok [0x500, 0x501, 0x502, 0x503] ∧
    (sequenced (oneSeq 0 1)).accessAt (sequenced (oneSeq 0 1)).who ((oneSeq 0 1).recAddr + 12) 4 0 .wr = .ok [0x40C, 0x40D, 0x40E, 0x40F] ∧
    ((sequenced (oneSeq 0 1)).heldByDeposit 0x500 4 = false ∧ (sequenced (oneSeq 0 1)).heldByDeposit 0x400 64 = false) :=
  ⟨by decide +kernel, by decide +kernel, .inl rfl,
    .inr (fun i h => by
      obtain ⟨r, h, -⟩ := h
      exact absurd (h.symm.trans (by decide +kernel : _ = none)) (by simp)),
    fun h => h.elim (by decide) (fun h => h 0 sequenced_free), by decide +kernel, by decide +kernel, by decide +kernel, rfl,
    ⟨⟨.region, 0x20000, []⟩, by decide +kernel⟩, by decide, sequenced_free, rfl, by decide +kernel, by decide +kernel,
    ⟨by decide +kernel, by decide +kernel⟩⟩

/-- `SEQEND` of a sequence that lives and one that does not, with a stop token and without, before and after the hart's
debts have performed. -/
theorem witness_seqend : Claims.Readable [1, 3] (sequenced (oneSeq 0 1)) ∧
    (∃ q ∈ ((sequenced (oneSeq 0 1)).partAt 0).seqs, q.id = 7 ∧ ((sequenced (oneSeq 0 1)).hart.rd 3).toNat % 2 ^ 32 ∈ q.stops) ∧
    (∀ q ∈ ((sequenced (oneSeq 0 1)).partAt 0).seqs, q.id ≠ ((sequenced (oneSeq 0 1)).hart.rd 3).toNat) ∧
    Claims.Performed (sequenced (oneSeq 0 1)) ∧
    ¬ Claims.Performed { sequenced (oneSeq 0 1) with debts := [{ did := 4, sid := 1, hart := 0, part := 0, stead := 0, reg := 1, farm := 0, oid := 0
                                                                 key := .far 0 0 8, addr := 0x200, kind := .write 77 1 }] } ∧
    Claims.Served { sequenced (oneSeq 0 1) with debts := [{ did := 4, sid := 1, hart := 0, part := 0, stead := 0, reg := 1, farm := 0, oid := 0
                                                            key := .far 0 0 8, addr := 0x200, kind := .write 77 1 }] } :=
  ⟨⟨by decide +kernel, .inl (by decide +kernel)⟩, ⟨oneSeq 0 1, List.mem_singleton.mpr rfl, by decide, by decide +kernel⟩, by decide +kernel,
    performed_of ⟨by decide +kernel, by decide +kernel, by decide +kernel⟩ (by decide +kernel) (by decide +kernel),
    fun h => absurd h.2.2 (by decide +kernel),
    served_of ⟨by decide +kernel, by decide +kernel, by decide +kernel⟩ (by decide +kernel)⟩

/-- A member of a gang with bound and unbound slots: opening as a sender to hart 1, to itself, outside a gang, twice. -/
def slotted : State :=
  { linked [] with farms := [ownFarm true], hart := { (linked []).hart with farm := 1, x := regs [(1, 0x801), (2, 0x800), (3, 1), (5, 0x805)] } }

/-- The same with a flit whose credit has not come back. -/
def slottedOwing : State := { slotted with hart := { slotted.hart with z := slotted.hart.z.set 1 { slotted.hart.z[1] with unacked := 1 } } }

theorem witness_slots : Claims.Readable [1] slotted ∧ slotted.hart.blocksDone = true ∧ slotted.hart.z[(1 : ZIx).val].bound ≠ .unbound ∧
    slotted.hart.z[(0 : ZIx).val].bound = .unbound ∧ Claims.farmOfHart slotted = some (ownFarm true) ∧
    (Claims.hartOf slotted (ownFarm true) ((slotted.hart.rd 1).toNat % 256) ∧ (slotted.hart.rd 1).toNat % 256 ≠ slotted.cur ∧
      (slotted.hart.rd 1).toNat / 2 ^ 12 % 4 ≠ 3 ∧ (slotted.hart.rd 1).toNat / 2 ^ 14 = 0 ∧ (slotted.hart.rd 1).toNat / 2 ^ 11 % 2 = 1) ∧
    (slotted.hart.rd 3).toNat / 2 ^ 11 % 2 = 0 ∧ (slotted.hart.rd 2).toNat % 256 = slotted.cur ∧
    ¬ Claims.hartOf slotted (ownFarm true) ((slotted.hart.rd 5).toNat % 256) ∧ Claims.farmOfHart (machine {}) = none ∧
    (slotted.hart.z[(1 : ZIx).val].bound = .send 1 1 0 ∧ (slotted.slotAt 1 1).bound = .recv slotted.cur 1 ∧ slotted.hart.z[(1 : ZIx).val].unacked = 0) ∧
    (slottedOwing.hart.z[(1 : ZIx).val].bound = .send 1 1 0 ∧ (slottedOwing.slotAt 1 1).bound = .recv slottedOwing.cur 1 ∧
      0 < slottedOwing.hart.z[(1 : ZIx).val].unacked) ∧
    ((∀ o ∈ slotted.ops, o.hart = slotted.cur → ∀ a k, o.kind ≠ .gfind a k) ∧ (∀ q ∈ slotted.hart.sbuf, q.kind ≠ .fence)) ∧
    (∃ q ∈ ({ slotted.hart with sbuf := [{ kind := .fence, pa := [], bytes := [], release := true, serial := 0, bound := 1 }] } : Hart).sbuf, q.kind = .fence) := by
  unfold Claims.hartOf
  exact ⟨⟨by decide, .inl (by decide)⟩, by decide, by decide, by decide, by decide +kernel,
    ⟨by decide +kernel, by decide, by decide, by decide, by decide⟩, by decide, by decide, by decide +kernel, by decide +kernel,
    ⟨by decide, by decide +kernel, by decide⟩, ⟨by decide, by decide +kernel, by decide⟩, ⟨fun o ho => absurd ho List.not_mem_nil, by decide⟩,
    ⟨_, List.mem_singleton.mpr rfl, rfl⟩⟩

/- CSRs, traps, firmware. -/

/-- A register that is not listed, one that is read-only, one that may be written, and a privileged one at level 0. -/
theorem witness_csrs : csrListed 0x7FF = none ∧ csrListed 0x013 = some true ∧ csrListed 0x023 = some false ∧ csrListed 0x044 = some false ∧
    Claims.csrFree (machine {}) 0x7FF ∧ Claims.csrFree (machine {}) 0x013 ∧ Claims.csrFree (machine {}) 0x023 ∧ Claims.csrFree (machine {}) 0x044 ∧
    0x800 ≤ (0x801 : BitVec 12).toNat ∧ (machine {}).hart.level = 0 ∧ Claims.csrFree (machine { level := 1 }) 0x844 ∧
    Claims.writable 0x023 = some 0xFFFFFFFF ∧ Claims.writable 0x044 = none ∧ Claims.Readable [1] (machine {}) ∧
    (∃ f, Claims.csrForm (machine {}).hart (.csrw 0x023 1) = some (0x023, 1, f)) ∧ (∃ w, encode (.csrw 0x023 1) = some w) := by
  refine ⟨by decide, by decide, by decide, by decide, ⟨by decide, by decide⟩, ⟨by decide, by decide⟩, ⟨by decide, by decide⟩, ⟨by decide, by decide⟩,
    by decide, by decide, ⟨by decide, by decide⟩, by decide, by decide, ⟨by decide, .inl (by decide)⟩, ⟨_, rfl⟩, ⟨_, rfl⟩⟩

/-- A trap that enters level 1, one that escalates there, one that level 0 takes, and one that halts. -/
theorem witness_traps : (Claims.enters (machine {}) .illegal = 1 ∧ Claims.handling (machine {}).hart.bank1 = false) ∧
    Claims.enters { machine {} with parts := [(0, { tdeleg := 2 })] } .illegal = 0 ∧
    (Claims.escalates { machine { bank0 := { estatus := 8 } } with parts := [(0, { tdeleg := 2 })] } .illegal = true ∧
      Claims.enters { machine { bank0 := { estatus := 8 } } with parts := [(0, { tdeleg := 2 })] } .illegal = 1) ∧
    (machine {}).hart.blocksDone = true ∧ (machine {}).hart.level = 0 ∧
    (machine { trapWait := some (.brk, 0, 0) }).hart.trapWait = some (.brk, 0, 0) :=
  ⟨⟨by decide, by decide⟩, by decide, ⟨by decide, by decide⟩, by decide, by decide, by decide⟩

theorem witness_halt : Claims.enters (inFarm false { bank1 := { estatus := 8 } }) .illegal = 1 ∧
    Claims.handling (inFarm false { bank1 := { estatus := 8 } }).hart.bank1 = true ∧
    ((inFarm false { bank1 := { estatus := 8 } }).partAt 0).hostQueue.length < 256 ∧
    Claims.farmOfHart (inFarm false { bank1 := { estatus := 8 } }) = some (ownFarm false) ∧ 0 ∈ (ownFarm false).harts :=
  ⟨by decide, by decide, by decide, by decide +kernel, by decide⟩

/-- No handler, a handler of level 1 that came from a control-stream word, and one that came from a block. -/
theorem witness_trap_return : Claims.handling (machine {}).hart.bank0 = false ∧
    Claims.handling (machine { level := 1, bank1 := { estatus := 8 } }).hart.bank1 = true ∧ (machine { level := 1, bank1 := { estatus := 8 } }).hart.blocksDone = true ∧
    (machine { level := 1, bank1 := { estatus := 8 } }).deliverable = false ∧ (8 : Word).getLsbD 4 = false ∧ (24 : Word).getLsbD 4 = true ∧
    (machine { inBlock with level := 1, bank1 := { estatus := 8 } }).hart.blocksDone = false :=
  ⟨by decide, by decide, by decide, by decide, by decide, by decide, by decide⟩

theorem witness_firmware : Claims.calls (.trap 0) 0 ∧ Claims.calls .readMeasurementLog 1 ∧ Claims.calls .postPartitionNotice 2 ∧ Claims.calls (.trap 9) 9 ∧
    (machine { level := 1 }).hart.level = 1 ∧ Claims.Readable [1, 2] (machine { level := 1 }) ∧
    ((∃ e, ({ machine { level := 1 } with log := [5] }).log[0]? = some e) ∧ (machine { level := 1 }).log.length ≤ ((machine { level := 1 }).hart.rd 1).toNat) ∧
    (machine { level := 1 }).accessAt ⟨0, 0⟩ 0x1000000 64 0 .wr = .error ⟨.region, 0x1000000, []⟩ ∧
    (machine { level := 1, x := regs [(2, 0x100)] }).accessAt ⟨0, 0⟩ 0x100 64 0 .wr = .ok ((List.range 64).map (0x100 + ·)) ∧
    ((List.range 64).map (0x100 + ·)).Nodup ∧ ((machine { level := 1 }).partAt 0).hostQueue.length < 256 ∧
    ((machine { level := 1, x := regs [(2, 0x100)] }).heldByDeposit 0x100 64 = false ∧ (machine { level := 1 }).delay.headD false = false ∧
      Claims.Alone (machine { level := 1 }) ((List.range 64).map (0x100 + ·))) := by
  refine ⟨.inl ⟨0, rfl, by decide⟩, .inr (.inr (.inl ⟨rfl, rfl⟩)), .inr (.inr (.inr ⟨rfl, rfl⟩)), .inl ⟨9, rfl, by decide⟩, by decide,
    ⟨by decide, .inl (by decide)⟩, ⟨⟨_, rfl⟩, by decide⟩, by decide +kernel, by decide +kernel, by decide +kernel, by decide,
    ⟨by decide +kernel, by decide, by decide, by decide⟩⟩

/-- An image of one instruction at the address waits to be served, in a partition with these events. -/
def swapping (addr : Word) (bytes : List Host.Cell) (events : List PolEvent) : State :=
  { machine {} bytes with ops := [{ oid := 5, hart := 0, part := 0, tenant := 0, xd := 3, kind := .pswap addr 1 }]
                          parts := [(0, { exists_ := true, events := events })] }

/-- What the scheduler reads of the image. -/
def imageAt (s : State) (pas : List Nat) (n : Nat) : List (BitVec 16) :=
  (List.range n).map (fun j => BitVec.ofNat 16 (ofBytes (((pas.drop (2 * j)).take 2).map s.byteAt)))

/-- A supervisor that hands an image over, lengths outside their range, an address that is refused; then an image that
cannot be read, one that fails its check, and one that passes, with an event to decide and without. -/
theorem witness_pswap : (machine {}).hart.level = 0 ∧ (∃ w, encode (.pswap 3 1 2) = some w) ∧
    (machine { level := 1, x := regs [(1, 0x400), (2, 1)] }).hart.level ≠ 0 ∧ Claims.Readable [1, 2] (machine { level := 1, x := regs [(1, 0x400), (2, 1)] }) ∧
    (machine { level := 1, x := regs [(1, 0x400), (2, 1)] }).accessAt ⟨0, 0⟩ 0x400 2 64 .rd = .ok [0x400, 0x401] ∧
    (∃ e, (machine { level := 1, x := regs [(1, 0x401), (2, 1)] }).accessAt ⟨0, 0⟩ 0x401 2 64 .rd = .error e) ∧
    Claims.AccessesPerformed (machine { level := 1, x := regs [(1, 0x400), (2, 1)] }) ∧
    (machine { level := 1, x := regs [(1, 0x400), (2, 1)] }).heldByDeposit 0x400 2 = false ∧ ((machine {}).hart.rd 2).toNat < 1 ∧
    (∃ o, (swapping 0x400 [] []).ops.find? Op.unservedLaunch = some o ∧ o.kind = .pswap 0x400 1) ∧
    (∃ e, (swapping 0x20000 [] []).accessAt ⟨0, 0⟩ 0x20000 2 0 .rd = .error e) ∧
    (swapping 0x400 [] []).accessAt ⟨0, 0⟩ 0x400 2 0 .rd = .ok [0x400, 0x401] ∧
    (∃ j, rakeCheck (imageAt (swapping 0x400 [(0x400, 0xFF), (0x401, 0xFF)] []) [0x400, 0x401] 1) = some j) ∧
    rakeCheck (imageAt (swapping 0x400 [] []) [0x400, 0x401] 1) = none ∧ ((swapping 0x400 [] []).partAt 0).events = [] ∧
    ((swapping 0x400 [] [{ kind := 5 }]).partAt 0).events ≠ [] := by
  refine ⟨by decide, ⟨_, rfl⟩, by decide, ⟨by decide, .inl (by decide)⟩, by decide +kernel, ⟨⟨.align, 0x401, []⟩, by decide +kernel⟩,
    ⟨by decide +kernel, by decide +kernel, by decide +kernel⟩, by decide +kernel, by decide,
    ⟨_, rfl, rfl⟩, ⟨⟨.region, 0x20000, []⟩, by decide +kernel⟩, by decide +kernel, ⟨0, by decide +kernel⟩, by decide +kernel, by decide +kernel, by decide +kernel⟩

/- Steps of the scheduler. -/

/-- A launch of the sheet at 0x400: hmin and hmax as given, no gang, bin none, one trip a strip; `stray` puts a byte
where none may be. -/
def launching (hmin hmax : Nat) (stray : Nat := 0) (farms : List Farm := []) : State :=
  let w := hmin * 2 ^ 128 + hmax * 2 ^ 144 + 255 * 2 ^ 168 + stray * 2 ^ 176 + 10 * 2 ^ 192 + 2 ^ 256
  { (machine {}).writeAll ((List.range 64).map (0x400 + ·)) (toBytes 64 w) with
    ops := [{ oid := 5, hart := 0, part := 0, tenant := 0, xd := 3, kind := .launch 0x400 }], farms := farms, nextId := 6 }

/-- The number in the bytes of a launch sheet. -/
def sheetOf (s : State) : Nat := ofBytes (((List.range 64).map (0x400 + ·)).map s.byteAt)

/-- A bad sheet, one that asks for too many harts, one beside 256 farms, and one that is accepted. -/
theorem witness_launches : (∃ o, (launching 1 1).ops.find? Op.unservedLaunch = some o ∧ o.kind = .launch 0x400) ∧
    (launching 1 1).accessAt ⟨0, 0⟩ 0x400 64 0 .rd = .ok ((List.range 64).map (0x400 + ·)) ∧
    ¬ Claims.launchOk (sheetOf (launching 1 1 1)) ∧
    (Claims.launchOk (sheetOf (launching 2 2)) ∧ ¬ Claims.sheetField (sheetOf (launching 2 2)) 16 2 ≤ ((launching 2 2).partAt 0).record.hceil) ∧
    (Claims.launchOk (sheetOf (launching 1 1)) ∧ Claims.sheetField (sheetOf (launching 1 1)) 16 2 ≤ ((launching 1 1).partAt 0).record.hceil ∧
      (launching 1 1).farms.countP (·.part == 0) < 256) ∧
    256 ≤ (launching 1 1 0 (List.replicate 256 (ownFarm false))).farms.countP (·.part == 0) :=
  ⟨⟨_, rfl, rfl⟩, by decide +kernel, by unfold Claims.launchOk; decide +kernel, ⟨by unfold Claims.launchOk; decide +kernel, by decide +kernel⟩,
    ⟨by unfold Claims.launchOk; decide +kernel, by decide +kernel, by decide +kernel⟩, by decide +kernel⟩

/-- A farm of partition 0, whose budget on stead 0 is 4 quads, and no running hart. -/
def farmed (g : Farm) (order : List Nat := []) (ceil budget : Nat := 4) (h : Hart := {}) : State :=
  { hart := h, farms := [g], parts := [(0, { exists_ := true, record := { hceil := ceil }, budget := [budget], order := order })]
    mem := [(10, 1), (15, 0xF0)], over1 := [(0, 0, 0)], over2 := [(0, 0, some 0)]
    ops := [{ oid := 5, hart := 3, part := 0, tenant := 0, xd := 3, kind := .launch 0x400, phase := 1 }] }

/-- The farm before its start, while it runs, and when it has no hart left. -/
def newFarm : Farm := { ownFarm false with started := false, harts := [], stead := some 0, op := some 5, done := 0x200 }
def runFarm : Farm := { ownFarm false with harts := [9], stead := some 0 }
def oldFarm : Farm := { ownFarm false with harts := [], done := 0x200 }

theorem witness_farms : (farmed newFarm [7]).farmAt 0 1 = some newFarm ∧
    (((farmed newFarm [7]).partAt 0).order ≠ [] ∧ Claims.Placeable (farmed newFarm [7]) newFarm 0 0) ∧
    (Claims.NoPlace (farmed newFarm [] 0) 0 ∧ Claims.NoPlace (farmed newFarm [] 4 1 { status := .running, grant := 1 }) 0 ∧ 1 ≤ newFarm.hmin) ∧
    (∃ o, (farmed newFarm [] 0).opById 5 = some o ∧ newFarm.op = some o.oid) ∧
    (((farmed newFarm).partAt 0).order = [] ∧ newFarm.started = false ∧ newFarm.stopped = false ∧ newFarm.gang = false ∧ newFarm.hmin = 1 ∧
      Claims.Placeable (farmed newFarm) newFarm 0 0) ∧
    (runFarm.started = true ∧ runFarm.stopped = false ∧ runFarm.gang = false ∧ runFarm.harts ≠ [] ∧ runFarm.harts.length < runFarm.hmax ∧ runFarm.z ≠ 0 ∧
      runFarm.nextStrip * runFarm.z < runFarm.trips ∧ Claims.Placeable (farmed runFarm) runFarm 0 0) ∧
    (oldFarm.started = true ∧ oldFarm.harts = [] ∧ oldFarm.op = none ∧ oldFarm.z ≠ 0 ∧ Memory.wf (farmed oldFarm).mem = true ∧
      (farmed oldFarm).accessAt ⟨0, 0⟩ oldFarm.done 8 0 .wr = .ok ((List.range 8).map (0x200 + ·)) ∧ ((List.range 8).map (0x200 + ·)).Nodup) :=
  ⟨by decide +kernel, ⟨by decide +kernel, ⟨by decide +kernel, by decide, by decide, by decide +kernel, by decide +kernel, by decide +kernel⟩⟩,
    ⟨.inl (by decide +kernel), .inr ⟨⟨0, by decide, by decide +kernel⟩, by decide +kernel⟩, by decide⟩, ⟨_, rfl, rfl⟩,
    ⟨by decide, by decide, by decide, by decide, by decide,
      ⟨by decide +kernel, by decide, by decide, by decide +kernel, by decide +kernel, by decide +kernel⟩⟩,
    ⟨by decide, by decide, by decide, by decide, by decide, by decide, by decide,
      ⟨by decide +kernel, by decide, by decide, by decide +kernel, by decide +kernel, by decide +kernel⟩⟩,
    by decide, by decide, by decide, by decide, by decide, by decide +kernel, by decide +kernel⟩

/-- Context 2 in a state of its own, and its partition. -/
def context (h : Hart) (order : List Nat := []) (clk : Nat := 0) (slice : Option Nat := none) : State :=
  { machine {} with others := [(2, h)], clk := clk, time := clk * 5 / 18
                    parts := [(0, { exists_ := true, record := { hceil := 4 }, budget := [8], order := order, sliceStart := slice })] }

/-- Context 2 asleep at an address, which a write has reached or not. -/
def asleep (a : Word) (cmp : Word) (told : Bool := true) : State :=
  { context { status := .sleeping, sleepAddr := a, sleepCmp := cmp } with rereads := if told then [2] else [] }

/-- Context 2 waits with two quads owed, having been pre-empted or not; and it runs, asked to give its quad back. -/
def waitingFor (pre : Bool) : State := context { status := .runnable, owed := 2, grant := 0, preempted := pre } [2]
def askedFor : State := context { status := .running, asked := true, grant := 2 }

/-- Asleep at a word that no write has reached, at one that differs, at one that is the same, and at an address that is
refused; waiting with two quads owed, asked to give them back, and pre-empted. -/
theorem witness_contexts : ((asleep 0x100 9).hartAt 2).status = .sleeping ∧ 2 ∉ (asleep 0x100 9 false).rereads ∧ 2 ∈ (asleep 0x100 9).rereads ∧
    (asleep 0x100 9).accessAt ⟨0, 0⟩ 0x100 8 8 .rd = .ok ((List.range 8).map (0x100 + ·)) ∧
    BitVec.ofNat 64 (ofBytes (((List.range 8).map (0x100 + ·)).map (asleep 0x100 9).byteAt)) = (0 : Word) ∧
    (asleep 0x101 9).accessAt ⟨0, 0⟩ 0x101 8 8 .rd = .error ⟨.align, 0x101, []⟩ ∧
    ((waitingFor false).mayResume 2 = true ∧ ((waitingFor false).hartAt 2).dbg.getLsbD 0 = false ∧ ((waitingFor false).hartAt 2).needsReserved = none) ∧
    ((askedFor.hartAt 2).asked = true ∧ (askedFor.hartAt 2).needsReserved = none ∧ (askedFor.hartAt 2).ending = false ∧ (askedFor.hartAt 2).vq = [] ∧
      (askedFor.hartAt 2).block = none ∧ (∀ z : ZIx, (askedFor.hartAt 2).z[z.val].sentFrom = []) ∧
      ∀ d ∈ ((askedFor.stopHart 2).parkHart 2).debts, d.hart ≠ 2) ∧
    ((waitingFor true).mayResume 2 = true ∧ ((waitingFor true).hartAt 2).resumeNext = false) :=
  ⟨by decide +kernel, by decide, by decide, by decide +kernel, by decide +kernel, by decide +kernel, ⟨by decide +kernel, by decide +kernel, by decide +kernel⟩,
    ⟨by decide +kernel, by decide +kernel, by decide +kernel, by decide +kernel, by decide +kernel, by decide +kernel, by decide +kernel⟩,
    by decide +kernel, by decide +kernel⟩

/-- No context waits; one waits for more quads than there are, before, within and past its slice. -/
theorem witness_slices : (context {}).oversubscribed 0 = false ∧
    (context { status := .runnable, owed := 9, grant := 0 } [2]).oversubscribed 0 = true ∧
    ((context { status := .runnable, owed := 9, grant := 0 } [2]).partAt 0).sliceStart = none ∧
    (context { status := .runnable, owed := 9, grant := 0 } [2] 3599 (some 0)).clk < 0 + 3600 * 1 ∧
    0 + 3600 * 1 ≤ (context { status := .runnable, owed := 9, grant := 0 } [2] 3600 (some 0)).clk :=
  ⟨by decide +kernel, by decide +kernel, by decide +kernel, by decide, by decide⟩

/-- A partition with one intake bin of one entry at 0x800, which is ready and names the sheet at 0x400; its events, and
the image of its policy. -/
def deciding (events : List PolEvent := []) (img : Option (List (BitVec 16)) := none) : State :=
  let s := launching 1 1
  { (s.writeAll ((List.range 16).map (0x600 + ·)) (toBytes 16 (0x800 + 2 ^ 64))).writeAll ((List.range 24).map (0x800 + ·))
      (toBytes 24 (2 ^ 63 + 2 ^ 64 * 0x400)) with
    ops := [], parts := [(0, { exists_ := true, record := { hceil := 4, nq := 1, bins := 0x600 }, bins := [{ head := some 0 }], events := events
                               policy := { active := img, disabled := img.isNone } })] }

/-- Bins that are known, with a head that is ready. -/
theorem deciding_bins : Claims.BinsKnown (deciding) 0 ∧ (deciding).dispatchable 0 = some (3, [0]) ∧ ((deciding).partAt 0).idleAt = none ∧
    ((deciding).binView 0 0).toOption.any (fun w => decide (w.array = 0x800 ∧ w.head = 0 ∧ w.ready = 1 ∧ Claims.sheetField w.entry 8 8 = 0x400)) = true ∧
    (deciding).accessAt ⟨0, 0⟩ 0x400 64 64 .rd = .ok ((List.range 64).map (0x400 + ·)) ∧
    Claims.sheetRefusal (deciding) 0 (sheetOf (deciding)) none :=
  ⟨fun i h => by
      have h0 : i = 0 := Nat.lt_one_iff.mp h
      subst h0
      exact ⟨by decide +kernel, { array := 0x800, cap := 1, qweight := 0, head := 0, ready := 1, entry := 2 ^ 63 + 2 ^ 64 * 0x400 }, by decide +kernel, by decide +kernel⟩,
    by decide +kernel, by decide +kernel, by decide +kernel, by decide +kernel, .inr (.inr (.inr ⟨by unfold Claims.launchOk; decide +kernel, by decide +kernel, by decide +kernel, rfl⟩))⟩

/-- An ADMIT event of a named hart. -/
def admitted : PolEvent := { kind := 4, f2 := 0, f3 := 0, f4 := 1, named := true }

/-- The image `ACT 2`, `DONE`, whose outputs match ADMIT; an image without `DONE`, which overruns; one that picks bin
0. -/
def refusing : List (BitVec 16) := [Claims.rakeWord 0x17 0 2, Claims.rakeWord 0 0 0]
def endless : List (BitVec 16) := [Claims.rakeWord 1 0 0]
def picking : List (BitVec 16) := [Claims.rakeWord 0x15 0 0, Claims.rakeWord 0 0 0]

/-- What the scheduler runs of an image on an event. -/
def runOf (s : State) (img : List (BitVec 16)) (e : PolEvent) : Option Rake :=
  Rake.run (s.snapshot 0 e) img 256 { m := ((s.partAt 0).policy).m, credit := (List.range 16).map (fun i => (s.binAt 0 i).credit) }

/-- A run that ends with an output, one that does not end, and one that picks a bin. -/
theorem witness_images_run : (runOf (deciding [admitted] refusing) refusing admitted).any (fun r => decide (r.act = some 2 ∧ r.pick = none ∧ r.victim = none)) = true ∧
    runOf (deciding [admitted] endless) endless admitted = none ∧
    (runOf (deciding [] picking) picking { kind := 1, f2 := 3 }).any (fun r => decide (r.pick = some 0 ∧ r.act = none ∧ r.victim = none)) = true ∧
    0 < (((deciding).snapshot 0 { kind := 1, f2 := 3 }).queues.getD 0 []).getD 0 0 :=
  ⟨by decide +kernel, by decide +kernel, by decide +kernel, by decide +kernel⟩

/-- One word of each kind at the head of an image: `DONE`, a row of R153, a branch, and a `LOOPQ` of one row. -/
theorem witness_rake_images : Claims.rakePlain 0x17 ∧ [Claims.rakeWord 0x17 0 2][0]? = some (Claims.rakeWord 0x17 0 2) ∧
    [Claims.rakeWord 0x14 1 1, Claims.rakeWord 2 0 1][1]? = some (Claims.rakeWord 2 0 1) ∧ Claims.rakePlain 2 ∧ ({ m := [], credit := [] } : Rake).loop = none ∧
    (2 : Nat) ≤ ({ m := [], credit := [], pc := 2 } : Rake).pc := by unfold Claims.rakePlain; decide

/-- An event of each kind with no image, a running hart charged more than the waiting one, and one charged no more; a
window that ends. -/
theorem witness_decisions (e : PolEvent) :
    ((deciding [e]).partAt 0).events = e :: [] ∧ ((deciding [e]).partAt 0).policy.disabled = true ∧ ((deciding).partAt 0).policy.shadow = none ∧
    ((deciding [admitted] refusing).partAt 0).policy.disabled = false ∧ ((deciding).partAt 0).record.nq ≤ 16 ∧
    (0 ∈ (context { status := .runnable } [2]).runningList 0 ∧ ∀ i ∈ (context { status := .runnable } [2]).runningList 0, i = 0) ∧
    2 ∈ ((context { status := .runnable } [2]).partAt 0).order ∧
    ¬ ((context { status := .runnable } [2]).hartAt 2).lanecyc < ((context { status := .runnable } [2]).hartAt 0).lanecyc ∧
    (({ context { status := .runnable } [2] with hart := { status := .running, lanecyc := 5 } }).hartAt 2).lanecyc < 5 ∧
    (({ nwin := 10 } : Hart).nwin ≠ 0 ∧ 20 % ({ nwin := 10 } : Hart).nwin.toNat = 0 ∧
      ({ sclk := [720], sclkWas := [684] } : State).sclkWas.getD 0 0 / 36 ≠ ({ sclk := [720], sclkWas := [684] } : State).sclk.getD 0 0 / 36) :=
  ⟨rfl, rfl, rfl, rfl, by decide, ⟨by decide +kernel, by decide +kernel⟩, by decide +kernel, by decide +kernel, by decide +kernel, by decide, by decide, by decide⟩

/-- The scheduler owes a cleared ready word, and then the head of a header. -/
def owingWrites : State :=
  { (deciding) with schedWrites := [{ id := 8, part := 0, farm := 1, addr := 0x800, bytes := toBytes 8 0 },
                                    { id := 9, part := 0, farm := 1, head := some 0, bytes := toBytes 8 1 }] }

theorem witness_owed_writes : (∃ w ws, owingWrites.schedWrites = [] ++ w :: ws ∧ w.head = none ∧ w.addr = 0x800 ∧ w.bytes.length = 8 ∧ ∀ x ∈ ws, x.id ≠ w.id) ∧
    owingWrites.accessAt ⟨0, 0⟩ 0x800 8 0 .wr = .ok ((List.range 8).map (0x800 + ·)) ∧ Memory.wf owingWrites.mem = true ∧
    owingWrites.translate 0 .wr (BitVec.ofNat 64 ((owingWrites.partAt 0).record.bins + 64 * 0) + 24).toNat = .ok 0x618 ∧
    owingWrites.meetsPoison ((List.range 8).map (0x618 + ·)) true = [] ∧ (toBytes 8 1).length = 8 ∧ ((List.range 8).map (0x618 + ·)).Nodup ∧
    owingWrites.opById 8 = none ∧ owingWrites.jobs = [] ∧ owingWrites.held = [] :=
  ⟨⟨_, _, rfl, rfl, rfl, rfl, by decide⟩, by decide +kernel, by decide +kernel, by decide +kernel, by decide +kernel, by decide, by decide,
    by decide +kernel, by decide +kernel, by decide +kernel⟩

/- Steps of the Gleaner. -/

/-- The IN sheaf with an order at the head of its queue. -/
def ordered (m : Mode) (o : Order) : State := { withSheafIn m with sheaves := [{ oneSheaf m with orders := [o] }] }

/-- An order as `HSET` makes it. -/
def anOrder : Order := { oid := 3, counters := List.replicate 8 {}, serial := 0 }

/-- A fetch of the sheaf's line, waiting on its own stead and on stead 1. -/
def aFetch : Fetch := { fid := 9, stead := 0, sid := 1, hart := 0, part := 0, key := .far 0 0 8, addr := 0x200, oid := 3, multicast := [1] }

/-- The state in which it is in flight on both. -/
def fetching (f : Fetch) : State :=
  { withSheafIn .inp with fetches := [f], lines := [{ oneLine with status := .inflight }, { oneLine with stead := 1, status := .inflight }] }

theorem witness_orders : (∃ sh os, (ordered .inp anOrder).sheafById 1 = some sh ∧ sh.orders = anOrder :: os ∧ anOrder.taken = false ∧ anOrder.final = false ∧
      sh.desc.tab = false ∧ anOrder.also = []) ∧
    (∃ sh os, (ordered .inp { anOrder with final := true }).sheafById 1 = some sh ∧ sh.orders = { anOrder with final := true } :: os) :=
  ⟨⟨_, _, rfl, rfl, by decide, by decide, by decide, by decide⟩, _, _, rfl, rfl⟩

/-- The line of an element that a sheaf gathers, which stands at bit 4096, byte 0x200. -/
def gathering : State :=
  { withSheafIn .inp with
    fetches := [{ aFetch with key := .gath 1 4096, multicast := [] }], lines := [{ oneLine with key := .gath 1 4096, status := .inflight }] }

/-- A fetch of a far line that reads, one that meets poison, one whose address no region holds, and one that gathers. -/
theorem witness_fetches :
    (fetching aFetch).fetches.find? (fun f => f.stead == 0 && (fetching aFetch).mayFetch f) = some aFetch ∧
    ¬ Claims.gathered aFetch.key ∧
    (∃ r, (fetching aFetch).regionFor ⟨0, 0⟩ true 0x200 1 .rd = some r ∧
      (fetching aFetch).placeSpan 0 r .rd 0x200 0x200 (min 64 (r.length - 0x200)) = .ok ((List.range 64).map (0x200 + ·))) ∧
    (fetching aFetch).meetsPoison ((List.range 64).map (0x200 + ·)) false = [] ∧
    ({ fetching aFetch with poisoned := [8] }).meetsPoison ((List.range 64).map (0x200 + ·)) false ≠ [] ∧
    (fetching aFetch).regionFor ⟨0, 0⟩ true 0x10000 1 .rd = none ∧
    (∃ f l, gathering.fetches.find? (fun f => f.stead == 0 && gathering.mayFetch f) = some f ∧ gathering.sheafById f.sid = some (oneSheaf .inp) ∧
      gathering.lineAt f.stead f.key = some l ∧ f.key = .gath 1 4096 ∧
      gathering.accessAt ⟨0, 0⟩ (BitVec.ofNat 64 (4096 / 8)) ((Fmt.s32.width + 7) / 8) 0 .rd = .ok [0x200, 0x201, 0x202, 0x203]) :=
  ⟨by decide +kernel, (by rintro ⟨_, _, h⟩; cases h),
    ⟨{ base := 0, length := 65536, rd := true, wr := true, fold := true }, by decide +kernel, by decide +kernel⟩,
    by decide +kernel, by decide +kernel, by decide +kernel,
    ⟨{ aFetch with key := .gath 1 4096, multicast := [] }, { oneLine with key := .gath 1 4096, status := .inflight },
      by decide +kernel, by decide +kernel, by decide +kernel, by decide +kernel, by decide +kernel⟩⟩

/-- A fetch that has read, one that has failed, and one of another chip's line; then the second stead's line. -/
theorem witness_arrivals : (∃ f l, (fetching { aFetch with got := some 5 }).fetches.find? (fun f => f.fid == 9 && !f.arrived) = some f ∧ f.got = some 5 ∧
      (f.cast = true → ∀ g ∈ (fetching { aFetch with got := some 5 }).fetches, g.sid = f.sid → g.cast = true → g.fid < f.fid → g.arrived = true) ∧
      (fetching { aFetch with got := some 5 }).lineAt f.stead f.key = some l ∧ l.fid = 9 ∧ l.status = .inflight) ∧
    (∃ f, (fetching { aFetch with failed := some .poison }).fetches.find? (fun f => f.fid == 9 && !f.arrived) = some f ∧ f.got = none ∧ f.failed = some .poison) ∧
    (LineKey.remote (.own 1) 7 0).isRemote = true ∧
    (∃ f l, (fetching { aFetch with got := some 5 }).fetches.find? (fun f => f.fid == 9 && !f.unread) = some f ∧ f.multicast = 1 :: [] ∧ f.got = some 5 ∧
      (fetching { aFetch with got := some 5 }).lineAt 1 f.key = some l ∧ l.fid = 9 ∧ l.status = .inflight ∧
      ∀ g ∈ (fetching { aFetch with got := some 5 }).fetches, g.sid = f.sid → g.fid < 9 → 1 ∉ g.multicast) :=
  ⟨⟨_, _, rfl, rfl, by decide, rfl, rfl, rfl⟩, ⟨_, rfl, rfl, rfl⟩, by decide, _, _, rfl, rfl, rfl, rfl, rfl, rfl, by decide⟩

/-- Debts of the sheaf's line: a write-back of one byte, and a fold. -/
def aDebt (k : DebtKind) : Debt := { did := 4, sid := 1, hart := 0, part := 0, stead := 0, reg := 1, farm := 0, oid := 3, key := .far 0 0 8, addr := 0x200, kind := k }
def indebted (k : DebtKind) : State := { withSheafIn .out with debts := [aDebt k] }

/-- An order that releases, a write-back of two bytes, a write-back of one gathered element, and a fold. -/
theorem witness_releases : (∃ sh os, (ordered .out { anOrder with taken := true }).sheafById 1 = some sh ∧ sh.orders = { anOrder with taken := true } :: os ∧
      (ordered .out { anOrder with taken := true }).orderFree sh { anOrder with taken := true } = true) ∧
    (∃ sh os, (ordered .out { anOrder with taken := true, final := true }).sheafById 1 = some sh ∧ sh.orders = { anOrder with taken := true, final := true } :: os ∧
      (ordered .out { anOrder with taken := true, final := true }).orderFree sh { anOrder with taken := true, final := true } = true) ∧
    ((indebted (.write 5 6)).debts.find? (·.did == 4) = some (aDebt (.write 5 6)) ∧ (indebted (.write 5 6)).mayPerform (aDebt (.write 5 6)) = true ∧
      (aDebt (.write 5 6)).key.isRemote = false ∧ (aDebt (.write 5 6)).dead = false ∧ Memory.wf (indebted (.write 5 6)).mem = true ∧
      (∀ e ∈ Claims.entries (aDebt (.write 5 6)) 5 6, Claims.StandsAt (indebted (.write 5 6)) ⟨0, 0⟩ e (0x200 + ·)) ∧
      ∀ e ∈ Claims.entries (aDebt (.write 5 6)) 5 6, ∀ e' ∈ Claims.entries (aDebt (.write 5 6)) 5 6, ∀ o ∈ Claims.masked e.2.2,
        ∀ o' ∈ Claims.masked e'.2.2, 0x200 + o = 0x200 + o' → e = e' ∧ o = o') ∧
    ((indebted (.scatter .s32 [(4096, 7)])).debts.find? (·.did == 4) = some (aDebt (.scatter .s32 [(4096, 7)])) ∧
      (indebted (.scatter .s32 [(4096, 7)])).mayPerform (aDebt (.scatter .s32 [(4096, 7)])) = true ∧ Fmt.s32.width % 8 = 0 ∧
      (indebted (.scatter .s32 [(4096, 7)])).accessAt ⟨0, 0⟩ (BitVec.ofNat 64 (4096 / 8)) (Fmt.s32.width / 8) 0 .wr = .ok [0x200, 0x201, 0x202, 0x203] ∧
      (indebted (.scatter .s32 [(4096, 7)])).meetsPoison [0x200, 0x201, 0x202, 0x203] false = [] ∧ [0x200, 0x201, 0x202, 0x203].Nodup) ∧
    ((indebted (.fold .s32 32 7)).mayPerform (aDebt (.fold .s32 32 7)) = true ∧
      (indebted (.fold .s32 32 7)).accessAt ⟨0, 0⟩ (0x200 + BitVec.ofNat 64 (32 / 8)) Fmt.s32.bytes 0 .fold = .ok [0x204, 0x205, 0x206, 0x207]) := by
  refine ⟨⟨_, _, rfl, rfl, by decide +kernel⟩, ⟨_, _, rfl, rfl, by decide +kernel⟩,
    ⟨rfl, by decide +kernel, by decide, by decide, by decide, fun e he => ?_,
      fun e he e' he' o _ o' _ h => ⟨(List.mem_singleton.mp he).trans (List.mem_singleton.mp he').symm, by omega⟩⟩,
    ⟨rfl, by decide +kernel, by decide, by decide +kernel, by decide +kernel, by decide⟩, by decide +kernel, by decide +kernel⟩
  rw [List.mem_singleton.mp he]
  exact ⟨{ base := 0, length := 65536, rd := true, wr := true, fold := true }, [0x201, 0x202], by decide +kernel, by decide +kernel, by decide +kernel,
    by decide +kernel⟩

/- Streams, the Sieve, the Granary. -/

/-- A flit of context 1 toward slot 2 of context 0. -/
def onItsWay : Transit := { toHart := 0, toSlot := 2, fromHart := 1, fromSlot := 2, flit := { seq := 0, fmt := 3, elems := [1], left := 1, endMark := false } }

/-- The slot expects it, has seen it and holds it, has seen it and does not, or receives from no one; the sender knows
its link. -/
theorem witness_deliveries : Claims.toward 0 2 onItsWay ∧
    ((linked []).slotAt 0 2).bound = .recv onItsWay.fromHart onItsWay.fromSlot ∧
    (2 ^ 32 + onItsWay.flit.seq - ((linked []).slotAt 0 2).expect) % 2 ^ 32 < 2 ^ 31 ∧
    (2 ^ 31 ≤ (2 ^ 32 + onItsWay.flit.seq - 1) % 2 ^ 32 ∧ (∃ f ∈ ((linked [onItsWay.flit]).slotAt 0 2).flits, f.seq = onItsWay.flit.seq) ∧
      ∀ f ∈ ((linked []).slotAt 0 2).flits, f.seq ≠ onItsWay.flit.seq) ∧
    (({} : State).slotAt 0 2).bound ≠ .recv onItsWay.fromHart onItsWay.fromSlot ∧ onItsWay.fromHart ≠ 0 ∧
    (({ linked [] with others := [(1, { z := (Vector.replicate 8 {}).set 2 { bound := .send 0 2 0 } })] } : State).slotAt
      onItsWay.fromHart onItsWay.fromSlot).bound = .send 0 2 0 :=
  ⟨⟨rfl, rfl⟩, by decide +kernel, by decide +kernel, ⟨by decide, by decide +kernel, by decide +kernel⟩, by decide +kernel, by decide, by decide +kernel⟩

/-- A job of two points in a box of side 10 at 0x1000, with an open stream on slot 1. -/
def sheet2 : JobSheet := { pos := 0x1000, count := 2, cap := 4, pmask := 0, home := 0, l := [0x41200000, 0x41200000, 0x41200000], rc := 0x3F800000, s := 0 }
def job2 (todo : List (Nat × Nat)) : Job :=
  { part := 0, sheetAddr := 0x400, sheet := sheet2, state := 2, occupancy := 2, cells := [(0, [0, 1])], ref := [[0, 0, 0], [0, 0, 0]]
    streams := [{ id := 3, hart := 0, z := 1, todo := todo }] }
def sieving (op : OpKind) (jobs : List Job) : State :=
  { machine { z := (Vector.replicate 8 {}).set 1 { bound := .pair 3 } } with
    jobs := jobs, ops := [{ oid := 5, hart := 0, part := 0, tenant := 0, xd := 3, kind := op }] }

theorem witness_pair_records : (sieving (.sstat 0x400 0) [job2 []]).pairStream 0 1 = some (job2 [], { id := 3, hart := 0, z := 1, todo := [] }) ∧
    (sieving (.sstat 0x400 0) [job2 []]).positions ⟨0, 0⟩ sheet2 [] [0, 1] = .ok [[0, 0, 0], [0, 0, 0]] ∧
    (sheet2.record 0 1 [0, 0, 0] [0, 0, 0]).isSome = true ∧ sheet2.record 0 1 [0, 0, 0] [0x40000000, 0, 0] = none ∧
    (∃ t, (sieving (.sstat 0x400 0) [job2 [(0, 1)]]).pairStream 0 1 = some (job2 [(0, 1)], t) ∧ t.todo = [(0, 1)] ∧ t.got = []) ∧
    (sieving (.sstat 0x400 0) []).position ⟨0, 0⟩ sheet2 [] 1 = .ok [0, 0, 0] ∧ coordinates (List.replicate 12 0) = [0, 0, 0] :=
  ⟨by decide +kernel, by decide +kernel, by decide +kernel, by decide +kernel, ⟨_, rfl, rfl, rfl⟩, by decide +kernel, by decide⟩

/-- A sheet with no job, one with an open stream, one without points, a bad point, and points that fit. -/
theorem witness_binning : (∃ o, (sieving (.sbin 0x400 sheet2) []).sieveHead 5 = some o ∧ o.kind = .sbin 0x400 sheet2) ∧
    ((sieving (.sbin 0x400 sheet2) [job2 []]).jobAt 0 0x400 = some (job2 []) ∧ (job2 []).streams ≠ []) ∧
    (sieving (.sbin 0x400 sheet2) []).jobAt 0 0x400 = none ∧ ({ sheet2 with count := 0 } : JobSheet).count = 0 ∧
    (sieving (.sbin 0x400 sheet2) []).positions ⟨0, 0⟩ sheet2 [] (List.range 2) = .ok [[0, 0, 0], [0, 0, 0]] ∧
    sheet2.good [0x41200000, 0, 0] = false ∧ (∀ p ∈ [[0, 0, 0], [0, 0, 0]], sheet2.good p = true) ∧
    16 * sheet2.count + 4 * sheet2.total * (sheet2.cap + 1) ≤ 2 ^ 24 ∧ [[0, 0, 0], [0, 0, 0]].length ≤ sheet2.cap :=
  ⟨⟨_, rfl, rfl⟩, ⟨by decide +kernel, by decide⟩, by decide +kernel, by decide, by decide +kernel, by decide +kernel, by decide +kernel, by decide +kernel, by decide⟩

/-- A slot reserved for a stream of a binned job, and of one that is not binned. -/
theorem witness_streams_open : (∃ o, (sieving (.spair 0x400 0 1 0 2 false) [job2 []]).sieveHead 5 = some o ∧ o.kind = .spair 0x400 0 1 0 2 false) ∧
    ((sieving (.spair 0x400 0 1 0 2 false) [job2 []]).jobAt 0 0x400 = some (job2 []) ∧ (job2 []).sheet.home = 0 ∧ (job2 []).state = 2) ∧
    (sieving (.spair 0x400 0 1 0 2 false) [job2 []]).checkPoints ⟨0, 0⟩ (job2 []) [] (List.range (job2 []).sheet.count) = .ok ∧
    (({ sieving (.spair 0x400 0 1 0 2 false) [] with hart := { z := (Vector.replicate 8 {}).set 1 { bound := .reserved 5 } } } : State).slotAt 0 1).bound = .reserved 5 ∧
    (sieving (.spair 0x400 0 1 0 2 false) []).jobAt 0 0x400 = none ∧
    (∃ o, (sieving (.sstat 0x400 0) [job2 []]).sieveHead 5 = some o ∧ o.kind = .sstat 0x400 0) :=
  ⟨⟨_, rfl, rfl⟩, ⟨by decide +kernel, by decide, by decide⟩, by decide +kernel, by decide +kernel, by decide +kernel, _, rfl, rfl⟩

/-- Field 2 with a ready child of one chunk of zeros, and a filling one; one operation asks something of it. -/
def aNode (id : Nat) (st : NodeState) (chunk : List Nat) : Node :=
  { id := id, hash := hashOver 0 chunk, state := st, npages := 1, depth := 4, parent := 0, stamp := 0, plist := [id - 1], chunk := chunk }
def treeField : GField :=
  { oneField with nodes := oneField.nodes ++ [aNode 1 .ready [0, 0, 0, 0], aNode 2 .filling [1, 1, 1, 1]]
                  pool := [20, 21, 22], free := [2], record := { oneField.record with pages := 3 } }
def rooted (k : OpKind) (phase node : Nat := 0) (bind : List (Nat × GBind) := []) : State :=
  { machine {} [(18, 1), (26, 1), (31, 0xF0)] with
                    fields := [treeField], parts := [(0, { exists_ := true, gbind := bind })]
                    over1 := [(0, 0, 0), (0, 1, 1)], over2 := [(0, 0, some 0), (0, 1, some 1)]
                    ops := [{ oid := 5, hart := 0, part := 0, tenant := 0, xd := 3, kind := k, phase := phase, node := node }] }

theorem witness_find : (∃ o, (rooted (.gfind 0x400 ⟨2, 0, 4⟩)).granaryHead 5 = some (o, treeField) ∧ o.kind = .gfind 0x400 ⟨2, 0, 4⟩ ∧
      (rooted (.gfind 0x400 ⟨2, 0, 4⟩)).findPath o treeField 0x400 0 treeField.record.seed 0
        (if treeField.pinned o.part then 0 else min (4 / 2 ^ treeField.record.g) treeField.nodes.length) = .ok [0, 1]) ∧
    [0, 1].getLast? = some 1 ∧ ((rooted (.gfind 0x400 ⟨2, 0, 4⟩)).commit treeField treeField).toOption.isSome = true :=
  ⟨⟨_, rfl, rfl, by decide +kernel⟩, by decide, by decide +kernel⟩

/-- A deposit of page 1 under the root: its chunk is node 1's, or under parent 3, which is missing, or a new one under
node 1. -/
def aDeposit (tokens : Word) (parent : Nat) : Deposit := { tokens := tokens, payload := 0x0001000000000000, parent := parent, npages := 1, field := 2, seq := 0 }

theorem witness_deposits : (∃ o, (rooted (.gdep (aDeposit 0x400 0))).granaryHead 5 = some (o, treeField) ∧ o.kind = .gdep (aDeposit 0x400 0) ∧
      (rooted (.gdep (aDeposit 0x400 0))).readTokens o 0x400 (2 ^ treeField.record.g) = .ok [0, 0, 0, 0]) ∧
    (∃ o, (rooted (.gdep (aDeposit 0x20000 0))).granaryHead 5 = some (o, treeField) ∧
      ((rooted (.gdep (aDeposit 0x20000 0))).readTokens o 0x20000 (2 ^ treeField.record.g)).toOption = none) ∧
    treeField.node 3 = none ∧ Claims.sound treeField 0 (oneField.nodes.headD (aNode 0 .ready [])) ∧ (¬ Claims.pinsFull treeField 0) ∧
    (aNode 1 .ready [0, 0, 0, 0] ∈ treeField.children 0 ∧ treeField.children 1 = []) ∧
    (treeField.nodes.length ≤ treeField.record.nodes ∧ (treeField.node 3 = none ∧ ∀ m, m < 3 → treeField.node m ≠ none)) ∧
    1 + ({ treeField with nodes := oneField.nodes } : GField).owedPages ≤ treeField.free.length ∧
    ((rooted (.gdep (aDeposit 0x400 0))).commit { treeField with nodes := oneField.nodes }
      { treeField with nodes := oneField.nodes ++ [{ aNode 1 .filling [0, 0, 0, 0] with plist := [] }] }).toOption.isSome = true :=
  ⟨⟨_, rfl, rfl, by decide +kernel⟩, ⟨_, rfl, by decide +kernel⟩, by decide, ⟨rfl, by decide⟩, by unfold Claims.pinsFull; decide +kernel, ⟨by decide +kernel, by decide +kernel⟩,
    ⟨by decide, by decide, by decide +kernel⟩, by decide +kernel, by decide +kernel⟩

/-- Adoption of page 1 of the partition by the free pool page 2, then the ready step. -/
theorem witness_adoption : (∃ o, (rooted (.gdep (aDeposit 0 0)) 1 2).opById 5 = some o ∧ o.kind = .gdep (aDeposit 0 0) ∧ o.phase = 1 ∧ o.node = 2) ∧
    (rooted (.gdep (aDeposit 0 0)) 1 2).fieldOf 0 2 = some treeField ∧ treeField.node 2 = some (aNode 2 .filling [1, 1, 1, 1]) ∧
    (rooted (.gdep (aDeposit 0 0)) 1 2).payloadPages ⟨0, 0⟩ 0x0001000000000000 1 = some [(1, 1)] ∧ [2].Pairwise (· < ·) ∧ (2 ∈ treeField.free ∧ 2 < treeField.pool.length) ∧
    (∃ o, (rooted (.gdep (aDeposit 0 0)) 1 2).opById 5 = some o ∧ (rooted (.gdep (aDeposit 0 0)) 1 2).mayAdopt o (aDeposit 0 0) = true) ∧
    (((rooted (.gdep (aDeposit 0 0)) 1 2).adoptPages 0 treeField [(1, 1)]).1.commit treeField
      (((rooted (.gdep (aDeposit 0 0)) 1 2).adoptPages 0 treeField [(1, 1)]).2.1.setNode { aNode 2 .filling [1, 1, 1, 1] with plist := [2] })).toOption.isSome = true ∧
    (∃ o, (rooted (.gdep (aDeposit 0 0)) 2 2).opById 5 = some o ∧ o.phase = 2 ∧ (rooted (.gdep (aDeposit 0 0)) 2 2).mayReady o treeField = true) ∧
    ((rooted (.gdep (aDeposit 0 0)) 2 2).commit treeField (treeField.setNode { aNode 2 .filling [1, 1, 1, 1] with state := .ready })).toOption.isSome = true :=
  ⟨⟨_, rfl, rfl, rfl, rfl⟩, by decide +kernel, by decide, by decide +kernel, by decide, ⟨by decide, by decide⟩,
    ⟨_, rfl, by decide +kernel⟩, by decide +kernel, ⟨_, rfl, rfl, by decide +kernel⟩, by decide +kernel⟩

/-- Every pin of a list of one pin of partition 0 is counted. -/
theorem pins_fill (n : Nat) :
    n ≤ (List.replicate n ({ node := 1, part := 0, seq := 0 } : Pin)).countP (fun p => p.part == 0) := by
  induction n with
  | zero => exact Nat.le_refl 0
  | succ n ih => rw [List.replicate_succ, List.countP_cons_of_pos rfl]; exact Nat.succ_le_succ ih

/-- Nodes that may be pinned and not, a pin that stands and one that does not, a binding that is ready. -/
theorem witness_pins : (∃ o, (rooted (.gpin 1 ⟨2, 0, 0⟩)).granaryHead 5 = some (o, treeField) ∧ o.kind = .gpin 1 ⟨2, 0, 0⟩) ∧
    Claims.pinnable treeField 1 ∧ ¬ Claims.pinnable treeField 0 ∧
    Claims.pinsFull { treeField with pins := List.replicate 65536 { node := 1, part := 0, seq := 0 } } 0 ∧
    (({ node := 1, part := 0, seq := 0 } : Pin) ∈ ({ treeField with pins := [{ node := 1, part := 0, seq := 0 }] } : GField).pins ∧ treeField.pins = []) ∧
    (treeField.node 1 ≠ none ∧ treeField.under 1 = [1] ∧ treeField.pinsOn 1 = 0 ∧ treeField.node 3 = none ∧ (aNode 2 .filling [1, 1, 1, 1]).state = .filling) ∧
    (∃ o, (rooted (.gload 1 ⟨2, 0, 0⟩)).granaryHead 5 = some (o, treeField) ∧ o.kind = .gload 1 ⟨2, 0, 0⟩ ∧ o.phase = 0) ∧
    alookup ((rooted (.gload 1 ⟨2, 0, 0⟩)).partAt 0).gbind 0 = none ∧ (aNode 1 .ready [0, 0, 0, 0]).state = .ready ∧
    (∃ o b, (rooted (.gload 1 ⟨2, 0, 0⟩) 1 1 [(0, { owner := 5, tenant := 0, field := 2, node := 1, pages := [20], ready := true })]).opById 5 = some o ∧ o.phase = 1 ∧
      alookup ((rooted (.gload 1 ⟨2, 0, 0⟩) 1 1 [(0, { owner := 5, tenant := 0, field := 2, node := 1, pages := [20], ready := true })]).partAt 0).gbind 0 = some b ∧
      b.owner = 5 ∧ b.ready = true) := by
  refine ⟨⟨_, rfl, rfl⟩, ⟨by decide, _, rfl, rfl⟩, fun h => h.1 rfl, ?_, ⟨by decide, by decide⟩,
    ⟨by decide, by decide +kernel, by decide +kernel, by decide, by decide⟩, ⟨_, rfl, rfl, rfl⟩, by decide +kernel, by decide, _, _, rfl, rfl, rfl, rfl, rfl⟩
  exact pins_fill 65536

/- Memory, firmware, the host. -/

/-- A part in which a channel has failed. -/
def failing (c : Nat) : State := { machine {} with badChannels := [c] }

/-- The channel of line 8, and another of its group. -/
def ownChannel : Nat :=
  8 * Config.lineGroup 8 + ((List.range 8).filter (· != Config.lineStripe 8 % 8)).getD (Config.lineSlot 8).val 0
def otherChannel : Nat := if ownChannel = 8 * Config.lineGroup 8 then ownChannel + 1 else 8 * Config.lineGroup 8

/-- The other channel is one of the group, and not that of the line. -/
theorem otherChannel_of_group : otherChannel / 8 = Config.lineGroup 8 ∧ otherChannel ≠ ownChannel := by
  unfold otherChannel
  split
  · next h => exact ⟨by rw [h]; omega, by omega⟩
  · next h => exact ⟨Nat.mul_div_cancel_left _ (by decide), fun e => h e.symm⟩

/-- A line without poison, whose group is sound, has lost the line's own channel, or has lost another, and one with
poison; a channel that fails alone and one whose partner has failed; columns that stay and that may not go; a line whose
nominal column is powered or not. -/
theorem witness_memory_faults : (machine {}).isPoisoned (0x200 / 64) = false ∧ ({ machine {} with poisoned := [8] } : State).isPoisoned (0x200 / 64) = true ∧
    (failing otherChannel).isPoisoned (0x200 / 64) = false ∧ (∃ c ∈ (failing otherChannel).badChannels, c / 8 = Config.lineGroup 8 ∧ c ≠ ownChannel) ∧
    (¬ ∃ c ∈ (failing ownChannel).badChannels, c / 8 = Config.lineGroup 8 ∧ c ≠ ownChannel) ∧
    (∀ l, (machine {}).isPoisoned l = false) ∧ (machine {}).fields = [] ∧
    (3 ∈ (failing 3).badChannels ∧ 4 ∉ (failing 3).badChannels ∧ (∃ b ∈ (failing 3).badChannels, b / 8 = 4 / 8) ∧ 4 / 8 ∉ (machine {}).deadGroups) ∧
    (∀ b ∈ (machine {}).badChannels, b / 8 ≠ 4 / 8) ∧ ([1, 2, 3] : List (BitVec 512))[1]? = some 2 ∧
    ((machine {}).columns.length = 2 ∧ ({ machine {} with phase := .open_ } : State).phase = .open_ ∧ (machine {}).phase ≠ .open_) ∧
    (∃ c ∈ (machine {}).columns.getD 0 [], c < 8 ∧ c / 2 ≠ 1) ∧ (∀ c ∈ [2, 3], ¬ (c < 8 ∧ c / 2 ≠ 1)) ∧ (0 ∈ [0, 1] ∧ 5 ∉ [0, 1]) ∧ ¬ (1 ≤ 256 ∧ 256 ≤ 255) :=
  ⟨by decide +kernel, by decide +kernel, by unfold failing; rfl, ⟨_, List.mem_singleton.mpr rfl, otherChannel_of_group⟩,
    fun h => h.elim (fun _ h => h.2.2 (List.mem_singleton.mp h.1)), fun _ => rfl,
    by decide, ⟨by decide, by decide, by decide, by decide⟩, by decide, rfl, ⟨by decide, by decide, by decide⟩, by decide, by decide, by decide, by decide⟩

/-- A field whose node owns the page of line 8. -/
theorem witness_poisoned_nodes : (rooted (.gpin 1 ⟨2, 0, 0⟩)).fieldOf 0 2 = some treeField ∧
    Claims.owns { treeField with pool := [0, 21, 22] } (aNode 1 .ready [0, 0, 0, 0]) (fun pg => pg = 0x200 / 65536) :=
  ⟨by decide +kernel, 0, by decide, by decide⟩

/-- A row whose errors have reached the threshold, and one whose errors have not. With the first, a bank has spare
rows or none, whichever the part has, and one of the two clauses on repairs holds. -/
theorem witness_repairs (bank : Nat) :
    (({ machine {} with rowErrors := [((bank, 3), 8)] } : State).threshold ≤ Claims.errors { machine {} with rowErrors := [((bank, 3), 8)] } bank 3) ∧
    (¬ (machine {}).threshold ≤ Claims.errors (machine {}) bank 3) ∧
    ((machine {}).remaps.countP (fun r => r.1 == bank) < Config.spareRows bank ∨
      Config.spareRows bank ≤ (machine {}).remaps.countP (fun r => r.1 == bank)) :=
  ⟨by simp [Claims.errors, machine], by simp [Claims.errors, machine], Nat.lt_or_ge _ _⟩

/-- An open part and one that is not, every count of units at the ends of its range, the steps of frequency, and the
hottest stead and one that is not. -/
theorem witness_bring_up : ({ machine {} with phase := .open_ } : State).phase = .open_ ∧ (List.replicate 32 (0 : Byte)).length = 32 ∧
    (machine {}).phase ≠ .open_ ∧ (machine {}).telemetry.length = 16 ∧ (machine {}).points.length = (machine {}).caps.steads ∧
    (1 ≤ 12 ∧ 12 ≤ 12 ∧ 1 ≤ 64 ∧ 64 ≤ 64 ∧ (1 : Nat) ≤ 1) ∧
    0 < (machine {}).caps.steads ∧ (1200 ≤ 3600 ∧ 3600 ≤ 3600 ∧ 3600 % 100 = 0 ∧ 750 % 5 = 0) ∧
    (7 ≤ 14 ∧ 10 * 14 - 40 ≤ 109 ∧ 109 < 10 * 14 - 30) ∧
    (∀ i < (machine {}).caps.steads, i ≠ 0 → ((machine {}).points.getD i {}).tempC ≤ 101) ∧
    ¬ (∀ i < ({ machine {} with points := List.replicate 12 { tempC := 120 } } : State).caps.steads, i ≠ 0 →
      (({ machine {} with points := List.replicate 12 { tempC := 120 } } : State).points.getD i {}).tempC ≤ 101) ∧
    (({} : OpPoint).capMhz < ({ reqMhz := 3600, capMhz := 3500 } : OpPoint).reqMhz ∨ ({ reqMhz := 3600, capMhz := 3500 } : OpPoint).capMhz < 3600) := by decide

/-- A frequency and a voltage that the part allows or denies, whatever its floor is: one of the two clauses holds. -/
theorem witness_operating_points (mhz mv : Nat) : Config.voltageFloor mhz ≤ mv ∨ ¬ Config.voltageFloor mhz ≤ mv := Decidable.em _

/-- An image whose signature is good or bad: one of the two clauses on power-up holds. -/
theorem witness_images (image : List Byte) : Config.signatureValid image = true ∨ Config.signatureValid image = false := by
  cases Config.signatureValid image <;> simp

/-- Host writes of whole bytes, with poison in their way and without. -/
theorem witness_host_accesses : Memory.wf (machine {}).mem = true ∧ (machine {}).meetsPoison [0x200] true = [] ∧
    ({ machine {} with poisoned := [8] } : State).meetsPoison [0x200] true ≠ [] := ⟨by decide, by decide +kernel, by decide +kernel⟩

/-- One block exported at far address 0, open or gated by bin 3. -/
def exportOf (gated : Bool) : Export :=
  { part := 0, base := 0, low := BitVec.ofNat 64 (1 + 2 ^ 63 + (if gated then 2 ^ 62 else 0) + 3 * 2 ^ 58 + 5 * 2 ^ 32) }

/-- A partition that exports one block at far address 0 on tier 1, open or gated by bin 3. -/
def exporting (gated : Bool) : State :=
  { machine {} with parts := [(0, { exists_ := true })], exports := [(1, exportOf gated)]
                    held := [{ id := 4, part := 0, bin := 3, req := { tenant := 0, tier := 1, block := 0, off := 0x200, op := .write [7] }, since := 0 }] }

/-- Writes held for a bin whose header at 0x40 has one entry and the head of ticket 0, which they have reached, and a
fold held for it. -/
def holding (op : RemoteOp) : State :=
  { machine {} [(0x48, 1)] with
    parts := [(0, { exists_ := true, record := { nq := 1, bins := 0x40 } })], exports := [(1, exportOf false)]
    held := [{ id := 4, part := 0, bin := 0, req := { tenant := 0, tier := 1, block := 0, off := 0x200, op := op }, since := 0 }] }

theorem witness_held_accesses : (holding (.write [7])).ticketOpen 0 0 0 = true ∧ (holding (.write [7])).opById 4 = none ∧
    (holding (.write [7])).jobs = [] ∧ (holding (.write [7])).schedWrites = [] ∧ Memory.wf (holding (.write [7])).mem = true ∧
    Claims.Exported (holding (.write [7])) { tenant := 0, tier := 1, block := 0, off := 0x200, op := .write [7] } 1 0 (exportOf false) 0x200 ∧
    (holding (.write [7])).accessAt ⟨0, 0⟩ 0x200 1 0 .wr = .ok [0x200] ∧ (holding (.write [7])).meetsPoison [0x200] false = [] ∧
    Claims.Exported (holding (.fold 3 7)) { tenant := 0, tier := 1, block := 0, off := 0x200, op := .fold 3 7 } 4 0 (exportOf false) 0x200 ∧
    (holding (.fold 3 7)).accessAt ⟨0, 0⟩ 0x200 4 0 .fold = .ok [0x200, 0x201, 0x202, 0x203] ∧
    ({ holding (.write [7]) with poisoned := [8] } : State).meetsPoison [0x200] false ≠ [] :=
  ⟨by decide +kernel, by decide +kernel, by decide, by decide, by decide, ⟨rfl, by decide +kernel, by decide, by decide +kernel⟩, by decide +kernel,
    by decide +kernel, ⟨rfl, by decide +kernel, by decide, by decide +kernel⟩, by decide +kernel, by decide +kernel⟩

theorem witness_remote_accesses :
    (∃ e, Claims.Exported (exporting false) { tenant := 0, tier := 1, block := 0, off := 0x200, op := .write [7] } 1 0 e 0x200 ∧
      Claims.gateOpen (exporting false) { tenant := 0, tier := 1, block := 0, off := 0x200, op := .write [7] } 0 e) ∧
    (∃ e, Claims.Exported (exporting true) { tenant := 0, tier := 1, block := 0, off := 0x200, op := .write [7] } 1 0 e 0x200 ∧
      ¬ Claims.gateOpen (exporting true) { tenant := 0, tier := 1, block := 0, off := 0x200, op := .write [7] } 0 e) ∧
    (exporting false).accessAt ⟨0, 0⟩ 0x200 1 0 .wr = .ok [0x200] ∧ (exporting false).accessAt ⟨0, 0⟩ 0x200 4 0 .fold = .ok [0x200, 0x201, 0x202, 0x203] ∧
    Fmt.ofCode (3 : BitVec 6).toNat = some .s32 ∧ Fmt.s32.bytes ≠ 0 ∧
    (∃ w, (exporting false).held.find? (·.id == 4) = some w ∧ w.expired = false ∧
      alookup (exporting false).exports (8 * w.req.tenant + w.req.tier) = some (exportOf false) ∧ w.since + 1000 * 5 ≤ 5000 ∧ (exporting false).time < w.since + 1000 * 5 ∧
      (exporting false).held.countP (·.id == w.id) = 1) :=
  ⟨⟨exportOf false, ⟨rfl, by decide +kernel, by decide, by decide +kernel⟩, .inl (by decide +kernel)⟩,
    ⟨exportOf true, ⟨rfl, by decide +kernel, by decide, by decide +kernel⟩, by unfold Claims.gateOpen; decide +kernel⟩,
    by decide +kernel, by decide +kernel, by decide, by decide, _, rfl, by decide, by decide +kernel, by decide, by decide +kernel, by decide +kernel⟩

/-- A partition of an open part, with two pages in the device pool. -/
def hosting : State :=
  { machine {} with phase := .open_, pool := [30, 31], parts := [(0, { exists_ := true, record := { htab := 0 } })] }

/-- A field record of two pages. -/
def twoPages : FieldRec := { g := 2, nodes := 4, pages := 2, view := 0x1000 }

/-- The field that it makes. -/
def hostedField (r : FieldRec) : GField := { tenant := 0, num := 2, part := 0, record := r }

/-- A record that is taken and one that is refused; a field that can be created, and one whose record is bad, whose
number is taken, that asks for too many pages, or whose view cannot be written; one to remove, and one of an earlier
tenant. -/
theorem witness_partitions : hosting.phase = .open_ ∧ hosting.caps.steads ≤ 12 ∧ (hosting.partAt 0).exists_ = true ∧ (hosting.partAt 0).hostQueue.length < 256 ∧
    (2 ≤ twoPages.g ∧ twoPages.g ≤ 8 ∧ twoPages.home ≤ 1 ∧ 1 ≤ twoPages.nodes ∧ twoPages.nodes ≤ 2 ^ 20 ∧ twoPages.pages < 2 ^ 32 ∧
      twoPages.view.toNat % 128 = 0 ∧ twoPages.view.toNat < 2 ^ 60 ∧ ∀ z ∈ twoPages.zeros, z = 0) ∧
    hosting.fieldOf 0 2 = none ∧ twoPages.pages ≤ hosting.pool.length ∧
    (hosting.viewPlaces (hostedField twoPages) 0 (128 * 5 + 64)).toOption = some ((List.range 704).map (0x1000 + ·)) ∧
    (¬ 1 ≤ ({ twoPages with nodes := 0 } : FieldRec).nodes ∧ ¬ (∀ z ∈ ({ twoPages with zeros := [1] } : FieldRec).zeros, z = 0) ∧
      asking.fieldOf 0 2 ≠ none ∧ hosting.pool.length < ({ twoPages with pages := 3 } : FieldRec).pages ∧
      (hosting.viewPlaces (hostedField { twoPages with view := 0x20000 }) 0 (128 * 5 + 64)).toOption = none) ∧
    (∃ g, asking.fieldOf 0 2 = some g ∧ g.part = 0) ∧
    ((∃ g, ({ hosting with fields := [{ oneField with tenant := 7 }] } : State).fields.find? (fun k => k.part == 0 && k.num == 2) = some g) ∧
      ∀ k ∈ ({ hosting with fields := [{ oneField with tenant := 7 }] } : State).fields, k.part = 0 → k.num = 2 → k.tenant ≠ 0) := by
  refine ⟨by decide, by decide, by decide +kernel, by decide +kernel, by decide, by decide +kernel, by decide, by decide +kernel,
    ⟨by decide, by decide, by decide +kernel, by decide, by decide +kernel⟩, ⟨_, rfl, rfl⟩, ⟨_, rfl⟩, by decide +kernel⟩

/-- A record whose fields all lie in their ranges. -/
def goodRecord : PartRec :=
  { hfloor := 0, hceil := 1, target := 1, qfloor := List.replicate 12 1, qceil := List.replicate 12 64, rows := List.replicate 12 0, slice := 1, weight := 1 }

/-- The floors of no stead are too many with it. -/
theorem goodRecord_floors : ∀ st < 12, ¬ 64 < goodRecord.qfloor.getD st 0 +
    ((hosting.partIds.filter (· != 0)).map (fun q => (hosting.partAt q).record.qfloor.getD st 0)).sum := by decide +kernel

theorem goodRecord_harts : ¬ 192 < 0 + ((hosting.partIds.filter (· != 0)).map (fun q => (hosting.partAt q).record.hfloor)).sum := by decide +kernel

/-- Each field of it, but for the weight w, is in its range. -/
theorem goodRecord_ranges (w off : Nat) (h : Claims.outOfRange hosting { goodRecord with weight := w } false off) : off = 32 ∧ (w < 1 ∨ 65535 < w) := by
  rcases h with ⟨-, h⟩ | ⟨-, h⟩ | ⟨-, h⟩ | ⟨-, h⟩ | ⟨-, h⟩ | ⟨-, h⟩ | h | ⟨-, h⟩ | ⟨i, hi, -, h⟩ | ⟨i, hi, -, h⟩ | ⟨i, hi, -, h⟩ | ⟨j, -, h⟩
  · exact absurd h (by decide : ¬ goodRecord.zeros.getD 0 0 ≠ 0)
  · exact absurd h (by decide : ¬ 4095 < goodRecord.tenant)
  · exact absurd h (by decide : ¬ goodRecord.hceil < goodRecord.hfloor)
  · exact absurd h (by decide : ¬ (goodRecord.hceil < goodRecord.hfloor ∨ goodRecord.hceil < 1 ∨ 192 < goodRecord.hceil))
  · exact absurd h (by decide : ¬ 2 ^ 32 ≤ goodRecord.quota)
  · exact absurd h (by decide : ¬ 2 ^ 32 ≤ goodRecord.target)
  · exact h
  · exact absurd h (by decide : ¬ (goodRecord.slice < 1 ∨ 65535 < goodRecord.slice))
  · exact absurd h ((by decide : ∀ i < 12, ¬ 64 < goodRecord.qfloor.getD i 0) i hi)
  · exact absurd h ((by decide : ∀ i < 12, ¬ (goodRecord.qceil.getD i 0 < goodRecord.qfloor.getD i 0 ∨ goodRecord.qceil.getD i 0 < 1 ∨
      64 < goodRecord.qceil.getD i 0)) i hi)
  · exact absurd h ((by decide : ∀ i < 12, ¬ 12 < goodRecord.rows.getD i 0) i hi)
  · exact absurd (by simp [goodRecord]) h

/-- A record of the host that is taken; one whose ceiling is too high; one whose weight is 0, as its first fault, at
byte 32; and one of the supervisor with a misaligned table. -/
theorem witness_records : (∀ why, ¬ Claims.Refuses hosting 0 goodRecord false why) ∧ Claims.Refuses hosting 0 { goodRecord with hceil := 200 } false 3 ∧
    Claims.Refuses hosting 0 { goodRecord with weight := 0 } false (4 + 256 * 32) ∧ Claims.Refuses hosting 0 { goodRecord with htab := 1 } true 4 := by
  refine ⟨?_, .inr ⟨fun st h => goodRecord_floors st h.2.1 h.2.2, .inr (.inl ⟨fun h => goodRecord_harts h.2, ⟨rfl, by decide⟩, rfl⟩)⟩,
    .inr ⟨fun st h => goodRecord_floors st h.2.1 h.2.2, .inr (.inr ⟨32, fun h => goodRecord_harts h.2, fun h => absurd h.2 (by decide), ?_, fun o ho h => ?_, rfl⟩)⟩,
    .inr ⟨fun st h => absurd h.1 (by decide), .inr (.inr ⟨0, fun h => absurd h.1 (by decide), fun h => absurd h.1 (by decide), .inl ⟨rfl, .inl (by decide)⟩,
      fun o ho => absurd ho (Nat.not_lt_zero o), rfl⟩)⟩⟩
  · rintro why (⟨st, h, -⟩ | ⟨-, ⟨h, -⟩ | ⟨-, h, -⟩ | ⟨off, -, -, h, -⟩⟩)
    · exact goodRecord_floors st h.2.1 h.2.2
    · exact goodRecord_harts h.2
    · exact absurd h.2 (by decide)
    · exact absurd (goodRecord_ranges 1 off h).2 (by decide)
  · exact .inr (.inr (.inr (.inr (.inr (.inr (.inl ⟨rfl, .inl (by decide)⟩))))))
  · exact absurd (goodRecord_ranges 0 o h).1 (Nat.ne_of_lt ho)

/-- A page that an access in flight pins and one that none does; an invalidation asked for; a page to scrub; a pin of
the partition on a field that can be written, for its end. -/
theorem witness_pages :
    (machine { vq := [{ rid := 1, serial := 0, lanes := 4, what := .load 1 .s32, todo := [], pins := [⟨3, 1, 5, 1⟩] }] }).pagePinned 0 true 5 = true ∧
    (machine {}).pagePinned 0 true 5 = false ∧ ((0, true, 5) ∈ ({ machine {} with invals := [(0, true, 5)] } : State).invals ∧ (0, true, 5) ∉ (machine {}).invals) ∧
    (5 ∈ ({ machine {} with scrub := [5] } : State).scrub ∧ 5 ∉ (machine {}).scrub) ∧ Memory.wf (machine {}).mem = true ∧
    ((rooted (.gpin 1 ⟨2, 0, 0⟩)).partAt 0).exists_ = true ∧ (∀ f ∈ (rooted (.gpin 1 ⟨2, 0, 0⟩)).fields, ∀ n ∈ f.pins, n.part ≠ 0) ∧
    ((rooted (.gpin 1 ⟨2, 0, 0⟩)).commit { treeField with pins := [{ node := 1, part := 0, seq := 0 }] } treeField).toOption.isSome = true :=
  ⟨by decide +kernel, by decide +kernel, ⟨by decide, by decide⟩, ⟨by decide, by decide⟩, by decide, by decide +kernel, by decide +kernel, by decide +kernel⟩

/- The machine. -/

/-- A hart whose control stream is next, with the word of `ADDI x3, x0, 1` at its program counter. -/
def fetchable : State := (State.reset).withFetchWord 32 0x08600001

/-- A load that has retired and not performed. -/
def loading : State := machine { sbuf := [{ kind := .load 3 32 false 4, pa := [0x100], bytes := [], release := false, serial := 0, bound := 1 }] }

theorem witness_step : Claims.ControlNext fetchable ∧ Claims.Passes (.addi 3 0 1) (Claims.inControl fetchable) ∧
    ¬ Claims.Passes .yield loading ∧
    (Claims.inControl fetchable).fetchBytes 0 0 4 = .ok [0x01, 0x00, 0x60, 0x08] ∧ decodeControl (ofBytes [0x01, 0x00, 0x60, 0x08]) = .ok (.addi 3 0 1) ∧
    (∃ e, decodeControl 0 = .error e) ∧ (∃ e, (machine {}).fetchBytes 0 0x10000 4 = .error e) :=
  ⟨⟨.inl ⟨by decide +kernel, by decide +kernel⟩, ⟨by decide +kernel, by decide +kernel, by decide +kernel⟩, by decide +kernel, by decide +kernel⟩,
    ⟨by decide +kernel, .inl (by decide +kernel)⟩, fun h => h.2.elim (fun h => absurd h (by decide +kernel)) (by decide),
    by decide +kernel, by decide, ⟨_, rfl⟩, ⟨.xfault, 0x10000, []⟩, by decide +kernel⟩

/-- A block whose sequencer is next, with `VNOP` as its word. -/
def blockFetchable : State := (State.reset).withFetchWord 64 0x0200000000000000

/-- An access in flight whose word has completed. -/
theorem witness_flight : ∀ r ∈ [({ rid := 1, serial := 0, lanes := 4, what := .load 1 .s32, todo := [] } : FarRun)], r.last = none := by decide

theorem witness_block_step : (∃ b, Claims.BlockNext blockFetchable b ∧
      (Claims.inBlocks blockFetchable).fetchBytes 0 b.pos 8 = .ok [0, 0, 0, 0, 0, 0, 0, 2] ∧ (b.pos - b.addr).toNat / 8 ≠ 255 ∧ b.convoy = 0 ∧
      (Claims.inBlocks blockFetchable).hart.vq = [] ∧
      (Claims.inBlocks blockFetchable).blockWord b b.pos = .ok (.vnop false) ∧
      unitsFit (((Claims.inBlocks blockFetchable).convoyFrom b 256 b.pos).map (unitsOf (Claims.inBlocks blockFetchable).hart)) = true) ∧
    decodeBlock (ofBytes [0, 0, 0, 0, 0, 0, 0, 2]) = .ok (.vnop false) ∧ (∃ e, decodeBlock 0 = .error e) ∧
    unitsFit ((List.replicate 9 (Instr.vfadd {} 1 2 3)).map (unitsOf {})) = false ∧ Claims.Unobstructed (Claims.inBlocks blockFetchable) :=
  ⟨⟨_, ⟨.inr ⟨[], by decide +kernel⟩, ⟨by decide +kernel, by decide +kernel, by decide +kernel, by decide +kernel⟩, rfl⟩, by decide +kernel, by decide +kernel,
    by decide +kernel, by decide +kernel, by decide +kernel, by decide +kernel⟩,
    by decide, ⟨_, rfl⟩, by decide +kernel, by decide +kernel, by decide +kernel, by decide +kernel⟩

/-- The invariants hold at reset, and a step is taken from there. -/
theorem witness_invariants : Memory.wf State.reset.mem = true ∧ State.reset.ModesLegal ∧ State.reset.CodeAligned ∧ (∃ t, step State.reset = .next t) :=
  ⟨by decide, ⟨⟨by decide, by decide, by decide⟩, fun _ h => nomatch h⟩,
    ⟨⟨⟨by decide, by decide, by decide, by decide, by decide⟩, fun _ h => nomatch h⟩, fun _ h => (nomatch h), fun _ h => (nomatch h)⟩, _, rfl⟩

theorem witness_words : (Instr.addi 7 7 0xFFFF).wf = true ∧ encode (.addi 7 7 0xFFFF) = some (32, 0x08E7FFFF) ∧ decodeControl 0x08E7FFFF = .ok (.addi 7 7 0xFFFF) ∧
    decodeBlock 0x0100000000000000 = .ok .vstop := by decide

end Sys2Proof.Tests
end

