-- ==== Sys2Proof/Proofs/ModesAndAlignment.lean ====
section
/-!
Every step keeps legal levels and aligned code addresses (R21, R134, R179, R180, R183). `State.Sound κ` is the
invariant, for levels or for code addresses as κ says; for each function f of the model that answers a state, an
outcome, a hart, a partition or a farm there is a lemma `f_sound`: what f answers is sound when what it is given is.
The lemmas stand in the order of the model's definitions, and each follows the branches of its function.
-/

namespace Sys2Proof.Machine

/- One lemma after another: a compile then needs few threads. -/
set_option Elab.async false

/-- The two invariants. They are kept apart, since a state may satisfy one alone. -/
inductive Kept where
  | modes | code

/-- A code address that is a multiple of 4, when code addresses are at issue. -/
def Aligned (κ : Kept) (a : Word) : Prop := κ = .code → a.toNat % 4 = 0

/-- A legal level (R179), when levels are at issue. -/
def Legal (κ : Kept) (n : Nat) : Prop := κ = .modes → n ≤ 1

/-- A bank of trap registers saves an address and a level. -/
def TrapBank.Sound (κ : Kept) (b : TrapBank) : Prop := Aligned κ b.epc ∧ Legal κ (b.estatus &&& 3).toNat

/-- What the invariant says of a hart, from the fields it looks at alone. -/
def SoundFields (κ : Kept) (pc vfret : Word) (b0 b1 : TrapBank) (level : Nat) : Prop :=
  Aligned κ pc ∧ Aligned κ vfret ∧ Aligned κ b0.tvec ∧ b0.Sound κ ∧ b1.Sound κ ∧ Legal κ level

def Hart.Sound (κ : Kept) (h : Hart) : Prop := SoundFields κ h.pc h.vfret h.bank0 h.bank1 h.level
def Part.Sound (κ : Kept) (v : Part) : Prop := Aligned κ v.stvec
def Farm.Sound (κ : Kept) (g : Farm) : Prop := Aligned κ g.entry

def HartsSound (κ : Kept) (l : List (Nat × Hart)) : Prop := ∀ e ∈ l, e.2.Sound κ
def PartsSound (κ : Kept) (l : List (Nat × Part)) : Prop := ∀ e ∈ l, e.2.Sound κ
def FarmsSound (κ : Kept) (l : List Farm) : Prop := ∀ g ∈ l, g.Sound κ

/-- The invariant: of every hart, every partition and every farm. -/
def State.Sound (κ : Kept) (s : State) : Prop :=
  s.hart.Sound κ ∧ HartsSound κ s.others ∧ PartsSound κ s.parts ∧ FarmsSound κ s.farms

/-- The invariant of an outcome's next state. -/
def Out.Sound (κ : Kept) (o : Out) : Prop :=
  match o with
  | .next t => t.Sound κ
  | _ => True

/-- P holds of what an option holds. -/
def OptionSound {α : Type} (P : α → Prop) (o : Option α) : Prop :=
  match o with
  | none => True
  | some a => P a

/-- P holds of a result that is no error. -/
def ExceptSound {ε α : Type} (P : α → Prop) (o : Except ε α) : Prop :=
  match o with
  | .error _ => True
  | .ok a => P a

variable {κ : Kept} {s t : State} {h : Hart} {v : Part} {g : Farm}

@[simp] theorem State.sound_mk {
    hart cur others mem poisoned deadGroups healed toldPoison scrub over1 over2 pool clk time sclk sclkWas
    ticket sheaves lines fetches debts ops parts farms fields jobs transit held schedWrites outbox exports
    pinWait invals rereads caps columns threshold remaps rowErrors badChannels points telemetry log phase
    bringupStatus refusedFields report agenda pace delay draw nextId} :
    State.Sound κ (State.mk
    hart cur others mem poisoned deadGroups healed toldPoison scrub over1 over2 pool clk time sclk sclkWas
    ticket sheaves lines fetches debts ops parts farms fields jobs transit held schedWrites outbox exports
    pinWait invals rereads caps columns threshold remaps rowErrors badChannels points telemetry log phase
    bringupStatus refusedFields report agenda pace delay draw nextId) ↔
      hart.Sound κ ∧ HartsSound κ others ∧ PartsSound κ parts ∧ FarmsSound κ farms := Iff.rfl

@[simp] theorem Hart.sound_mk {
    pc x v p k z hreg laneTab laneMask queue grant rowBase rowCount cells marks farm stripId holdsStrip part
    vstart startHeld vla vfret ropepart fmtdef frm fflags nwin ntEn ntHost nthr ncnt bank0 bank1 level engev
    events lost dbg retcount lanecyc sinceDispatch pending failedX status ending sleepAddr sleepPas sleepCmp
    resumeNext owed since needsReserved asked preempted owedX gangWait advs barcount barWaiting exiting sbuf
    vq early trapWait nextSerial ctlStall seqStall} :
    Hart.Sound κ (Hart.mk
    pc x v p k z hreg laneTab laneMask queue grant rowBase rowCount cells marks farm stripId holdsStrip part
    vstart startHeld vla vfret ropepart fmtdef frm fflags nwin ntEn ntHost nthr ncnt bank0 bank1 level engev
    events lost dbg retcount lanecyc sinceDispatch pending failedX status ending sleepAddr sleepPas sleepCmp
    resumeNext owed since needsReserved asked preempted owedX gangWait advs barcount barWaiting exiting sbuf
    vq early trapWait nextSerial ctlStall seqStall) ↔
      SoundFields κ pc vfret bank0 bank1 level := Iff.rfl

@[simp] theorem Part.sound_mk {
    exists_ record tdeleg stvec budget slots nextFarm stripsNow msNow stripsPrev seqs pages events policy bins
    order sliceStart idleAt hostQueue hostTail hostDrop hostVector gbind} :
    Part.Sound κ (Part.mk
    exists_ record tdeleg stvec budget slots nextFarm stripsNow msNow stripsPrev seqs pages events policy bins
    order sliceStart idleAt hostQueue hostTail hostDrop hostVector gbind) ↔
      Aligned κ stvec := Iff.rfl

@[simp] theorem Farm.sound_mk {
    part id entry arg batch hmin hmax gang bin trips z done started stead fromBin harts exited nextStrip
    closed stopped op} :
    Farm.Sound κ (Farm.mk
    part id entry arg batch hmin hmax gang bin trips z done started stead fromBin harts exited nextStrip
    closed stopped op) ↔
      Aligned κ entry := Iff.rfl

@[simp] theorem soundFields_self : SoundFields κ h.pc h.vfret h.bank0 h.bank1 h.level ↔ h.Sound κ := Iff.rfl

@[simp] theorem Out.sound_next : Out.Sound κ (.next s) ↔ s.Sound κ := Iff.rfl
@[simp] theorem Out.sound_fault (f : Fault) : Out.Sound κ (.fault f) := trivial
@[simp] theorem Out.sound_refused (r : Refusal) : Out.Sound κ (.refused r) := trivial

@[simp] theorem optionSound_none {α : Type} {P : α → Prop} : OptionSound P none := trivial
@[simp] theorem optionSound_some {α : Type} {P : α → Prop} {a : α} : OptionSound P (some a) ↔ P a := Iff.rfl
@[simp] theorem exceptSound_error {ε α : Type} {P : α → Prop} {e : ε} : ExceptSound P (.error e) := trivial
@[simp] theorem exceptSound_ok {ε α : Type} {P : α → Prop} {a : α} : ExceptSound (ε := ε) P (.ok a) ↔ P a := Iff.rfl

theorem ite_holds {α : Sort _} {P : α → Prop} {c : Prop} [Decidable c] {a b : α} (ha : P a) (hb : P b) :
    P (if c then a else b) := by
  split <;> assumption

theorem OptionSound.get {α : Type} {P : α → Prop} {o : Option α} {a : α} (h : OptionSound P o) (e : o = some a) :
    P a := by
  rw [e] at h; exact h

theorem ExceptSound.get {ε α : Type} {P : α → Prop} {o : Except ε α} {a : α} (h : ExceptSound P o) (e : o = .ok a) :
    P a := by
  rw [e] at h; exact h

theorem OptionSound.getD {α : Type} {P : α → Prop} {o : Option α} {a : α} (h : OptionSound P o) (ha : P a) :
    P (o.getD a) := by
  cases o with
  | none => exact ha
  | some b => exact h

theorem OptionSound.map {α β : Type} {P : α → Prop} {Q : β → Prop} {o : Option α} {f : α → β} (h : OptionSound P o)
    (hf : ∀ a, P a → Q (f a)) : OptionSound Q (o.map f) := by
  cases o with
  | none => trivial
  | some b => exact hf b h

theorem OptionSound.bind {α β : Type} {P : α → Prop} {Q : β → Prop} {o : Option α} {f : α → Option β}
    (h : OptionSound P o) (hf : ∀ a, P a → OptionSound Q (f a)) : OptionSound Q (o.bind f) := by
  cases o with
  | none => trivial
  | some b => exact hf b h

/- Code addresses and levels. -/

@[simp] theorem aligned_wordAddr (a : Word) : Aligned κ (wordAddr a) := fun _ => by
  have h := Nat.and_mod_two_pow (a := a.toNat) (b := 0x01FFFFFFFFFFFFFC) (n := 2)
  simpa [wordAddr] using h

theorem Aligned.add {a b : Word} (ha : Aligned κ a) (hb : Aligned κ b) : Aligned κ (a + b) := fun e => by
  have := ha e
  have := hb e
  rw [BitVec.toNat_add]
  omega

theorem aligned_shift (w : Word) : Aligned κ (w <<< 2) := fun _ => by
  rw [BitVec.toNat_shiftLeft, Nat.shiftLeft_eq]
  omega

@[simp] theorem aligned_four : Aligned κ 4 := fun _ => rfl
@[simp] theorem aligned_zero : Aligned κ 0 := fun _ => rfl

@[simp] theorem Aligned.add_four {a : Word} (ha : Aligned κ a) : Aligned κ (a + 4) := ha.add aligned_four

theorem legal_entryStatus {n : Nat} (h : Legal κ n) (ib nest : Bool) (d : BitVec 2) :
    Legal κ (entryStatus n ib nest d &&& 3).toNat := fun e => by
  have hn := h e
  have hm := Nat.and_two_pow_sub_one_eq_mod
    ((n + 8 + (if ib then 16 else 0) + (if nest then 32 else 0) + 64 * d.toNat) % 2 ^ 64) 2
  simp only [Nat.reducePow, Nat.reduceSub] at hm
  have h1 : (if ib then 16 else 0) % 4 = 0 := by split <;> rfl
  have h2 : (if nest then 32 else 0) % 4 = 0 := by split <;> rfl
  rw [entryStatus, BitVec.toNat_and, BitVec.toNat_ofNat]
  change _ &&& 3 ≤ 1
  rw [hm]
  omega

theorem legal_estatusWrite {old : Word} {l : Nat} (v : Word) (ho : Legal κ (old &&& 3).toNat) (hl : Legal κ l) :
    Legal κ (estatusWrite old v l &&& 3).toNat := fun e => by
  have key (p : Word) : (((old &&& ~~~0xC3#64) ||| (v &&& 0xC0) ||| (p &&& 3)) &&& 3) = p &&& 3 := by
    have hc : ((~~~0xC3#64 : Word) &&& 3) = 0 ∧ ((0xC0 : Word) &&& 3) = 0 := by decide
    rw [BitVec.and_or_distrib_right, BitVec.and_or_distrib_right, BitVec.and_assoc, hc.1, BitVec.and_assoc, hc.2,
      BitVec.and_assoc]
    simp
  have := ho e
  have := hl e
  unfold estatusWrite
  dsimp only
  split
  · rw [key]; assumption
  · rw [key]; omega

/- Reading the state. -/

@[simp] theorem Hart.Sound.pc (hh : h.Sound κ) : Aligned κ h.pc := hh.1
@[simp] theorem Hart.Sound.vfret (hh : h.Sound κ) : Aligned κ h.vfret := hh.2.1
@[simp] theorem Hart.Sound.tvec (hh : h.Sound κ) : Aligned κ h.bank0.tvec := hh.2.2.1
@[simp] theorem Hart.Sound.bank0 (hh : h.Sound κ) : h.bank0.Sound κ := hh.2.2.2.1
@[simp] theorem Hart.Sound.bank1 (hh : h.Sound κ) : h.bank1.Sound κ := hh.2.2.2.2.1
@[simp] theorem Hart.Sound.level (hh : h.Sound κ) : Legal κ h.level := hh.2.2.2.2.2

@[simp] theorem State.Sound.hart (hs : s.Sound κ) : s.hart.Sound κ := hs.1
@[simp] theorem State.Sound.others (hs : s.Sound κ) : HartsSound κ s.others := hs.2.1
@[simp] theorem State.Sound.parts (hs : s.Sound κ) : PartsSound κ s.parts := hs.2.2.1
@[simp] theorem State.Sound.farms (hs : s.Sound κ) : FarmsSound κ s.farms := hs.2.2.2

@[simp] theorem Part.Sound.stvec (hv : v.Sound κ) : Aligned κ v.stvec := hv
@[simp] theorem Farm.Sound.entry (hg : g.Sound κ) : Aligned κ g.entry := hg

@[simp] theorem Hart.sound_reset : Hart.reset.Sound κ :=
  ⟨aligned_zero, aligned_zero, aligned_zero, ⟨aligned_zero, fun _ => by decide⟩, ⟨aligned_zero, fun _ => by decide⟩,
    fun _ => by decide⟩

theorem HartsSound.alookup {l : List (Nat × Hart)} (hl : HartsSound κ l) (k : Nat) :
    ((alookup l k).getD Hart.reset).Sound κ := by
  induction l with
  | nil => exact Hart.sound_reset
  | cons e l ih =>
    have ⟨he, hl⟩ := List.forall_mem_cons.1 hl
    unfold Machine.alookup
    split
    · exact he
    · exact ih hl

theorem PartsSound.alookup {l : List (Nat × Part)} (hl : PartsSound κ l) (k : Nat) :
    ((alookup l k).getD {}).Sound κ := by
  induction l with
  | nil => exact aligned_zero
  | cons e l ih =>
    have ⟨he, hl⟩ := List.forall_mem_cons.1 hl
    unfold Machine.alookup
    split
    · exact he
    · exact ih hl

@[simp] theorem State.Sound.hartAt (hs : s.Sound κ) (n : Nat) : (s.hartAt n).Sound κ := by
  unfold State.hartAt
  split
  · exact hs.hart
  · exact hs.others.alookup n

@[simp] theorem State.Sound.partAt (hs : s.Sound κ) (p : Nat) : (s.partAt p).Sound κ := hs.parts.alookup p

theorem State.Sound.farmAt (hs : s.Sound κ) {p f : Nat} (hg : s.farmAt p f = some g) : g.Sound κ :=
  hs.farms g (List.mem_of_find?_eq_some hg)

/- Writing the state. -/

theorem forall_mem_ainsert {α : Type} {P : α → Prop} {l : List (Nat × α)} (hl : ∀ e ∈ l, P e.2) (k : Nat) {a : α}
    (ha : P a) : ∀ e ∈ ainsert l k a, P e.2 := by
  induction l with
  | nil => simpa [ainsert] using ha
  | cons e l ih =>
    have ⟨he, hl⟩ := List.forall_mem_cons.1 hl
    unfold ainsert
    split
    · exact List.forall_mem_cons.2 ⟨ha, List.forall_mem_cons.2 ⟨he, hl⟩⟩
    · split
      · exact List.forall_mem_cons.2 ⟨ha, hl⟩
      · exact List.forall_mem_cons.2 ⟨he, ih hl⟩

@[simp] theorem HartsSound.ainsert {l : List (Nat × Hart)} (hl : HartsSound κ l) (k : Nat) (hh : h.Sound κ) :
    HartsSound κ (ainsert l k h) := forall_mem_ainsert hl k hh

@[simp] theorem HartsSound.aerase {l : List (Nat × Hart)} (hl : HartsSound κ l) (k : Nat) :
    HartsSound κ (aerase l k) := fun e he => hl e (List.mem_of_mem_filter he)

@[simp] theorem HartsSound.map {l : List (Nat × Hart)} (hl : HartsSound κ l) {f : Nat × Hart → Nat × Hart}
    (hf : ∀ e : Nat × Hart, e.2.Sound κ → (f e).2.Sound κ) : HartsSound κ (l.map f) :=
  List.forall_mem_map.2 fun e he => hf e (hl e he)

@[simp] theorem PartsSound.ainsert {l : List (Nat × Part)} (hl : PartsSound κ l) (k : Nat) (hv : v.Sound κ) :
    PartsSound κ (ainsert l k v) := forall_mem_ainsert hl k hv

@[simp] theorem FarmsSound.filter {l : List Farm} (hl : FarmsSound κ l) (f : Farm → Bool) : FarmsSound κ (l.filter f) :=
  fun g hg => hl g (List.mem_of_mem_filter hg)

@[simp] theorem FarmsSound.map {l : List Farm} (hl : FarmsSound κ l) {f : Farm → Farm}
    (hf : ∀ g : Farm, g.Sound κ → (f g).Sound κ) : FarmsSound κ (l.map f) :=
  List.forall_mem_map.2 fun g hg => hf g (hl g hg)

@[simp] theorem FarmsSound.append {l : List Farm} (hl : FarmsSound κ l) (hg : g.Sound κ) : FarmsSound κ (l ++ [g]) := by
  simpa [FarmsSound, or_imp, forall_and] using ⟨hl, hg⟩

@[simp] theorem State.withHart_sound (hs : s.Sound κ) (hh : h.Sound κ) : (s.withHart h).Sound κ :=
  ⟨hh, hs.others, hs.parts, hs.farms⟩

@[simp] theorem State.setHartAt_sound (hs : s.Sound κ) (n : Nat) (hh : h.Sound κ) : (s.setHartAt n h).Sound κ := by
  unfold State.setHartAt
  split
  · exact ⟨hh, hs.others, hs.parts, hs.farms⟩
  · exact ⟨hs.hart, hs.others.ainsert n hh, hs.parts, hs.farms⟩

@[simp] theorem State.setPartAt_sound (hs : s.Sound κ) (p : Nat) (hv : v.Sound κ) : (s.setPartAt p v).Sound κ :=
  ⟨hs.hart, hs.others, hs.parts.ainsert p hv, hs.farms⟩

@[simp] theorem State.setFarm_sound (hs : s.Sound κ) (hg : g.Sound κ) : (s.setFarm g).Sound κ :=
  ⟨hs.hart, hs.others, hs.parts, hs.farms.map fun k hk => by split <;> assumption⟩

@[simp] theorem State.switchTo_sound (hs : s.Sound κ) (n : Nat) : (s.switchTo n).Sound κ := by
  unfold State.switchTo
  split
  · exact hs
  · exact ⟨hs.hartAt n, (hs.others.aerase n).ainsert s.cur hs.hart, hs.parts, hs.farms⟩

theorem foldl_sound {α : Type} {l : List α} {f : State → α → State} (hs : s.Sound κ)
    (hf : ∀ t a, t.Sound κ → (f t a).Sound κ) : (l.foldl f s).Sound κ := by
  induction l generalizing s with
  | nil => exact hs
  | cons a l ih => exact ih (hf s a hs)

theorem State.fresh_sound (hs : s.Sound κ) : s.fresh.2.Sound κ := hs


/- A part, a context or the running hart that is edited in fields of no concern here. -/

theorem State.editPart_sound {p : Nat} (hs : s.Sound κ) (e : v.stvec = (s.partAt p).stvec := by dsimp only) :
    (s.setPartAt p v).Sound κ :=
  State.setPartAt_sound hs p (show Aligned κ v.stvec from e ▸ hs.partAt p)

/-- What the invariant says of a hart. -/
theorem Hart.Sound.of_fields {k : Hart} (hh : k.Sound κ)
    (e : (h.pc, h.vfret, h.bank0, h.bank1, h.level) = (k.pc, k.vfret, k.bank0, k.bank1, k.level)) : h.Sound κ := by
  simp only [Prod.mk.injEq] at e
  obtain ⟨hpc, hvfret, hbank0, hbank1, hlevel⟩ := e
  unfold Hart.Sound
  rw [hpc, hvfret, hbank0, hbank1, hlevel]
  exact hh

theorem State.editHartAt_sound {n : Nat} (hs : s.Sound κ)
    (e : (h.pc, h.vfret, h.bank0, h.bank1, h.level) = ((s.hartAt n).pc, (s.hartAt n).vfret, (s.hartAt n).bank0,
      (s.hartAt n).bank1, (s.hartAt n).level) := by dsimp only) : (s.setHartAt n h).Sound κ :=
  State.setHartAt_sound hs n ((hs.hartAt n).of_fields e)

theorem State.editHart_sound (hs : s.Sound κ)
    (e : (h.pc, h.vfret, h.bank0, h.bank1, h.level) =
      (s.hart.pc, s.hart.vfret, s.hart.bank0, s.hart.bank1, s.hart.level) := by dsimp only) : (s.withHart h).Sound κ :=
  State.withHart_sound hs (hs.hart.of_fields e)

theorem Hart.windowed_sound {before after : Nat} (hh : h.Sound κ) : (h.windowed before after).Sound κ := by
  unfold Hart.windowed
  split <;> exact hh

theorem Hart.ticked_sound {before after : Nat} (hh : h.Sound κ) : (h.ticked before after).Sound κ := by
  unfold Hart.ticked
  dsimp only
  split <;> exact Hart.windowed_sound hh

theorem State.advance_sound {n : Nat} (hs : s.Sound κ) : (s.advance n).Sound κ :=
  ⟨Hart.ticked_sound hs.hart, hs.others.map fun _ he => Hart.ticked_sound he, hs.parts, hs.farms⟩

theorem State.tick_sound (hs : s.Sound κ) : s.tick.Sound κ := by
  unfold State.tick
  exact State.advance_sound hs

theorem State.unstalled_sound (hs : s.Sound κ) : s.unstalled.Sound κ :=
  ⟨hs.hart, hs.others.map fun _ he => he, hs.parts, hs.farms⟩

theorem afterTurn_sound {stalled : Hart → Bool} {o : Out} (ho : Out.Sound κ o) :
    Out.Sound κ (afterTurn stalled o) := by
  unfold afterTurn
  split
  · split
    · exact ho
    · exact State.unstalled_sound ho
  · exact ho
  · exact ho

theorem stallCtl_sound (hs : s.Sound κ) : Out.Sound κ (stallCtl s) := by
  unfold stallCtl
  exact State.withHart_sound hs hs.hart

theorem State.stopFarm_sound {p f : Nat} (hs : s.Sound κ) : (s.stopFarm p f).Sound κ := by
  unfold State.stopFarm
  split
  · exact hs
  have hm : State.Sound κ { s with farms := s.farms.map (fun g =>
      if g.part == p && g.id == f then { g with stopped := true } else g) } :=
    ⟨hs.hart, hs.others, hs.parts, hs.farms.map fun g hg => by split <;> exact hg⟩
  exact foldl_sound hm fun t n ht => State.setHartAt_sound ht n (ht.hartAt n)

theorem State.postHost_sound {p : Nat} {r : HostRecord} (hs : s.Sound κ) : (s.postHost p r).Sound κ := by
  unfold State.postHost
  dsimp only
  split <;> exact State.setPartAt_sound hs _ (hs.partAt _)

theorem State.halt_sound {c : Cause} (hs : s.Sound κ) : (s.halt c).Sound κ := by
  unfold State.halt
  exact State.stopFarm_sound (State.postHost_sound (State.withHart_sound hs hs.hart))

/-- A trap saves the position as a word address, goes to a vector base, and saves and takes a legal level (R180, R182,
R183). -/
theorem State.takeTrap_sound {c : Cause} {ev epc : Word} {inblk : Bool} {vst : Nat} (hs : s.Sound κ) :
    (s.takeTrap c ev epc inblk vst).Sound κ := by
  have hh := hs.hart
  have saved (nest : Bool) : Aligned κ (wordAddr epc) ∧
      Legal κ (entryStatus s.hart.level inblk nest s.hart.dbg &&& 3).toNat :=
    ⟨aligned_wordAddr epc, legal_entryStatus hh.level _ _ _⟩
  have legal (n : Nat) (hn : n ≤ 1) : Legal κ n := fun _ => hn
  have handling : Legal κ (s.handlingLevel c) := by
    unfold State.handlingLevel
    exact ite_holds (legal 0 (by decide)) (legal 1 (by decide))
  unfold State.takeTrap
  refine ite_holds (State.halt_sound hs) (State.withHart_sound hs ⟨?pc, ?vfret, ?tvec, ?bank0, ?bank1, ?level⟩)
  case pc => exact ite_holds hh.tvec (hs.partAt _).stvec
  case vfret => exact ite_holds (aligned_wordAddr _) hh.vfret
  case tvec => exact ite_holds (P := fun b : TrapBank => Aligned κ b.tvec) hh.tvec hh.tvec
  case bank0 => exact ite_holds (saved _) hh.bank0
  case bank1 => exact ite_holds (saved _) hh.bank1
  case level => exact ite_holds (legal 1 (by decide)) handling

theorem deliverEngine_sound (hs : s.Sound κ) : Out.Sound κ (deliverEngine s) := by
  unfold deliverEngine
  dsimp only
  split
  · exact stallCtl_sound hs
  split
  · exact State.takeTrap_sound (State.withHart_sound hs hs.hart)
  · exact stallCtl_sound hs

theorem reading_sound {rs : List Reg} {k : Out} (hs : s.Sound κ) (hk : Out.Sound κ k) :
    Out.Sound κ (reading rs s k) := by
  unfold reading
  split
  · exact stallCtl_sound hs
  split
  · exact deliverEngine_sound hs
  · exact hk

theorem State.trapCtl_sound {c : Cause} {ev epc : Word} (hs : s.Sound κ) : (s.trapCtl c ev epc).Sound κ := by
  unfold State.trapCtl
  dsimp only
  split
  · exact State.takeTrap_sound hs
  · exact State.withHart_sound hs hs.hart

theorem State.goTo_sound {next : Word} {n : Nat} (hs : s.Sound κ) (hn : Aligned κ next) :
    State.Sound κ { s with hart := { s.hart with pc := next, retcount := n } } :=
  State.withHart_sound hs ⟨hn, hs.hart.2⟩

/-- An instruction that goes on at an aligned address keeps the invariant. -/
theorem State.retireStep_sound {step : Bool} {next : Word} (hs : s.Sound κ) (hn : Aligned κ next) :
    (s.retireStep step next).Sound κ := by
  unfold State.retireStep
  dsimp only
  split
  · exact State.trapCtl_sound (State.goTo_sound hs hn)
  · exact State.goTo_sound hs hn

theorem State.retireTo_sound {next : Word} (hs : s.Sound κ) (hn : Aligned κ next) : (s.retireTo next).Sound κ :=
  State.retireStep_sound hs hn

theorem retire_sound (hs : s.Sound κ) : Out.Sound κ (retire s) := State.retireTo_sound hs hs.hart.pc.add_four

theorem Hart.wr_sound {r : Reg} {x : Word} (hh : h.Sound κ) : (h.wr r x).Sound κ := by
  unfold Hart.wr
  split <;> exact hh

theorem retireWith_sound {d : Reg} {x : Word} (hs : s.Sound κ) : Out.Sound κ (retireWith s d x) := by
  unfold retireWith
  exact retire_sound (State.withHart_sound hs (Hart.wr_sound hs.hart))

theorem alu2_sound {op : (n : Nat) → BitVec n → BitVec n → BitVec n} {d a b : Reg} {w : Bool} (hs : s.Sound κ) :
    Out.Sound κ (alu2 op d a b w s) := by
  unfold alu2
  exact reading_sound hs (retireWith_sound hs)

theorem alu1_sound {op : (n : Nat) → BitVec n → BitVec n} {d a : Reg} {w : Bool} (hs : s.Sound κ) :
    Out.Sound κ (alu1 op d a w s) := by
  unfold alu1
  exact reading_sound hs (retireWith_sound hs)

theorem aluImm_sound {op : Word → Word} {d a : Reg} (hs : s.Sound κ) : Out.Sound κ (aluImm op d a s) := by
  unfold aluImm
  exact reading_sound hs (retireWith_sound hs)

theorem faultAt_sound {c : Cause} {ev : Word} (hs : s.Sound κ) : Out.Sound κ (faultAt s c ev) := by
  unfold faultAt
  exact State.trapCtl_sound hs

theorem illegalWord_sound {w : Nat} (hs : s.Sound κ) : Out.Sound κ (illegalWord s w) := by
  unfold illegalWord
  exact faultAt_sound hs

theorem withMode_sound {i : Instr} {m : Rm} {k : Nat → Out} (hs : s.Sound κ) (hk : ∀ n, Out.Sound κ (k n)) :
    Out.Sound κ (withMode i m s k) := by
  unfold withMode
  split
  · exact hk _
  · exact illegalWord_sound hs

theorem Hart.accrueFlags_sound {fs : List Flags} (hh : h.Sound κ) : (h.accrueFlags fs).Sound κ := by
  unfold Hart.accrueFlags
  exact hh

theorem State.accrue_sound {fs : List Flags} (hs : s.Sound κ) : (s.accrue fs).1.Sound κ := by
  have ha : (s.hart.accrueFlags fs).Sound κ := Hart.accrueFlags_sound hs.hart
  exact foldl_sound (State.withHart_sound hs ha) fun _ _ => State.postHost_sound

theorem retireFlags_sound {d : Reg} {x : Word} {f : Flags} (hs : s.Sound κ) : Out.Sound κ (retireFlags s d x f) := by
  have ha := State.accrue_sound (fs := [f]) hs
  have ht := State.withHart_sound ha (Hart.wr_sound (r := d) (x := x) ha.hart)
  unfold retireFlags
  dsimp only
  split
  · exact retire_sound ht
  · exact State.trapCtl_sound (State.goTo_sound ht ht.hart.pc.add_four)

theorem retireRound_sound {f : Fmt} {mode : Nat} {d : Reg} {w : Val} {fl : Flags} (hs : s.Sound κ) :
    Out.Sound κ (retireRound s f mode d w fl) := by
  unfold retireRound
  exact retireFlags_sound hs

theorem farith_sound {i : Instr} {op : Bool → Val → Val → Val × Flags} {p : Prec} {m : Rm} {d a b : Reg}
    (hs : s.Sound κ) : Out.Sound κ (farith i op p m d a b s) := by
  unfold farith
  exact reading_sound hs (withMode_sound hs (fun _ => retireRound_sound hs))

theorem fchoose_sound {max : Bool} {p : Prec} {d a b : Reg} (hs : s.Sound κ) :
    Out.Sound κ (fchoose max p d a b s) := by
  unfold fchoose
  exact reading_sound hs (retireFlags_sound hs)

theorem fcompare_sound {anyNan : Bool} {test : Int → Bool} {p : Prec} {d a b : Reg} (hs : s.Sound κ) :
    Out.Sound κ (fcompare anyNan test p d a b s) := by
  unfold fcompare
  exact reading_sound hs (retireFlags_sound hs)

theorem fmaOp_sound {i : Instr} {p : Prec} {np nc : Bool} {m : Rm} {d a b c : Reg} (hs : s.Sound κ) :
    Out.Sound κ (fmaOp i p np nc m d a b c s) := by
  unfold fmaOp
  exact reading_sound hs (withMode_sound hs (fun _ => retireRound_sound hs))

theorem State.tellPoison_sound {p h : Nat} {lines : List Nat} (hs : s.Sound κ) : (s.tellPoison p h lines).Sound κ :=
  foldl_sound hs fun _ _ ht => ite_holds ht (State.postHost_sound ht)

theorem State.tellStage2_sound {p n : Nat} {e : Fail} (hs : s.Sound κ) : (s.tellStage2 p n e).Sound κ := by
  unfold State.tellStage2
  split
  · exact State.postHost_sound hs
  · exact hs

theorem State.tellFault_sound {p n : Nat} {e : Fail} (hs : s.Sound κ) : (s.tellFault p n e).Sound κ := by
  unfold State.tellFault
  exact State.tellPoison_sound (State.tellStage2_sound hs)

theorem faultAccess_sound {e : Fail} (hs : s.Sound κ) : Out.Sound κ (faultAccess s e) := by
  unfold faultAccess
  exact faultAt_sound (State.tellFault_sound hs)

theorem execLd_sound {z : Size} {sx x : Bool} {d a : Reg} {off : BitVec 12} (hs : s.Sound κ) :
    Out.Sound κ (execLd z sx x d a off s) := by
  unfold execLd
  dsimp only
  refine reading_sound hs ?_
  split
  · exact stallCtl_sound hs
  split
  · exact faultAccess_sound hs
  · exact retireWith_sound hs

theorem State.scrubbed_sound {pg : Nat} (hs : s.Sound κ) : (s.scrubbed pg).Sound κ := by
  unfold State.scrubbed
  split <;> exact hs

theorem State.setByte_sound {pa : Nat} {b : Byte} (hs : s.Sound κ) : (s.setByte pa b).Sound κ := by
  unfold State.setByte
  exact State.scrubbed_sound hs

theorem State.writeAll_sound {pas : List Nat} {bs : List Byte} (hs : s.Sound κ) : (s.writeAll pas bs).Sound κ := by
  induction pas generalizing s bs with
  | nil => exact hs
  | cons pa pas ih =>
    cases bs with
    | nil => exact hs
    | cons b bs => exact ih (State.setByte_sound hs)

theorem State.cleanse_sound {ls : List Nat} (hs : s.Sound κ) : (s.cleanse ls).Sound κ := by
  unfold State.cleanse
  exact hs

theorem State.store_sound {pas : List Nat} {bs : List Byte} (hs : s.Sound κ) : (s.store pas bs).Sound κ := by
  unfold State.store
  dsimp only
  split
  · exact State.writeAll_sound hs
  · exact State.cleanse_sound (State.writeAll_sound hs)

theorem Hart.answer_sound {d : Reg} {oid : Nat} {x : Word} {failed : Bool} (hh : h.Sound κ) :
    (h.answer d oid x failed).Sound κ := by
  unfold Hart.answer
  split <;> exact hh

theorem State.drain_sound {i : Nat} (hs : s.Sound κ) : (s.drain i).Sound κ := by
  have hr {l : List Pending} : State.Sound κ { s with hart := { s.hart with sbuf := l } } := State.editHart_sound hs
  unfold State.drain
  dsimp only
  split
  · exact hs
  split
  · exact State.store_sound hr
  · exact hr
  · exact State.withHart_sound hr (Hart.answer_sound hr.hart)
  · have hw (o : Option Nat) {pas : List Nat} {n : Nat} {l : List Pending} : State.Sound κ (match o with
        | some v => ({ s with hart := { s.hart with sbuf := l } } : State).writeAll pas (toBytes n v)
        | none => { s with hart := { s.hart with sbuf := l } }) := by
      cases o with
      | none => exact hr
      | some v => exact State.writeAll_sound hr
    exact State.withHart_sound (hw _) (Hart.answer_sound (hw _).hart)

theorem State.buffer_sound {pas : List Nat} {bs : List Byte} {rel : Bool} (hs : s.Sound κ) :
    (s.buffer pas bs rel).Sound κ := by
  unfold State.buffer
  dsimp only
  split
  · exact State.drain_sound (State.withHart_sound hs hs.hart)
  · exact State.withHart_sound hs hs.hart

theorem execSt_sound {z : Size} {rel : Bool} {d a : Reg} {off : BitVec 12} (hs : s.Sound κ) :
    Out.Sound κ (execSt z rel d a off s) := by
  unfold execSt
  dsimp only
  refine reading_sound hs ?_
  split
  · exact stallCtl_sound hs
  split
  · exact faultAccess_sound hs
  · exact retire_sound (State.buffer_sound hs)

theorem execAmo_sound {op : AmoOp} {dword : Bool} {ord : AmoOrder} {x : Scope} {d a b : Reg} (hs : s.Sound κ) :
    Out.Sound κ (execAmo op dword ord x d a b s) := by
  unfold execAmo
  dsimp only
  refine reading_sound hs ?_
  split
  · split
    · exact stallCtl_sound hs
    split
    · exact faultAccess_sound hs
    split
    · exact stallCtl_sound hs
    refine retireWith_sound ?_
    split
    · split
      · exact State.writeAll_sound hs
      · exact hs
    split
    · exact State.writeAll_sound hs
    · exact hs
  split
  · exact stallCtl_sound hs
  split
  · exact faultAccess_sound hs
  split
  · exact stallCtl_sound hs
  refine retireWith_sound ?_
  split
  · split
    · exact State.writeAll_sound hs
    · exact hs
  split
  · exact State.writeAll_sound hs
  · exact hs

theorem synchronise_sound {k : Out} (hs : s.Sound κ) (hk : Out.Sound κ k) : Out.Sound κ (synchronise s k) := by
  unfold synchronise
  split
  · exact deliverEngine_sound hs
  · exact hk

theorem execFence_sound {kind : FenceKind} {x : Scope} (hs : s.Sound κ) : Out.Sound κ (execFence kind x s) := by
  unfold execFence
  refine synchronise_sound hs ?_
  split
  · split
    · exact retire_sound hs
    · exact stallCtl_sound hs
  · split
    · exact retire_sound hs
    · exact stallCtl_sound hs
  · split
    · exact retire_sound hs
    · exact stallCtl_sound hs
  split
  · exact retire_sound hs
  · exact stallCtl_sound hs

theorem State.Sound.target {n : Nat} {off : BitVec n} (hs : s.Sound κ) : Aligned κ (s.target off) :=
  hs.hart.pc.add (aligned_shift _)

theorem branch_sound {c : Word → Word → Bool} {a b : Reg} {off : BitVec 16} (hs : s.Sound κ) :
    Out.Sound κ (branch c a b off s) := by
  refine reading_sound hs (State.retireTo_sound hs ?_)
  split
  · exact hs.target
  · exact hs.hart.pc.add_four

theorem execJal_sound {d : Reg} {off : BitVec 21} (hs : s.Sound κ) : Out.Sound κ (execJal d off s) :=
  State.retireTo_sound (State.withHart_sound hs (Hart.wr_sound hs.hart)) hs.target

theorem execJalr_sound {d a : Reg} {imm : BitVec 16} (hs : s.Sound κ) : Out.Sound κ (execJalr d a imm s) := by
  refine reading_sound hs ?_
  dsimp only
  split
  · exact faultAt_sound hs
  case isFalse h =>
    exact State.retireTo_sound (State.withHart_sound hs (Hart.wr_sound hs.hart)) fun _ => not_ne_iff.1 h

theorem Hart.queueBlock_sound {a : Word} {bound : Nat} (hh : h.Sound κ) : (h.queueBlock a bound).Sound κ := by
  unfold Hart.queueBlock
  exact hh

theorem handOffBlock_sound {a : Word} (hs : s.Sound κ) : Out.Sound κ (handOffBlock a s) := by
  unfold handOffBlock
  split
  · exact faultAt_sound hs
  split
  · exact stallCtl_sound hs
  · exact retire_sound (State.withHart_sound hs (Hart.queueBlock_sound hs.hart))

theorem Hart.emptyAll_sound (hh : h.Sound κ) : (h.emptyAll).Sound κ := by
  unfold Hart.emptyAll
  exact hh

theorem State.wakeGang_sound {g : Farm} (hs : s.Sound κ) : (s.wakeGang g).Sound κ := by
  unfold State.wakeGang
  split
  · exact foldl_sound hs fun t n ht => State.setHartAt_sound ht n (ht.hartAt n)
  · exact hs

theorem State.serveFree_sound {st n : Nat} (hs : s.Sound κ) : (s.serveFree st n).Sound κ := by
  induction n generalizing s with
  | zero => exact hs
  | succ n ih =>
    unfold State.serveFree
    split
    · exact ih (State.setHartAt_sound hs _ (hs.hartAt _))
    · exact hs

theorem State.allot_sound {st : Nat} (hs : s.Sound κ) : (s.allot st).Sound κ := by
  unfold State.allot
  exact foldl_sound (State.serveFree_sound hs) fun _ _ => State.wakeGang_sound

theorem State.serveWaiting_sound {p st : Nat} {qs : List Nat} (hs : s.Sound κ) : (s.serveWaiting p st qs).Sound κ := by
  induction qs generalizing s with
  | nil => exact hs
  | cons q qs ih =>
    unfold State.serveWaiting
    split
    · exact hs
    · exact ih (State.setHartAt_sound hs _ (hs.hartAt _))

theorem State.quadsBack_sound {p st : Nat} {qs : List Nat} (hs : s.Sound κ) : (s.quadsBack p st qs).Sound κ := by
  unfold State.quadsBack
  exact State.allot_sound (State.serveWaiting_sound hs)

theorem execSetl_sound {d a : Reg} {fmt : BitVec 6} {keep : Bool} (hs : s.Sound κ) :
    Out.Sound κ (execSetl d a fmt keep s) := by
  unfold execSetl
  dsimp only
  refine reading_sound hs ?_
  split
  · exact faultAt_sound hs
  split
  · exact retireWith_sound hs
  split
  · exact stallCtl_sound hs
  split
  · exact retireWith_sound hs
  · exact retireWith_sound (State.quadsBack_sound (State.withHart_sound hs (Hart.emptyAll_sound hs.hart)))

theorem execVget_sound {d a : Reg} {fmt : BitVec 5} {va : VIx} (hs : s.Sound κ) :
    Out.Sound κ (execVget d a fmt va s) := by
  unfold execVget
  dsimp only
  refine reading_sound hs ?_
  split
  · exact faultAt_sound hs
  split
  · exact stallCtl_sound hs
  · exact retireWith_sound hs

theorem State.setSheaf_sound {sh : Sheaf} (hs : s.Sound κ) : (s.setSheaf sh).Sound κ := by
  unfold State.setSheaf
  exact hs

theorem State.queueOrder_sound {sid adv : Nat} {final : Bool} (hs : s.Sound κ) :
    (s.queueOrder sid adv final).Sound κ := by
  unfold State.queueOrder
  dsimp only
  split
  · exact hs
  · exact State.setSheaf_sound (State.fresh_sound hs)

theorem State.clearReg_sound {n r : Nat} (hs : s.Sound κ) : (s.clearReg n r).Sound κ := by
  unfold State.clearReg
  dsimp only
  split
  · exact hs
  · exact State.editHartAt_sound (State.queueOrder_sound hs)

theorem State.loadSheaf_sound {r : Nat} {key : Word} {d : Desc} (hs : s.Sound κ) : (s.loadSheaf r key d).Sound κ := by
  unfold State.loadSheaf
  dsimp only
  split
  · exact State.editHart_sound (State.fresh_sound hs)
  · exact State.queueOrder_sound (State.editHart_sound (State.fresh_sound hs))

theorem execHset_sound {d : Reg} {r : HIx} {a : Reg} (hs : s.Sound κ) : Out.Sound κ (execHset d r a s) := by
  unfold execHset
  dsimp only
  refine reading_sound hs ?_
  split
  · exact stallCtl_sound hs
  split
  · exact stallCtl_sound (State.clearReg_sound hs)
  split
  · exact faultAccess_sound (State.clearReg_sound hs)
  split
  · exact faultAt_sound (State.clearReg_sound hs)
  split
  · exact faultAccess_sound (State.clearReg_sound hs)
  split
  · exact stallCtl_sound (State.clearReg_sound hs)
  split
  · split
    · exact faultAt_sound (State.clearReg_sound hs)
    · exact retireWith_sound (State.clearReg_sound hs)
  · exact retireWith_sound (State.loadSheaf_sound (State.clearReg_sound hs))

theorem execHclr_sound {r : HIx} (hs : s.Sound κ) : Out.Sound κ (execHclr r s) := by
  unfold execHclr
  split
  · exact stallCtl_sound hs
  · exact retire_sound (State.clearReg_sound hs)

theorem State.changeCounters_sound {cs : Vector Counter 8} {changed : Nat → Bool} {adv : Nat} (hs : s.Sound κ) :
    (s.changeCounters cs changed adv).Sound κ := by
  refine foldl_sound (State.editHart_sound hs) fun t _ ht => ?_
  split
  · exact ite_holds (State.queueOrder_sound ht) ht
  · exact ht

theorem execAdv_sound {k : KIx} (hs : s.Sound κ) : Out.Sound κ (execAdv k s) := by
  unfold execAdv
  dsimp only
  split
  · exact stallCtl_sound hs
  · refine retire_sound (State.editHart_sound ?_)
    exact State.changeCounters_sound (State.fresh_sound hs)

theorem execKset_sound {k : KIx} {a b : Reg} {target : Option KIx} (hs : s.Sound κ) :
    Out.Sound κ (execKset k a b target s) := by
  unfold execKset
  dsimp only
  refine reading_sound hs ?_
  split
  · split
    · exact retire_sound hs
    · exact retire_sound (State.changeCounters_sound (State.fresh_sound hs))
  split
  · exact retire_sound hs
  · exact retire_sound (State.changeCounters_sound (State.fresh_sound hs))

theorem State.mapLine_sound {st : Nat} {k : LineKey} {f : Line → Line} (hs : s.Sound κ) :
    (s.mapLine st k f).Sound κ := by
  unfold State.mapLine
  exact hs

theorem State.spillFrom_sound {st : Nat} {k : LineKey} {next : Bool} {m : BitVec 64} (hs : s.Sound κ) :
    (s.spillFrom st k next m).1.Sound κ := by
  unfold State.spillFrom
  dsimp only
  split
  · exact hs
  split
  · exact hs
  split
  · exact hs
  · exact State.mapLine_sound hs

theorem State.issueLine_sound {sh : Sheaf} {k : LineKey} {oid adv : Nat} (hs : s.Sound κ) :
    (s.issueLine sh k oid adv).Sound κ := by
  unfold State.issueLine
  dsimp only
  split
  · exact hs
  refine foldl_sound ?_ fun _ _ => State.fresh_sound
  split
  · exact State.spillFrom_sound (State.spillFrom_sound (State.mapLine_sound hs))
  · exact State.mapLine_sound hs

theorem State.flushSheaf_sound {sh : Sheaf} (hs : s.Sound κ) : (s.flushSheaf sh).Sound κ := by
  unfold State.flushSheaf
  dsimp only
  split
  · exact foldl_sound (State.fresh_sound hs) fun _ _ => State.issueLine_sound
  · exact hs

theorem execHflush_sound {r : HIx} (hs : s.Sound κ) : Out.Sound κ (execHflush r s) := by
  unfold execHflush
  split
  · exact stallCtl_sound hs
  split
  · exact retire_sound hs
  · exact retire_sound (State.flushSheaf_sound hs)

theorem execHwait_sound {r : HIx} (hs : s.Sound κ) : Out.Sound κ (execHwait r s) := by
  unfold execHwait
  dsimp only
  split
  · exact stallCtl_sound hs
  refine synchronise_sound hs ?_
  split
  · exact retire_sound hs
  split
  · exact stallCtl_sound hs
  · split
    · exact stallCtl_sound hs
    · exact retire_sound hs
  split
  · exact stallCtl_sound hs
  · exact faultAt_sound hs

theorem execMatt_sound {d a : Reg} (hs : s.Sound κ) : Out.Sound κ (execMatt d a s) := by
  unfold execMatt
  dsimp only
  refine reading_sound hs ?_
  split
  · exact faultAt_sound hs
  split
  · exact faultAt_sound hs
  · exact retireWith_sound (State.withHart_sound hs hs.hart)

theorem Hart.releaseRows_sound (hh : h.Sound κ) : (h.releaseRows).Sound κ := by
  unfold Hart.releaseRows
  exact hh

theorem execMdet_sound (hs : s.Sound κ) : Out.Sound κ (execMdet s) := by
  unfold execMdet
  split
  · exact stallCtl_sound hs
  · exact retire_sound (State.withHart_sound hs (Hart.releaseRows_sound hs.hart))

theorem Hart.owe_sound {d : Reg} {oid : Nat} (hh : h.Sound κ) : (h.owe d oid).Sound κ := by
  unfold Hart.owe
  split <;> exact hh

theorem handOff_sound {d : Reg} {k : OpKind} (hs : s.Sound κ) : Out.Sound κ (handOff d k s) := by
  unfold handOff
  dsimp only
  split
  · exact stallCtl_sound hs
  · exact retire_sound (State.withHart_sound (State.fresh_sound hs) (Hart.owe_sound ((State.fresh_sound hs).hart)))

theorem execLaunch_sound {d a : Reg} (hs : s.Sound κ) : Out.Sound κ (execLaunch d a s) := by
  unfold execLaunch
  dsimp only
  refine reading_sound hs ?_
  split
  · exact stallCtl_sound hs
  split
  · exact faultAccess_sound hs
  · exact handOff_sound hs

theorem State.setSlot_sound {n : Nat} {z : ZIx} {q : Slot} (hs : s.Sound κ) : (s.setSlot n z q).Sound κ := by
  unfold State.setSlot
  exact State.setHartAt_sound hs _ (hs.hartAt _)

theorem State.closePair_sound {n : Nat} {z : ZIx} (hs : s.Sound κ) : (s.closePair n z).Sound κ := by
  unfold State.closePair
  dsimp only
  split
  · exact State.setSlot_sound hs
  · exact hs

theorem State.returnCredit_sound {sender : Nat} {z : ZIx} {receiver : Nat} {y : ZIx} {n : Nat} (hs : s.Sound κ) :
    (s.returnCredit sender z receiver y n).Sound κ := by
  unfold State.returnCredit
  dsimp only
  split
  · split
    · exact State.editHartAt_sound (State.setSlot_sound hs)
    · exact hs
  · exact hs

theorem State.closeReceive_sound {n : Nat} {z : ZIx} (hs : s.Sound κ) : (s.closeReceive n z).Sound κ := by
  unfold State.closeReceive
  dsimp only
  split
  · exact State.returnCredit_sound (State.setSlot_sound hs)
  · exact hs

theorem State.postPolicy_sound {p : Nat} {e : PolEvent} (hs : s.Sound κ) : (s.postPolicy p e).Sound κ := by
  unfold State.postPolicy
  exact State.setPartAt_sound hs _ (hs.partAt _)

theorem Hart.queueEvent_sound {e : EngineEvent} (hh : h.Sound κ) : (h.queueEvent e).Sound κ := by
  unfold Hart.queueEvent
  split <;> exact hh

theorem State.queueEvent_sound {n : Nat} {e : EngineEvent} (hs : s.Sound κ) : (s.queueEvent n e).Sound κ := by
  unfold State.queueEvent
  exact State.postPolicy_sound (State.setHartAt_sound hs _ (Hart.queueEvent_sound (hs.hartAt _)))

theorem State.sendFlit_sound {n : Nat} {z : ZIx} {m : Nat} {y : ZIx} {f : Flit} (hs : s.Sound κ) :
    (s.sendFlit n z m y f).Sound κ := by
  unfold State.sendFlit
  exact State.setSlot_sound hs

/-- What has become of a slot that closes. -/
def Closing.Sound (κ : Kept) (c : Closing) : Prop :=
  match c with
  | .done t => t.Sound κ
  | .waits => True

theorem Closing.Sound.done {c : Closing} (h : c.Sound κ) (e : c = .done t) : t.Sound κ := by
  rw [e] at h; exact h

theorem State.closeSlot_sound {n : Nat} {z : ZIx} (hs : s.Sound κ) : (s.closeSlot n z).Sound κ := by
  unfold State.closeSlot
  dsimp only
  split
  · exact hs
  · trivial
  · exact State.closePair_sound hs
  · exact State.closeReceive_sound hs
  split
  · split
    · trivial
    show State.Sound κ (if _ then _ else _)
    split
    · exact State.setSlot_sound hs
    · exact State.queueEvent_sound (State.setSlot_sound hs)
  · split
    · trivial
    split
    · exact State.setSlot_sound hs
    · exact State.setSlot_sound (State.sendFlit_sound hs)
  · split
    · exact State.setSlot_sound hs
    · trivial

theorem State.closeSlots_sound {zs : List ZIx} (hs : s.Sound κ) : (s.closeSlots zs).1.Sound κ := by
  induction zs generalizing s with
  | nil => exact hs
  | cons z zs ih =>
    unfold State.closeSlots
    split
    next u he => exact ih ((State.closeSlot_sound hs).done he)
    split
    · exact ih (State.setSlot_sound hs)
    · exact ih hs

theorem State.setBudget_sound {p st b : Nat} (hs : s.Sound κ) : (s.setBudget p st b).Sound κ := by
  unfold State.setBudget
  exact State.allot_sound (State.setPartAt_sound hs _ (hs.partAt _))

theorem State.budgetStep_sound {st : Nat} (hs : s.Sound κ) : (s.budgetStep st).Sound κ := by
  unfold State.budgetStep
  dsimp only
  split
  · split
    · exact hs
    · exact State.setBudget_sound hs
  split
  · split
    · exact State.setBudget_sound (State.setBudget_sound hs)
    · exact hs
  · exact hs

theorem State.countStrip_sound {p : Nat} (hs : s.Sound κ) : (s.countStrip p).Sound κ := by
  unfold State.countStrip
  dsimp only
  refine State.setPartAt_sound hs _ ?_
  split <;> exact hs.partAt _

/-- A farm that takes the place of one of the state with the same entry. -/
theorem State.replaceFarm_sound {p f : Nat} {k : Farm} (hs : s.Sound κ) (hg : s.farmAt p f = some g)
    (he : k.entry = g.entry) : (s.setFarm k).Sound κ :=
  State.setFarm_sound hs (show Aligned κ k.entry from he ▸ hs.farmAt hg)

theorem State.closeStrip_sound (hs : s.Sound κ) : s.closeStrip.Sound κ := by
  unfold State.closeStrip
  dsimp only
  split
  · refine State.budgetStep_sound (State.countStrip_sound ?_)
    split
    next g hg => exact State.withHart_sound (State.replaceFarm_sound hs hg rfl) hs.hart
    · exact State.withHart_sound hs hs.hart
  · exact hs

theorem State.giveBack_sound {n : Nat} {status : Status} (hs : s.Sound κ) : (s.giveBack n status).Sound κ := by
  unfold State.giveBack
  exact State.quadsBack_sound (State.setHartAt_sound hs _ (hs.hartAt _))

theorem State.dropSlot_sound {p st : Nat} (hs : s.Sound κ) : (s.dropSlot p st).Sound κ := by
  unfold State.dropSlot
  dsimp only
  split
  · exact hs
  · exact State.setPartAt_sound hs _ (hs.partAt _)

theorem State.settleBudget_sound {p st : Nat} (hs : s.Sound κ) : (s.settleBudget p st).Sound κ := by
  unfold State.settleBudget
  dsimp only
  split
  · split
    · exact hs
    · exact State.setBudget_sound hs
  split
  · exact hs
  · exact State.setBudget_sound hs

theorem State.leaveFarm_sound {p f n : Nat} (hs : s.Sound κ) :
    State.Sound κ (match s.farmAt p f with
      | some g =>
        if g.harts.contains n then s.setFarm { g with harts := g.harts.filter (· != n), exited := g.exited ++ [n] }
        else s
      | none => s) := by
  split
  next g hg => exact ite_holds (State.replaceFarm_sound hs hg rfl) hs
  · exact hs

theorem Hart.sound_ended (p : Nat) : Hart.Sound κ { Hart.reset with status := .ended, grant := 0, part := p } := by
  unfold Hart.Sound
  exact Hart.sound_reset
theorem State.unpinned_sound {l : List Nat} (hs : s.Sound κ) : State.Sound κ { s with pinWait := l } := hs

theorem State.endHart_sound (hs : s.Sound κ) : s.endHart.Sound κ := by
  have hg : (s.giveBack s.cur .ended).Sound κ := State.giveBack_sound hs
  have h1 := State.setHartAt_sound
    (State.unpinned_sound (l := (s.giveBack s.cur .ended).pinWait.filter (· != s.cur)) hg)
    s.cur (Hart.sound_ended s.hart.part)
  unfold State.endHart
  refine State.dropSlot_sound (State.settleBudget_sound (foldl_sound ?_ fun _ _ ht => State.wakeGang_sound ht))
  exact State.leaveFarm_sound (State.setPartAt_sound h1 _ (h1.partAt s.hart.part))

theorem exitTail_sound (hs : s.Sound κ) : Out.Sound κ (exitTail s) := by
  unfold exitTail
  dsimp only
  split
  · exact stallCtl_sound hs
  split
  · exact stallCtl_sound (State.closeSlots_sound hs)
  split
  · exact State.endHart_sound (State.closeStrip_sound (State.closeSlots_sound hs))
  · exact stallCtl_sound (State.closeStrip_sound (State.closeSlots_sound hs))

theorem execExit_sound (hs : s.Sound κ) : Out.Sound κ (execExit s) := by
  have cleared {t : State} {rs : List Nat} (ht : t.Sound κ) :
      Out.Sound κ (exitTail (rs.foldl (fun s r => s.clearReg s.cur r) t)) :=
    exitTail_sound (foldl_sound ht fun _ _ => State.clearReg_sound)
  unfold execExit
  generalize List.range 16 = rs
  dsimp only
  split
  · exact exitTail_sound hs
  split
  · split
    · exact stallCtl_sound (State.editHart_sound hs)
    · exact cleared (State.editHart_sound (State.editHart_sound hs))
  · refine synchronise_sound hs ?_
    split
    · exact stallCtl_sound hs
    · exact cleared (State.editHart_sound hs)

theorem execWait_sound {a b : Reg} (hs : s.Sound κ) : Out.Sound κ (execWait a b s) := by
  unfold execWait
  dsimp only
  refine synchronise_sound hs ?_
  refine reading_sound hs ?_
  split
  · exact stallCtl_sound hs
  split
  · exact faultAccess_sound hs
  split
  · exact stallCtl_sound hs
  split
  · exact retire_sound hs
  · exact State.giveBack_sound (State.withHart_sound hs hs.hart)

theorem State.enqueue_sound {n : Nat} (hs : s.Sound κ) : (s.enqueue n).Sound κ := by
  have hr := State.fresh_sound hs
  unfold State.enqueue
  dsimp only
  exact State.setHartAt_sound (State.editPart_sound hr) _ (hr.hartAt n)

theorem execYield_sound (hs : s.Sound κ) : Out.Sound κ (execYield s) := by
  unfold execYield
  dsimp only
  refine synchronise_sound hs ?_
  split
  · exact stallCtl_sound hs
  · exact State.enqueue_sound (State.giveBack_sound (State.withHart_sound hs hs.hart))

theorem execBar_sound (hs : s.Sound κ) : Out.Sound κ (execBar s) := by
  unfold execBar
  dsimp only
  split
  · exact illegalWord_sound hs
  split
  · split
    · exact retire_sound (State.withHart_sound hs hs.hart)
    · exact stallCtl_sound hs
  refine synchronise_sound hs ?_
  split
  · exact stallCtl_sound hs
  split
  · exact retire_sound (State.withHart_sound (State.withHart_sound hs hs.hart) hs.hart)
  · exact stallCtl_sound (State.withHart_sound hs hs.hart)

theorem State.flushOrdered_sound (hs : s.Sound κ) : s.flushOrdered.Sound κ := by
  unfold State.flushOrdered
  exact foldl_sound hs fun _ _ => State.flushSheaf_sound

theorem execStrip_sound {d : Reg} (hs : s.Sound κ) : Out.Sound κ (execStrip d s) := by
  have ht : State.Sound κ (if s.hart.holdsStrip then s.flushOrdered.closeStrip else s) := by
    split
    · exact State.closeStrip_sound (State.flushOrdered_sound hs)
    · exact hs
  unfold execStrip
  dsimp only
  generalize (if s.hart.holdsStrip then s.flushOrdered.closeStrip else s) = t at ht ⊢
  split
  · exact stallCtl_sound hs
  split
  · exact retireWith_sound (State.withHart_sound ht ht.hart)
  next g hg =>
  split
  · exact retireWith_sound (State.withHart_sound (State.replaceFarm_sound ht hg rfl) ht.hart)
  · exact retireWith_sound (State.withHart_sound ht ht.hart)

theorem served_sound {k : Out} (hs : s.Sound κ) (hk : Out.Sound κ k) : Out.Sound κ (served s k) := by
  unfold served
  split
  · exact stallCtl_sound hs
  · exact hk

theorem State.setBin_sound {p i : Nat} {b : Bin} (hs : s.Sound κ) : (s.setBin p i b).Sound κ := by
  unfold State.setBin
  exact State.setPartAt_sound hs _ (hs.partAt _)

theorem State.keepRake_sound {p : Nat} {r : Rake} (hs : s.Sound κ) : (s.keepRake p r).Sound κ := by
  unfold State.keepRake
  exact State.editPart_sound (foldl_sound hs (fun _ _ => State.setBin_sound))

theorem State.decideEvent_sound {p : Nat} {e : PolEvent} (hs : s.Sound κ) : (s.decideEvent p e).1.Sound κ := by
  unfold State.decideEvent
  dsimp only
  split
  · exact State.setPartAt_sound hs _ (hs.partAt _)
  split
  · exact State.editPart_sound (State.setPartAt_sound hs _ (hs.partAt _))
  · split <;> exact State.keepRake_sound (State.setPartAt_sound hs _ (hs.partAt _))

theorem State.engineWrite_sound {w : Who} {a : Word} {bs : List Byte} (hs : s.Sound κ) :
    ExceptSound (State.Sound κ) (s.engineWrite w a bs) := by
  unfold State.engineWrite
  split
  · trivial
  · exact State.store_sound hs

theorem State.seqNew_sound {a : Word} {r : SeqRecord} (hs : s.Sound κ) : (s.seqNew a r).1.Sound κ := by
  unfold State.seqNew
  dsimp only
  split
  · exact State.decideEvent_sound hs
  split
  next he => exact State.editPart_sound ((State.engineWrite_sound (State.decideEvent_sound hs)).get he)
  · exact State.decideEvent_sound hs

theorem execSeqnew_sound {d a : Reg} (hs : s.Sound κ) : Out.Sound κ (execSeqnew d a s) := by
  unfold execSeqnew
  dsimp only
  refine reading_sound hs ?_
  refine served_sound hs ?_
  split
  · exact stallCtl_sound hs
  split
  · exact retireWith_sound hs
  split
  · exact retireWith_sound (State.tellFault_sound hs)
  split
  · exact retireWith_sound hs
  split
  · exact stallCtl_sound hs
  · exact retireWith_sound (State.seqNew_sound hs)

theorem State.rewatch_sound {p : Nat} (hs : s.Sound κ) : (s.rewatch p).Sound κ := by
  unfold State.rewatch
  exact foldl_sound hs fun _ _ ht => State.setHartAt_sound ht _ (ht.hartAt _)

theorem State.mapPage_sound {p va pg : Nat} (hs : s.Sound κ) : (s.mapPage p va pg).1.Sound κ := by
  unfold State.mapPage
  dsimp only
  refine State.rewatch_sound ?_
  have h {c : Prop} [Decidable c] {l : List (Nat × Nat × Nat)} :
      State.Sound κ (if c then s else { s with over1 := l }) := ite_holds hs hs
  exact State.cleanse_sound (ls := (List.range 1024).map (1024 * pg + ·)) h

theorem State.growSeq_sound {p : Nat} {q : Seq} {i va pg : Nat} {entry len : List Nat} (hs : s.Sound κ) :
    (s.growSeq p q i va pg entry len).Sound κ := by
  unfold State.growSeq
  exact State.store_sound (State.store_sound (State.editPart_sound (State.mapPage_sound hs)))

theorem execSeqgrow_sound {d a : Reg} (hs : s.Sound κ) : Out.Sound κ (execSeqgrow d a s) := by
  unfold execSeqgrow
  dsimp only
  refine reading_sound hs ?_
  refine served_sound hs ?_
  split
  · exact retireWith_sound hs
  split
  · exact stallCtl_sound hs
  split
  · exact retireWith_sound hs
  split
  · exact retireWith_sound (State.postPolicy_sound hs)
  split
  · exact retireWith_sound hs
  split
  · exact faultAccess_sound hs
  · exact faultAccess_sound hs
  · exact retireWith_sound (State.growSeq_sound hs)

theorem State.setField_sound {f : GField} (hs : s.Sound κ) : (s.setField f).Sound κ := by
  unfold State.setField
  exact hs

theorem State.writeStore_sound {f : GField} {off : Nat} {bs : List Byte} (hs : s.Sound κ) :
    ExceptSound (State.Sound κ) (s.writeStore f off bs) := by
  unfold State.writeStore
  dsimp only
  split
  · trivial
  split
  · exact State.store_sound hs
  · trivial

theorem State.commitAnyway_sound {f g : GField} (hs : s.Sound κ) : (s.commitAnyway f g).Sound κ := by
  refine State.setField_sound (foldl_sound hs fun t c ht => ?_)
  split
  next u he => exact (State.writeStore_sound ht).get he
  · exact State.tellFault_sound ht

theorem State.writeChanges_sound {f : GField} {cs : List (Nat × List Byte)} (hs : s.Sound κ) :
    ExceptSound (State.Sound κ) (s.writeChanges f cs) := by
  induction cs generalizing s with
  | nil => exact hs
  | cons c cs ih =>
    unfold State.writeChanges
    split
    · trivial
    next he => exact ih ((State.writeStore_sound hs).get he)

theorem State.commit_sound {f g : GField} (hs : s.Sound κ) : ExceptSound (State.Sound κ) (s.commit f g) := by
  unfold State.commit
  split
  · trivial
  next he => exact State.setField_sound ((State.writeChanges_sound hs).get he)

theorem State.tellWork_sound {p n : Nat} {e : Fail} (hs : s.Sound κ) : (s.tellWork p n e).Sound κ := by
  unfold State.tellWork
  exact State.tellPoison_sound (State.tellStage2_sound hs)

theorem State.dropPins_sound {p : Nat} {seq : Option Nat} {asker : Option (Nat × Nat)} (hs : s.Sound κ) :
    (s.dropPins p seq asker).Sound κ := by
  unfold State.dropPins
  dsimp only
  split
  · exact State.editPart_sound (foldl_sound hs fun _ _ => State.commitAnyway_sound)
  · refine foldl_sound hs fun t f ht => ?_
    split
    next u he => exact (State.commit_sound ht).get he
    split
    · exact State.tellWork_sound ht
    · exact State.queueEvent_sound (State.tellWork_sound ht)

theorem State.killPages_sound {p : Nat} {pages : List Nat} (hs : s.Sound κ) : (s.killPages p pages).Sound κ := by
  unfold State.killPages
  exact hs

theorem State.unmapPage_sound {p va ia : Nat} (hs : s.Sound κ) : (s.unmapPage p va ia).Sound κ := by
  unfold State.unmapPage
  exact State.rewatch_sound (State.setPartAt_sound hs _ (hs.partAt _))

theorem State.retireSeq_sound {p q : Nat} {asker : Option (Nat × Nat)} {xd : Nat} (hs : s.Sound κ) :
    (s.retireSeq p q asker xd).Sound κ := by
  unfold State.retireSeq
  dsimp only
  split
  · exact hs
  · exact State.postPolicy_sound (foldl_sound (State.killPages_sound (State.editPart_sound (State.dropPins_sound hs)))
      (fun _ _ => State.unmapPage_sound))

theorem execSeqend_sound {a : Reg} (hs : s.Sound κ) : Out.Sound κ (execSeqend a s) := by
  unfold execSeqend
  dsimp only
  refine reading_sound hs ?_
  refine served_sound hs ?_
  split
  · exact retire_sound hs
  split
  · exact stallCtl_sound hs
  · exact retire_sound (State.retireSeq_sound hs)

theorem execSeqendT_sound {d a b : Reg} (hs : s.Sound κ) : Out.Sound κ (execSeqendT d a b s) := by
  unfold execSeqendT
  dsimp only
  refine reading_sound hs ?_
  refine served_sound hs ?_
  split
  · exact retireWith_sound hs
  split
  · exact stallCtl_sound hs
  · exact retireWith_sound (State.retireSeq_sound hs)

theorem granaryFault_sound {code : Nat} (hs : s.Sound κ) : Out.Sound κ (granaryFault s code) := by
  unfold granaryFault
  exact faultAt_sound hs

theorem withKey_sound {w : Word} {bound : Nat} {k : GKey → GField → Out} (hs : s.Sound κ)
    (hk : ∀ i t, Out.Sound κ (k i t)) : Out.Sound κ (withKey s w bound k) := by
  unfold withKey
  dsimp only
  split
  · exact granaryFault_sound hs
  split
  · exact granaryFault_sound hs
  split
  · exact granaryFault_sound hs
  · exact hk _ _

theorem execGfind_sound {d a b : Reg} (hs : s.Sound κ) : Out.Sound κ (execGfind d a b s) := by
  unfold execGfind
  dsimp only
  refine reading_sound hs ?_
  split
  · exact faultAt_sound hs
  refine withKey_sound hs fun _ _ => ?_
  split
  · exact faultAccess_sound hs
  · exact handOff_sound hs

theorem execGdep_sound {d a : Reg} (hs : s.Sound κ) : Out.Sound κ (execGdep d a s) := by
  unfold execGdep
  dsimp only
  refine reading_sound hs ?_
  split
  · exact stallCtl_sound hs
  split
  · exact faultAccess_sound hs
  split
  · exact granaryFault_sound hs
  split
  · exact granaryFault_sound hs
  split
  · exact granaryFault_sound hs
  split
  · exact granaryFault_sound (State.tellFault_sound hs)
  split
  · exact granaryFault_sound hs
  split
  · exact faultAt_sound hs
  split
  · exact faultAccess_sound hs
  · exact handOff_sound hs

theorem withJobSheet_sound {addr : Word} {k : Nat → Out} (hs : s.Sound κ) (hk : ∀ n, Out.Sound κ (k n)) :
    Out.Sound κ (withJobSheet s addr k) := by
  unfold withJobSheet
  split
  · exact stallCtl_sound hs
  split
  · exact faultAccess_sound hs
  · exact hk _

theorem sieveFault_sound {code : Nat} (hs : s.Sound κ) : Out.Sound κ (sieveFault s code) := by
  unfold sieveFault
  exact faultAt_sound hs

theorem execSbin_sound {d a : Reg} (hs : s.Sound κ) : Out.Sound κ (execSbin d a s) := by
  unfold execSbin
  refine reading_sound hs ?_
  refine withJobSheet_sound hs fun _ => ?_
  split
  · exact sieveFault_sound hs
  · exact handOff_sound hs

theorem streamFault_sound {code : Nat} (hs : s.Sound κ) : Out.Sound κ (streamFault s code) := by
  unfold streamFault
  exact faultAt_sound hs

theorem execSpair_sound {d : Reg} {z : ZIx} {a b : Reg} (hs : s.Sound κ) : Out.Sound κ (execSpair d z a b s) := by
  unfold execSpair
  dsimp only
  refine reading_sound hs ?_
  refine withJobSheet_sound hs fun _ => ?_
  split
  · exact streamFault_sound hs
  split
  · exact sieveFault_sound hs
  split
  · exact stallCtl_sound hs
  · exact handOff_sound (State.setSlot_sound hs)

theorem execSopen_sound {d : Reg} {z : ZIx} {a : Reg} (hs : s.Sound κ) : Out.Sound κ (execSopen d z a s) := by
  unfold execSopen
  dsimp only
  refine reading_sound hs ?_
  split
  · exact stallCtl_sound hs
  split
  · exact streamFault_sound hs
  split
  · exact streamFault_sound hs
  split
  · exact streamFault_sound hs
  split
  · exact streamFault_sound hs
  split
  · exact retireWith_sound (State.setSlot_sound hs)
  · exact retireWith_sound (State.setSlot_sound (State.setSlot_sound hs))

theorem execSclose_sound {z : ZIx} (hs : s.Sound κ) : Out.Sound κ (execSclose z s) := by
  unfold execSclose
  split
  · exact stallCtl_sound hs
  split
  · exact stallCtl_sound hs
  next u he => exact retire_sound ((State.closeSlot_sound hs).done he)

theorem csrAccess_sound {i : Instr} {n : BitVec 12} {write : Bool} {rs : List Reg} {k : Out}
    (hs : s.Sound κ) (hk : Out.Sound κ k) : Out.Sound κ (csrAccess i n write rs s k) := by
  unfold csrAccess
  dsimp only
  split
  · exact faultAt_sound hs
  split
  · exact faultAt_sound hs
  split
  · exact faultAt_sound hs
  refine reading_sound hs ?_
  split
  · exact stallCtl_sound hs
  · exact hk

theorem retireCsr_sound {old : State} (hs : s.Sound κ) : Out.Sound κ (retireCsr old s) := by
  unfold retireCsr
  exact State.retireStep_sound hs hs.hart.pc.add_four

theorem TrapBank.set_sound {b : TrapBank} {l i : Nat} {x : Word} (hb : b.Sound κ) (hl : Legal κ l) :
    (b.set l i x).Sound κ := by
  unfold TrapBank.set
  split
  · exact hb
  · exact ⟨aligned_wordAddr x, hb.2⟩
  · exact hb
  · exact hb
  · exact ⟨hb.1, legal_estatusWrite x hb.2 hl⟩
  · exact hb

theorem TrapBank.set_tvec {b : TrapBank} {l i : Nat} {x : Word} (hb : Aligned κ b.tvec) :
    Aligned κ (b.set l i x).tvec := by
  unfold TrapBank.set
  split
  · exact aligned_wordAddr x
  all_goals exact hb

theorem Hart.Sound.withBank1 {b : TrapBank} (hh : h.Sound κ) (hb : b.Sound κ) : Hart.Sound κ { h with bank1 := b } :=
  ⟨hh.pc, hh.vfret, hh.tvec, hh.bank0, hb, hh.level⟩

/-- A CSR write keeps word addresses aligned and takes no level above the writer's own (R183). -/
theorem State.csrWrite_sound {n : Nat} {x : Word} (hs : s.Sound κ) : (s.csrWrite n x).Sound κ := by
  obtain ⟨hpc, hvf, htv, hb0, hb1, hl⟩ := hs.hart
  have keep (h : Hart) (e : h.Sound κ = s.hart.Sound κ) : (s.withHart h).Sound κ :=
    State.withHart_sound hs (e ▸ hs.hart)
  unfold State.csrWrite
  refine ite_holds (keep _ rfl) ?_
  refine ite_holds (keep _ rfl) ?_
  refine ite_holds (State.withHart_sound hs ⟨hpc, aligned_wordAddr x, htv, hb0, hb1, hl⟩) ?_
  refine ite_holds (keep _ rfl) ?_
  refine ite_holds (keep _ rfl) ?_
  refine ite_holds (keep _ rfl) ?_
  refine ite_holds (keep _ rfl) ?_
  refine ite_holds (keep _ rfl) ?_
  refine ite_holds (keep _ rfl) ?_
  refine ite_holds (keep _ rfl) ?_
  refine ite_holds (keep _ rfl) ?_
  refine ite_holds (P := State.Sound κ) (State.withHart_sound hs ?_) ?_
  · exact ⟨hpc, hvf, TrapBank.set_tvec htv, TrapBank.set_sound hb0 hl, hb1, hl⟩
  refine ite_holds (keep _ rfl) ?_
  refine ite_holds (State.setPartAt_sound hs _ (hs.partAt _)) ?_
  refine ite_holds (State.setPartAt_sound hs _ ?_) ?_
  · exact aligned_wordAddr x
  exact ite_holds (State.withHart_sound hs (Hart.Sound.withBank1 hs.hart (TrapBank.set_sound hb1 hl))) hs

theorem serviceCounter_sound (hs : s.Sound κ) : Out.Sound κ (serviceCounter s) := by
  unfold serviceCounter
  exact reading_sound hs (retireWith_sound hs)

theorem serviceLog_sound (hs : s.Sound κ) : Out.Sound κ (serviceLog s) := by
  unfold serviceLog
  dsimp only
  refine reading_sound hs ?_
  split
  · exact retireWith_sound hs
  split
  · exact stallCtl_sound hs
  split
  · exact faultAccess_sound hs
  · exact retireWith_sound (State.buffer_sound hs)

theorem serviceNotice_sound (hs : s.Sound κ) : Out.Sound κ (serviceNotice s) := by
  unfold serviceNotice
  exact reading_sound hs (retireWith_sound (State.postHost_sound hs))

theorem trapCode_sound {code : Nat} (hs : s.Sound κ) : Out.Sound κ (trapCode code s) := by
  unfold trapCode
  split
  · exact State.trapCtl_sound hs
  split
  · exact serviceCounter_sound hs
  · exact serviceLog_sound hs
  · exact serviceNotice_sound hs
  · exact retireWith_sound hs

theorem Hart.Sound.bankAt (hh : h.Sound κ) (l : Nat) : (h.bankAt l).Sound κ := by
  unfold Hart.bankAt
  split
  · exact hh.bank0
  · exact hh.bank1

theorem legal_clearEh {e : Word} (h : Legal κ (e &&& 3).toNat) : Legal κ ((e &&& ~~~8#64) &&& 3).toNat := by
  rwa [BitVec.and_assoc, show (~~~8#64 &&& 3 : Word) = 3 by decide]

/-- `TRET` returns to a saved address at a saved level (R183, R185). -/
theorem State.returnFrom_sound (hs : s.Sound κ) : s.returnFrom.Sound κ := by
  have hh := hs.hart
  have hb := hh.bankAt s.hart.level
  have hb' : Aligned κ (s.hart.bankAt s.hart.level).epc ∧
      Legal κ (((s.hart.bankAt s.hart.level).estatus &&& ~~~8#64) &&& 3).toNat := ⟨hb.1, legal_clearEh hb.2⟩
  refine State.withHart_sound hs ⟨?_, hh.vfret, ?_, ?_, ?_, hb.2⟩
  · show Aligned κ (if _ then _ else _)
    split
    · exact hh.vfret
    · exact hb.1
  · show Aligned κ (TrapBank.tvec (if _ then _ else _))
    split
    case isTrue hl => rw [show s.hart.bankAt s.hart.level = s.hart.bank0 from if_pos hl]; exact hh.tvec
    case isFalse => exact hh.tvec
  · show TrapBank.Sound κ (if _ then _ else _)
    split
    · exact hb'
    · exact hh.bank0
  · show TrapBank.Sound κ (if _ then _ else _)
    split
    · exact hh.bank1
    · exact hb'

theorem execTret_sound (hs : s.Sound κ) : Out.Sound κ (execTret s) := by
  unfold execTret
  split
  · split
    · exact stallCtl_sound hs
    · exact State.returnFrom_sound hs
  · exact synchronise_sound hs (illegalWord_sound hs)

theorem execPswap_sound {d a b : Reg} (hs : s.Sound κ) : Out.Sound κ (execPswap d a b s) := by
  unfold execPswap
  dsimp only
  split
  · exact faultAt_sound hs
  refine reading_sound hs ?_
  split
  · exact retireWith_sound hs
  split
  · exact stallCtl_sound hs
  split
  · exact faultAccess_sound hs
  · exact handOff_sound hs

theorem execReadLifetimeCounter_sound (hs : s.Sound κ) : Out.Sound κ (execReadLifetimeCounter s) := by
  unfold execReadLifetimeCounter
  exact trapCode_sound hs

theorem execReadMeasurementLog_sound (hs : s.Sound κ) : Out.Sound κ (execReadMeasurementLog s) := by
  unfold execReadMeasurementLog
  exact trapCode_sound hs

theorem execPostPartitionNotice_sound (hs : s.Sound κ) : Out.Sound κ (execPostPartitionNotice s) := by
  unfold execPostPartitionNotice
  exact trapCode_sound hs

theorem Hart.endBlock_sound (hh : h.Sound κ) : (h.endBlock).Sound κ := by
  unfold Hart.endBlock
  split <;> exact hh

theorem Hart.pastWord_sound (hh : h.Sound κ) : (h.pastWord).Sound κ := by
  unfold Hart.pastWord
  split <;> exact hh

theorem State.completed_sound {numthr : Option Word} (hs : s.Sound κ) : (s.completed numthr).Sound κ := by
  unfold State.completed
  dsimp only
  split
  · exact State.takeTrap_sound (State.withHart_sound hs (Hart.pastWord_sound hs.hart))
  split
  · exact State.takeTrap_sound (State.withHart_sound hs (Hart.pastWord_sound hs.hart))
  · exact State.withHart_sound hs (Hart.pastWord_sound hs.hart)

theorem vDone_sound (hs : s.Sound κ) : Out.Sound κ (vDone s) := by
  unfold vDone
  exact State.completed_sound hs

theorem faultBlock_sound {c : Cause} {ev pos : Word} {e : Nat} (hs : s.Sound κ) :
    Out.Sound κ (faultBlock s c ev pos e) := by
  unfold faultBlock
  exact State.takeTrap_sound hs

theorem fmtFault_sound {k : Blk} (hs : s.Sound κ) : Out.Sound κ (fmtFault s k) := by
  unfold fmtFault
  exact faultBlock_sound hs

theorem withFormats_sound {k : Blk} {codes : Descr → List Nat} {mixed : Bool} {ok : Descr → List Fmt → Bool}
    {body : Descr → List Fmt → Out} (hs : s.Sound κ) (hbody : ∀ i t, Out.Sound κ (body i t)) :
    Out.Sound κ (withFormats s k codes mixed ok body) := by
  unfold withFormats
  dsimp only
  split
  · exact fmtFault_sound hs
  split
  · exact fmtFault_sound hs
  split
  · exact hbody _ _
  · exact fmtFault_sound hs

theorem vDoneFlags_sound {fs : List Flags} (hs : s.Sound κ) : Out.Sound κ (vDoneFlags s fs) := by
  unfold vDoneFlags
  exact State.completed_sound (State.accrue_sound hs)

theorem Hart.wrV_sound {vd : VIx} {r : VReg} (hh : h.Sound κ) : (h.wrV vd r).Sound κ := by
  unfold Hart.wrV
  exact hh

theorem writeElems_sound {k : Blk} {vd : VIx} {fd : Fmt} {vl : Nat} {res : Nat → Nat × Flags} (hs : s.Sound κ) :
    Out.Sound κ (writeElems s k vd fd vl res) := by
  unfold writeElems
  exact vDoneFlags_sound (State.withHart_sound hs (Hart.wrV_sound hs.hart))

theorem intOp_sound {op : Fmt → Fmt → Fmt → Nat → Nat → Int} {clamp : Bool} {k : Blk} {vd va vb : VIx}
    (hs : s.Sound κ) : Out.Sound κ (intOp op clamp k vd va vb s) := by
  unfold intOp
  dsimp only
  refine withFormats_sound hs fun _ _ => ?_
  split
  · exact writeElems_sound hs
  · exact fmtFault_sound hs

theorem execVmac_sound {k : Blk} {vd va vb vc : VIx} (hs : s.Sound κ) : Out.Sound κ (execVmac k vd va vb vc s) := by
  unfold execVmac
  dsimp only
  refine withFormats_sound hs fun _ _ => ?_
  split
  · exact writeElems_sound hs
  · exact fmtFault_sound hs

theorem Hart.wrP_sound {p : PIx} {n : Nat} (hh : h.Sound κ) : (h.wrP p n).Sound κ := by
  unfold Hart.wrP
  split <;> exact hh

theorem writePred_sound {k : Blk} {pd : PIx} {vl : Nat} {body : Nat → Bool} {fl : Nat → Flags} (hs : s.Sound κ) :
    Out.Sound κ (writePred s k pd vl body fl) := by
  unfold writePred
  exact vDoneFlags_sound (State.withHart_sound hs (Hart.wrP_sound hs.hart))

theorem execVcmp_sound {k : Blk} {pd : PIx} {va vb : VIx} {cond : Cond} (hs : s.Sound κ) :
    Out.Sound κ (execVcmp k pd va vb cond s) := by
  unfold execVcmp
  dsimp only
  refine withFormats_sound hs fun _ _ => ?_
  split
  · exact writePred_sound hs
  · exact fmtFault_sound hs

theorem intOp1_sound {clamp : Bool} {op : Fmt → Nat → Int} {k : Blk} {vd va : VIx} (hs : s.Sound κ) :
    Out.Sound κ (intOp1 clamp op k vd va s) := by
  unfold intOp1
  dsimp only
  refine withFormats_sound hs fun _ _ => ?_
  split
  · exact writeElems_sound hs
  · exact fmtFault_sound hs

theorem execViota_sound {k : Blk} {vd : VIx} (hs : s.Sound κ) : Out.Sound κ (execViota k vd s) := by
  unfold execViota
  refine withFormats_sound hs fun _ _ => ?_
  split
  · exact writeElems_sound hs
  · exact fmtFault_sound hs

theorem State.drawn_sound {d : Descr} {n : Nat} (hs : s.Sound κ) : (s.drawn d n).Sound κ := by
  unfold State.drawn
  split <;> exact hs

theorem State.placeAll_sound {k : Blk} {d : Descr} {vd : VIx} {f : Fmt} {vl : Nat} {exact : Nat → Val}
    {extra : Nat → Flags} (hs : s.Sound κ) : Out.Sound κ (s.placeAll k d vd f vl exact extra) := by
  unfold State.placeAll
  dsimp only
  split
  · exact vDone_sound hs
  split
  · exact vDoneFlags_sound (State.withHart_sound (State.drawn_sound hs) (Hart.wrV_sound (Hart.wrV_sound hs.hart)))
  · exact vDoneFlags_sound (State.withHart_sound (State.drawn_sound hs) (Hart.wrV_sound hs.hart))

theorem floatOp_sound {op : Bool → Val → Val → Val × Flags} {k : Blk} {vd va vb : VIx} (hs : s.Sound κ) :
    Out.Sound κ (floatOp op k vd va vb s) := by
  unfold floatOp
  dsimp only
  refine withFormats_sound hs fun _ _ => ?_
  split
  · exact State.placeAll_sound hs
  · exact fmtFault_sound hs

theorem execVfma_sound {k : Blk} {vd va vb vc : VIx} {np nc : Bool} (hs : s.Sound κ) :
    Out.Sound κ (execVfma k vd va vb vc np nc s) := by
  unfold execVfma
  dsimp only
  refine withFormats_sound hs fun _ _ => ?_
  split
  · exact State.placeAll_sound hs
  · exact fmtFault_sound hs

theorem floatOp1_sound {ok : List Fmt → Bool} {op : Val → Val} {k : Blk} {vd va : VIx} (hs : s.Sound κ) :
    Out.Sound κ (floatOp1 ok op k vd va s) := by
  unfold floatOp1
  dsimp only
  refine withFormats_sound hs fun _ _ => ?_
  split
  · exact State.placeAll_sound hs
  · exact fmtFault_sound hs

theorem approxOp_sound {op : Fmt → FloatSpec → Descr → List Nat → Bool → Val → Nat × Flags} {k : Blk}
    {vd va : VIx} (hs : s.Sound κ) : Out.Sound κ (approxOp op k vd va s) := by
  unfold approxOp
  dsimp only
  refine withFormats_sound hs fun _ _ => ?_
  split
  · exact writeElems_sound hs
  · exact fmtFault_sound hs

theorem execVfcmp_sound {k : Blk} {pd : PIx} {va vb : VIx} {cond : Cond} (hs : s.Sound κ) :
    Out.Sound κ (execVfcmp k pd va vb cond s) := by
  unfold execVfcmp
  dsimp only
  refine withFormats_sound hs fun _ _ => ?_
  split
  · exact writePred_sound hs
  · exact fmtFault_sound hs

theorem execVfclass_sound {k : Blk} {vd va : VIx} (hs : s.Sound κ) : Out.Sound κ (execVfclass k vd va s) := by
  unfold execVfclass
  dsimp only
  refine withFormats_sound hs fun _ _ => ?_
  split
  · exact writeElems_sound hs
  · exact fmtFault_sound hs

theorem execVcvt_sound {k : Blk} {vd va : VIx} (hs : s.Sound κ) : Out.Sound κ (execVcvt k vd va s) := by
  unfold execVcvt
  dsimp only
  split
  · split
    · refine withFormats_sound hs fun _ _ => ?_
      split
      · exact writeElems_sound (State.drawn_sound hs)
      · exact writeElems_sound hs
    · exact floatOp1_sound hs
  · exact fmtFault_sound hs

theorem reslice_sound {slicing : Bool} {k : Blk} {vd va : VIx} (hs : s.Sound κ) :
    Out.Sound κ (reslice slicing k vd va s) := by
  unfold reslice
  dsimp only
  refine withFormats_sound hs fun _ _ => ?_
  split
  · exact writeElems_sound hs
  · exact fmtFault_sound hs

theorem execVqscale_sound {k : Blk} {vd va vb : VIx} (hs : s.Sound κ) : Out.Sound κ (execVqscale k vd va vb s) := by
  unfold execVqscale
  dsimp only
  refine withFormats_sound hs fun _ _ => ?_
  split
  · exact writeElems_sound (State.drawn_sound hs)
  · exact fmtFault_sound hs

theorem predOp_sound {body : Hart → Nat → Bool} {k : Blk} {pd : PIx} (hs : s.Sound κ) :
    Out.Sound κ (predOp body k pd s) := by
  unfold predOp
  exact withFormats_sound hs fun _ _ => writePred_sound hs

theorem predCount_sound {c : List Nat → Nat} {k : Blk} {vd : VIx} {pa : PIx} (hs : s.Sound κ) :
    Out.Sound κ (predCount c k vd pa s) := by
  unfold predCount
  dsimp only
  refine withFormats_sound hs fun _ _ => ?_
  split
  · exact writeElems_sound hs
  · exact fmtFault_sound hs

theorem execVbcast_sound {k : Blk} {vd : VIx} {xs : Reg} (hs : s.Sound κ) : Out.Sound κ (execVbcast k vd xs s) := by
  unfold execVbcast
  refine withFormats_sound hs fun _ _ => ?_
  split
  · exact writeElems_sound hs
  · exact fmtFault_sound hs

theorem execVins_sound {k : Blk} {vd : VIx} {xs xi : Reg} (hs : s.Sound κ) : Out.Sound κ (execVins k vd xs xi s) := by
  unfold execVins
  dsimp only
  refine withFormats_sound hs fun _ _ => ?_
  split
  · split
    · exact vDone_sound (State.withHart_sound hs (Hart.wrV_sound hs.hart))
    · exact vDone_sound hs
  · exact fmtFault_sound hs

theorem moveOp_sound {marks : Descr → Fmt → Bool} {body : Hart → Fmt → Nat → Nat → Nat} {k : Blk}
    {vd : VIx} (hs : s.Sound κ) : Out.Sound κ (moveOp marks body k vd s) := by
  unfold moveOp
  dsimp only
  refine withFormats_sound hs fun _ _ => ?_
  split
  · exact writeElems_sound hs
  · exact fmtFault_sound hs

theorem execVperm_sound {k : Blk} {vd va vb : VIx} (hs : s.Sound κ) : Out.Sound κ (execVperm k vd va vb s) := by
  unfold execVperm
  dsimp only
  refine withFormats_sound hs fun _ _ => ?_
  split
  · exact writeElems_sound hs
  · exact fmtFault_sound hs

theorem Hart.scatter_sound {vd : VIx} {f : Fmt} {vl : Nat} {body : Nat → Option Nat} (hh : h.Sound κ) :
    (h.scatter vd f vl body).Sound κ := by
  unfold Hart.scatter
  exact Hart.wrV_sound hh

theorem execVcompr_sound {k : Blk} {vd va : VIx} {pb : PIx} (hs : s.Sound κ) :
    Out.Sound κ (execVcompr k vd va pb s) := by
  unfold execVcompr
  dsimp only
  refine withFormats_sound hs fun _ _ => ?_
  split
  · exact vDone_sound (State.withHart_sound hs (Hart.scatter_sound hs.hart))
  · exact fmtFault_sound hs

theorem execVexpnd_sound {k : Blk} {vd va : VIx} {pb : PIx} (hs : s.Sound κ) :
    Out.Sound κ (execVexpnd k vd va pb s) := by
  unfold execVexpnd
  dsimp only
  refine withFormats_sound hs fun _ _ => ?_
  split
  · exact vDone_sound (State.withHart_sound hs (Hart.scatter_sound hs.hart))
  · exact fmtFault_sound hs

theorem execVmerge_sound {k : Blk} {vd va vb : VIx} {pc : PIx} (hs : s.Sound κ) :
    Out.Sound κ (execVmerge k vd va vb pc s) := by
  unfold execVmerge
  dsimp only
  refine withFormats_sound hs fun _ _ => ?_
  split
  · exact writeElems_sound hs
  · exact fmtFault_sound hs

theorem execVmov_sound {k : Blk} {vd va : VIx} (hs : s.Sound κ) : Out.Sound κ (execVmov k vd va s) := by
  unfold execVmov
  exact moveOp_sound hs

theorem reduceOp_sound {r : Reducer} {k : Blk} {vd va : VIx} (hs : s.Sound κ) :
    Out.Sound κ (reduceOp r k vd va s) := by
  unfold reduceOp
  dsimp only
  refine withFormats_sound hs fun _ _ => ?_
  split
  · split
    · exact vDone_sound hs
    · split <;> exact vDoneFlags_sound (State.withHart_sound hs (Hart.wrV_sound hs.hart))
  · exact fmtFault_sound hs

theorem execVscan_sound {k : Blk} {vd va : VIx} (hs : s.Sound κ) : Out.Sound κ (execVscan k vd va s) := by
  unfold execVscan
  dsimp only
  refine withFormats_sound hs fun _ _ => ?_
  split
  · exact vDoneFlags_sound (State.withHart_sound (State.drawn_sound hs) (Hart.wrV_sound hs.hart))
  · exact fmtFault_sound hs

theorem execVtopk_sound {k : Blk} {vd va : VIx} {xk : Reg} {nanlow : Bool} (hs : s.Sound κ) :
    Out.Sound κ (execVtopk k vd va xk nanlow s) := by
  unfold execVtopk
  dsimp only
  refine withFormats_sound hs fun _ _ => ?_
  split
  · split
    · exact vDone_sound hs
    · exact vDone_sound (State.withHart_sound hs (Hart.wrV_sound (Hart.wrV_sound hs.hart)))
  · exact fmtFault_sound hs

theorem sheafDispatchFault_sound {code : Nat} (hs : s.Sound κ) : Out.Sound κ (sheafDispatchFault s code) := by
  unfold sheafDispatchFault
  exact faultBlock_sound hs

theorem withSheaf_sound {r : HIx} {f : Fmt} {store : Bool} {k : Sheaf → Out} (hs : s.Sound κ)
    (hk : ∀ n, Out.Sound κ (k n)) : Out.Sound κ (withSheaf s r f store k) := by
  unfold withSheaf
  split
  · exact sheafDispatchFault_sound hs
  split
  · exact sheafDispatchFault_sound hs
  split
  · exact sheafDispatchFault_sound hs
  · exact hk _

theorem Hart.markChecked_sound {c : Bool} (hh : h.Sound κ) : (h.markChecked c).Sound κ := by
  unfold Hart.markChecked
  split <;> exact hh

theorem stallSeq_sound (hs : s.Sound κ) : Out.Sound κ (stallSeq s) := by
  unfold stallSeq
  exact State.withHart_sound hs hs.hart

theorem sheafGo_sound {one hold : Bool} {perform : List (Nat × Nat × Nat) → Nat → State} {VL : Nat} {c : Checked}
    (hs : s.Sound κ) (hp : ∀ l n, (perform l n).Sound κ) : Out.Sound κ (sheafGo one hold s perform VL c) := by
  have ht (c : Prop) [Decidable c] (l : List (Nat × Nat × Nat)) (n : Nat) :
      State.Sound κ (if c then s else perform l n) :=
    ite_holds hs (hp l n)
  unfold sheafGo
  dsimp only
  split
  · exact State.withHart_sound (hp _ _) (Hart.markChecked_sound (hp _ _).hart)
  cases c with
  | all els => exact vDone_sound (hp _ _)
  | fault els e c ev => exact faultBlock_sound (hp _ _)
  | waits els e passed =>
    exact stallSeq_sound (State.withHart_sound (ht _ _ _) (Hart.markChecked_sound (ht _ _ _).hart))

theorem sheafLoad_sound {one hold : Bool} {k : Blk} {vd : VIx} {r : HIx} {a : Bool} {f : Fmt} {VL : Nat}
    {offset : Nat → Int} (hs : s.Sound κ) : Out.Sound κ (sheafLoad one hold k vd r a f VL offset s) := by
  unfold sheafLoad
  dsimp only
  refine withSheaf_sound hs fun _ => ?_
  refine sheafGo_sound ?_ fun _ _ => ?_
  · split
    · exact State.withHart_sound hs hs.hart
    · exact hs
  refine State.withHart_sound ?_ ?_
  · split
    · exact State.withHart_sound hs hs.hart
    · exact hs
  refine Hart.wrV_sound ?_
  split <;> exact hs.hart

theorem vldhWith_sound {one : Bool} {k : Blk} {vd : VIx} {r : HIx} {xo xs : Reg} {a : Bool} (hs : s.Sound κ) :
    Out.Sound κ (vldhWith one k vd r xo xs a s) := by
  unfold vldhWith
  refine withFormats_sound hs fun _ _ => ?_
  split
  · exact sheafLoad_sound hs
  · exact fmtFault_sound hs

theorem State.storeAt_sound {sh : Sheaf} {p : Place} {x : Nat} (hs : s.Sound κ) : (s.storeAt sh p x).Sound κ := by
  unfold State.storeAt
  dsimp only
  split
  · exact hs
  · exact hs
  all_goals
    split
    · split
      · split <;> exact State.mapLine_sound hs
      · exact State.mapLine_sound (State.mapLine_sound hs)
      · exact hs
    · exact hs

theorem sheafStore_sound {one : Bool} {k : Blk} {va : VIx} {r : HIx} {f : Fmt} {VL : Nat}
    {offset : Nat → Int} (hs : s.Sound κ) : Out.Sound κ (sheafStore one k va r f VL offset s) := by
  unfold sheafStore
  refine withSheaf_sound hs fun _ => ?_
  refine sheafGo_sound hs fun _ _ => ?_
  split
  · exact hs
  · exact foldl_sound hs fun _ _ => State.storeAt_sound

theorem vsthWith_sound {one : Bool} {k : Blk} {va : VIx} {r : HIx} {xo xs : Reg} (hs : s.Sound κ) :
    Out.Sound κ (vsthWith one k va r xo xs s) := by
  unfold vsthWith
  refine withFormats_sound hs fun _ _ => ?_
  split
  · exact sheafStore_sound hs
  · exact fmtFault_sound hs

theorem vldhxWith_sound {one : Bool} {k : Blk} {vd : VIx} {r : HIx} {xo : Reg} {vb : VIx} {a : Bool}
    (hs : s.Sound κ) : Out.Sound κ (vldhxWith one k vd r xo vb a s) := by
  unfold vldhxWith
  refine withFormats_sound hs fun _ _ => ?_
  split
  · exact sheafLoad_sound hs
  · exact fmtFault_sound hs

theorem vsthxWith_sound {one : Bool} {k : Blk} {va : VIx} {r : HIx} {xo : Reg} {vb : VIx} (hs : s.Sound κ) :
    Out.Sound κ (vsthxWith one k va r xo vb s) := by
  unfold vsthxWith
  refine withFormats_sound hs fun _ _ => ?_
  split
  · exact sheafStore_sound hs
  · exact fmtFault_sound hs

theorem vldfWith_sound {go : State → Blk → FarPlan → Out} {k : Blk} {vd : VIx} {xa xs : Reg} {ord : LdOrd}
    (hgo : ∀ t k p, t.Sound κ → Out.Sound κ (go t k p)) (hs : s.Sound κ) :
    Out.Sound κ (vldfWith go k vd xa xs ord s) := by
  unfold vldfWith
  dsimp only
  refine withFormats_sound hs fun _ _ => ?_
  split
  · exact hgo _ _ _ hs
  · exact fmtFault_sound hs

theorem FarWhat.perform_sound {w : FarWhat} {vq : List FarRun} {p : FarStep} (hs : s.Sound κ) :
    (FarWhat.perform w vq s p).1.Sound κ := by
  unfold FarWhat.perform
  dsimp only
  split
  · exact hs
  · exact State.store_sound hs
  dsimp only
  split
  · exact State.writeAll_sound hs
  · exact hs

theorem FarWhat.performAll_sound {w : FarWhat} {vq : List FarRun} {ps : List FarStep} (hs : s.Sound κ) :
    (w.performAll vq s ps).1.Sound κ := by
  induction ps generalizing s with
  | nil => exact hs
  | cons p ps ih => exact ih (FarWhat.perform_sound hs)

theorem State.landed_sound {k : Blk} {w : FarWhat} {n : Nat} {vals : List (Nat × Nat)} (hs : s.Sound κ) :
    (s.landed k w n vals).Sound κ := by
  unfold State.landed
  dsimp only
  split
  · exact State.withHart_sound hs (Hart.wrV_sound hs.hart)
  · exact hs
  · exact State.withHart_sound hs (Hart.wrV_sound hs.hart)

theorem State.farPerform_sound {k : Blk} {p : FarPlan} {ps : List FarStep} {n : Nat} (hs : s.Sound κ) :
    (s.farPerform k p ps n).Sound κ := by
  unfold State.farPerform
  dsimp only
  split
  · refine State.landed_sound ?_
    refine FarWhat.performAll_sound ?_
    split <;> exact hs
  refine State.cleanse_sound ?_
  refine State.landed_sound ?_
  refine FarWhat.performAll_sound ?_
  split <;> exact hs

theorem State.farAccess_sound {k : Blk} {p : FarPlan} (hs : s.Sound κ) : Out.Sound κ (s.farAccess k p) := by
  unfold State.farAccess
  dsimp only
  split
  · exact stallSeq_sound hs
  split
  · exact stallSeq_sound hs
  split
  · exact State.completed_sound (State.farPerform_sound hs)
  · exact faultBlock_sound (State.tellFault_sound (State.farPerform_sound hs))

theorem vstfWith_sound {go : State → Blk → FarPlan → Out} {k : Blk} {va : VIx} {xa xs : Reg} {ord : StOrd}
    (hgo : ∀ t k p, t.Sound κ → Out.Sound κ (go t k p)) (hs : s.Sound κ) :
    Out.Sound κ (vstfWith go k va xa xs ord s) := by
  unfold vstfWith
  dsimp only
  refine withFormats_sound hs fun _ _ => ?_
  split
  · exact hgo _ _ _ hs
  · exact fmtFault_sound hs

theorem vldxWith_sound {go : State → Blk → FarPlan → Out} {k : Blk} {vd : VIx} {xa : Reg} {vb : VIx}
    {sc : Fin 4} {ord : LdOrd} (hgo : ∀ t k p, t.Sound κ → Out.Sound κ (go t k p)) (hs : s.Sound κ) :
    Out.Sound κ (vldxWith go k vd xa vb sc ord s) := by
  unfold vldxWith
  dsimp only
  refine withFormats_sound hs fun _ _ => ?_
  split
  · exact hgo _ _ _ hs
  · exact fmtFault_sound hs

theorem vstxWith_sound {go : State → Blk → FarPlan → Out} {k : Blk} {va : VIx} {xa : Reg} {vb : VIx}
    {sc : Fin 4} {ord : StOrd} (hgo : ∀ t k p, t.Sound κ → Out.Sound κ (go t k p)) (hs : s.Sound κ) :
    Out.Sound κ (vstxWith go k va xa vb sc ord s) := by
  unfold vstxWith
  dsimp only
  refine withFormats_sound hs fun _ _ => ?_
  split
  · exact hgo _ _ _ hs
  · exact fmtFault_sound hs

theorem vamoWith_sound {go : State → Blk → FarPlan → Out} {k : Blk} {op : AmoOp} {vd va : VIx} {xa : Reg}
    {vb : VIx} {sc : Fin 4} {ord : VamoOrd} {vc : VIx} (hgo : ∀ t k p, t.Sound κ → Out.Sound κ (go t k p))
    (hs : s.Sound κ) :
    Out.Sound κ (vamoWith go k op vd va xa vb sc ord vc s) := by
  unfold vamoWith
  dsimp only
  refine withFormats_sound hs fun _ _ => ?_
  split
  · exact hgo _ _ _ hs
  · exact fmtFault_sound hs

theorem execVldt_sound {k : Blk} {vd : VIx} {xo : Reg} {vb : VIx} (hs : s.Sound κ) :
    Out.Sound κ (execVldt k vd xo vb s) := by
  unfold execVldt
  dsimp only
  refine withFormats_sound hs fun _ _ => ?_
  split
  · exact writeElems_sound hs
  · exact fmtFault_sound hs

theorem Hart.setTableByte_sound {a : Nat} {b : Byte} (hh : h.Sound κ) : (h.setTableByte a b).Sound κ := by
  unfold Hart.setTableByte
  exact hh

theorem foldl_hart_sound {α : Type} {l : List α} {f : Hart → α → Hart} (hh : h.Sound κ)
    (hf : ∀ g a, g.Sound κ → (f g a).Sound κ) : (l.foldl f h).Sound κ := by
  induction l generalizing h with
  | nil => exact hh
  | cons a l ih => exact ih (hf h a hh)

theorem execVstt_sound {k : Blk} {va : VIx} {xo : Reg} {vb : VIx} (hs : s.Sound κ) :
    Out.Sound κ (execVstt k va xo vb s) := by
  refine withFormats_sound hs fun d fs => ?_
  split
  · exact vDone_sound (State.withHart_sound hs (foldl_hart_sound hs.hart fun g e hg =>
      foldl_hart_sound hg fun g' ib hg' => Hart.setTableByte_sound hg'))
  · exact fmtFault_sound hs

theorem streamBlockFault_sound {code : Nat} (hs : s.Sound κ) : Out.Sound κ (streamBlockFault s code) := by
  unfold streamBlockFault
  exact faultBlock_sound hs

theorem Hart.setVla_sound {n : Nat} (hh : h.Sound κ) : (h.setVla n).Sound κ := by
  unfold Hart.setVla
  exact hh

theorem receivePairs_sound {k : Blk} {vd : VIx} {z : ZIx} {fld : Nat} {consume : Bool} {fd : Fmt} {VL : Nat}
    (hs : s.Sound κ) : Out.Sound κ (receivePairs k vd z fld consume fd VL s) := by
  have taken {r : VReg} {n : Nat} {q : Vector Slot 8} :
      State.Sound κ (s.withHart { (s.hart.wrV vd r).setVla n with z := q }) :=
    State.withHart_sound hs (Hart.setVla_sound (h := s.hart.wrV vd r) (n := n) (Hart.wrV_sound hs.hart))
  unfold receivePairs
  dsimp only
  split
  · exact vDone_sound hs
  split
  · exact stallSeq_sound hs
  · refine vDone_sound ?_
    split
    · exact ite_holds (P := State.Sound κ) taken taken
    · exact taken

theorem receiveMessage_sound {k : Blk} {vd : VIx} {z : ZIx} {consume : Bool} {fd : Fmt} {code VL g : Nat} {y : ZIx}
    (hs : s.Sound κ) : Out.Sound κ (receiveMessage k vd z consume fd code VL g y s) := by
  have put (h : Hart) (e : h.Sound κ = s.hart.Sound κ) : (s.withHart h).Sound κ := State.withHart_sound hs (e ▸ hs.hart)
  unfold receiveMessage
  refine ite_holds (vDone_sound hs) (ite_holds (vDone_sound (State.returnCredit_sound (put _ rfl)))
    (ite_holds (vDone_sound (State.returnCredit_sound (put _ rfl))) ?_))
  split
  · exact stallSeq_sound hs
  · exact ite_holds (fmtFault_sound hs) (ite_holds
      (ite_holds (ite_holds (vDone_sound (State.returnCredit_sound (put _ rfl)))
        (vDone_sound (State.returnCredit_sound (put _ rfl)))) (vDone_sound (State.returnCredit_sound (put _ rfl))))
      (ite_holds (vDone_sound (State.returnCredit_sound (put _ rfl)))
        (ite_holds (stallSeq_sound (State.returnCredit_sound (put _ rfl)))
          (ite_holds (stallSeq_sound hs) (stallSeq_sound (put _ rfl))))))

theorem execVlds_sound {k : Blk} {vd : VIx} {z : ZIx} {fld : BitVec 3} {consume : Bool} (hs : s.Sound κ) :
    Out.Sound κ (execVlds k vd z fld consume s) := by
  unfold execVlds
  dsimp only
  refine withFormats_sound hs fun _ _ => ?_
  split
  · split
    · exact streamBlockFault_sound hs
    · exact streamBlockFault_sound hs
    · exact streamBlockFault_sound hs
    · exact receivePairs_sound hs
    split
    · exact streamBlockFault_sound hs
    · exact receiveMessage_sound hs
  · exact fmtFault_sound hs

theorem State.sendMessage_sound {z : ZIx} {g : Nat} {y : ZIx} {cap fmt : Nat} {endMark : Bool} {n : Nat}
    {els : List (Nat × Nat)} (hs : s.Sound κ) : (s.sendMessage z g y cap fmt endMark n els).1.Sound κ := by
  induction n generalizing s els with
  | zero => exact hs
  | succ n ih =>
    unfold State.sendMessage
    dsimp only
    split
    · exact hs
    split
    · exact State.setSlot_sound (State.sendFlit_sound hs)
    · exact ih (State.setSlot_sound (State.sendFlit_sound hs))

theorem execVsts_sound {k : Blk} {va : VIx} {z : ZIx} {last : Bool} (hs : s.Sound κ) :
    Out.Sound κ (execVsts k va z last s) := by
  unfold execVsts
  dsimp only
  refine withFormats_sound hs fun _ _ => ?_
  split
  · split
    · exact streamBlockFault_sound hs
    · exact streamBlockFault_sound hs
    · exact streamBlockFault_sound hs
    · exact streamBlockFault_sound hs
    split
    · exact stallSeq_sound hs
    · exact vDone_sound (State.queueEvent_sound hs)
    split
    · exact vDone_sound (State.sendMessage_sound hs)
    refine stallSeq_sound ?_
    split
    · exact State.sendMessage_sound hs
    · exact State.editHart_sound (State.sendMessage_sound hs)
  · exact fmtFault_sound hs

theorem execHmask_sound {k : Blk} {pd : PIx} {r : HIx} {xo : Reg} (hs : s.Sound κ) :
    Out.Sound κ (execHmask k pd r xo s) := by
  unfold execHmask
  dsimp only
  split
  · exact fmtFault_sound hs
  split
  · exact sheafDispatchFault_sound hs
  · exact vDone_sound (State.withHart_sound hs (Hart.wrP_sound hs.hart))

theorem mattFault_sound (hs : s.Sound κ) : Out.Sound κ (mattFault s) := by
  unfold mattFault
  exact faultBlock_sound hs

theorem Hart.setCell_sound {row col : Nat} {b : BitVec 32} (hh : h.Sound κ) : (h.setCell row col b).Sound κ := by
  unfold Hart.setCell
  exact hh

theorem Hart.raiseMark_sound {row n : Nat} (hh : h.Sound κ) : (h.raiseMark row n).Sound κ := by
  unfold Hart.raiseMark
  exact hh

theorem foldl_pair_sound {α β : Type} {l : List α} {f : Hart × β → α → Hart × β} {r : Hart × β} (hr : r.1.Sound κ)
    (hf : ∀ q a, q.1.Sound κ → (f q a).1.Sound κ) : (l.foldl f r).1.Sound κ := by
  induction l generalizing r with
  | nil => exact hr
  | cons a l ih => exact ih (hf r a hr)

theorem Hart.flailColumns_sound {d : Descr} {va : VIx} {fa fd : Fmt} {base rows n : Nat}
    {terms : Nat → List (Nat × Val)} (hh : h.Sound κ) : (h.flailColumns d va fa fd base rows n terms).1.Sound κ := by
  have hr := foldl_pair_sound (κ := κ) (l := List.range' h.vstart (n - h.vstart)) (r := (h, ([] : List Flags)))
    (f := fun acc j => ((h.flailColumn d va fa fd base rows j (terms j) acc.1).1,
      acc.2 ++ [(h.flailColumn d va fa fd base rows j (terms j) acc.1).2])) hh
    fun q j hq => foldl_pair_sound hq fun q i hq => Hart.setCell_sound hq
  unfold Hart.flailColumns
  dsimp only
  split
  · exact hr
  · exact foldl_hart_sound hr fun g i hg => Hart.raiseMark_sound hg

theorem execMopa_sound {k : Blk} {va vb : VIx} {base : BitVec 7} {units : BitVec 4} (hs : s.Sound κ) :
    Out.Sound κ (execMopa k va vb base units s) := by
  refine withFormats_sound hs fun d fs => ?_
  dsimp only
  split
  · split
    · exact mattFault_sound hs
    · exact vDoneFlags_sound (State.withHart_sound hs (Hart.flailColumns_sound hs.hart))
  · exact fmtFault_sound hs

theorem execMopas_sound {k : Blk} {va vb vc : VIx} {base : BitVec 7} {units : BitVec 4} (hs : s.Sound κ) :
    Out.Sound κ (execMopas k va vb vc base units s) := by
  refine withFormats_sound hs fun d fs => ?_
  dsimp only
  split
  · split
    · exact mattFault_sound hs
    split
    · exact vDoneFlags_sound (State.withHart_sound hs (Hart.flailColumns_sound hs.hart))
    · exact faultBlock_sound (State.accrue_sound (State.withHart_sound hs (Hart.flailColumns_sound hs.hart)))
  · exact fmtFault_sound hs

theorem execMrd_sound {k : Blk} {vd : VIx} {row : BitVec 7} (hs : s.Sound κ) : Out.Sound κ (execMrd k vd row s) := by
  unfold execMrd
  dsimp only
  refine withFormats_sound hs fun _ _ => ?_
  split
  · split
    · exact mattFault_sound hs
    · exact writeElems_sound hs
  · exact fmtFault_sound hs

theorem execMwr_sound {k : Blk} {va : VIx} {row : BitVec 7} (hs : s.Sound κ) : Out.Sound κ (execMwr k va row s) := by
  refine withFormats_sound hs fun d fs => ?_
  dsimp only
  split
  · split
    · exact mattFault_sound hs
    · refine vDone_sound (State.withHart_sound hs ?_)
      have hc {l : List Nat} {x : Nat → BitVec 32} :
          (l.foldl (fun g j => g.setCell row.toNat j (x j)) s.hart).Sound κ :=
        foldl_hart_sound hs.hart fun g j hg => Hart.setCell_sound hg
      split
      · exact hc
      · exact Hart.raiseMark_sound hc
  · exact fmtFault_sound hs

theorem execMzero_sound {k : Blk} {base : BitVec 7} {units : BitVec 4} (hs : s.Sound κ) :
    Out.Sound κ (execMzero k base units s) := by
  unfold execMzero
  dsimp only
  refine withFormats_sound hs fun _ _ => ?_
  split
  · exact mattFault_sound hs
  · exact vDone_sound (State.withHart_sound hs hs.hart)

theorem execVsprune_sound {k : Blk} {vd va vc : VIx} (hs : s.Sound κ) : Out.Sound κ (execVsprune k vd va vc s) := by
  unfold execVsprune
  dsimp only
  refine withFormats_sound hs fun _ _ => ?_
  split
  · split
    · exact vDone_sound hs
    · exact vDone_sound (State.withHart_sound hs (Hart.wrV_sound (Hart.wrV_sound hs.hart)))
  · exact fmtFault_sound hs

theorem execVrope_sound {k : Blk} {vd va vb vc : VIx} {xh : Reg} (hs : s.Sound κ) :
    Out.Sound κ (execVrope k vd va vb vc xh s) := by
  unfold execVrope
  dsimp only
  refine withFormats_sound hs fun _ _ => ?_
  split
  · exact writeElems_sound (State.drawn_sound hs)
  · exact fmtFault_sound hs

theorem State.schedulerFails_sound {p farm : Nat} {a : Word} (hs : s.Sound κ) :
    (s.schedulerFails p farm a).Sound κ := by
  unfold State.schedulerFails
  exact State.postPolicy_sound hs

theorem State.tellVirtual_sound {p n : Nat} {va : Word} {e : Fail} (hs : s.Sound κ) :
    (s.tellVirtual p n va e).Sound κ := by
  unfold State.tellVirtual
  split <;> exact State.tellFault_sound hs

theorem State.pollBins_sound {p : Nat} (hs : s.Sound κ) : (s.pollBins p).Sound κ := by
  refine foldl_sound hs fun t _ ht => ?_
  dsimp only
  split
  · exact ite_holds ht (State.setBin_sound ht)
  · exact ite_holds ht (State.schedulerFails_sound (State.setBin_sound (State.tellVirtual_sound ht)))

theorem aligned_of_sheetOk {sheet : Nat} (h : sheetOk sheet = true) :
    Aligned κ (BitVec.ofNat 64 (field sheet (8 * 0) (8 * 8))) := fun _ => by
  have hb : field sheet (8 * 0) (8 * 8) % 4 = 0 := by
    simp only [sheetOk, Bool.and_eq_true, beq_iff_eq] at h
    exact h.1.1.1.1.1.1.1.1.1.1.1.1
  rw [BitVec.toNat_ofNat]
  omega

/-- An accepted sheet names an entry that is a multiple of 4 (R134). -/
theorem State.acceptSheet_sound {p sheet : Nat} {batch : Option Word} {stead fromBin op : Option Nat} (hs : s.Sound κ) :
    ExceptSound (fun r => r.1.Sound κ) (s.acceptSheet p sheet batch stead fromBin op) := by
  unfold State.acceptSheet
  dsimp only
  split
  · trivial
  case isFalse hok =>
    split
    · trivial
    split
    · trivial
    · exact ⟨hs.hart, hs.others, hs.parts.ainsert p (hs.partAt p),
        hs.farms.append (aligned_of_sheetOk (by simpa using hok))⟩

theorem State.launchEntry_sound {p b : Nat} {sheet batch : Word} (hs : s.Sound κ) :
    (s.launchEntry p b sheet batch).1.Sound κ := by
  unfold State.launchEntry
  split
  · exact State.tellFault_sound hs
  split
  · exact hs
  next he => exact (State.acceptSheet_sound hs).get he

theorem State.oweWrite_sound {w : OwedWrite} (hs : s.Sound κ) : (s.oweWrite w).Sound κ := by
  unfold State.oweWrite
  exact State.fresh_sound hs

theorem State.intakeLaunch_sound {p b : Nat} (hs : s.Sound κ) : (s.intakeLaunch p b).Sound κ := by
  unfold State.intakeLaunch
  dsimp only
  split
  · exact hs
  split
  · exact hs
  refine State.oweWrite_sound ?_
  refine State.oweWrite_sound ?_
  split
  · exact State.setBin_sound (State.launchEntry_sound hs)
  · exact State.oweWrite_sound (State.setBin_sound (State.launchEntry_sound hs))

theorem State.askPreempt_sound {n : Nat} (hs : s.Sound κ) : (s.askPreempt n).Sound κ := by
  unfold State.askPreempt
  dsimp only
  split
  · exact foldl_sound (foldl_sound hs (fun _ _ hu => State.setHartAt_sound hu _
      (hu.hartAt _))) fun _ _ => State.wakeGang_sound
  · exact State.setHartAt_sound hs _ (hs.hartAt _)

theorem State.repin_sound {p num seq id : Nat} (hs : s.Sound κ) : (s.repin p num seq id).Sound κ := by
  unfold State.repin
  dsimp only
  split
  · exact hs
  split
  · exact State.tellFault_sound hs
  next he => exact (State.commit_sound hs).get he

theorem State.applyOutput_sound {p : Nat} {e : PolEvent} {o : Output} (hs : s.Sound κ) :
    (s.applyOutput p e o).Sound κ := by
  unfold State.applyOutput
  split
  · split
    · exact State.intakeLaunch_sound hs
    · exact hs
  · split
    · exact State.askPreempt_sound hs
    · exact hs
  · split
    · exact State.retireSeq_sound hs
    · exact State.stopFarm_sound hs
    · split
      · exact State.repin_sound hs
      · exact hs
    · exact hs
  · exact hs

theorem execDecision_sound {p : Nat} (hs : s.Sound κ) : Out.Sound κ (execDecision p s) := by
  unfold execDecision
  dsimp only
  split
  · exact hs
  split
  · exact State.pollBins_sound hs
  split
  · exact State.editPart_sound (State.applyOutput_sound
      (State.decideEvent_sound (State.editPart_sound (State.pollBins_sound hs))))
  · exact State.applyOutput_sound (State.decideEvent_sound (State.editPart_sound (State.pollBins_sound hs)))

theorem execSliceEnd_sound {p : Nat} (hs : s.Sound κ) : Out.Sound κ (execSliceEnd p s) := by
  unfold execSliceEnd
  dsimp only
  split
  · exact State.setPartAt_sound hs _ (hs.partAt _)
  split
  · exact State.setPartAt_sound hs _ (hs.partAt _)
  split
  · exact hs
  · exact State.postPolicy_sound (State.setPartAt_sound hs _ (hs.partAt _))

theorem State.dropFetches_sound (hs : s.Sound κ) : s.dropFetches.Sound κ := by
  unfold State.dropFetches
  exact hs

theorem State.releaseLine_sound {sh : Sheaf} {oid adv : Nat} {k : LineKey} (hs : s.Sound κ) :
    (s.releaseLine sh oid adv k).Sound κ := by
  unfold State.releaseLine
  dsimp only
  exact State.mapLine_sound (st := sh.stead) (k := k) (f := fun l =>
    { l with holders := l.holders.filter (· != sh.sid), expected := l.expected.filter (· != sh.sid) })
    (ite_holds (P := State.Sound κ) hs (State.issueLine_sound hs))

theorem State.dropExpected_sound {sid : Nat} (hs : s.Sound κ) : (s.dropExpected sid).Sound κ := by
  unfold State.dropExpected
  exact hs

theorem State.parkSheaf_sound {sh : Sheaf} (hs : s.Sound κ) : (s.parkSheaf sh).Sound κ := by
  have hr := State.fresh_sound hs
  have dropped {c : Prop} [Decidable c] {l : List LineKey} {o : Nat} :
      ((if c then s.fresh.2 else l.foldl (fun s k => s.releaseLine sh o 0 k) s.fresh.2).dropExpected sh.sid).Sound κ :=
    State.dropExpected_sound (ite_holds hr (foldl_sound hr fun _ _ => State.releaseLine_sound))
  exact ite_holds (P := State.Sound κ) dropped (State.setSheaf_sound dropped)

theorem State.sendDebt_sound {d : Debt} {entry idx : Nat} (hs : s.Sound κ) : (s.sendDebt d entry idx).Sound κ := by
  unfold State.sendDebt
  dsimp only
  split
  · exact State.queueEvent_sound hs
  · exact hs

theorem State.debtFails_sound {d : Debt} {c : Cause} {a : Word} {e : Fail} (hs : s.Sound κ) :
    (s.debtFails d c a e).Sound κ := by
  unfold State.debtFails
  dsimp only
  split
  · exact State.postPolicy_sound (State.tellWork_sound hs)
  · exact State.queueEvent_sound (State.tellWork_sound hs)

theorem State.performWrite_sound {d : Debt} {data : BitVec 512} {mask : BitVec 64} (hs : s.Sound κ) :
    (s.performWrite d data mask).Sound κ := by
  unfold State.performWrite
  dsimp only
  split
  · exact State.debtFails_sound hs
  · exact State.store_sound hs

theorem State.performScatter_sound {d : Debt} {f : Fmt} {els : List (Nat × Nat)} (hs : s.Sound κ) :
    (s.performScatter d f els).Sound κ := by
  unfold State.performScatter
  dsimp only
  split
  · exact State.debtFails_sound hs
  · refine foldl_sound hs fun t p ht => ?_
    split
    · exact ht
    · exact State.store_sound ht

theorem State.performFold_sound {d : Debt} {f : Fmt} {off value : Nat} (hs : s.Sound κ) :
    (s.performFold d f off value).Sound κ := by
  unfold State.performFold
  dsimp only
  split
  · exact State.debtFails_sound hs
  · exact State.writeAll_sound hs

theorem State.performDebt_sound {d : Debt} (hs : s.Sound κ) : (s.performDebt d).Sound κ := by
  unfold State.performDebt
  dsimp only
  split
  · exact hs
  split
  · split
    · exact hs
    · exact State.sendDebt_sound hs
  split
  · exact State.performWrite_sound hs
  · exact State.performScatter_sound hs
  · exact State.performFold_sound hs

theorem State.settleDebts_sound {m n : Nat} (hs : s.Sound κ) : (s.settleDebts m n).Sound κ := by
  induction n generalizing s with
  | zero => exact hs
  | succ n ih =>
    unfold State.settleDebts
    split
    · exact hs
    split
    · exact ih (State.performDebt_sound hs)
    · exact hs

theorem State.parkHart_sound {n : Nat} (hs : s.Sound κ) : (s.parkHart n).Sound κ := by
  unfold State.parkHart
  exact State.settleDebts_sound (State.dropFetches_sound (foldl_sound hs (fun _ _ => State.parkSheaf_sound)))

theorem State.elem_sound {i j : Nat} (hs : s.Sound κ) : (s.elem i j).Sound κ := by
  unfold State.elem
  dsimp only
  split
  · exact hs
  split
  · exact hs
  next r hr _ q hq =>
  have hp {c : Prop} [Decidable c] {l : List FarRun} {n : Nat} :
      (r.what.perform l (if c then { s with ticket := n } else s) q).1.Sound κ :=
    FarWhat.perform_sound (ite_holds (P := State.Sound κ) hs hs)
  have hh {u : State} {put : VIx → Fmt → Hart} (hu : u.Sound κ) (hput : ∀ d f, (put d f).Sound κ) :
      Hart.Sound κ (match r.what with
        | .load vd f => put vd f
        | .store _ => u.hart
        | .amo _ vd f => put vd f) := by
    cases r.what with
    | load => exact hput _ _
    | store => exact hu.hart
    | amo => exact hput _ _
  refine ite_holds (P := State.Sound κ) (State.cleanse_sound (State.withHart_sound hp ?_)) (State.withHart_sound hp ?_)
  · exact hh hp fun _ _ => Hart.wrV_sound hp.hart
  · exact hh hp fun _ _ => Hart.wrV_sound hp.hart

theorem State.landAll_sound {n : Nat} (hs : s.Sound κ) : (s.landAll n).Sound κ := by
  induction n generalizing s with
  | zero => exact hs
  | succ n ih =>
    unfold State.landAll
    split
    · exact hs
    · exact ih (State.elem_sound hs)

theorem State.farEnds_sound (hs : s.Sound κ) : OptionSound (Out.Sound κ) (s.farEnds) := by
  unfold State.farEnds
  dsimp only
  split
  · trivial
  split
  · trivial
  split
  · exact stallSeq_sound hs
  split
  · exact faultBlock_sound (State.tellFault_sound (State.withHart_sound hs hs.hart))
  · exact vDone_sound (State.withHart_sound hs hs.hart)

theorem sheafWith_sound {one : Bool} {i : Instr} (hs : s.Sound κ) :
    OptionSound (Out.Sound κ) (sheafWith one i s) := by
  unfold sheafWith
  split
  · exact vldhWith_sound hs
  · exact vsthWith_sound hs
  · exact vldhxWith_sound hs
  · exact vsthxWith_sound hs
  · trivial

theorem State.finishSheaf_sound (hs : s.Sound κ) : s.finishSheaf.Sound κ := by
  unfold State.finishSheaf
  split
  · exact hs
  split
  · exact hs
  split
  · exact hs
  split
  next he => exact (sheafWith_sound hs).get he
  · exact hs

theorem State.settleWords_sound (hs : s.Sound κ) : s.settleWords.Sound κ := by
  unfold State.settleWords
  dsimp only
  refine State.withHart_sound ?_ ?_
  · split
    next he => exact (State.farEnds_sound (State.landAll_sound hs)).get he
    · exact State.finishSheaf_sound (State.landAll_sound hs)
  split
  next he => exact ((State.farEnds_sound (State.landAll_sound hs)).get he).hart
  · exact (State.finishSheaf_sound (State.landAll_sound hs)).hart

theorem State.receiveFlit_sound {m : Transit} (hs : s.Sound κ) : (s.receiveFlit m).Sound κ := by
  unfold State.receiveFlit
  dsimp only
  split
  · split
    · split
      · exact hs
      · exact State.returnCredit_sound hs
    · exact State.setSlot_sound hs
  · exact State.returnCredit_sound hs

theorem State.deliverFrom_sound {n : Nat} (hs : s.Sound κ) : (s.deliverFrom n).Sound κ := by
  unfold State.deliverFrom
  exact foldl_sound hs fun _ _ => State.receiveFlit_sound

theorem Hart.rewound_sound (hh : h.Sound κ) : (h.rewound).Sound κ := by
  unfold Hart.rewound
  dsimp only
  split <;> exact hh

theorem State.stopHart_sound {n : Nat} (hs : s.Sound κ) : (s.stopHart n).Sound κ := by
  have ht : (((s.switchTo n).settleWords.switchTo s.cur)).Sound κ :=
    State.switchTo_sound (State.settleWords_sound (State.switchTo_sound hs n)) s.cur
  unfold State.stopHart
  generalize (s.switchTo n).settleWords.switchTo s.cur = t at ht
  have hu : (State.deliverFrom { t with pinWait := t.pinWait.filter (· != n) } n).Sound κ := State.deliverFrom_sound ht
  exact State.setHartAt_sound hu n (Hart.rewound_sound (hu.hartAt n))

theorem State.preempt_sound {n : Nat} (hs : s.Sound κ) : OptionSound (State.Sound κ) (s.preempt n) := by
  unfold State.preempt
  dsimp only
  split
  · trivial
  split
  · exact foldl_sound (State.setHartAt_sound hs _ (hs.hartAt _)) fun _ _ => State.wakeGang_sound
  split
  · trivial
  · exact State.enqueue_sound (State.giveBack_sound
      (State.editHartAt_sound (State.parkHart_sound (State.stopHart_sound hs))))

theorem State.regrant_sound {n : Nat} (hs : s.Sound κ) : (s.regrant n).Sound κ := by
  have settled {h : Hart} {v : Part} {p q m : Nat} (hh : h.Sound κ) (hv : v.Sound κ) :
      (((s.setPartAt p v).setHartAt n h).settleBudget q m).Sound κ :=
    State.settleBudget_sound (State.setHartAt_sound (State.setPartAt_sound hs p hv) n hh)
  unfold State.regrant
  dsimp only
  generalize hu : State.settleBudget _ _ _ = u
  have hu : u.Sound κ := by
    rw [← hu]
    exact settled (hs.hartAt n) (hs.partAt _)
  have ht := State.switchTo_sound hu n
  exact ite_holds (State.switchTo_sound (State.retireTo_sound ht ht.hart.pc.add_four) _) hu

theorem State.unparkHart_sound {n : Nat} (hs : s.Sound κ) : OptionSound (State.Sound κ) (s.unparkHart n) := by
  have remap {t : State} {i : Nat} {f : Order → Order} (ht : t.Sound κ) :
      State.Sound κ (match t.sheafById i with
        | some w => t.setSheaf { w with orders := w.orders.map f }
        | none => t) := by
    split
    · exact State.setSheaf_sound ht
    · exact ht
  unfold State.unparkHart
  split
  · trivial
  refine foldl_sound hs fun t sh ht => ?_
  dsimp only
  split
  · exact State.setSheaf_sound ht
  refine ite_holds (P := State.Sound κ) ?_ ?_
  · exact remap (State.queueOrder_sound (State.setSheaf_sound ht))
  · exact remap (State.queueOrder_sound (remap (State.queueOrder_sound (State.setSheaf_sound ht))))

theorem State.restore_sound {n : Nat} (hs : s.Sound κ) : OptionSound (State.Sound κ) (s.restore n) := by
  unfold State.restore
  dsimp only
  split
  · exact OptionSound.map (State.unparkHart_sound hs)
      (fun _ ht => foldl_sound (State.regrant_sound (State.setHartAt_sound ht _ (ht.hartAt _)))
        (fun _ _ => State.wakeGang_sound))
  · trivial

theorem Hart.sound_placed {a : Word} {x : Vector Word 32} {f p : Nat} {gr : BitVec 64} {nr : Option Nat} {gw : Bool}
    (ha : Aligned κ a) : Hart.Sound κ { Hart.reset with
      pc := a, x := x, farm := f, part := p, status := .running, grant := gr, needsReserved := nr, gangWait := gw } :=
  ⟨ha, Hart.sound_reset.2⟩

/-- A hart is placed at its farm's entry, at level 0 (R135, R252). -/
theorem State.placeHart_sound {st : Nat} (hs : s.Sound κ) (hg : g.Sound κ) : (s.placeHart g st).Sound κ := by
  unfold State.placeHart
  split
  · exact hs
  · dsimp only
    refine State.setFarm_sound ?_ hg
    refine State.setHartAt_sound ?_ _ ?_
    · exact State.setPartAt_sound (State.fresh_sound hs) _ (hs.partAt _)
    · exact Hart.sound_placed hg

theorem OptionSound.map_of {α β : Type} {Q : β → Prop} {o : Option α} {f : α → β} (hf : ∀ a, Q (f a)) :
    OptionSound Q (o.map f) := by
  cases o with
  | none => trivial
  | some a => exact hf a

theorem State.firstQuad_sound {p : Nat} (hs : s.Sound κ) : OptionSound (fun r => r.1.Sound κ) (s.firstQuad p) := by
  unfold State.firstQuad
  dsimp only
  split
  · trivial
  · exact OptionSound.map_of fun st => State.setBudget_sound hs

theorem State.chooseStead_sound {p : Nat} {home : Option Nat} (hs : s.Sound κ) :
    OptionSound (fun r => r.1.Sound κ) (s.chooseStead p home) := by
  unfold State.chooseStead
  dsimp only
  split
  · exact hs
  split
  · exact hs
  · exact State.firstQuad_sound hs

theorem State.placeOne_sound {p f : Nat} (hs : s.Sound κ) : OptionSound (State.Sound κ) (s.placeOne p f) := by
  unfold State.placeOne
  split
  · trivial
  next g hg =>
  split
  · trivial
  · exact (State.chooseStead_sound hs).map fun r hr => State.placeHart_sound hr (hs.farmAt hg)

theorem State.placeMany_sound {p f n : Nat} (hs : s.Sound κ) : OptionSound (State.Sound κ) (s.placeMany p f n) := by
  induction n generalizing s with
  | zero => exact hs
  | succ n ih => exact (State.placeOne_sound hs).bind fun t ht => ih ht

theorem State.placeFirst_sound {p f : Nat} (hs : s.Sound κ) : OptionSound (State.Sound κ) (s.placeFirst p f) := by
  unfold State.placeFirst
  split
  · trivial
  next g hg =>
  split
  · trivial
  · refine OptionSound.map (P := State.Sound κ) (State.placeMany_sound ?_) fun t ht =>
      foldl_sound ht fun _ _ => State.wakeGang_sound
    exact State.replaceFarm_sound hs hg rfl

theorem State.startFarm_sound {p f : Nat} (hs : s.Sound κ) : OptionSound (State.Sound κ) (s.startFarm p f) := by
  unfold State.startFarm
  split
  · exact State.placeFirst_sound hs
  · trivial

theorem State.dropOp_sound {oid : Nat} (hs : s.Sound κ) : (s.dropOp oid).Sound κ := by
  unfold State.dropOp
  exact hs

theorem State.answerHart_sound {o : Op} {x : Word} {failed : Bool} (hs : s.Sound κ) :
    (s.answerHart o x failed).Sound κ := by
  unfold State.answerHart
  exact State.setHartAt_sound hs _ (Hart.answer_sound (hs.hartAt _))

theorem State.answerOp_sound {o : Op} {x : Word} (hs : s.Sound κ) : (s.answerOp o x).Sound κ := by
  unfold State.answerOp
  exact State.dropOp_sound (State.answerHart_sound hs)

theorem State.answerLaunch_sound {p f : Nat} (hs : s.Sound κ) : (s.answerLaunch p f).Sound κ := by
  unfold State.answerLaunch
  split
  · exact hs
  next g hg =>
  split
  · exact hs
  · exact State.answerOp_sound (State.replaceFarm_sound hs hg rfl)

theorem State.farmQuad_sound {p f : Nat} (hs : s.Sound κ) : OptionSound (State.Sound κ) (s.farmQuad p f) := by
  unfold State.farmQuad
  split
  · trivial
  split
  · trivial
  · exact OptionSound.map (State.firstQuad_sound hs) fun _ ht => ht

theorem execFarmStart_sound {p f : Nat} (hs : s.Sound κ) : Out.Sound κ (execFarmStart p f s) := by
  unfold execFarmStart
  split
  next he => exact State.answerLaunch_sound ((State.startFarm_sound hs).get he)
  split
  · exact hs
  · exact State.answerLaunch_sound (OptionSound.getD (State.farmQuad_sound hs) hs)

theorem State.growFarm_sound {p f : Nat} (hs : s.Sound κ) : OptionSound (State.Sound κ) (s.growFarm p f) := by
  unfold State.growFarm
  split
  · trivial
  split
  · exact State.placeOne_sound hs
  · trivial

theorem State.failOp_sound {o : Op} {engine code : Nat} {a : Word} (hs : s.Sound κ) :
    (s.failOp o engine code a).Sound κ := by
  unfold State.failOp
  exact State.queueEvent_sound (State.dropOp_sound (State.answerHart_sound hs))

theorem State.setOp_sound {o : Op} (hs : s.Sound κ) : (s.setOp o).Sound κ := by
  unfold State.setOp
  exact hs

theorem State.serveLaunch_sound {o : Op} {sheet : Word} (hs : s.Sound κ) : (s.serveLaunch o sheet).Sound κ := by
  unfold State.serveLaunch
  dsimp only
  split
  · exact State.failOp_sound (State.tellWork_sound hs)
  split
  · exact State.answerOp_sound hs
  next he => exact State.setOp_sound ((State.acceptSheet_sound hs).get he)

theorem State.servePswap_sound {o : Op} {a : Word} {n : Nat} (hs : s.Sound κ) : (s.servePswap o a n).Sound κ := by
  unfold State.servePswap
  dsimp only
  split
  · exact State.failOp_sound (State.tellWork_sound hs)
  split
  · exact State.answerOp_sound hs
  · exact State.answerOp_sound (State.setPartAt_sound hs _ (hs.partAt _))

theorem execLaunchAcceptance_sound {op : Nat} (hs : s.Sound κ) : Out.Sound κ (execLaunchAcceptance op s) := by
  unfold execLaunchAcceptance
  split
  · exact hs
  split
  · exact hs
  split
  · exact State.serveLaunch_sound hs
  · exact State.servePswap_sound hs
  · exact hs

theorem State.completeFarm_sound {p f : Nat} (hs : s.Sound κ) : OptionSound (State.Sound κ) (s.completeFarm p f) := by
  have hf {k : Farm → Bool} : State.Sound κ { s with farms := s.farms.filter k } :=
    ⟨hs.hart, hs.others, hs.parts, hs.farms.filter k⟩
  unfold State.completeFarm
  dsimp only
  split
  · trivial
  split
  · trivial
  · refine State.postPolicy_sound ?_
    split
    next t ht => exact (State.engineWrite_sound hf).get ht
    · exact State.postPolicy_sound (State.tellFault_sound hf)

theorem execWakeRead_sound {n : Nat} (hs : s.Sound κ) : Out.Sound κ (execWakeRead n s) := by
  have ht : State.Sound κ { s with rereads := s.rereads.filter (· != n) } := hs
  unfold execWakeRead
  dsimp only
  generalize ({ s with rereads := s.rereads.filter (· != n) } : State) = t at ht
  split
  · exact ht
  · exact State.enqueue_sound (State.editHartAt_sound ht)

theorem execHartDispatch_sound {n : Nat} (hs : s.Sound κ) : Out.Sound κ (execHartDispatch n s) := by
  unfold execHartDispatch
  split
  · exact State.regrant_sound hs
  · exact hs

theorem execTrapEntry_sound (hs : s.Sound κ) : Out.Sound κ (execTrapEntry s) := by
  unfold execTrapEntry
  split
  · exact hs
  split
  · exact State.takeTrap_sound hs
  · exact stallCtl_sound hs

theorem execWindowReset_sound {n : Nat} (hs : s.Sound κ) : Out.Sound κ (execWindowReset n s) := by
  unfold execWindowReset
  dsimp only
  split
  · exact State.setHartAt_sound hs _ (hs.hartAt _)
  · exact hs

theorem State.startFetch_sound {sh : Sheaf} {o : Order} {k : LineKey} (hs : s.Sound κ) :
    (s.startFetch sh o k).Sound κ :=
  State.mapLine_sound (st := sh.stead) (k := k) (f := fun l => { l with status := .inflight, fid := s.fresh.1 })
    (State.fresh_sound hs)

theorem State.joinLine_sound {sh : Sheaf} {o : Order} {k : LineKey} (hs : s.Sound κ) :
    (s.joinLine sh o k).Sound κ := by
  unfold State.joinLine
  dsimp only
  split
  · split
    · exact hs
    split
    · exact State.startFetch_sound (State.mapLine_sound hs)
    · exact State.mapLine_sound hs
  split
  · exact State.startFetch_sound hs
  · exact hs

theorem State.takeOrder_sound {sid : Nat} (hs : s.Sound κ) : OptionSound (State.Sound κ) (s.takeOrder sid) := by
  unfold State.takeOrder
  dsimp only
  split
  · trivial
  split
  · trivial
  split
  · trivial
  split
  · exact State.setSheaf_sound hs
  split
  · trivial
  · exact foldl_sound (State.setSheaf_sound hs) fun _ _ => State.joinLine_sound

theorem State.setFetch_sound {f : Fetch} (hs : s.Sound κ) : (s.setFetch f).Sound κ := by
  unfold State.setFetch
  exact hs

theorem State.readFetch_sound {f : Fetch} (hs : s.Sound κ) : (s.readFetch f).Sound κ := by
  unfold State.readFetch
  dsimp only
  split
  · split
    · exact State.tellWork_sound (State.setFetch_sound hs)
    · exact State.setFetch_sound hs
  split
  · exact State.tellWork_sound (State.setFetch_sound hs)
  split
  · exact State.tellWork_sound (State.setFetch_sound hs)
  split
  · exact State.setFetch_sound hs
  · exact State.tellWork_sound (State.setFetch_sound hs)

theorem execGleanerFetch_sound {st : Nat} (hs : s.Sound κ) : Out.Sound κ (execGleanerFetch st s) := by
  unfold execGleanerFetch
  split
  · exact hs
  · exact State.readFetch_sound hs

theorem State.retireFetches_sound (hs : s.Sound κ) : s.retireFetches.Sound κ := by
  unfold State.retireFetches
  exact hs

theorem State.fillLine_sound {st : Nat} {f : Fetch} (hs : s.Sound κ) : (s.fillLine st f).Sound κ := by
  unfold State.fillLine
  exact State.mapLine_sound hs

theorem execLineArrival_sound {fid : Nat} {remote : Option RemoteAnswer} (hs : s.Sound κ) :
    Out.Sound κ (execLineArrival fid remote s) := by
  unfold execLineArrival
  dsimp only
  split
  · exact hs
  split
  · split
    · split
      · exact hs
      · exact State.retireFetches_sound (State.fillLine_sound (State.setFetch_sound hs))
    · dsimp only
      split
      · exact hs
      · exact State.retireFetches_sound (State.fillLine_sound (State.setFetch_sound hs))
    dsimp only
    split
    · exact hs
    · exact State.retireFetches_sound (State.fillLine_sound (State.setFetch_sound hs))
  split
  · exact hs
  · exact State.retireFetches_sound (State.fillLine_sound (State.setFetch_sound hs))

theorem State.releaseOrder_sound {sid : Nat} (hs : s.Sound κ) : OptionSound (State.Sound κ) (s.releaseOrder sid) := by
  have released {l : List LineKey} {sh : Sheaf} {o : Order} :
      (l.foldl (fun s k => s.releaseLine sh o.oid o.adv k) s).Sound κ :=
    foldl_sound hs fun _ _ => State.releaseLine_sound
  unfold State.releaseOrder
  dsimp only
  split
  · trivial
  split
  · trivial
  split
  · trivial
  split
  · exact State.dropExpected_sound (sid := sid) released
  · exact State.setSheaf_sound released

theorem execGleanerWriteBack_sound {did : Nat} (hs : s.Sound κ) : Out.Sound κ (execGleanerWriteBack did s) := by
  unfold execGleanerWriteBack
  split
  · exact hs
  · exact State.performDebt_sound hs

theorem execGleanerFold_sound {did : Nat} (hs : s.Sound κ) : Out.Sound κ (execGleanerFold did s) := by
  unfold execGleanerFold
  split
  · exact hs
  · exact State.performDebt_sound hs

theorem execMulticastFill_sound {fid : Nat} (hs : s.Sound κ) : Out.Sound κ (execMulticastFill fid s) := by
  unfold execMulticastFill
  split
  · exact hs
  split
  · exact hs
  split
  · exact hs
  · exact State.retireFetches_sound (State.fillLine_sound (State.setFetch_sound hs))

theorem execStreamDelivery_sound {n : Nat} {z : ZIx} (hs : s.Sound κ) : Out.Sound κ (execStreamDelivery n z s) := by
  unfold execStreamDelivery
  split
  · exact hs
  · exact State.receiveFlit_sound hs

theorem State.setStream_sound {st : PairStream} (hs : s.Sound κ) : (s.setStream st).Sound κ := by
  unfold State.setStream
  exact hs

theorem execPairRecord_sound {n : Nat} {z : ZIx} (hs : s.Sound κ) : Out.Sound κ (execPairRecord n z s) := by
  unfold execPairRecord
  dsimp only
  split
  · exact hs
  split
  · exact State.setSlot_sound hs
  split
  · exact State.queueEvent_sound (State.setSlot_sound (State.setStream_sound (State.tellWork_sound hs)))
  split
  · exact State.setStream_sound hs
  · exact State.setSlot_sound (State.setStream_sound hs)

theorem State.granaryFails_sound {o : Op} {e : Fail × Word} (hs : s.Sound κ) : (s.granaryFails o e).Sound κ := by
  unfold State.granaryFails
  exact State.failOp_sound (State.tellWork_sound hs)

theorem State.settleOp_sound {o : Op} {f g : GField} {x : Word} (hs : s.Sound κ) : (s.settleOp o f g x).Sound κ := by
  unfold State.settleOp
  split
  · exact State.granaryFails_sound hs
  next he => exact State.answerOp_sound ((State.commit_sound hs).get he)

theorem execGfindWalk_sound {op : Nat} (hs : s.Sound κ) : Out.Sound κ (execGfindWalk op s) := by
  unfold execGfindWalk
  dsimp only
  split
  · exact hs
  split
  · split
    · exact State.granaryFails_sound hs
    · exact State.settleOp_sound hs
  · exact hs

theorem execAnswerStep_sound {op : Nat} (hs : s.Sound κ) : Out.Sound κ (execAnswerStep op s) := by
  unfold execAnswerStep
  split
  · exact hs
  split
  · split
    · exact State.answerOp_sound hs
    split
    · exact State.granaryFails_sound hs
    split
    · exact State.answerOp_sound hs
    · exact State.settleOp_sound hs
    split
    · exact State.granaryFails_sound hs
    next he => exact State.setOp_sound (State.answerHart_sound ((State.commit_sound hs).get he))
  · exact hs

theorem State.poisonPage_sound {pg : Nat} (hs : s.Sound κ) : (s.poisonPage pg).Sound κ := by
  unfold State.poisonPage
  exact hs

theorem State.poisonEvents_sound {f : GField} {id : Nat} (hs : s.Sound κ) : (s.poisonEvents f id).Sound κ := by
  unfold State.poisonEvents
  exact foldl_sound hs fun _ _ => State.postPolicy_sound

theorem State.poisonSubtree_sound {f : GField} {id : Nat} (hs : s.Sound κ) : (s.poisonSubtree f id).Sound κ := by
  unfold State.poisonSubtree
  exact foldl_sound (foldl_sound (State.commitAnyway_sound
    (foldl_sound hs (fun _ _ hw => State.setPartAt_sound hw _ (hw.partAt _))))
      (fun _ _ => State.poisonPage_sound)) fun _ _ => State.poisonEvents_sound

theorem State.depositFails_sound {o : Op} {f : GField} {c : Cause} {a : Word} (hs : s.Sound κ) :
    (s.depositFails o f c a).Sound κ := by
  unfold State.depositFails
  exact State.queueEvent_sound (State.dropOp_sound (State.poisonSubtree_sound hs))

theorem State.replacePage_sound {p ia new : Nat} (hs : s.Sound κ) : (s.replacePage p ia new).Sound κ := by
  unfold State.replacePage
  exact State.rewatch_sound hs

theorem State.adoptPages_sound {p : Nat} {f : GField} {l : List (Nat × Nat)} (hs : s.Sound κ) :
    (s.adoptPages p f l).1.Sound κ := by
  induction l generalizing s f with
  | nil => exact hs
  | cons e l ih =>
    unfold State.adoptPages
    split
    · exact hs
    · exact ih (State.replacePage_sound hs)

theorem State.adoptNow_sound {o : Op} {d : Deposit} {f : GField} (hs : s.Sound κ) : (s.adoptNow o d f).Sound κ := by
  unfold State.adoptNow
  dsimp only
  split
  · exact State.depositFails_sound (State.tellWork_sound hs)
  split
  · exact State.depositFails_sound (State.tellWork_sound hs)
  next he => exact State.setOp_sound ((State.commit_sound (State.adoptPages_sound hs)).get he)

theorem execAdoption_sound {op : Nat} (hs : s.Sound κ) : Out.Sound κ (execAdoption op s) := by
  unfold execAdoption
  split
  · exact hs
  split
  · split
    · exact hs
    split
    · exact State.adoptNow_sound hs
    · exact hs
  · exact hs

theorem State.readyBindings_sound {f : GField} {n : Node} (hs : s.Sound κ) : (s.readyBindings f n).Sound κ := by
  unfold State.readyBindings
  exact foldl_sound hs fun _ _ ht => State.setPartAt_sound ht _ (ht.partAt _)

theorem State.makeReady_sound {o : Op} {f : GField} (hs : s.Sound κ) : (s.makeReady o f).Sound κ := by
  unfold State.makeReady
  dsimp only
  split
  · exact hs
  split
  · exact State.depositFails_sound (State.tellWork_sound hs)
  next he => exact State.dropOp_sound (State.readyBindings_sound ((State.commit_sound hs).get he))

theorem execReadyStep_sound {op : Nat} (hs : s.Sound κ) : Out.Sound κ (execReadyStep op s) := by
  unfold execReadyStep
  split
  · exact hs
  split
  · split
    · exact State.queueEvent_sound (State.dropOp_sound hs)
    split
    · exact hs
    split
    · exact State.makeReady_sound hs
    · exact hs
  · exact hs

theorem execGpinService_sound {op : Nat} (hs : s.Sound κ) : Out.Sound κ (execGpinService op s) := by
  unfold execGpinService
  split
  · exact hs
  split
  · split
    · exact State.answerOp_sound hs
    split
    · exact State.answerOp_sound hs
    · exact State.settleOp_sound hs
  · exact hs

theorem execGunpinService_sound {op : Nat} (hs : s.Sound κ) : Out.Sound κ (execGunpinService op s) := by
  unfold execGunpinService
  dsimp only
  split
  · exact hs
  split
  · split
    · exact State.answerOp_sound hs
    split
    · exact State.answerOp_sound hs
    · exact State.settleOp_sound hs
  · exact hs

theorem State.unbindSlot_sound {p n : Nat} (hs : s.Sound κ) : ExceptSound (State.Sound κ) (s.unbindSlot p n) := by
  unfold State.unbindSlot
  dsimp only
  split
  · exact hs
  split
  · exact State.setPartAt_sound hs _ (hs.partAt _)
  · exact State.commit_sound (State.setPartAt_sound hs _ (hs.partAt _))

theorem State.serveLoad_sound {o : Op} {id slot field : Nat} (hs : s.Sound κ) :
    (s.serveLoad o id slot field).Sound κ := by
  unfold State.serveLoad
  dsimp only
  split
  · exact State.granaryFails_sound hs
  next t he =>
  have ht := (State.unbindSlot_sound hs).get he
  split
  · exact State.answerOp_sound ht
  split
  · exact State.answerOp_sound ht
  split
  · exact State.answerOp_sound ht
  split
  · exact State.answerOp_sound ht
  split
  · exact State.granaryFails_sound hs
  next u hc =>
  have hu := (State.commit_sound ht).get hc
  split
  · exact State.answerOp_sound (State.editPart_sound hu)
  · exact State.setOp_sound (State.editPart_sound hu)

theorem execGloadService_sound {op : Nat} (hs : s.Sound κ) : Out.Sound κ (execGloadService op s) := by
  unfold execGloadService
  split
  · exact hs
  split
  · split
    · split
      · exact State.answerOp_sound hs
      split
      · exact State.answerOp_sound hs
      · exact hs
    split
    · exact hs
    · exact State.serveLoad_sound hs
  · exact hs

theorem execGdropService_sound {op : Nat} (hs : s.Sound κ) : Out.Sound κ (execGdropService op s) := by
  unfold execGdropService
  dsimp only
  split
  · exact hs
  split
  · split
    · exact State.answerOp_sound hs
    split
    · exact State.answerOp_sound hs
    · exact State.settleOp_sound hs
  · exact hs

theorem State.sieveFails_sound {o : Op} {e : Fail × Word} (hs : s.Sound κ) : (s.sieveFails o e).Sound κ := by
  unfold State.sieveFails
  exact State.failOp_sound (State.tellWork_sound hs)

theorem execBinning_sound {op : Nat} (hs : s.Sound κ) : Out.Sound κ (execBinning op s) := by
  unfold execBinning
  dsimp only
  split
  · exact hs
  split
  · split
    · exact State.answerOp_sound hs
    split
    · exact State.answerOp_sound hs
    split
    · exact State.sieveFails_sound hs
    split
    · exact State.answerOp_sound hs
    split
    · exact State.answerOp_sound hs
    · split <;> exact State.answerOp_sound hs
  · exact hs

theorem State.freeReserved_sound {o : Op} {z : ZIx} (hs : s.Sound κ) : (s.freeReserved o z).Sound κ := by
  unfold State.freeReserved
  dsimp only
  split
  · exact State.setSlot_sound hs
  · exact hs

theorem execStreamOpen_sound {op : Nat} (hs : s.Sound κ) : Out.Sound κ (execStreamOpen op s) := by
  unfold execStreamOpen
  dsimp only
  split
  · exact hs
  split
  · split
    · exact State.answerOp_sound (State.freeReserved_sound hs)
    split
    · exact State.sieveFails_sound (State.freeReserved_sound hs)
    · exact State.answerOp_sound (State.freeReserved_sound hs)
    · exact State.answerOp_sound (State.setSlot_sound (State.fresh_sound hs))
  · exact hs

theorem execSstatService_sound {op : Nat} (hs : s.Sound κ) : Out.Sound κ (execSstatService op s) := by
  unfold execSstatService
  split
  · exact hs
  split
  · split <;> exact State.answerOp_sound hs
  · exact hs

theorem State.poisonNodes_sound {hurt : Nat → Bool} (hs : s.Sound κ) : (s.poisonNodes hurt).Sound κ := by
  refine foldl_sound hs fun t _ ht => ?_
  split
  · exact ht
  · exact ite_holds ht (State.poisonSubtree_sound ht)

theorem State.count_sound {i n : Nat} (hs : s.Sound κ) : (s.count i n).Sound κ := by
  unfold State.count
  exact hs

theorem execPoisoning_sound {e : LineError} (hs : s.Sound κ) : Out.Sound κ (execPoisoning e s) := by
  unfold execPoisoning
  dsimp only
  split
  · exact hs
  split
  · exact State.count_sound hs
  · split
    · exact State.count_sound hs
    · exact State.poisonNodes_sound (State.count_sound hs)
  · exact State.poisonNodes_sound (State.count_sound hs)

theorem execIntakeWatchdog_sound {id : Nat} (hs : s.Sound κ) : Out.Sound κ (execIntakeWatchdog id s) := by
  unfold execIntakeWatchdog
  dsimp only
  split
  · exact hs
  · exact State.postPolicy_sound hs

theorem State.allotAll_sound (hs : s.Sound κ) : s.allotAll.Sound κ := by
  unfold State.allotAll
  exact foldl_sound hs fun _ _ => State.allot_sound

theorem State.makeRoom_sound {p st n : Nat} (hs : s.Sound κ) : (s.makeRoom p st n).Sound κ := by
  induction n generalizing s with
  | zero => exact hs
  | succ n ih =>
    unfold State.makeRoom
    dsimp only
    split
    · exact hs
    split
    · exact ih (State.setBudget_sound hs)
    · exact State.setBudget_sound hs

theorem State.rebudget_sound {p : Nat} (hs : s.Sound κ) : (s.rebudget p).Sound κ := by
  unfold State.rebudget
  exact State.allotAll_sound (foldl_sound hs (fun _ _ ht => State.makeRoom_sound (State.settleBudget_sound ht)))

theorem execPartitionRecordWrite_sound {vf : Nat} {supervisor : Bool} {r : PartRec} (hs : s.Sound κ) :
    Out.Sound κ (execPartitionRecordWrite vf supervisor r s) := by
  unfold execPartitionRecordWrite
  dsimp only
  split
  · exact hs
  split
  · exact State.postHost_sound hs
  · exact State.rewatch_sound (State.rebudget_sound (State.setPartAt_sound hs _ (hs.partAt _)))

theorem execFieldCreate_sound {p : Nat} {num : Fin 8} {r : FieldRec} (hs : s.Sound κ) :
    Out.Sound κ (execFieldCreate p num r s) := by
  unfold execFieldCreate
  dsimp only
  split
  · exact hs
  split
  · exact hs
  split
  · exact State.tellPoison_sound hs
  · exact State.setPartAt_sound (State.store_sound hs) _ (hs.partAt _)

theorem State.failFieldOps_sound {f : GField} (hs : s.Sound κ) : (s.failFieldOps f).Sound κ := by
  unfold State.failFieldOps
  exact foldl_sound hs fun _ _ => State.failOp_sound

theorem State.removeField_sound {f : GField} (hs : s.Sound κ) : (s.removeField f).Sound κ := by
  have hf := State.failFieldOps_sound (f := f) hs
  unfold State.removeField
  generalize s.failFieldOps f = t at hf
  exact State.editPart_sound (p := f.part) (foldl_sound hf fun _ _ ht => State.editPart_sound ht)

theorem execFieldRemove_sound {p : Nat} {num : Fin 8} (hs : s.Sound κ) : Out.Sound κ (execFieldRemove p num s) := by
  unfold execFieldRemove
  dsimp only
  split
  · exact hs
  · exact State.removeField_sound hs

theorem execExportEntryWrite_sound {p : Nat} {tier : Fin 8} {base low : Word} (hs : s.Sound κ) :
    Out.Sound κ (execExportEntryWrite p tier base low s) := by
  unfold execExportEntryWrite
  split <;> exact hs

theorem execColumnPowerChange_sound {die : Fin 2} {pair : Fin 4} {on : Bool} (hs : s.Sound κ) :
    Out.Sound κ (execColumnPowerChange die pair on s) := by
  unfold execColumnPowerChange
  dsimp only
  split <;> exact hs

theorem execRepairThresholdWrite_sound {n : Nat} (hs : s.Sound κ) : Out.Sound κ (execRepairThresholdWrite n s) := by
  unfold execRepairThresholdWrite
  split <;> exact hs

theorem execRowRepair_sound {bank row : Nat} (hs : s.Sound κ) : Out.Sound κ (execRowRepair bank row s) := by
  unfold execRowRepair
  split
  · exact hs
  · exact State.count_sound hs

theorem execChannelFailure_sound {channel : Nat} (hs : s.Sound κ) : Out.Sound κ (execChannelFailure channel s) := by
  have hc : (State.count { s with badChannels := s.badChannels ++ [channel] } 5 1).Sound κ := State.count_sound hs
  unfold execChannelFailure
  dsimp only
  generalize State.count { s with badChannels := s.badChannels ++ [channel] } 5 1 = t at hc
  split
  · exact hs
  split
  · exact hc
  · exact State.poisonNodes_sound (State.count_sound hc)

theorem State.setPoint_sound {st : Nat} {o : OpPoint} (hs : s.Sound κ) : (s.setPoint st o).Sound κ := by
  unfold State.setPoint
  exact hs

theorem execOperatingPointRequest_sound {st mhz mv : Nat} (hs : s.Sound κ) :
    Out.Sound κ (execOperatingPointRequest st mhz mv s) := by
  unfold execOperatingPointRequest
  dsimp only
  split
  · exact State.setPoint_sound hs
  · exact hs

theorem execThermalCapStep_sound {st tempC : Nat} (hs : s.Sound κ) : Out.Sound κ (execThermalCapStep st tempC s) := by
  unfold execThermalCapStep
  dsimp only
  split
  · exact hs
  · exact State.setPoint_sound hs

theorem State.sound_reset : State.reset.Sound κ :=
  ⟨Hart.sound_reset, List.forall_mem_nil _, List.forall_mem_nil _, List.forall_mem_nil _⟩

theorem State.powered_sound : s.powered.Sound κ := State.sound_reset

theorem execPowerUp_sound {image : List Byte} {rest : BringUp} : Out.Sound κ (execPowerUp image rest s) :=
  ite_holds (P := Out.Sound κ) (State.powered_sound (s := s)) (State.powered_sound (s := s))

theorem execAttestationReport_sound {nonce : List Byte} (hs : s.Sound κ) :
    Out.Sound κ (execAttestationReport nonce s) := by
  unfold execAttestationReport
  dsimp only
  split <;> exact hs

theorem State.performRemote_sound {p : Nat} {a : Word} {op : RemoteOp} (hs : s.Sound κ) :
    (s.performRemote p a op).Sound κ := by
  unfold State.performRemote
  dsimp only
  split
  · split
    · exact State.tellFault_sound hs
    · exact hs
  · split
    · exact State.tellFault_sound hs
    split
    · exact State.store_sound hs
    · exact State.tellFault_sound hs
  split
  · exact hs
  split
  · exact hs
  split
  · exact State.tellFault_sound hs
  · exact State.writeAll_sound hs

theorem execRemoteAccess_sound {r : RemoteReq} (hs : s.Sound κ) : Out.Sound κ (execRemoteAccess r s) := by
  unfold execRemoteAccess
  dsimp only
  split
  · exact hs
  split
  · split
    · exact State.fresh_sound hs
    · exact State.performRemote_sound hs
  split
  · exact State.fresh_sound hs
  · exact State.performRemote_sound hs

theorem execHostAccess_sound {r : HostReq} (hs : s.Sound κ) : Out.Sound κ (execHostAccess r s) := by
  unfold execHostAccess
  dsimp only
  split
  · exact hs
  · split
    · exact State.store_sound hs
    · exact hs
  · exact State.setPartAt_sound hs _ (hs.partAt _)

theorem State.freeContexts_sound {p : Nat} (hs : s.Sound κ) : (s.freeContexts p).Sound κ := by
  have drop {h : Hart} (hh : h.Sound κ) : (if h.part = p && h.status != .free then Hart.reset else h).Sound κ := by
    split
    · exact Hart.sound_reset
    · exact hh
  exact ⟨drop hs.hart, hs.others.map fun _ he => drop he, hs.parts, hs.farms⟩

theorem State.dropWork_sound {p : Nat} (hs : s.Sound κ) : (s.dropWork p).Sound κ := by
  unfold State.dropWork
  exact ⟨hs.hart, hs.others, hs.parts, FarmsSound.filter hs.farms _⟩

theorem execPartitionEnd_sound {p : Nat} (hs : s.Sound κ) : Out.Sound κ (execPartitionEnd p s) := by
  have unmap (l : List Seq) {t : State} (ht : t.Sound κ) :
      (l.foldl (fun s q => q.pages.foldl (fun s e => s.unmapPage p e.1 e.2) s) t).Sound κ :=
    foldl_sound ht fun _ q hu => foldl_sound hu fun _ e hw => State.unmapPage_sound hw
  unfold execPartitionEnd
  dsimp only
  split
  · exact hs
  · exact State.allotAll_sound (State.setPartAt_sound
      (State.freeContexts_sound (State.dropWork_sound (unmap _ (State.dropPins_sound hs)))) _ aligned_zero)

/-- Every instruction keeps the invariant. -/
theorem exec_sound {i : Instr} (hs : s.Sound κ) : Out.Sound κ (exec i s) := by
  unfold exec
  cases i with
  | add | sub | and | or | xor | sll | srl | sra | slt | sltn | min | max | minn | maxn | mul | mulh | mulhn
  | div | divn | rem | remn => exact alu2_sound hs
  | clz | ctz | popc => exact alu1_sound hs
  | addi | andi | ori | xori | slti | slli | srli | srai => exact aluImm_sound hs
  | lui | auipc | havail | kget => exact retireWith_sound hs
  | fadd | fsub | fmul | fdiv => exact farith_sound hs
  | fsqrt | fcvt => exact reading_sound hs (withMode_sound hs (fun _ => retireRound_sound hs))
  | fmin | fmax => exact fchoose_sound hs
  | feq | flt | fle => exact fcompare_sound hs
  | fmaOpcode0d | fmaOpcode0e => exact fmaOp_sound hs
  | ld => exact execLd_sound hs
  | st => exact execSt_sound hs
  | amo => exact execAmo_sound hs
  | fence => exact execFence_sound hs
  | beq | bne | blt | bge | bltn | bgen => exact branch_sound hs
  | jal => exact execJal_sound hs
  | jalr => exact execJalr_sound hs
  | vf | vfr => exact reading_sound hs (handOffBlock_sound hs)
  | setl => exact execSetl_sound hs
  | vget => exact execVget_sound hs
  | hset => exact execHset_sound hs
  | hclr => exact execHclr_sound hs
  | adv => exact execAdv_sound hs
  | kset => exact execKset_sound hs
  | hflush => exact execHflush_sound hs
  | hwait => exact execHwait_sound hs
  | matt => exact execMatt_sound hs
  | mdet => exact execMdet_sound hs
  | launch => exact execLaunch_sound hs
  | exit => exact execExit_sound hs
  | wait => exact execWait_sound hs
  | yield => exact execYield_sound hs
  | bar => exact execBar_sound hs
  | strip => exact execStrip_sound hs
  | seqnew => exact execSeqnew_sound hs
  | seqgrow => exact execSeqgrow_sound hs
  | seqend => exact execSeqend_sound hs
  | seqendT => exact execSeqendT_sound hs
  | gfind => exact execGfind_sound hs
  | gdep => exact execGdep_sound hs
  | gpin | gunpin | gload | gdrop => exact reading_sound hs (withKey_sound hs (fun _ _ => handOff_sound hs))
  | sbin => exact execSbin_sound hs
  | spair => exact execSpair_sound hs
  | sstat => exact reading_sound hs (withJobSheet_sound hs (fun _ => handOff_sound hs))
  | sopen => exact execSopen_sound hs
  | sclose => exact execSclose_sound hs
  | csrr => exact csrAccess_sound hs (retireWith_sound hs)
  | csrw | csrs | csrc => exact csrAccess_sound hs (retireCsr_sound (State.csrWrite_sound hs))
  | trap => exact trapCode_sound hs
  | tret => exact execTret_sound hs
  | brk => exact faultAt_sound hs
  | pswap => exact execPswap_sound hs
  | readLifetimeCounter => exact execReadLifetimeCounter_sound hs
  | readMeasurementLog => exact execReadMeasurementLog_sound hs
  | postPartitionNotice => exact execPostPartitionNotice_sound hs
  | vstop => exact State.withHart_sound hs (Hart.endBlock_sound hs.hart)
  | vnop => exact vDone_sound hs
  | vadd | vsub | vmul | vmulh | vmin | vmax | vand | vor | vxor | vsll | vsrl | vsra | vadds | vsubs | vabsd =>
    exact intOp_sound hs
  | vmac => exact execVmac_sound hs
  | vcmp => exact execVcmp_sound hs
  | vaddi | vshi => exact intOp1_sound hs
  | viota => exact execViota_sound hs
  | vfadd | vfsub | vfmul | vfdiv | vfmin | vfmax => exact floatOp_sound hs
  | vfma => exact execVfma_sound hs
  | vfsqrt => exact floatOp1_sound hs
  | vfrcp | vfrsq | vfexp2 => exact approxOp_sound hs
  | vfcmp => exact execVfcmp_sound hs
  | vfclass => exact execVfclass_sound hs
  | vcvt => exact execVcvt_sound hs
  | vslice | vunslice => exact reslice_sound hs
  | vqscale => exact execVqscale_sound hs
  | plog | pset => exact predOp_sound hs
  | ppopc | pfirst => exact predCount_sound hs
  | vbcast => exact execVbcast_sound hs
  | vins => exact execVins_sound hs
  | vslup | vsldn => exact moveOp_sound hs
  | vperm => exact execVperm_sound hs
  | vcompr => exact execVcompr_sound hs
  | vexpnd => exact execVexpnd_sound hs
  | vmerge => exact execVmerge_sound hs
  | vmov => exact execVmov_sound hs
  | vredsum | vredmax | vredmin => exact reduceOp_sound hs
  | vscan => exact execVscan_sound hs
  | vtopk => exact execVtopk_sound hs
  | vldh => exact vldhWith_sound hs
  | vsth => exact vsthWith_sound hs
  | vldhx => exact vldhxWith_sound hs
  | vsthx => exact vsthxWith_sound hs
  | vldf => exact vldfWith_sound (fun _ _ _ => State.farAccess_sound) hs
  | vstf => exact vstfWith_sound (fun _ _ _ => State.farAccess_sound) hs
  | vldx => exact vldxWith_sound (fun _ _ _ => State.farAccess_sound) hs
  | vstx => exact vstxWith_sound (fun _ _ _ => State.farAccess_sound) hs
  | vamo => exact vamoWith_sound (fun _ _ _ => State.farAccess_sound) hs
  | vldt => exact execVldt_sound hs
  | vstt => exact execVstt_sound hs
  | vlds => exact execVlds_sound hs
  | vsts => exact execVsts_sound hs
  | hmask => exact execHmask_sound hs
  | mopa => exact execMopa_sound hs
  | mopas => exact execMopas_sound hs
  | mrd => exact execMrd_sound hs
  | mwr => exact execMwr_sound hs
  | mzero => exact execMzero_sound hs
  | vsprune => exact execVsprune_sound hs
  | vrope => exact execVrope_sound hs
  | decision => exact execDecision_sound hs
  | sliceEnd => exact execSliceEnd_sound hs
  | preEmption => exact OptionSound.getD (State.preempt_sound hs) hs
  | restore => exact OptionSound.getD (State.restore_sound hs) hs
  | farmStart => exact execFarmStart_sound hs
  | hartPlacement => exact OptionSound.getD (State.growFarm_sound hs) hs
  | launchAcceptance => exact execLaunchAcceptance_sound hs
  | completionWord => exact OptionSound.getD (State.completeFarm_sound hs) hs
  | wakeRead => exact execWakeRead_sound hs
  | hartDispatch => exact execHartDispatch_sound hs
  | trapEntry => exact execTrapEntry_sound hs
  | windowReset => exact execWindowReset_sound hs
  | harvestOrder => exact OptionSound.getD (State.takeOrder_sound hs) hs
  | gleanerFetch => exact execGleanerFetch_sound hs
  | lineArrival => exact execLineArrival_sound hs
  | lineRelease => exact OptionSound.getD (State.releaseOrder_sound hs) hs
  | gleanerWriteBack => exact execGleanerWriteBack_sound hs
  | gleanerFold => exact execGleanerFold_sound hs
  | multicastFill => exact execMulticastFill_sound hs
  | streamDelivery => exact execStreamDelivery_sound hs
  | pairRecord => exact execPairRecord_sound hs
  | gfindWalk => exact execGfindWalk_sound hs
  | answerStep => exact execAnswerStep_sound hs
  | adoption => exact execAdoption_sound hs
  | readyStep => exact execReadyStep_sound hs
  | gpinService => exact execGpinService_sound hs
  | gunpinService => exact execGunpinService_sound hs
  | gloadService => exact execGloadService_sound hs
  | gdropService => exact execGdropService_sound hs
  | binning => exact execBinning_sound hs
  | streamOpen => exact execStreamOpen_sound hs
  | sstatService => exact execSstatService_sound hs
  | poisoning => exact execPoisoning_sound hs
  | intakeWatchdog => exact execIntakeWatchdog_sound hs
  | pageInvalidation => exact State.rewatch_sound hs
  | pageScrub => exact State.scrubbed_sound hs
  | vfReset | channelRetraining => exact hs
  | partitionRecordWrite => exact execPartitionRecordWrite_sound hs
  | fieldCreate => exact execFieldCreate_sound hs
  | fieldRemove => exact execFieldRemove_sound hs
  | exportEntryWrite => exact execExportEntryWrite_sound hs
  | columnPowerChange => exact execColumnPowerChange_sound hs
  | repairThresholdWrite => exact execRepairThresholdWrite_sound hs
  | rowRepair => exact execRowRepair_sound hs
  | channelFailure => exact execChannelFailure_sound hs
  | operatingPointRequest => exact execOperatingPointRequest_sound hs
  | thermalCapStep => exact execThermalCapStep_sound hs
  | powerUp => exact execPowerUp_sound
  | attestationReport => exact execAttestationReport_sound hs
  | powerOnHour => exact State.count_sound (State.count_sound hs)
  | remoteAccess => exact execRemoteAccess_sound hs
  | hostAccess => exact execHostAccess_sound hs
  | partitionEnd => exact execPartitionEnd_sound hs

theorem State.controlTurnBy_sound {run : Instr → State → Out}
    (hrun : ∀ i t, t.Sound κ → Out.Sound κ (run i t)) (hs : s.Sound κ) : Out.Sound κ (State.controlTurnBy run s) := by
  unfold State.controlTurnBy
  dsimp only
  split
  · exact State.withHart_sound hs hs.hart
  split
  · exact afterTurn_sound (exec_sound (State.withHart_sound hs hs.hart))
  split
  · exact afterTurn_sound (exec_sound (State.withHart_sound hs hs.hart))
  split
  · exact afterTurn_sound (faultAt_sound (State.tellVirtual_sound (State.withHart_sound hs hs.hart)))
  refine afterTurn_sound ?_
  split
  · exact hrun _ _ (State.withHart_sound hs hs.hart)
  · exact stallCtl_sound (State.withHart_sound hs hs.hart)

theorem State.controlTurn_sound (hs : s.Sound κ) : Out.Sound κ (s.controlTurn) := by
  unfold State.controlTurn
  exact State.controlTurnBy_sound (fun _ _ => exec_sound) hs

theorem Hart.openStart_sound {i : Instr} (hh : h.Sound κ) : (h.openStart i).Sound κ := by
  unfold Hart.openStart
  split
  · exact hh
  · split <;> exact hh

theorem Hart.markConvoy_sound {n : Nat} (hh : h.Sound κ) : (h.markConvoy n).Sound κ := by
  unfold Hart.markConvoy
  split <;> exact hh

theorem State.sequencerTurnBy_sound {run : Instr → State → Out} (hrun : ∀ i t, t.Sound κ → Out.Sound κ (run i t))
    (hs : s.Sound κ) : Out.Sound κ (s.sequencerTurnBy run) := by
  have ht : (s.withHart { s.hart with seqStall := false }).Sound κ := State.withHart_sound hs hs.hart
  unfold State.sequencerTurnBy
  dsimp only
  generalize s.withHart { s.hart with seqStall := false } = t at ht
  split
  · exact ht
  split
  next o ho => exact afterTurn_sound ((State.farEnds_sound ht).get ho)
  split
  · exact ht
  · exact ite_holds (stallSeq_sound ht)
      (State.unstalled_sound (State.takeTrap_sound (State.tellVirtual_sound ht)) :)
  · exact ite_holds (stallSeq_sound ht) (State.unstalled_sound (State.takeTrap_sound ht) :)
  · exact afterTurn_sound
      (hrun _ _ (State.withHart_sound ht (Hart.openStart_sound (Hart.markConvoy_sound ht.hart))))

theorem State.noteChecked_sound {i : Instr} (hs : s.Sound κ) : (State.noteChecked i s).Sound κ := by
  unfold State.noteChecked
  dsimp only
  split
  · split
    · exact hs
    split
    · exact hs
    · exact State.withHart_sound hs hs.hart
  · split
    · exact hs
    split
    · exact hs
    · exact State.withHart_sound hs hs.hart
  · exact hs

theorem noted_sound {i : Instr} {o : Out} (ho : Out.Sound κ o) : Out.Sound κ (noted i o) := by
  unfold noted
  split
  · exact State.noteChecked_sound ho
  · exact ho

theorem farWith_sound {go : State → Blk → FarPlan → Out} {i : Instr}
    (hgo : ∀ t k p, t.Sound κ → Out.Sound κ (go t k p)) (hs : s.Sound κ) :
    OptionSound (Out.Sound κ) (farWith go i s) := by
  unfold farWith
  split
  · exact vldfWith_sound (fun _ _ _ ht => hgo _ _ _ ht) hs
  · exact vstfWith_sound (fun _ _ _ ht => hgo _ _ _ ht) hs
  · exact vldxWith_sound (fun _ _ _ ht => hgo _ _ _ ht) hs
  · exact vstxWith_sound (fun _ _ _ ht => hgo _ _ _ ht) hs
  · exact vamoWith_sound (fun _ _ _ ht => hgo _ _ _ ht) hs
  · trivial

theorem State.farGuarded_sound {run : State → Blk → FarPlan → Out} {k : Blk} {p : FarPlan}
    (hrun : ∀ t k p, t.Sound κ → Out.Sound κ (run t k p)) (hs : s.Sound κ) :
    Out.Sound κ (State.farGuarded run s k p) := by
  unfold State.farGuarded
  dsimp only
  split
  · exact stallSeq_sound hs
  split
  · exact hrun _ _ _ hs
  refine stallSeq_sound ?_
  split <;> exact hs

theorem State.runGuarded_sound {far : State → Blk → FarPlan → Out} {run : Instr → State → Out} {i : Instr}
    (hfar : ∀ t k p, t.Sound κ → Out.Sound κ (far t k p)) (hrun : ∀ i t, t.Sound κ → Out.Sound κ (run i t))
    (hs : s.Sound κ) : Out.Sound κ (s.runGuarded far run i) := by
  unfold State.runGuarded
  split
  · split
    · exact stallSeq_sound hs
    · exact (farWith_sound (fun t k p ht => State.farGuarded_sound hfar ht) hs).get ‹_›
  split
  · exact stallSeq_sound hs
  split
  · split
    · exact stallSeq_sound hs
    · exact ‹run i s = _› ▸ hrun i s hs
  · exact hrun i s hs

theorem State.runBlock_sound {i : Instr} (hs : s.Sound κ) : Out.Sound κ (State.runBlock i s) := by
  unfold State.runBlock
  split
  · exact noted_sound (exec_sound hs)
  · exact noted_sound (State.runGuarded_sound (fun _ _ _ => State.farAccess_sound) (fun _ _ => exec_sound) hs)

theorem State.sequencerTurn_sound (hs : s.Sound κ) : Out.Sound κ (s.sequencerTurn) := by
  unfold State.sequencerTurn
  exact State.sequencerTurnBy_sound (fun _ _ => State.runBlock_sound) hs

theorem State.drainTurn_sound {i : Nat} (hs : s.Sound κ) : Out.Sound κ (s.drainTurn i) := by
  unfold State.drainTurn
  split
  · exact State.unstalled_sound (State.drain_sound hs)
  · exact hs

theorem State.eventTurn_sound {i : Instr} (hs : s.Sound κ) : Out.Sound κ (s.eventTurn i) := by
  have he : Out.Sound κ (exec i s) := exec_sound hs
  unfold State.eventTurn
  generalize exec i s = o at he
  split
  · cases o with
    | next t => exact State.unstalled_sound he
    | fault => trivial
    | refused => trivial
  · trivial

theorem State.retireLate_sound {d : Reg} {pas : List Nat} {release : Bool} {kind : Nat → PendKind} (hs : s.Sound κ) :
    Out.Sound κ (s.retireLate d pas release kind) := by
  unfold State.retireLate
  exact retire_sound (State.withHart_sound (State.fresh_sound hs) (Hart.owe_sound ((State.fresh_sound hs).hart)))

theorem execLate_sound {i : Instr} {run : State → Out} (hrun : ∀ t, t.Sound κ → Out.Sound κ (run t))
    (hs : s.Sound κ) : Out.Sound κ (execLate i run s) := by
  unfold execLate
  dsimp only
  split
  · refine reading_sound hs ?_
    split
    · exact stallCtl_sound hs
    split
    · exact faultAccess_sound hs
    · exact State.retireLate_sound hs
  · split
    · exact hrun _ hs
    refine reading_sound hs ?_
    split
    · split
      · exact stallCtl_sound hs
      split
      · exact faultAccess_sound hs
      · exact State.retireLate_sound hs
    split
    · exact stallCtl_sound hs
    split
    · exact faultAccess_sound hs
    · exact State.retireLate_sound hs
  · exact synchronise_sound hs (State.retireLate_sound hs)
  · exact hrun _ hs

theorem State.lateTurn_sound (hs : s.Sound κ) : Out.Sound κ (s.lateTurn) := by
  unfold State.lateTurn
  exact State.controlTurnBy_sound (fun _ _ ht => execLate_sound (fun _ => exec_sound) ht) hs

theorem State.farIssue_sound {k : Blk} {p : FarPlan} (hs : s.Sound κ) : Out.Sound κ (s.farIssue k p) := by
  unfold State.farIssue
  dsimp only
  refine ite_holds (P := Out.Sound κ) (State.farAccess_sound hs) ?_
  have landed {w : FarWhat} {n : Nat} {l : List (Nat × Nat)} : (s.fresh.2.landed k w n l).Sound κ :=
    State.landed_sound (State.fresh_sound hs)
  have issued {t : State} {c : Prop} [Decidable c] {q : List FarRun} (ht : t.Sound κ) :
      State.Sound κ (if c then t else { t with hart := { t.hart with vq := q } }) :=
    ite_holds ht (State.editHart_sound ht)
  exact ite_holds (P := Out.Sound κ) (State.completed_sound (issued landed))
    (ite_holds (P := Out.Sound κ) (issued landed) (stallSeq_sound (issued landed)))

theorem execElement_sound {i : Instr} (hs : s.Sound κ) : Out.Sound κ (execElement i s) := by
  unfold execElement
  exact OptionSound.getD (sheafWith_sound hs) (exec_sound hs)

theorem State.issueBlock_sound {i : Instr} (hs : s.Sound κ) : Out.Sound κ (State.issueBlock i s) := by
  unfold State.issueBlock
  exact noted_sound (State.runGuarded_sound (fun _ _ _ => State.farIssue_sound) (fun _ _ => execElement_sound) hs)

theorem State.issueTurn_sound (hs : s.Sound κ) : Out.Sound κ (s.issueTurn) := by
  unfold State.issueTurn
  exact State.sequencerTurnBy_sound (fun _ _ => State.issueBlock_sound) hs

theorem State.elemTurn_sound {i j : Nat} (hs : s.Sound κ) : Out.Sound κ (s.elemTurn i j) := by
  unfold State.elemTurn
  split
  · exact State.unstalled_sound (State.elem_sound hs)
  · exact hs

theorem State.writeHead_sound {p farm i : Nat} {bs : List Byte} (hs : s.Sound κ) :
    (s.writeHead p farm i bs).Sound κ := by
  unfold State.writeHead
  dsimp only
  split
  · split
    · exact State.store_sound hs
    · exact State.schedulerFails_sound (State.tellFault_sound hs)
  · exact State.schedulerFails_sound hs
  · exact State.schedulerFails_sound (State.tellFault_sound hs)

theorem State.schedulerWrite_sound {p farm : Nat} {a : Word} {bs : List Byte} (hs : s.Sound κ) :
    (s.schedulerWrite p farm a bs).Sound κ := by
  unfold State.schedulerWrite
  split
  next he => exact (State.engineWrite_sound hs).get he
  · exact State.schedulerFails_sound (State.tellFault_sound hs)

theorem State.performOwed_sound {id : Nat} (hs : s.Sound κ) : (s.performOwed id).Sound κ := by
  unfold State.performOwed
  dsimp only
  split
  · exact hs
  split
  · exact hs
  split
  · exact State.writeHead_sound hs
  · exact State.schedulerWrite_sound hs

theorem State.performHeld_sound {id : Nat} (hs : s.Sound κ) : (s.performHeld id).Sound κ := by
  unfold State.performHeld
  dsimp only
  split
  · exact hs
  split
  · exact hs
  · exact State.performRemote_sound hs

theorem State.pairRead_sound {id : Nat} (hs : s.Sound κ) : (s.pairRead id).Sound κ := by
  unfold State.pairRead
  split
  · exact hs
  split
  · exact hs
  split
  · exact State.setStream_sound hs
  · exact hs

theorem State.engineStep_sound {oid : Nat} (hs : s.Sound κ) : (s.engineStep oid).Sound κ := by
  unfold State.engineStep
  dsimp only
  split
  · exact State.performOwed_sound (State.performHeld_sound (State.pairRead_sound hs))
  split
  · split
    · exact hs
    split
    · exact hs
    split
    · split
      · exact State.setOp_sound hs
      · exact hs
    · exact hs
  · split
    · split
      · exact State.setOp_sound hs
      · exact hs
    · exact hs
  · split
    · exact hs
    split
    · split
      · exact State.setOp_sound hs
      · exact hs
    · exact hs
  · exact hs

theorem State.earlyTurn_sound (hs : s.Sound κ) : Out.Sound κ (s.earlyTurn) := by
  unfold State.earlyTurn
  dsimp only
  split
  · exact hs
  split
  · split
    · split
      · split
        · exact State.withHart_sound hs hs.hart
        · exact hs
      · exact hs
    · exact hs
  · exact hs

theorem State.turn_sound {tn : Turn} (hs : s.Sound κ) : Out.Sound κ (s.turn tn) := by
  unfold State.turn
  split
  · exact State.controlTurn_sound (State.switchTo_sound hs _)
  · exact State.sequencerTurn_sound (State.switchTo_sound hs _)
  · exact State.drainTurn_sound (State.switchTo_sound hs _)
  · exact State.eventTurn_sound hs
  · exact State.lateTurn_sound (State.switchTo_sound hs _)
  · exact State.issueTurn_sound (State.switchTo_sound hs _)
  · exact State.elemTurn_sound (State.switchTo_sound hs _)
  · exact State.unstalled_sound (State.engineStep_sound hs)
  · exact State.earlyTurn_sound (State.switchTo_sound hs _)

theorem State.background_sound (hs : s.Sound κ) : OptionSound (Out.Sound κ) (s.background) := by
  unfold State.background
  split
  · exact State.drainTurn_sound hs
  split
  · trivial
  · exact State.elemTurn_sound hs

theorem State.defaultTurn_sound (hs : s.Sound κ) : Out.Sound κ (s.defaultTurn) := by
  unfold State.defaultTurn
  dsimp only
  split
  · exact State.controlTurn_sound hs
  split
  · exact State.sequencerTurn_sound hs
  split
  next he => exact (State.background_sound hs).get he
  split
  · exact State.unstalled_sound (State.engineStep_sound hs)
  split
  · exact State.eventTurn_sound hs
  split
  · split
    · exact State.controlTurn_sound (State.switchTo_sound hs _)
    split
    · exact State.sequencerTurn_sound (State.switchTo_sound hs _)
    · exact OptionSound.getD (State.background_sound (State.switchTo_sound hs _)) (State.switchTo_sound hs _)
  · exact hs

theorem State.oneStep_sound (hs : s.Sound κ) : Out.Sound κ (s.oneStep) := by
  unfold State.oneStep
  dsimp only
  split
  · exact State.turn_sound (State.tick_sound hs)
  · exact State.defaultTurn_sound (State.tick_sound hs)

/- The two invariants of the obligation. -/

theorem Hart.sound_modes_iff : h.Sound .modes ↔ h.ModesLegal := by
  simp [Hart.Sound, SoundFields, TrapBank.Sound, Aligned, Legal, Hart.ModesLegal, and_comm, and_left_comm]

theorem Hart.sound_code_iff : h.Sound .code ↔ h.CodeAligned := by
  simp [Hart.Sound, SoundFields, TrapBank.Sound, Aligned, Legal, Hart.CodeAligned]

theorem State.sound_modes_iff : s.Sound .modes ↔ s.ModesLegal := by
  simp [State.Sound, HartsSound, PartsSound, FarmsSound, Part.Sound, Farm.Sound, Aligned, State.ModesLegal,
    State.EveryHart, Hart.sound_modes_iff]

theorem State.sound_code_iff : s.Sound .code ↔ s.CodeAligned := by
  simp [State.Sound, HartsSound, PartsSound, FarmsSound, Part.Sound, Farm.Sound, Aligned, State.CodeAligned,
    State.EveryHart, Hart.sound_code_iff, and_assoc]

theorem step_sound (hs : s.Sound κ) (e : step s = .next t) : t.Sound κ := by
  have h : Out.Sound κ (step s) := State.oneStep_sound hs
  rwa [e] at h

/-- Settles O57: `State.Sound` holds of what every function of the model answers when it holds of what it is given, for
levels and for code addresses alike, so a step keeps both. -/
theorem stepKeepsModesAndAlignment : Obligations.StepKeepsModesAndAlignment :=
  ⟨fun _ _ hs e => State.sound_modes_iff.1 (step_sound (State.sound_modes_iff.2 hs) e),
    fun _ _ hs e => State.sound_code_iff.1 (step_sound (State.sound_code_iff.2 hs) e)⟩

end Sys2Proof.Machine
end

