-- ==== Sys2Proof/Proofs/ResetValues.lean ====
section
/-!
The values that reset leaves (R47, R48, R60, R67, R145, R180, R183, R193, R212, R284): each register is read by the
model's own `csrRead`.
-/

namespace Sys2Proof.Machine

set_option Elab.async false

theorem State.reset_hartAt (h : Nat) : State.reset.hartAt h = Hart.reset := by
  unfold State.hartAt
  split <;> rfl

theorem State.reset_modesLegal : State.reset.ModesLegal := by
  simp [State.ModesLegal, State.EveryHart, State.reset, Hart.ModesLegal]

theorem State.reset_codeAligned : State.reset.CodeAligned := by
  simp [State.CodeAligned, State.EveryHart, State.reset, Hart.CodeAligned]

theorem State.reset_counters : ∀ k : KIx, State.reset.hart.k[k.val] = { val := 0, bound := 0, target := none } := by
  decide

theorem State.reset_csr_zero : ∀ n ∈ [0x001, 0x003, 0x004, 0x010, 0x011, 0x012, 0x018, 0x019, 0x021, 0x022, 0x023, 0x024,
    0x044, 0x050, 0x060, 0x801, 0x844], State.reset.csrRead n = 0 := by
  decide

/-- The thresholds and counts of the six classes of numeric events (R69). -/
theorem State.reset_csr_classes : ∀ c < 6, State.reset.csrRead (0x028 + c) = 0 ∧ State.reset.csrRead (0x030 + c) = 0 := by
  decide

/-- LPART: every lane of each of its four words. -/
theorem State.reset_csr_lpart : ∀ n < 4, State.reset.csrRead (0x014 + n) = BitVec.allOnes 64 := by
  decide

/-- The registers whose reset value is neither 0 nor a part of LPART. -/
theorem State.reset_csr_rest : State.reset.csrRead 0x002 = BitVec.allOnes 64 ∧ State.reset.csrRead 0x013 = 1 ∧
    State.reset.csrRead 0x020 = 0x0028A28A ∧ State.reset.csrRead 0x800 = 0x100 ∧
    State.reset.csrRead 0x078 = 0x100C40C0300C ∧ State.reset.csrRead 0x079 = 0x1200150000 ∧
    State.reset.csrRead 0x07A = 0x10001 := by
  decide

/-- Settles O55: the registers are read one by one. -/
theorem resetGivesStatedValues : Obligations.ResetGivesStatedValues := by
  obtain ⟨hstrip, hgrant, hfmtdef, hrakestat, hcaps0, hcaps1, hcaps2⟩ := State.reset_csr_rest
  exact ⟨rfl, rfl, State.reset_modesLegal, State.reset_codeAligned, State.reset_hartAt, State.reset_counters,
    State.reset_csr_zero, State.reset_csr_classes, hstrip, hgrant, State.reset_csr_lpart, hfmtdef, hrakestat, hcaps0,
    hcaps1, hcaps2, rfl⟩

end Sys2Proof.Machine
end

