-- ==== Sys2Proof/Proofs/StepDecodes.lean ====
section
/-!
A step is the turn of a stream in the state where the clock has moved, and the turn of a stream runs what its bytes
decode to (R22, R24, R37, R249, R263).
-/

namespace Sys2Proof.Machine

set_option Elab.async false

variable {s u : State} {b : Block} {i : Instr}

/- The clock: what `tick` leaves of the current hart. -/

theorem Hart.ticked_eq (h : Hart) (m n : Nat) :
    ∃ c l d, h.ticked m n = { h with ncnt := c, lanecyc := l, sinceDispatch := d } := by
  unfold Hart.ticked Hart.windowed
  dsimp only
  split <;> split <;> exact ⟨_, _, _, rfl⟩

theorem State.tick_hart (s : State) :
    ∃ c l d, s.tick.hart = { s.hart with ncnt := c, lanecyc := l, sinceDispatch := d } :=
  Hart.ticked_eq _ _ _

@[simp] theorem State.tick_pc : s.tick.hart.pc = s.hart.pc := by
  obtain ⟨_, _, _, he⟩ := s.tick_hart
  rw [he]

@[simp] theorem State.tick_x : s.tick.hart.x = s.hart.x := by
  obtain ⟨_, _, _, he⟩ := s.tick_hart
  rw [he]

@[simp] theorem State.tick_v : s.tick.hart.v = s.hart.v := by
  obtain ⟨_, _, _, he⟩ := s.tick_hart
  rw [he]

@[simp] theorem State.tick_status : s.tick.hart.status = s.hart.status := by
  obtain ⟨_, _, _, he⟩ := s.tick_hart
  rw [he]

@[simp] theorem State.tick_needsReserved : s.tick.hart.needsReserved = s.hart.needsReserved := by
  obtain ⟨_, _, _, he⟩ := s.tick_hart
  rw [he]

@[simp] theorem State.tick_gangWait : s.tick.hart.gangWait = s.hart.gangWait := by
  obtain ⟨_, _, _, he⟩ := s.tick_hart
  rw [he]

@[simp] theorem State.tick_ending : s.tick.hart.ending = s.hart.ending := by
  obtain ⟨_, _, _, he⟩ := s.tick_hart
  rw [he]

@[simp] theorem State.tick_trapWait : s.tick.hart.trapWait = s.hart.trapWait := by
  obtain ⟨_, _, _, he⟩ := s.tick_hart
  rw [he]

@[simp] theorem State.tick_ctlStall : s.tick.hart.ctlStall = s.hart.ctlStall := by
  obtain ⟨_, _, _, he⟩ := s.tick_hart
  rw [he]

@[simp] theorem State.tick_seqStall : s.tick.hart.seqStall = s.hart.seqStall := by
  obtain ⟨_, _, _, he⟩ := s.tick_hart
  rw [he]

@[simp] theorem State.tick_block : s.tick.hart.block = s.hart.block := by
  obtain ⟨_, _, _, he⟩ := s.tick_hart
  rw [he]
  rfl

theorem State.switchTo_cur (s : State) : s.switchTo s.cur = s := if_pos rfl

theorem afterTurn_eq_claim (f : Hart → Bool) (o : Out) : afterTurn f o = Claims.afterTurn f o := by
  cases o <;> rfl

/- Which stream has its turn. -/

theorem Hart.live_of_running {h : Hart} (hr : h.status = .running ∧ h.needsReserved = none ∧ h.gangWait = false) :
    h.live = true := by
  obtain ⟨hstatus, hreserved, hgang⟩ := hr
  simp [Hart.live, hstatus, hreserved, hgang]

theorem State.tick_live (hr : s.hart.status = .running ∧ s.hart.needsReserved = none ∧ s.hart.gangWait = false) :
    s.tick.hart.live = true :=
  Hart.live_of_running (by simpa using hr)

/-- With an empty agenda the turn leaves it as it is. -/
theorem State.tick_agenda_nil (h : s.agenda = []) : { s.tick with agenda := s.agenda.tail } = s.tick := by
  have htick : s.tick.agenda = [] := h
  rw [h, List.tail_nil, ← htick]

theorem step_of_controlNext (h : Claims.ControlNext s) : step s = { s.tick with agenda := s.agenda.tail }.controlTurn := by
  obtain ⟨⟨hagenda, hstall⟩ | ⟨ts, hagenda⟩, hruns, -⟩ := h
  · have hready : s.tick.hart.controlReady = true := by simp [Hart.controlReady, State.tick_live hruns, hstall]
    have htick : s.tick.agenda = [] := hagenda
    rw [State.tick_agenda_nil hagenda]
    simp only [step, State.oneStep, htick, State.defaultTurn, hready, if_true]
  · have htick : s.tick.agenda = .control s.cur :: ts := hagenda
    simp only [step, State.oneStep, htick, State.turn, hagenda, List.tail_cons]
    exact congrArg State.controlTurn (State.switchTo_cur _)

theorem step_of_blockNext (h : Claims.BlockNext s b) : step s = { s.tick with agenda := s.agenda.tail }.sequencerTurn := by
  obtain ⟨⟨hagenda, hctl, hseq⟩ | ⟨ts, hagenda⟩, ⟨hstatus, hreserved, hgang, -⟩, hblock⟩ := h
  · have hready : s.tick.hart.controlReady = false := by simp [Hart.controlReady, hctl]
    have hblocks : s.tick.hart.blocksReady = true := by
      simp [Hart.blocksReady, State.tick_live ⟨hstatus, hreserved, hgang⟩, hblock, hseq]
    have htick : s.tick.agenda = [] := hagenda
    rw [State.tick_agenda_nil hagenda]
    simp only [step, State.oneStep, htick, State.defaultTurn, hready, hblocks, if_true, Bool.false_eq_true, if_false]
  · have htick : s.tick.agenda = .blocks s.cur :: ts := hagenda
    simp only [step, State.oneStep, htick, State.turn, hagenda, List.tail_cons]
    exact congrArg State.sequencerTurn (State.switchTo_cur _)

/- A turn of the control stream. -/

/-- What a turn of a control stream that runs does once its mark is cleared. -/
def State.controlOutcome (u : State) : Out :=
  match u.nextControl with
  | .error e => faultAt (u.tellVirtual u.hart.part u.cur u.hart.pc e) e.cause e.eval
  | .ok i => if u.controlFree i then exec i u else stallCtl u

theorem controlOutcome_ok (h : u.nextControl = .ok i) :
    u.controlOutcome = if u.controlFree i then exec i u else stallCtl u := by
  rw [State.controlOutcome, h]

theorem controlOutcome_error {e : Fail} (h : u.nextControl = .error e) :
    u.controlOutcome = faultAt (u.tellVirtual u.hart.part u.cur u.hart.pc e) e.cause e.eval := by
  rw [State.controlOutcome, h]

theorem step_control (h : Claims.ControlNext s) :
    step s = Claims.afterTurn (·.ctlStall) (Claims.inControl s).controlOutcome := by
  have hstep := step_of_controlNext h
  obtain ⟨-, hruns, htrap, hending⟩ := h
  have hlive : (Claims.inControl s).hart.live = true := Hart.live_of_running (by simpa [Claims.inControl] using hruns)
  have htrap : (Claims.inControl s).hart.trapWait.isSome = false := by simp [Claims.inControl, htrap]
  have hending : (Claims.inControl s).hart.ending = false := by simp [Claims.inControl, hending]
  rw [hstep]
  unfold State.controlTurn State.controlTurnBy State.controlOutcome
  change (if !(Claims.inControl s).hart.live then _ else if (Claims.inControl s).hart.trapWait.isSome then _ else
    if (Claims.inControl s).hart.ending then _ else _) = _
  rw [hlive, htrap, hending]
  simp only [afterTurn_eq_claim, Bool.not_true, Bool.false_eq_true, if_false]
  change (match (Claims.inControl s).nextControl with | .error e => _ | .ok i => _) = _
  cases (Claims.inControl s).nextControl <;> rfl

theorem passes_iff (i : Instr) (u : State) : Claims.Passes i u ↔ u.controlFree i = true := by
  have hacq : (∀ r ∈ u.hart.vq, r.acq = false) ↔ (!u.hart.vq.any (·.acq)) = true := by simp
  have hread : (∀ p ∈ u.hart.sbuf, p.reading = false) ↔ (!u.hart.sbuf.any (·.reading)) = true := by simp
  unfold Claims.Passes State.controlFree
  rw [Bool.and_eq_true, Bool.or_eq_true, hacq, hread]
  refine and_congr_right fun _ => or_congr_right ?_
  cases i
  case ld z sx rl d a off =>
    dsimp only
    cases u.locate u.who (farSum (u.hart.rd a) off.toInt) (sizeBytes z) 0 .rd with
    | error e => simp
    | ok pas => simp
  all_goals exact (Bool.not_eq_true' _).symm.to_iff

section control

variable {bs : List Byte}

theorem nextControl_ok (hf : u.fetchBytes u.hart.part u.hart.pc 4 = .ok bs) (hd : decodeControl (ofBytes bs) = .ok i) :
    u.nextControl = .ok i := by
  simp only [State.nextControl, hf, hd]

theorem nextControl_illegal {e : DecodeErr} (hf : u.fetchBytes u.hart.part u.hart.pc 4 = .ok bs)
    (hd : decodeControl (ofBytes bs) = .error e) :
    u.nextControl = .error ⟨.illegal, BitVec.ofNat 64 (ofBytes bs), []⟩ := by
  simp only [State.nextControl, hf, hd]

theorem nextControl_unfetched {e : Fail} (hf : u.fetchBytes u.hart.part u.hart.pc 4 = .error e) :
    u.nextControl = .error e := by
  simp only [State.nextControl, hf]

end control

/- A turn of the sequencer. -/

theorem farEnds_none (h : ∀ r ∈ u.hart.vq, r.last = none) : u.farEnds = none := by
  unfold State.farEnds
  split
  · rfl
  next r rs hvq =>
    have hnone : (r :: rs).findSome? (·.last) = none := by simpa [List.findSome?_eq_none_iff, hvq] using h
    rw [hnone]

/-- What a turn of a sequencer that runs does once its mark is cleared, when no access still has its word to end. -/
def State.blockOutcome (u : State) : Out :=
  match u.seqStep with
  | .idle => .next u
  | .fault f =>
    if !u.hart.vq.isEmpty then stallSeq u
    else .next ((u.tellVirtual u.hart.part u.cur u.hart.blockPos f).takeTrap f.cause f.eval u.hart.blockPos true 0).unstalled
  | .convoy => if !u.hart.vq.isEmpty then stallSeq u else .next (u.takeTrap .convoy 0 u.hart.blockPos true 0).unstalled
  | .run i n => Claims.afterTurn (·.seqStall) ((u.withHart ((u.hart.markConvoy n).openStart i)).runBlock i)

theorem inBlocks_block (h : Claims.BlockNext s b) : (Claims.inBlocks s).hart.block = some b :=
  (s.tick_block).trans h.oldest

theorem step_blocks (h : Claims.BlockNext s b) (hlast : ∀ r ∈ (Claims.inBlocks s).hart.vq, r.last = none) :
    step s = (Claims.inBlocks s).blockOutcome := by
  have hstep := step_of_blockNext h
  obtain ⟨-, ⟨hstatus, hreserved, hgang, -⟩, -⟩ := h
  have hlive : (Claims.inBlocks s).hart.live = true :=
    Hart.live_of_running (by simpa [Claims.inBlocks] using And.intro hstatus ⟨hreserved, hgang⟩)
  rw [hstep]
  unfold State.sequencerTurn State.sequencerTurnBy State.blockOutcome
  change (if !(Claims.inBlocks s).hart.live then _ else match (Claims.inBlocks s).farEnds with | some o => _ | none => _) = _
  rw [hlive, farEnds_none hlast]
  simp only [afterTurn_eq_claim, Bool.not_true, Bool.false_eq_true, if_false]
  change (match (Claims.inBlocks s).seqStep with | .idle => _ | .fault f => _ | .convoy => _ | .run i n => _) = _
  cases (Claims.inBlocks s).seqStep <;> rfl

section blocks

variable {bs : List Byte} (hb : u.hart.block = some b)
include hb

theorem blockPos_eq : u.hart.blockPos = b.pos := by simp [Hart.blockPos, hb]

theorem seqStep_fault {f : Fail} (hw : u.blockWord b b.pos = .error f) : u.seqStep = .fault f := by
  simp only [State.seqStep, hb, hw]

theorem seqStep_convoy (hw : u.blockWord b b.pos = .ok i) (hc : b.convoy = 0)
    (hu : unitsFit ((u.convoyFrom b 256 b.pos).map (unitsOf u.hart)) = false) : u.seqStep = .convoy := by
  simp [State.seqStep, hb, hw, hc, hu]

/-- A word that runs counts the words of its convoy, unless an older word of the convoy has. -/
theorem seqStep_run (hw : u.blockWord b b.pos = .ok i)
    (hc : b.convoy ≠ 0 ∨ unitsFit ((u.convoyFrom b 256 b.pos).map (unitsOf u.hart)) = true) :
    ∃ n, (b.convoy ≠ 0 → n = b.convoy) ∧ u.seqStep = .run i n := by
  by_cases h0 : b.convoy = 0
  · have hu := hc.resolve_left (not_not.2 h0)
    exact ⟨(u.convoyFrom b 256 b.pos).length, fun h => absurd h0 h, by simp [State.seqStep, hb, hw, h0, hu]⟩
  · exact ⟨b.convoy, fun _ => rfl, by simp [State.seqStep, hb, hw, h0]⟩

end blocks

theorem blockWord_ok {bs : List Byte} (hf : u.fetchBytes u.hart.part b.pos 8 = .ok bs)
    (hd : decodeBlock (ofBytes bs) = .ok i) (hlast : (b.pos - b.addr).toNat / 8 ≠ 255 ∨ i = .vstop) :
    u.blockWord b b.pos = .ok i := by
  have hgo : ((b.pos - b.addr).toNat / 8 = 255 && i != .vstop) = false := by
    rw [Bool.and_eq_false_iff, decide_eq_false_iff_not, bne_eq_false_iff_eq]
    exact hlast
  simp only [State.blockWord, hf, hd, hgo, Bool.false_eq_true, if_false]

theorem blockWord_illegal {bs : List Byte} {e : DecodeErr} (hf : u.fetchBytes u.hart.part b.pos 8 = .ok bs)
    (hd : decodeBlock (ofBytes bs) = .error e) :
    u.blockWord b b.pos = .error ⟨.illegalv, BitVec.ofNat 64 (ofBytes bs), []⟩ := by
  simp only [State.blockWord, hf, hd]

theorem blockWord_unfetched {e : Fail} (hf : u.fetchBytes u.hart.part b.pos 8 = .error e) :
    u.blockWord b b.pos = .error e := by
  simp only [State.blockWord, hf]

/- A block instruction that nothing holds. -/

/-- The two ways of saying which queued block is marked: by the current block, and by its serial. -/
theorem markChecked_eq (t : State) :
    (match t.hart.block with
      | none => t
      | some b =>
        if !t.hart.seqStall then t
        else t.withHart { t.hart with
          queue := t.hart.queue.map (fun c => if c.serial == b.serial then { c with checked := true } else c) }) =
    if t.hart.seqStall then
      { t with hart := { t.hart with queue := t.hart.queue.map (fun c =>
          if t.hart.block.map (·.serial) = some c.serial then { c with checked := true } else c) } }
    else t := by
  cases hs : t.hart.seqStall with
  | false => cases t.hart.block <;> rfl
  | true =>
    cases hb : t.hart.block with
    | none => simp only [Option.map_none, reduceCtorEq, if_false, if_true, List.map_id']
    | some b =>
      have hserial (c : Block) : (c.serial == b.serial) = true ↔ some b.serial = some c.serial := by
        rw [beq_iff_eq, Option.some.injEq, eq_comm]
      simp only [Bool.not_true, Bool.false_eq_true, if_false, if_true, Option.map_some, hserial]
      rfl

theorem noted_eq_afterChecks (i : Instr) (o : Out) : noted i o = Claims.afterChecks i o := by
  cases o with
  | fault => cases i <;> rfl
  | refused => cases i <;> rfl
  | next t =>
    cases i
    case vlds => exact congrArg Host.Outcome.next (markChecked_eq t)
    case vsts => exact congrArg Host.Outcome.next (markChecked_eq t)
    all_goals rfl

theorem Hart.markConvoy_vq (h : Hart) (n : Nat) : (h.markConvoy n).vq = h.vq := by
  unfold Hart.markConvoy
  split <;> rfl

theorem Hart.markConvoy_sbuf (h : Hart) (n : Nat) : (h.markConvoy n).sbuf = h.sbuf := by
  unfold Hart.markConvoy
  split <;> rfl

theorem Hart.openStart_vq (h : Hart) (i : Instr) : (h.openStart i).vq = h.vq := by
  unfold Hart.openStart
  split
  · rfl
  · split <;> rfl

theorem Hart.openStart_sbuf (h : Hart) (i : Instr) : (h.openStart i).sbuf = h.sbuf := by
  unfold Hart.openStart
  split
  · rfl
  · split <;> rfl

theorem State.hartAt_withHart_vq {h : Hart} (hvq : h.vq = u.hart.vq) (n : Nat) :
    ((u.withHart h).hartAt n).vq = (u.hartAt n).vq := by
  unfold State.hartAt
  split
  · next hn => rw [if_pos (show n = u.cur from hn)]; exact hvq
  · next hn => rw [if_neg (show ¬ n = u.cur from hn)]; rfl

theorem State.pinned_withHart {h : Hart} (hvq : h.vq = u.hart.vq) (n : Nat) : (u.withHart h).pinned n = u.pinned n := by
  unfold State.pinned
  simp only [State.hartAt_withHart_vq hvq]
  rfl

theorem unobstructed_opened (hu : Claims.Unobstructed u) (n : Nat) (i : Instr) :
    Claims.Unobstructed (u.withHart ((u.hart.markConvoy n).openStart i)) where
  flight := by rw [State.withHart_hart, Hart.openStart_vq, Hart.markConvoy_vq, hu.flight]
  pins := ⟨hu.pins.1, (State.pinned_withHart (by rw [Hart.openStart_vq, Hart.markConvoy_vq]) _).trans hu.pins.2⟩
  fences := by rw [State.withHart_hart, Hart.openStart_sbuf, Hart.markConvoy_sbuf]; exact hu.fences

theorem runBlock_unobstructed (hu : Claims.Unobstructed u) : u.runBlock i = Claims.afterChecks i (exec i u) := by
  have hclear : u.sequencerClear = true := by
    obtain ⟨hvq, ⟨hwait, hpins⟩, hfence⟩ := hu
    simpa [State.sequencerClear, hvq, hwait, hpins] using hfence
  rw [State.runBlock, if_pos hclear, noted_eq_afterChecks]

/- The three parts of the obligation. -/

theorem step_runs_control (h : Claims.ControlNext s) :
    let u := Claims.inControl s
    (∀ bs i, u.fetchBytes u.hart.part u.hart.pc 4 = .ok bs → decodeControl (ofBytes bs) = .ok i →
      (Claims.Passes i u → step s = Claims.afterTurn (·.ctlStall) (exec i u)) ∧
      (¬ Claims.Passes i u → step s = .next { u with hart := { u.hart with ctlStall := true } })) ∧
    (∀ bs e, u.fetchBytes u.hart.part u.hart.pc 4 = .ok bs → decodeControl (ofBytes bs) = .error e →
      step s = Claims.afterTurn (·.ctlStall) (Claims.faults
        (u.tellVirtual u.hart.part u.cur u.hart.pc ⟨.illegal, BitVec.ofNat 64 (ofBytes bs), []⟩)
        .illegal (BitVec.ofNat 64 (ofBytes bs)))) ∧
    (∀ e, u.fetchBytes u.hart.part u.hart.pc 4 = .error e → step s = Claims.afterTurn (·.ctlStall)
      (Claims.faults (u.tellVirtual u.hart.part u.cur u.hart.pc e) e.cause e.eval)) := by
  intro u
  have hstep : step s = Claims.afterTurn (·.ctlStall) u.controlOutcome := step_control h
  refine ⟨fun bs i hf hd => ⟨fun hp => ?_, fun hp => ?_⟩, fun bs e hf hd => ?_, fun e hf => ?_⟩
  · rw [hstep, controlOutcome_ok (nextControl_ok hf hd), if_pos ((passes_iff i u).1 hp)]
  · rw [hstep, controlOutcome_ok (nextControl_ok hf hd), if_neg (mt (passes_iff i u).2 hp)]
    rfl
  · rw [hstep, controlOutcome_error (nextControl_illegal hf hd)]
    rfl
  · rw [hstep, controlOutcome_error (nextControl_unfetched hf)]
    rfl

theorem step_runs_block (h : Claims.BlockNext s b) :
    let u := Claims.inBlocks s
    (∀ bs i, u.fetchBytes u.hart.part b.pos 8 = .ok bs → decodeBlock (ofBytes bs) = .ok i →
      ((b.pos - b.addr).toNat / 8 ≠ 255 ∨ i = .vstop) → Claims.Unobstructed u →
      (b.convoy ≠ 0 ∨ unitsFit ((u.convoyFrom b 256 b.pos).map (unitsOf u.hart)) = true) →
        ∃ n, (b.convoy ≠ 0 → n = b.convoy) ∧ step s = Claims.afterTurn (·.seqStall)
          (Claims.afterChecks i (exec i (u.withHart ((u.hart.markConvoy n).openStart i))))) ∧
    (∀ bs e, u.hart.vq = [] → u.fetchBytes u.hart.part b.pos 8 = .ok bs → decodeBlock (ofBytes bs) = .error e →
      step s = .next ((u.tellVirtual u.hart.part u.cur b.pos ⟨.illegalv, BitVec.ofNat 64 (ofBytes bs), []⟩).takeTrap
        .illegalv (BitVec.ofNat 64 (ofBytes bs)) b.pos true 0).unstalled) ∧
    (∀ e, u.hart.vq = [] → u.fetchBytes u.hart.part b.pos 8 = .error e → step s =
      .next ((u.tellVirtual u.hart.part u.cur b.pos e).takeTrap e.cause e.eval b.pos true 0).unstalled) ∧
    (∀ i, u.hart.vq = [] → u.blockWord b b.pos = .ok i → b.convoy = 0 →
      unitsFit ((u.convoyFrom b 256 b.pos).map (unitsOf u.hart)) = false →
      step s = .next (u.takeTrap .convoy 0 b.pos true 0).unstalled) ∧
    (u.hart.vq ≠ [] → (∀ r ∈ u.hart.vq, r.last = none) → ∀ f, u.blockWord b b.pos = .error f →
      step s = .next { u with hart := { u.hart with seqStall := true } }) := by
  intro u
  have hb : u.hart.block = some b := inBlocks_block h
  have hclear (hvq : u.hart.vq = []) : step s = u.blockOutcome := step_blocks h (by simp [u, hvq])
  have hfault {f : Fail} (hvq : u.hart.vq = []) (hw : u.blockWord b b.pos = .error f) : step s =
      .next ((u.tellVirtual u.hart.part u.cur b.pos f).takeTrap f.cause f.eval b.pos true 0).unstalled := by
    rw [hclear hvq, State.blockOutcome, seqStep_fault hb hw, blockPos_eq hb]
    simp [hvq]
  refine ⟨fun bs i hf hd hlast hu hc => ?_, fun bs e hvq hf hd => hfault hvq (blockWord_illegal hf hd),
    fun e hvq hf => hfault hvq (blockWord_unfetched hf), fun i hvq hw hc hu => ?_, fun hvq hlast f hw => ?_⟩
  · obtain ⟨n, hn, hrun⟩ := seqStep_run hb (blockWord_ok hf hd hlast) hc
    refine ⟨n, hn, ?_⟩
    rw [hclear hu.flight, State.blockOutcome, hrun, ← runBlock_unobstructed (unobstructed_opened hu n i)]
  · rw [hclear hvq, State.blockOutcome, seqStep_convoy hb hw hc hu, blockPos_eq hb]
    simp [hvq]
  · rw [step_blocks h hlast, State.blockOutcome, seqStep_fault hb hw]
    simp [u, hvq, stallSeq]

/-- Settles O54: each stream's turn is unfolded once, into `controlOutcome` and `blockOutcome`. -/
theorem stepRunsDecodedInstruction : Obligations.StepRunsDecodedInstruction :=
  ⟨fun _ h => step_runs_control h, fun _ _ h => step_runs_block h, fun s =>
    ⟨fun t ts h => by
        have htick : s.tick.agenda = t :: ts := h
        simp only [step, State.oneStep, htick],
      fun h => by
        have htick : s.tick.agenda = [] := h
        simp only [step, State.oneStep, htick],
      rfl, rfl, rfl, s.tick_x, s.tick_pc, s.tick_v⟩⟩

end Sys2Proof.Machine
end

