-- ==== Sys2Proof/Proofs/MarkersAndDescriptors.lean ====
section
/-!
What completing a block instruction leaves (R42, R46), the markers, and the dispatch checks that refuse a descriptor
(R61, R181).
-/

namespace Sys2Proof.Machine

set_option Elab.async false

variable {s t : State} {h : Hart} {k : Blk} {b : Block}

/- Completing a block instruction. -/

/-- The oldest block that is not held, once each block of the queue is replaced by one that is held alike. -/
theorem head_unheld_map (f : Block → Block) (hf : ∀ c, (f c).held = c.held) (q : List Block) :
    ((q.map f).filter (fun c => c.held = 0)).head? = (q.filter (fun c => c.held = 0)).head?.map f := by
  rw [List.filter_map, List.head?_map]
  refine congrArg _ (congrArg _ (List.filter_congr fun c _ => ?_))
  simp [hf]

/-- The current block steps past its word. -/
theorem Hart.block_pastWord (hb : h.block = some b) :
    h.pastWord.block = some { b with pos := b.pos + 8, convoy := b.convoy - 1, checked := false } := by
  have hq : (h.queue.filter (fun c => c.held = 0)).head? = some b := hb
  simp only [Hart.pastWord, hb]
  unfold Hart.block Hart.unheld
  rw [head_unheld_map _ (fun c => by split <;> rfl), hq]
  simp

theorem Hart.pastWord_eq (h : Hart) : ∃ q ea, h.pastWord = { h with queue := q, early := ea } := by
  unfold Hart.pastWord
  split <;> exact ⟨_, _, rfl⟩

/-- With no step asked for, completing does nothing but step on. -/
theorem State.completed_plain (hdbg : s.hart.dbg.getLsbD 1 = false) :
    s.completed none = s.withHart { s.hart with vstart := 0, retcount := s.hart.retcount + 1 }.pastWord := by
  obtain ⟨q, ea, hp⟩ := Hart.pastWord_eq { s.hart with vstart := 0, retcount := s.hart.retcount + 1 }
  unfold State.completed
  dsimp only
  rw [hp, hdbg]
  rfl

theorem State.completed_ends (s : State) : Claims.Completed s (s.completed none) := by
  intro _ hdbg
  obtain ⟨q, ea, hp⟩ := Hart.pastWord_eq { s.hart with vstart := 0, retcount := s.hart.retcount + 1 }
  rw [State.completed_plain hdbg]
  refine ⟨?_, ?_, ?_, ?_, ?_, ?_, rfl, rfl, rfl, fun b hb => Hart.block_pastWord hb⟩ <;> rw [State.withHart_hart, hp]

/-- Ending an instruction writes no register, predicate or flag. -/
theorem RetireMay.leaves (h : RetireMay s t) (ended : Claims.Completed s t) : Claims.Leaves s t [] flNone := by
  obtain ⟨n, _, _, _, _, _, _, _, _, _, _, _, _, _, _, _, _, _, rfl⟩ := h
  exact ⟨fun _ _ => rfl, rfl, BitVec.or_zero.symm, rfl, ended⟩

theorem markersOnlyComplete : Claims.MarkersOnlyComplete :=
  ⟨fun s _ => ⟨s.completed none, rfl, (s.completed_may none).leaves s.completed_ends⟩, fun s b hb => by
    show Host.Outcome.next (s.withHart { s.hart.endBlock with retcount := s.hart.retcount + 1 }) = _
    simp only [Hart.endBlock, hb]
    rfl⟩

/- The dispatch checks of R61. -/

section dispatch

variable {codes : Descr → List Nat} {mixed : Bool} {ok : Descr → List Fmt → Bool} {body : Descr → List Fmt → Out}

theorem withFormats_insane (h : (s.hart.descr k).sane = false) : withFormats s k codes mixed ok body = fmtFault s k := by
  simp [withFormats, h]

/-- An instruction none of whose formats pass the checks of its form is refused. -/
theorem withFormats_refuses {α D : Type} {F : Claims.Form α D} (hk : F.k = k)
    (hcodes : F.codes = codes (s.hart.descr k)) (hmixed : F.mixed = mixed)
    (hok : ∀ fs, formats F.codes = some fs → F.accepts fs = ok (s.hart.descr k) fs)
    (h : ∀ fs, ¬ Claims.Dispatches s F fs) : withFormats s k codes mixed ok body = fmtFault s k := by
  subst hk hmixed
  unfold withFormats
  dsimp only
  rw [← hcodes]
  split
  · rfl
  next hsane =>
  split
  · rfl
  next fs hfs =>
  rw [if_neg]
  intro hc
  simp only [Bool.and_eq_true] at hc
  obtain ⟨⟨hratio, hkinds⟩, haccepts⟩ := hc
  exact h fs ⟨by simpa using hsane, hfs, hratio, hkinds, (hok fs hfs).trans haccepts⟩

end dispatch

theorem Descr.insane {d : Descr} (h : d.raw.toNat / 2 ^ 32 ≠ 0 ∨ 6 ≤ d.rnd) : d.sane = false := by
  rw [Descr.sane, Nat.shiftRight_eq_div_pow, Bool.and_eq_false_iff]
  exact h.imp (by simp) (by simp)

/-- Every block instruction but the markers checks its descriptor first; `HMASK` reads none with xf = 0. -/
theorem exec_insane {i : Instr} (hk : blkOf i = some k) (h : (s.hart.descr k).sane = false) (hnop : ∀ c, i ≠ .vnop c)
    (hstop : i ≠ .vstop) (hmask : ∀ p r x, i = .hmask k p r x → k.xf ≠ 0) : exec i s = fmtFault s k := by
  unfold exec
  cases i with
  | vnop c => exact absurd rfl (hnop c)
  | vstop => exact absurd rfl hstop
  | hmask k' p r x =>
    cases hk
    simp [execHmask, hmask p r x rfl, h]
  | vcvt k' d a =>
    cases hk
    dsimp only [execVcvt]
    split
    · exact ite_holds (P := (· = fmtFault s k)) (withFormats_insane h) (withFormats_insane h)
    · rfl
  | vadd | vsub | vmul | vmulh | vmin | vmax | vand | vor | vxor | vsll | vsrl | vsra | vadds | vsubs | vabsd =>
    cases hk
    exact show intOp _ _ k _ _ _ s = _ from withFormats_insane h
  | vaddi | vshi =>
    cases hk
    exact show intOp1 _ _ k _ _ s = _ from withFormats_insane h
  | vfadd | vfsub | vfmul | vfdiv | vfmin | vfmax =>
    cases hk
    exact show floatOp _ k _ _ _ s = _ from withFormats_insane h
  | vfsqrt =>
    cases hk
    exact show floatOp1 _ _ k _ _ s = _ from withFormats_insane h
  | vfrcp | vfrsq | vfexp2 =>
    cases hk
    exact show approxOp _ k _ _ s = _ from withFormats_insane h
  | vslice | vunslice =>
    cases hk
    exact show reslice _ k _ _ s = _ from withFormats_insane h
  | plog | pset =>
    cases hk
    exact show predOp _ k _ s = _ from withFormats_insane h
  | ppopc | pfirst =>
    cases hk
    exact show predCount _ k _ _ s = _ from withFormats_insane h
  | vslup | vsldn | vmov =>
    cases hk
    exact show moveOp _ _ k _ s = _ from withFormats_insane h
  | vredsum | vredmax | vredmin =>
    cases hk
    exact show reduceOp _ k _ _ s = _ from withFormats_insane h
  | vldh =>
    cases hk
    exact show vldhWith false k _ _ _ _ _ s = _ from withFormats_insane h
  | vsth =>
    cases hk
    exact show vsthWith false k _ _ _ _ s = _ from withFormats_insane h
  | vldhx =>
    cases hk
    exact show vldhxWith false k _ _ _ _ _ s = _ from withFormats_insane h
  | vsthx =>
    cases hk
    exact show vsthxWith false k _ _ _ _ s = _ from withFormats_insane h
  | vldf =>
    cases hk
    exact show vldfWith _ k _ _ _ _ s = _ from withFormats_insane h
  | vstf =>
    cases hk
    exact show vstfWith _ k _ _ _ _ s = _ from withFormats_insane h
  | vldx =>
    cases hk
    exact show vldxWith _ k _ _ _ _ _ s = _ from withFormats_insane h
  | vstx =>
    cases hk
    exact show vstxWith _ k _ _ _ _ _ s = _ from withFormats_insane h
  | vamo =>
    cases hk
    exact show vamoWith _ k _ _ _ _ _ _ _ _ s = _ from withFormats_insane h
  | vmac | vcmp | viota | vfma | vfcmp | vfclass | vqscale | vbcast | vins | vperm | vcompr | vexpnd | vmerge
  | vscan | vtopk | vldt | vstt | vsts | mopa | mopas | mrd | mwr | mzero | vsprune | vrope =>
    cases hk
    exact withFormats_insane h
  | vlds =>
    cases hk
    dsimp only [execVlds]
    exact withFormats_insane h
  | _ => cases hk

/- The forms of the claims are those of the shared operations. -/

theorem length_of_formats {cs : List Nat} {fs : List Fmt} (h : formats cs = some fs) : fs.length = cs.length := by
  induction cs generalizing fs with
  | nil => cases h; rfl
  | cons c cs ih =>
    unfold formats at h
    split at h
    next hcs => cases h; simp [ih hcs]
    · cases h

theorem formats_one {c : Nat} {fs : List Fmt} (h : formats [c] = some fs) : ∃ f, fs = [f] :=
  List.length_eq_one_iff.1 (length_of_formats h)

theorem formats_two {c d : Nat} {fs : List Fmt} (h : formats [c, d] = some fs) : ∃ f g, fs = [f, g] :=
  List.length_eq_two.1 (length_of_formats h)

theorem intForm_refused {i : Instr} {F : Claims.Form Nat VIx} (hk : blkOf i = some k)
    (hF : Claims.intForm s.hart i = some F) (h : ∀ fs, ¬ Claims.Dispatches s F fs) : exec i s = fmtFault s k := by
  unfold exec
  cases i with
  | vadd | vsub | vmul | vmulh | vmin | vmax | vand | vor | vxor | vsll | vsrl | vsra | vadds | vsubs | vabsd =>
    cases hk
    cases hF
    exact show intOp _ _ k _ _ _ s = _ from withFormats_refuses rfl rfl rfl (fun _ _ => rfl) h
  | vaddi | vshi =>
    cases hk
    cases hF
    exact show intOp1 _ _ k _ _ s = _ from withFormats_refuses rfl rfl rfl (fun _ _ => rfl) h
  | vslice | vunslice =>
    cases hk
    cases hF
    exact show reslice _ k _ _ s = _ from withFormats_refuses rfl rfl rfl (fun _ _ => rfl) h
  | vmac =>
    cases hk
    cases hF
    exact withFormats_refuses rfl rfl rfl (fun _ _ => rfl) h
  | viota =>
    cases hk
    cases hF
    refine withFormats_refuses rfl rfl rfl (fun fs hfs => ?_) h
    obtain ⟨f, rfl⟩ := formats_one hfs
    simp [Claims.integers, intFormats]
  | _ => cases hF

theorem predForm_refused {i : Instr} {F : Claims.Form Bool PIx} (hk : blkOf i = some k)
    (hF : Claims.predForm s.hart i = some F) (h : ∀ fs, ¬ Claims.Dispatches s F fs) : exec i s = fmtFault s k := by
  unfold exec
  cases i with
  | plog | pset =>
    cases hk
    cases hF
    exact show predOp _ k _ s = _ from withFormats_refuses rfl rfl rfl (fun _ _ => rfl) h
  | vcmp =>
    cases hk
    cases hF
    exact withFormats_refuses rfl rfl rfl (fun _ _ => rfl) h
  | vfcmp =>
    cases hk
    cases hF
    refine withFormats_refuses rfl rfl rfl (fun fs hfs => ?_) h
    obtain ⟨f, g, rfl⟩ := formats_two hfs
    rfl
  | _ => cases hF

theorem approxForm_refused {i : Instr} {F : Claims.Form Nat VIx} {g} (hk : blkOf i = some k)
    (hF : Claims.approxForm g s.hart i = some F) (h : ∀ fs, ¬ Claims.Dispatches s F fs) : exec i s = fmtFault s k := by
  unfold exec
  cases i with
  | vfrcp | vfrsq | vfexp2 =>
    cases hk
    cases hF
    exact show approxOp _ k _ _ s = _ from withFormats_refuses rfl rfl rfl (fun _ _ => rfl) h
  | _ => cases hF

theorem badDescriptorsTakeFmt : Claims.BadDescriptorsTakeFmt := fun _ _ _ hk =>
  ⟨fun hnop hstop hmask hbad => exec_insane hk (Descr.insane hbad) hnop hstop hmask,
    fun _ hF h => intForm_refused hk hF h, fun _ hF h => predForm_refused hk hF h,
    fun _ _ hF h => approxForm_refused hk hF h⟩

/-- Settles O18: a marker completes, and the first thing that every other block instruction does is to check its
descriptor. -/
theorem markersAndDescriptorChecks : Obligations.MarkersAndDescriptorChecks :=
  ⟨markersOnlyComplete, badDescriptorsTakeFmt⟩

end Sys2Proof.Machine
end

