-- ==== Sys2Proof/Proofs/BlockHandOff.lean ====
section
/-!
Handing a block over (R22, R349): the waits, the alignment of the address, and what the queue receives.
-/

namespace Sys2Proof.Machine

set_option Elab.async false

variable {s : State} {a : Word}

/-- A word offset added in the machine's own words (R276, R306, R349). -/
theorem State.target_eq_ahead (s : State) {n : Nat} (off : BitVec n) : s.target off = Claims.ahead s off.toInt := by
  have hshift : (off.signExtend 64 : BitVec 64) <<< 2 = BitVec.ofInt 64 (4 * off.toInt) := by
    rw [BitVec.shiftLeft_eq_mul_twoPow, BitVec.signExtend, BitVec.mul_comm, BitVec.ofInt_mul]
    rfl
  rw [State.target, Claims.ahead, hshift, BitVec.ofInt_add]
  congr 1
  rw [BitVec.ofInt_natCast, BitVec.ofNat_toNat, BitVec.setWidth_eq]

theorem findPending_false (h : ∀ o ∈ s.ops, o.hart = s.cur → ∀ x k, o.kind ≠ .gfind x k) : s.findPending = false := by
  rw [State.findPending, List.any_eq_false]
  intro o ho hc
  rw [Bool.and_eq_true, beq_iff_eq] at hc
  obtain ⟨hcur, hkind⟩ := hc
  split at hkind
  next x k hx => exact h o ho hcur x k hx
  · cases hkind

/-- The three ends of a hand-off, in R349's order. -/
theorem handOffBlock_cases (s : State) (a : Word) :
    (a.toNat % 8 ≠ 0 → handOffBlock a s = faultAt s .align a) ∧
    (a.toNat % 8 = 0 → 4 ≤ s.hart.queue.length → handOffBlock a s = stallCtl s) ∧
    (a.toNat % 8 = 0 → s.hart.queue.length < 4 → s.findPending = false →
      handOffBlock a s = retire { s with hart := s.hart.queueBlock a s.nextId }) := by
  refine ⟨fun h => by simp [handOffBlock, h], fun h hq => by simp [handOffBlock, h, hq], fun h hq hf => ?_⟩
  simp [handOffBlock, h, hf, hq]

theorem exec_blockHandOff {i : Instr} (h : (∃ off : BitVec 26, i = .vf off ∧ a = Claims.ahead s off.toInt) ∨
    ∃ r, i = .vfr r ∧ a = s.hart.rd r) (hr : Claims.Readable (List.finRange 32) s) : exec i s = handOffBlock a s := by
  obtain ⟨off, rfl, rfl⟩ | ⟨r, rfl, rfl⟩ := h
  · rw [← State.target_eq_ahead]
    exact reading_runs hr.1 hr.2
  · exact reading_runs hr.1 hr.2

/-- Settles O26: both instructions are the hand-off of a block at their address. -/
theorem blocksAreQueuedWithCapture : Obligations.BlocksAreQueuedWithCapture := by
  intro s i a h hr
  obtain ⟨hmisaligned, hfull, hqueued⟩ := handOffBlock_cases s a
  rw [exec_blockHandOff h hr]
  exact ⟨hmisaligned, hfull, fun ha hq hops => hqueued ha hq (findPending_false hops)⟩

end Sys2Proof.Machine
end

