-- ==== Sys2Proof/Proofs/LanesAndRows.lean ====
section
/-!
Lanes, rows and elements (R27, R30, R32, R44): the mask of a list of quads, the harts that returned quads reach, the run
of row units that is chosen, and the value of one element.
-/

namespace Sys2Proof.Machine

set_option Elab.async false

variable {s t : State}

/- The grant of SETL. -/

theorem quadMask_foldl (l : List Nat) (g : BitVec 64) (j : Nat) (hj : j < 64) :
    (l.foldl (fun g q => g ||| (1#64 <<< q)) g).getLsbD j = (g.getLsbD j || l.contains j) := by
  induction l generalizing g with
  | nil => simp
  | cons q l ih =>
    have hq : (1#64 <<< q).getLsbD j = (j == q) := by
      rw [Bool.eq_iff_iff]
      simp [hj]
      omega
    rw [List.foldl_cons, ih, BitVec.getLsbD_or, hq, List.contains_cons, Bool.or_assoc]

theorem getLsbD_quadMask (l : List Nat) {j : Nat} (hj : j < 64) : (quadMask l).getLsbD j = l.contains j := by
  rw [quadMask, quadMask_foldl l 0 j hj]
  simp

/-- The kept quads first, then the lowest free ones (R30). -/
theorem take_own_then_free (own free : List Nat) (q : Nat) :
    (if q ≤ own.length then own.take q else own ++ free.take (q - own.length)) = (own ++ free).take q := by
  rw [List.take_append]
  split
  next h => simp [Nat.sub_eq_zero_of_le h]
  next h => rw [List.take_of_length_le (l := own) (by omega)]

/- The harts that returned quads reach. -/

/-- A service of the stead's quads by a hart that waits for none of them: it changes contexts of other harts, and may
end the wait of the own gang. -/
structure Serves (s t : State) : Prop where
  frame : t = { s with others := t.others, hart := { s.hart with gangWait := t.hart.gangWait } }
  gangWait : s.hart.gangWait = false → t.hart.gangWait = false

theorem Serves.refl (s : State) : Serves s s := ⟨rfl, id⟩

theorem Serves.trans {u : State} (h : Serves s t) (h' : Serves t u) : Serves s u := by
  refine ⟨?_, h'.gangWait ∘ h.gangWait⟩
  rw [h'.frame, h.frame]

theorem Serves.needsReserved (h : Serves s t) : t.hart.needsReserved = s.hart.needsReserved := by rw [h.frame]

theorem Serves.cur (h : Serves s t) : t.cur = s.cur := by rw [h.frame]

theorem serves_setOther {n : Nat} (h : n ≠ s.cur) (v : Hart) : Serves s (s.setHartAt n v) := by
  rw [State.setHartAt, if_neg h]
  exact ⟨rfl, id⟩

theorem foldl_serves {α : Type} {f : State → α → State} (hf : ∀ t a, Serves t (f t a)) (l : List α) (s : State) :
    Serves s (l.foldl f s) := by
  induction l generalizing s with
  | nil => exact .refl s
  | cons a l ih => exact (hf s a).trans (ih _)

theorem wakeGang_serves (s : State) (g : Farm) : Serves s (s.wakeGang g) := by
  refine ite_holds (P := Serves s) (foldl_serves (fun t n => ?_) _ _) (.refl s)
  by_cases hn : n = t.cur
  · rw [hn, State.hartAt_cur, State.setHartAt_cur]
    exact ⟨rfl, fun _ => rfl⟩
  · exact serves_setOther hn _

/-- A fold that keeps one of the entries it meets. -/
theorem foldl_pick_mem {f : Option Nat → Nat → Option Nat} (hf : ∀ acc x, f acc x = acc ∨ f acc x = some x) {h : Nat}
    (l : List Nat) (acc : Option Nat) (e : l.foldl f acc = some h) : acc = some h ∨ h ∈ l := by
  induction l generalizing acc with
  | nil => exact .inl e
  | cons x l ih =>
    obtain hacc | hmem := ih _ e
    · obtain hkept | hnew := hf acc x
      · exact .inl (hkept ▸ hacc)
      · exact .inr (by simp [Option.some.inj (hnew.symm.trans hacc)])
    · exact .inr (List.mem_cons_of_mem x hmem)

theorem firstWaiting_waits {c : Nat → Bool} {st n : Nat} (e : s.firstWaiting c st = some n) :
    (s.hartAt n).needsReserved.isSome = true := by
  obtain h | h := foldl_pick_mem (fun acc x => by cases acc <;> grind) _ _ e
  · cases h
  · exact (Bool.and_eq_true_iff.mp (List.mem_filter.mp h).2).2

theorem firstWaiting_ne_cur {c : Nat → Bool} {st n : Nat} (hs : s.hart.needsReserved = none)
    (e : s.firstWaiting c st = some n) : n ≠ s.cur := by
  rintro rfl
  have hw := firstWaiting_waits e
  rw [State.hartAt_cur, hs] at hw
  cases hw

theorem serveWaiting_serves (hs : s.hart.needsReserved = none) (p st : Nat) (qs : List Nat) :
    Serves s (s.serveWaiting p st qs) := by
  induction qs generalizing s with
  | nil => exact .refl s
  | cons q qs ih =>
    rw [State.serveWaiting]
    split
    next => exact .refl s
    next n e =>
      have h1 := serves_setOther (firstWaiting_ne_cur hs e)
        { s.hartAt n with needsReserved := none, grant := 1#64 <<< q }
      exact h1.trans (ih (h1.needsReserved.trans hs))

theorem serveFree_serves (hs : s.hart.needsReserved = none) (st n : Nat) : Serves s (s.serveFree st n) := by
  induction n generalizing s with
  | zero => exact .refl s
  | succ n ih =>
    rw [State.serveFree]
    split
    next m q e _ =>
      have h1 := serves_setOther (firstWaiting_ne_cur hs e)
        { s.hartAt m with needsReserved := none, grant := 1#64 <<< q }
      exact h1.trans (ih (h1.needsReserved.trans hs))
    next => exact .refl s

theorem quadsBack_serves (hs : s.hart.needsReserved = none) (p st : Nat) (qs : List Nat) :
    Serves s (s.quadsBack p st qs) := by
  have h1 := serveWaiting_serves hs p st qs
  have h2 := serveFree_serves (h1.needsReserved.trans hs) st 16
  exact (h1.trans h2).trans (foldl_serves wakeGang_serves _ _)

/- SETL. -/

theorem getLsbD_setlGrant (s : State) (n : Nat) {j : Nat} (hj : j < 64) :
    let own := quadList s.hart.grant
    let free := s.freeQuads (steadOf s.cur)
    let avail := min (free.length + own.length)
      ((s.partAt s.hart.part).budgetOn (steadOf s.cur) - s.heldByOthers s.hart.part (steadOf s.cur) s.cur)
    let q := max 1 (min ((n + 3) / 4) avail)
    (s.setlGrant n).getLsbD j = ((own ++ free).take q).contains j := by
  intro own free avail q
  rw [← take_own_then_free, ← getLsbD_quadMask _ hj]
  rfl

/-- Lanes g with every vector register, predicate and lane table empty (R32). -/
def State.emptiedTo (s : State) (g : BitVec 64) : State := { s with hart := { s.hart.emptyAll with grant := g } }

/-- The state of a `SETL` whose new grant is g, before it writes its answer (R30, R32). -/
def State.granted (s : State) (g : BitVec 64) : State :=
  if g = s.hart.grant then s
  else (s.emptiedTo g).quadsBack s.hart.part (steadOf s.cur)
    ((quadList s.hart.grant).filter (fun q => !g.getLsbD q))

theorem granted_serves {g : BitVec 64} (h : g ≠ s.hart.grant) (hs : s.hart.needsReserved = none) :
    Serves (s.emptiedTo g) (s.granted g) := by
  rw [State.granted, if_neg h]
  exact quadsBack_serves (s := s.emptiedTo g) hs _ _ _

/-- What a grant leaves of the state, whether or not it changes. -/
theorem granted_frame {g : BitVec 64} (hs : s.hart.needsReserved = none) :
    s.granted g = { s with
      others := (s.granted g).others, farms := (s.granted g).farms
      hart := { s.hart with
        grant := (s.granted g).hart.grant, v := (s.granted g).hart.v, p := (s.granted g).hart.p
        laneTab := (s.granted g).hart.laneTab, laneMask := (s.granted g).hart.laneMask
        gangWait := (s.granted g).hart.gangWait } } := by
  by_cases h : g = s.hart.grant
  · rw [State.granted, if_pos h]
  · rw [(granted_serves h hs).frame]
    rfl

theorem granted_grant {g : BitVec 64} (hs : s.hart.needsReserved = none) : (s.granted g).hart.grant = g := by
  by_cases h : g = s.hart.grant
  · rw [State.granted, if_pos h, h]
  · rw [(granted_serves h hs).frame]
    rfl

@[simp] theorem VReg.elem_empty (L : Nat) (f : Fmt) (e : Nat) : ({} : VReg).elem L f e = 0 := by
  rw [VReg.elem]
  split
  · simp
  · simp [field]

/-- A changed grant leaves every vector register, predicate and lane table empty (R32, R111). -/
theorem granted_empties {g : BitVec 64} (h : g ≠ s.hart.grant) (hs : s.hart.needsReserved = none) :
    (∀ v : VIx, (s.granted g).hart.v[v.val].tag = 0) ∧ (∀ v e f, (s.granted g).hart.bitsAt v e f = 0) ∧
    (∀ p e, (s.granted g).hart.pbit p e = decide (p = 0)) ∧ ∀ b, (s.granted g).hart.tableByte b = 0 := by
  rw [(granted_serves h hs).frame]
  refine ⟨fun v => ?_, fun v e f => ?_, fun p e => ?_, fun b => rfl⟩
  · simp [State.emptiedTo, Hart.emptyAll]
  · rw [Hart.bitsAt]
    simp [State.emptiedTo, Hart.emptyAll]
  · simp [State.emptiedTo, Hart.emptyAll, Hart.pbit]

theorem retireWith_eq (s : State) (d : Reg) (w : Word) :
    retireWith s d w = .next (Claims.wrote s d w (s.hart.pc + 4)) := by
  rw [Claims.wrote, ← Hart.wr_pc s.hart d w]
  rfl

theorem exec_setl {d a : Reg} {code : BitVec 6} {f : Fmt} (hr : Claims.Readable [a] s)
    (hf : Fmt.ofCode code.toNat = some f) (hb : s.hart.blocksDone = true) (hw : s.wakeFirst (steadOf s.cur) = false) :
    exec (.setl d a code false) s = .next (Claims.wrote (s.granted (s.setlGrant (s.hart.rd a).toNat)) d
      (BitVec.ofNat 64 (min (s.hart.rd a).toNat
        ((s.granted (s.setlGrant (s.hart.rd a).toNat)).hart.lanes * f.perSlice)))
      ((s.granted (s.setlGrant (s.hart.rd a).toNat)).hart.pc + 4)) := by
  show execSetl d a code false s = _
  rw [execSetl, reading_runs hr.1 hr.2, hf]
  simp only [hb, hw, Bool.not_true, Bool.or_self, Bool.false_eq_true, if_false]
  rw [State.granted]
  split
  · exact retireWith_eq ..
  · exact retireWith_eq ..

theorem exec_setl_keep {d a : Reg} {code : BitVec 6} {f : Fmt} (hr : Claims.Readable [a] s)
    (hf : Fmt.ofCode code.toNat = some f) : exec (.setl d a code true) s =
      .next (Claims.wrote s d (BitVec.ofNat 64 (min (s.hart.rd a).toNat (s.hart.lanes * f.perSlice))) (s.hart.pc + 4)) := by
  show execSetl d a code true s = _
  rw [execSetl, reading_runs hr.1 hr.2, hf]
  exact retireWith_eq ..

theorem granted_pc {g : BitVec 64} (hs : s.hart.needsReserved = none) : (s.granted g).hart.pc = s.hart.pc := by
  rw [granted_frame hs]

theorem setlGrantsLanes : Claims.SetlGrantsLanes := by
  intro s d a code hr n
  refine ⟨fun k hf => ?_, fun f hf => ⟨exec_setl_keep hr hf, fun hw => ?_, fun hb hn hw => ?_⟩⟩
  · show execSetl d a code k s = _
    rw [execSetl, reading_runs hr.1 hr.2, hf]
    rfl
  · show execSetl d a code false s = _
    rw [execSetl, reading_runs hr.1 hr.2, hf]
    obtain hb | hw := hw
    · simp [hb, stallCtl, Claims.waitsCtl]
    · simp [hw, stallCtl, Claims.waitsCtl]
  · refine ⟨s.granted (s.setlGrant n), ?_, fun j hj => ?_, granted_frame hn, fun h => ?_, fun h => ?_⟩
    · rw [exec_setl hr hf hb hw, granted_pc hn]
    · rw [granted_grant hn]
      exact getLsbD_setlGrant s n hj
    · rw [granted_grant hn] at h
      rw [State.granted, if_pos h]
    · rw [granted_grant hn] at h
      exact granted_empties h hn

/- VGET. -/

theorem signedOf_eq {w : Nat} (hw : 1 ≤ w) (bits : Nat) : signedOf w bits = Claims.asSigned w bits := by
  obtain ⟨n, rfl⟩ := Nat.exists_eq_add_of_le' hw
  have hbit : bits.testBit n = decide (¬ bits % 2 ^ (n + 1) < 2 ^ n) := by
    rw [Nat.testBit_eq_decide_div_mod_eq, Nat.pow_succ, Nat.mod_mul]
    have := Nat.mod_lt bits (Nat.two_pow_pos n)
    have h2 := Nat.mod_two_eq_zero_or_one (bits / 2 ^ n)
    rcases h2 with h2 | h2 <;> simp [h2, this]
  rw [signedOf, Claims.asSigned, Nat.add_sub_cancel, hbit, Nat.one_shiftLeft]
  simp only [decide_eq_true_eq, ite_not]
  push_cast
  rfl

theorem width_pos {f : Fmt} (h : f.legal = true) : 1 ≤ f.width := by
  cases f <;> simp [Fmt.legal, Fmt.sliced, Fmt.width] at h ⊢
  all_goals exact of_decide_eq_true h.1

theorem isNan_iff (v : Val) : v.isNan = true ↔ ∃ b, v = .nan b := by
  cases v <;> simp [Val.isNan]

theorem vgetValue_eq {c : Nat} {f : Fmt} (hf : Fmt.ofCode c = some f) (bits : Nat) : vgetValue f bits =
    if f.signed then BitVec.ofInt 64 (Claims.asSigned f.width bits) else BitVec.ofNat 64 (Claims.widened f bits) := by
  unfold vgetValue
  refine ite_congr rfl (fun _ => by rw [signedOf_eq (width_pos (ofCode_legal hf))]) (fun _ => ?_)
  unfold Claims.widened
  split
  next => rfl
  next => rfl
  next h64 h32 _ hsp =>
    rw [hsp]
    dsimp only
    rw [if_neg (fun h => h.elim h64 h32)]
    split
    next b hb =>
      rw [if_pos (by rw [hb]; rfl)]
      simp [Nat.shiftLeft_eq, Nat.shiftRight_eq_div_pow]
    next hb => rw [if_neg (fun h => (isNan_iff _).mp h |>.elim hb)]
  next h64 h32 hsp => rw [hsp]

theorem vgetReadsOneElement : Claims.VgetReadsOneElement := by
  intro s d a code va hr
  refine ⟨fun hf => ?_, fun f hf hw hfill => ?_⟩
  · show execVget d a code va s = _
    rw [execVget, reading_runs hr.1 hr.2, hf]
    rfl
  · show execVget d a code va s = _
    rw [execVget, reading_runs hr.1 hr.2, hf]
    simp only [hw, hfill, Bool.or_self, Bool.false_eq_true, if_false]
    rw [retireWith_eq, vgetValue_eq hf]
    rfl

/- MATT. -/

variable {free : Nat → Bool}

/-- Units u to u + m are free and exist (R44). -/
def FreeRun (free : Nat → Bool) (u m : Nat) : Prop := ∀ j, u ≤ j → j < u + m → j < 12 ∧ free j = true

theorem freeRun_le (n u : Nat) : freeRun free n u ≤ n := by
  induction n generalizing u with
  | zero => exact Nat.le_refl 0
  | succ n ih =>
    rw [freeRun]
    have := ih (u + 1)
    split <;> omega

theorem freeRun_free (n u : Nat) : FreeRun free u (freeRun free n u) := by
  induction n generalizing u with
  | zero => exact fun j h1 h2 => absurd h2 (by simp [freeRun]; omega)
  | succ n ih =>
    intro j h1 h2
    rw [freeRun] at h2
    split at h2
    next hu =>
      rw [Bool.and_eq_true, decide_eq_true_eq] at hu
      obtain rfl | h := Nat.eq_or_lt_of_le h1
      · exact hu
      · exact ih (u + 1) j h (by omega)
    next => omega

/-- A free run is no longer than the one that is counted. -/
theorem FreeRun.le {n u m : Nat} (h : FreeRun free u m) (hm : m ≤ n) : m ≤ freeRun free n u := by
  induction m generalizing n u with
  | zero => exact Nat.zero_le _
  | succ m ih =>
    obtain ⟨n, rfl⟩ := Nat.exists_eq_add_of_le' (Nat.le_trans (Nat.succ_pos m) hm)
    obtain ⟨hu, hfree⟩ := h u (Nat.le_refl u) (by omega)
    have := ih (n := n) (u := u + 1) (fun j h1 h2 => h j (by omega) (by omega)) (by omega)
    rw [freeRun, if_pos (by simp [hu, hfree])]
    omega

theorem FreeRun.start {u m : Nat} (h : FreeRun free u m) (hm : 0 < m) : u < 12 := (h u (Nat.le_refl u) (by omega)).1

/-- The first place of the largest value of f. -/
theorem foldl_argmax (f : Nat → Nat) (n : Nat) :
    let b := (List.range n).foldl (fun (best : Nat × Nat) u => if best.2 < f u then (u, f u) else best) (0, 0)
    (b = (0, 0) ∨ b.2 = f b.1) ∧ b.1 ≤ n ∧ ∀ u < n, f u ≤ b.2 ∧ (f u = b.2 → 0 < b.2 → b.1 ≤ u) := by
  induction n with
  | zero => exact ⟨.inl rfl, Nat.le_refl 0, fun u hu => absurd hu (Nat.not_lt_zero u)⟩
  | succ n ih =>
    obtain ⟨hval, hplace, hmax⟩ := ih
    rw [List.range_succ, List.foldl_append, List.foldl_cons, List.foldl_nil]
    split
    next hlt =>
      refine ⟨.inr rfl, Nat.le_succ n, fun u hu => ⟨?_, fun he _ => ?_⟩⟩
      · obtain rfl | h := Nat.eq_or_lt_of_le (Nat.le_of_lt_succ hu)
        · exact Nat.le_refl _
        · exact Nat.le_of_lt (Nat.lt_of_le_of_lt (hmax u h).1 hlt)
      · obtain rfl | h := Nat.eq_or_lt_of_le (Nat.le_of_lt_succ hu)
        · exact Nat.le_refl _
        · exact absurd (hmax u h).1 (by rw [he]; exact Nat.not_le_of_lt hlt)
    next hle =>
      refine ⟨hval, Nat.le_succ_of_le hplace, fun u hu => ?_⟩
      obtain rfl | h := Nat.eq_or_lt_of_le (Nat.le_of_lt_succ hu)
      · exact ⟨Nat.le_of_not_lt hle, fun _ _ => hplace⟩
      · exact hmax u h


/-- The lowest free run of n units, or the longest one below it (R44). -/
theorem chooseRows_spec (free : Nat → Bool) (n : Nat) :
    (chooseRows free n).2 ≤ n ∧ FreeRun free (chooseRows free n).1 (chooseRows free n).2 ∧
    ∀ u k, k ≤ n → FreeRun free u k → k ≤ (chooseRows free n).2 ∧
      (k = (chooseRows free n).2 → 0 < (chooseRows free n).2 → (chooseRows free n).1 ≤ u) := by
  rw [chooseRows]
  split
  next b hb =>
    rw [List.find?_range_eq_some] at hb
    obtain ⟨heq, -, hfirst⟩ := hb
    rw [decide_eq_true_eq] at heq
    have hfree : FreeRun free b (freeRun free n b) := freeRun_free n b
    rw [heq] at hfree
    refine ⟨Nat.le_refl n, hfree, fun u k hk hrun => ⟨hk, ?_⟩⟩
    rintro rfl -
    refine Nat.le_of_not_lt fun hlt => ?_
    have hne : freeRun free k u ≠ k := by simpa using hfirst u hlt
    exact hne (Nat.le_antisymm (freeRun_le k u) (hrun.le (Nat.le_refl k)))
  next hb =>
    obtain ⟨hval, -, hmax⟩ := foldl_argmax (freeRun free n) 12
    refine ⟨?_, ?_, fun u k hk hrun => ?_⟩
    · obtain h | h := hval
      · rw [h]
        exact Nat.zero_le n
      · exact h ▸ freeRun_le n _
    · obtain h | h := hval
      · rw [h]
        exact fun j h1 h2 => absurd h2 (Nat.not_lt_of_le h1)
      · rw [h]
        exact freeRun_free n _
    · obtain rfl | hpos := Nat.eq_zero_or_pos k
      · exact ⟨Nat.zero_le _, fun h hp => absurd hp (h ▸ Nat.lt_irrefl 0)⟩
      · obtain ⟨hle, hfirst⟩ := hmax u (hrun.start hpos)
        have hk' := Nat.le_trans (hrun.le hk) hle
        exact ⟨hk', fun h => hfirst (Nat.le_antisymm hle (h ▸ hrun.le hk))⟩

theorem foldl_add_eq_sum (f : Nat → Nat) (l : List Nat) (a : Nat) :
    l.foldl (fun t g => t + f g) a = a + (l.map f).sum := by
  induction l generalizing a with
  | nil => rfl
  | cons x l ih => rw [List.foldl_cons, ih, List.map_cons, List.sum_cons, Nat.add_assoc]

theorem flailRowsAreGrantedAndReturned : Claims.FlailRowsAreGrantedAndReturned := by
  refine ⟨fun s d a hr => ?_, fun s hb => ?_⟩
  · intro n st
    have hexec : exec (.matt d a) s = execMatt d a s := rfl
    rw [hexec, execMatt, reading_runs hr.1 hr.2]
    refine ⟨fun h => if_pos h, fun h hn => ?_, fun h hn => ?_⟩
    · rw [if_neg (not_not_intro h), if_pos hn]
      rfl
    · intro others most run
      obtain ⟨hle, hrun, hmax⟩ := chooseRows_spec (s.unitFree st s.cur) most
      refine ⟨_, _, hle, hrun, hmax, ?_⟩
      rw [if_neg (not_not_intro h), if_neg hn, retireWith_eq, foldl_add_eq_sum, Nat.zero_add]
      rfl
  · show execMdet s = _
    rw [execMdet, hb]
    rfl

/-- Settles O28. -/
theorem lanesRowsAndElementsAreGranted : Obligations.LanesRowsAndElementsAreGranted :=
  ⟨setlGrantsLanes, vgetReadsOneElement, flailRowsAreGrantedAndReturned⟩

end Sys2Proof.Machine
end

