-- ==== Sys2Proof/Proofs/ChangedGrants.lean ====
section
/-!
A changed grant (R32): what a SETL that answers leaves of the registers it does not name.
-/

namespace Sys2Proof.Machine

set_option Elab.async false

variable {s : State}

/-- What R32 lets a SETL to xd change of the registers, between the states s and t. -/
def KeepsButGrant (d : Reg) (s t : State) : Prop :=
  (t.hart.grant ≠ s.hart.grant →
    (∀ v : VIx, t.hart.v[v.val].tag = 0 ∧ ∀ e g, t.hart.bitsAt v e g = 0) ∧
      ∀ (p : PIx) e, t.hart.pbit p e = decide (p = 0)) ∧
  (t.hart.grant = s.hart.grant → t.hart.v = s.hart.v ∧ t.hart.p = s.hart.p) ∧
  (t.hart.rowBase = s.hart.rowBase ∧ t.hart.rowCount = s.hart.rowCount ∧ t.hart.cells = s.hart.cells ∧
    t.hart.marks = s.hart.marks) ∧
  (t.sheaves = s.sheaves ∧ t.lines = s.lines ∧ t.hart.hreg = s.hart.hreg) ∧ t.hart.k = s.hart.k ∧
  ∀ r, r ≠ d → t.hart.rd r = s.hart.rd r

/-- The answer of a SETL that steps to no trap. -/
theorem wrote_keeps {t : State} {d : Reg} {w next : Word} (hdbg : t.hart.dbg.getLsbD 0 = false)
    (h : KeepsButGrant d s t) : KeepsButGrant d s (Claims.wrote t d w next) := by
  rw [Claims.wrote, State.retireTo_plain _ _ (by simpa using hdbg)]
  obtain ⟨hempty, hkeep, hrows, hsheaves, hk, hx⟩ := h
  refine ⟨?_, ?_, ?_, ?_, ?_, ?_⟩
  · simpa [Hart.bitsAt, Hart.pbit, Hart.lanes] using hempty
  · simpa using hkeep
  · simpa using hrows
  · simpa using hsheaves
  · simpa using hk
  · exact fun r hr => (Hart.rd_wr_other _ _ _ _ hr).trans (hx r hr)

theorem granted_keeps {g : BitVec 64} (d : Reg) (hs : s.hart.needsReserved = none) : KeepsButGrant d s (s.granted g) := by
  refine ⟨fun h => ?_, fun h => ?_, ?_, ?_, ?_, ?_⟩
  · rw [granted_grant hs] at h
    obtain ⟨htag, hbits, hp, -⟩ := granted_empties h hs
    exact ⟨fun v => ⟨htag v, hbits v⟩, hp⟩
  · rw [granted_grant hs] at h
    rw [State.granted, if_pos h]
    exact ⟨rfl, rfl⟩
  all_goals rw [granted_frame hs]
  · exact ⟨rfl, rfl, rfl, rfl⟩
  · exact ⟨rfl, rfl, rfl⟩
  · exact fun _ _ => rfl

/-- Settles O27: with `k` the answer alone is written; without it the state is `State.granted`. -/
theorem changedGrantsEmptyRegisters : Obligations.ChangedGrantsEmptyRegisters := by
  intro s d a code f keep hr hf hn hdbg hkeep
  have hself : KeepsButGrant d s s :=
    ⟨fun h => absurd rfl h, fun _ => ⟨rfl, rfl⟩, ⟨rfl, rfl, rfl, rfl⟩, ⟨rfl, rfl, rfl⟩, rfl, fun _ _ => rfl⟩
  by_cases hk : keep = true
  · subst hk
    exact ⟨_, exec_setl_keep hr hf, wrote_keeps hdbg hself⟩
  · obtain ⟨hb, hw⟩ := hkeep.resolve_left hk
    rw [Bool.not_eq_true] at hk
    subst hk
    refine ⟨_, exec_setl hr hf hb hw, wrote_keeps ?_ (granted_keeps d hn)⟩
    rw [granted_frame hn]
    exact hdbg

end Sys2Proof.Machine
end

