-- ==== Sys2Proof/Proofs/Records.lean ====
section
/-!
Records kept by number: what a lookup finds after an entry is put in or taken out, and the contexts and partitions read
through it.
-/

namespace Sys2Proof.Machine

set_option Elab.async false

variable {α : Type} {s : State}

@[simp] theorem alookup_ainsert_same (l : List (Nat × α)) (k : Nat) (a : α) : alookup (ainsert l k a) k = some a := by
  induction l with
  | nil => simp [ainsert, alookup]
  | cons e l ih => grind [ainsert, alookup]

theorem alookup_ainsert_other {j k : Nat} (h : j ≠ k) (l : List (Nat × α)) (a : α) :
    alookup (ainsert l k a) j = alookup l j := by
  induction l with
  | nil => grind [ainsert, alookup]
  | cons e l ih => grind [ainsert, alookup]

@[simp] theorem alookup_aerase_same (l : List (Nat × α)) (k : Nat) : alookup (aerase l k) k = none := by
  induction l with
  | nil => rfl
  | cons e l ih => grind [aerase, alookup]

theorem alookup_aerase_other {j k : Nat} (h : j ≠ k) (l : List (Nat × α)) : alookup (aerase l k) j = alookup l j := by
  induction l with
  | nil => rfl
  | cons e l ih => grind [aerase, alookup]

@[simp] theorem State.partAt_setPartAt_same (s : State) (p : Nat) (v : Part) : (s.setPartAt p v).partAt p = v := by
  rw [State.partAt, State.setPartAt, alookup_ainsert_same]
  rfl

theorem State.partAt_setPartAt_other {p q : Nat} (h : p ≠ q) (s : State) (v : Part) :
    (s.setPartAt q v).partAt p = s.partAt p := by
  rw [State.partAt, State.setPartAt, alookup_ainsert_other h]
  rfl

@[simp] theorem State.hartAt_setHartAt_same (s : State) (n : Nat) (v : Hart) : (s.setHartAt n v).hartAt n = v := by
  rw [State.setHartAt]
  split
  next h => simp [State.hartAt, h]
  next h => simp [State.hartAt, h]

theorem State.hartAt_setHartAt_other {m n : Nat} (h : m ≠ n) (s : State) (v : Hart) :
    (s.setHartAt n v).hartAt m = s.hartAt m := by
  rw [State.setHartAt]
  split
  next hn => simp [State.hartAt, hn ▸ h]
  next hn => simp [State.hartAt, alookup_ainsert_other h]

end Sys2Proof.Machine
end

