-- ==== Sys2Proof/Proofs/HartEnds.lean ====
section
/-!
The end of a hart and its waits (R33, R45, R281, R381): what giving quads back leaves of the state, how far a hart that
holds nothing passes through `EXIT`, and the quads that `WAIT` and `YIELD` return.
-/

namespace Sys2Proof.Machine

set_option Elab.async false

variable {s t : State}

/- Giving quads back. -/

/-- Contexts alone differ between the states. -/
def Allots (s t : State) : Prop := t = { s with others := t.others, hart := t.hart }

theorem Allots.refl (s : State) : Allots s s := rfl

theorem Allots.trans {u : State} (h : Allots s t) (h' : Allots t u) : Allots s u := by
  rw [Allots] at h h' ⊢
  rw [h', h]

theorem Allots.withFarms (h : Allots s t) :
    t = { s with hart := t.hart, others := t.others, farms := t.farms } := by
  rw [h]

theorem setHartAt_allots (s : State) (n : Nat) (v : Hart) : Allots s (s.setHartAt n v) := by
  rw [State.setHartAt]
  split
  · rfl
  · rfl

theorem serveWaiting_allots (s : State) (p st : Nat) (qs : List Nat) : Allots s (s.serveWaiting p st qs) := by
  induction qs generalizing s with
  | nil => exact .refl s
  | cons q qs ih =>
    rw [State.serveWaiting]
    split
    next => exact .refl s
    next => exact (setHartAt_allots ..).trans (ih _)

theorem serveFree_allots (s : State) (st n : Nat) : Allots s (s.serveFree st n) := by
  induction n generalizing s with
  | zero => exact .refl s
  | succ n ih =>
    rw [State.serveFree]
    split
    next => exact (setHartAt_allots ..).trans (ih _)
    next => exact .refl s

theorem Serves.allots (h : Serves s t) : Allots s t := by
  rw [Allots, h.frame]

theorem quadsBack_allots (s : State) (p st : Nat) (qs : List Nat) : Allots s (s.quadsBack p st qs) :=
  ((serveWaiting_allots ..).trans (serveFree_allots ..)).trans (foldl_serves wakeGang_serves _ _).allots

theorem giveBack_allots (s : State) (n : Nat) (st : Status) : Allots s (s.giveBack n st) :=
  (setHartAt_allots ..).trans (quadsBack_allots ..)

/-- The current hart without its quads (R33). -/
def State.quadless (s : State) (st : Status) : State :=
  { s with hart := { s.hart with
      status := st, owed := if s.hart.holding then (quadList s.hart.grant).length else 0, grant := 0 } }

theorem giveBack_serves (st : Status) (hs : s.hart.needsReserved = none) :
    Serves (s.quadless st) (s.giveBack s.cur st) := by
  rw [State.giveBack, State.hartAt_cur, State.setHartAt_cur]
  have hlength : ∀ c : Bool, (if c then quadList s.hart.grant else []).length =
      if c then (quadList s.hart.grant).length else 0 := fun c => by cases c <;> rfl
  rw [hlength]
  exact quadsBack_serves (s := s.quadless st) hs _ _ _

/- WAIT and YIELD. -/

/-- The youngest buffered store of a byte, read from either end (R119). -/
theorem forwarded_eq (buf : List Pending) (pa : Nat) : forwarded buf pa =
    buf.reverse.findSome? (fun p => ((p.pa.zip p.bytes).find? (fun e => e.1 == pa)).map (·.2)) := by
  rw [forwarded, ← List.foldr_reverse]
  induction buf.reverse with
  | nil => rfl
  | cons p l ih =>
    rw [List.foldr_cons, List.findSome?_cons, ih]
    split
    next e h => rw [h]; rfl
    next h => rw [h]; rfl

theorem loadBytes_eq (s : State) (pas : List Nat) : s.loadBytes pas = pas.map (Claims.loaded s) := by
  simp only [State.loadBytes, forwarded_eq]
  rfl

theorem synchronise_runs {k : Out} (h : s.deliverable = false) : synchronise s k = k := by
  rw [synchronise, h]
  rfl

/-- The current hart asleep on a word at addr that it compares with c (R381), its quads still its own. -/
def State.dozing (s : State) (addr : Word) (pas : List Nat) (c : Word) : State :=
  { s with
    rereads := s.rereads.filter (· != s.cur)
    hart := { s.hart with sleepAddr := addr, sleepPas := pas, sleepCmp := c, resumeNext := false } }

theorem waits_on_a_word {a b : Reg} {pas : List Nat} (hr : Claims.Readable [a, b] s) (hd : s.deliverable = false)
    (hheld : s.heldByDeposit (s.hart.rd a) 8 = false) (hacc : s.accessAt s.who (s.hart.rd a) 8 8 .rd = .ok pas)
    (hb : s.hart.blocksDone = true) : exec (.wait a b) s =
      if BitVec.ofNat 64 (ofBytes (pas.map (Claims.loaded s))) ≠ s.hart.rd b then retire s
      else .next ((s.dozing (s.hart.rd a) pas (s.hart.rd b)).giveBack s.cur .sleeping) := by
  show execWait a b s = _
  rw [execWait, synchronise_runs hd, reading_runs hr.1 hr.2]
  dsimp only
  rw [hheld, hacc, hb, ← loadBytes_eq]
  rfl

/-- The current hart as a `YIELD` leaves it, its quads still its own. -/
def State.yielding (s : State) : State := s.withHart { s.hart with resumeNext := true }

theorem exec_yield (hd : s.deliverable = false) (hb : s.hart.blocksDone = true) (hn : s.hart.needsReserved = none) :
    ∃ u, Serves (s.yielding.quadless .runnable) u ∧ exec .yield s = .next (u.enqueue u.cur) := by
  have hserves := giveBack_serves (s := s.yielding) .runnable hn
  have hcur : (s.yielding.giveBack s.yielding.cur .runnable).cur = s.cur := hserves.cur
  refine ⟨_, hserves, ?_⟩
  show execYield s = _
  rw [execYield, synchronise_runs hd, hb, hcur]
  rfl

/-- The current hart at the back of its partition's order (R139, R144). -/
theorem enqueue_cur (t : State) : t.enqueue t.cur = { t with
    nextId := t.nextId + 1, hart := { t.hart with since := t.nextId }
    parts := ainsert t.parts t.hart.part
      { t.partAt t.hart.part with order := (t.partAt t.hart.part).order ++ [t.cur] } } := by
  have hfresh : t.fresh.2.hartAt t.cur = t.hart := State.hartAt_cur t.fresh.2
  rw [State.enqueue]
  dsimp only
  rw [hfresh, State.setHartAt]
  exact if_pos rfl

theorem waitAndYieldGiveQuadsBack : Claims.WaitAndYieldGiveQuadsBack := by
  refine ⟨fun s a b pas hr hd hheld hacc hb => ?_, fun s hd hb hn => ?_⟩
  · intro v
    rw [waits_on_a_word hr hd hheld hacc hb]
    refine ⟨fun h => if_pos h, fun h hn => ?_⟩
    have hserves := giveBack_serves (s := s.dozing (s.hart.rd a) pas (s.hart.rd b)) .sleeping hn
    refine ⟨_, if_neg (not_not_intro h), ?_, ?_⟩
    · exact congrArg State.hart hserves.frame
    · exact hserves.allots.withFarms
  · obtain ⟨u, hserves, hexec⟩ := exec_yield hd hb hn
    rw [enqueue_cur] at hexec
    refine ⟨_, hexec, ?_, ?_, ?_⟩
    · rw [hserves.frame]
      rfl
    · have hcur : u.cur = s.cur := hserves.cur
      have hpart : u.hart.part = s.hart.part := by rw [hserves.frame]; rfl
      have hrecord : u.partAt s.hart.part = s.partAt s.hart.part := by rw [hserves.frame]; rfl
      rw [← hpart] at hrecord ⊢
      rw [← hrecord, ← hcur]
      exact congrArg Part.order (State.partAt_setPartAt_same u _ _)
    · rw [hserves.frame]
      rfl

/- EXIT. -/

theorem debtsDone_iff (s : State) : s.debtsDone s.cur s.nextId = true ↔
    (∀ sh ∈ s.sheaves, sh.hart = s.cur → sh.desc.mode ≠ .inp → sh.desc.mode ≠ .loc →
      ∀ o ∈ sh.orders, s.nextId ≤ o.oid) ∧
    ∀ d ∈ s.debts, d.hart = s.cur → s.nextId ≤ d.oid := by
  simp only [State.debtsDone, Bool.and_eq_true, List.all_eq_true, Bool.or_eq_true, bne_iff_ne, beq_iff_eq,
    decide_eq_true_eq, ne_eq]
  grind

theorem releaseReady_iff (s : State) : s.releaseReady = true ↔ Claims.Performed s := by
  rw [State.releaseReady, Bool.and_eq_true, debtsDone_iff, Claims.Performed]
  refine and_congr ?_ Iff.rfl
  simp [State.blocksQuiet, Claims.AccessesPerformed, and_assoc]

theorem clearReg_empty {r : Nat} (h : ∀ r : HIx, s.hart.hreg[r.val] = none) : s.clearReg s.cur r = s := by
  have hnone : s.hart.hreg.toList.getD r none = none := by
    rw [List.getD_eq_getElem?_getD]
    by_cases hr : r < 16
    · have := h ⟨r, hr⟩
      simp_all
    · rw [List.getElem?_eq_none (by simpa using hr)]
      rfl
  rw [State.clearReg, State.hartAt_cur, hnone]

theorem foldl_clearReg_empty (h : ∀ r : HIx, s.hart.hreg[r.val] = none) (rs : List Nat) :
    rs.foldl (fun s r => s.clearReg s.cur r) s = s := by
  induction rs with
  | nil => rfl
  | cons r rs ih => rw [List.foldl_cons, clearReg_empty h, ih]

theorem closeSlots_unbound (h : ∀ z : ZIx, s.hart.z[z.val].bound = .unbound) (zs : List ZIx) :
    s.closeSlots zs = (s, true) := by
  induction zs with
  | nil => rfl
  | cons z zs ih =>
    have hz : s.closeSlot s.cur z = .done s := by
      rw [State.closeSlot, State.slotAt, State.hartAt_cur]
      simp only [h z]
    rw [State.closeSlots, hz]
    exact ih

theorem releaseReady_of_blocksDone (h : s.hart.blocksDone = true) :
    s.releaseReady = (s.hart.vq.isEmpty && s.hart.sbuf.isEmpty && s.debtsDone s.cur s.nextId) := by
  have hall := (Bool.and_eq_true_iff.mp h).1
  have hunheld : s.hart.unheld = [] := by
    rw [Hart.unheld, List.filter_eq_nil_iff]
    intro b hb
    simpa using List.all_eq_true.mp hall b hb
  rw [State.releaseReady, State.blocksQuiet, State.blocksHave, hunheld]
  rfl

/-- With nothing held, `EXIT` waits for the release alone (R281). -/
theorem exitTail_eq (h : Claims.HoldsNothing s) : exitTail s = if s.releaseReady then .next s.endHart else stallCtl s := by
  have hsheaves : s.sheaves.any (·.hart == s.cur) = false := by simpa using h.sheaves
  have hfind : s.findPending = false := by
    simp only [State.findPending, List.any_eq_false, Bool.and_eq_true, beq_iff_eq]
    exact fun o ho hc => h.operations o ho hc.1
  have hstrip : s.closeStrip = s := by rw [State.closeStrip, h.strip]; rfl
  rw [exitTail, hsheaves, closeSlots_unbound h.slots, State.sendHeld, hfind]
  dsimp only
  rw [hstrip]
  by_cases hfence : s.hart.sbuf.any (·.kind == .fence) = true
  · have hready : s.releaseReady = false := by
      rw [State.releaseReady]
      cases hbuf : s.hart.sbuf with
      | nil => rw [hbuf] at hfence; cases hfence
      | cons p l => simp
    rw [hfence, hready]
    rfl
  · rw [Bool.not_eq_true] at hfence
    rw [hfence]
    rfl

/-- The current hart on its way out (R281). -/
def State.leaving (s : State) : State := s.withHart { s.hart with exiting := true }

theorem holdsNothing_leaving (h : Claims.HoldsNothing s) : Claims.HoldsNothing s.leaving :=
  ⟨h.blocks, h.answers, h.operations, h.registers, h.sheaves, h.slots, h.strip⟩

theorem exec_exit (hd : s.deliverable = false) (hend : s.hart.ending = false) (hexit : s.hart.exiting = false) :
    exec .exit s =
      if !s.hart.blocksDone || !s.hart.pending.isEmpty || s.ops.any (·.hart == s.cur) then stallCtl s
      else exitTail ((List.range 16).foldl (fun s r => s.clearReg s.cur r) s.leaving) := by
  show execExit s = _
  rw [execExit, synchronise_runs hd, hend, hexit]
  rfl

theorem exec_exit_empty (hd : s.deliverable = false) (hend : s.hart.ending = false) (hexit : s.hart.exiting = false)
    (h : Claims.HoldsNothing s) : exec .exit s =
      if s.releaseReady then .next s.leaving.endHart else stallCtl s.leaving := by
  have hops : s.ops.any (·.hart == s.cur) = false := by simpa using h.operations
  rw [exec_exit hd hend hexit, h.blocks, h.answers, hops, foldl_clearReg_empty (s := s.leaving) h.registers]
  refine (exitTail_eq (holdsNothing_leaving h)).trans ?_
  rw [releaseReady_of_blocksDone h.blocks, releaseReady_of_blocksDone (s := s.leaving) h.blocks]
  rfl

theorem exec_exit_waits (hd : s.deliverable = false) (hend : s.hart.ending = false) (hexit : s.hart.exiting = false)
    (h : s.hart.blocksDone = false ∨ s.hart.pending ≠ [] ∨ ∃ o ∈ s.ops, o.hart = s.cur) :
    exec .exit s = stallCtl s := by
  have hwaits : (!s.hart.blocksDone || !s.hart.pending.isEmpty || s.ops.any (·.hart == s.cur)) = true := by
    simpa [or_assoc] using h
  rw [exec_exit hd hend hexit, hwaits]
  rfl

/- What is left when a hart has ended. -/

/-- A hart context that has ended (R281). -/
def Hart.gone (h : Hart) : Hart := { Hart.reset with status := .ended, grant := 0, part := h.part }

/-- The farm of the hart that ends, among those that have exited. -/
def Farm.without (g : Farm) (n : Nat) : Farm := { g with harts := g.harts.filter (· != n), exited := g.exited ++ [n] }

/-- The current hart's context as its end leaves it, its place in the order of its partition given up. -/
def State.vacated (s : State) : State :=
  let t := { s.giveBack s.cur .ended with
    hart := s.hart.gone, pinWait := (s.giveBack s.cur .ended).pinWait.filter (· != s.cur) }
  let v := t.partAt s.hart.part
  t.setPartAt s.hart.part { v with order := v.order.filter (· != s.cur) }

/-- The state in which the current hart has ended and has left its farm; what stood waiting for it has not gone on
yet. -/
def State.struck (s : State) : State :=
  match s.vacated.farmAt s.hart.part s.hart.farm with
  | some g => if g.harts.contains s.cur then s.vacated.setFarm (g.without s.cur) else s.vacated
  | none => s.vacated

theorem endHart_eq (s : State) : s.endHart =
    ((s.struck.farms.foldl State.wakeGang s.struck).settleBudget s.hart.part (steadOf s.cur)).dropSlot
      s.hart.part (steadOf s.cur) := by
  have hcur : (s.giveBack s.cur .ended).cur = s.cur := by rw [giveBack_allots]
  have hset : ∀ (t : State) (v : Hart), t.cur = s.cur → t.setHartAt s.cur v = { t with hart := v } := fun t v h => by
    rw [State.setHartAt, if_pos h.symm]
  rw [State.endHart]
  dsimp only
  rw [hset { s.giveBack s.cur .ended with
    pinWait := (s.giveBack s.cur .ended).pinWait.filter (· != s.cur) } _ hcur]
  rfl

theorem vacated_frame (s : State) : s.vacated = { s with
    hart := s.hart.gone, others := s.vacated.others, parts := s.vacated.parts, pinWait := s.vacated.pinWait } := by
  rw [State.vacated, giveBack_allots]
  rfl

theorem struck_frame (s : State) : s.struck = { s.vacated with farms := s.struck.farms } := by
  rw [State.struck]
  split
  · split
    · rfl
    · rfl
  · rfl

/-- A farm that is found stands, changed, where it stood. -/
theorem find?_setFarm {g g' : Farm} (hpart : g'.part = g.part) (hid : g'.id = g.id) {p n : Nat}
    (h : t.farmAt p n = some g) :
    (t.setFarm g').farms.find? (fun f => f.part == g.part && f.id == g.id) = some g' := by
  have hg := List.find?_some h
  rw [Bool.and_eq_true, beq_iff_eq, beq_iff_eq] at hg
  obtain ⟨rfl, rfl⟩ := hg
  rw [State.farmAt] at h
  rw [State.setFarm, hpart, hid]
  dsimp only
  generalize t.farms = l at h ⊢
  induction l with
  | nil => cases h
  | cons f l ih =>
    rw [List.find?_cons] at h
    rw [List.map_cons, List.find?_cons]
    by_cases hf : (f.part == g.part && f.id == g.id) = true
    · rw [if_pos hf, hpart, hid, beq_self_eq_true, beq_self_eq_true]
      rfl
    · rw [Bool.not_eq_true] at hf
      rw [hf] at h
      rw [if_neg (by rw [hf]; exact Bool.false_ne_true), hf]
      exact ih h

theorem struck_farms {g : Farm} (h : s.farmAt s.hart.part s.hart.farm = some g) (hmem : s.cur ∈ g.harts) :
    s.struck.farms.find? (fun f => f.part == g.part && f.id == g.id) = some (g.without s.cur) := by
  have hv : s.vacated.farmAt s.hart.part s.hart.farm = some g := by
    rw [vacated_frame]
    exact h
  rw [State.struck, hv]
  dsimp only
  rw [if_pos (by simpa using hmem)]
  exact find?_setFarm (t := s.vacated) rfl rfl hv

/-- Contexts and partitions alone differ, and of the current hart no more than that its gang no longer waits. -/
structure Settles (s t : State) : Prop where
  frame : t = { s with others := t.others, parts := t.parts, hart := { s.hart with gangWait := t.hart.gangWait } }
  gangWait : s.hart.gangWait = false → t.hart.gangWait = false

theorem Settles.trans {u : State} (h : Settles s t) (h' : Settles t u) : Settles s u := by
  refine ⟨?_, h'.gangWait ∘ h.gangWait⟩
  rw [h'.frame, h.frame]

theorem Serves.settles (h : Serves s t) : Settles s t := by
  refine ⟨?_, h.gangWait⟩
  rw [h.frame]

theorem setPartAt_settles (s : State) (p : Nat) (v : Part) : Settles s (s.setPartAt p v) := ⟨rfl, id⟩

theorem allot_serves (hs : s.hart.needsReserved = none) (st : Nat) : Serves s (s.allot st) :=
  (serveFree_serves hs st 16).trans (foldl_serves wakeGang_serves _ _)

theorem settleBudget_settles (hs : s.hart.needsReserved = none) (p st : Nat) : Settles s (s.settleBudget p st) := by
  rw [State.settleBudget]
  refine ite_holds (P := Settles s) ⟨rfl, id⟩ ?_
  exact (setPartAt_settles s p _).trans (allot_serves (s := s.setPartAt p _) hs st).settles

theorem dropSlot_settles (s : State) (p st : Nat) : Settles s (s.dropSlot p st) :=
  ite_holds (P := Settles s) ⟨rfl, id⟩ (setPartAt_settles s p _)

theorem struck_hart (s : State) : s.struck.hart = s.hart.gone := by
  rw [struck_frame, vacated_frame]

theorem endHart_settles (s : State) : Settles s.struck s.endHart := by
  have hs : s.struck.hart.needsReserved = none := by rw [struck_hart]; rfl
  have hwoken : Serves s.struck (s.struck.farms.foldl State.wakeGang s.struck) := foldl_serves wakeGang_serves _ _
  rw [endHart_eq]
  exact (hwoken.settles.trans (settleBudget_settles (hwoken.needsReserved.trans hs) ..)).trans (dropSlot_settles ..)

theorem endHart_hart (s : State) : s.endHart.hart = s.hart.gone := by
  have h := endHart_settles s
  have hgang := h.gangWait (by rw [struck_hart]; rfl)
  rw [h.frame, hgang, struck_hart]
  rfl

theorem endHart_farms (s : State) : s.endHart.farms = s.struck.farms := by rw [(endHart_settles s).frame]

theorem exitEndsHart : Claims.ExitEndsHart := by
  intro s hd hend hexit
  refine ⟨fun h hp => ?_, fun h hp => ?_, exec_exit_waits hd hend hexit⟩
  · have hready : s.releaseReady = true := (releaseReady_iff s).mpr hp
    refine ⟨s.leaving.endHart, ?_, endHart_hart s.leaving, ?_⟩
    · rw [exec_exit_empty hd hend hexit h, hready]
      rfl
    · rw [endHart_hart]
      refine ⟨rfl, rfl, rfl, fun r => ?_, fun v => ⟨?_, fun e f => ?_⟩, fun p e => ?_, ?_, ?_, fun g hg hmem => ?_⟩
      · simp [Hart.gone, Hart.reset, Hart.rd]
      · simp [Hart.gone, Hart.reset]
      · rw [Hart.bitsAt]
        simp [Hart.gone, Hart.reset]
      · simp [Hart.gone, Hart.reset, Hart.pbit]
      · rw [(endHart_settles s.leaving).frame, struck_frame, vacated_frame]
        rfl
      · rw [(endHart_settles s.leaving).frame, struck_frame, vacated_frame]
        rfl
      · rw [endHart_farms]
        exact struck_farms (s := s.leaving) hg hmem
  · have hready : s.releaseReady = false := by rw [← Bool.not_eq_true, releaseReady_iff]; exact hp
    rw [exec_exit_empty hd hend hexit h, hready]
    rfl

/-- Settles O33. -/
theorem hartsEndWaitAndYield : Obligations.HartsEndWaitAndYield := ⟨exitEndsHart, waitAndYieldGiveQuadsBack⟩

end Sys2Proof.Machine
end

