-- ==== Sys2Proof/Proofs/CsrAccesses.lean ====
section
/-!
CSR accesses (R26, R46, R47, R183, R279, R280): the checks in their order, what a write leaves to be read, and that every
other register reads as before.
-/

namespace Sys2Proof.Machine

set_option Elab.async false

variable {s : State}

/- The checks. -/

theorem csrAccess_priv {i : Instr} {n : BitVec 12} {write : Bool} {rs : List Reg} {k : Out} {w : Nat × Nat}
    (hw : encode i = some w) (h1 : 0x800 ≤ n.toNat) (h2 : n.toNat ≤ 0xBFF) (hl : s.hart.level = 0) :
    csrAccess i n write rs s k = faultAt s .priv (BitVec.ofNat 64 w.2) := by
  simp [csrAccess, csrPrivileged, hw, h1, h2, hl]

/-- At a level that suffices the access is not refused as privileged. -/
theorem unprivileged {n : Nat} (h : Claims.csrFree s n) : (csrPrivileged n && s.hart.level = 0) = false := by
  simpa [csrPrivileged] using h.1

theorem csrAccess_unlisted {i : Instr} {n : BitVec 12} {write : Bool} {rs : List Reg} {k : Out} {w : Nat × Nat}
    (hw : encode i = some w) (hf : Claims.csrFree s n.toNat) (hn : csrListed n.toNat = none) :
    csrAccess i n write rs s k = faultAt s .illegal (BitVec.ofNat 64 w.2) := by
  rw [csrAccess, unprivileged hf, hn, hw]
  rfl

theorem csrAccess_readOnly {i : Instr} {n : BitVec 12} {rs : List Reg} {k : Out} {w : Nat × Nat}
    (hw : encode i = some w) (hf : Claims.csrFree s n.toNat) (hn : csrListed n.toNat = some true) :
    csrAccess i n true rs s k = faultAt s .illegal (BitVec.ofNat 64 w.2) := by
  rw [csrAccess, unprivileged hf, hn, hw]
  rfl

theorem csrAccess_runs {i : Instr} {n : BitVec 12} {write ro : Bool} {rs : List Reg} {k : Out}
    (hf : Claims.csrFree s n.toNat) (hn : csrListed n.toNat = some ro) (hro : (write && ro) = false)
    (hr : Claims.Readable rs s) : csrAccess i n write rs s k = k := by
  have hwaits : (csrWaits n.toNat && !s.hart.blocksDone) = false := by
    by_cases hb : s.hart.blocksDone = true
    · simp [hb]
    · simpa [csrWaits, hb, and_assoc] using mt hf.2 hb
  rw [csrAccess, unprivileged hf, hn]
  dsimp only
  rw [hro, reading_runs hr.1 hr.2, hwaits]
  rfl

/-- The write instructions of R279 as one. -/
theorem exec_csrForm {i : Instr} {n : BitVec 12} {a : Reg} {f : Word → Word}
    (h : Claims.csrForm s.hart i = some (n, a, f)) :
    exec i s = csrAccess i n true [a] s (retireCsr s (s.csrWrite n.toNat (f (s.csrRead n.toNat)))) := by
  cases i <;> cases h
  all_goals rfl

theorem exec_csrr (d : Reg) (n : BitVec 12) :
    exec (.csrr d n) s = csrAccess (.csrr d n) n false [] s (retireWith s d (s.csrRead n.toNat)) := rfl

theorem csrAccessesAreChecked : Claims.CsrAccessesAreChecked := by
  refine ⟨fun s i n w hw hi => ?_, fun s d n hn hf => ?_, fun s => ⟨rfl, rfl, rfl, rfl, rfl, ?_⟩⟩
  · obtain ⟨d, rfl⟩ | ⟨a, f, hform⟩ := hi
    · rw [exec_csrr]
      exact ⟨csrAccess_priv hw, csrAccess_unlisted hw, fun _ _ hd => absurd rfl (hd d)⟩
    · rw [exec_csrForm hform]
      exact ⟨csrAccess_priv hw, csrAccess_unlisted hw, fun hf hn _ => csrAccess_readOnly hw hf hn⟩
  · obtain ⟨ro, hro⟩ := Option.ne_none_iff_exists'.mp hn
    rw [exec_csrr, csrAccess_runs hf hro (Bool.false_and ro) ⟨by simp, by simp⟩]
    exact retireWith_eq ..
  · show BitVec.ofNat 64 (s.hart.rowBase + s.hart.rowCount <<< 8) = _
    rw [Nat.shiftLeft_eq, Nat.mul_comm]

/- What a write leaves. -/

/-- What `LPART`, `TENANT` and `RAKESTAT` read of every partition. -/
def PartsReadAlike (s u : State) : Prop :=
  ∀ p, (u.partAt p).slots = (s.partAt p).slots ∧ (u.partAt p).record = (s.partAt p).record ∧
    (u.partAt p).policy = (s.partAt p).policy

/-- Of the fields that a CSR write can change, those of registers other than n are the same. -/
structure FieldsAlike (n : Nat) (s u : State) : Prop where
  vstart : n ≠ 0x010 → u.hart.vstart = s.hart.vstart := by intros; rfl
  vla : n ≠ 0x011 → u.hart.vla = s.hart.vla := by intros; rfl
  vfret : n ≠ 0x012 → u.hart.vfret = s.hart.vfret := by intros; rfl
  ropepart : n ≠ 0x019 → u.hart.ropepart = s.hart.ropepart := by intros; rfl
  fmtdef : n ≠ 0x020 → u.hart.fmtdef = s.hart.fmtdef := by intros; rfl
  frm : n ≠ 0x021 → u.hart.frm = s.hart.frm := by intros; rfl
  fflags : n ≠ 0x022 → u.hart.fflags = s.hart.fflags := by intros; rfl
  nwin : n ≠ 0x023 → u.hart.nwin = s.hart.nwin := by intros; rfl
  ntEn : n ≠ 0x024 → u.hart.ntEn = s.hart.ntEn := by intros; rfl
  ntHost : n ≠ 0x024 → u.hart.ntHost = s.hart.ntHost := by intros; rfl
  nthr : ∀ j < 6, n ≠ 0x028 + j → u.hart.nthr.toList.getD j 0 = s.hart.nthr.toList.getD j 0 := by intros; rfl
  ncnt : ∀ j < 6, n ≠ 0x030 + j → u.hart.ncnt.toList.getD j 0 = s.hart.ncnt.toList.getD j 0 := by intros; rfl
  bank0 : ∀ j < 6, n ≠ 0x040 + j →
    u.hart.bank0.get u.hart.bank0.tvec j = s.hart.bank0.get s.hart.bank0.tvec j := by intros; rfl
  dbg : n ≠ 0x060 → u.hart.dbg = s.hart.dbg := by intros; rfl
  tdeleg : n ≠ 0x801 → (u.partAt s.hart.part).tdeleg = (s.partAt s.hart.part).tdeleg := by intros; rfl
  bank1 : ∀ j < 6, n ≠ 0x840 + j →
    u.hart.bank1.get (u.partAt s.hart.part).stvec j = s.hart.bank1.get (s.partAt s.hart.part).stvec j := by intros; rfl

variable {u : State}

/-- `LPART` reads of a hart its quads, whether it holds them, and its partition's slot (R48). -/
theorem lpart_alike (ho : Claims.OnlyCsrs s u) (hp : PartsReadAlike s u) (k : Nat) : u.lpart k = s.lpart k := by
  have hcur : u.cur = s.cur := by rw [ho]
  have hothers : u.others = s.others := by rw [ho]
  have hharts : ∀ st, u.hartsOn st = s.hartsOn st := fun st => by
    rw [State.hartsOn, State.hartsOn, State.hartIds, State.hartIds, hcur, hothers]
  have hhart : ∀ {β : Type} (f : Hart → β), f u.hart = f s.hart → ∀ n, f (u.hartAt n) = f (s.hartAt n) := by
    intro β f hf n
    rw [State.hartAt, State.hartAt, hcur, hothers]
    split
    · exact hf
    · rfl
  have hhold : u.hart.holding = s.hart.holding := by rw [ho]; rfl
  have hgrant : u.hart.grant = s.hart.grant := by rw [ho]
  have hpart : u.hart.part = s.hart.part := by rw [ho]
  have howner : ∀ st q, u.ownerCode st q = s.ownerCode st q := fun st q => by
    simp only [State.ownerCode, hharts, hhart Hart.holding hhold, hhart Hart.grant hgrant, hhart Hart.part hpart,
      (hp _).1]
  rw [State.lpart, State.lpart, hcur]
  simp only [howner]

theorem csrRead_nthr {j : Nat} (hj : j < 6) :
    s.csrRead (0x028 + j) = (s.hart.nthr.toList.getD j 0).zeroExtend 64 := by
  interval_cases j <;> rfl

theorem csrRead_ncnt {j : Nat} (hj : j < 6) :
    s.csrRead (0x030 + j) = (s.hart.ncnt.toList.getD j 0).zeroExtend 64 := by
  interval_cases j <;> rfl

theorem csrRead_bank0 {j : Nat} (hj : j < 6) :
    s.csrRead (0x040 + j) = s.hart.bank0.get s.hart.bank0.tvec j := by
  interval_cases j <;> rfl

theorem csrRead_bank1 {j : Nat} (hj : j < 6) :
    s.csrRead (0x840 + j) = s.hart.bank1.get (s.partAt s.hart.part).stvec j := by
  interval_cases j <;> rfl

/-- The registers that no write of a CSR can change. -/
def csrFixed (m : Nat) : Prop :=
  m ∉ [0x010, 0x011, 0x012, 0x019, 0x020, 0x021, 0x022, 0x023, 0x024, 0x060, 0x801] ∧
    ∀ j < 6, m ≠ 0x028 + j ∧ m ≠ 0x030 + j ∧ m ≠ 0x040 + j ∧ m ≠ 0x840 + j

theorem csrRead_fixed {m : Nat} (ho : Claims.OnlyCsrs s u) (hp : PartsReadAlike s u) (h : csrFixed m) :
    u.csrRead m = s.csrRead m := by
  obtain ⟨hsingle, hranges⟩ := h
  simp only [List.mem_cons, List.not_mem_nil, or_false, not_or] at hsingle
  obtain ⟨h10, h11, h12, h19, h20, h21, h22, h23, h24, h60, h801⟩ := hsingle
  have hrange : ∀ lo, (∀ j < 6, m ≠ lo + j) → ¬ (decide (lo ≤ m) && decide (m ≤ lo + 5)) = true := fun lo h hc => by
    rw [Bool.and_eq_true, decide_eq_true_eq, decide_eq_true_eq] at hc
    exact h (m - lo) (by omega) (by omega)
  have h28 := hrange 0x028 fun j hj => (hranges j hj).1
  have h30 := hrange 0x030 fun j hj => (hranges j hj).2.1
  have h40 := hrange 0x040 fun j hj => (hranges j hj).2.2.1
  have h840 := hrange 0x840 fun j hj => (hranges j hj).2.2.2
  have hlpart := lpart_alike ho hp
  have hpart : u.hart.part = s.hart.part := by rw [ho]
  have hcur : u.cur = s.cur := by rw [ho]
  have hclk : u.steadClk (steadOf s.cur) = s.steadClk (steadOf s.cur) := by rw [ho]; rfl
  have htenant : u.tenantOf s.hart.part = s.tenantOf s.hart.part := congrArg (·.tenant) (hp s.hart.part).2.1
  have hpolicy := (hp s.hart.part).2.2
  have hcaps : u.caps = s.caps := by rw [ho]
  have htime : u.time = s.time := by rw [ho]
  have hstrip : u.hart.stripId = s.hart.stripId ∧ u.hart.farm = s.hart.farm ∧ u.hart.grant = s.hart.grant := by
    rw [ho]
    exact ⟨rfl, rfl, rfl⟩
  have hrest : u.hart.rowBase = s.hart.rowBase ∧ u.hart.rowCount = s.hart.rowCount ∧ u.hart.engev = s.hart.engev ∧
      u.hart.retcount = s.hart.retcount ∧ u.hart.lanecyc = s.hart.lanecyc := by
    rw [ho]
    exact ⟨rfl, rfl, rfl, rfl, rfl⟩
  simp only [State.csrRead, if_neg h10, if_neg h11, if_neg h12, if_neg h19, if_neg h20, if_neg h21, if_neg h22,
    if_neg h23, if_neg h24, if_neg h60, if_neg h801, if_neg h28, if_neg h30, if_neg h40, if_neg h840, hlpart, hpart,
    hcur, hclk, htenant, hpolicy, hcaps, htime, hstrip, hrest]

/-- A register reads as before when nothing of its own was written. -/
theorem csrRead_alike {m n : Nat} (ho : Claims.OnlyCsrs s u) (hp : PartsReadAlike s u) (hf : FieldsAlike n s u)
    (hm : m ≠ n) : u.csrRead m = s.csrRead m := by
  have hpart : u.hart.part = s.hart.part := by rw [ho]
  by_cases hfixed : csrFixed m
  · exact csrRead_fixed ho hp hfixed
  rw [csrFixed, not_and_or, not_not] at hfixed
  obtain h | h := hfixed
  · simp only [List.mem_cons, List.not_mem_nil, or_false] at h
    obtain rfl | rfl | rfl | rfl | rfl | rfl | rfl | rfl | rfl | rfl | rfl := h
    · exact congrArg (fun x => BitVec.ofNat 64 (x % 1 <<< 18)) (hf.vstart hm.symm)
    · exact congrArg (fun x => BitVec.ofNat 64 (x % 1 <<< 18)) (hf.vla hm.symm)
    · exact congrArg (wordAddr) (hf.vfret hm.symm)
    · exact congrArg (BitVec.zeroExtend 64) (hf.ropepart hm.symm)
    · exact congrArg (BitVec.zeroExtend 64) (hf.fmtdef hm.symm)
    · exact congrArg (BitVec.zeroExtend 64) (hf.frm hm.symm)
    · exact congrArg (BitVec.zeroExtend 64) (hf.fflags hm.symm)
    · exact congrArg (BitVec.zeroExtend 64) (hf.nwin hm.symm)
    · show BitVec.ofNat 64 (u.hart.ntEn.toNat + u.hart.ntHost.toNat <<< 8) = _
      rw [hf.ntEn hm.symm, hf.ntHost hm.symm]
      rfl
    · exact congrArg (BitVec.zeroExtend 64) (hf.dbg hm.symm)
    · show (u.partAt u.hart.part).tdeleg.zeroExtend 64 = _
      rw [hpart, hf.tdeleg hm.symm]
      rfl
  · push Not at h
    obtain ⟨j, hj, h⟩ := h
    by_cases h28 : m = 0x028 + j
    · rw [h28, csrRead_nthr hj, csrRead_nthr hj, hf.nthr j hj (h28 ▸ hm.symm)]
    by_cases h30 : m = 0x030 + j
    · rw [h30, csrRead_ncnt hj, csrRead_ncnt hj, hf.ncnt j hj (h30 ▸ hm.symm)]
    by_cases h40 : m = 0x040 + j
    · rw [h40, csrRead_bank0 hj, csrRead_bank0 hj, hf.bank0 j hj (h40 ▸ hm.symm)]
    have h840 := h h28 h30 h40
    rw [h840, csrRead_bank1 hj, csrRead_bank1 hj, hpart, hf.bank1 j hj (h840 ▸ hm.symm)]

/- The writes. -/

/-- What register n of the bits v keeps, at level l, where it read as `old` (R47, R183). -/
def csrKept (l n : Nat) (old v : Word) : Word :=
  match Claims.writable n with
  | some mask => v &&& mask
  | none => (old &&& 0xFFFFFFFFFFFFFF3C) ||| (v &&& 0xC0) ||| (if (v &&& 3).toNat ≤ l then v &&& 3 else old &&& 3)

/-- u differs from s as a write of v to register n makes it. -/
structure WritesCsr (s : State) (n : Nat) (v : Word) (u : State) : Prop where
  only : Claims.OnlyCsrs s u
  parts : PartsReadAlike s u
  fields : FieldsAlike n s u
  kept : u.csrRead n = csrKept s.hart.level n (s.csrRead n) v

variable {v : Word} {h : Hart} {n : Nat}

/-- A write that changes the hart alone. -/
theorem writesCsr_hart (hf : FieldsAlike n s (s.withHart h)) (ho : Claims.OnlyCsrs s (s.withHart h))
    (hk : (s.withHart h).csrRead n = csrKept s.hart.level n (s.csrRead n) v) : WritesCsr s n v (s.withHart h) :=
  ⟨ho, fun _ => ⟨rfl, rfl, rfl⟩, hf, hk⟩

/-- The low bits that a register keeps. -/
theorem zeroExtend_truncate (v : Word) (k : Nat) (hk : k ≤ 64) :
    (v.truncate k).zeroExtend 64 = v &&& BitVec.ofNat 64 (2 ^ k - 1) := by
  apply BitVec.eq_of_toNat_eq
  have hpow : 2 ^ k ≤ 2 ^ 64 := Nat.pow_le_pow_right (by decide) hk
  have hpos := Nat.two_pow_pos k
  rw [BitVec.toNat_and, BitVec.toNat_ofNat, Nat.mod_eq_of_lt (by omega : 2 ^ k - 1 < 2 ^ 64),
    Nat.and_two_pow_sub_one_eq_mod]
  simp only [BitVec.truncate_eq_setWidth, BitVec.toNat_setWidth]
  exact Nat.mod_eq_of_lt (Nat.lt_of_lt_of_le (Nat.mod_lt _ hpos) hpow)

theorem ofNat_mod_mod (v : Word) (k : Nat) (hk : k ≤ 64) :
    BitVec.ofNat 64 (v.toNat % 1 <<< k % 1 <<< k) = v &&& BitVec.ofNat 64 (2 ^ k - 1) := by
  rw [← zeroExtend_truncate v k hk, Nat.one_shiftLeft, Nat.mod_mod]
  apply BitVec.eq_of_toNat_eq
  simp

theorem wordAddr_wordAddr (v : Word) : wordAddr (wordAddr v) = wordAddr v := by
  rw [wordAddr, wordAddr, BitVec.and_assoc, BitVec.and_self]

theorem writesCsr_vstart : WritesCsr s 0x010 v (s.csrWrite 0x010 v) :=
  writesCsr_hart { vstart := absurd rfl } rfl (ofNat_mod_mod v 18 (by decide))

theorem writesCsr_vla : WritesCsr s 0x011 v (s.csrWrite 0x011 v) :=
  writesCsr_hart { vla := absurd rfl } rfl (ofNat_mod_mod v 18 (by decide))

theorem writesCsr_vfret : WritesCsr s 0x012 v (s.csrWrite 0x012 v) :=
  writesCsr_hart { vfret := absurd rfl } rfl (wordAddr_wordAddr v)

theorem writesCsr_ropepart : WritesCsr s 0x019 v (s.csrWrite 0x019 v) :=
  writesCsr_hart { ropepart := absurd rfl } rfl (zeroExtend_truncate v 24 (by decide))

theorem writesCsr_fmtdef : WritesCsr s 0x020 v (s.csrWrite 0x020 v) :=
  writesCsr_hart { fmtdef := absurd rfl } rfl (zeroExtend_truncate v 32 (by decide))

theorem writesCsr_frm : WritesCsr s 0x021 v (s.csrWrite 0x021 v) :=
  writesCsr_hart { frm := absurd rfl } rfl (zeroExtend_truncate v 3 (by decide))

theorem writesCsr_fflags : WritesCsr s 0x022 v (s.csrWrite 0x022 v) :=
  writesCsr_hart { fflags := absurd rfl } rfl (zeroExtend_truncate v 6 (by decide))

theorem writesCsr_nwin : WritesCsr s 0x023 v (s.csrWrite 0x023 v) :=
  writesCsr_hart { nwin := absurd rfl } rfl (zeroExtend_truncate v 32 (by decide))

/-- Two enables of six bits, one byte apart (R69). -/
theorem enables_eq (v : Word) :
    BitVec.ofNat 64 ((v.truncate 6).toNat + (v.extractLsb' 8 6).toNat <<< 8) = v &&& 0x3F3F := by
  have hlow : (v.truncate 6).toNat < 2 ^ 8 := Nat.lt_trans (v.truncate 6).isLt (by decide)
  have hmask : ∀ i < 64, (0x3F3F : Word).getLsbD i = (decide (i < 6) || (decide (8 ≤ i) && decide (i < 14))) := by decide
  rw [Nat.add_comm, Nat.shiftLeft_add_eq_or_of_lt hlow]
  apply BitVec.eq_of_getLsbD_eq
  intro i hi
  rw [BitVec.getLsbD_and, hmask i hi, BitVec.getLsbD_ofNat, Nat.testBit_or, Nat.testBit_shiftLeft,
    BitVec.testBit_toNat, BitVec.testBit_toNat, BitVec.truncate_eq_setWidth, BitVec.getLsbD_setWidth,
    BitVec.getLsbD_extractLsb']
  by_cases h8 : 8 ≤ i
  · have hlow : ¬ i < 6 := by omega
    have hhigh : i - 8 < 6 ↔ i < 14 := by omega
    simp [hi, h8, Nat.add_sub_cancel' h8, hlow, hhigh, Bool.and_comm]
  · simp [hi, h8, Bool.and_comm]

theorem writesCsr_enables : WritesCsr s 0x024 v (s.csrWrite 0x024 v) :=
  writesCsr_hart { ntEn := absurd rfl, ntHost := absurd rfl } rfl (enables_eq v)

theorem getD_set6 (w : Vector (BitVec 32) 6) {i j : Nat} (hi : i < 6) (x : BitVec 32) :
    (set6 w i x).toList.getD j 0 = if i = j then x else w.toList.getD j 0 := by
  rw [List.getD_eq_getElem?_getD, List.getD_eq_getElem?_getD, set6]
  by_cases h : i = j
  · simp [h ▸ hi, h]
  · simp [h]

theorem writesCsr_nthr {i : Nat} (hi : i < 6) : WritesCsr s (0x028 + i) v (s.csrWrite (0x028 + i) v) := by
  have hw : s.csrWrite (0x028 + i) v = s.withHart { s.hart with nthr := set6 s.hart.nthr i (v.truncate 32) } := by
    interval_cases i <;> rfl
  rw [hw]
  refine writesCsr_hart { nthr := fun j hj hne => ?_ } rfl ?_
  · exact (getD_set6 _ hi _).trans (if_neg (by omega))
  · have hk : csrKept s.hart.level (0x028 + i) (s.csrRead (0x028 + i)) v = v &&& 0xFFFFFFFF := by
      interval_cases i <;> rfl
    rw [hk, csrRead_nthr hi]
    exact (congrArg (BitVec.zeroExtend 64) ((getD_set6 _ hi _).trans (if_pos rfl))).trans
      (zeroExtend_truncate v 32 (by decide))

theorem writesCsr_ncnt {i : Nat} (hi : i < 6) : WritesCsr s (0x030 + i) v (s.csrWrite (0x030 + i) v) := by
  have hw : s.csrWrite (0x030 + i) v = s.withHart { s.hart with ncnt := set6 s.hart.ncnt i (v.truncate 32) } := by
    interval_cases i <;> rfl
  rw [hw]
  refine writesCsr_hart { ncnt := fun j hj hne => ?_ } rfl ?_
  · exact (getD_set6 _ hi _).trans (if_neg (by omega))
  · have hk : csrKept s.hart.level (0x030 + i) (s.csrRead (0x030 + i)) v = v &&& 0xFFFFFFFF := by
      interval_cases i <;> rfl
    rw [hk, csrRead_ncnt hi]
    exact (congrArg (BitVec.zeroExtend 64) ((getD_set6 _ hi _).trans (if_pos rfl))).trans
      (zeroExtend_truncate v 32 (by decide))

theorem estatusWrite_eq (old v : Word) (l : Nat) : estatusWrite old v l =
    (old &&& 0xFFFFFFFFFFFFFF3C) ||| (v &&& 0xC0) ||| (if (v &&& 3).toNat ≤ l then v &&& 3 else old &&& 3) := by
  rw [estatusWrite]
  by_cases h : (v &&& 3).toNat ≤ l
  · rw [if_pos h, if_neg (Nat.not_lt_of_le h)]
    rfl
  · rw [if_neg h, if_pos (Nat.lt_of_not_le h)]
    rfl

/-- A trap register other than the one written. -/
theorem get_set_other (b : TrapBank) (l : Nat) (v : Word) {i j : Nat} (hi : i < 6) (hj : j < 6) {x y : Word}
    (h : i ≠ j) (h0 : j = 0 → x = y) :
    (b.set l i v).get x j = b.get y j := by
  interval_cases j
  · exact h0 rfl
  all_goals
    interval_cases i <;> simp_all [TrapBank.set, TrapBank.get]

theorem tvec_set (b : TrapBank) (l : Nat) (v : Word) {i : Nat} (h : i ≠ 0) : (b.set l i v).tvec = b.tvec := by
  unfold TrapBank.set
  split
  · exact absurd rfl h
  all_goals rfl

theorem writesCsr_bank0 {i : Nat} (hi : i < 6) : WritesCsr s (0x040 + i) v (s.csrWrite (0x040 + i) v) := by
  have hw : s.csrWrite (0x040 + i) v = s.withHart { s.hart with bank0 := s.hart.bank0.set s.hart.level i v } := by
    interval_cases i <;> rfl
  rw [hw]
  have hother : ∀ j < 6, 0x040 + i ≠ 0x040 + j → (s.hart.bank0.set s.hart.level i v).get
      (s.hart.bank0.set s.hart.level i v).tvec j = s.hart.bank0.get s.hart.bank0.tvec j := fun j hj hne =>
    get_set_other _ _ _ hi hj (by omega) (fun h => tvec_set _ _ _ (by omega))
  refine writesCsr_hart { bank0 := hother } rfl ?_
  rw [csrRead_bank0 hi, csrRead_bank0 hi]
  interval_cases i
  · rfl
  · rfl
  · rfl
  · exact (BitVec.and_allOnes (x := v)).symm
  · exact estatusWrite_eq ..
  · exact (BitVec.and_allOnes (x := v)).symm

theorem writesCsr_dbg : WritesCsr s 0x060 v (s.csrWrite 0x060 v) :=
  writesCsr_hart { dbg := absurd rfl } rfl (zeroExtend_truncate v 2 (by decide))

/-- A write that changes a record of the hart's partition alone. -/
theorem writesCsr_part {w : Part} (hslots : w.slots = (s.partAt s.hart.part).slots)
    (hrecord : w.record = (s.partAt s.hart.part).record) (hpolicy : w.policy = (s.partAt s.hart.part).policy)
    (hf : FieldsAlike n s (s.setPartAt s.hart.part w))
    (hk : (s.setPartAt s.hart.part w).csrRead n = csrKept s.hart.level n (s.csrRead n) v) :
    WritesCsr s n v (s.setPartAt s.hart.part w) := by
  refine ⟨rfl, fun p => ?_, hf, hk⟩
  by_cases hp : p = s.hart.part
  · rw [hp, State.partAt_setPartAt_same]
    exact ⟨hslots, hrecord, hpolicy⟩
  · rw [State.partAt_setPartAt_other hp]
    exact ⟨rfl, rfl, rfl⟩

theorem zeroExtend_tdeleg (v : Word) : (v.truncate 24 &&& tdelegMask).zeroExtend 64 = v &&& 0xBE7FEE := by
  have h : tdelegMask.zeroExtend 64 = 0xBE7FEE#64 := rfl
  rw [BitVec.zeroExtend, BitVec.setWidth_and]
  have := zeroExtend_truncate v 24 (by decide)
  rw [BitVec.zeroExtend] at this h
  rw [this, h, BitVec.and_assoc]
  rfl

theorem writesCsr_tdeleg : WritesCsr s 0x801 v (s.csrWrite 0x801 v) := by
  refine writesCsr_part rfl rfl rfl { tdeleg := absurd rfl, bank1 := fun j _ _ => ?_ } ?_
  · rw [State.partAt_setPartAt_same]
    rfl
  · show ((s.setPartAt s.hart.part _).partAt s.hart.part).tdeleg.zeroExtend 64 = v &&& 0xBE7FEE
    rw [State.partAt_setPartAt_same]
    exact zeroExtend_tdeleg v

theorem writesCsr_stvec : WritesCsr s 0x840 v (s.csrWrite 0x840 v) := by
  refine writesCsr_part rfl rfl rfl { tdeleg := fun _ => ?_, bank1 := fun j hj hne => ?_ } ?_
  · rw [State.partAt_setPartAt_same]
  · rw [State.partAt_setPartAt_same]
    interval_cases j
    · exact absurd rfl hne
    all_goals rfl
  · show ((s.setPartAt s.hart.part _).partAt s.hart.part).stvec = wordAddr v
    rw [State.partAt_setPartAt_same]

theorem writesCsr_bank1 {i : Nat} (h0 : 0 < i) (hi : i < 6) :
    WritesCsr s (0x840 + i) v (s.csrWrite (0x840 + i) v) := by
  have hw : s.csrWrite (0x840 + i) v = s.withHart { s.hart with bank1 := s.hart.bank1.set s.hart.level i v } := by
    interval_cases i <;> rfl
  rw [hw]
  refine writesCsr_hart { bank1 := fun j hj hne => get_set_other _ _ _ hi hj (by omega) (fun _ => rfl) } rfl ?_
  rw [csrRead_bank1 hi, csrRead_bank1 hi]
  interval_cases i
  · rfl
  · rfl
  · exact (BitVec.and_allOnes (x := v)).symm
  · exact estatusWrite_eq ..
  · exact (BitVec.and_allOnes (x := v)).symm

/-- The registers of single numbers that software writes (R46). -/
def csrSingles : List Nat := [0x010, 0x011, 0x012, 0x019, 0x020, 0x021, 0x022, 0x023, 0x024, 0x060, 0x801, 0x840]

theorem not_readOnly {c : Prop} [Decidable c] {r : Option Bool} (h : (if c then some true else r) = some false) :
    r = some false := by
  split at h
  · cases h
  · exact h

theorem written_or {c : Prop} [Decidable c] {r : Option Bool} (h : (if c then some false else r) = some false) :
    c ∨ r = some false := by
  by_cases hc : c
  · exact .inl hc
  · exact .inr ((if_neg hc).symm.trans h)

theorem csrListed_writable (h : csrListed n = some false) :
    n ∈ csrSingles ∨ ∃ i < 6, n = 0x028 + i ∨ n = 0x030 + i ∨ n = 0x040 + i ∨ (0 < i ∧ n = 0x840 + i) := by
  have hbounds : ∀ {lo hi}, (decide (lo ≤ n) && decide (n ≤ hi)) = true → lo ≤ n ∧ n ≤ hi := by simp
  have hoffset : ∀ {lo}, lo ≤ n ∧ n ≤ lo + 5 → n - lo < 6 ∧ n = lo + (n - lo) := by omega
  rw [csrListed] at h
  obtain hr | h := written_or (not_readOnly h)
  · obtain ⟨h1, h2⟩ := hbounds hr
    exact .inl (by interval_cases n <;> simp [csrSingles])
  obtain hn | h := written_or (not_readOnly h)
  · exact .inl (by simp [csrSingles, hn])
  obtain hr | h := written_or h
  · obtain ⟨h1, h2⟩ := hbounds hr
    exact .inl (by interval_cases n <;> simp [csrSingles])
  obtain hr | h := written_or h
  · obtain ⟨hlt, heq⟩ := hoffset (hbounds hr)
    exact .inr ⟨_, hlt, .inl heq⟩
  obtain hr | h := written_or h
  · obtain ⟨hlt, heq⟩ := hoffset (hbounds hr)
    exact .inr ⟨_, hlt, .inr (.inl heq)⟩
  obtain hr | h := written_or h
  · obtain ⟨hlt, heq⟩ := hoffset (hbounds hr)
    exact .inr ⟨_, hlt, .inr (.inr (.inl heq))⟩
  obtain hn | h := written_or (not_readOnly h)
  · exact .inl (by simp [csrSingles, hn])
  obtain hn | h := written_or (not_readOnly (not_readOnly (not_readOnly h)))
  · exact .inl (by simp [csrSingles, hn])
  obtain hr | h := written_or h
  · obtain ⟨hlt, heq⟩ := hoffset (hbounds hr)
    obtain h0 | hpos := Nat.eq_zero_or_pos (n - 0x840)
    · exact .inl (by simp [csrSingles, show n = 0x840 by omega])
    · exact .inr ⟨_, hlt, .inr (.inr (.inr ⟨hpos, heq⟩))⟩
  · cases h

/-- A write to a register that is listed and not read-only. -/
theorem csrWrite_writes (h : csrListed n = some false) : WritesCsr s n v (s.csrWrite n v) := by
  obtain h | ⟨i, hi, rfl | rfl | rfl | ⟨h0, rfl⟩⟩ := csrListed_writable h
  · simp only [csrSingles, List.mem_cons, List.not_mem_nil, or_false] at h
    obtain rfl | rfl | rfl | rfl | rfl | rfl | rfl | rfl | rfl | rfl | rfl | rfl := h
    · exact writesCsr_vstart
    · exact writesCsr_vla
    · exact writesCsr_vfret
    · exact writesCsr_ropepart
    · exact writesCsr_fmtdef
    · exact writesCsr_frm
    · exact writesCsr_fflags
    · exact writesCsr_nwin
    · exact writesCsr_enables
    · exact writesCsr_dbg
    · exact writesCsr_tdeleg
    · exact writesCsr_stvec
  · exact writesCsr_nthr hi
  · exact writesCsr_ncnt hi
  · exact writesCsr_bank0 hi
  · exact writesCsr_bank1 h0 hi

theorem estatus_of_unmasked (h : csrListed n = some false) (hw : Claims.writable n = none) :
    n = 0x044 ∨ n = 0x844 := by
  obtain h | ⟨i, hi, h⟩ := csrListed_writable h
  · have hmasked : ∀ m ∈ csrSingles, Claims.writable m ≠ none := by decide
    exact absurd hw (hmasked n h)
  · have hmasked : ∀ i < 6, Claims.writable (0x028 + i) ≠ none ∧ Claims.writable (0x030 + i) ≠ none ∧
        (Claims.writable (0x040 + i) = none → 0x040 + i = 0x044) ∧
        (Claims.writable (0x840 + i) = none → 0x840 + i = 0x844) := by decide
    obtain ⟨hnthr, hncnt, hbank0, hbank1⟩ := hmasked i hi
    obtain rfl | rfl | rfl | ⟨-, rfl⟩ := h
    · exact absurd hw hnthr
    · exact absurd hw hncnt
    · exact .inl (hbank0 hw)
    · exact .inr (hbank1 hw)

theorem csrWritesKeepWritableBits : Claims.CsrWritesKeepWritableBits := by
  intro s i n a f hform hn hf hr
  have hwrites := csrWrite_writes (s := s) (v := f (s.csrRead n.toNat)) hn
  have hpc : (s.csrWrite n.toNat (f (s.csrRead n.toNat))).hart.pc = s.hart.pc := by rw [hwrites.only]
  refine ⟨s.csrWrite n.toNat (f (s.csrRead n.toNat)), ?_, hwrites.only, fun m hm _ => ?_, fun mask hmask => ?_,
    fun hnone => ?_⟩
  · rw [exec_csrForm hform, csrAccess_runs hf hn rfl hr, retireCsr, hpc]
  · exact csrRead_alike hwrites.only hwrites.parts hwrites.fields hm
  · rw [hwrites.kept, csrKept, hmask]
  · refine ⟨estatus_of_unmasked hn hnone, ?_⟩
    rw [hwrites.kept, csrKept, hnone]

/-- Settles O37. -/
theorem csrAccessesReadAndWrite : Obligations.CsrAccessesReadAndWrite :=
  ⟨csrAccessesAreChecked, csrWritesKeepWritableBits⟩

end Sys2Proof.Machine
end

