-- ==== Sys2Proof/Proofs/TrapReturns.lean ====
section
/-!
Trap returns and firmware services (R185, R216, R333): the block a `TRET` resumes, and the 64 bytes of a log entry as a
store of the hart leaves them, in its buffer or in memory.
-/

namespace Sys2Proof.Machine

set_option Elab.async false

variable {s : State}

/- TRET. -/

/-- Of blocks that are all held, the first that the handler at level l holds resumes first (R43). -/
theorem head_resumeHeld {l : Nat} {target : Word} {k : Block} {q : List Block} (hheld : ∀ b ∈ q, b.held ≠ 0)
    (h : q.find? (fun x => x.held == 1 + l) = some k) :
    ((resumeHeld l target q).filter (fun b => b.held = 0)).head? =
      some { k with held := 0, pos := target, convoy := 0 } := by
  induction q with
  | nil => cases h
  | cons b q ih =>
    rw [List.find?_cons] at h
    rw [resumeHeld]
    by_cases hb : b.held = 1 + l
    · rw [if_pos hb]
      rw [beq_iff_eq.mpr hb] at h
      obtain rfl := Option.some.inj h
      rfl
    · rw [if_neg hb, List.filter_cons_of_neg (by simpa using hheld b List.mem_cons_self)]
      rw [beq_eq_false_iff_ne.mpr hb] at h
      exact ih (fun c hc => hheld c (List.mem_cons_of_mem b hc)) h

theorem held_of_blocksDone (h : s.hart.blocksDone = true) : ∀ b ∈ s.hart.queue, b.held ≠ 0 := by
  have hall := (Bool.and_eq_true_iff.mp h).1
  simpa using hall

theorem exec_tret : exec .tret s =
    if Claims.handling (if s.hart.level = 0 then s.hart.bank0 else s.hart.bank1) then
      (if !s.hart.blocksDone then stallCtl s else .next s.returnFrom)
    else synchronise s (illegalWord s 0xF8000005) := rfl

theorem trapReturnRestores : Claims.TrapReturnRestores := by
  intro s hl b b'
  refine ⟨fun hh hd => ?_, fun hh hb => ?_, fun hh hb => ?_⟩
  · rw [exec_tret, hh, synchronise_runs hd]
    rfl
  · rw [exec_tret, hh, hb]
    rfl
  · have hbank0 : s.returnFrom.hart.bank0 = if s.hart.level = 0 then b' else s.hart.bank0 := rfl
    have hbank1 : s.returnFrom.hart.bank1 = if s.hart.level = 0 then s.hart.bank1 else b' := rfl
    have hpc : s.returnFrom.hart.pc = if b.estatus.getLsbD 4 then s.hart.vfret else b.epc := rfl
    have hqueue : s.returnFrom.hart.queue =
      if b.estatus.getLsbD 4 then resumeHeld s.hart.level b.epc s.hart.queue else s.hart.queue := rfl
    refine ⟨s.returnFrom, ?_, rfl, rfl, fun h0 => ?_, fun h1 => ?_, rfl, fun hin => ?_, fun hin => ?_⟩
    · rw [exec_tret, hh, hb]
      rfl
    · rw [hbank0, hbank1, if_pos h0, if_pos h0]
      exact ⟨rfl, rfl⟩
    · rw [hbank0, hbank1, if_neg (by omega), if_neg (by omega)]
      exact ⟨rfl, rfl⟩
    · rw [hpc, hqueue, hin]
      exact ⟨rfl, rfl⟩
    · rw [hpc, hin]
      refine ⟨rfl, fun k hk => ?_⟩
      rw [Hart.block, Hart.unheld, hqueue, hin]
      exact head_resumeHeld (held_of_blocksDone hb) hk

/- Firmware services. -/

theorem exec_calls {i : Instr} {code : Nat} (h : Claims.calls i code) : exec i s = trapCode code s := by
  obtain ⟨c, rfl, rfl⟩ | ⟨rfl, rfl⟩ | ⟨rfl, rfl⟩ | ⟨rfl, rfl⟩ := h
  · rfl
  · rfl
  · rfl
  · rfl

theorem level_ne_zero (h : s.hart.level = 1) : ¬ s.hart.level = 0 := by rw [h]; exact Nat.one_ne_zero

theorem trapCode_counter (h : s.hart.level = 1) : trapCode 0 s = serviceCounter s := if_neg (level_ne_zero h)
theorem trapCode_log (h : s.hart.level = 1) : trapCode 1 s = serviceLog s := if_neg (level_ne_zero h)
theorem trapCode_notice (h : s.hart.level = 1) : trapCode 2 s = serviceNotice s := if_neg (level_ne_zero h)
theorem trapCode_other (h : s.hart.level = 1) (n : Nat) :
    trapCode (n + 3) s = retireWith s 1 0x8000000000000000 := if_neg (level_ne_zero h)

theorem Readable.mono {rs qs : List Reg} (h : Claims.Readable rs s) (hq : ∀ r ∈ qs, r ∈ rs) : Claims.Readable qs s :=
  ⟨fun r hr => h.1 r (hq r hr), h.2.imp_left fun hf r hr => hf r (hq r hr)⟩

/-- Memory m with the bytes bs at the places pas. -/
def overlay (pas : List Nat) (bs : List Byte) (m : Nat → Byte) (pa : Nat) : Byte :=
  ((pas.idxOf? pa).bind (fun j => bs[j]?)).getD (m pa)

theorem find?_zip_eq (pas : List Nat) (bs : List Byte) (pa : Nat) :
    ((pas.zip bs).find? (fun e => e.1 == pa)).map (·.2) = (pas.idxOf? pa).bind (fun j => bs[j]?) := by
  induction pas generalizing bs with
  | nil => rfl
  | cons a pas ih =>
    cases bs with
    | nil => cases ((a :: pas).idxOf? pa) <;> rfl
    | cons b bs =>
      rw [List.zip_cons_cons, List.find?_cons, List.idxOf?_cons]
      by_cases h : a = pa
      · simp [h]
      · rw [beq_false_of_ne h]
        refine (ih bs).trans ?_
        cases pas.idxOf? pa <;> simp

theorem overlay_cons_same (a : Nat) (pas : List Nat) (b : Byte) (bs : List Byte) (m : Nat → Byte) :
    overlay (a :: pas) (b :: bs) m a = b := by
  simp [overlay, List.idxOf?_cons]

theorem overlay_cons_other {a pa : Nat} (h : a ≠ pa) (pas : List Nat) (b : Byte) (bs : List Byte) (m : Nat → Byte) :
    overlay (a :: pas) (b :: bs) m pa = overlay pas bs m pa := by
  rw [overlay, overlay, List.idxOf?_cons, if_neg (by simpa using h)]
  cases pas.idxOf? pa <;> simp

theorem overlay_of_notMem {pas : List Nat} {pa : Nat} (h : pa ∉ pas) (bs : List Byte) (m : Nat → Byte) :
    overlay pas bs m pa = m pa := by
  simp [overlay, List.idxOf?_eq_none_iff.mpr h]

theorem byteAt_writeAll {pas : List Nat} {bs : List Byte} (hd : pas.Nodup) (hw : Memory.wf s.mem = true) (pa : Nat) :
    (s.writeAll pas bs).byteAt pa = overlay pas bs s.byteAt pa := by
  induction pas generalizing s bs with
  | nil => rfl
  | cons a pas ih =>
    cases bs with
    | nil => cases h : (a :: pas).idxOf? pa <;> simp [State.writeAll, overlay]
    | cons b bs =>
      obtain ⟨ha, hd⟩ := List.nodup_cons.mp hd
      rw [State.writeAll, ih hd (s.setByte_wf a b hw)]
      by_cases h : a = pa
      · subst h
        rw [overlay_of_notMem ha, overlay_cons_same, State.byteAt_setByte_same _ _ _ hw]
      · rw [overlay_cons_other h, overlay, overlay, State.byteAt_setByte_other _ _ _ _ hw (Ne.symm h)]

/-- A store as it is put in the buffer. -/
def State.pended (s : State) (pas : List Nat) (bs : List Byte) : Pending :=
  { pa := pas, bytes := bs, release := false, serial := s.hart.nextSerial, bound := s.nextId }

/-- The schedule after it has said whether a store waits. -/
def State.undelayed (s : State) : State := { s with delay := s.delay.tail }

/-- The state in which a store waits in the buffer. -/
def State.queued (s : State) (pas : List Nat) (bs : List Byte) : State :=
  { s with delay := s.delay.tail, hart := { s.hart with sbuf := s.hart.sbuf ++ [s.pended pas bs] } }

theorem getElem?_queued (pas : List Nat) (bs : List Byte) :
    (s.queued pas bs).hart.sbuf[s.hart.sbuf.length]? = some (s.pended pas bs) := List.getElem?_concat_length

theorem buffer_eq (pas : List Nat) (bs : List Byte) : s.buffer pas bs false =
    if !s.delay.headD false && (s.queued pas bs).mayDrain s.hart.sbuf.length then
      s.undelayed.store pas bs
    else s.queued pas bs := by
  have hdrain : (s.queued pas bs).drain s.hart.sbuf.length = s.undelayed.store pas bs := by
    rw [State.drain, getElem?_queued]
    have herase : (s.queued pas bs).hart.sbuf.eraseIdx s.hart.sbuf.length = s.hart.sbuf := by
      simp [State.queued, List.eraseIdx_append_of_length_le]
    dsimp only [State.pended]
    rw [herase]
    rfl
  have hlength : (s.queued pas bs).hart.sbuf.length - 1 = s.hart.sbuf.length := by simp [State.queued]
  rw [← hdrain, ← hlength]
  rfl

/- What the buffer and memory hold after a store of the control stream. -/

/-- What memory, its scrub and poison marks and the words to be read again hold may differ, and nothing else. -/
def WritesMemory (s t : State) : Prop := t = { s with
  mem := t.mem, scrub := t.scrub, poisoned := t.poisoned, healed := t.healed, rereads := t.rereads }

theorem WritesMemory.trans {t u : State} (h : WritesMemory s t) (h' : WritesMemory t u) : WritesMemory s u := by
  rw [WritesMemory] at h h' ⊢
  rw [h', h]

theorem setByte_writes (s : State) (pa : Nat) (b : Byte) : WritesMemory s (s.setByte pa b) := by
  have hscrubbed : WritesMemory s (s.scrubbed (pa / 65536)) := by
    rw [State.scrubbed]
    split
    · rfl
    · rfl
  exact hscrubbed.trans rfl

theorem writeAll_writes (s : State) (pas : List Nat) (bs : List Byte) : WritesMemory s (s.writeAll pas bs) := by
  induction pas generalizing s bs with
  | nil => exact rfl
  | cons pa pas ih =>
    cases bs with
    | nil => exact rfl
    | cons b bs => exact (setByte_writes s pa b).trans (ih _ _)

theorem store_writes (s : State) (pas : List Nat) (bs : List Byte) : WritesMemory s (s.store pas bs) :=
  ite_holds (P := WritesMemory s) (writeAll_writes s pas bs) ((writeAll_writes s pas bs).trans rfl)

theorem take_queued (pas : List Nat) (bs : List Byte) :
    (s.queued pas bs).hart.sbuf.take s.hart.sbuf.length = s.hart.sbuf := List.take_left' rfl

theorem mayDrain_queued (pas : List Nat) (bs : List Byte) : (s.queued pas bs).mayDrain s.hart.sbuf.length =
    (s.hart.sbuf.all (fun q => pas.all (fun a => !q.pa.contains a) && q.kind != .fence) &&
      (s.queued pas bs).checksPassed s.hart.nextSerial) := by
  rw [State.mayDrain, getElem?_queued, take_queued]
  exact Bool.and_true _

/-- A store in the buffer alone may perform when it is alone (R119). -/
theorem mayDrain_alone {pas : List Nat} {bs : List Byte} (h : Claims.Alone s pas) :
    (s.queued pas bs).mayDrain s.hart.sbuf.length = true := by
  obtain ⟨hunheld, hvq, hbuf⟩ := h
  have hchecks : (s.queued pas bs).checksPassed s.hart.nextSerial = true := by
    have hunheld' : (s.queued pas bs).hart.unheld = [] := hunheld
    have hvq' : (s.queued pas bs).hart.vq = [] := hvq
    rw [State.checksPassed, State.olderBlocksFree, State.olderBlocksFree, hunheld', hvq']
    rfl
  rw [mayDrain_queued, hchecks, Bool.and_true, List.all_eq_true]
  intro q hq
  obtain ⟨hkind, hbytes⟩ := hbuf q hq
  simpa [hkind] using hbytes

/-- A store that may perform meets no byte of an older one (R119). -/
theorem mayDrain_disjoint {pas : List Nat} {bs : List Byte}
    (h : (s.queued pas bs).mayDrain s.hart.sbuf.length = true) :
    ∀ q ∈ s.hart.sbuf, ∀ a ∈ pas, a ∉ q.pa := by
  rw [mayDrain_queued, Bool.and_eq_true, List.all_eq_true] at h
  intro q hq
  have hfree := (Bool.and_eq_true_iff.mp (h.1 q hq)).1
  simpa using hfree

theorem loaded_queued (pas : List Nat) (bs : List Byte) (pa : Nat) :
    Claims.loaded (s.queued pas bs) pa = overlay pas bs (Claims.loaded s) pa := by
  have hrev : (s.queued pas bs).hart.sbuf.reverse = s.pended pas bs :: s.hart.sbuf.reverse := List.reverse_concat ..
  rw [Claims.loaded, hrev, List.findSome?_cons, overlay, ← find?_zip_eq]
  dsimp only [State.pended]
  cases (pas.zip bs).find? (fun e => e.1 == pa) with
  | none => rfl
  | some e => rfl

theorem loaded_of_memory {u : State} {pas : List Nat} {bs : List Byte} (hbuf : u.hart.sbuf = s.hart.sbuf)
    (hd : ∀ q ∈ s.hart.sbuf, ∀ a ∈ pas, a ∉ q.pa) (hm : ∀ pa, u.byteAt pa = overlay pas bs s.byteAt pa) (pa : Nat) :
    Claims.loaded u pa = overlay pas bs (Claims.loaded s) pa := by
  rw [Claims.loaded, hbuf, hm]
  by_cases h : pa ∈ pas
  · have hnone : s.hart.sbuf.reverse.findSome?
        (fun p => ((p.pa.zip p.bytes).find? (fun e => e.1 == pa)).map (·.2)) = none := by
      rw [List.findSome?_eq_none_iff]
      intro q hq
      rw [find?_zip_eq, List.idxOf?_eq_none_iff.mpr (hd q (List.mem_reverse.mp hq) pa h)]
      rfl
    rw [overlay, overlay, Claims.loaded, hnone]
    rfl
  · rw [overlay_of_notMem h, overlay_of_notMem h, Claims.loaded]

/-- What a store of bytes bs to distinct places leaves (R119, R330): it waits in the buffer or stands in memory. -/
structure Stores (s : State) (pas : List Nat) (bs : List Byte) (u : State) : Prop where
  frame : u = { s with
    delay := u.delay, mem := u.mem, scrub := u.scrub, poisoned := u.poisoned, healed := u.healed
    rereads := u.rereads, hart := { s.hart with sbuf := u.hart.sbuf } }
  loads : ∀ pa, Claims.loaded u pa = overlay pas bs (Claims.loaded s) pa
  place : (∃ p, u.hart.sbuf = s.hart.sbuf ++ [p] ∧ p.pa = pas ∧ p.release = false ∧
      ∀ pa, u.byteAt pa = s.byteAt pa) ∨
    (u.hart.sbuf = s.hart.sbuf ∧ ∀ pa, u.byteAt pa = overlay pas bs s.byteAt pa)
  alone : Claims.Alone s pas → s.delay.headD false = false → u.hart.sbuf = s.hart.sbuf

theorem buffer_stores {pas : List Nat} (bs : List Byte) (hd : pas.Nodup) (hw : Memory.wf s.mem = true) :
    Stores s pas bs (s.buffer pas bs false) := by
  rw [buffer_eq]
  by_cases hdrain : (!s.delay.headD false && (s.queued pas bs).mayDrain s.hart.sbuf.length) = true
  · rw [if_pos hdrain]
    have hwrites := store_writes s.undelayed pas bs
    have hbuf : (s.undelayed.store pas bs).hart.sbuf = s.hart.sbuf := by
      rw [hwrites]
      rfl
    have hbytes : ∀ pa, (s.undelayed.store pas bs).byteAt pa =
        overlay pas bs s.byteAt pa := fun pa => by
      rw [State.byteAt_store, byteAt_writeAll (s := s.undelayed) hd hw]
      rfl
    have hdisjoint := mayDrain_disjoint (Bool.and_eq_true_iff.mp hdrain).2
    refine ⟨?_, loaded_of_memory hbuf hdisjoint hbytes, .inr ⟨hbuf, hbytes⟩, fun _ _ => hbuf⟩
    rw [hwrites]
    rfl
  · rw [if_neg hdrain]
    refine ⟨rfl, loaded_queued pas bs, .inl ⟨_, rfl, rfl, rfl, fun _ => rfl⟩, fun ha hdelay => ?_⟩
    rw [hdelay, mayDrain_alone ha] at hdrain
    exact absurd rfl hdrain

/- The services. -/

theorem serviceCounter_answers (hr : Claims.Readable [1, 2] s) : serviceCounter s =
    .next (Claims.wrote s 1 (if (s.hart.rd 1).toNat ≤ 15 then BitVec.ofNat 64 (s.telemetry.getD (s.hart.rd 1).toNat 0)
      else 0x8000000000000000) (s.hart.pc + 4)) := by
  have hr1 : Claims.Readable [1] s := Readable.mono hr (by simp)
  rw [serviceCounter, reading_runs hr1.1 hr1.2]
  exact retireWith_eq ..

theorem serviceLog_past_end (hr : Claims.Readable [1, 2] s) (h : s.log.length ≤ (s.hart.rd 1).toNat) :
    serviceLog s = .next (Claims.wrote s 1 0 (s.hart.pc + 4)) := by
  rw [serviceLog, reading_runs hr.1 hr.2]
  dsimp only
  rw [List.getElem?_eq_none h]
  exact retireWith_eq ..

/-- The service for an entry that exists, after its reads. -/
theorem serviceLog_entry {e : BitVec 512} (hr : Claims.Readable [1, 2] s)
    (h : s.log[(s.hart.rd 1).toNat]? = some e) :
    serviceLog s = if s.heldByDeposit (s.hart.rd 2) 64 then stallCtl s
      else match s.accessAt s.who (s.hart.rd 2) 64 0 .wr with
        | .error f => faultAccess s f
        | .ok pas => retireWith (s.buffer pas (toBytes 64 e.toNat) false) 1
            (BitVec.ofNat 64 (s.log.length - (s.hart.rd 1).toNat - 1)) := by
  rw [serviceLog, reading_runs hr.1 hr.2]
  dsimp only
  rw [h] <;> rfl

theorem postHost_hart (s : State) (p : Nat) (r : HostRecord) : (s.postHost p r).hart = s.hart := by
  rw [State.postHost]
  split
  · rfl
  · rfl

theorem serviceNotice_posts (hr : Claims.Readable [1, 2] s) (h : (s.partAt s.hart.part).hostQueue.length < 256) :
    ∃ u, serviceNotice s = .next (Claims.wrote u 1 0 (s.hart.pc + 4)) ∧ u = { s with parts := u.parts } ∧
      (u.partAt s.hart.part).hostQueue = (s.partAt s.hart.part).hostQueue ++
        [{ kind := 6, hart := s.cur, cause := 0, value := s.hart.rd 2, time := s.time }] := by
  have hr2 : Claims.Readable [2] s := Readable.mono hr (by simp)
  refine ⟨s.postHost s.hart.part
    { kind := 6, hart := s.cur, cause := 0, value := s.hart.rd 2, time := s.time }, ?_, ?_, ?_⟩
  · rw [serviceNotice, reading_runs hr2.1 hr2.2, retireWith_eq, postHost_hart]
  · rw [State.postHost, if_pos h]
    rfl
  · rw [State.postHost, if_pos h, State.partAt_setPartAt_same]

theorem firmwareServicesAnswer : Claims.FirmwareServicesAnswer := by
  intro s i code hi hl hr x1 next
  rw [exec_calls hi]
  refine ⟨?_, ?_, ?_, ?_, ?_, ?_, ?_⟩
  · rintro rfl
    rw [trapCode_counter hl, serviceCounter_answers hr]
  · rintro rfl hx
    rw [trapCode_log hl, serviceLog_past_end hr hx]
  · rintro rfl hx hheld
    rw [trapCode_log hl, serviceLog_entry hr (List.getElem?_eq_getElem hx), hheld]
    rfl
  · rintro f rfl hx hheld hacc
    rw [trapCode_log hl, serviceLog_entry hr (List.getElem?_eq_getElem hx), hheld, hacc]
    rfl
  · rintro e pas rfl he hheld hacc hd hw entry
    rw [trapCode_log hl, serviceLog_entry hr he, hheld, hacc]
    obtain ⟨hframe, hloads, hplace, halone⟩ := buffer_stores (toBytes 64 e.toNat) hd hw
    have hpc : (s.buffer pas (toBytes 64 e.toNat) false).hart.pc = s.hart.pc := by rw [hframe]
    refine ⟨_, ?_, hframe, hloads, hplace, halone⟩
    have hnext : next = (s.buffer pas (toBytes 64 e.toNat) false).hart.pc + 4 := congrArg (· + 4) hpc.symm
    rw [hnext]
    exact retireWith_eq ..
  · rintro rfl hlen
    rw [trapCode_notice hl]
    exact serviceNotice_posts hr hlen
  · intro hcode
    obtain ⟨n, rfl⟩ := Nat.exists_eq_add_of_le' hcode
    rw [trapCode_other hl]
    exact retireWith_eq ..

/-- Settles O39. -/
theorem trapReturnsAndFirmwareServices : Obligations.TrapReturnsAndFirmwareServices :=
  ⟨trapReturnRestores, firmwareServicesAnswer⟩

end Sys2Proof.Machine
end

