-- ==== Sys2Proof/Proofs/Contexts.lean ====
section
/-!
Contexts that wait, wake, stop and come back (R33, R139, R144, R188 to R191, R381): what dealing quads changes of the
harts, what the Gleaner's work for a save leaves of them, and the steps of the scheduler read through both.
-/

namespace Sys2Proof.Machine

set_option Elab.async false

variable {s t u : State} {n : Nat}

/- Quads dealt. -/

/-- Of the harts no more than quads, their wait for them and the wait of a gang differ, and those that wait for no quad
keep theirs; partitions keep their orders. -/
structure Deals (s t : State) : Prop where
  frame : t = { s with hart := t.hart, others := t.others, parts := t.parts }
  order : ∀ p, (t.partAt p).order = (s.partAt p).order
  dealt : ∀ i, t.hartAt i = { s.hartAt i with
    grant := (t.hartAt i).grant, needsReserved := (t.hartAt i).needsReserved, gangWait := (t.hartAt i).gangWait }
  held : ∀ i, (s.hartAt i).needsReserved = none →
    (t.hartAt i).grant = (s.hartAt i).grant ∧ (t.hartAt i).needsReserved = none

theorem Deals.refl (s : State) : Deals s s := ⟨rfl, fun _ => rfl, fun _ => rfl, fun _ h => ⟨rfl, h⟩⟩

theorem Deals.trans (h : Deals s t) (h' : Deals t u) : Deals s u := by
  refine ⟨?_, fun p => (h'.order p).trans (h.order p), fun i => ?_, fun i hi => ?_⟩
  · rw [h'.frame, h.frame]
  · rw [h'.dealt, h.dealt]
  · obtain ⟨hg, hn⟩ := h.held i hi
    obtain ⟨hg', hn'⟩ := h'.held i hn
    exact ⟨hg'.trans hg, hn'⟩

theorem foldl_deals {α : Type} {f : State → α → State} (hf : ∀ t a, Deals t (f t a)) (l : List α) (s : State) :
    Deals s (l.foldl f s) := by
  induction l generalizing s with
  | nil => exact .refl s
  | cons a l ih => exact (hf s a).trans (ih _)

/-- A hart that is dealt quads or that its gang no longer holds up. -/
theorem setHartAt_deals {g : BitVec 64} {r : Option Nat} {w : Bool}
    (hheld : (s.hartAt n).needsReserved = none → g = (s.hartAt n).grant ∧ r = none) :
    Deals s (s.setHartAt n { s.hartAt n with grant := g, needsReserved := r, gangWait := w }) := by
  refine ⟨?_, fun p => ?_, fun i => ?_, fun i hi => ?_⟩
  · rw [State.setHartAt]
    split
    · rfl
    · rfl
  · rw [State.setHartAt]
    split
    · rfl
    · rfl
  · by_cases h : i = n
    · rw [h, State.hartAt_setHartAt_same]
    · rw [State.hartAt_setHartAt_other h]
  · by_cases h : i = n
    · subst h
      rw [State.hartAt_setHartAt_same]
      exact hheld hi
    · rw [State.hartAt_setHartAt_other h]
      exact ⟨rfl, hi⟩

theorem wakeGang_deals (s : State) (g : Farm) : Deals s (s.wakeGang g) :=
  ite_holds (P := Deals s) (foldl_deals (fun _ _ => setHartAt_deals fun h => ⟨rfl, h⟩) _ _) (.refl s)

theorem serve_deals {c : Nat → Bool} {st m : Nat} (e : s.firstWaiting c st = some m) (g : BitVec 64) :
    Deals s (s.setHartAt m { s.hartAt m with needsReserved := none, grant := g }) := by
  refine setHartAt_deals (w := (s.hartAt m).gangWait) fun h => ?_
  have hw := firstWaiting_waits e
  rw [h] at hw
  cases hw

theorem serveWaiting_deals (s : State) (p st : Nat) (qs : List Nat) : Deals s (s.serveWaiting p st qs) := by
  induction qs generalizing s with
  | nil => exact .refl s
  | cons q qs ih =>
    rw [State.serveWaiting]
    split
    next => exact .refl s
    next e => exact (serve_deals e _).trans (ih _)

theorem serveFree_deals (s : State) (st n : Nat) : Deals s (s.serveFree st n) := by
  induction n generalizing s with
  | zero => exact .refl s
  | succ n ih =>
    rw [State.serveFree]
    split
    next e _ => exact (serve_deals e _).trans (ih _)
    next => exact .refl s

theorem wakeGangs_deals (s : State) : Deals s (s.farms.foldl State.wakeGang s) := foldl_deals wakeGang_deals _ _

theorem allot_deals (s : State) (st : Nat) : Deals s (s.allot st) :=
  (serveFree_deals ..).trans (foldl_deals wakeGang_deals _ _)

theorem quadsBack_deals (s : State) (p st : Nat) (qs : List Nat) : Deals s (s.quadsBack p st qs) :=
  (serveWaiting_deals ..).trans (allot_deals ..)

theorem setPartAt_deals {p : Nat} {v : Part} (h : v.order = (s.partAt p).order) : Deals s (s.setPartAt p v) := by
  refine ⟨rfl, fun q => ?_, fun i => rfl, fun i hi => ⟨rfl, hi⟩⟩
  by_cases hq : q = p
  · rw [hq, State.partAt_setPartAt_same, h]
  · rw [State.partAt_setPartAt_other hq]

theorem setBudget_deals (s : State) (p st b : Nat) : Deals s (s.setBudget p st b) := by
  have hpart : Deals s (s.setPartAt p { s.partAt p with
      budget := ((List.range s.caps.steads).map (s.partAt p).budgetOn).set st b }) := setPartAt_deals rfl
  exact hpart.trans (allot_deals ..)

theorem settleBudget_deals (s : State) (p st : Nat) : Deals s (s.settleBudget p st) := by
  rw [State.settleBudget]
  exact ite_holds (P := Deals s) (.refl s) (setBudget_deals ..)

/- The current hart changes. -/

theorem hart_switchTo (s : State) (n : Nat) : (s.switchTo n).hart = s.hartAt n := by
  rw [State.switchTo]
  split
  next h => rw [h, State.hartAt_cur]
  next => rfl

theorem hartAt_switchTo (s : State) (n i : Nat) : (s.switchTo n).hartAt i = s.hartAt i := by
  rw [State.switchTo]
  split
  next => rfl
  next h =>
    rw [State.hartAt]
    by_cases hi : i = n
    · rw [if_pos hi, hi]
    · rw [if_neg hi]
      dsimp only
      by_cases hc : i = s.cur
      · rw [hc, alookup_ainsert_same, State.hartAt_cur]
        rfl
      · rw [alookup_ainsert_other hc, alookup_aerase_other hi, State.hartAt, if_neg hc]

theorem switchTo_frame (s : State) (n : Nat) : s.switchTo n =
    { s with hart := (s.switchTo n).hart, cur := n, others := (s.switchTo n).others } := by
  rw [State.switchTo]
  split
  next h => rw [h]
  next => rfl

theorem cur_switchTo (s : State) (n : Nat) : (s.switchTo n).cur = n := by rw [switchTo_frame]

/-- Hart n acts as the current hart, to the context v; then the current hart is current again. -/
def State.acted (s : State) (n : Nat) (v : Hart) : State := ((s.switchTo n).withHart v).switchTo s.cur

theorem acted_frame (s : State) (n : Nat) (v : Hart) :
    s.acted n v = { s with hart := (s.acted n v).hart, others := (s.acted n v).others } := by
  rw [State.acted, switchTo_frame, State.withHart, switchTo_frame s n]

theorem hartAt_acted (s : State) (n : Nat) (v : Hart) (i : Nat) :
    (s.acted n v).hartAt i = if i = n then v else s.hartAt i := by
  rw [State.acted, hartAt_switchTo, State.hartAt, State.withHart, cur_switchTo]
  by_cases h : i = n
  · rw [if_pos h, if_pos h]
  · rw [if_neg h, if_neg h, ← hartAt_switchTo s n i, State.hartAt, cur_switchTo, if_neg h]

/- The scheduler's own steps. -/

/-- A context at the back of its partition's order (R139, R144). -/
theorem enqueue_hartAt (t : State) (n i : Nat) :
    (t.enqueue n).hartAt i = if i = n then { t.hartAt n with since := t.nextId } else t.hartAt i := by
  have hfresh : ∀ m, t.fresh.2.hartAt m = t.hartAt m := fun _ => rfl
  rw [State.enqueue]
  dsimp only
  by_cases h : i = n
  · rw [if_pos h, h, State.hartAt_setHartAt_same, hfresh]
    rfl
  · rw [if_neg h, State.hartAt_setHartAt_other h]
    rfl

theorem partAt_setHartAt (s : State) (n p : Nat) (v : Hart) : (s.setHartAt n v).partAt p = s.partAt p := by
  rw [State.setHartAt]
  split
  · rfl
  · rfl

theorem enqueue_order (t : State) (n : Nat) :
    ((t.enqueue n).partAt (t.hartAt n).part).order = (t.partAt (t.hartAt n).part).order ++ [n] := by
  rw [State.enqueue]
  dsimp only
  rw [partAt_setHartAt]
  exact congrArg Part.order (State.partAt_setPartAt_same ..)

theorem setHartAt_frame (s : State) (n : Nat) (v : Hart) :
    s.setHartAt n v = { s with hart := (s.setHartAt n v).hart, others := (s.setHartAt n v).others } := by
  rw [State.setHartAt]
  split
  · rfl
  · rfl

theorem enqueue_frame (t : State) (n : Nat) : t.enqueue n = { t with
    hart := (t.enqueue n).hart, others := (t.enqueue n).others, parts := (t.enqueue n).parts, nextId := t.nextId + 1 } := by
  rw [State.enqueue]
  dsimp only
  rw [setHartAt_frame]
  rfl

/-- Context n stands as v at the back of its partition's order; nothing else changed. -/
structure Enqueued (s : State) (n : Nat) (v : Hart) (t : State) : Prop where
  frame : t = { s with hart := t.hart, others := t.others, parts := t.parts, nextId := s.nextId + 1 }
  own : t.hartAt n = { v with since := s.nextId }
  order : (t.partAt v.part).order = (s.partAt v.part).order ++ [n]
  others : ∀ i, i ≠ n → t.hartAt i = s.hartAt i

theorem enqueue_enqueued (s : State) (n : Nat) : Enqueued s n (s.hartAt n) (s.enqueue n) :=
  ⟨enqueue_frame s n, by rw [enqueue_hartAt, if_pos rfl], enqueue_order s n,
    fun i hi => by rw [enqueue_hartAt, if_neg hi]⟩

theorem setHartAt_enqueued (s : State) (n : Nat) (v : Hart) : Enqueued s n v ((s.setHartAt n v).enqueue n) := by
  obtain ⟨hframe, hown, horder, hothers⟩ := enqueue_enqueued (s.setHartAt n v) n
  rw [State.hartAt_setHartAt_same] at hown horder
  rw [partAt_setHartAt] at horder
  have hid : (s.setHartAt n v).nextId = s.nextId := by rw [setHartAt_frame]
  rw [hid] at hown
  refine ⟨?_, hown, horder, fun i hi => (hothers i hi).trans (State.hartAt_setHartAt_other hi s v)⟩
  rw [hframe, setHartAt_frame]

/- A sleeping hart. -/

theorem wakes_eq (hs : (s.hartAt n).status = .sleeping) (hn : n ∈ s.rereads) : s.wakes n =
    match s.accessAt ⟨(s.hartAt n).part, s.tenantOf (s.hartAt n).part⟩ (s.hartAt n).sleepAddr 8 8 .rd with
    | .ok pas => if BitVec.ofNat 64 (ofBytes (pas.map s.byteAt)) = (s.hartAt n).sleepCmp then none else some true
    | .error _ => some false := by
  rw [State.wakes, hs, List.contains_iff_mem.mpr hn] <;> rfl

/-- The state in which hart n need not be told again that its word was written. -/
def State.told (s : State) (n : Nat) : State := { s with rereads := s.rereads.filter (· != n) }

theorem exec_wakeRead (s : State) (n : Nat) : exec (.wakeRead n) s =
    match s.wakes n with
    | none => .next (s.told n)
    | some d => .next (((s.told n).setHartAt n { s.hartAt n with status := .runnable, resumeNext := d }).enqueue n) := rfl

theorem Enqueued.onlyScheduler {v : Hart} (h : Enqueued s n v t) : Claims.OnlyScheduler s t := by
  rw [Claims.OnlyScheduler, h.frame]

/- Dispatch. -/

/-- The lowest free quads that context n is owed (R31, R33). -/
def State.owedQuads (s : State) (n : Nat) : BitVec 64 := quadMask ((s.freeQuads (n / 16)).take (s.hartAt n).owed)

/-- Context n out of its partition's order. -/
def State.unordered (s : State) (n : Nat) : State :=
  s.setPartAt (s.hartAt n).part { s.partAt (s.hartAt n).part with
    order := (s.partAt (s.hartAt n).part).order.filter (· != n) }

/-- Context n with the quads it is owed, at the instruction where it waited (R33). -/
def State.dispatched (s : State) (n : Nat) : State :=
  ((s.unordered n).setHartAt n { s.hartAt n with
    status := .running, grant := s.owedQuads n, owed := 0, sinceDispatch := 0, resumeNext := false }).settleBudget
      (s.hartAt n).part (steadOf n)

theorem regrant_eq (s : State) (n : Nat) : s.regrant n =
    if (s.hartAt n).resumeNext then
      (((s.dispatched n).switchTo n).retireTo (((s.dispatched n).switchTo n).hart.pc + 4)).switchTo (s.dispatched n).cur
    else s.dispatched n := rfl

/-- What dispatch leaves of the contexts and of the order of the partition. -/
structure Dispatches (s : State) (n : Nat) (pc : Word) (count : Nat) (t : State) : Prop where
  frame : t = { s with hart := t.hart, others := t.others, parts := t.parts }
  own : t.hartAt n = { s.hartAt n with
    status := .running, grant := s.owedQuads n, owed := 0, sinceDispatch := 0, resumeNext := false
    pc := pc, retcount := count, gangWait := (t.hartAt n).gangWait }
  order : (t.partAt (s.hartAt n).part).order = (s.partAt (s.hartAt n).part).order.filter (· != n)
  others : ∀ i, i ≠ n → t.hartAt i = { s.hartAt i with
    grant := (t.hartAt i).grant, needsReserved := (t.hartAt i).needsReserved, gangWait := (t.hartAt i).gangWait }

theorem dispatched_dispatches (hn : (s.hartAt n).needsReserved = none) :
    Dispatches s n (s.hartAt n).pc (s.hartAt n).retcount (s.dispatched n) := by
  have hdeals := settleBudget_deals ((s.unordered n).setHartAt n { s.hartAt n with
    status := .running, grant := s.owedQuads n, owed := 0, sinceDispatch := 0, resumeNext := false })
    (s.hartAt n).part (steadOf n)
  rw [← State.dispatched] at hdeals
  obtain ⟨hframe, horder, hdealt, hheld⟩ := hdeals
  refine ⟨?_, ?_, ?_, fun i hi => ?_⟩
  · rw [hframe, setHartAt_frame]
    rfl
  · have hown := hdealt n
    obtain ⟨hg, hr⟩ := hheld n (by rw [State.hartAt_setHartAt_same]; exact hn)
    rw [hg, hr, State.hartAt_setHartAt_same] at hown
    rw [hown, ← hn]
  · rw [horder, partAt_setHartAt]
    exact congrArg Part.order (State.partAt_setPartAt_same ..)
  · have hother := hdealt i
    rw [State.hartAt_setHartAt_other hi] at hother
    exact hother

/-- A context one instruction further (R381). -/
def Hart.further (h : Hart) : Hart := { h with pc := h.pc + 4, retcount := h.retcount + 1 }

theorem retired_acted (hd : (s.hartAt n).dbg.getLsbD 0 = false) :
    ((s.switchTo n).retireTo ((s.switchTo n).hart.pc + 4)).switchTo s.cur = s.acted n (s.hartAt n).further := by
  rw [State.retireTo_plain _ _ (by rw [hart_switchTo]; exact hd), hart_switchTo]
  rfl

theorem regrant_dispatches (hn : (s.hartAt n).needsReserved = none)
    (hd : (s.hartAt n).resumeNext = true → (s.hartAt n).dbg.getLsbD 0 = false) :
    Dispatches s n (if (s.hartAt n).resumeNext then (s.hartAt n).pc + 4 else (s.hartAt n).pc)
      (if (s.hartAt n).resumeNext then (s.hartAt n).retcount + 1 else (s.hartAt n).retcount) (s.regrant n) := by
  have hdisp := dispatched_dispatches hn
  rw [regrant_eq]
  by_cases hnext : (s.hartAt n).resumeNext = true
  · rw [if_pos hnext, if_pos hnext, if_pos hnext, retired_acted (by rw [hdisp.own]; exact hd hnext)]
    have hacted := hartAt_acted (s.dispatched n) n ((s.dispatched n).hartAt n).further
    refine ⟨?_, ?_, ?_, fun i hi => ?_⟩
    · rw [acted_frame, hdisp.frame]
    · rw [hacted, if_pos rfl, hdisp.own]
      rfl
    · rw [acted_frame]
      exact hdisp.order
    · rw [hacted, if_neg hi]
      exact hdisp.others i hi
  · rw [if_neg hnext, if_neg hnext, if_neg hnext]
    exact hdisp

/- Restore. -/

/-- Sheaves and the next number alone differ. -/
def OnlySheaves (s t : State) : Prop := t = { s with sheaves := t.sheaves, nextId := t.nextId }

theorem OnlySheaves.trans (h : OnlySheaves s t) (h' : OnlySheaves t u) : OnlySheaves s u := by
  rw [OnlySheaves] at h h' ⊢
  rw [h', h]

theorem queueOrder_onlySheaves (s : State) (sid adv : Nat) (final : Bool) :
    OnlySheaves s (s.queueOrder sid adv final) := by
  rw [State.queueOrder]
  split
  · rfl
  · rfl

theorem foldl_onlySheaves {α : Type} {f : State → α → State} (hf : ∀ t a, OnlySheaves t (f t a)) (l : List α)
    (s : State) : OnlySheaves s (l.foldl f s) := by
  induction l generalizing s with
  | nil => exact rfl
  | cons a l ih => exact (hf s a).trans (ih _)

theorem unparkHart_onlySheaves (h : s.linesFit n = true) : ∃ t, s.unparkHart n = some t ∧ OnlySheaves s t := by
  have hstep (t : State) (sid : Nat) (f : Order → Order) : OnlySheaves t
      (match (t.queueOrder sid 0 false).sheafById sid with
      | some sh => (t.queueOrder sid 0 false).setSheaf { sh with orders := sh.orders.map f }
      | none => t.queueOrder sid 0 false) := by
    refine (queueOrder_onlySheaves t sid 0 false).trans ?_
    split
    · rfl
    · rfl
  rw [State.unparkHart, h]
  refine ⟨_, rfl, foldl_onlySheaves (fun t sh => ?_) _ _⟩
  have hset : OnlySheaves t (t.setSheaf { sh with parked := false }) := rfl
  refine hset.trans (ite_holds (P := OnlySheaves _) rfl (ite_holds (P := OnlySheaves _) ?_ ?_))
  · exact hstep _ _ _
  · exact (hstep _ _ _).trans (hstep _ _ _)

theorem servable_of_mayResume (h : s.mayResume n = true) : s.servable n = true := (Bool.and_eq_true_iff.mp h).1

theorem linesFit_of_mayResume (h : s.mayResume n = true) (hp : (s.hartAt n).preempted = true) :
    s.linesFit n = true := by
  have hs := servable_of_mayResume h
  simp only [State.servable, hp, Bool.not_true, Bool.false_or, Bool.and_eq_true] at hs
  exact hs.2.1.2

theorem runnable_of_mayResume (h : s.mayResume n = true) : (s.hartAt n).status = .runnable := by
  have hs := servable_of_mayResume h
  simp only [State.servable, State.canResume, Bool.and_eq_true, beq_iff_eq] at hs
  exact hs.1.1.1.1.1

/-- A quad is held when some hart of the stead that holds its quads has it (R31). -/
theorem getLsbD_quadsHeld (s : State) (st j : Nat) : (s.quadsHeld st).getLsbD j = true ↔
    ∃ i ∈ s.hartsOn st, (s.hartAt i).holding = true ∧ (s.hartAt i).grant.getLsbD j = true := by
  have hfold : ∀ (l : List Nat) (g : BitVec 64), (l.foldl (fun g h =>
      if (s.hartAt h).holding then g ||| (s.hartAt h).grant else g) g).getLsbD j = true ↔
      g.getLsbD j = true ∨ ∃ i ∈ l, (s.hartAt i).holding = true ∧ (s.hartAt i).grant.getLsbD j = true := by
    intro l
    induction l with
    | nil => simp
    | cons i l ih =>
      intro g
      rw [List.foldl_cons, ih]
      by_cases hi : (s.hartAt i).holding = true
      · simp [hi, BitVec.getLsbD_or, or_assoc]
      · simp [hi]
  rw [State.quadsHeld, hfold]
  simp

theorem mem_keys_ainsert {α : Type} (l : List (Nat × α)) (k i : Nat) (a : α) :
    i ∈ (ainsert l k a).map (·.1) ↔ i = k ∨ i ∈ l.map (·.1) := by
  induction l with
  | nil => simp [ainsert]
  | cons e l ih => grind [ainsert]

theorem mem_hartsOn_setHartAt {v : Hart} {st i : Nat} (hi : i ≠ n) :
    i ∈ (s.setHartAt n v).hartsOn st ↔ i ∈ s.hartsOn st := by
  rw [State.hartsOn, State.hartsOn, List.mem_filter, List.mem_filter, State.setHartAt]
  split
  · rfl
  · rw [State.hartIds, State.hartIds, List.mem_cons, List.mem_cons]
    dsimp only
    rw [mem_keys_ainsert, or_iff_right hi]

/-- A context that holds no quads changes without a change of the quads that are free. -/
theorem freeQuads_setHartAt {v : Hart} (hold : (s.hartAt n).holding = false) (hv : v.holding = false) (st : Nat) :
    (s.setHartAt n v).freeQuads st = s.freeQuads st := by
  have hheld : (s.setHartAt n v).quadsHeld st = s.quadsHeld st := by
    apply BitVec.eq_of_getLsbD_eq
    intro j _
    rw [Bool.eq_iff_iff, getLsbD_quadsHeld, getLsbD_quadsHeld]
    refine exists_congr fun i => ?_
    by_cases hi : i = n
    · simp [hi, hold, hv]
    · rw [mem_hartsOn_setHartAt hi, State.hartAt_setHartAt_other hi]
  rw [State.freeQuads, State.freeQuads, hheld, setHartAt_frame]

/-- A context that is no longer pre-empted (R191). -/
def Hart.brought (h : Hart) : Hart := { h with preempted := false, owedX := [] }

theorem restore_eq (h : s.mayResume n = true) (hp : (s.hartAt n).preempted = true) : ∃ t, OnlySheaves s t ∧
    s.restore n = some (((t.setHartAt n (t.hartAt n).brought).regrant n).farms.foldl State.wakeGang
      ((t.setHartAt n (t.hartAt n).brought).regrant n)) := by
  obtain ⟨t, hunpark, hsheaves⟩ := unparkHart_onlySheaves (linesFit_of_mayResume h hp)
  refine ⟨t, hsheaves, ?_⟩
  rw [State.restore, h, hp, hunpark]
  rfl

theorem holding_of_runnable {v : Hart} (h : v.status = .runnable) : v.holding = false := by
  rw [Hart.holding, h]
  rfl

/-- A restored context before its quads are dealt (R99, R191). -/
theorem brought_owedQuads (hsheaves : OnlySheaves s t) (hv : (s.hartAt n).status = .runnable) :
    (t.setHartAt n (t.hartAt n).brought).owedQuads n = s.owedQuads n := by
  have hhart : t.hartAt n = s.hartAt n := by rw [hsheaves]; rfl
  have hfree : t.freeQuads (n / 16) = s.freeQuads (n / 16) := by rw [hsheaves]; rfl
  have hbrought : ((t.hartAt n).brought).holding = false := holding_of_runnable (hhart ▸ hv)
  rw [State.owedQuads, freeQuads_setHartAt (holding_of_runnable (hhart ▸ hv)) hbrought, hfree,
    State.hartAt_setHartAt_same, hhart]
  rfl

theorem restores (h : s.mayResume n = true) (hp : (s.hartAt n).preempted = true)
    (hn : (s.hartAt n).needsReserved = none) (hnext : (s.hartAt n).resumeNext = false) :
    ∃ t, exec (.restore n) s = .next t ∧
      (t.partAt (s.hartAt n).part).order = (s.partAt (s.hartAt n).part).order.filter (· != n) ∧
      t.hartAt n = { s.hartAt n with status := .running, grant := s.owedQuads n, owed := 0, sinceDispatch := 0
                                     preempted := false, owedX := [], gangWait := (t.hartAt n).gangWait } := by
  obtain ⟨u, hsheaves, hrestore⟩ := restore_eq h hp
  have hexec : exec (.restore n) s = .next ((s.restore n).getD s) := rfl
  rw [hrestore, Option.getD_some] at hexec
  have hquads := brought_owedQuads hsheaves (runnable_of_mayResume h)
  have hhart : u.hartAt n = s.hartAt n := by rw [hsheaves]; rfl
  have hown : (u.setHartAt n (u.hartAt n).brought).hartAt n = (s.hartAt n).brought := by
    rw [State.hartAt_setHartAt_same, hhart]
  have hpart : (u.setHartAt n (u.hartAt n).brought).partAt (s.hartAt n).part = s.partAt (s.hartAt n).part := by
    rw [partAt_setHartAt, hsheaves]
    rfl
  generalize u.setHartAt n (u.hartAt n).brought = m at hexec hquads hown hpart
  have hlater : (m.hartAt n).resumeNext = false := by
    rw [hown]
    exact hnext
  obtain ⟨-, hrunning, horder, -⟩ := regrant_dispatches (s := m) (n := n) (by rw [hown]; exact hn)
    (fun hc => absurd hc (by rw [hlater]; exact Bool.false_ne_true))
  rw [hlater, if_neg Bool.false_ne_true, if_neg Bool.false_ne_true, hown, hquads] at hrunning
  rw [hown] at horder
  obtain ⟨-, hkeep, hdealt, hheld⟩ := wakeGangs_deals (m.regrant n)
  refine ⟨_, hexec, ?_, ?_⟩
  · rw [hkeep]
    refine horder.trans ?_
    exact congrArg (fun p : Part => p.order.filter (· != n)) hpart
  · have hfinal := hdealt n
    obtain ⟨hg, hr⟩ := hheld n (by rw [hrunning]; exact hn)
    rw [hg, hr, hrunning, ← hn] at hfinal
    rw [← hnext] at hfinal
    exact hfinal

/- Pre-emption. -/

/-- Of the harts no more than slots, events and stalls differ, of a slot not what it has begun to send; partitions keep
their orders. -/
structure Parks (s t : State) : Prop where
  order : ∀ p, (t.partAt p).order = (s.partAt p).order
  harts : ∀ i, t.hartAt i = { s.hartAt i with
    z := (t.hartAt i).z, events := (t.hartAt i).events, lost := (t.hartAt i).lost
    ctlStall := (t.hartAt i).ctlStall, seqStall := (t.hartAt i).seqStall }
  sent : ∀ i (z : ZIx), ((t.hartAt i).z[z.val]).sentFrom = ((s.hartAt i).z[z.val]).sentFrom

theorem Parks.refl (s : State) : Parks s s := ⟨fun _ => rfl, fun _ => rfl, fun _ _ => rfl⟩

theorem Parks.trans (h : Parks s t) (h' : Parks t u) : Parks s u := by
  refine ⟨fun p => (h'.order p).trans (h.order p), fun i => ?_, fun i z => (h'.sent i z).trans (h.sent i z)⟩
  rw [h'.harts, h.harts]

theorem foldl_parks {α : Type} {f : State → α → State} (hf : ∀ t a, Parks t (f t a)) (l : List α) (s : State) :
    Parks s (l.foldl f s) := by
  induction l generalizing s with
  | nil => exact .refl s
  | cons a l ih => exact (hf s a).trans (ih _)

/-- Nothing of the harts and the partitions differs. -/
structure Quiet (s t : State) : Prop where
  hart : t.hart = s.hart
  cur : t.cur = s.cur
  others : t.others = s.others
  parts : t.parts = s.parts

theorem Quiet.refl (s : State) : Quiet s s := ⟨rfl, rfl, rfl, rfl⟩

theorem Quiet.trans (h : Quiet s t) (h' : Quiet t u) : Quiet s u :=
  ⟨h'.hart.trans h.hart, h'.cur.trans h.cur, h'.others.trans h.others, h'.parts.trans h.parts⟩

theorem foldl_quiet {α : Type} {f : State → α → State} (hf : ∀ t a, Quiet t (f t a)) (l : List α) (s : State) :
    Quiet s (l.foldl f s) := by
  induction l generalizing s with
  | nil => exact .refl s
  | cons a l ih => exact (hf s a).trans (ih _)

theorem Quiet.parks (h : Quiet s t) : Parks s t := by
  have hhart : ∀ i, t.hartAt i = s.hartAt i := fun i => by rw [State.hartAt, State.hartAt, h.hart, h.cur, h.others]
  refine ⟨fun p => ?_, fun i => ?_, fun i z => ?_⟩
  · rw [State.partAt, State.partAt, h.parts]
  · rw [hhart]
  · rw [hhart]

theorem WritesMemory.quiet (h : WritesMemory s t) : Quiet s t := by
  rw [h]
  exact ⟨rfl, rfl, rfl, rfl⟩

theorem setPartAt_parks {p : Nat} {v : Part} (h : v.order = (s.partAt p).order) : Parks s (s.setPartAt p v) := by
  refine ⟨(setPartAt_deals h).order, fun i => rfl, fun i z => rfl⟩

theorem setHartAt_parks {z : Vector Slot 8} {ev : List EngineEvent} {lost c q : Bool}
    (hz : ∀ y : ZIx, (z[y.val]).sentFrom = ((s.hartAt n).z[y.val]).sentFrom) :
    Parks s (s.setHartAt n { s.hartAt n with z := z, events := ev, lost := lost, ctlStall := c, seqStall := q }) := by
  refine ⟨fun p => ?_, fun i => ?_, fun i y => ?_⟩
  · rw [partAt_setHartAt]
  · by_cases h : i = n
    · rw [h, State.hartAt_setHartAt_same]
    · rw [State.hartAt_setHartAt_other h]
  · by_cases h : i = n
    · rw [h, State.hartAt_setHartAt_same, hz]
    · rw [State.hartAt_setHartAt_other h]

theorem setSlot_parks {z : ZIx} {v : Slot} (h : v.sentFrom = (s.slotAt n z).sentFrom) : Parks s (s.setSlot n z v) := by
  refine setHartAt_parks (ev := (s.hartAt n).events) fun y => ?_
  by_cases hy : y = z
  · rw [hy, Vector.getElem_set_self, h]
    rfl
  · rw [Vector.getElem_set_ne _ _ (fun he => hy (Fin.ext he.symm))]

theorem unstall_parks (s : State) (m : Nat) :
    Parks s (s.setHartAt m { s.hartAt m with ctlStall := false, seqStall := false }) :=
  setHartAt_parks (z := (s.hartAt m).z) (ev := (s.hartAt m).events) (lost := (s.hartAt m).lost) fun _ => rfl

theorem returnCredit_parks (s : State) (a : Nat) (z : ZIx) (b : Nat) (y : ZIx) (k : Nat) :
    Parks s (s.returnCredit a z b y k) := by
  have hcredited : Parks s (s.setSlot a z { s.slotAt a z with unacked := (s.slotAt a z).unacked - k }) :=
    setSlot_parks rfl
  unfold State.returnCredit
  dsimp only
  split
  · exact ite_holds (P := Parks s) (hcredited.trans (unstall_parks ..)) (.refl s)
  · exact .refl s

theorem receiveFlit_parks (s : State) (f : Transit) : Parks s (s.receiveFlit f) := by
  rw [State.receiveFlit]
  exact ite_holds (P := Parks s)
    (ite_holds (ite_holds (.refl s) (returnCredit_parks ..)) (setSlot_parks rfl)) (returnCredit_parks ..)

theorem postPolicy_parks (s : State) (p : Nat) (e : PolEvent) : Parks s (s.postPolicy p e) := setPartAt_parks rfl

theorem postHost_parks (s : State) (p : Nat) (r : HostRecord) : Parks s (s.postHost p r) :=
  ite_holds (P := Parks s) (setPartAt_parks rfl) (setPartAt_parks rfl)

theorem queueEvent_parks (s : State) (m : Nat) (e : EngineEvent) : Parks s (s.queueEvent m e) := by
  have hset : Parks s (s.setHartAt m ((s.hartAt m).queueEvent e)) := by
    rw [Hart.queueEvent]
    split
    · exact setHartAt_parks fun _ => rfl
    · exact setHartAt_parks fun _ => rfl
  exact hset.trans (postPolicy_parks ..)

theorem tellWork_parks (s : State) (p m : Nat) (e : Fail) : Parks s (s.tellWork p m e) := by
  have htell : Parks s (s.tellStage2 p m e) := ite_holds (P := Parks s) (postHost_parks ..) (.refl s)
  refine htell.trans (foldl_parks (fun t l => ite_holds (P := Parks t) (.refl t) ?_) _ _)
  have hpoison : Quiet t { t with toldPoison := t.toldPoison ++ [(p, l)] } := ⟨rfl, rfl, rfl, rfl⟩
  exact hpoison.parks.trans (postHost_parks ..)

/- Write-backs and folds that perform. -/

theorem debtFails_parks (s : State) (d : Debt) (c : Cause) (a : Word) (e : Fail) : Parks s (s.debtFails d c a e) :=
  (tellWork_parks s d.part d.hart e).trans
    (ite_holds (P := Parks _) (postPolicy_parks ..) (queueEvent_parks ..))

theorem sendDebt_parks (s : State) (d : Debt) (entry idx : Nat) : Parks s (s.sendDebt d entry idx) := by
  have hdraw : Quiet s { s with draw := s.draw + 1 } := ⟨rfl, rfl, rfl, rfl⟩
  exact hdraw.parks.trans (ite_holds (P := Parks _) (queueEvent_parks ..) (Quiet.parks ⟨rfl, rfl, rfl, rfl⟩))

theorem performWrite_parks (s : State) (d : Debt) (data : BitVec 512) (mask : BitVec 64) :
    Parks s (s.performWrite d data mask) := by
  unfold State.performWrite
  dsimp only
  split
  · exact debtFails_parks ..
  · exact (store_writes ..).quiet.parks

theorem performScatter_parks (s : State) (d : Debt) (f : Fmt) (els : List (Nat × Nat)) :
    Parks s (s.performScatter d f els) := by
  unfold State.performScatter
  dsimp only
  split
  · exact debtFails_parks ..
  · refine foldl_parks (fun t p => ?_) _ _
    split
    · exact .refl t
    · exact (store_writes ..).quiet.parks

theorem performFold_parks (s : State) (d : Debt) (f : Fmt) (off value : Nat) :
    Parks s (s.performFold d f off value) := by
  unfold State.performFold
  dsimp only
  split
  · exact debtFails_parks ..
  · exact (writeAll_writes ..).quiet.parks

theorem performDebt_parks (s : State) (d : Debt) : Parks s (s.performDebt d) := by
  have hleft : Quiet s { s with debts := s.debts.filter (·.did != d.did) } := ⟨rfl, rfl, rfl, rfl⟩
  refine hleft.parks.trans ?_
  unfold State.performDebt
  dsimp only
  split
  · exact .refl _
  split
  · exact ite_holds (P := Parks _) (Quiet.parks ⟨rfl, rfl, rfl, rfl⟩) (sendDebt_parks ..)
  split
  · exact performWrite_parks ..
  · exact performScatter_parks ..
  · exact performFold_parks ..

theorem settleDebts_parks (s : State) (m k : Nat) : Parks s (s.settleDebts m k) := by
  induction k generalizing s with
  | zero => exact .refl s
  | succ k ih =>
    rw [State.settleDebts]
    split
    · exact .refl s
    split
    next d _ => exact (performDebt_parks s d).trans (ih _)
    next => exact .refl s

/- The Gleaner's work for a save. -/

theorem mapLine_quiet (s : State) (st : Nat) (k : LineKey) (f : Line → Line) : Quiet s (s.mapLine st k f) :=
  ⟨rfl, rfl, rfl, rfl⟩

theorem spillFrom_quiet (s : State) (st : Nat) (k : LineKey) (next : Bool) (m : BitVec 64) :
    Quiet s (s.spillFrom st k next m).1 := by
  unfold State.spillFrom
  split
  · exact .refl s
  split
  · exact .refl s
  dsimp only
  split
  · exact .refl s
  · exact mapLine_quiet ..

theorem issueLine_quiet (s : State) (sh : Sheaf) (k : LineKey) (oid adv : Nat) : Quiet s (s.issueLine sh k oid adv) := by
  have hspill {c : Bool} {t : State} {st : Nat} {key : LineKey} {next : Bool} {m : BitVec 64} :
      Quiet t (if c then t.spillFrom st key next m else (t, [])).1 := by
    split
    · exact spillFrom_quiet ..
    · exact .refl t
  unfold State.issueLine
  split
  · exact .refl s
  · refine Quiet.trans ?_ (foldl_quiet ?_ _ _)
    · exact (mapLine_quiet ..).trans (hspill.trans hspill)
    · exact fun _ _ => ⟨rfl, rfl, rfl, rfl⟩

theorem releaseLine_quiet (s : State) (sh : Sheaf) (oid adv : Nat) (k : LineKey) :
    Quiet s (s.releaseLine sh oid adv k) := by
  have hissued {c : Prop} [Decidable c] : Quiet s (if c then s else s.issueLine sh k oid adv) :=
    ite_holds (P := Quiet s) (.refl s) (issueLine_quiet ..)
  exact hissued.trans ⟨rfl, rfl, rfl, rfl⟩

theorem parkSheaf_quiet (s : State) (sh : Sheaf) : Quiet s (s.parkSheaf sh) := by
  have hfresh : Quiet s s.fresh.2 := ⟨rfl, rfl, rfl, rfl⟩
  have hdropped {c : Prop} [Decidable c] {l : List LineKey} {o : Nat} :
      Quiet s ((if c then s.fresh.2 else l.foldl (fun s k => s.releaseLine sh o 0 k) s.fresh.2).dropExpected sh.sid) :=
    (ite_holds (P := Quiet s) hfresh (hfresh.trans (foldl_quiet (fun _ _ => releaseLine_quiet ..) _ _))).trans
      ⟨rfl, rfl, rfl, rfl⟩
  exact ite_holds (P := Quiet s) (hdropped.trans ⟨rfl, rfl, rfl, rfl⟩) (hdropped.trans ⟨rfl, rfl, rfl, rfl⟩)

theorem parkHart_parks (s : State) (m : Nat) : Parks s (s.parkHart m) := by
  have hlines : Quiet s (((s.sheaves.filter (fun sh => sh.hart == m && !sh.parked)).foldl
      (fun s sh => s.parkSheaf sh) s).dropFetches) :=
    (foldl_quiet parkSheaf_quiet _ _).trans ⟨rfl, rfl, rfl, rfl⟩
  exact hlines.parks.trans (settleDebts_parks ..)

theorem deliverFrom_parks (s : State) (m : Nat) : Parks s (s.deliverFrom m) := by
  have htransit : Quiet s { s with transit := s.transit.filter (fun t => t.fromHart != m) } := ⟨rfl, rfl, rfl, rfl⟩
  exact htransit.parks.trans (foldl_parks receiveFlit_parks _ _)

/- A hart that stops with no word in the middle. -/

/-- A hart with nothing read ahead (R188). -/
def Hart.settled (h : Hart) : Hart :=
  { h with early := [], queue := h.queue.map (fun b => { b with checked := false }) }

/-- The hart stands between two words: no access is in flight and no sheaf access has begun (R188). -/
def Hart.between (h : Hart) : Prop := h.vq = [] ∧ (h.block = none ∨ h.vstart = 0 ∨ h.startHeld = true)

theorem settleWords_between (h : s.hart.between) : s.settleWords = s.withHart s.hart.settled := by
  obtain ⟨hvq, hblock⟩ := h
  have hland : s.landAll s.hart.inFlight = s := by rw [Hart.inFlight, hvq]; rfl
  have hends : s.farEnds = none := by rw [State.farEnds, hvq]
  have hfinish : s.finishSheaf = s := by
    rw [State.finishSheaf]
    split
    · rfl
    next b hb =>
      rw [if_pos]
      obtain h | h | h := hblock
      · cases h.symm.trans hb
      · simp [h]
      · simp [h]
  rw [State.settleWords, hland, hends]
  dsimp only
  rw [hfinish]
  rfl

theorem rewound_unsent {h : Hart} (hz : ∀ z : ZIx, (h.z[z.val]).sentFrom = []) : h.rewound = h := by
  have hnone : (List.finRange 8).find? (fun z => !(h.z[z.val]).sentFrom.isEmpty) = none := by
    simp [hz]
  rw [Hart.rewound, hnone]

/-- A probe of hart n that waits for pins gives its place up (R188). -/
def State.unpinned (s : State) (n : Nat) : State := { s with pinWait := s.pinWait.filter (· != n) }

/-- The hart after its stop, but for what has arrived for it. -/
theorem stopHart_parks (hb : (s.hartAt n).between) (hz : ∀ z : ZIx, ((s.hartAt n).z[z.val]).sentFrom = []) :
    Parks (s.acted n (s.hartAt n).settled) (s.stopHart n) := by
  have hacted : (s.switchTo n).settleWords.switchTo s.cur = s.acted n (s.hartAt n).settled := by
    rw [settleWords_between (by rw [hart_switchTo]; exact hb), hart_switchTo]
    rfl
  have hpins : Quiet (s.acted n (s.hartAt n).settled) ((s.acted n (s.hartAt n).settled).unpinned n) :=
    ⟨rfl, rfl, rfl, rfl⟩
  have harrived := hpins.parks.trans (deliverFrom_parks _ n)
  have hunsent : ∀ z : ZIx,
      (((((s.acted n (s.hartAt n).settled).unpinned n).deliverFrom n).hartAt n).z[z.val]).sentFrom = [] := fun z => by
    rw [harrived.sent n z, hartAt_acted, if_pos rfl]
    exact hz z
  have hstop : s.stopHart n = (((s.acted n (s.hartAt n).settled).unpinned n).deliverFrom n).setHartAt n
      ((((s.acted n (s.hartAt n).settled).unpinned n).deliverFrom n).hartAt n).rewound := by
    rw [State.stopHart, hacted]
    rfl
  rw [hstop, rewound_unsent hunsent]
  exact harrived.trans (setHartAt_parks fun _ => rfl)

/- The steps of a pre-emption. -/

/-- A hart whose quads go back at its pre-emption (R33, R144). -/
def Hart.returned (h : Hart) : Hart :=
  { h with status := .runnable, owed := (quadList h.grant).length, grant := 0 }

theorem giveBack_deals (h : (s.hartAt n).holding = true) :
    Deals (s.setHartAt n (s.hartAt n).returned) (s.giveBack n .runnable) := by
  rw [State.giveBack, h]
  exact quadsBack_deals ..

/-- A hart that is saved, its quads still its own (R188). -/
def Hart.saved (h : Hart) (gang : Bool) : Hart :=
  { h with asked := false, preempted := true, gangWait := gang, resumeNext := false, owedX := h.pending.map (·.1) }

theorem preempt_eq (hasked : (s.hartAt n).asked = true) (hrun : (s.hartAt n).status = .running)
    (hn : (s.hartAt n).needsReserved = none) (hend : (s.hartAt n).ending = false)
    (hdebts : ∀ d ∈ ((s.stopHart n).parkHart n).debts, d.hart ≠ n) : ∃ gang, s.preempt n =
      some (((((s.stopHart n).parkHart n).setHartAt n ((((s.stopHart n).parkHart n).hartAt n).saved gang)).giveBack
        n .runnable).enqueue n) := by
  have hnone : ((s.stopHart n).parkHart n).debts.any (·.hart == n) = false := by simpa using hdebts
  refine ⟨((s.farmAt (s.hartAt n).part (s.hartAt n).farm).map (·.gang)).getD false, ?_⟩
  rw [State.preempt, hasked, hrun, hn, hend]
  dsimp only
  rw [hnone]
  rfl

/-- Quads given back, the context stands at the back of its partition's order (R144). -/
theorem giveBack_enqueued (hh : (s.hartAt n).holding = true) (hn : (s.hartAt n).needsReserved = none) :
    (((s.giveBack n .runnable).enqueue n).partAt (s.hartAt n).part).order =
      (s.partAt (s.hartAt n).part).order ++ [n] ∧
    ((s.giveBack n .runnable).enqueue n).hartAt n = { (s.hartAt n).returned with
      since := (((s.giveBack n .runnable).enqueue n).hartAt n).since
      gangWait := (((s.giveBack n .runnable).enqueue n).hartAt n).gangWait } := by
  obtain ⟨-, hkeep, hdealt, hheld⟩ := giveBack_deals hh
  obtain ⟨-, hown, horder, -⟩ := enqueue_enqueued (s.giveBack n .runnable) n
  have hgave := hdealt n
  obtain ⟨hg, hr⟩ := hheld n (by rw [State.hartAt_setHartAt_same]; exact hn)
  rw [hg, hr, State.hartAt_setHartAt_same] at hgave
  rw [hgave] at horder hown
  constructor
  · refine horder.trans ?_
    rw [hkeep, partAt_setHartAt]
    rfl
  · rw [hown, ← hn]
    rfl

theorem preempts (hasked : (s.hartAt n).asked = true) (hrun : (s.hartAt n).status = .running)
    (hn : (s.hartAt n).needsReserved = none) (hend : (s.hartAt n).ending = false) (hb : (s.hartAt n).between)
    (hz : ∀ z : ZIx, ((s.hartAt n).z[z.val]).sentFrom = [])
    (hdebts : ∀ d ∈ ((s.stopHart n).parkHart n).debts, d.hart ≠ n) : ∃ t, exec (.preEmption n) s = .next t ∧
      (t.partAt (s.hartAt n).part).order = (s.partAt (s.hartAt n).part).order ++ [n] ∧
      t.hartAt n = { s.hartAt n with
        status := .runnable, grant := 0, owed := (quadList (s.hartAt n).grant).length, preempted := true, asked := false
        resumeNext := false, early := [], queue := (s.hartAt n).queue.map (fun b => { b with checked := false })
        owedX := (s.hartAt n).pending.map (·.1), since := (t.hartAt n).since, gangWait := (t.hartAt n).gangWait
        z := (t.hartAt n).z, events := (t.hartAt n).events, lost := (t.hartAt n).lost
        ctlStall := (t.hartAt n).ctlStall, seqStall := (t.hartAt n).seqStall } := by
  obtain ⟨gang, hpreempt⟩ := preempt_eq hasked hrun hn hend hdebts
  have hexec : exec (.preEmption n) s = .next ((s.preempt n).getD s) := rfl
  rw [hpreempt, Option.getD_some] at hexec
  have hparks := (stopHart_parks hb hz).trans (parkHart_parks (s.stopHart n) n)
  have hparked := hparks.harts n
  have horder := hparks.order (s.hartAt n).part
  rw [hartAt_acted, if_pos rfl] at hparked
  rw [acted_frame] at horder
  generalize (s.stopHart n).parkHart n = p at hexec hparked horder
  have hsaved := State.hartAt_setHartAt_same p n ((p.hartAt n).saved gang)
  have hparts := partAt_setHartAt p n (s.hartAt n).part ((p.hartAt n).saved gang)
  generalize p.setHartAt n ((p.hartAt n).saved gang) = m at hexec hsaved hparts
  rw [hparked] at hsaved
  obtain ⟨hback, hown⟩ := giveBack_enqueued (s := m) (n := n)
    (by rw [hsaved]; simp [Hart.saved, Hart.settled, Hart.holding, hrun, hn]) (by rw [hsaved]; exact hn)
  refine ⟨_, hexec, ?_, ?_⟩
  · rw [hsaved] at hback
    refine hback.trans ?_
    exact congrArg (· ++ [n]) ((congrArg Part.order hparts).trans horder)
  · rw [hsaved] at hown
    rw [hown]
    rfl

theorem exec_hartDispatch (h : s.mayResume n = true) (hp : (s.hartAt n).preempted = false) :
    exec (.hartDispatch n) s = .next (s.regrant n) := by
  show Host.Outcome.next (if s.mayResume n && !(s.hartAt n).preempted then s.regrant n else s) = _
  rw [h, hp]
  rfl

theorem Dispatches.onlyScheduler {pc : Word} {c : Nat} (h : Dispatches s n pc c t) : Claims.OnlyScheduler s t := by
  rw [Claims.OnlyScheduler, h.frame]

theorem told_of_notMem (h : n ∉ s.rereads) : s.told n = s := by
  have hfilter : s.rereads.filter (· != n) = s.rereads := by
    rw [List.filter_eq_self]
    intro i hi
    have hne : i ≠ n := fun he => h (he ▸ hi)
    simpa using hne
  rw [State.told, hfilter]

/-- A hart that sleeps and need not be read for does not wake. -/
theorem wakes_of_notMem (h : n ∉ s.rereads) : s.wakes n = none := by
  have hc : s.rereads.contains n = false := by simpa using h
  rw [State.wakes, hc]
  simp

/-- Settles O42. -/
theorem contextsWakeAndResume : Obligations.ContextsWakeAndResume := by
  intro s h v order word granted told
  refine ⟨fun hs => ⟨fun hn => ?_, fun pas hn hacc => ⟨fun hw => ?_, fun hw => ?_⟩, fun e hn hacc => ?_⟩,
    fun hm hp hn hd => ?_, fun hasked hrun hn hend hvq hz hb hdebts => ?_, fun hp hnext hn hm => ?_⟩
  · rw [exec_wakeRead, wakes_of_notMem hn, told_of_notMem hn]
  · have hwakes : s.wakes h = none := by
      rw [wakes_eq hs hn, hacc]
      exact if_pos hw
    rw [exec_wakeRead, hwakes]
    rfl
  · have hwakes : s.wakes h = some true := by
      rw [wakes_eq hs hn, hacc]
      exact if_neg hw
    rw [exec_wakeRead, hwakes]
    have hw := setHartAt_enqueued (s.told h) h { s.hartAt h with status := .runnable, resumeNext := true }
    exact ⟨_, rfl, hw.onlyScheduler, hw.own, hw.order, hw.others⟩
  · have hwakes : s.wakes h = some false := by rw [wakes_eq hs hn, hacc]
    rw [exec_wakeRead, hwakes]
    have hw := setHartAt_enqueued (s.told h) h { s.hartAt h with status := .runnable, resumeNext := false }
    exact ⟨_, rfl, hw.onlyScheduler, hw.own, hw.order⟩
  · obtain ⟨hframe, hown, horder, hothers⟩ := regrant_dispatches hn fun _ => hd
    exact ⟨_, exec_hartDispatch hm hp, Dispatches.onlyScheduler ⟨hframe, hown, horder, hothers⟩, hown, horder,
      hothers⟩
  · obtain ⟨t, hexec, horder, hown⟩ := preempts hasked hrun hn hend ⟨hvq, hb⟩ hz hdebts
    exact ⟨t, hexec, horder, hown⟩
  · obtain ⟨t, hexec, horder, hown⟩ := restores hm hp hn hnext
    exact ⟨t, hexec, horder, hown⟩

end Sys2Proof.Machine
end

