-- ==== Sys2Proof/Proofs/Partitions.lean ====
section
/-!
Partition records, fields, pages and the end of a partition (R36, R45, R108, R115, R140, R160, R206, R384, R385): which
record is refused and why, what dealing quads and walking tables anew leave of the partitions, and the steps of the host
driver read through both.
-/

namespace Sys2Proof.Machine

set_option Elab.async false

variable {s t u : State} {p : Nat}

/- Records refused. -/

theorem mem_flag {c : Bool} {off x : Nat} : x ∈ (if c then [off] else []) ↔ x = off ∧ c = true := by
  cases c
  · simp only [Bool.false_eq_true, if_false, List.not_mem_nil, and_false]
  · simp only [if_true, List.mem_singleton, and_true]

theorem flags_eq (c : Nat → Bool) (off : Nat) (l : List Nat) :
    l.flatMap (fun i => if c i then [off + i] else []) = (l.filter c).map (off + ·) := by
  induction l with
  | nil => rfl
  | cons i l ih => rw [List.flatMap_cons, ih, List.filter_cons]; cases c i <;> rfl

theorem mem_flags {c : Nat → Bool} {off n x : Nat} :
    x ∈ (List.range n).flatMap (fun i => if c i then [off + i] else []) ↔ ∃ i < n, x = off + i ∧ c i = true := by
  simp only [List.mem_flatMap, List.mem_range, mem_flag]

theorem mem_reserved {zs : List Byte} {off x : Nat} :
    x ∈ ((zs.drop 1).zipIdx.filter (fun e => e.1 != 0)).map (fun e => off + e.2) ↔
      ∃ j, x = off + j ∧ zs.getD (1 + j) 0 ≠ 0 := by
  simp only [List.mem_map, List.mem_filter, Prod.exists, List.mem_zipIdx_iff_getElem?, List.getElem?_drop, bne_iff_ne,
    List.getD_eq_getElem?_getD]
  constructor
  · rintro ⟨b, j, ⟨hb, hne⟩, rfl⟩
    exact ⟨j, rfl, by rw [hb]; exact hne⟩
  · rintro ⟨j, rfl, hne⟩
    cases hb : zs[1 + j]? with
    | none => rw [hb] at hne; exact absurd rfl hne
    | some b => rw [hb] at hne; exact ⟨b, j, ⟨hb, hne⟩, rfl⟩

theorem mem_recordRange {r : PartRec} {sup : Bool} {off : Nat} :
    off ∈ recordRange r sup s.caps.harts s.caps.steads ↔ Claims.outOfRange s r sup off := by
  have hmax (a b c : Nat) : a < max b c ↔ a < b ∨ a < c := lt_max_iff
  rw [recordRange, Claims.outOfRange]
  cases sup
  case true =>
    simp only [if_true, List.mem_append, mem_flag, or_assoc]
    simp only [Bool.or_eq_true, decide_eq_true_eq, bne_iff_ne, ne_eq, Nat.reduceShiftLeft, Nat.reducePow]
  case false =>
    simp only [Bool.false_eq_true, if_false, List.mem_append, mem_flag, mem_flags, mem_reserved, or_assoc]
    simp only [Bool.or_eq_true, decide_eq_true_eq, bne_iff_ne, beq_iff_eq, ne_eq, Nat.reduceShiftLeft, Nat.reducePow, hmax,
      or_assoc, Nat.lt_one_iff]
    simp only [Nat.lt_iff_add_one_le, Nat.reduceAdd]

/-- Offsets that ascend from lo and stay below hi. -/
structure Ascends (lo hi : Nat) (l : List Nat) : Prop where
  sorted : l.Pairwise (· < ·)
  bounds : ∀ x ∈ l, lo ≤ x ∧ x < hi

theorem Ascends.append {lo mid hi : Nat} {l l' : List Nat} (h : Ascends lo mid l)
    (h' : Ascends mid hi l') (hlo : lo ≤ mid := by decide) (hhi : mid ≤ hi := by decide) : Ascends lo hi (l ++ l') := by
  refine ⟨List.pairwise_append.mpr ⟨h.sorted, h'.sorted, fun x hx y hy => ?_⟩, fun x hx => ?_⟩
  · exact Nat.lt_of_lt_of_le (h.bounds x hx).2 (h'.bounds y hy).1
  · rcases List.mem_append.mp hx with hx | hx
    · exact ⟨(h.bounds x hx).1, Nat.lt_of_lt_of_le (h.bounds x hx).2 hhi⟩
    · exact ⟨Nat.le_trans hlo (h'.bounds x hx).1, (h'.bounds x hx).2⟩

theorem flag_ascends (c : Bool) {off lo hi : Nat} (hlo : lo ≤ off := by decide) (hhi : off < hi := by decide) :
    Ascends lo hi (if c then [off] else []) := by
  refine ⟨?_, fun x hx => ?_⟩
  · cases c
    · exact .nil
    · exact List.pairwise_singleton ..
  · rw [(mem_flag.mp hx).1]
    exact ⟨hlo, hhi⟩

theorem sublist_ascends {off n hi : Nat} {l : List Nat} (h : l.Sublist ((List.range n).map (off + ·)))
    (hhi : off + n ≤ hi) : Ascends off hi l := by
  refine ⟨.sublist h (List.pairwise_map.mpr (List.pairwise_lt_range.imp fun h => Nat.add_lt_add_left h off)),
    fun x hx => ?_⟩
  obtain ⟨i, hi, rfl⟩ := List.mem_map.mp (h.subset hx)
  have := List.mem_range.mp hi
  exact ⟨Nat.le_add_right .., by omega⟩

theorem flags_ascends (c : Nat → Bool) {off n hi : Nat} (h : off + n ≤ hi) :
    Ascends off hi ((List.range n).flatMap (fun i => if c i then [off + i] else [])) :=
  sublist_ascends (n := n) (by rw [flags_eq]; exact List.filter_sublist.map _) h

theorem reserved_ascends (zs : List Byte) (off : Nat) :
    Ascends off (off + zs.length) ((zs.zipIdx.filter (fun e => e.1 != 0)).map (fun e => off + e.2)) := by
  refine sublist_ascends (n := zs.length) ?_ (Nat.le_refl _)
  rw [List.range_eq_range', ← List.zipIdx_map_snd 0 zs, List.map_map]
  exact List.filter_sublist.map _

theorem recordRange_sorted (r : PartRec) (sup : Bool) (harts : Nat) {steads : Nat} (h : steads ≤ 12) :
    (recordRange r sup harts steads).Pairwise (· < ·) := by
  rw [recordRange]
  cases sup
  case true =>
    exact Ascends.sorted (lo := 0) (hi := 17)
      (.append (mid := 16) (.append (mid := 8) (flag_ascends _) (flag_ascends _)) (flag_ascends _))
  case false =>
    refine (Ascends.append (lo := 17) (mid := 72) ?_ (reserved_ascends ..) (by decide) (Nat.le_add_right ..)).sorted
    refine .append (mid := 60) (.append (mid := 48) (.append (mid := 36) ?_ (flags_ascends _ ?_)) (flags_ascends _ ?_))
      (flags_ascends _ ?_)
    · exact .append (mid := 34) (.append (mid := 32) (.append (mid := 28) (.append (mid := 24) (.append (mid := 22)
        (.append (mid := 20) (.append (mid := 18) (flag_ascends _) (flag_ascends _)) (flag_ascends _)) (flag_ascends _))
        (flag_ascends _)) (flag_ascends _)) (flag_ascends _)) (flag_ascends _)
    · omega
    · omega
    · omega

theorem head?_eq_some_iff_least {l : List Nat} (h : l.Pairwise (· < ·)) {o : Nat} :
    l.head? = some o ↔ o ∈ l ∧ ∀ x < o, x ∉ l := by
  cases l with
  | nil => simp
  | cons a l =>
    have ha := (List.pairwise_cons.mp h).1
    constructor
    · rintro ⟨⟩
      exact ⟨List.mem_cons_self, fun x hx hm => by
        rcases List.mem_cons.mp hm with rfl | hm
        · exact absurd hx (Nat.lt_irrefl _)
        · exact absurd (ha x hm) (Nat.lt_asymm hx)⟩
    · rintro ⟨hm, hleast⟩
      rcases List.mem_cons.mp hm with rfl | hm
      · rfl
      · exact absurd List.mem_cons_self (hleast a (ha o hm))

theorem recordRange_value (hsteads : s.caps.steads ≤ 12) (r : PartRec) (sup : Bool) (why : Nat) :
    ((recordRange r sup s.caps.harts s.caps.steads).head?.map (fun off => 4 + off <<< 8)) = some why ↔
      ∃ off, Claims.outOfRange s r sup off ∧ (∀ o < off, ¬ Claims.outOfRange s r sup o) ∧ why = 4 + 256 * off := by
  simp only [Option.map_eq_some_iff, head?_eq_some_iff_least (recordRange_sorted r sup _ hsteads), mem_recordRange,
    and_assoc, Nat.shiftLeft_eq, Nat.mul_comm, eq_comm (b := why), Nat.reducePow]

/-- A quantity of a record with the same of every other partition's. -/
def State.sumWith (s : State) (vf : Nat) (r : PartRec) (f : PartRec → Nat) : Nat :=
  f r + ((s.partIds.filter (· != vf)).map (fun q => f (s.partAt q).record)).sum

theorem recordRefusal_host (vf : Nat) (r : PartRec) : s.recordRefusal vf r false =
    match (List.range s.caps.steads).find? (fun st => decide (64 < s.sumWith vf r (fun x => x.qfloor.getD st 0))) with
    | some st => some (1 + st <<< 8)
    | none =>
      if s.caps.harts < s.sumWith vf r (·.hfloor) then some 2
      else if s.caps.harts < r.hceil then some 3
      else (recordRange r false s.caps.harts s.caps.steads).head?.map (fun off => 4 + off <<< 8) := rfl

/-- The quad floors of a stead exceed its quads with the record (R140). -/
def State.Overfull (s : State) (vf : Nat) (r : PartRec) (st : Nat) : Prop :=
  st < s.caps.steads ∧ 64 < s.sumWith vf r (fun x => x.qfloor.getD st 0)

theorem refuses_host (vf : Nat) (r : PartRec) (why : Nat) : Claims.Refuses s vf r false why ↔
    (∃ st, s.Overfull vf r st ∧ (∀ i < st, ¬ s.Overfull vf r i) ∧ why = 1 + 256 * st) ∨
      (∀ st, ¬ s.Overfull vf r st) ∧ ((s.caps.harts < s.sumWith vf r (·.hfloor) ∧ why = 2) ∨
        (¬ s.caps.harts < s.sumWith vf r (·.hfloor) ∧ s.caps.harts < r.hceil ∧ why = 3) ∨
        ∃ off, ¬ s.caps.harts < s.sumWith vf r (·.hfloor) ∧ ¬ s.caps.harts < r.hceil ∧
          Claims.outOfRange s r false off ∧
          (∀ o < off, ¬ Claims.outOfRange s r false o) ∧ why = 4 + 256 * off) := by
  simp only [Claims.Refuses, State.Overfull, State.sumWith, true_and]

theorem find?_overfull_some {vf : Nat} {r : PartRec} {st : Nat} : (List.range s.caps.steads).find?
    (fun st => decide (64 < s.sumWith vf r (fun x => x.qfloor.getD st 0))) = some st ↔
      s.Overfull vf r st ∧ ∀ i < st, ¬ s.Overfull vf r i := by
  simp only [List.find?_range_eq_some, decide_eq_true_eq, List.mem_range, Bool.not_eq_true', decide_eq_false_iff_not,
    State.Overfull]
  exact ⟨fun ⟨h, hlt, hmin⟩ => ⟨⟨hlt, h⟩, fun i hi hi' => hmin i hi hi'.2⟩,
    fun ⟨⟨hlt, h⟩, hmin⟩ => ⟨h, hlt, fun i hi h' => hmin i hi ⟨Nat.lt_trans hi hlt, h'⟩⟩⟩

theorem find?_overfull_none {vf : Nat} {r : PartRec} : (List.range s.caps.steads).find?
    (fun st => decide (64 < s.sumWith vf r (fun x => x.qfloor.getD st 0))) = none ↔ ∀ st, ¬ s.Overfull vf r st := by
  simp only [List.find?_eq_none, decide_eq_true_eq, List.mem_range, State.Overfull, not_and]

theorem recordRefusal_iff (hsteads : s.caps.steads ≤ 12) (vf : Nat) (r : PartRec) (sup : Bool) (why : Nat) :
    s.recordRefusal vf r sup = some why ↔ Claims.Refuses s vf r sup why := by
  cases sup
  case true =>
    rw [State.recordRefusal, if_pos rfl, recordRange_value hsteads]
    simp only [Claims.Refuses, Bool.true_eq_false, false_and, exists_false, not_false_iff, implies_true, true_and, false_or]
  case false =>
    rw [recordRefusal_host, refuses_host]
    split
    next st e =>
      obtain ⟨hst, hmin⟩ := find?_overfull_some.mp e
      rw [Option.some_inj, Nat.shiftLeft_eq, Nat.mul_comm]
      refine ⟨fun h => .inl ⟨st, hst, hmin, h.symm⟩, ?_⟩
      rintro (⟨st', hst', hmin', rfl⟩ | ⟨hno, -⟩)
      · rw [show st = st' from Nat.le_antisymm (Nat.le_of_not_lt fun h => hmin _ h hst')
          (Nat.le_of_not_lt fun h => hmin' _ h hst)]
      · exact absurd hst (hno st)
    next e =>
      have hno := find?_overfull_none.mp e
      rw [or_iff_right (fun ⟨st, hst, _⟩ => hno st hst), and_iff_right hno]
      split
      next h => simp [h, eq_comm]
      next h =>
        split
        next h' => simp [h, h', eq_comm]
        next h' => rw [recordRange_value hsteads]; simp [h, h']

/- Records taken. -/

/-- Quads are dealt, and of the partitions no more than budgets differ. -/
structure Rations (s t : State) : Prop where
  deals : Deals s t
  kept : ∀ q, t.partAt q = { s.partAt q with budget := (t.partAt q).budget }

theorem Rations.trans (h : Rations s t) (h' : Rations t u) : Rations s u :=
  ⟨h.deals.trans h'.deals, fun q => by rw [h'.kept, h.kept]⟩

theorem foldl_rations {α : Type} {f : State → α → State} (hf : ∀ t a, Rations t (f t a)) (l : List α) (s : State) :
    Rations s (l.foldl f s) := by
  induction l generalizing s with
  | nil => exact ⟨.refl s, fun _ => rfl⟩
  | cons a l ih => exact (hf s a).trans (ih _)

theorem allot_parts (s : State) (st : Nat) : (s.allot st).parts = s.parts := by
  have h : Allots s (s.allot st) := (serveFree_allots ..).trans (foldl_serves wakeGang_serves _ _).allots
  rw [h]

theorem allot_rations (s : State) (st : Nat) : Rations s (s.allot st) :=
  ⟨allot_deals s st, fun q => by rw [State.partAt, allot_parts]; rfl⟩

theorem setBudget_rations (s : State) (p st b : Nat) : Rations s (s.setBudget p st b) := by
  refine Rations.trans (t := s.setPartAt p { s.partAt p with
      budget := ((List.range s.caps.steads).map (s.partAt p).budgetOn).set st b }) ⟨setPartAt_deals rfl, fun q => ?_⟩
    (allot_rations ..)
  by_cases h : q = p
  · rw [h, State.partAt_setPartAt_same]
  · rw [State.partAt_setPartAt_other h]

theorem settleBudget_rations (s : State) (p st : Nat) : Rations s (s.settleBudget p st) := by
  rw [State.settleBudget]
  exact ite_holds (P := Rations s) ⟨.refl s, fun _ => rfl⟩ (setBudget_rations ..)

theorem makeRoom_rations (s : State) (p st fuel : Nat) : Rations s (s.makeRoom p st fuel) := by
  induction fuel generalizing s with
  | zero => exact ⟨.refl s, fun _ => rfl⟩
  | succ fuel ih =>
    rw [State.makeRoom]
    split
    · exact ⟨.refl s, fun _ => rfl⟩
    · dsimp only
      split
      · exact (setBudget_rations ..).trans (ih _)
      · exact setBudget_rations ..

theorem rebudget_rations (s : State) (p : Nat) : Rations s (s.rebudget p) :=
  (foldl_rations (fun t st => (settleBudget_rations t p st).trans (makeRoom_rations ..)) _ s).trans
    (foldl_rations allot_rations _ _)

/-- Of the harts no more than the place of the word that each sleeps on differs, and nothing else. -/
structure Rewatches (s t : State) : Prop where
  frame : t = { s with hart := t.hart, others := t.others }
  slept : ∀ i, t.hartAt i = { s.hartAt i with sleepPas := (t.hartAt i).sleepPas }

theorem foldl_rewatches {α : Type} {f : State → α → State} (hf : ∀ t a, Rewatches t (f t a)) (l : List α)
    (s : State) : Rewatches s (l.foldl f s) := by
  induction l generalizing s with
  | nil => exact ⟨rfl, fun _ => rfl⟩
  | cons a l ih =>
    have h := hf s a
    have h' := ih (f s a)
    exact ⟨by rw [List.foldl_cons, h'.frame, h.frame], fun i => by rw [List.foldl_cons, h'.slept, h.slept]⟩

theorem setHartAt_rewatches (s : State) (n : Nat) (pas : List Nat) :
    Rewatches s (s.setHartAt n { s.hartAt n with sleepPas := pas }) := by
  refine ⟨setHartAt_allots .., fun i => ?_⟩
  by_cases h : i = n
  · rw [h, State.hartAt_setHartAt_same]
  · rw [State.hartAt_setHartAt_other h]

theorem rewatch_rewatches (s : State) (p : Nat) : Rewatches s (s.rewatch p) :=
  foldl_rewatches (fun _ _ => setHartAt_rewatches ..) _ s

/-- The state in which a partition has a record that is taken (R140). -/
def State.recorded (s : State) (vf : Nat) (r : PartRec) : State :=
  s.setPartAt vf { s.partAt vf with exists_ := true, record := r }

theorem exec_partitionRecordWrite {vf : Nat} {sup : Bool} (r : PartRec) (hphase : s.phase = .open_) (hvf : vf < 192)
    (hsup : sup = true → (s.partAt vf).exists_ = true) : exec (.partitionRecordWrite vf sup r) s =
    match s.recordRefusal vf r sup with
    | some value =>
      .next (s.postHost vf { kind := 4, hart := noHart, cause := 0, value := BitVec.ofNat 64 value, time := s.time })
    | none => .next (((s.recorded vf (recordMerge (s.partAt vf).record r sup)).rebudget vf).rewatch vf) := by
  refine if_neg ?_
  cases sup
  · simp [hphase, hvf]
  · simp [hphase, hvf, hsup rfl]

theorem recorded_rebudget_rewatch (vf : Nat) (r : PartRec) :
    let t := ((s.recorded vf r).rebudget vf).rewatch vf
    t = { s with parts := t.parts, hart := t.hart, others := t.others } ∧
      (∀ h, t.hartAt h = { s.hartAt h with grant := (t.hartAt h).grant, needsReserved := (t.hartAt h).needsReserved
                                           gangWait := (t.hartAt h).gangWait, sleepPas := (t.hartAt h).sleepPas }) ∧
      (t.partAt vf).exists_ = true ∧ (t.partAt vf).record = r := by
  have hration := rebudget_rations (s.recorded vf r) vf
  have hwatch := rewatch_rewatches ((s.recorded vf r).rebudget vf) vf
  have hpart : (((s.recorded vf r).rebudget vf).rewatch vf).partAt vf = ((s.recorded vf r).rebudget vf).partAt vf := by
    rw [State.partAt, hwatch.frame]
    rfl
  have hhart (h : Nat) : (s.recorded vf r).hartAt h = s.hartAt h := rfl
  refine ⟨?_, fun h => ?_, ?_, ?_⟩
  · rw [hwatch.frame, hration.deals.frame]
    rfl
  · rw [hwatch.slept, hration.deals.dealt, hhart]
  · rw [hpart, hration.kept, State.recorded, State.partAt_setPartAt_same]
  · rw [hpart, hration.kept, State.recorded, State.partAt_setPartAt_same]

theorem postHost_appends {r : HostRecord} (h : (s.partAt p).hostQueue.length < 256) :
    s.postHost p r = { s with parts := (s.postHost p r).parts } ∧
      ((s.postHost p r).partAt p).record = (s.partAt p).record ∧
      ((s.postHost p r).partAt p).hostQueue = (s.partAt p).hostQueue ++ [r] := by
  rw [State.postHost, if_pos h]
  exact ⟨rfl, by rw [State.partAt_setPartAt_same], by rw [State.partAt_setPartAt_same]⟩

theorem recordRefusal_eq_none (hsteads : s.caps.steads ≤ 12) {vf : Nat} {r : PartRec} {sup : Bool}
    (h : ∀ why, ¬ Claims.Refuses s vf r sup why) : s.recordRefusal vf r sup = none :=
  Option.eq_none_iff_forall_ne_some.mpr fun why hwhy => h why ((recordRefusal_iff hsteads ..).mp hwhy)

/- Fields created. -/

/-- The root of a field that is created, and the field with its root alone (R160). -/
def rootOf (r : FieldRec) (time : Nat) : Node :=
  { id := 0, hash := r.seed, state := .ready, npages := 0, depth := 0, parent := 0, stamp := time, plist := [], chunk := [] }

def State.newField (s : State) (p : Nat) (num : Fin 8) (r : FieldRec) : GField :=
  { tenant := (s.partAt p).record.tenant, num := num.val, part := p, record := r, nodes := [rootOf r s.time],
    pool := s.pool.take r.pages, free := List.range r.pages }

theorem fieldOk_iff (r : FieldRec) : fieldOk r = true ↔
    2 ≤ r.g ∧ r.g ≤ 8 ∧ r.home ≤ 1 ∧ 1 ≤ r.nodes ∧ r.nodes ≤ 2 ^ 20 ∧
    r.pages < 2 ^ 32 ∧ r.view.toNat % 128 = 0 ∧ r.view.toNat < 2 ^ 60 ∧ ∀ z ∈ r.zeros, z = 0 := by
  simp only [fieldOk, Bool.and_eq_true, decide_eq_true_eq, List.all_eq_true, beq_iff_eq, and_assoc, Nat.reduceShiftLeft,
    Nat.reducePow]

theorem storeBytes_eq (r : FieldRec) : storeBytes r = 128 * (r.nodes + 1) + 4 * 2 ^ r.g * r.nodes := by
  rw [storeBytes, chunkTokens, Nat.one_shiftLeft]

theorem newField_recordAt (num : Fin 8) (r : FieldRec) : (s.newField p num r).recordAt 0 =
    toBytes 8 r.seed.toNat ++ toBytes 2 (hashTag r.seed) ++ [2] ++ List.replicate 13 0 ++ toBytes 8 s.time ++
      List.replicate 96 0 := by
  have htail : List.replicate 32 (0 : Byte) ++ (List.range 16).flatMap (fun i => toBytes 4 (([] : List Nat).getD i 0)) =
      List.replicate 96 0 := rfl
  have hcounts : toBytes 1 2 ++ (toBytes 1 0 ++ (toBytes 4 0 ++ (toBytes 4 0 ++ toBytes 4 0))) =
      [(2 : Byte)] ++ List.replicate 13 0 := rfl
  rw [← htail]
  simp only [List.append_assoc]
  rw [← List.append_assoc [(2 : Byte)], ← hcounts]
  simp only [List.append_assoc]
  rfl

theorem newField_store (num : Fin 8) (r : FieldRec) :
    (s.newField p num r).recordAt 0 ++ List.replicate (storeBytes r - 128) 0 =
      toBytes 8 r.seed.toNat ++ toBytes 2 (hashTag r.seed) ++ [2] ++ List.replicate 13 0 ++ toBytes 8 s.time ++
        List.replicate (128 * (r.nodes + 1) + 4 * 2 ^ r.g * r.nodes - 32) 0 := by
  have hlength : 96 + (128 * (r.nodes + 1) + 4 * 2 ^ r.g * r.nodes - 128) =
      128 * (r.nodes + 1) + 4 * 2 ^ r.g * r.nodes - 32 := by omega
  rw [newField_recordAt, List.append_assoc, List.replicate_append_replicate, storeBytes_eq, hlength]

/-- The state in which the store of a field that is created has been written. -/
def State.rooted (s : State) (p : Nat) (num : Fin 8) (r : FieldRec) (pas : List Nat) : State :=
  s.store pas ((s.newField p num r).recordAt 0 ++ List.replicate (storeBytes r - 128) 0)

/-- The state in which the field stands, with its pages taken from the device pool. -/
def State.created (s : State) (p : Nat) (num : Fin 8) (r : FieldRec) (pas : List Nat) : State :=
  { (s.rooted p num r pas).setPartAt p { s.partAt p with pages := (s.partAt p).pages + r.pages } with
    fields := (s.rooted p num r pas).fields ++ [s.newField p num r]
    pool := (s.rooted p num r pas).pool.drop r.pages }

theorem exec_fieldCreate (num : Fin 8) (r : FieldRec) (h : s.phase = .open_) : exec (.fieldCreate p num r) s =
    if !(s.partAt p).exists_ || !fieldOk r || (s.fieldOf (s.partAt p).record.tenant num.val).isSome ||
        decide (s.pool.length < r.pages) then .next { s with refusedFields := s.refusedFields ++ [(p, num.val)] }
    else match s.viewPlaces (s.newField p num r) 0 (storeBytes r) with
      | .error e => .next ({ s with refusedFields := s.refusedFields ++ [(p, num.val)] }.tellPoison p noHart e.lines)
      | .ok pas => .next (s.created p num r pas) :=
  if_neg (not_not_intro h)

theorem exec_fieldCreate_places {num : Fin 8} {r : FieldRec} (h : s.phase = .open_) (hv : (s.partAt p).exists_ = true)
    (hok : fieldOk r = true) (hnone : s.fieldOf (s.partAt p).record.tenant num.val = none)
    (hpool : r.pages ≤ s.pool.length) : exec (.fieldCreate p num r) s =
      match s.viewPlaces (s.newField p num r) 0 (storeBytes r) with
      | .error e => .next ({ s with refusedFields := s.refusedFields ++ [(p, num.val)] }.tellPoison p noHart e.lines)
      | .ok pas => .next (s.created p num r pas) := by
  rw [exec_fieldCreate num r h, if_neg]
  simp [hv, hok, hnone, hpool]

theorem exec_fieldCreate_refused {num : Fin 8} {r : FieldRec} (h : s.phase = .open_)
    (hbad : (s.partAt p).exists_ = false ∨ ¬ fieldOk r = true ∨
      s.fieldOf (s.partAt p).record.tenant num.val ≠ none ∨ s.pool.length < r.pages) :
    exec (.fieldCreate p num r) s = .next { s with refusedFields := s.refusedFields ++ [(p, num.val)] } := by
  rw [exec_fieldCreate num r h, if_pos]
  rcases hbad with hv | hok | hsome | hpool
  · simp [hv]
  · simp [hok]
  · simp [Option.isSome_iff_ne_none.mpr hsome]
  · simp [hpool]

theorem put_eq_overlay (m : Nat → Byte) (pas : List Nat) (bs : List Byte) (a : Nat) :
    Claims.put m pas bs a = overlay pas bs m a := by
  rw [Claims.put, overlay, ← find?_zip_eq]
  cases (pas.zip bs).find? (fun e => e.1 == a) <;> rfl

theorem created_creates {num : Fin 8} {r : FieldRec} {pas : List Nat}
    (hnone : s.fieldOf (s.partAt p).record.tenant num.val = none) (hwf : Memory.wf s.mem = true) (hd : pas.Nodup) :
    let t := s.created p num r pas
    t.fieldOf (s.partAt p).record.tenant num.val = some (s.newField p num r) ∧
      (t.partAt p).pages = (s.partAt p).pages + r.pages ∧ t.pool = s.pool.drop r.pages ∧ t.hart = s.hart ∧
      ∀ x, t.byteAt x = Claims.put s.byteAt pas
        ((s.newField p num r).recordAt 0 ++ List.replicate (storeBytes r - 128) 0) x := by
  have hframe : WritesMemory s (s.rooted p num r pas) := store_writes ..
  have hbyte (x : Nat) : (s.created p num r pas).byteAt x = (s.rooted p num r pas).byteAt x := rfl
  have hpart (u : State) (v : Part) (fs : List GField) (pool : List Nat) :
      ({ u.setPartAt p v with fields := fs, pool := pool } : State).partAt p = v := u.partAt_setPartAt_same p v
  have hfields : (s.created p num r pas).fields = s.fields ++ [s.newField p num r] := by rw [State.created, hframe]
  refine ⟨?_, ?_, ?_, ?_, fun x => ?_⟩
  · rw [State.fieldOf, hfields, List.find?_append, ← State.fieldOf, hnone]
    simp [State.newField]
  · rw [State.created, hpart]
  · rw [State.created, hframe]
  · rw [State.created, hframe]; rfl
  · rw [hbyte, State.rooted, State.byteAt_store, byteAt_writeAll hd hwf, put_eq_overlay]

/- Fields removed. -/

/-- Operations answered as failed: harts and partitions differ, and no partition's pages do; some operations are gone. -/
structure FailsWork (s t : State) : Prop where
  frame : t = { s with hart := t.hart, others := t.others, parts := t.parts, ops := t.ops }
  pages : ∀ q, (t.partAt q).pages = (s.partAt q).pages

theorem FailsWork.trans (h : FailsWork s t) (h' : FailsWork t u) : FailsWork s u :=
  ⟨by rw [h'.frame, h.frame], fun q => (h'.pages q).trans (h.pages q)⟩

theorem setHartAt_fails (s : State) (n : Nat) (v : Hart) : FailsWork s (s.setHartAt n v) :=
  ⟨by rw [setHartAt_allots s n v], fun q => by rw [partAt_setHartAt]⟩

theorem setPartAt_fails {v : Part} (h : v.pages = (s.partAt p).pages) : FailsWork s (s.setPartAt p v) := by
  refine ⟨rfl, fun q => ?_⟩
  by_cases hq : q = p
  · rw [hq, State.partAt_setPartAt_same, h]
  · rw [State.partAt_setPartAt_other hq]

theorem queueEvent_fails (s : State) (n : Nat) (e : EngineEvent) : FailsWork s (s.queueEvent n e) :=
  (setHartAt_fails ..).trans (setPartAt_fails rfl)

theorem queueEvent_ops (s : State) (n : Nat) (e : EngineEvent) : (s.queueEvent n e).ops = s.ops := by
  have h : (s.queueEvent n e).ops = (s.setHartAt n ((s.hartAt n).queueEvent e)).ops := rfl
  rw [h, setHartAt_allots]

theorem failOp_fails (s : State) (o : Op) (engine code : Nat) (a : Word) : FailsWork s (s.failOp o engine code a) := by
  have hanswer : FailsWork s (s.answerHart o failedAnswer (decide ((s.hartAt o.hart).events.length < 8))) :=
    setHartAt_fails ..
  have hdrop (u : State) : FailsWork u (u.dropOp o.oid) := ⟨rfl, fun _ => rfl⟩
  exact (hanswer.trans (hdrop _)).trans (queueEvent_fails ..)

theorem failOp_ops (s : State) (o : Op) (engine code : Nat) (a : Word) :
    (s.failOp o engine code a).ops = s.ops.filter (·.oid != o.oid) := by
  rw [State.failOp, queueEvent_ops, State.dropOp, State.answerHart, setHartAt_allots]

theorem failOps_fails (l : List Op) (s : State) :
    FailsWork s (l.foldl (fun s o => s.failOp o 2 (causeCode .granary) 0) s) := by
  induction l generalizing s with
  | nil => exact ⟨rfl, fun _ => rfl⟩
  | cons o l ih => exact (failOp_fails ..).trans (ih _)

theorem failOps_ops (l : List Op) (s : State) {o : Op}
    (h : o ∈ (l.foldl (fun s o => s.failOp o 2 (causeCode .granary) 0) s).ops) :
    o ∈ s.ops ∧ ∀ x ∈ l, o.oid ≠ x.oid := by
  induction l generalizing s with
  | nil => exact ⟨h, fun x hx => by cases hx⟩
  | cons y l ih =>
    obtain ⟨ho, hl⟩ := ih _ h
    rw [failOp_ops, List.mem_filter, bne_iff_ne] at ho
    exact ⟨ho.1, List.forall_mem_cons.mpr ⟨ho.2, hl⟩⟩

theorem failFieldOps_ops {f : GField} {o : Op} (h : o ∈ (s.failFieldOps f).ops) :
    ¬ (o.tenant = f.tenant ∧ o.kind.field = some f.num) := by
  obtain ⟨ho, hne⟩ := failOps_ops _ s h
  intro ⟨ht, hn⟩
  exact hne o (List.mem_filter.mpr ⟨ho, by simp [ht, hn]⟩) rfl

/-- The state in which the bindings of a field are gone. -/
def State.unboundFrom (s : State) (f : GField) : State :=
  s.parts.foldl (fun s e => s.setPartAt e.1 { s.partAt e.1 with
    gbind := (s.partAt e.1).gbind.filter (fun b => b.2.tenant != f.tenant || b.2.field != f.num) }) s

theorem unboundFrom_fails (s : State) (f : GField) : FailsWork s (s.unboundFrom f) ∧ (s.unboundFrom f).ops = s.ops := by
  rw [State.unboundFrom]
  generalize s.parts = l
  induction l generalizing s with
  | nil => exact ⟨⟨rfl, fun _ => rfl⟩, rfl⟩
  | cons e l ih =>
    have hset : FailsWork s (s.setPartAt e.1 { s.partAt e.1 with
        gbind := (s.partAt e.1).gbind.filter (fun b => b.2.tenant != f.tenant || b.2.field != f.num) }) :=
      setPartAt_fails rfl
    exact ⟨hset.trans (ih _).1, (ih _).2⟩

theorem removeField_removes (s : State) (f : GField) :
    (s.removeField f).fieldOf f.tenant f.num = none ∧ (s.removeField f).mem = s.mem ∧
      (∀ o ∈ (s.removeField f).ops, ¬ (o.tenant = f.tenant ∧ o.kind.field = some f.num)) ∧
      ((s.removeField f).partAt f.part).pages = (s.partAt f.part).pages - f.record.pages := by
  have hfail : FailsWork s (s.failFieldOps f) := failOps_fails _ s
  obtain ⟨hbind, hops⟩ := unboundFrom_fails (s.failFieldOps f) f
  have hall := hfail.trans hbind
  have hparts : (s.removeField f).partAt f.part = { ((s.failFieldOps f).unboundFrom f).partAt f.part with
      pages := (((s.failFieldOps f).unboundFrom f).partAt f.part).pages - f.record.pages } :=
    ((s.failFieldOps f).unboundFrom f).partAt_setPartAt_same f.part _
  have hmem : (s.removeField f).mem = ((s.failFieldOps f).unboundFrom f).mem := rfl
  have hleft : (s.removeField f).ops = ((s.failFieldOps f).unboundFrom f).ops := rfl
  refine ⟨?_, ?_, fun o ho => ?_, ?_⟩
  · refine List.find?_eq_none.mpr fun g hg => ?_
    have := (List.mem_filter.mp hg).2
    rw [Bool.not_eq_true'] at this
    rw [this]
    decide
  · rw [hmem, hall.frame]
  · rw [hleft, hops] at ho
    exact failFieldOps_ops ho
  · rw [hparts]
    exact congrArg (· - f.record.pages) (hall.pages f.part)

theorem exec_fieldRemove (num : Fin 8) : exec (.fieldRemove p num) s =
    match ((s.fields.filter (fun f => f.part == p && f.num == num.val)).find? (·.tenant == s.tenantOf p)).or
      (s.fields.filter (fun f => f.part == p && f.num == num.val)).head? with
    | none => .next s
    | some f => .next (s.removeField f) := rfl

theorem exec_fieldRemove_own {num : Fin 8} {g : GField} (h : s.fieldOf (s.tenantOf p) num.val = some g)
    (hg : g.part = p) : exec (.fieldRemove p num) s = .next (s.removeField g) := by
  have hfound : (s.fields.filter (fun f => f.part == p && f.num == num.val)).find? (·.tenant == s.tenantOf p) = some g := by
    rw [List.find?_filter]
    obtain ⟨hk, before, after, hfields, hbefore⟩ := List.find?_eq_some_iff_append.mp h
    refine List.find?_eq_some_iff_append.mpr ⟨?_, before, after, hfields, fun a ha => ?_⟩
    · simp only [Bool.and_eq_true, beq_iff_eq, decide_eq_true_eq] at hk ⊢
      exact ⟨⟨hg, hk.2⟩, hk.1⟩
    · have := hbefore a ha
      simp only [Bool.not_eq_true', Bool.and_eq_false_iff, beq_eq_false_iff_ne, decide_eq_false_iff_not, Bool.and_eq_true,
        beq_iff_eq] at this ⊢
      exact fun ⟨⟨_, hnum⟩, ht⟩ => this.elim (absurd ht) (absurd hnum)
  rw [exec_fieldRemove, hfound]
  rfl

theorem exec_fieldRemove_earlier {num : Fin 8} {g : GField}
    (h : s.fields.find? (fun k => k.part == p && k.num == num.val) = some g)
    (hne : ∀ k ∈ s.fields, k.part = p → k.num = num.val → k.tenant ≠ s.tenantOf p) :
    exec (.fieldRemove p num) s = .next (s.removeField g) := by
  have hnone : (s.fields.filter (fun f => f.part == p && f.num == num.val)).find? (·.tenant == s.tenantOf p) = none := by
    refine List.find?_eq_none.mpr fun k hk => ?_
    obtain ⟨hmem, hkey⟩ := List.mem_filter.mp hk
    simp only [Bool.and_eq_true, beq_iff_eq] at hkey ⊢
    exact hne k hmem hkey.1 hkey.2
  rw [exec_fieldRemove, hnone, List.head?_filter, h]
  rfl

/- Pages. -/

/-- The state in which an invalidation has taken back what the device mapped itself, and stands while an instruction
pins its page (R108). -/
def State.invalidated (s : State) (p : Nat) (stage2 : Bool) (page : Nat) : State := { s with
  over1 := if stage2 || s.invals.contains (p, stage2, page) then s.over1
    else s.over1.filter (fun m => !(m.1 == p && m.2.1 == page))
  over2 := if stage2 && !s.invals.contains (p, stage2, page) then s.over2.filter (fun m => !(m.1 == p && m.2.1 == page))
    else s.over2
  invals := if s.pagePinned p stage2 page then s.invals.filter (· != (p, stage2, page)) ++ [(p, stage2, page)]
    else s.invals.filter (· != (p, stage2, page)) }

theorem invalidated_invals (p : Nat) (stage2 : Bool) (page : Nat) (e : Nat × Bool × Nat) :
    e ∈ (s.invalidated p stage2 page).invals ↔
      if e = (p, stage2, page) then s.pagePinned p stage2 page = true else e ∈ s.invals := by
  rw [State.invalidated]
  cases hpin : s.pagePinned p stage2 page
  · simp +contextual [List.mem_filter]
    grind
  · simp +contextual [List.mem_filter]
    grind

theorem notMem_filtered {α : Type} (l : List (Nat × Nat × α)) (p page : Nat) :
    ∀ m ∈ l.filter (fun m => !(m.1 == p && m.2.1 == page)), ¬ (m.1 = p ∧ m.2.1 = page) := by
  intro m hm ⟨h, h'⟩
  have := (List.mem_filter.mp hm).2
  simp [h, h'] at this

theorem scrubbed_frame (s : State) (page : Nat) : s.scrubbed page =
    { s with mem := (s.scrubbed page).mem, scrub := (s.scrubbed page).scrub, poisoned := (s.scrubbed page).poisoned
             healed := (s.scrubbed page).healed } := by
  rw [State.scrubbed]
  split
  · rfl
  · rfl

theorem mem_scrubbed (s : State) (page q : Nat) : q ∈ (s.scrubbed page).scrub ↔ q ∈ s.scrub ∧ q ≠ page := by
  rw [State.scrubbed]
  split
  next => simp
  next h => exact ⟨fun hq => ⟨hq, fun he => h (List.contains_iff_mem.mpr (he ▸ hq))⟩, And.left⟩

theorem scrubbed_clean {page : Nat} (h : page ∈ s.scrub) {l : Nat} (hl : l / 1024 = page) :
    (s.scrubbed page).isPoisoned l = false := by
  have hrange : l ∈ List.range' (1024 * page) 1024 := by
    rw [List.mem_range'_1]
    omega
  rw [State.scrubbed, if_pos (List.contains_iff_mem.mpr h)]
  simp only [State.isPoisoned, Bool.and_eq_false_iff, Bool.or_eq_false_iff, Bool.not_eq_false']
  refine .inr ⟨by simp [hl], ?_⟩
  by_cases hdead : s.deadGroups.isEmpty = true
  · simp [hdead]
  · by_cases hhealed : l ∈ s.healed
    · simp [hdead, hhealed]
    · simp [hdead, hhealed, List.mem_range'_1] 
      omega

theorem mem_marked (pages scrub : List Nat) (q : Nat) :
    q ∈ pages.foldl (fun l pg => if l.contains pg then l else l ++ [pg]) scrub ↔ q ∈ scrub ∨ q ∈ pages := by
  induction pages generalizing scrub with
  | nil => simp
  | cons pg pages ih =>
    rw [List.foldl_cons, ih]
    by_cases h : pg ∈ scrub
    · rw [if_pos (List.contains_iff_mem.mpr h)]
      grind
    · rw [if_neg (by simpa using h)]
      grind

theorem byteAt_vfReset (s : State) (vf : Nat) (pages : List Nat) : ∃ t, exec (.vfReset vf pages) s = .next t ∧
    t = { s with scrub := t.scrub } ∧ ∀ a, t.byteAt a = if a / 65536 ∈ pages then 0 else s.byteAt a := by
  refine ⟨_, rfl, rfl, fun a => ?_⟩
  simp only [State.byteAt, List.contains_iff_mem.trans (mem_marked ..)]
  by_cases h : a / 65536 ∈ pages
  · simp [h]
  · simp [h]

/- The end of a partition. -/

/-- Fields and partitions' queues of the host stand. -/
structure KeepsFields (s t : State) : Prop where
  fields : t.fields = s.fields
  queues : ∀ q, (t.partAt q).hostQueue = (s.partAt q).hostQueue

theorem foldl_keepsFields {α : Type} {f : State → α → State} (hf : ∀ t a, KeepsFields t (f t a)) (l : List α)
    (s : State) : KeepsFields s (l.foldl f s) := by
  induction l generalizing s with
  | nil => exact ⟨rfl, fun _ => rfl⟩
  | cons a l ih => exact ⟨(ih _).fields.trans (hf s a).fields, fun q => ((ih _).queues q).trans ((hf s a).queues q)⟩

theorem hostQueue_setPartAt {v : Part} (h : v.hostQueue = (s.partAt p).hostQueue) (q : Nat) :
    ((s.setPartAt p v).partAt q).hostQueue = (s.partAt q).hostQueue := by
  by_cases hq : q = p
  · rw [hq, State.partAt_setPartAt_same, h]
  · rw [State.partAt_setPartAt_other hq]

/-- The state in which the page that the device had mapped is back in its pool. -/
def State.returned (s : State) (p va ia : Nat) : State :=
  { s.setPartAt p { s.partAt p with pages := (s.partAt p).pages - 1 } with
    over1 := s.over1.filter (fun m => !(m.1 == p && m.2.1 == va))
    over2 := (p, ia, none) :: s.over2.filter (fun m => !(m.1 == p && m.2.1 == ia))
    pool := s.pool ++ ((s.mapped2 p (ia * 65536)).join.map (· / 65536)).toList }

theorem unmapPage_keepsFields (s : State) (p va ia : Nat) : KeepsFields s (s.unmapPage p va ia) := by
  have hwatch : Rewatches (s.returned p va ia) (s.unmapPage p va ia) := rewatch_rewatches ..
  refine ⟨by rw [hwatch.frame]; rfl, fun q => ?_⟩
  have hpart : (s.unmapPage p va ia).partAt q = (s.returned p va ia).partAt q := by rw [hwatch.frame]; rfl
  have hset : ((s.setPartAt p { s.partAt p with pages := (s.partAt p).pages - 1 }).partAt q).hostQueue =
      (s.partAt q).hostQueue :=
    hostQueue_setPartAt (v := { s.partAt p with pages := (s.partAt p).pages - 1 }) rfl q
  rw [hpart, ← hset]
  rfl

/-- A field without the pins of a partition that ends. -/
def GField.without (f : GField) (p : Nat) : GField := { f with pins := f.pins.filter (fun n => n.part != p) }

theorem unpinned_eq_without (f : GField) (p : Nat) : f.unpinned p none = f.without p := by
  have hpin : (fun n : Pin => !(n.part == p && true)) = fun n => n.part != p := by
    funext n
    rw [Bool.and_true]
    rfl
  rw [GField.unpinned, GField.without, ← hpin]

theorem without_eq_self {f : GField} (h : ∀ n ∈ f.pins, n.part ≠ p) : f.without p = f := by
  have hpins : f.pins.filter (fun n => n.part != p) = f.pins := List.filter_eq_self.mpr fun n hn => bne_iff_ne.mpr (h n hn)
  rw [GField.without, hpins]

theorem changes_self (f : GField) : f.changes f = [] := by
  simp [GField.changes]

theorem commitAnyway_self (s : State) (f : GField) : s.commitAnyway f f = s.setField f := by
  rw [State.commitAnyway, changes_self]
  rfl

theorem dropPins_eq (s : State) (p : Nat) : s.dropPins p none none =
    (s.fields.foldl (fun s f => s.commitAnyway f (f.without p)) s).setPartAt p
      { (s.fields.foldl (fun s f => s.commitAnyway f (f.without p)) s).partAt p with gbind := [] } := by
  simp only [← unpinned_eq_without]
  rfl

theorem commitUnpinned_parts (l : List GField) (h : ∀ f ∈ l, ∀ n ∈ f.pins, n.part ≠ p) (s : State) :
    (l.foldl (fun s f => s.commitAnyway f (f.without p)) s).parts = s.parts := by
  induction l generalizing s with
  | nil => rfl
  | cons f l ih =>
    obtain ⟨hf, hl⟩ := List.forall_mem_cons.mp h
    rw [List.foldl_cons, ih hl, without_eq_self hf, commitAnyway_self]
    rfl

theorem dropPins_hostQueue (h : ∀ f ∈ s.fields, ∀ n ∈ f.pins, n.part ≠ p) :
    ((s.dropPins p none none).partAt p).hostQueue = (s.partAt p).hostQueue := by
  rw [dropPins_eq, State.partAt_setPartAt_same, State.partAt, commitUnpinned_parts _ h]
  rfl

theorem postHost_fields (s : State) (p : Nat) (r : HostRecord) : (s.postHost p r).fields = s.fields :=
  ite_holds (P := fun t : State => t.fields = s.fields) rfl rfl

theorem tellFault_fields (s : State) (q h : Nat) (e : Fail) : (s.tellFault q h e).fields = s.fields := by
  have hstage : (s.tellStage2 q h e).fields = s.fields :=
    ite_holds (P := fun t : State => t.fields = s.fields) (postHost_fields ..) rfl
  rw [State.tellFault, State.tellPoison, ← hstage]
  generalize s.tellStage2 q h e = t
  generalize e.lines = l
  induction l generalizing t with
  | nil => rfl
  | cons a l ih =>
    rw [List.foldl_cons, ih]
    split
    · rfl
    · exact postHost_fields ..

theorem writeStore_fields {f : GField} {off : Nat} {bs : List Byte} (h : s.writeStore f off bs = .ok t) :
    t.fields = s.fields := by
  rw [State.writeStore] at h
  split at h
  next => cases h
  next =>
    split at h
    next => cases h; rw [store_writes]
    next => cases h

/-- Writes into a field's store, those that fail told to the host. -/
def State.writesAnyway (s : State) (g : GField) (cs : List (Nat × List Byte)) : State :=
  cs.foldl (fun s c =>
    match s.writeStore g c.1 c.2 with
    | .ok t => t
    | .error e => s.tellFault g.part noHart e.1) s

theorem writesAnyway_fields (g : GField) (cs : List (Nat × List Byte)) (s : State) :
    (s.writesAnyway g cs).fields = s.fields := by
  rw [State.writesAnyway]
  induction cs generalizing s with
  | nil => rfl
  | cons c cs ih =>
    rw [List.foldl_cons, ih]
    split
    next h => exact writeStore_fields h
    next => exact tellFault_fields ..

theorem commitAnyway_fields (s : State) (f g : GField) : (s.commitAnyway f g).fields =
    s.fields.map (fun k => if k.tenant == g.tenant && k.num == g.num then g else k) := by
  have hcommit : s.commitAnyway f g = (s.writesAnyway g (f.changes g)).setField g := rfl
  rw [hcommit, ← writesAnyway_fields g (f.changes g) s]
  rfl

theorem dropPins_fields {f : GField} (h : s.fields = [f]) : (s.dropPins p none none).fields = [f.without p] := by
  have hkey : (f.tenant == (f.without p).tenant && f.num == (f.without p).num) = true := by simp [GField.without]
  have hfold : (s.dropPins p none none).fields = (s.commitAnyway f (f.without p)).fields := by
    rw [dropPins_eq, h]
    rfl
  rw [hfold, commitAnyway_fields, h, List.map_singleton, if_pos hkey]

/-- The state without what a partition holds in the engines, the contexts and the pages. -/
def State.emptied (s : State) (p : Nat) : State :=
  (((s.partAt p).seqs.foldl (fun s q => q.pages.foldl (fun s e => s.unmapPage p e.1 e.2) s)
    (s.dropPins p none none)).dropWork p).freeContexts p

/-- The partition as its end leaves it. -/
def State.remains (s : State) (p : Nat) : Part :=
  { pages := ((s.fields.filter (·.part == p)).map (·.record.pages)).sum, hostQueue := (s.partAt p).hostQueue
    hostTail := (s.partAt p).hostTail, hostDrop := (s.partAt p).hostDrop, hostVector := (s.partAt p).hostVector }

/-- The state in which the partition has ended, before its quads are dealt. -/
def State.ended (s : State) (p : Nat) : State :=
  { s.setPartAt p (s.remains p) with
    over1 := s.over1.filter (·.1 != p), over2 := s.over2.filter (·.1 != p), exports := s.exports.filter (·.2.part != p)
    invals := s.invals.filter (·.1 != p)
    toldPoison := s.toldPoison.filter (·.1 != p) }

theorem exec_partitionEnd (h : (s.partAt p).exists_ = true) :
    exec (.partitionEnd p) s = .next ((s.emptied p).ended p).allotAll := by
  refine if_neg ?_
  rw [h]
  decide

theorem emptied_keepsFields (s : State) (p : Nat) : KeepsFields (s.dropPins p none none) (s.emptied p) := by
  have hpages := foldl_keepsFields (fun t (q : Seq) =>
    foldl_keepsFields (fun t (e : Nat × Nat) => unmapPage_keepsFields t p e.1 e.2) q.pages t) (s.partAt p).seqs
    (s.dropPins p none none)
  exact ⟨hpages.fields, hpages.queues⟩

theorem alookup_map {α β : Type} (f : α → β) (l : List (Nat × α)) (k : Nat) :
    alookup (l.map (fun e => (e.1, f e.2))) k = (alookup l k).map f := by
  induction l with
  | nil => rfl
  | cons e l ih => grind [alookup]

/-- A context once the partition's contexts are free (R45). -/
def Hart.freedFrom (h : Hart) (p : Nat) : Hart := if h.part = p && h.status != .free then Hart.reset else h

theorem hartAt_freeContexts (s : State) (p h : Nat) : (s.freeContexts p).hartAt h = (s.hartAt h).freedFrom p := by
  have hothers : (s.freeContexts p).others = s.others.map (fun e => (e.1, e.2.freedFrom p)) := rfl
  have hcur : (s.freeContexts p).cur = s.cur := rfl
  rw [State.hartAt, State.hartAt, hothers, alookup_map (Hart.freedFrom · p), hcur]
  split
  · rfl
  · cases alookup s.others h
    · exact (ite_self (c := _) _).symm
    · rfl

theorem status_freeContexts (s : State) (p h : Nat) (hp : ((s.freeContexts p).hartAt h).part = p) :
    ((s.freeContexts p).hartAt h).status = .free := by
  rw [hartAt_freeContexts, Hart.freedFrom] at hp ⊢
  split
  next => rfl
  next hfree =>
    rw [if_neg hfree] at hp
    simpa [hp] using hfree

theorem allotAll_rations (s : State) : Rations s s.allotAll := foldl_rations allot_rations _ s

theorem ended_leaves_nothing (s : State) (p : Nat) :
    let t := ((s.emptied p).ended p).allotAll
    (t.partAt p).exists_ = false ∧
      (∀ h, (t.hartAt h).part = p → (t.hartAt h).status = .free) ∧ (∀ sh ∈ t.sheaves, sh.part ≠ p) ∧
      (∀ d ∈ t.debts, d.part ≠ p) ∧ (∀ o ∈ t.ops, o.part ≠ p) ∧ (∀ g ∈ t.farms, g.part ≠ p) ∧
      (∀ j ∈ t.jobs, j.part ≠ p) ∧ (∀ m ∈ t.over1, m.1 ≠ p) ∧
      t.fields = (s.dropPins p none none).fields ∧
      (t.partAt p).pages = ((t.fields.filter (·.part == p)).map (·.record.pages)).sum ∧
      (t.partAt p).hostQueue = ((s.dropPins p none none).partAt p).hostQueue := by
  have hration := allotAll_rations ((s.emptied p).ended p)
  have hfields := emptied_keepsFields s p
  have hframe := hration.deals.frame
  have hpart : ((s.emptied p).ended p).partAt p = (s.emptied p).remains p := (s.emptied p).partAt_setPartAt_same p _
  have hleft {α : Type} {f : α → Nat} {l : List α} : ∀ x ∈ l.filter (fun x => f x != p), f x ≠ p := fun x hx =>
    bne_iff_ne.mp (List.mem_filter.mp hx).2
  refine ⟨?_, fun h hp => ?_, ?_, ?_, ?_, ?_, ?_, ?_, ?_, ?_, ?_⟩
  · rw [hration.kept, hpart]
    rfl
  · have hhart : ((s.emptied p).ended p).hartAt h = (s.emptied p).hartAt h := rfl
    have hstatus : ((s.emptied p).hartAt h).part = p → ((s.emptied p).hartAt h).status = .free :=
      status_freeContexts _ p h
    rw [hration.deals.dealt, hhart] at hp ⊢
    exact hstatus hp
  · rw [hframe]; exact hleft
  · rw [hframe]; exact hleft
  · rw [hframe]; exact hleft
  · rw [hframe]; exact hleft
  · rw [hframe]; exact hleft
  · rw [hframe]; exact hleft
  · rw [hframe]; exact hfields.fields
  · have hkept : ((s.emptied p).ended p).allotAll.fields = (s.emptied p).fields := by rw [hframe]; rfl
    rw [hration.kept, hpart, hkept]
    rfl
  · rw [hration.kept, hpart]
    exact hfields.queues p

/-- Settles O53: the record's checks name their offsets in ascending order, so that the first is the lowest; dealing
quads and walking the tables anew leave every partition's record; and what a partition holds is taken out before the
quads are dealt. -/
theorem partitionsAreWrittenAndEnded : Obligations.PartitionsAreWrittenAndEnded := by
  refine ⟨fun s vf sup r hphase hvf hsup hsteads => ⟨fun hno => ?_, fun why hwhy hroom => ?_⟩,
    fun s p num r => ⟨fun pas hphase hv hgood hnone hpool hpas hwf hd => ?_, fun hphase hbad => ?_,
      fun e hphase hv hgood hnone hpool he => ?_, fun hphase => if_pos hphase, fun g hg hgp => ?_, fun g hg hne => ?_⟩,
    fun s p tier base low hv => ?_, fun s p page st2 => ?_, fun s page vf pages hwf => ⟨?_, byteAt_vfReset s vf pages⟩,
    fun s p hv => ?_⟩
  · rw [exec_partitionRecordWrite r hphase hvf hsup, recordRefusal_eq_none hsteads hno]
    exact ⟨_, rfl, recorded_rebudget_rewatch ..⟩
  · rw [exec_partitionRecordWrite r hphase hvf hsup, (recordRefusal_iff hsteads ..).mpr hwhy]
    exact ⟨_, rfl, postHost_appends hroom⟩
  · have hplaces : s.viewPlaces (s.newField p num r) 0 (storeBytes r) = .ok pas := by rw [storeBytes_eq]; exact hpas
    rw [exec_fieldCreate_places hphase hv ((fieldOk_iff r).mpr hgood) hnone hpool, hplaces]
    refine ⟨_, rfl, ?_⟩
    have hcreated := created_creates (r := r) hnone hwf hd
    rw [newField_store] at hcreated
    exact hcreated
  · rw [← fieldOk_iff] at hbad
    exact exec_fieldCreate_refused hphase hbad
  · have hplaces : s.viewPlaces (s.newField p num r) 0 (storeBytes r) = .error e := by rw [storeBytes_eq]; exact he
    rw [exec_fieldCreate_places hphase hv ((fieldOk_iff r).mpr hgood) hnone hpool, hplaces]
    rfl
  · obtain ⟨hkey, -⟩ := List.find?_eq_some_iff_append.mp hg
    simp only [Bool.and_eq_true, beq_iff_eq] at hkey
    obtain ⟨hfield, hmem, hops, hpages⟩ := removeField_removes s g
    rw [hkey.1, hkey.2] at hfield hops
    rw [hgp] at hpages
    exact ⟨_, exec_fieldRemove_own hg hgp, hfield, hmem, hops, hpages⟩
  · obtain ⟨hkey, -⟩ := List.find?_eq_some_iff_append.mp hg
    simp only [Bool.and_eq_true, beq_iff_eq] at hkey
    obtain ⟨hfield, hmem, -, hpages⟩ := removeField_removes s g
    rw [hkey.2] at hfield
    rw [hkey.1] at hpages
    exact ⟨_, exec_fieldRemove_earlier hg hne, hfield, hmem, hpages⟩
  · refine ⟨_, if_neg (by rw [hv]; decide), rfl, alookup_ainsert_same .., fun k hk => alookup_ainsert_other hk ..⟩
  · have hwatch := rewatch_rewatches (s.invalidated p st2 page) p
    have hinvals := invalidated_invals (s := s) p st2 page
    have hover1 : ((s.invalidated p st2 page).rewatch p).over1 = (s.invalidated p st2 page).over1 := by rw [hwatch.frame]
    have hover2 : ((s.invalidated p st2 page).rewatch p).over2 = (s.invalidated p st2 page).over2 := by rw [hwatch.frame]
    have hleft : ((s.invalidated p st2 page).rewatch p).invals = (s.invalidated p st2 page).invals := by rw [hwatch.frame]
    refine ⟨(s.invalidated p st2 page).rewatch p, rfl, ?_, fun h => ?_, ?_, fun e he => ?_, fun hasked => ⟨?_, ?_⟩,
      ?_, ?_⟩
    · rw [hwatch.frame]
      rfl
    · rw [hwatch.slept]
      rfl
    · rw [hleft, hinvals, if_pos rfl]
    · rw [hleft, hinvals, if_neg he]
    · rintro rfl
      rw [hover1, State.invalidated]
      simpa [hasked] using notMem_filtered s.over1 p page
    · rintro rfl
      rw [hover2, State.invalidated]
      simpa [hasked] using notMem_filtered s.over2 p page
    · intro h
      rw [hover1, State.invalidated]
      exact if_pos (by simpa [or_comm] using h)
    · intro h
      rw [hover2, State.invalidated]
      exact if_neg (by simpa using fun h' => (h.resolve_right (by simp [h'])))
  · exact ⟨_, rfl, scrubbed_frame s page, fun a => s.byteAt_scrubbed page a hwf, mem_scrubbed s page,
      fun h => s.scrubbed_other page (by simpa using h), fun h l hl => scrubbed_clean h hl⟩
  · obtain ⟨hend, hfree, hsheaves, hdebts, hops, hfarms, hjobs, hover, hfields, hpages, hqueue⟩ :=
      ended_leaves_nothing s p
    refine ⟨_, exec_partitionEnd hv, hend, hfree, hsheaves, hdebts, hops, hfarms, hjobs, hover, hpages,
      fun h => hqueue.trans (dropPins_hostQueue h), fun f u hone _ g hg n hn => ?_⟩
    rw [hfields, dropPins_fields hone, List.mem_singleton] at hg
    subst hg
    exact bne_iff_ne.mp (List.mem_filter.mp hn).2

end Sys2Proof.Machine
end

