-- ==== Sys2Proof/Proofs/LoftBits.lean ====
section
/-!
The bits of loft lines (R87, R89, R90, R93): an element that stands ready is the bits of its place, and a store to one
changes those bits alone.
-/

namespace Sys2Proof.Machine

set_option Elab.async false

variable {s t u : State} {sh : Sheaf} {p : Place} {load : Bool}

/- Bits of lines, and how lines stand. -/

/-- Bit `b.2` of the line under key `b.1`, false where there is no line. -/
def State.loftBit (s : State) (st : Nat) (b : LineKey × Nat) : Bool :=
  (s.lineAt st b.1).elim false (fun l => l.data.getLsbD b.2)

/-- All that an access asks of a line beside its bits (R93, R99). -/
def Line.standing (l : Line) : LineStatus × List Nat × List Nat × List (Nat × Nat) :=
  (l.status, l.holders, l.expected, l.kept)

/-- The line stands ready for an access of a sheaf (R93). -/
def Line.serves (l : Line) (sh : Sheaf) (load : Bool) : Bool :=
  l.standsFor sh.sid &&
    match l.status with
    | .failed _ => false
    | .inflight => !(sh.desc.mode.fetches || (load && sh.desc.mode = .out))
    | _ => true

theorem serves_congr {l l' : Line} (h : l.standing = l'.standing) : l.serves sh load = l'.serves sh load := by
  simp only [Line.standing, Prod.mk.injEq] at h
  obtain ⟨hstatus, hholders, hexpected, -⟩ := h
  rw [Line.serves, Line.serves, Line.standsFor, Line.standsFor, hstatus, hholders, hexpected]

theorem gather_cons {ev : Word} {k : LineKey} {ks : List LineKey} {v : Nat} :
    s.gather sh load ev (k :: ks) = .ready v ↔ ∃ l rest, s.lineAt sh.stead k = some l ∧ l.serves sh load = true ∧
      s.gather sh load ev ks = .ready rest ∧ v = l.data.toNat + rest <<< 512 := by
  rw [State.gather]
  cases hl : s.lineAt sh.stead k with
  | none => simp
  | some l =>
    have hrest : (match s.gather sh load ev ks with
        | .ready rest => Found.ready (l.data.toNat + rest <<< 512)
        | f => f) = .ready v ↔ ∃ rest, s.gather sh load ev ks = .ready rest ∧ v = l.data.toNat + rest <<< 512 := by
      cases s.gather sh load ev ks <;> simp [eq_comm]
    cases hs : l.standsFor sh.sid
    · cases hst : l.status <;> simp [Line.serves, hst, hs]
    · cases hst : l.status with
      | failed c => simp [Line.serves, hst, hs]
      | zero => simp [Line.serves, hst, hs]; exact hrest
      | arrived => simp [Line.serves, hst, hs]; exact hrest
      | inflight =>
        cases hwait : sh.desc.mode.fetches || (load && decide (sh.desc.mode = .out))
        · simp [Line.serves, hst, hs, hwait]; exact hrest
        · simp [Line.serves, hst, hs, hwait]

theorem testBit_append {n : Nat} (d : BitVec n) (b i : Nat) :
    (d.toNat + b <<< n).testBit i = if i < n then d.getLsbD i else b.testBit (i - n) := by
  rw [Nat.shiftLeft_eq, Nat.mul_comm, Nat.add_comm, Nat.testBit_two_pow_mul_add _ d.isLt]
  rfl

theorem gather_bits {ev : Word} {ks : List LineKey} {v : Nat} (h : s.gather sh load ev ks = .ready v) (i : Nat) :
    v.testBit i = (ks[i / 512]?).elim false (fun k => s.loftBit sh.stead (k, i % 512)) := by
  induction ks generalizing v i with
  | nil =>
    cases h
    simp
  | cons k ks ih =>
    obtain ⟨l, rest, hl, -, hrest, hv⟩ := gather_cons.mp h
    rw [hv]
    refine (testBit_append l.data rest i).trans ?_
    split
    next hi =>
      rw [Nat.div_eq_of_lt hi, Nat.mod_eq_of_lt hi]
      simp [State.loftBit, hl]
    next hi =>
      rw [ih hrest, show i / 512 = (i - 512) / 512 + 1 by omega, show (i - 512) % 512 = i % 512 by omega]
      rfl

theorem gather_ready_congr {ev : Word} {ks : List LineKey} {v : Nat} (h : s.gather sh load ev ks = .ready v)
    (hst : ∀ k, (t.lineAt sh.stead k).map Line.standing = (s.lineAt sh.stead k).map Line.standing) :
    ∃ v', t.gather sh load ev ks = .ready v' := by
  induction ks generalizing v with
  | nil => exact ⟨0, rfl⟩
  | cons k ks ih =>
    obtain ⟨l, rest, hl, hserves, hrest, -⟩ := gather_cons.mp h
    obtain ⟨rest', hrest'⟩ := ih hrest
    have hk := hst k
    rw [hl, Option.map_some, Option.map_eq_some_iff] at hk
    obtain ⟨l', hl', hstanding⟩ := hk
    exact ⟨_, gather_cons.mpr ⟨l', rest', hl', (serves_congr hstanding).trans hserves, hrest', rfl⟩⟩

/- Places. -/

/-- The place stands in the loft. -/
def Place.inLoft (p : Place) : Prop := p ≠ .pad ∧ p ≠ .tab

/-- The first bit of a place in the first of its lines. -/
def Place.offset : Place → Nat
  | .far bit => bit % 512
  | .loc bit => bit % 512
  | .remote _ bit => bit % 512
  | _ => 0

/-- What an access that fails at the place reports. -/
def Place.report : Place → Word
  | .far bit => BitVec.ofNat 64 (bit / 8)
  | .gath bit => BitVec.ofNat 64 (bit / 8)
  | .remote e _ => BitVec.ofNat 64 e
  | _ => 0

theorem offset_lt (p : Place) : p.offset < 512 := by
  cases p <;> simp only [Place.offset] <;> omega

theorem spanLines_getElem? {bit w i : Nat} (hw : 1 ≤ w) (hw' : w ≤ 512) (hi : i < w) :
    (spanLines bit w)[(bit % 512 + i) / 512]? = some ((bit + i) / 512) := by
  rw [spanLines]
  split
  next h =>
    rw [show (bit % 512 + i) / 512 = 0 by omega, show (bit + i) / 512 = bit / 512 by omega]
    rfl
  next h =>
    by_cases hfirst : bit % 512 + i < 512
    · rw [show (bit % 512 + i) / 512 = 0 by omega, show (bit + i) / 512 = bit / 512 by omega]
      rfl
    · rw [show (bit % 512 + i) / 512 = 1 by omega, show (bit + i) / 512 = (bit + w - 1) / 512 by omega]
      rfl

theorem placeBits_getElem? (hp : p.inLoft) (hw : 1 ≤ sh.desc.fmt.width) (hw' : sh.desc.fmt.width ≤ 64)
    (i : Nat) : (Claims.placeBits sh p)[i]? = if i < sh.desc.fmt.width then
      ((sh.placeKeys p)[(p.offset + i) / 512]?).map (·, (p.offset + i) % 512) else none := by
  have hspan (key : Nat → LineKey) (bit : Nat) :
      ((List.range sh.desc.fmt.width).map (fun i => (key ((bit + i) / 512), (bit + i) % 512)))[i]? =
        if i < sh.desc.fmt.width then (((spanLines bit sh.desc.fmt.width).map key)[(bit % 512 + i) / 512]?).map
          (·, (bit % 512 + i) % 512) else none := by
    split
    next hi =>
      rw [List.getElem?_map, List.getElem?_map, spanLines_getElem? hw (by omega) hi, List.getElem?_range hi,
        Nat.mod_add_mod]
      rfl
    next hi => rw [List.getElem?_map, List.getElem?_eq_none (by simpa using hi)]; rfl
  cases p with
  | pad => exact absurd rfl hp.1
  | tab => exact absurd rfl hp.2
  | far bit => exact hspan sh.farKey bit
  | gath bit =>
    have hoffset : (Place.gath bit).offset = 0 := rfl
    rw [Claims.placeBits, Sheaf.placeKeys, hoffset]
    split
    next hi =>
      rw [List.getElem?_map, List.getElem?_range hi, Nat.zero_add, Nat.div_eq_of_lt (by omega), Nat.mod_eq_of_lt (by omega)]
      rfl
    next hi => rw [List.getElem?_map, List.getElem?_eq_none (by simpa using hi)]; rfl
  | loc bit => exact hspan (.loc sh.sid) bit
  | remote e bit => exact hspan (.remote sh.sharing e) bit

theorem farKey_inj {n m : Nat} (h : sh.farKey n = sh.farKey m) : n = m := by
  simp only [Sheaf.farKey, Nat.shiftRight_eq_div_pow, Nat.one_shiftLeft] at h
  split at h
  next => simp only [LineKey.far.injEq] at h; omega
  next =>
    split at h
    next => simp only [LineKey.fold.injEq] at h; omega
    next => simp only [LineKey.own.injEq] at h; omega

theorem placeKeys_cases (hp : p.inLoft) (hw : 1 ≤ sh.desc.fmt.width) (hw' : sh.desc.fmt.width ≤ 64) :
    (∃ k, sh.placeKeys p = [k] ∧ p.offset + sh.desc.fmt.width ≤ 512) ∨
      ∃ k k', sh.placeKeys p = [k, k'] ∧ k ≠ k' ∧ 512 < p.offset + sh.desc.fmt.width := by
  have hspan (key : Nat → LineKey) (hkey : ∀ n m, key n = key m → n = m) (bit : Nat) :
      (∃ k, (spanLines bit sh.desc.fmt.width).map key = [k] ∧ bit % 512 + sh.desc.fmt.width ≤ 512) ∨
        ∃ k k', (spanLines bit sh.desc.fmt.width).map key = [k, k'] ∧ k ≠ k' ∧
          512 < bit % 512 + sh.desc.fmt.width := by
    rw [spanLines]
    split
    next h => exact .inl ⟨_, rfl, by omega⟩
    next h => exact .inr ⟨_, _, rfl, fun he => h (hkey _ _ he), by omega⟩
  cases p with
  | pad => exact absurd rfl hp.1
  | tab => exact absurd rfl hp.2
  | far bit => exact hspan sh.farKey (fun _ _ => farKey_inj) bit
  | gath bit => exact .inl ⟨_, rfl, (Nat.zero_add _).trans_le (by omega)⟩
  | loc bit => exact hspan (.loc sh.sid) (fun _ _ h => (LineKey.loc.inj h).2) bit
  | remote e bit => exact hspan (.remote sh.sharing e) (fun _ _ h => (LineKey.remote.inj h).2.2) bit

/- Elements. -/

/-- No line of the stead shows folds of a save (R99). -/
def Unsaved (s : State) (st : Nat) : Prop := ∀ key l, s.lineAt st key = some l → l.kept = []

theorem elementAt_eq (hp : p.inLoft) (hu : Unsaved s sh.stead) : s.elementAt sh p load =
    match s.gather sh load p.report (sh.placeKeys p) with
    | .ready v => .ready (field v p.offset sh.desc.fmt.width)
    | f => f := by
  have hshown (k : Option LineKey) (off v : Nat) : s.shown sh k off v = v := by
    rw [State.shown]
    cases hl : k.bind (s.lineAt sh.stead) with
    | none => rfl
    | some l =>
      obtain ⟨key, -, hkey⟩ := Option.bind_eq_some_iff.mp hl
      have hkept := hu key l hkey
      simp [hkept, alookup]
  cases p with
  | pad => exact absurd rfl hp.1
  | tab => exact absurd rfl hp.2
  | far bit => simp only [State.elementAt, hshown, ite_self]; rfl
  | gath bit => simp only [State.elementAt, hshown, ite_self]; rfl
  | loc bit => simp only [State.elementAt, hshown, ite_self]; rfl
  | remote e bit => simp only [State.elementAt, hshown, ite_self]; rfl

theorem eq_of_low_bits {w x y : Nat} (hx : x < 2 ^ w) (hy : y < 2 ^ w) 
    (h : ∀ i < w, x.testBit i = y.testBit i) : x = y := by
  refine Nat.eq_of_testBit_eq fun i => ?_
  by_cases hi : i < w
  · exact h i hi
  · have hle : 2 ^ w ≤ 2 ^ i := Nat.pow_le_pow_right (by decide) (Nat.le_of_not_lt hi)
    rw [Nat.testBit_lt_two_pow (hx.trans_le hle), Nat.testBit_lt_two_pow (hy.trans_le hle)]

theorem field_lt (v off n : Nat) : field v off n < 2 ^ n := by
  rw [field, Nat.one_shiftLeft]
  exact Nat.mod_lt _ (Nat.two_pow_pos n)

theorem elementAt_bits {x : Nat} (hp : p.inLoft) (hu : Unsaved s sh.stead) (hw : 1 ≤ sh.desc.fmt.width)
    (hw' : sh.desc.fmt.width ≤ 64) (h : s.elementAt sh p load = .ready x) : x < 2 ^ sh.desc.fmt.width ∧
      ∀ i < sh.desc.fmt.width, ((Claims.placeBits sh p)[i]?).elim false (s.loftBit sh.stead) = x.testBit i := by
  rw [elementAt_eq hp hu] at h
  split at h
  next v hv =>
    cases h
    refine ⟨field_lt .., fun i hi => ?_⟩
    rw [testBit_field, gather_bits hv, placeBits_getElem? hp hw hw', if_pos hi, decide_eq_true hi, Bool.true_and]
    cases (sh.placeKeys p)[(p.offset + i) / 512]? <;> rfl
  next hne => exact absurd h (hne x)

/-- Lines stand alike in both states (R93). -/
def StandAlike (s t : State) (st : Nat) : Prop :=
  ∀ key, (t.lineAt st key).map Line.standing = (s.lineAt st key).map Line.standing

theorem StandAlike.unsaved {st : Nat} (h : StandAlike s t st) (hu : Unsaved s st) : Unsaved t st := by
  intro key l hl
  have hkey := h key
  rw [hl, Option.map_some, eq_comm, Option.map_eq_some_iff] at hkey
  obtain ⟨l', hl', hstanding⟩ := hkey
  simp only [Line.standing, Prod.mk.injEq] at hstanding
  rw [← hstanding.2.2.2, hu key l' hl']

theorem elementAt_ready_congr {x : Nat} (hp : p.inLoft) (hu : Unsaved s sh.stead) (hst : StandAlike s t sh.stead)
    (h : s.elementAt sh p load = .ready x) : ∃ y, t.elementAt sh p load = .ready y := by
  rw [elementAt_eq hp hu] at h
  rw [elementAt_eq hp (hst.unsaved hu)]
  split at h
  next v hv =>
    obtain ⟨v', hv'⟩ := gather_ready_congr hv hst
    exact ⟨_, by rw [hv']⟩
  next hne => exact absurd h (hne x)

/- Stores. -/

theorem lineAt_mapLine {f : Line → Line} (hstead : ∀ l, (f l).stead = l.stead) (hkey : ∀ l, (f l).key = l.key)
    (s : State) (st st' : Nat) (k k' : LineKey) : (s.mapLine st k f).lineAt st' k' =
      if st' = st ∧ k' = k then (s.lineAt st k).map f else s.lineAt st' k' := by
  have hp : ((fun l : Line => l.stead == st' && l.key == k') ∘ fun l => if l.stead == st && l.key == k then f l else l) =
      fun l => l.stead == st' && l.key == k' := by
    funext l
    simp only [Function.comp]
    split
    · rw [hstead, hkey]
    · rfl
  rw [State.lineAt, State.mapLine, List.find?_map, hp]
  split
  next h =>
    obtain ⟨rfl, rfl⟩ := h
    rw [State.lineAt]
    cases hl : s.lines.find? (fun l => l.stead == st' && l.key == k') with
    | none => rfl
    | some l => rw [Option.map_some, Option.map_some, if_pos (List.find?_some hl)]
  next h =>
    rw [State.lineAt]
    cases hl : s.lines.find? (fun l => l.stead == st' && l.key == k') with
    | none => rfl
    | some l =>
      have hfound := List.find?_some hl
      simp only [Bool.and_eq_true, beq_iff_eq] at hfound
      rw [Option.map_some, if_neg]
      rw [Bool.and_eq_true, beq_iff_eq, beq_iff_eq, hfound.1, hfound.2]
      exact h

/-- The n bits of a line from a bit on become those of v, and it stands as it stood. -/
structure WritesBits (f : Line → Line) (off n v : Nat) : Prop where
  stead : ∀ l, (f l).stead = l.stead
  key : ∀ l, (f l).key = l.key
  standing : ∀ l, l.kept = [] → (f l).standing = l.standing
  bits : ∀ l i, i < 512 → (f l).data.getLsbD i =
    if off ≤ i ∧ i < off + n then v.testBit (i - off) else l.data.getLsbD i

theorem put_writes (off n v : Nat) (fold plain : Bool) : WritesBits (·.put off n v fold plain) off n v := by
  have hput (l : Line) : ∃ d st tc, l.put off n v fold plain =
      { l with data := BitVec.ofNat 512 (putField l.data.toNat off n v), dirty := d, stored := st, touched := tc } := by
    unfold Line.put
    cases fold
    · cases plain
      · exact ⟨_, _, _, rfl⟩
      · exact ⟨_, _, _, rfl⟩
    · exact ⟨_, _, _, rfl⟩
  refine ⟨fun l => ?_, fun l => ?_, fun l _ => ?_, fun l i hi => ?_⟩
  all_goals
    obtain ⟨d, st, tc, h⟩ := hput l
    simp only [h]
  · rfl
  · rw [BitVec.getLsbD_ofNat, testBit_putField, decide_eq_true hi, Bool.true_and]
    rfl

theorem WritesBits.keep {f : Line → Line} {off n v : Nat} (h : WritesBits f off n v) (fmt : Fmt) (o x : Nat) :
    WritesBits (fun l => (f l).keep fmt o x) off n v := by
  have hkeep (l : Line) : ∃ kept, l.keep fmt o x = { l with kept := kept } := by
    unfold Line.keep
    split
    · exact ⟨_, rfl⟩
    · exact ⟨_, rfl⟩
  refine ⟨fun l => ?_, fun l => ?_, fun l hl => ?_, fun l i hi => ?_⟩
  · obtain ⟨kept, hk⟩ := hkeep (f l)
    rw [hk]
    exact h.stead l
  · obtain ⟨kept, hk⟩ := hkeep (f l)
    rw [hk]
    exact h.key l
  · have hstanding := h.standing l hl
    have hkept : (f l).kept = [] := by
      simp only [Line.standing, Prod.mk.injEq] at hstanding
      rw [hstanding.2.2.2, hl]
    have hsame : (f l).keep fmt o x = f l := by rw [Line.keep, hkept]; rfl
    rw [hsame, hstanding]
  · obtain ⟨kept, hk⟩ := hkeep (f l)
    rw [hk]
    exact h.bits l i hi

theorem loftBit_mapLine {f : Line → Line} {off n v st : Nat} {k : LineKey} (hf : WritesBits f off n v)
    (hline : (s.lineAt st k).isSome = true) {b : LineKey × Nat} (hb : b.2 < 512) : (s.mapLine st k f).loftBit st b =
      if b.1 = k ∧ off ≤ b.2 ∧ b.2 < off + n then v.testBit (b.2 - off) else s.loftBit st b := by
  obtain ⟨l, hl⟩ := Option.isSome_iff_exists.mp hline
  rw [State.loftBit, State.loftBit, lineAt_mapLine hf.stead hf.key]
  by_cases hk : b.1 = k
  · rw [if_pos ⟨rfl, hk⟩, hk, hl]
    simp [hf.bits l b.2 hb]
  · rw [if_neg fun h => hk h.2, if_neg fun h => hk h.1]

theorem mapLine_alike {f : Line → Line} {off n v st : Nat} {k : LineKey} (hf : WritesBits f off n v) (hu : Unsaved s st) :
    StandAlike s (s.mapLine st k f) st := by
  intro key
  rw [lineAt_mapLine hf.stead hf.key]
  split
  next h =>
    rw [h.2, Option.map_map]
    cases hl : s.lineAt st k with
    | none => rfl
    | some l => exact congrArg some (hf.standing l (hu k l hl))
  next => rfl

theorem StandAlike.trans {st : Nat} (h : StandAlike s t st) (h' : StandAlike t u st) : StandAlike s u st :=
  fun key => (h' key).trans (h key)

theorem StandAlike.isSome {st : Nat} (h : StandAlike s t st) (key : LineKey) :
    (t.lineAt st key).isSome = (s.lineAt st key).isSome := by
  rw [← Option.isSome_map (f := Line.standing), h key, Option.isSome_map]

/-- The bits of a place become those of v, and nothing else of the loft differs beside marks of its lines. -/
structure StoresBits (s t : State) (sh : Sheaf) (p : Place) (v : Nat) : Prop where
  alike : StandAlike s t sh.stead
  written : ∀ i < sh.desc.fmt.width, ((Claims.placeBits sh p)[i]?).elim false (t.loftBit sh.stead) = v.testBit i
  apart : ∀ b, b.2 < 512 → b ∉ Claims.placeBits sh p → t.loftBit sh.stead b = s.loftBit sh.stead b
  lines : ∀ st key, (sh.stead = st → key ∉ sh.placeKeys p) → t.lineAt st key = s.lineAt st key

theorem storesBits_one {k : LineKey} {f : Line → Line} {v : Nat} (hp : p.inLoft) (hw : 1 ≤ sh.desc.fmt.width)
    (hw' : sh.desc.fmt.width ≤ 64) (hu : Unsaved s sh.stead) (hkeys : sh.placeKeys p = [k])
    (hfits : p.offset + sh.desc.fmt.width ≤ 512) (hline : (s.lineAt sh.stead k).isSome = true)
    (hf : WritesBits f p.offset sh.desc.fmt.width v) : StoresBits s (s.mapLine sh.stead k f) sh p v := by
  have hplace (i : Nat) (hi : i < sh.desc.fmt.width) : (Claims.placeBits sh p)[i]? = some (k, p.offset + i) := by
    rw [placeBits_getElem? hp hw hw', if_pos hi, hkeys, Nat.div_eq_of_lt (by omega), Nat.mod_eq_of_lt (by omega)]
    rfl
  refine ⟨mapLine_alike hf hu, fun i hi => ?_, fun b hb hnot => ?_, fun st key hkey => ?_⟩
  · have hlt : p.offset + i < 512 := by omega
    rw [hplace i hi, Option.elim_some, loftBit_mapLine hf hline hlt, if_pos ⟨rfl, by simp, by simpa using hi⟩]
    simp
  · rw [loftBit_mapLine hf hline hb, if_neg]
    rintro ⟨hk, hlo, hhi⟩
    refine hnot (List.mem_of_getElem? (i := b.2 - p.offset) ?_)
    rw [hplace _ (by omega), ← hk, Nat.add_sub_cancel' hlo]
  · rw [lineAt_mapLine hf.stead hf.key, if_neg]
    rintro ⟨rfl, rfl⟩
    exact hkey rfl (by rw [hkeys]; exact List.mem_singleton_self _)

theorem storesBits_two {k k' : LineKey} {f g : Line → Line} {v : Nat} (hp : p.inLoft) (hw : 1 ≤ sh.desc.fmt.width)
    (hw' : sh.desc.fmt.width ≤ 64) (hu : Unsaved s sh.stead) (hkeys : sh.placeKeys p = [k, k']) (hne : k ≠ k')
    (hover : 512 < p.offset + sh.desc.fmt.width) (hline : (s.lineAt sh.stead k).isSome = true)
    (hline' : (s.lineAt sh.stead k').isSome = true) (hf : WritesBits f p.offset (512 - p.offset) (v % 2 ^ (512 - p.offset)))
    (hg : WritesBits g 0 (sh.desc.fmt.width - (512 - p.offset)) (v >>> (512 - p.offset))) :
    StoresBits s ((s.mapLine sh.stead k f).mapLine sh.stead k' g) sh p v := by
  have hoffset := offset_lt p
  have halike := mapLine_alike hf hu (k := k)
  have hline'' : ((s.mapLine sh.stead k f).lineAt sh.stead k').isSome = true := (halike.isSome k').trans hline'
  have hplace (i : Nat) (hi : i < sh.desc.fmt.width) : (Claims.placeBits sh p)[i]? =
      if p.offset + i < 512 then some (k, p.offset + i) else some (k', p.offset + i - 512) := by
    rw [placeBits_getElem? hp hw hw', if_pos hi, hkeys]
    split
    next h => rw [Nat.div_eq_of_lt h, Nat.mod_eq_of_lt h]; rfl
    next h =>
      rw [show (p.offset + i) / 512 = 1 by omega, show (p.offset + i) % 512 = p.offset + i - 512 by omega]
      rfl
  have hbit (b : LineKey × Nat) (hb : b.2 < 512) :
      ((s.mapLine sh.stead k f).mapLine sh.stead k' g).loftBit sh.stead b =
        if b.1 = k' ∧ b.2 < sh.desc.fmt.width - (512 - p.offset) then v.testBit (512 - p.offset + b.2)
        else if b.1 = k ∧ p.offset ≤ b.2 then v.testBit (b.2 - p.offset) else s.loftBit sh.stead b := by
    rw [loftBit_mapLine hg hline'' hb, loftBit_mapLine hf hline hb, Nat.testBit_shiftRight, Nat.testBit_mod_two_pow]
    have hlow : b.2 - p.offset < 512 - p.offset ∨ b.2 < p.offset := by omega
    simp only [Nat.zero_le, true_and, Nat.zero_add, Nat.sub_zero]
    split
    next => rfl
    next =>
      by_cases h : b.1 = k ∧ p.offset ≤ b.2
      · rw [if_pos ⟨h.1, h.2, by omega⟩, if_pos h, decide_eq_true (by omega), Bool.true_and]
      · rw [if_neg fun h' => h ⟨h'.1, h'.2.1⟩, if_neg h]
  refine ⟨halike.trans (mapLine_alike hg (halike.unsaved hu)), fun i hi => ?_, fun b hb hnot => ?_,
    fun st key hkey => ?_⟩
  · rw [hplace i hi]
    split
    next h =>
      rw [Option.elim_some, hbit _ h, if_neg fun h' => hne h'.1, if_pos ⟨rfl, Nat.le_add_right ..⟩,
        Nat.add_sub_cancel_left]
    next h =>
      have hlt : p.offset + i - 512 < 512 := by omega
      rw [Option.elim_some, hbit (k', p.offset + i - 512) hlt, if_pos ⟨rfl, by dsimp only; omega⟩]
      exact congrArg v.testBit (by omega)
  · rw [hbit b hb, if_neg, if_neg]
    · rintro ⟨hk, hlo⟩
      refine hnot (List.mem_of_getElem? (i := b.2 - p.offset) ?_)
      rw [hplace _ (by omega), if_pos (by omega), ← hk, Nat.add_sub_cancel' hlo]
    · rintro ⟨hk, hhi⟩
      refine hnot (List.mem_of_getElem? (i := 512 - p.offset + b.2) ?_)
      rw [hplace _ (by omega), if_neg (by omega), ← hk, show p.offset + (512 - p.offset + b.2) - 512 = b.2 by omega]
  · rw [lineAt_mapLine hg.stead hg.key, if_neg, lineAt_mapLine hf.stead hf.key, if_neg]
    · rintro ⟨rfl, rfl⟩
      exact hkey rfl (by rw [hkeys]; exact List.mem_cons_self)
    · rintro ⟨rfl, rfl⟩
      exact hkey rfl (by rw [hkeys]; exact List.mem_cons_of_mem _ (List.mem_singleton_self _))

/-- What a store leaves of the element that held `old`, as the store computes it (R89, R90). -/
theorem sheafValue_eq (d : Desc) (old x : Nat) : Claims.sheafValue d old x =
    if d.mode.folds then foldResult d.fmt old x else x % 1 <<< d.fmt.width := by
  simp only [Claims.sheafValue, Mode.folds, foldResult, Bool.or_eq_true, decide_eq_true_eq, Nat.one_shiftLeft]

/-- A store to a place of the loft whose element holds `old`. -/
def State.storeBits (s : State) (sh : Sheaf) (p : Place) (old x : Nat) (each : Bool) : State :=
  let f := sh.desc.fmt
  let v := Claims.sheafValue sh.desc old x
  match sh.placeKeys p with
  | [k] =>
    if sh.desc.mode.folds then
      s.mapLine sh.stead k (fun l => (l.put p.offset f.width v true false).keep f p.offset x)
    else s.mapLine sh.stead k (·.put p.offset f.width v each (sh.desc.mode = .loc))
  | [k, k'] =>
    (s.mapLine sh.stead k (·.put p.offset (min f.width (512 - p.offset)) (v % 1 <<< min f.width (512 - p.offset)) false
      (sh.desc.mode = .loc))).mapLine sh.stead k' (·.put 0 (f.width - min f.width (512 - p.offset))
        (v >>> min f.width (512 - p.offset)) false (sh.desc.mode = .loc))
  | _ => s

theorem storeAt_eq {old : Nat} (hp : p.inLoft) (h : s.elementAt sh p false = .ready old) (x : Nat) :
    ∃ each, s.storeAt sh p x = s.storeBits sh p old x each := by
  cases p with
  | pad => exact absurd rfl hp.1
  | tab => exact absurd rfl hp.2
  | far bit => exact ⟨false, by simp only [State.storeAt, State.storeBits, h, sheafValue_eq]; rfl⟩
  | gath bit => exact ⟨true, by simp only [State.storeAt, State.storeBits, h, sheafValue_eq]; rfl⟩
  | loc bit => exact ⟨false, by simp only [State.storeAt, State.storeBits, h, sheafValue_eq]; rfl⟩
  | remote e bit => exact ⟨false, by simp only [State.storeAt, State.storeBits, h, sheafValue_eq]; rfl⟩

theorem lineAt_of_gather {ev : Word} {ks : List LineKey} {v : Nat} (h : s.gather sh load ev ks = .ready v) :
    ∀ k ∈ ks, (s.lineAt sh.stead k).isSome = true := by
  induction ks generalizing v with
  | nil => exact fun k hk => by cases hk
  | cons k ks ih =>
    obtain ⟨l, rest, hl, -, hrest, -⟩ := gather_cons.mp h
    exact List.forall_mem_cons.mpr ⟨by rw [hl]; rfl, ih hrest⟩

theorem storeAt_stores {old : Nat} (hp : p.inLoft) (hw : 1 ≤ sh.desc.fmt.width) (hw' : sh.desc.fmt.width ≤ 64)
    (hu : Unsaved s sh.stead) (h : s.elementAt sh p false = .ready old) (x : Nat) :
    StoresBits s (s.storeAt sh p x) sh p (Claims.sheafValue sh.desc old x) := by
  obtain ⟨each, hstore⟩ := storeAt_eq hp h x
  have hlines : ∀ k ∈ sh.placeKeys p, (s.lineAt sh.stead k).isSome = true := by
    rw [elementAt_eq hp hu] at h
    split at h
    next v hv => exact lineAt_of_gather hv
    next hne => exact absurd h (hne old)
  rw [hstore, State.storeBits]
  rcases placeKeys_cases hp hw hw' with ⟨k, hkeys, hfits⟩ | ⟨k, k', hkeys, hne, hover⟩
  · rw [hkeys] at hlines
    have hline := hlines k (List.mem_singleton_self k)
    simp only [hkeys]
    split
    · exact storesBits_one hp hw hw' hu hkeys hfits hline ((put_writes ..).keep ..)
    · exact storesBits_one hp hw hw' hu hkeys hfits hline (put_writes ..)
  · rw [hkeys] at hlines
    have hline := hlines k List.mem_cons_self
    have hline' := hlines k' (List.mem_cons_of_mem _ (List.mem_singleton_self k'))
    have hhead : min sh.desc.fmt.width (512 - p.offset) = 512 - p.offset := by omega
    simp only [hkeys, hhead, Nat.one_shiftLeft]
    exact storesBits_two hp hw hw' hu hkeys hne hover hline hline' (put_writes ..) (put_writes ..)

/- Values stored. -/

/-- Magnitudes of a float format leave its sign bit free (R52). -/
theorem spec_fits {f : Fmt} {c : FloatSpec} (h : f.spec = some c) : c.maxMag < 2 ^ (f.width - 1) ∧
    (∀ i ∈ c.inf, i < 2 ^ (f.width - 1)) ∧ (∀ n ∈ c.nan, n < 2 ^ (f.width - 1)) ∧
    2 ^ (f.width - 1) * 2 = 2 ^ f.width := by
  cases f <;> cases h <;> decide

theorem withSign_lt {c : FloatSpec} {w mag : Nat} (hw : 2 ^ (w - 1) * 2 = 2 ^ w) (h : mag < 2 ^ (w - 1)) (neg : Bool) :
    withSign c w neg mag < 2 ^ w := by
  rw [withSign, Nat.one_shiftLeft]
  split
  · omega
  · omega

theorem overflowMag_lt {f : Fmt} {c : FloatSpec} (h : f.spec = some c) (r : Rounding) (neg : Bool) :
    (overflowMag c r neg).1 < 2 ^ (f.width - 1) := by
  obtain ⟨hmax, hinf, hnan, -⟩ := spec_fits h
  rw [overflowMag]
  split
  · exact hmax
  · split
    next i hi =>
      dsimp only
      split
      · exact hinf i hi
      · exact hmax
    next n _ hn => exact hnan n hn
    next => exact hmax

theorem placeFloat_lt {f : Fmt} {c : FloatSpec} (h : f.spec = some c) (r : Rounding) (v : Val) :
    (placeFloat c f.width r v).1 < 2 ^ f.width := by
  obtain ⟨hmax, hinf, hnan, hw⟩ := spec_fits h
  have hpos := Nat.two_pow_pos f.width
  have hlow {n : Nat} (hn : n < 2 ^ (f.width - 1)) : n < 2 ^ f.width := by omega
  cases v with
  | nan sig =>
    rw [placeFloat]
    split
    next n hn => exact hlow (hnan n hn)
    next => exact hpos
  | inf neg =>
    rw [placeFloat]
    split
    next i hi => exact withSign_lt hw (hinf i hi) neg
    next =>
      split
      · exact withSign_lt hw hmax neg
      · split
        next n hn => exact hlow (hnan n hn)
        next => exact withSign_lt hw hmax neg
  | num neg m d =>
    rw [placeFloat]
    split
    · exact withSign_lt hw (Nat.two_pow_pos _) neg
    · exact iteInduction (motive := fun x : Nat × Flags => x.1 < 2 ^ f.width)
        (fun _ => withSign_lt hw (Nat.two_pow_pos _) neg)
        (fun _ => iteInduction (motive := fun x : Nat × Flags => x.1 < 2 ^ f.width)
          (fun _ => withSign_lt hw (overflowMag_lt h r neg) neg)
          (fun hle => withSign_lt hw (Nat.lt_of_le_of_lt (Nat.le_of_not_lt hle) hmax) neg))

theorem wrapBits_lt (w : Nat) (x : Int) : wrapBits w x < 2 ^ w := by
  rw [wrapBits, Nat.one_shiftLeft]
  have hpos : (0 : Int) < ((2 ^ w : Nat) : Int) := Int.natCast_pos.mpr (Nat.two_pow_pos w)
  have := Int.emod_lt_of_pos x hpos
  have := Int.emod_nonneg x (Int.ne_of_gt hpos)
  omega

theorem placeInt_lt (f : Fmt) (r : Rounding) (v : Val) : (placeInt f r v).1 < 2 ^ f.width := by
  have hpos := Nat.two_pow_pos f.width
  have hout (b : Bool) (fl : Flags) : (if r.sat then (wrapBits f.width (if b then f.range.1 else f.range.2), flSAT ||| fl)
      else if f.signed then (wrapBits f.width f.range.1, flNV ||| fl)
      else (if b then 0 else wrapBits f.width f.range.2, flNV ||| fl)).1 < 2 ^ f.width := by
    split
    · exact wrapBits_lt ..
    · split
      · exact wrapBits_lt ..
      · exact ite_holds (P := (· < 2 ^ f.width)) hpos (wrapBits_lt ..)
  cases v with
  | nan sig => exact hpos
  | inf neg => exact hout neg flNone
  | num neg m d =>
    exact ite_holds (P := fun x : Nat × Flags => x.1 < 2 ^ f.width) (hout ..)
      (ite_holds (P := fun x : Nat × Flags => x.1 < 2 ^ f.width) (hout ..) (wrapBits_lt ..))

theorem roundRNE_lt (f : Fmt) (v : Val) : roundRNE f v < 2 ^ f.width := by
  rw [roundRNE, place]
  split
  next h => exact placeFloat_lt h _ v
  next => exact placeInt_lt ..

theorem sheafValue_lt (d : Desc) (old x : Nat) : Claims.sheafValue d old x < 2 ^ d.fmt.width := by
  rw [Claims.sheafValue]
  split
  · split
    · exact Nat.mod_lt _ (Nat.two_pow_pos _)
    · exact roundRNE_lt ..
  · exact Nat.mod_lt _ (Nat.two_pow_pos _)

/- Elements after stores. -/

theorem placeBits_lt {q : Place} (hq : q.inLoft) (hw : 1 ≤ sh.desc.fmt.width) (hw' : sh.desc.fmt.width ≤ 64)
    {b : LineKey × Nat} {i : Nat} (h : (Claims.placeBits sh q)[i]? = some b) : b.2 < 512 := by
  rw [placeBits_getElem? hq hw hw'] at h
  split at h
  · obtain ⟨key, -, rfl⟩ := Option.map_eq_some_iff.mp h
    exact Nat.mod_lt _ (by decide)
  · cases h

theorem StoresBits.element {v old : Nat} {q : Place} (h : StoresBits s t sh p v) (hv : v < 2 ^ sh.desc.fmt.width)
    (hu : Unsaved s sh.stead) (hw : 1 ≤ sh.desc.fmt.width) (hw' : sh.desc.fmt.width ≤ 64) (hq : q.inLoft)
    (hapart : p = q ∨ (Claims.placeBits sh p).Disjoint (Claims.placeBits sh q))
    (hold : s.elementAt sh q load = .ready old) : t.elementAt sh q load = .ready (if p = q then v else old) := by
  obtain ⟨y, hy⟩ := elementAt_ready_congr hq hu h.alike hold
  obtain ⟨hylt, hybits⟩ := elementAt_bits hq (h.alike.unsaved hu) hw hw' hy
  obtain ⟨hlt, hbits⟩ := elementAt_bits hq hu hw hw' hold
  rw [hy]
  refine congrArg Found.ready ?_
  split
  next heq => exact eq_of_low_bits hylt hv fun i hi => by rw [← hybits i hi, ← heq, h.written i hi]
  next hne =>
    refine eq_of_low_bits hylt hlt fun i hi => ?_
    rw [← hybits i hi, ← hbits i hi]
    cases hb : (Claims.placeBits sh q)[i]? with
    | none => rfl
    | some b => exact h.apart b (placeBits_lt hq hw hw' hb) fun hp =>
        (hapart.resolve_left hne) hp (List.mem_of_getElem? hb)

theorem elementAt_agree {x y : Nat} {load' : Bool} (hp : p.inLoft) (hu : Unsaved s sh.stead) (hw : 1 ≤ sh.desc.fmt.width)
    (hw' : sh.desc.fmt.width ≤ 64) (h : s.elementAt sh p load = .ready x)
    (h' : s.elementAt sh p load' = .ready y) : x = y := by
  obtain ⟨hx, hxbits⟩ := elementAt_bits hp hu hw hw' h
  obtain ⟨hy, hybits⟩ := elementAt_bits hp hu hw hw' h'
  exact eq_of_low_bits hx hy fun i hi => by rw [← hxbits i hi, ← hybits i hi]

theorem storeAt_frame (s : State) (sh : Sheaf) (p : Place) (x : Nat) :
    s.storeAt sh p x = { s with lines := (s.storeAt sh p x).lines } := by
  unfold State.storeAt
  dsimp only
  repeat' split
  all_goals rfl

/-- A register's elements es stored at their places, one after the other. -/
def State.storeAll (s : State) (sh : Sheaf) (place : Nat → Place) (x : Nat → Nat) (es : List Nat) : State :=
  es.foldl (fun t e => t.storeAt sh (place e) (x e)) s

theorem storeAll_frame (sh : Sheaf) (place : Nat → Place) (x : Nat → Nat) (es : List Nat) (s : State) :
    s.storeAll sh place x es = { s with lines := (s.storeAll sh place x es).lines } := by
  induction es generalizing s with
  | nil => rfl
  | cons e es ih =>
    have hstep : s.storeAll sh place x (e :: es) = (s.storeAt sh (place e) (x e)).storeAll sh place x es := rfl
    rw [hstep, ih, storeAt_frame]

/-- What the stores of es leave of the element at place q that held v. -/
def leftAt (d : Desc) (place : Nat → Place) (x : Nat → Nat) (q : Place) (es : List Nat) (v : Nat) : Nat :=
  es.foldl (fun v e => if place e = q then Claims.sheafValue d v (x e) else v) v

/-- Every element of the loft apart from the others is as the stores of es to its place leave it, and lines that none
of them meets are as they were. -/
structure StoresAll (s t : State) (sh : Sheaf) (place : Nat → Place) (x : Nat → Nat) (es : List Nat) : Prop where
  elements : ∀ (q : Place) (load : Bool) (old : Nat), q.inLoft →
    (∀ e ∈ es, place e = q ∨ (Claims.placeBits sh (place e)).Disjoint (Claims.placeBits sh q)) →
    s.elementAt sh q load = .ready old → t.elementAt sh q load = .ready (leftAt sh.desc place x q es old)
  lines : ∀ st key, (∀ e ∈ es, sh.stead = st → key ∉ sh.placeKeys (place e)) → t.lineAt st key = s.lineAt st key

theorem storeAll_stores {place : Nat → Place} {x : Nat → Nat} {es : List Nat} (hw : 1 ≤ sh.desc.fmt.width)
    (hw' : sh.desc.fmt.width ≤ 64) (hu : Unsaved s sh.stead)
    (hready : ∀ e ∈ es, ∃ y, s.elementAt sh (place e) false = .ready y) :
    StoresAll s (s.storeAll sh place x es) sh place x es := by
  induction es generalizing s with
  | nil => exact ⟨fun q load old _ _ h => h, fun _ _ _ => rfl⟩
  | cons e es ih =>
    obtain ⟨⟨y, hy⟩, hrest⟩ := List.forall_mem_cons.mp hready
    have hstep : s.storeAll sh place x (e :: es) = (s.storeAt sh (place e) (x e)).storeAll sh place x es := rfl
    by_cases hpad : place e = .pad
    · have hsame : s.storeAt sh (place e) (x e) = s := by rw [hpad]; rfl
      have hall := ih hu hrest
      rw [hstep, hsame]
      refine ⟨fun q load old hq hapart hold => ?_, fun st key hkey => hall.lines st key (List.forall_mem_cons.mp hkey).2⟩
      have hne : place e ≠ q := fun h => hq.1 (h ▸ hpad)
      have hleft : leftAt sh.desc place x q (e :: es) old = leftAt sh.desc place x q es old := by
        rw [leftAt, List.foldl_cons, if_neg hne]
        rfl
      rw [hleft]
      exact hall.elements q load old hq (List.forall_mem_cons.mp hapart).2 hold
    · have hloft : (place e).inLoft := ⟨hpad, fun h => by rw [h] at hy; cases hy⟩
      have hstore := storeAt_stores hloft hw hw' hu hy (x e)
      have hready' : ∀ e' ∈ es, ∃ y, (s.storeAt sh (place e) (x e)).elementAt sh (place e') false = .ready y := by
        intro e' he'
        obtain ⟨y', hy'⟩ := hrest e' he'
        by_cases hpad' : place e' = .pad
        · exact ⟨0, by rw [hpad']; rfl⟩
        · exact elementAt_ready_congr ⟨hpad', fun h => by rw [h] at hy'; cases hy'⟩ hu hstore.alike hy'
      have hall := ih (hstore.alike.unsaved hu) hready'
      rw [hstep]
      refine ⟨fun q load old hq hapart hold => ?_, fun st key hkey => ?_⟩
      · obtain ⟨hhead, htail⟩ := List.forall_mem_cons.mp hapart
        have helement := hstore.element (sheafValue_lt ..) hu hw hw' hq hhead hold
        rw [hall.elements q load _ hq htail helement, leftAt, leftAt, List.foldl_cons]
        by_cases heq : place e = q
        · have hstood : s.elementAt sh q false = .ready y := heq ▸ hy
          rw [if_pos heq, if_pos heq, elementAt_agree hq hu hw hw' hstood hold]
        · rw [if_neg heq, if_neg heq]
      · obtain ⟨hhead, htail⟩ := List.forall_mem_cons.mp hkey
        rw [hall.lines st key htail, hstore.lines st key hhead]

theorem elementAt_of_lines (h : t.lines = s.lines) : t.elementAt sh p load = s.elementAt sh p load := by
  have hline : t.lineAt = s.lineAt := by
    funext st key
    rw [State.lineAt, State.lineAt, h]
  have hgather : t.gather sh load = s.gather sh load := by
    funext ev ks
    induction ks with
    | nil => rfl
    | cons k ks ih => simp only [State.gather, hline, ih]
  have hshown : t.shown = s.shown := by
    funext sh k off v
    rw [State.shown, State.shown, hline]
  cases p with
  | pad => rfl
  | tab => rfl
  | far bit => simp only [State.elementAt, hgather, hshown]
  | gath bit => simp only [State.elementAt, hgather, hshown]
  | loc bit => simp only [State.elementAt, hgather, hshown]
  | remote e bit => simp only [State.elementAt, hgather, hshown]

end Sys2Proof.Machine
end

