-- ==== Sys2Proof/Proofs/SheafAccesses.lean ====
section
/-!
Sheaf accesses (R41, R74, R89 to R94, R358): the checks of their elements in order, and what a store or a fault leaves.
-/

namespace Sys2Proof.Machine

set_option Elab.async false

variable {s t u : State} {sh : Sheaf} {k : Blk}

/- Dispatch. -/

theorem withFormats_runs {α D : Type} {F : Claims.Form α D} {fs : List Fmt} {codes : Descr → List Nat} {mixed : Bool}
    {ok : Descr → List Fmt → Bool} {body : Descr → List Fmt → Out} (h : Claims.Dispatches s F fs) (hk : F.k = k)
    (hcodes : F.codes = codes (s.hart.descr k)) (hmixed : F.mixed = mixed) (hok : F.accepts fs = ok (s.hart.descr k) fs) :
    withFormats s k codes mixed ok body = body (s.hart.descr k) fs := by
  subst hk hmixed
  obtain ⟨hsane, hknown, hratio, hkinds, haccepted⟩ := h
  rw [hcodes] at hknown
  rw [hok] at haccepted
  simp [withFormats, hsane, hknown, hratio, hkinds, haccepted]

theorem vl_le (h : Hart) (k : Blk) (n : Nat) : h.vl k n ≤ n := by
  rw [Hart.vl]
  split
  · exact Nat.le_refl n
  · split
    · exact Nat.min_le_right ..
    · exact Nat.min_le_right ..

/-- The offset of an element of a sheaf access (R92). -/
def offsetOf (s : State) (F : Claims.Form Int VIx) (fs : List Fmt) (e : Nat) : Int :=
  (F.result fs (Claims.length s F fs) e).1

theorem exec_sheafLoad {i : Instr} {F : Claims.Form Int VIx} {r : HIx} {a : Bool} {fs : List Fmt}
    (hi : Claims.sheafLoads s.hart i = some (F, r, a)) (hd : Claims.Dispatches s F fs) :
    ∃ f hold, fs.getLast? = some f ∧ f.sliced = false ∧ Claims.length s F fs ≤ s.hart.lanes * f.perSlice ∧
      exec i s = sheafLoad false hold F.k F.dest r a f (Claims.length s F fs) (offsetOf s F fs) s := by
  cases i with
  | vldh k d z xo xs b =>
    cases hi
    obtain ⟨f, rfl⟩ := formats_one hd.known
    have hsliced : f.sliced = false := by simpa using hd.accepted
    refine ⟨f, false, rfl, hsliced, vl_le .., ?_⟩
    change vldhWith false _ _ _ _ _ _ s = _
    rw [vldhWith, withFormats_runs hd] <;> rfl
  | vldhx k d z xo b c =>
    cases hi
    obtain ⟨fb, f, rfl⟩ := formats_two hd.known
    have haccepts := hd.accepted
    simp only [List.getD_cons_zero, List.getD_cons_succ, Bool.and_eq_true, Bool.not_eq_true'] at haccepts
    refine ⟨f, d == b, rfl, haccepts.2, (vl_le ..).trans (Nat.min_le_right ..), ?_⟩
    change vldhxWith false _ _ _ _ _ _ s = _
    rw [vldhxWith, withFormats_runs hd] <;> rfl
  | _ => cases hi

theorem exec_sheafStore {i : Instr} {F : Claims.Form Int VIx} {r : HIx} {fs : List Fmt}
    (hi : Claims.sheafStores s.hart i = some (F, r)) (hd : Claims.Dispatches s F fs) :
    ∃ f, fs.head? = some f ∧ f.sliced = false ∧
      exec i s = sheafStore false F.k F.dest r f (Claims.length s F fs) (offsetOf s F fs) s := by
  cases i with
  | vsth k d z xo xs =>
    cases hi
    obtain ⟨f, rfl⟩ := formats_one hd.known
    have hsliced : f.sliced = false := by simpa using hd.accepted
    refine ⟨f, rfl, hsliced, ?_⟩
    change vsthWith false _ _ _ _ _ s = _
    rw [vsthWith, withFormats_runs hd] <;> rfl
  | vsthx k d z xo b =>
    cases hi
    obtain ⟨f, fb, rfl⟩ := formats_two hd.known
    have haccepts := hd.accepted
    simp only [List.getD_cons_zero, List.getD_cons_succ, Bool.and_eq_true, Bool.not_eq_true'] at haccepts
    refine ⟨f, rfl, haccepts.2, ?_⟩
    change vsthxWith false _ _ _ _ _ s = _
    rw [vsthxWith, withFormats_runs hd] <;> rfl
  | _ => cases hi

/- The checks of the elements. -/

/-- The element's offset lies in the window, and it stands ready with these bits (R93). -/
def State.Stands (s : State) (sh : Sheaf) (load : Bool) (off : Nat → Int) (x : Nat → Nat) (e : Nat) : Prop :=
  0 ≤ off e ∧ off e < sh.desc.size ∧ s.blockElem sh load (off e).toNat = .ready (x e)

/-- Elements with their offsets and bits. -/
def readied (off : Nat → Int) (x : Nat → Nat) (es : List Nat) : List (Nat × Nat × Nat) :=
  es.map (fun e => (e, (off e).toNat, x e))

variable {load : Bool} {off : Nat → Int} {x : Nat → Nat}

theorem readyElems_of_stands {es : List Nat} (h : ∀ e ∈ es, s.Stands sh load off x e) :
    s.readyElems sh load off es = (readied off x es, none) := by
  induction es with
  | nil => rfl
  | cons e es ih =>
    obtain ⟨⟨-, -, hready⟩, hrest⟩ := List.forall_mem_cons.mp h
    rw [State.readyElems, hready, ih hrest]
    rfl

theorem sheafFault_append {es rest : List Nat} (h : ∀ e ∈ es, s.Stands sh load off x e) :
    s.sheafFault sh load off (es ++ rest) = s.sheafFault sh load off rest := by
  induction es with
  | nil => rfl
  | cons e es ih =>
    obtain ⟨⟨hlo, hhi, hready⟩, hrest⟩ := List.forall_mem_cons.mp h
    rw [List.cons_append, State.sheafFault, if_neg (by simp [hlo, hhi]), hready]
    exact ih hrest

theorem checkSheaf_all {es : List Nat} (h : ∀ e ∈ es, s.Stands sh load off x e) :
    s.checkSheaf sh load off es = .all (readied off x es) := by
  have hnone : s.sheafFault sh load off es = none := by
    rw [← List.append_nil es, sheafFault_append h]
    rfl
  rw [State.checkSheaf, hnone, readyElems_of_stands h]

theorem checkSheaf_fault {es rest : List Nat} {e : Nat} (h : ∀ e ∈ es, s.Stands sh load off x e) (he : e ∉ es)
    (hout : off e < 0 ∨ (sh.desc.size : Int) ≤ off e) : s.checkSheaf sh load off (es ++ e :: rest) =
      .fault (readied off x es) e .sheaf (BitVec.ofInt 64 (off e)) := by
  have hfault : s.sheafFault sh load off (es ++ e :: rest) = some (e, .sheaf, BitVec.ofInt 64 (off e)) := by
    rw [sheafFault_append h, State.sheafFault]
    exact if_pos (by simpa using hout)
  have htake : (es ++ e :: rest).takeWhile (· != e) = es := by
    rw [List.takeWhile_append_of_pos fun a ha => bne_iff_ne.mpr fun hae => he (by rw [← hae]; exact ha),
      List.takeWhile_cons_of_neg (by simp), List.append_nil]
  rw [State.checkSheaf, hfault]
  dsimp only
  rw [htake, readyElems_of_stands h]

theorem sheafGo_fault (hold : Bool) (s : State) (perform : List (Nat × Nat × Nat) → Nat → State) (n e : Nat)
    (els : List (Nat × Nat × Nat)) (c : Cause) (ev : Word) : sheafGo false hold s perform n (.fault els e c ev) =
      faultBlock (perform els e) c ev s.hart.blockPos e := rfl

theorem actives_split {h : Hart} {n e : Nat} (he : e ∈ h.actives k n) :
    ∃ rest, h.actives k n = h.actives k e ++ e :: rest := by
  obtain ⟨hrange, hactive⟩ := List.mem_filter.mp he
  have hbounds := List.mem_range'_1.mp hrange
  have hsplit : List.range' h.vstart (n - h.vstart) =
      List.range' h.vstart (e - h.vstart) ++ e :: List.range' (e + 1) (n - (e + 1)) := by
    rw [← List.range'_succ, show n - (e + 1) + 1 = n - e by omega]
    have happend := List.range'_append_1 (s := h.vstart) (m := e - h.vstart) (n := n - e)
    rw [show h.vstart + (e - h.vstart) = e by omega, show e - h.vstart + (n - e) = n - h.vstart by omega] at happend
    exact happend.symm
  exact ⟨(List.range' (e + 1) (n - (e + 1))).filter (h.active k), by
    rw [Hart.actives, hsplit, List.filter_append, List.filter_cons_of_pos hactive, Hart.actives]⟩

theorem notMem_actives (h : Hart) (k : Blk) (e : Nat) : e ∉ h.actives k e := by
  intro he
  have hbounds := List.mem_range'_1.mp (List.mem_filter.mp he).1
  omega

/- Stores. -/

/-- What a store's elements that stand ready leave, in ascending order (R93). -/
def State.storing (s : State) (sh : Sheaf) (va : VIx) (els : List (Nat × Nat × Nat)) : State :=
  match s.blockWindow sh with
  | none => s
  | some w => els.foldl (fun t x => t.storeAt sh (sh.desc.place w x.2.1) (s.hart.bitsAt va x.1 sh.desc.fmt)) s

theorem sheafStore_eq {va : VIx} {r : HIx} {VL : Nat} (hsheaf : s.sheafIn s.cur r.val = some sh)
    (hmode : sh.desc.mode ≠ .inp) : sheafStore false k va r sh.desc.fmt VL off s =
      sheafGo false false s (fun els _ => s.storing sh va els) VL (s.checkSheaf sh false off (s.hart.actives k VL)) := by
  rw [sheafStore, withSheaf, hsheaf]
  simp only [hmode, decide_false, Bool.and_false, ne_eq, not_true_eq_false, Bool.false_eq_true, if_false]
  rfl

theorem storing_eq {w : Window} (hw : s.blockWindow sh = some w) (va : VIx) (es : List Nat) :
    s.storing sh va (readied off x es) =
      s.storeAll sh (fun e => sh.desc.place w (off e).toNat) (fun e => s.hart.bitsAt va e sh.desc.fmt) es := by
  rw [State.storing, hw, readied]
  dsimp only
  rw [List.foldl_map]
  rfl

theorem storing_frame (va : VIx) (es : List Nat) : s.storing sh va (readied off x es) =
    { s with lines := (s.storing sh va (readied off x es)).lines } := by
  cases hw : s.blockWindow sh with
  | none =>
    have hsame : s.storing sh va (readied off x es) = s := by rw [State.storing, hw]
    rw [hsame]
  | some w =>
    rw [storing_eq hw]
    exact storeAll_frame ..

theorem packed_width {f : Fmt} (h : f.sliced = false) : 1 ≤ f.width ∧ f.width ≤ 64 := by
  cases f <;> cases h <;> decide

theorem sheafStored {w : Window} {va : VIx} {es : List Nat} (hfmt : sh.desc.fmt.sliced = false)
    (hsep : Claims.Separable s sh w) (hw : s.blockWindow sh = some w) (h : ∀ e ∈ es, s.Stands sh false off x e)
    (hlines : t.lines = (s.storing sh va (readied off x es)).lines) : Claims.SheafStored s t sh w va off es := by
  obtain ⟨hlo, hhi⟩ := packed_width hfmt
  obtain ⟨hapart, hunsaved⟩ := hsep
  have hready : ∀ e ∈ es, s.elementAt sh (sh.desc.place w (off e).toNat) false = .ready (x e) := by
    intro e he
    have hstands := (h e he).2.2
    rw [State.blockElem, hw] at hstands
    exact hstands
  have hall := storeAll_stores (x := fun e => s.hart.bitsAt va e sh.desc.fmt) hlo hhi hunsaved
    fun e he => ⟨_, hready e he⟩
  rw [storing_eq hw] at hlines
  refine ⟨fun o ho old hold => ?_, fun st key hkey => ?_⟩
  · change t.elementAt sh (sh.desc.place w o) true = _
    rw [elementAt_of_lines hlines]
    by_cases hpad : sh.desc.place w o = .pad
    · rw [if_pos hpad, hpad]
      rfl
    · have htab : sh.desc.place w o ≠ .tab := by
        intro htab
        rw [State.windowElem, htab] at hold
        cases hold
      rw [if_neg hpad]
      refine hall.elements _ true old ⟨hpad, htab⟩ (fun e he => ?_) hold
      obtain ⟨hnonneg, hlt, -⟩ := h e he
      exact hapart _ (by omega) o ho
  · have hline : t.lineAt st key = (s.storeAll sh (fun e => sh.desc.place w (off e).toNat)
        (fun e => s.hart.bitsAt va e sh.desc.fmt) es).lineAt st key := by rw [State.lineAt, State.lineAt, hlines]
    rw [hline]
    exact hall.lines st key hkey

theorem stands_of_window {w : Window} {e : Nat} (hw : s.blockWindow sh = some w)
    (h : 0 ≤ off e ∧ off e < sh.desc.size ∧ s.windowElem sh w (off e).toNat load = .ready (x e)) :
    s.Stands sh load off x e := by
  refine ⟨h.1, h.2.1, ?_⟩
  rw [State.blockElem, hw]
  exact h.2.2

theorem sheafStoresChangeTheirElementsAlone : Claims.SheafStoresChangeTheirElementsAlone := by
  intro s i F r fs sh w x hi hd hsheaf hfmt hmode hw hsep off es hready
  obtain ⟨f, hf, hsliced, hexec⟩ := exec_sheafStore hi hd
  have hhead : fs.getD 0 Fmt.s8 = f := by
    cases hf : fs with
    | nil => simp_all
    | cons g gs => simp_all
  rw [hhead] at hfmt
  subst hfmt
  have hstands : ∀ e ∈ es, s.Stands sh false off x e := fun e he => stands_of_window hw (hready e he)
  have hdone : exec i s = .next ((s.storing sh F.dest (readied off x es)).completed none) := by
    rw [hexec, sheafStore_eq hsheaf hmode]
    exact congrArg (sheafGo false false s _ _) (checkSheaf_all hstands)
  have hleaves := ((s.storing sh F.dest (readied off x es)).completed_may none).leaves (State.completed_ends _)
  have hlines := congrArg State.lines hleaves.rest
  refine ⟨_, hdone, sheafStored hsliced hsep hw hstands hlines, ?_⟩
  have hframe : ({ s with lines := ((s.storing sh F.dest (readied off x es)).completed none).lines } : State) =
      s.storing sh F.dest (readied off x es) := by
    rw [hlines]
    exact (storing_frame ..).symm
  rw [hframe]
  exact hleaves

/- Loads. -/

/-- The state in which a load's count of elements has been sampled (R93). -/
def State.sampled (s : State) (n : Nat) : State := s.withHart { s.hart with vla := n }

theorem sheafIn_sampled (s : State) (n h r : Nat) : (s.sampled n).sheafIn h r = s.sheafIn h r := by
  have hreg : ((s.sampled n).hartAt h).hreg = (s.hartAt h).hreg := by
    have hcur : (s.sampled n).cur = s.cur := rfl
    rw [State.hartAt, State.hartAt, hcur]
    split
    · rfl
    · rfl
  rw [State.sheafIn, State.sheafIn, hreg]
  rfl

theorem dependsOn_sampled (s : State) (n fuel : Nat) (sh : Sheaf) (c : Nat) :
    (s.sampled n).dependsOn fuel sh c = s.dependsOn fuel sh c := by
  induction fuel generalizing sh with
  | zero => rfl
  | succ fuel ih => simp only [State.dependsOn, sheafIn_sampled, ih]

theorem blockElem_sampled (s : State) (n : Nat) (sh : Sheaf) (load : Bool) (o : Nat) :
    (s.sampled n).blockElem sh load o = s.blockElem sh load o := by
  have hsame : (s.sampled n).sameWindow sh = s.sameWindow sh := by
    funext v k
    simp only [State.sameWindow, State.depends, dependsOn_sampled]
  have hwindow : (s.sampled n).blockWindow sh = s.blockWindow sh := by
    change (s.sampled n).windowFor sh s.hart.viewCounters _ = s.windowFor sh s.hart.viewCounters _
    simp only [State.windowFor, State.windowAt, hsame]
    rfl
  rw [State.blockElem, State.blockElem, hwindow]
  cases s.blockWindow sh with
  | none => rfl
  | some w => exact elementAt_of_lines rfl

/-- The state in which the elements that stand ready have been loaded up to n. -/
def State.loading (s : State) (k : Blk) (vd : VIx) (f : Fmt) (els : List (Nat × Nat × Nat)) (n : Nat) : State :=
  s.withHart (s.hart.wrV vd (s.hart.frame k vd f n (fun e => ((alookup els e).map (·.2)).getD 0)))

theorem sheafLoad_eq {vd : VIx} {r : HIx} {a hold : Bool} {VL : Nat} (hsheaf : s.sheafIn s.cur r.val = some sh) :
    let vl := Claims.trimmedTo s k sh off a VL
    let t := s.sampled (if a then vl else s.hart.vla)
    sheafLoad false hold k vd r a sh.desc.fmt VL off s =
      sheafGo false hold t (t.loading k vd sh.desc.fmt) vl (t.checkSheaf sh true off (t.hart.actives k vl)) := by
  rw [sheafLoad, withSheaf, hsheaf]
  cases a
  · exact if_neg (not_not_intro rfl)
  · exact if_neg (not_not_intro rfl)

theorem trimmedTo_le (s : State) (k : Blk) (sh : Sheaf) (off : Nat → Int) (a : Bool) (VL : Nat) :
    Claims.trimmedTo s k sh off a VL ≤ VL := by
  rw [Claims.trimmedTo]
  split
  · exact Nat.le_refl VL
  · split
    · exact Nat.min_le_right ..
    · dsimp only
      cases hfind : (s.hart.actives k VL).find? (fun e => decide
        ((s.available sh s.hart.viewCounters (s.hart.block.map (·.serial)) : Int) ≤ off e)) with
      | none => exact Nat.le_refl VL
      | some e =>
        have hbounds := List.mem_range'_1.mp (List.mem_filter.mp (List.mem_of_find?_eq_some hfind)).1
        change e ≤ VL
        omega

theorem alookup_readied {es : List Nat} {e : Nat} (he : e ∈ es) :
    alookup (readied off x es) e = some ((off e).toNat, x e) := by
  induction es with
  | nil => cases he
  | cons d es ih =>
    by_cases h : d = e
    · simp [readied, alookup, h]
    · have hrest : alookup (readied off x (d :: es)) e = alookup (readied off x es) e := by simp [readied, alookup, h]
      rw [hrest]
      exact ih ((List.mem_cons.mp he).resolve_left (Ne.symm h))

theorem loading_framed {vd : VIx} {f : Fmt} {n : Nat} (hc : s.hart.v[vd.val].Covered) (hl : f.legal = true)
    (hn : n ≤ s.hart.lanes * f.perSlice) :
    Claims.Framed s (s.loading k vd f (readied off x (s.hart.actives k n)) n) k vd f n x := by
  refine ⟨fun e he => ?_, fun v hv => ?_⟩
  · have hset : (s.loading k vd f (readied off x (s.hart.actives k n)) n).hart.bitsAt vd e f =
        (s.hart.frame k vd f n (fun e => ((alookup (readied off x (s.hart.actives k n)) e).map (·.2)).getD 0)).elem
          s.hart.lanes f e := by
      simp [State.loading, State.withHart, Hart.bitsAt, Hart.wrV]
      rfl
    rw [hset, (Hart.frame_elem hc hl hn).2 e he]
    split
    next hin =>
      split
      next hactive =>
        have hmem : e ∈ s.hart.actives k n :=
          List.mem_filter.mpr ⟨List.mem_range'_1.mpr ⟨hin.1, by omega⟩, hactive⟩
        rw [alookup_readied hmem]
        rfl
      next => rfl
    next => rfl
  · have hne : vd.val ≠ v.val := fun h => hv (Fin.ext h.symm)
    simp [State.loading, State.withHart, Hart.wrV, hne]

/- Faults. -/

theorem withSheaf_empty {r : HIx} {f : Fmt} {store : Bool} {body : Sheaf → Out} (h : s.sheafIn s.cur r.val = none) :
    withSheaf s r f store body = .next (Claims.blockTrap s .sheafcfg 0x10 s.hart.vstart) := by
  rw [withSheaf, h]
  rfl

theorem withSheaf_input {r : HIx} {f : Fmt} {body : Sheaf → Out} (h : s.sheafIn s.cur r.val = some sh)
    (hmode : sh.desc.mode = .inp) :
    withSheaf s r f true body = .next (Claims.blockTrap s .sheafcfg 0x11 s.hart.vstart) := by
  rw [withSheaf, h]
  exact if_pos (by rw [hmode]; rfl)

theorem withSheaf_format {r : HIx} {f : Fmt} {store : Bool} {body : Sheaf → Out} (h : s.sheafIn s.cur r.val = some sh)
    (hmode : store = true → sh.desc.mode ≠ .inp) (hf : sh.desc.fmt ≠ f) :
    withSheaf s r f store body = .next (Claims.blockTrap s .sheafcfg 0x12 s.hart.vstart) := by
  rw [withSheaf, h]
  dsimp only
  rw [if_neg, if_pos hf]
  · rfl
  · intro hin
    rw [Bool.and_eq_true, decide_eq_true_eq] at hin
    exact hmode hin.1 hin.2

theorem sheafLoad_faults {vd : VIx} {r : HIx} {a hold : Bool} {VL e : Nat} (hsheaf : s.sheafIn s.cur r.val = some sh)
    (hsliced : sh.desc.fmt.sliced = false) (hVL : VL ≤ s.hart.lanes * sh.desc.fmt.perSlice)
    (hc : s.hart.v[vd.val].Covered) (he : e ∈ s.hart.actives k (Claims.trimmedTo s k sh off a VL))
    (hout : off e < 0 ∨ (sh.desc.size : Int) ≤ off e) (h : ∀ j ∈ s.hart.actives k e, s.Stands sh true off x j) :
    ∃ u, sheafLoad false hold k vd r a sh.desc.fmt VL off s =
        .next (u.takeTrap .sheaf (BitVec.ofInt 64 (off e)) s.hart.blockPos true e) ∧
      u = { s with hart := { s.hart with
        v := u.hart.v, vla := if a then Claims.trimmedTo s k sh off a VL else s.hart.vla } } ∧
      Claims.Framed s u k vd sh.desc.fmt e x := by
  have heq := sheafLoad_eq (k := k) (vd := vd) (a := a) (hold := hold) (VL := VL) (off := off) hsheaf
  obtain ⟨rest, hsplit⟩ := actives_split he
  have hbounds := List.mem_range'_1.mp (List.mem_filter.mp he).1
  have hle := trimmedTo_le s k sh off a VL
  have hlegal : sh.desc.fmt.legal = true := by rw [Fmt.legal, hsliced]; rfl
  dsimp only at heq
  generalize hn : (if a then Claims.trimmedTo s k sh off a VL else s.hart.vla) = n at heq ⊢
  have hactives (m : Nat) : (s.sampled n).hart.actives k m = s.hart.actives k m := rfl
  have hstands : ∀ j ∈ s.hart.actives k e, (s.sampled n).Stands sh true off x j := fun j hj => by
    obtain ⟨hlo, hhi, hready⟩ := h j hj
    exact ⟨hlo, hhi, (blockElem_sampled ..).trans hready⟩
  rw [hactives, hsplit, checkSheaf_fault hstands (notMem_actives _ _ _) hout, sheafGo_fault] at heq
  have hframed := loading_framed (s := s.sampled n) (k := k) (off := off) (x := x) (vd := vd) (n := e) hc hlegal
    (by change e ≤ s.hart.lanes * _; omega)
  exact ⟨_, heq, rfl, hframed.element, hframed.registers⟩

theorem sheafStore_faults {va : VIx} {r : HIx} {VL e : Nat} (hsheaf : s.sheafIn s.cur r.val = some sh)
    (hsliced : sh.desc.fmt.sliced = false) (hmode : sh.desc.mode ≠ .inp) (he : e ∈ s.hart.actives k VL)
    (hout : off e < 0 ∨ (sh.desc.size : Int) ≤ off e) (h : ∀ j ∈ s.hart.actives k e, s.Stands sh false off x j) :
    ∃ u, sheafStore false k va r sh.desc.fmt VL off s =
        .next (u.takeTrap .sheaf (BitVec.ofInt 64 (off e)) s.hart.blockPos true e) ∧
      u = { s with lines := u.lines } ∧
      ∀ w, Claims.blockWindow s sh = some w → Claims.Separable s sh w →
        Claims.SheafStored s u sh w va off (s.hart.actives k e) := by
  obtain ⟨rest, hsplit⟩ := actives_split he
  refine ⟨s.storing sh va (readied off x (s.hart.actives k e)), ?_, storing_frame .., fun w hw hsep =>
    sheafStored hsliced hsep hw h rfl⟩
  rw [sheafStore_eq hsheaf hmode, hsplit, checkSheaf_fault h (notMem_actives _ _ _) hout, sheafGo_fault]
  rfl

theorem sheafAccessFaults : Claims.SheafAccessFaults := by
  rintro s i F r a store fs (⟨hi, rfl⟩ | ⟨hi, rfl, rfl⟩) hd
  · obtain ⟨f, hold, hf, hsliced, hle, hexec⟩ := exec_sheafLoad hi hd
    rw [hexec, hf]
    refine ⟨withSheaf_empty, fun sh hsheaf => ⟨fun h => (Bool.false_ne_true h).elim, fun hmode hfmt =>
      withSheaf_format hsheaf hmode hfmt, fun e x _ hfmt hc => ?_⟩⟩
    intro off vl he hout hready
    have hfmt : sh.desc.fmt = f := hfmt
    subst hfmt
    obtain ⟨u, hu, hframe, hframed⟩ := sheafLoad_faults hsheaf hsliced hle (hc rfl) he hout fun j hj => by
      obtain ⟨hlo, hhi, w, hw, hx⟩ := hready j hj
      exact stands_of_window hw ⟨hlo, hhi, hx⟩
    exact ⟨u, hu, fun _ => ⟨hframe, hframed⟩, fun h => (Bool.false_ne_true h).elim⟩
  · obtain ⟨f, hf, hsliced, hexec⟩ := exec_sheafStore hi hd
    rw [hexec, hf]
    refine ⟨withSheaf_empty, fun sh hsheaf => ⟨fun _ hmode => withSheaf_input hsheaf hmode, fun hmode hfmt =>
      withSheaf_format hsheaf hmode hfmt, fun e x hmode hfmt _ => ?_⟩⟩
    intro off vl he hout hready
    have hfmt : sh.desc.fmt = f := hfmt
    subst hfmt
    obtain ⟨u, hu, hframe, hstored⟩ := sheafStore_faults hsheaf hsliced (hmode rfl) he hout fun j hj => by
      obtain ⟨hlo, hhi, w, hw, hx⟩ := hready j hj
      exact stands_of_window hw ⟨hlo, hhi, hx⟩
    exact ⟨u, hu, fun h => (Bool.false_ne_true h.symm).elim, fun _ => ⟨hframe, hstored⟩⟩

/-- Settles O15: an element that stands ready is the bits of its place, and a store to a place changes those bits alone;
the elements below the first that lies outside the window are the active ones up to it. -/
theorem sheafStoresAndFaults : Obligations.SheafStoresAndFaults :=
  ⟨sheafStoresChangeTheirElementsAlone, sheafAccessFaults⟩

end Sys2Proof.Machine
end

