-- ==== Sys2Proof/Proofs/ScalarFloats.lean ====
section
/-!
Scalar float instructions (R283 to R289): the result, the flags, and all that ending one may write.
-/

namespace Sys2Proof.Machine

set_option Elab.async false

variable {s t u : State}

/- What a trap of the control stream writes: neither the queue nor `VFRET`. -/

theorem onlyControl_trans (h : Claims.OnlyControl s t) (h' : Claims.OnlyControl t u) : Claims.OnlyControl s u := by
  rw [Claims.OnlyControl] at h h' ⊢
  rw [h', h]

theorem setEnding_onlyControl (s : State) (n : Nat) : Claims.OnlyControl s (s.setHartAt n { s.hartAt n with ending := true }) := by
  unfold State.setHartAt State.hartAt
  split <;> rfl

theorem stopFarm_onlyControl (s : State) (p f : Nat) : Claims.OnlyControl s (s.stopFarm p f) := by
  have key : ∀ (l : List Nat) (t : State), Claims.OnlyControl s t →
      Claims.OnlyControl s (l.foldl (fun s h => s.setHartAt h { s.hartAt h with ending := true }) t) := by
    intro l
    induction l with
    | nil => exact fun _ ht => ht
    | cons a l ih => exact fun t ht => ih _ (onlyControl_trans ht (setEnding_onlyControl t a))
  unfold State.stopFarm
  split
  · rfl
  next g _ => exact key g.harts _ rfl

theorem postHost_onlyControl (s : State) (p : Nat) (r : HostRecord) : Claims.OnlyControl s (s.postHost p r) := by
  unfold State.postHost
  dsimp only
  split <;> rfl

theorem halt_onlyControl (s : State) (c : Cause) : Claims.OnlyControl s (s.halt c) :=
  have h0 : Claims.OnlyControl s { s with hart := { s.hart with status := .halted, trapWait := none } } := rfl
  onlyControl_trans (onlyControl_trans h0 (postHost_onlyControl _ _ _)) (stopFarm_onlyControl _ _ _)

theorem trapCtl_onlyControl (s : State) (c : Cause) (ev epc : Word) : Claims.OnlyControl s (s.trapCtl c ev epc) := by
  unfold State.trapCtl State.takeTrap
  exact ite_holds (P := Claims.OnlyControl s) (ite_holds (P := Claims.OnlyControl s) (halt_onlyControl s c) rfl) rfl

theorem TrapMay.x_fflags (h : TrapMay s t) : t.hart.x = s.hart.x ∧ t.hart.fflags = s.hart.fflags := by
  obtain ⟨_, _, _, _, _, _, _, _, _, _, _, _, _, _, _, _, _, rfl⟩ := h
  exact ⟨rfl, rfl⟩

/-- Going on at `next` and, when one is due, trapping there: registers and flags stand. -/
theorem goesOn_keeps (s : State) (c : Cause) (ev next : Word) (trap : Bool) :
    let u : State := { s with hart := { s.hart with pc := next, retcount := s.hart.retcount + 1 } }
    let t := if trap then u.trapCtl c ev next else u
    Claims.OnlyControl s t ∧ t.hart.x = s.hart.x ∧ t.hart.fflags = s.hart.fflags := by
  have h0 : Claims.OnlyControl s { s with hart := { s.hart with pc := next, retcount := s.hart.retcount + 1 } } := rfl
  cases trap
  · exact ⟨h0, rfl, rfl⟩
  · exact ⟨onlyControl_trans h0 (trapCtl_onlyControl _ c ev next), (State.trapCtl_may _ c ev next).x_fflags⟩

/-- A register after a write to xd, in any hart with those registers. -/
theorem rd_of_wr {h h' : Hart} {d : Reg} {v : Word} (hx : h'.x = (h.wr d v).x) (r : Reg) :
    h'.rd r = if r = d ∧ r ≠ 0 then v else h.rd r := by
  have hrd : h'.rd r = (h.wr d v).rd r := by rw [Hart.rd, Hart.rd, hx]
  rw [hrd]
  by_cases hr : r = d
  · subst hr
    by_cases h0 : r = 0
    · subst h0; simp
    · simp [h0, Hart.rd_wr_same]
  · simp [hr, Hart.rd_wr_other]

/- Ending an instruction that raises flags. -/

/-- What accruing leaves: the frame, the registers, and the flags joined. -/
theorem accrue_keeps (s : State) (fs : List Flags) : Claims.OnlyControl s (s.accrue fs).1 ∧ (s.accrue fs).1.hart.x = s.hart.x ∧
    (s.accrue fs).1.hart.fflags = fs.foldl (· ||| ·) s.hart.fflags := by
  obtain ⟨en, parts, h⟩ := s.accrue_may fs
  rw [h]
  exact ⟨rfl, rfl, rfl⟩

/-- With no class armed, accruing joins the flags and raises the counts, and nothing crosses (R67, R69, R70). -/
theorem accrue_unarmed (h : s.hart.ntEn = 0) (fs : List Flags) : s.accrue fs = (s.withHart (s.hart.accrueFlags fs), none) := by
  have hnone : (List.finRange 6).filter ((s.hart.accrueFlags fs).crosses fs) = [] := by
    refine List.filter_eq_nil_iff.2 fun c _ => ?_
    have : (s.hart.accrueFlags fs).ntEn = 0 := h
    simp [Hart.crosses, this]
  unfold State.accrue
  simp only [hnone]
  rfl

theorem retireFlags_keeps (s : State) (d : Reg) (v : Word) (f : Flags) : ∃ t, retireFlags s d v f = .next t ∧
    Claims.OnlyControl s t ∧ t.hart.fflags = s.hart.fflags ||| f ∧
      ∀ r, t.hart.rd r = if r = d ∧ r ≠ 0 then v else s.hart.rd r := by
  obtain ⟨hframe, hx, hfl⟩ := accrue_keeps s [f]
  have hwr : Claims.OnlyControl (s.accrue [f]).1 { (s.accrue [f]).1 with hart := (s.accrue [f]).1.hart.wr d v } := by
    unfold Hart.wr
    split <;> rfl
  have ends : ∀ t : State, Claims.OnlyControl { (s.accrue [f]).1 with hart := (s.accrue [f]).1.hart.wr d v } t ∧
      t.hart.x = ((s.accrue [f]).1.hart.wr d v).x ∧ t.hart.fflags = ((s.accrue [f]).1.hart.wr d v).fflags →
      Claims.OnlyControl s t ∧ t.hart.fflags = s.hart.fflags ||| f ∧
        ∀ r, t.hart.rd r = if r = d ∧ r ≠ 0 then v else s.hart.rd r := by
    rintro t ⟨ht, htx, htf⟩
    refine ⟨onlyControl_trans hframe (onlyControl_trans hwr ht), by rw [htf, Hart.wr_fflags, hfl]; rfl, fun r => ?_⟩
    rw [rd_of_wr htx r, Hart.rd, Hart.rd, hx]
  unfold retireFlags
  dsimp only
  split
  · exact ⟨_, rfl, ends _ (goesOn_keeps _ .step 0 _ _)⟩
  next ev _ => exact ⟨_, rfl, ends _ (goesOn_keeps _ .numthr ev _ true)⟩

theorem retireFlags_unarmed (h : s.hart.ntEn = 0) (d : Reg) (v : Word) (f : Flags) : retireFlags s d v f =
    .next (Claims.wrote { s with hart := { s.hart with
      fflags := s.hart.fflags ||| f
      ncnt := Vector.ofFn (fun c : Fin 6 => BitVec.ofNat 32
        (min (s.hart.ncnt[c.val].toNat + (if hasClass f c.val then 1 else 0)) (2 ^ 32 - 1))) } } d v (s.hart.pc + 4)) := by
  have hcount : s.hart.accrueFlags [f] = { s.hart with
      fflags := s.hart.fflags ||| f
      ncnt := Vector.ofFn (fun c : Fin 6 => BitVec.ofNat 32
        (min (s.hart.ncnt[c.val].toNat + (if hasClass f c.val then 1 else 0)) (2 ^ 32 - 1))) } := by
    simp [Hart.accrueFlags, bumpCount, List.countP_cons]
  unfold retireFlags
  rw [accrue_unarmed h, hcount]
  simp only [retire, State.withHart_hart, Hart.wr_pc]
  rfl

/- The instructions. -/

/-- The rounding mode of a field is the claims'. -/
theorem roundMode_eq (h : Hart) (m : Rm) : h.roundMode m = Claims.modeOf h m := by
  cases m <;> simp [Hart.roundMode, Claims.modeOf, Nat.lt_succ_iff]

theorem precFmt_eq (p : Prec) : precFmt p = Claims.ofPrec p := by cases p <;> rfl

theorem cvtFmt_eq (c : CvtTy) : cvtFmt c = Claims.ofCvt c := by cases c <;> rfl

/-- An instruction reads its sources, answers ILLEGAL when it rounds and `FRM` holds no mode, and else ends with the
result and flags of its form. -/
def scalarFloatRun (s : State) (i : Instr) (F : Claims.ScalarFloat) : Out :=
  reading F.sources s (match F.mode s.hart with
    | some m => retireFlags s F.dest (BitVec.ofNat 64 (F.result m).1) (F.result m).2
    | none => illegalWord s (wordOf i))

/-- A form that rounds under a field runs as `withMode` does. -/
theorem scalarFloatRun_rounds {i : Instr} {F : Claims.ScalarFloat} {m : Rm} (hm : F.rounds = some m) :
    scalarFloatRun s i F = reading F.sources s (withMode i m s fun mode =>
      retireFlags s F.dest (BitVec.ofNat 64 (F.result mode).1) (F.result mode).2) := by
  cases h : Claims.modeOf s.hart m <;> simp [scalarFloatRun, Claims.ScalarFloat.mode, hm, withMode, roundMode_eq, h]

/-- A form that does not round ends with its result. -/
theorem scalarFloatRun_unrounded {i : Instr} {F : Claims.ScalarFloat} (hm : F.rounds = none) : scalarFloatRun s i F =
    reading F.sources s (retireFlags s F.dest (BitVec.ofNat 64 (F.result 0).1) (F.result 0).2) := by
  rw [scalarFloatRun, Claims.ScalarFloat.mode, hm]

theorem fval_eq (h : Hart) (f : Fmt) (a : Reg) : h.fval f a = decodeVal f false ((h.rd a).toNat % 2 ^ f.width) := by
  rw [Hart.fval, Nat.one_shiftLeft]

theorem ofNat_truth (c : Prop) [Decidable c] : (if c then 1 else 0 : Word) = BitVec.ofNat 64 (if c then 1 else 0) := by
  split <;> rfl

theorem ite_swap {α : Type} (c : Bool) (a b : α) : (if c then b else a) = if !c then a else b := by
  cases c <;> rfl

theorem exec_scalarFloat {i : Instr} {F : Claims.ScalarFloat} (hF : Claims.scalarFloat s.hart i = some F) :
    exec i s = scalarFloatRun s i F := by
  unfold exec
  cases i with
  | fadd p m d a b | fsub p m d a b | fmul p m d a b | fdiv p m d a b =>
    cases hF
    refine Eq.trans (show farith _ _ _ _ _ _ _ s = _ from ?_) (scalarFloatRun_rounds rfl).symm
    simp only [farith, retireRound, fval_eq, precFmt_eq]
  | fsqrt p m d a =>
    cases hF
    rw [scalarFloatRun_rounds rfl]
    simp only [execFsqrt, retireRound, fval_eq, precFmt_eq]
  | fcvt dst src m d a =>
    cases hF
    rw [scalarFloatRun_rounds rfl]
    simp only [execFcvt, retireRound, fval_eq, cvtFmt_eq]
  | fmaOpcode0d p np nc m d a b c | fmaOpcode0e p np nc m d a b c =>
    cases hF
    refine Eq.trans (show fmaOp _ _ _ _ _ _ _ _ _ s = _ from ?_) (scalarFloatRun_rounds rfl).symm
    simp only [fmaOp, retireRound, fval_eq, precFmt_eq]
  | fmin p m d a b =>
    cases hF
    refine Eq.trans (show fchoose _ _ _ _ _ s = _ from ?_) (scalarFloatRun_unrounded rfl).symm
    simp only [fchoose, fval_eq, precFmt_eq, canonicalNan, Nat.one_shiftLeft]
    rfl
  | fmax p m d a b =>
    cases hF
    refine Eq.trans (show fchoose _ _ _ _ _ s = _ from ?_) (scalarFloatRun_unrounded rfl).symm
    simp only [fchoose, fval_eq, precFmt_eq, canonicalNan, Nat.one_shiftLeft, if_true]
    rw [ite_swap (decide _ || _)]
    rfl
  | feq p m d a b | flt p m d a b | fle p m d a b =>
    cases hF
    refine Eq.trans (show fcompare _ _ _ _ _ _ s = _ from ?_) (scalarFloatRun_unrounded rfl).symm
    simp only [fcompare, fval_eq, precFmt_eq, ofNat_truth]
  | _ => cases hF

/-- Settles O19: an instruction of the form ends as `retireFlags` ends one, with the form's result and flags. -/
theorem scalarFloatPlacesResult : Obligations.ScalarFloatPlacesResult := by
  intro s i F hF hr
  have hexec : exec i s = _ := (exec_scalarFloat hF).trans (reading_runs hr.1 hr.2)
  refine ⟨fun m hm => ?_, fun hm n w hw => ?_⟩
  · rw [hm] at hexec
    rw [hexec]
    exact ⟨retireFlags_keeps s _ _ _, fun h => retireFlags_unarmed h _ _ _⟩
  · rw [hm] at hexec
    rw [hexec]
    simp only [illegalWord, wordOf, hw]
    rfl

end Sys2Proof.Machine
end

