-- ==== Sys2Proof/Proofs/BlockEnds.lean ====
section
/-!
What a block instruction leaves that writes elements of a vector register, or elements it names, and raises flags
(R42, R46, R67, R334).
-/

namespace Sys2Proof.Machine

set_option Elab.async false

variable {s t : State} {k : Blk} {vd : VIx} {f : Fmt} {vl : Nat}

/- Ending. -/

/-- Ending a block instruction whose elements raised flags: registers and predicates stand, and the flags join. -/
structure EndsWith (s t : State) (fs : List Flags) : Prop where
  registers : t.hart.v = s.hart.v
  predicates : t.hart.p = s.hart.p
  flags : t.hart.fflags = fs.foldl (· ||| ·) s.hart.fflags
  rest : Claims.OnlyVector s t
  ended : Claims.Completed s t

theorem onlyVector_trans {u : State} (h : Claims.OnlyVector s t) (h' : Claims.OnlyVector t u) : Claims.OnlyVector s u := by
  rw [Claims.OnlyVector] at h h' ⊢
  rw [h', h]

theorem RetireMay.ends (h : RetireMay s t) (ended : Claims.Completed s t) : EndsWith s t [] := by
  obtain ⟨n, _, _, _, _, _, _, _, _, _, _, _, _, _, _, _, _, _, rfl⟩ := h
  exact ⟨rfl, rfl, rfl, rfl, ended⟩

theorem vDone_ends (s : State) : ∃ t, vDone s = .next t ∧ EndsWith s t [] :=
  ⟨_, rfl, (s.completed_may none).ends s.completed_ends⟩

theorem accrue_onlyVector (s : State) (fs : List Flags) : Claims.OnlyVector s (s.accrue fs).1 ∧
    (s.accrue fs).1.hart.v = s.hart.v ∧ (s.accrue fs).1.hart.p = s.hart.p ∧
      (s.accrue fs).1.hart.fflags = fs.foldl (· ||| ·) s.hart.fflags := by
  obtain ⟨en, parts, h⟩ := s.accrue_may fs
  rw [h]
  exact ⟨rfl, rfl, rfl, rfl⟩

theorem vDoneFlags_ends (s : State) (fs : List Flags) : ∃ t, vDoneFlags s fs = .next t ∧ EndsWith s t fs := by
  have hend : Claims.Completed s ((s.accrue fs).1.completed (s.accrue fs).2) := by
    intro harm
    rw [accrue_unarmed harm]
    exact State.completed_ends (s.withHart (s.hart.accrueFlags fs)) harm
  obtain ⟨hrest, hv, hp, hfl⟩ := accrue_onlyVector s fs
  obtain ⟨n, _, _, _, _, _, _, _, _, _, _, _, _, _, _, _, _, _, h⟩ := (s.accrue fs).1.completed_may (s.accrue fs).2
  refine ⟨_, rfl, ?_⟩
  rw [h] at hend ⊢
  exact ⟨hv, hp, hfl, onlyVector_trans hrest rfl, hend⟩

theorem OnlyVector.lanes (h : Claims.OnlyVector s t) : t.hart.lanes = s.hart.lanes := by rw [h]; rfl

/- Elements written. -/

/-- The frame of R334, once the register has been written and the instruction has ended. -/
theorem frame_written {d : Nat} {body : Nat → Nat × Flags} (hc : s.hart.v[vd.val].Covered) (hl : f.legal = true)
    (hn : vl ≤ s.hart.lanes * f.perSlice)
    (h : EndsWith ({ s with draw := d }.withHart (s.hart.wrV vd (s.hart.frame k vd f vl (fun e => (body e).1)))) t
      ((s.hart.actives k vl).map (fun e => (body e).2))) : Claims.Written s t k vd f vl body := by
  have hrest : Claims.OnlyVector s t := by
    have := h.rest
    rw [Claims.OnlyVector] at this ⊢
    rw [this]
    rfl
  refine { element := fun e he => ?_, registers := fun v hv => ?_, predicates := h.predicates, flags := h.flags, rest := hrest,
           ended := h.ended }
  · rw [Hart.bitsAt, OnlyVector.lanes hrest, h.registers]
    simp only [State.withHart_hart, Hart.wrV_same]
    exact (Hart.frame_elem hc hl hn).2 e he
  · rw [h.registers]
    exact Hart.wrV_other _ _ _ _ hv

theorem writeElems_written {body : Nat → Nat × Flags} {d : Nat} (hc : s.hart.v[vd.val].Covered) (hl : f.legal = true)
    (hn : vl ≤ s.hart.lanes * f.perSlice) :
    ∃ t, writeElems { s with draw := d } k vd f vl body = .next t ∧ Claims.Written s t k vd f vl body := by
  obtain ⟨t, ht, hends⟩ := vDoneFlags_ends ({ s with draw := d }.withHart (s.hart.wrV vd (s.hart.frame k vd f vl (fun e => (body e).1))))
    ((s.hart.actives k vl).map (fun e => (body e).2))
  exact ⟨t, ht, frame_written hc hl hn hends⟩

/- Lengths and formats. -/

theorem vlmax_le (L : Nat) {fs : List Fmt} {g : Fmt} (hg : g ∈ fs) : vlmax L fs ≤ L * g.perSlice := by
  induction fs with
  | nil => cases hg
  | cons a fs ih =>
    cases fs with
    | nil =>
      rw [List.mem_singleton] at hg
      exact hg ▸ Nat.le_refl _
    | cons b fs =>
      rw [vlmax]
      · rcases List.mem_cons.1 hg with rfl | hg
        · exact Nat.min_le_left _ _
        · exact Nat.le_trans (Nat.min_le_right _ _) (ih hg)
      · simp

theorem formats_legal {cs : List Nat} {fs : List Fmt} (h : formats cs = some fs) : ∀ g ∈ fs, g.legal = true := by
  induction cs generalizing fs with
  | nil => cases h; simp
  | cons c cs ih =>
    unfold formats at h
    split at h
    next hc hcs =>
      cases h
      intro g hg
      rcases List.mem_cons.1 hg with rfl | hg
      · exact ofCode_legal hc
      · exact ih hcs g hg
    · cases h

/-- The destination's format of a dispatched form is one of R50, and VL lies in its register. -/
theorem dispatched_dest {α D : Type} {F : Claims.Form α D} {fs : List Fmt} {fd : Fmt} (h : Claims.Dispatches s F fs)
    (hspans : F.spans = id) (hfd : fs.getLast? = some fd) :
    fd.legal = true ∧ Claims.length s F fs ≤ s.hart.lanes * fd.perSlice := by
  have hmem : fd ∈ fs := List.mem_of_getLast? hfd
  refine ⟨formats_legal h.known fd hmem, ?_⟩
  rw [Claims.length, hspans]
  exact Nat.le_trans (vl_le _ _ _) (vlmax_le _ hmem)

end Sys2Proof.Machine
end

