-- ==== Sys2Proof/Proofs/BlockScaledDestinations.lean ====
section
/-!
Block-scaled destinations (R56, R57): the scale of each block, its elements, the rest of the last block, and the flags.
-/

namespace Sys2Proof.Machine

set_option Elab.async false

variable {s t : State} {k : Blk} {d : Descr} {vd : VIx} {f : Fmt} {vl : Nat} {exact : Nat → Val} {extra : Nat → Flags}

/- Elements written, those past the length as zero. -/

/-- Elements written in turn, those past n as zero, and the tag raised for length n: the register reads as written. -/
theorem putElems_raise_elem {L : Nat} (w : Nat → Option Nat) {es : List Nat} {r : VReg} {n : Nat} (hc : r.Covered)
    (hl : f.legal = true) (hnd : es.Nodup) (hcap : ∀ e ∈ es, e < L * f.perSlice) (hn : n ≤ L * f.perSlice)
    (hz : ∀ e ∈ es, n ≤ e → w e = some 0) : ∀ e < L * f.perSlice, ((putElems L f w es r).raise L f n).elem L f e =
      (if e ∈ es then w e else none).elim (r.elem L f e) (· % 2 ^ f.width) := by
  have htag : r.tag ≤ ((putElems L f w es r).raise L f n).tag := by
    simp only [VReg.raise, putElems_tag]
    exact Nat.le_max_left _ _
  have hcov : ((putElems L f w es r).raise L f n).Covered := by
    intro j hj
    by_contra hset
    have hput := raise_sets (Bool.not_eq_false _ ▸ hset)
    rcases putElems_sets hput with h | ⟨e, he, b, hb, rfl⟩
    · exact absurd h (by rw [hc j (Nat.le_trans (Nat.mul_le_mul_left _ htag) hj)]; simp)
    · rcases Nat.lt_or_ge e n with hen | hen
      · exact absurd hj (Nat.not_le_of_lt (raise_covers (putElems L f w es r) hl hen hn hb))
      · rw [testBit_putElems w r hl hnd hcap (hcap e he) hb, if_pos he, hz e he hen] at hput
        simp at hput
  intro e he
  apply Nat.eq_of_testBit_eq
  intro b
  rw [testBit_elem hcov hl he]
  by_cases hb : b < f.width
  · rw [testBit_raise _ n hl he hb, testBit_putElems w r hl hnd hcap he hb]
    cases (if e ∈ es then w e else none) with
    | some x => simp [hb, Nat.testBit_mod_two_pow]
    | none => simp [testBit_elem hc hl he, hb]
  · cases (if e ∈ es then w e else none) with
    | some x => simp [hb, Nat.testBit_mod_two_pow]
    | none => simp [testBit_elem hc hl he, hb]

/- The blocks of a length. -/

/-- The elements of the blocks from q on. -/
theorem flatMap_blocks (q n : Nat) : (List.range' q n).flatMap (fun b => List.range' (32 * b) 32) = List.range' (32 * q) (32 * n) := by
  induction n generalizing q with
  | zero => rfl
  | succ n ih =>
    rw [List.range'_succ, List.flatMap_cons, ih, Nat.mul_succ, List.range'_append_1, Nat.add_comm 32, ← Nat.mul_succ]

/-- The larger of an exponent and the largest so far, if there is one. -/
def largerLog (acc : Option Int) (g : Int) : Option Int := some (acc.elim g (fun h => max h g))

theorem foldl_largerLog (gs : List Int) (g : Int) : gs.foldl largerLog (some g) = some (gs.foldl max g) := by
  induction gs generalizing g with
  | nil => rfl
  | cons a gs ih => exact ih (max g a)

/-- The largest exponent, found in one pass, is the maximum of the exponents. -/
theorem largestLog_eq (vs : List Val) : largestLog vs = (vs.filterMap Claims.logOf).max? := by
  have hpass : largestLog vs = (vs.filterMap Claims.logOf).foldl largerLog none := by
    rw [List.foldl_filterMap]
    unfold largestLog
    congr 1
    funext acc v
    cases v with
    | num n m d => by_cases hm : m = 0 <;> cases acc <;> simp [Claims.logOf, hm, largerLog]
    | _ => rfl
  rw [hpass]
  cases vs.filterMap Claims.logOf with
  | nil => rfl
  | cons g gs => exact (foldl_largerLog gs g).trans List.max?_cons'.symm

/-- The scale of a block is the one of the claims. -/
theorem blockScale_eq (f : Fmt) (vl : Nat) (exact : Nat → Val) (b : Nat) :
    blockScale f (((List.range' (32 * b) 32).filter (· < vl)).map exact) = Claims.scaleFor f vl exact b := by
  unfold blockScale Claims.scaleFor
  rw [largestLog_eq, Option.not_isSome]
  dsimp only
  congr 1
  cases (List.filterMap Claims.logOf _).max? <;> rfl

theorem scaleFor_le (f : Fmt) (vl : Nat) (exact : Nat → Val) (b : Nat) : Claims.scaleFor f vl exact b ≤ 511 := by
  unfold Claims.scaleFor
  dsimp only
  split
  · exact Nat.le_refl _
  · cases (List.filterMap Claims.logOf _).max? with
    | none => simp
    | some g => simp only [Option.elim_some]; omega

/- The destination. -/

/-- Bits and flags of element e of a block-scaled destination. -/
def scaledCell (f : Fmt) (vl : Nat) (c : Nat → Rounding) (exact : Nat → Val) (e : Nat) : Nat × Flags :=
  if vl ≤ e then (0, flNone)
  else if Claims.scaleFor f vl exact (e / 32) = 511 then (0, if (exact e).isNan then flNV else flNone)
  else place f { c e with sat := true } ((exact e).scale (255 - (Claims.scaleFor f vl exact (e / 32) : Int)))

theorem placeBlock_eq (c : Nat → Rounding) (b : Nat) : placeBlock f c (32 * b) vl exact =
    (Claims.scaleFor f vl exact b, (List.range' (32 * b) 32).map (fun e => (e, scaledCell f vl c exact e))) := by
  unfold placeBlock
  dsimp only
  rw [blockScale_eq]
  refine congrArg (Prod.mk _) (List.map_congr_left fun e he => ?_)
  have hb : e / 32 = b := by rw [List.mem_range'_1] at he; omega
  unfold scaledCell
  rw [hb]
  dsimp only
  split
  · rfl
  · split <;> rfl

/-- The blocks from VSTART to VL - 1. -/
def scaledBlocks (s : State) (vl : Nat) : List Nat := List.range' (s.hart.vstart / 32) ((vl + 31) / 32 - s.hart.vstart / 32)

/-- Their elements. -/
def scaledElems (s : State) (vl : Nat) : List Nat :=
  List.range' (32 * (s.hart.vstart / 32)) (32 * ((vl + 31) / 32 - s.hart.vstart / 32))

/-- The hart once the blocks and their scales have been written. -/
def scaledHart (s : State) (d : Descr) (vd : VIx) (f : Fmt) (vl : Nat) (exact : Nat → Val) : Hart :=
  let h := s.hart
  let w := fun e => some (scaledCell f vl (fun e => d.rounding s.draw e) exact e).1
  let r := putElems h.lanes f w ((scaledElems s vl).filter (fun e => decide (e < h.lanes * f.perSlice))) h.v[vd.val]
  let sc := putElems h.lanes .x9 (fun b => some (Claims.scaleFor f vl exact b)) (scaledBlocks s vl) h.v[(vd + 1).val]
  (h.wrV vd (r.raise h.lanes f vl)).wrV (vd + 1) (sc.raise h.lanes .x9 ((vl + 31) / 32))

/-- The flags of an element, those of the operation among them. -/
def scaledFlags (s : State) (d : Descr) (f : Fmt) (vl : Nat) (exact : Nat → Val) (extra : Nat → Flags) (e : Nat) : Flags :=
  if vl ≤ e then flNone
  else if Claims.scaleFor f vl exact (e / 32) = 511 then (scaledCell f vl (fun e => d.rounding s.draw e) exact e).2
  else (scaledCell f vl (fun e => d.rounding s.draw e) exact e).2 ||| extra e

/-- The cells of the blocks, block by block, are those of the elements in their order. -/
theorem scaled_cells (s : State) (vl : Nat) (cell : Nat → Nat × Nat × Flags) :
    (((scaledBlocks s vl).map (fun b => (List.range' (32 * b) 32).map cell))).flatten = (scaledElems s vl).map cell := by
  rw [scaledElems, ← flatMap_blocks, List.map_flatMap, List.flatMap_def]
  rfl

/-- One of the blocks has the scale of NaN exactly when an element of it says so. -/
theorem any_scale_511 {e : Nat} (he : e ∈ scaledElems s vl) (E : Nat → Nat) :
    (scaledBlocks s vl).any (fun b => b == e / 32 && E b == 511) = decide (E (e / 32) = 511) := by
  have hb : e / 32 ∈ scaledBlocks s vl := by
    rw [scaledElems, List.mem_range'_1] at he
    rw [scaledBlocks, List.mem_range'_1]
    omega
  rw [Bool.eq_iff_iff, List.any_eq_true, decide_eq_true_eq]
  constructor
  · rintro ⟨b, -, h⟩
    simp only [Bool.and_eq_true, beq_iff_eq] at h
    obtain ⟨rfl, h⟩ := h
    exact h
  · exact fun h => ⟨_, hb, by simp [h]⟩

theorem placeAll_scaled (hvl : vl ≠ 0) (hd : d.dsc = true) : s.placeAll k d vd f vl exact extra =
    vDoneFlags ((s.drawn d vl).withHart (scaledHart s d vd f vl exact)) ((scaledElems s vl).map (scaledFlags s d f vl exact extra)) := by
  have hels := scaled_cells s vl (fun e => (e, scaledCell f vl (fun e => d.rounding s.draw e) exact e))
  unfold State.placeAll
  rw [if_neg hvl, if_pos hd]
  simp only [placeBlock_eq, List.map_map, List.foldl_map, List.any_map, Function.comp_def]
  simp only [scaledBlocks] at hels
  rw [hels]
  refine congrArg₂ (fun h fs => vDoneFlags ((s.drawn d vl).withHart h) fs) ?_ ?_
  · rw [List.filter_map, List.foldl_map]
    rfl
  · rw [List.map_map]
    refine List.map_congr_left fun e he => ?_
    have := any_scale_511 he (Claims.scaleFor f vl exact)
    rw [scaledBlocks] at this
    simp only [Function.comp_apply, this, decide_eq_true_eq]
    rfl

/- What the elements, the scales and the flags then are. -/

theorem mem_scaledElems (hs : s.hart.vstart % 32 = 0) (e : Nat) : e ∈ scaledElems s vl ↔ s.hart.vstart ≤ e ∧ 32 * (e / 32) < vl := by
  rw [scaledElems, List.mem_range'_1]
  omega

theorem mem_scaledBlocks (hs : s.hart.vstart % 32 = 0) (b : Nat) : b ∈ scaledBlocks s vl ↔ s.hart.vstart ≤ 32 * b ∧ 32 * b < vl := by
  rw [scaledBlocks, List.mem_range'_1]
  omega

theorem scaledHart_elem (hc : s.hart.v[vd.val].Covered) (hl : f.legal = true) (hn : vl ≤ s.hart.lanes * f.perSlice)
    (hs : s.hart.vstart % 32 = 0) {e : Nat} (he : e < s.hart.lanes * f.perSlice) :
    ((scaledHart s d vd f vl exact).v[vd.val]).elem s.hart.lanes f e =
      if s.hart.vstart ≤ e ∧ 32 * (e / 32) < vl then (scaledCell f vl (fun e => d.rounding s.draw e) exact e).1 % 2 ^ f.width
      else s.hart.bitsAt vd e f := by
  have hread := putElems_raise_elem (L := s.hart.lanes)
    (fun e => some (scaledCell f vl (fun e => d.rounding s.draw e) exact e).1)
    (es := (scaledElems s vl).filter (fun e => decide (e < s.hart.lanes * f.perSlice))) hc hl
    (List.Nodup.filter _ List.nodup_range') (fun e he => by simpa using (List.mem_filter.1 he).2) hn
    (fun e _ hle => by simp [scaledCell, hle]) e he
  rw [scaledHart, Hart.wrV_other _ _ _ _ (by simp : vd ≠ vd + 1), Hart.wrV_same, hread]
  simp only [List.mem_filter, he, decide_true, and_true, mem_scaledElems hs]
  exact apply_ite (Option.elim · _ _) _ _ _

theorem scaledHart_scale (hc : s.hart.v[(vd + 1).val].Covered) (hn : vl ≤ 128 * s.hart.lanes) (hs : s.hart.vstart % 32 = 0)
    {b : Nat} (hb : b < s.hart.lanes * Fmt.x9.perSlice) :
    ((scaledHart s d vd f vl exact).v[(vd + 1).val]).elem s.hart.lanes .x9 b =
      if s.hart.vstart ≤ 32 * b ∧ 32 * b < vl then Claims.scaleFor f vl exact b else s.hart.bitsAt (vd + 1) b .x9 := by
  have hcap : s.hart.lanes * Fmt.x9.perSlice = s.hart.lanes * 32 := rfl
  have hlast : ∀ b ∈ scaledBlocks s vl, b < (vl + 31) / 32 := fun b hb => by
    have := (mem_scaledBlocks hs b).1 hb
    omega
  have hread := putElems_raise_elem (L := s.hart.lanes) (fun b => some (Claims.scaleFor f vl exact b))
    (es := scaledBlocks s vl) (n := (vl + 31) / 32) hc (f := .x9) rfl List.nodup_range'
    (fun b hb => by have := hlast b hb; omega) (by omega) (fun b hb hle => by have := hlast b hb; omega) b hb
  have hmod : Claims.scaleFor f vl exact b % 2 ^ Fmt.x9.width = Claims.scaleFor f vl exact b :=
    Nat.mod_eq_of_lt (Nat.lt_of_le_of_lt (scaleFor_le f vl exact b) (by decide))
  rw [scaledHart, Hart.wrV_same, hread]
  simp only [mem_scaledBlocks hs]
  rw [apply_ite (Option.elim · _ _), Option.elim_some, hmod]
  rfl

theorem foldl_or (fs : List Flags) (a : Flags) : fs.foldl (· ||| ·) a = a ||| fs.foldl (· ||| ·) flNone := by
  induction fs generalizing a with
  | nil => exact BitVec.or_zero.symm
  | cons f fs ih => 
    have hzero : flNone ||| f = f := BitVec.zero_or
    rw [List.foldl_cons, List.foldl_cons, ih, hzero, ih f, BitVec.or_assoc]

/-- With every element active, those from VSTART to VL - 1 are the scaled ones below VL. -/
theorem scaledElems_below (hpg : k.pg = 0) (hpn : k.pn = false) (hs : s.hart.vstart % 32 = 0) :
    (scaledElems s vl).filter (fun e => decide (e < vl)) = s.hart.actives k vl := by
  have hact : s.hart.actives k vl = List.range' s.hart.vstart (vl - s.hart.vstart) :=
    List.filter_eq_self.2 fun e _ => by simp [Hart.active, Hart.pbit, hpg, hpn]
  have hstart : 32 * (s.hart.vstart / 32) = s.hart.vstart := by omega
  rw [hact, scaledElems, hstart]
  generalize hm : 32 * ((vl + 31) / 32 - s.hart.vstart / 32) = m
  obtain ⟨j, rfl⟩ : ∃ j, m = (vl - s.hart.vstart) + j := ⟨m - (vl - s.hart.vstart), by omega⟩
  rw [← List.range'_append_1, List.filter_append, List.filter_eq_self.2, List.filter_eq_nil_iff.2, List.append_nil]
  · intro e he
    rw [List.mem_range'_1] at he
    simp only [decide_eq_true_eq]
    omega
  · intro e he
    rw [List.mem_range'_1] at he
    simp only [decide_eq_true_eq]
    omega

theorem scaledFlags_join (hpg : k.pg = 0) (hpn : k.pn = false) (hs : s.hart.vstart % 32 = 0) (a : Flags) :
    ((scaledElems s vl).map (scaledFlags s d f vl exact extra)).foldl (· ||| ·) a =
      a ||| ((s.hart.actives k vl).map (fun e =>
        if Claims.scaleFor f vl exact (e / 32) = 511 then (if (exact e).isNan then flNV else flNone)
        else (place f { d.rounding s.draw e with sat := true }
          ((exact e).scale (255 - (Claims.scaleFor f vl exact (e / 32) : Int)))).2 ||| extra e)).foldl (· ||| ·) flNone := by
  have hdrop : ∀ (es : List Nat) (a : Flags), (es.map (scaledFlags s d f vl exact extra)).foldl (· ||| ·) a =
      ((es.filter (fun e => decide (e < vl))).map (scaledFlags s d f vl exact extra)).foldl (· ||| ·) a := by
    intro es
    induction es with
    | nil => exact fun _ => rfl
    | cons e es ih =>
      intro a
      by_cases h : e < vl
      · rw [List.filter_cons_of_pos (by simpa using h)]
        exact ih _
      · rw [List.filter_cons_of_neg (by simpa using h), List.map_cons, List.foldl_cons, ih, scaledFlags, if_pos (by omega)]
        have hzero : a ||| flNone = a := BitVec.or_zero
        rw [hzero]
  rw [hdrop, scaledElems_below hpg hpn hs, foldl_or]
  refine congrArg (fun l => a ||| List.foldl (· ||| ·) flNone l) (List.map_congr_left fun e he => ?_)
  have hlt : ¬ vl ≤ e := by
    rw [← scaledElems_below hpg hpn hs] at he
    simpa using (List.mem_filter.1 he).2
  simp only [scaledFlags, scaledCell, hlt, if_false]
  split <;> rfl

/-- Registers beside those a hart has written. -/
theorem EndsWith.leaves {u : State} {fs : List Flags} {ds : List VIx} {fl : Flags} (h : EndsWith u t fs)
    (hrest : Claims.OnlyVector s u) (hended : Claims.Completed u t → Claims.Completed s t)
    (hv : ∀ v : VIx, v ∉ ds → u.hart.v[v.val] = s.hart.v[v.val]) (hp : u.hart.p = s.hart.p)
    (hfl : fs.foldl (· ||| ·) u.hart.fflags = s.hart.fflags ||| fl) : Claims.Leaves s t ds fl where
  registers v hvd := by rw [h.registers, hv v hvd]
  predicates := h.predicates.trans hp
  flags := h.flags.trans hfl
  rest := onlyVector_trans hrest h.rest
  ended := hended h.ended

theorem scaledCell_bits (c : Nat → Rounding) (e : Nat) : (scaledCell f vl c exact e).1 % 2 ^ f.width =
    if vl ≤ e ∨ Claims.scaleFor f vl exact (e / 32) = 511 then 0
    else (place f { c e with sat := true } ((exact e).scale (255 - (Claims.scaleFor f vl exact (e / 32) : Int)))).1 % 2 ^ f.width := by
  unfold scaledCell
  by_cases hvl : vl ≤ e
  · simp [hvl]
  · by_cases hE : Claims.scaleFor f vl exact (e / 32) = 511 <;> simp [hvl, hE]

/-- Writing the cells and the scales changes two registers, and may draw free values. -/
theorem scaledHart_frame (s : State) (d : Descr) (vd : VIx) (f : Fmt) (vl : Nat) (exact : Nat → Val) :
    ∃ n v, (s.drawn d vl).withHart (scaledHart s d vd f vl exact) = { s with draw := n, hart := { s.hart with v := v } } := by
  unfold State.drawn scaledHart
  split <;> exact ⟨_, _, rfl⟩

/-- What `placeAll` leaves of a block-scaled destination (R57). -/
theorem placeAll_takesScale (hd : d.dsc = true) (hpg : k.pg = 0) (hpn : k.pn = false) (hs : s.hart.vstart % 32 = 0)
    (hc : s.hart.v[vd.val].Covered) (hc1 : s.hart.v[(vd + 1).val].Covered) (hl : f.legal = true)
    (hn : vl ≤ s.hart.lanes * f.perSlice) (hn1 : vl ≤ 128 * s.hart.lanes) :
    let E := Claims.scaleFor f vl exact
    let res := fun e => place f { d.rounding s.draw e with sat := true } ((exact e).scale (255 - (E (e / 32) : Int)))
    ∃ t, s.placeAll k d vd f vl exact extra = .next t ∧
      (∀ e < s.hart.lanes * f.perSlice, t.hart.bitsAt vd e f =
        if s.hart.vstart ≤ e ∧ 32 * (e / 32) < vl then (if vl ≤ e ∨ E (e / 32) = 511 then 0 else (res e).1 % 2 ^ f.width)
        else s.hart.bitsAt vd e f) ∧
      (∀ b < s.hart.lanes * Fmt.x9.perSlice, t.hart.bitsAt (vd + 1) b .x9 =
        if s.hart.vstart ≤ 32 * b ∧ 32 * b < vl then E b else s.hart.bitsAt (vd + 1) b .x9) ∧
      Claims.Leaves s t [vd, vd + 1] (((s.hart.actives k vl).map (fun e =>
        if E (e / 32) = 511 then (if (exact e).isNan then flNV else flNone) else (res e).2 ||| extra e)).foldl (· ||| ·) flNone) := by
  intro E res
  by_cases hvl : vl = 0
  · obtain ⟨t, ht, hends⟩ := vDone_ends s
    have hnone : s.hart.actives k vl = [] := by simp [Hart.actives, hvl]
    refine ⟨t, (if_pos hvl).trans ht, fun e _ => ?_, fun b _ => ?_,
      hends.leaves rfl id (fun _ _ => rfl) rfl (by rw [hnone]; exact BitVec.or_zero.symm)⟩
    · rw [if_neg (by omega), Hart.bitsAt, OnlyVector.lanes hends.rest, hends.registers]
      rfl
    · rw [if_neg (by omega), Hart.bitsAt, OnlyVector.lanes hends.rest, hends.registers]
      rfl
  · obtain ⟨t, ht, hends⟩ := vDoneFlags_ends ((s.drawn d vl).withHart (scaledHart s d vd f vl exact))
      ((scaledElems s vl).map (scaledFlags s d f vl exact extra))
    obtain ⟨n, v, hframe⟩ := scaledHart_frame s d vd f vl exact
    have hrest : Claims.OnlyVector s ((s.drawn d vl).withHart (scaledHart s d vd f vl exact)) := by rw [hframe]; rfl
    have hlanes : t.hart.lanes = s.hart.lanes := OnlyVector.lanes (onlyVector_trans hrest hends.rest)
    refine ⟨t, (placeAll_scaled hvl hd).trans ht, fun e he => ?_, fun b hb => ?_, hends.leaves hrest ?_ (fun v hv => ?_) ?_ ?_⟩
    · rw [Hart.bitsAt, hlanes, hends.registers, State.withHart_hart, scaledHart_elem hc hl hn hs he, scaledCell_bits]
    · rw [Hart.bitsAt, hlanes, hends.registers, State.withHart_hart, scaledHart_scale hc1 hn1 hs hb]
    · rw [hframe]
      exact id
    · obtain ⟨hvd, hvd1⟩ : v ≠ vd ∧ v ≠ vd + 1 := by simpa using hv
      rw [State.withHart_hart, scaledHart, Hart.wrV_other _ _ _ _ hvd1, Hart.wrV_other _ _ _ _ hvd]
    · rw [hframe]
    · exact scaledFlags_join hpg hpn hs _

/- The instructions. -/

theorem formats_four {c0 c1 c2 c3 : Nat} {fs : List Fmt} (h : formats [c0, c1, c2, c3] = some fs) :
    ∃ f g x y, fs = [f, g, x, y] := by
  have hlen := length_of_formats h
  match fs, hlen with
  | [f, g, x, y], _ => exact ⟨f, g, x, y, rfl⟩

theorem ofCode_of_formats_two {c c' : Nat} {f g : Fmt} (h : formats [c, c'] = some [f, g]) :
    Fmt.ofCode c = some f ∧ Fmt.ofCode c' = some g := by
  unfold formats formats formats at h
  split at h
  next hc hcs =>
    split at hcs
    next hc' hnil =>
      cases hnil
      cases hcs
      cases h
      exact ⟨hc, hc'⟩
    · cases hcs
  · cases h

theorem eq_and_of_true {a b : Bool} (h : b = true) : a = (a && b) := by rw [h, Bool.and_true]

/-- An instruction that may write a block-scaled destination writes its exact results by `placeAll`. -/
theorem exec_scaledForm {i : Instr} {F : Claims.Form Val VIx} {fs : List Fmt} {fd : Fmt}
    (hF : Claims.scaledForm s.hart i = some F) (hd : Claims.Dispatches s F fs) (hfd : fs.getLast? = some fd)
    (hdsc : (s.hart.descr F.k).dsc = true) (hok : s.hart.dscOk F.k (s.hart.descr F.k) F.dest fd = true) :
    F.spans = id ∧ exec i s = s.placeAll F.k (s.hart.descr F.k) F.dest fd (Claims.length s F fs)
      (fun e => (F.result fs (Claims.length s F fs) e).1) (fun e => (F.result fs (Claims.length s F fs) e).2) := by
  unfold exec
  cases i with
  | vfadd k vd a b | vfsub k vd a b | vfmul k vd a b | vfdiv k vd a b | vfmin k vd a b | vfmax k vd a b =>
    cases hF
    obtain ⟨fa, fb, f, rfl⟩ := List.length_eq_three.1 (length_of_formats hd.known)
    cases hfd
    refine ⟨rfl, show floatOp _ _ _ _ _ _ = _ from (withFormats_runs hd rfl rfl rfl (eq_and_of_true hok)).trans rfl⟩
  | vfsqrt k vd a =>
    cases hF
    obtain ⟨fa, f, rfl⟩ := formats_two hd.known
    cases hfd
    refine ⟨rfl, show floatOp1 _ _ _ _ _ _ = _ from (withFormats_runs hd rfl rfl rfl (eq_and_of_true hok)).trans rfl⟩
  | vfma k vd a b x np nc =>
    cases hF
    obtain ⟨fa, fb, fc, f, rfl⟩ := formats_four hd.known
    cases hfd
    refine ⟨rfl, show execVfma _ _ _ _ _ _ _ _ = _ from (withFormats_runs hd rfl rfl rfl (eq_and_of_true hok)).trans rfl⟩
  | vcvt k vd a =>
    cases hF
    obtain ⟨fa, f, rfl⟩ := formats_two hd.known
    cases hfd
    obtain ⟨hfa, hf⟩ := ofCode_of_formats_two hd.known
    have hone : execVcvt k vd a s = floatOp1 (·.all Fmt.plain) id k vd a s := by
      unfold execVcvt
      simp [hfa, hf, hdsc]
    refine ⟨rfl, hone.trans ((withFormats_runs hd rfl rfl rfl (eq_and_of_true hok)).trans rfl)⟩
  | _ => cases hF

/-- A lane slice holds at most 128 elements of a format that may be block-scaled. -/
theorem scalable_perSlice {f : Fmt} (h : f.scalable = true) : f.perSlice ≤ 128 := by
  cases f <;> simp [Fmt.scalable, Fmt.narrow, Fmt.perSlice, Fmt.sliced, Fmt.container, Fmt.width] at h ⊢

/-- Settles O10: the exact results of the instruction go through `placeAll`. -/
theorem blockScaledDestinationsTakeScale : Obligations.BlockScaledDestinationsTakeScale := by
  intro s i F fs fd hF hd hfd hdsc hscal hdest hpg hpn hs hc hc1
  have hok : s.hart.dscOk F.k (s.hart.descr F.k) F.dest fd = true := by
    simp [Hart.dscOk, scaleOk, hscal, hdest, hpg, hpn, hs]
  have hslice := scalable_perSlice hscal
  obtain ⟨hspans, hexec⟩ := exec_scaledForm hF hd hfd hdsc hok
  obtain ⟨hl, hn⟩ := dispatched_dest hd hspans hfd
  rw [hexec]
  exact placeAll_takesScale hdsc hpg hpn hs hc hc1 hl hn
    (Nat.le_trans hn (Nat.mul_comm 128 _ ▸ Nat.mul_le_mul_left _ hslice))

end Sys2Proof.Machine
end

