-- ==== Sys2Proof/Proofs/ReductionsAndScans.lean ====
section
/-!
Reductions and scans (R64, R371 to R373): sums in their order and over trees, choices, and running sums.
-/

namespace Sys2Proof.Machine

set_option Elab.async false

variable {s t : State} {k : Blk} {vd : VIx} {d : Descr} {f : Fmt} {vl : Nat}

/- One rounded step. -/

theorem stochastic_lt (n : Nat) : (Config.stochasticBits n).toNat < 65536 := (Config.stochasticBits n).isLt

/-- The rounding of a draw is one that the claims allow. -/
theorem rounds_rounding (d : Descr) (f : Fmt) (v : Val) (draw e : Nat) : Claims.Rounds d f v (place f (d.rounding draw e) v) :=
  ⟨(Config.stochasticBits (draw + e)).toNat, stochastic_lt _, rfl⟩

/-- Placing a value in a running result. -/
theorem placed_spec (a : Acc) (d : Descr) (f : Fmt) (v : Val) : ∃ r, Claims.Rounds d f v r ∧
    (a.placed d f v).1.val = decodeVal f false r.1 ∧ (a.placed d f v).1.flags = a.flags ||| r.2 ∧ (a.placed d f v).2 = r.1 :=
  ⟨_, rounds_rounding d f v a.draw 0, rfl, rfl, rfl⟩

/- Sums. -/

theorem orderedSum_spec (a : Acc) (vs : List Val) : ∃ fl, Claims.OrderedSum d f a.val vs (orderedSum d f a vs).val fl ∧
    (orderedSum d f a vs).flags = a.flags ||| fl := by
  induction vs generalizing a with
  | nil => exact ⟨flNone, .done, BitVec.or_zero.symm⟩
  | cons v vs ih =>
    obtain ⟨r, hr, hval, hfl, -⟩ := placed_spec a d f (a.val.add (d.rnd = 2) v)
    obtain ⟨fl, hsum, hflags⟩ := ih (a.placed d f (a.val.add (d.rnd = 2) v)).1
    rw [hval] at hsum
    refine ⟨r.2 ||| fl, .add hr hsum, ?_⟩
    rw [orderedSum, hflags, hfl, BitVec.or_assoc]

/-- Values that trees over parts of a list give, with the list of their leaves and the union of their flags. -/
inductive Forest (d : Descr) (f : Fmt) : List Val → List Val → Flags → Prop where
  | nil : Forest d f [] [] flNone
  | cons {v vs ls ms fl gl} : Claims.TreeSum d f ls v fl → Forest d f vs ms gl → Forest d f (v :: vs) (ls ++ ms) (fl ||| gl)

theorem forest_leaves (vs : List Val) : Forest d f vs vs flNone := by
  induction vs with
  | nil => exact .nil
  | cons v vs ih => exact .cons (fl := flNone) (gl := flNone) (ls := [v]) .leaf ih

/-- A tree taken out of a forest. -/
theorem Forest.take {vs ms : List Val} {gl : Flags} (h : Forest d f vs ms gl) {i : Nat} (hi : i < vs.length) :
    ∃ ls fl ms' gl', Claims.TreeSum d f ls (vs.getD i (.nan false)) fl ∧ Forest d f (vs.eraseIdx i) ms' gl' ∧
      (ls ++ ms').Perm ms ∧ fl ||| gl' = gl := by
  induction h generalizing i with
  | nil => exact absurd hi (Nat.not_lt_zero i)
  | @cons v vs ls ms fl gl hv hvs ih =>
    cases i with
    | zero => exact ⟨ls, fl, ms, gl, hv, hvs, .refl _, rfl⟩
    | succ i =>
      obtain ⟨ls', fl', ms', gl', htree, hforest, hperm, hfl⟩ := ih (Nat.lt_of_succ_lt_succ hi)
      refine ⟨ls', fl', ls ++ ms', fl ||| gl', htree, .cons hv hforest, ?_, ?_⟩
      · rw [← List.append_assoc]
        exact (List.perm_append_comm.append_right ms').trans (by rw [List.append_assoc]; exact hperm.append_left ls)
      · rw [← hfl, ← BitVec.or_assoc, ← BitVec.or_assoc, BitVec.or_comm fl' fl]

/-- With two values or more, those that the choice names join. -/
theorem unorderedSum_join (fuel : Nat) (a : Acc) {vs : List Val} (h : 2 ≤ vs.length) :
    let i := Config.treePick a.draw % vs.length
    let j := Config.treePick a.draw / vs.length % (vs.length - 1)
    let r := (a.placed d f ((vs.getD i (.nan false)).add (d.rnd = 2) ((vs.eraseIdx i).getD j (.nan false)))).1
    unorderedSum d f (fuel + 1) a vs = unorderedSum d f fuel r (r.val :: (vs.eraseIdx i).eraseIdx j) := by
  match vs, h with
  | _ :: _ :: _, _ => rfl

/-- Joining the trees of a forest two by two gives a tree over all of its leaves. -/
theorem unorderedSum_spec (fuel : Nat) (a : Acc) {vs ms : List Val} {gl : Flags} (hforest : Forest d f vs ms gl)
    (hne : vs ≠ []) (hfuel : vs.length ≤ fuel) (hfl : a.flags = gl) :
    ∃ ls, ls.Perm ms ∧ Claims.TreeSum d f ls (unorderedSum d f fuel a vs).val (unorderedSum d f fuel a vs).flags := by
  induction fuel generalizing a vs ms gl with
  | zero => exact absurd (List.length_eq_zero_iff.1 (Nat.le_zero.1 hfuel)) hne
  | succ fuel ih =>
    match vs, hne with
    | [v], _ =>
      cases hforest with
      | cons htree hnil =>
        cases hnil
        refine ⟨_, by rw [List.append_nil], ?_⟩
        have hzero : a.flags = _ := hfl.trans BitVec.or_zero
        rw [unorderedSum, hzero]
        exact htree
    | v :: w :: us, _ =>
      generalize hvs : v :: w :: us = vs at *
      have hlen : 2 ≤ vs.length := by rw [← hvs]; simp
      let i := Config.treePick a.draw % vs.length
      let j := Config.treePick a.draw / vs.length % (vs.length - 1)
      have hi : i < vs.length := Nat.mod_lt _ (by omega)
      have hlenrest : (vs.eraseIdx i).length = vs.length - 1 := List.length_eraseIdx_of_lt hi
      have hj : j < (vs.eraseIdx i).length := by rw [hlenrest]; exact Nat.mod_lt _ (by omega)
      obtain ⟨ls, fl, ms1, gl1, htree, hrest, hperm, hor⟩ := hforest.take hi
      obtain ⟨ls', fl', ms2, gl2, htree', hrest', hperm', hor'⟩ := hrest.take hj
      obtain ⟨r, hr, hval, hplaced, -⟩ := placed_spec a d f ((vs.getD i (.nan false)).add (d.rnd = 2)
        ((vs.eraseIdx i).getD j (.nan false)))
      rw [unorderedSum_join fuel a hlen]
      have hjoined : Forest d f (decodeVal f false r.1 :: (vs.eraseIdx i).eraseIdx j) ((ls ++ ls') ++ ms2)
          ((fl ||| fl' ||| r.2) ||| gl2) := .cons (.node htree htree' hr) hrest'
      rw [← hval] at hjoined
      obtain ⟨ls2, hperm2, htree2⟩ := ih _ hjoined (by simp)
        (by rw [List.length_cons, List.length_eraseIdx_of_lt hj, hlenrest]; omega)
        (by rw [hplaced, hfl, ← hor, ← hor']; ac_rfl)
      refine ⟨ls2, hperm2.trans ?_, htree2⟩
      rw [List.append_assoc]
      exact (hperm'.append_left ls).trans hperm

/- Choices. -/

theorem ite_quiet {c : Prop} [Decidable c] {a b : Val} (ha : a.isSignalling = false) (hb : b.isSignalling = false) :
    (if c then a else b).isSignalling = false := by
  split
  · exact ha
  · exact hb

/-- A choice between two values is no signalling NaN (R353). -/
theorem choose_quiet (most : Bool) (a b : Val) : (a.choose most b).isSignalling = false := by
  cases a with
  | nan p => cases b <;> rfl
  | inf p =>
    cases b with
    | nan q => rfl
    | _ => exact ite_quiet (ite_quiet rfl rfl) (ite_quiet rfl rfl)
  | num p m n =>
    cases b with
    | nan q => rfl
    | _ => exact ite_quiet (ite_quiet rfl rfl) (ite_quiet rfl rfl)

/-- NV when it is asked for. -/
def nvIf (c : Bool) : Flags := if c then flNV else flNone

theorem nvIf_or (b c : Bool) : nvIf b ||| nvIf c = nvIf (b || c) := by
  cases b <;> cases c <;> rfl

/-- Choosing among further values: the choice, and NV when one of the values that met was a signalling NaN. -/
theorem chooseOthers_spec (most : Bool) (a : Acc) (vs : List Val) :
    let r := vs.foldl (fun a v => { a with val := a.val.choose most v, flags := a.flags ||| nvIf (a.val.isSignalling || v.isSignalling) }) a
    r.val = vs.foldl (·.choose most) a.val ∧
      r.flags = a.flags ||| nvIf (!vs.isEmpty && (a.val.isSignalling || vs.any Val.isSignalling)) := by
  induction vs generalizing a with
  | nil => exact ⟨rfl, BitVec.or_zero.symm⟩
  | cons v vs ih =>
    obtain ⟨hval, hfl⟩ := ih { a with val := a.val.choose most v, flags := a.flags ||| nvIf (a.val.isSignalling || v.isSignalling) }
    refine ⟨hval, hfl.trans ?_⟩
    rw [choose_quiet, BitVec.or_assoc, nvIf_or]
    cases vs <;> simp [Bool.or_assoc]

theorem chooseAll_spec (most : Bool) (a : Acc) {vs : List Val} (hne : vs ≠ []) :
    (chooseAll most a vs).val = Claims.chosen most vs ∧ (chooseAll most a vs).flags =
      a.flags ||| if 2 ≤ vs.length ∧ vs.any Val.isSignalling = true then flNV else flNone := by
  cases vs with
  | nil => exact absurd rfl hne
  | cons v vs =>
    obtain ⟨hval, hfl⟩ := chooseOthers_spec most { a with val := v } vs
    refine ⟨hval, hfl.trans (congrArg _ ?_)⟩
    cases vs <;> simp [nvIf]

theorem chooseInt_max (l : List Int) : chooseInt true l = l.max?.getD 0 := by
  cases l with
  | nil => rfl
  | cons x xs =>
    rw [List.max?_cons', Option.getD_some]
    refine congrArg (fun g => List.foldl g x xs) ?_
    funext a b
    change (if a < b then b else a) = max a b
    split <;> omega

theorem chooseInt_min (l : List Int) : chooseInt false l = l.min?.getD 0 := by
  cases l with
  | nil => rfl
  | cons x xs =>
    rw [List.min?_cons', Option.getD_some]
    refine congrArg (fun g => List.foldl g x xs) ?_
    funext a b
    change (if b < a then b else a) = min a b
    split <;> omega

/- Reductions. -/

/-- What a reduction gives: of integers the claims' result, of floats a value and flags that they allow. -/
structure Reduces (op : Claims.Reduction) (r : Reducer) : Prop where
  ints : r.ints = op.ofInts
  floats : ∀ (d : Descr) (f : Fmt) (n : Nat) (vs : List Val), vs ≠ [] →
    let a := r.floats d f { val := .nan false, flags := flNone, draw := n } vs
    op.Allows d f vs ((a.placed d f a.val).2, (a.placed d f a.val).1.flags)

theorem allows_of_choice {op : Claims.Reduction} {vs : List Val} {a : Acc} {most : Bool}
    (hop : op = if most then .largest else .smallest) (hval : a.val = Claims.chosen most vs)
    (hfl : a.flags = if 2 ≤ vs.length ∧ vs.any Val.isSignalling = true then flNV else flNone) :
    op.Allows d f vs ((a.placed d f a.val).2, (a.placed d f a.val).1.flags) := by
  obtain ⟨r, hr, -, hplaced, hbits⟩ := placed_spec a d f a.val
  refine ⟨a.val, r, a.flags, hr, by rw [hplaced, hbits], ?_⟩
  cases most
  · rw [hop]
    exact ⟨hval, hfl⟩
  · rw [hop]
    exact ⟨hval, hfl⟩

theorem reduces_choice (most : Bool) : Reduces (if most then .largest else .smallest)
    { ints := chooseInt most, floats := fun _ _ => chooseAll most } where
  ints := by
    funext l
    cases most
    · exact chooseInt_min l
    · exact chooseInt_max l
  floats d f n vs hne := by
    obtain ⟨hval, hfl⟩ := chooseAll_spec most { val := .nan false, flags := flNone, draw := n } hne
    exact allows_of_choice rfl hval (hfl.trans BitVec.zero_or)

theorem reduces_sum (ordered : Bool) : Reduces (.sum ordered)
    { ints := List.sum
      floats := fun d f a vs => if ordered then foldVals (orderedSum d f) a vs else unorderedSum d f vs.length a vs } where
  ints := rfl
  floats d f n vs hne := by
    intro a
    obtain ⟨r, hr, -, hplaced, hbits⟩ := placed_spec a d f a.val
    refine ⟨a.val, r, a.flags, hr, by rw [hplaced, hbits], ?_⟩
    cases ordered
    · obtain ⟨ls, hperm, htree⟩ := unorderedSum_spec vs.length { val := .nan false, flags := flNone, draw := n }
        (forest_leaves (d := d) (f := f) vs) hne (Nat.le_refl _) rfl
      exact ⟨ls, hperm, htree⟩
    · cases vs with
      | nil => exact absurd rfl hne
      | cons v vs =>
        obtain ⟨fl, hsum, hfl⟩ := orderedSum_spec (d := d) (f := f) { val := v, flags := flNone, draw := n } vs
        have hflags : a.flags = fl := hfl.trans BitVec.zero_or
        rw [hflags]
        exact hsum

/- What a reduction leaves. -/

/-- Nothing written: every element stands. -/
theorem EndsWith.scattered_none (h : EndsWith s t []) : Claims.Scattered s t vd f (fun _ => none) flNone where
  element e _ := by
    rw [Hart.bitsAt, OnlyVector.lanes h.rest, h.registers]
    rfl
  registers v _ := by rw [h.registers]
  predicates := h.predicates
  flags := h.flags.trans BitVec.or_zero.symm
  rest := h.rest
  ended := h.ended

/-- The hart once bits have been written to element 0. -/
def Hart.first (h : Hart) (vd : VIx) (f : Fmt) (bits : Nat) : Hart :=
  h.wrV vd ((h.v[vd.val].setElem h.lanes f 0 bits).raise h.lanes f 1)

/-- Element 0 takes bits, and flags are raised. -/
theorem first_scattered {n bits : Nat} {fl : Flags} (hc : s.hart.v[vd.val].Covered) (hl : f.legal = true)
    (hn : 1 ≤ s.hart.lanes * f.perSlice) :
    ∃ t, vDoneFlags ({ s with draw := n }.withHart (s.hart.first vd f bits)) [fl] = .next t ∧
      Claims.Scattered s t vd f (fun e => if e = 0 then some bits else none) fl := by
  obtain ⟨t, ht, h⟩ := vDoneFlags_ends ({ s with draw := n }.withHart (s.hart.first vd f bits)) [fl]
  have h0 : Claims.OnlyVector s ({ s with draw := n }.withHart (s.hart.first vd f bits)) := rfl
  have hrest : Claims.OnlyVector s t := onlyVector_trans h0 h.rest
  refine ⟨t, ht, fun e he => ?_, fun v hv => ?_, h.predicates, h.flags, hrest, h.ended⟩
  · have hread := putElems_raise_elem (L := s.hart.lanes) (fun _ => some bits) (es := [0]) hc hl (List.nodup_singleton 0)
      (fun e he => List.mem_singleton.1 he ▸ hn) hn (fun e he hle => by rw [List.mem_singleton.1 he] at hle; omega) e he
    rw [Hart.bitsAt, OnlyVector.lanes hrest, h.registers, State.withHart_hart, Hart.first, Hart.wrV_same]
    refine Eq.trans hread ?_
    by_cases h0 : e = 0 <;> simp [h0, Hart.bitsAt]
  · rw [h.registers, State.withHart_hart, Hart.first, Hart.wrV_other _ _ _ _ hv]

theorem reducible_eq (c : Descr) (a : VIx) (fa fd : Fmt) : Claims.reducible c a [fa, fd] = reduceFormats c a [fa, fd] := by
  simp [Claims.reducible, Claims.reducible.wideOrNarrow, reduceFormats, Bool.and_assoc]

/-- Two formats of one form decide VL and lie in the destination. -/
theorem vl_capacity {fa fd : Fmt} : s.hart.vl k (vlmax s.hart.lanes [fa, fd]) ≤ s.hart.lanes * fd.perSlice :=
  Nat.le_trans (vl_le _ _ _) (vlmax_le _ (by simp))

theorem actives_lt {e : Nat} (he : e ∈ s.hart.actives k vl) : s.hart.vstart ≤ e ∧ e < vl := by
  have := (List.mem_filter.1 he).1
  rw [List.mem_range'_1] at this
  omega

theorem exec_reductionOf {i : Instr} {op : Claims.Reduction} {a : VIx} (hi : Claims.reductionOf i = some (op, k, vd, a)) :
    ∃ r, exec i s = reduceOp r k vd a s ∧ Reduces op r := by
  unfold exec
  cases i with
  | vredsum k' d' a' ordered =>
    cases hi
    exact ⟨_, rfl, reduces_sum ordered⟩
  | vredmax k' d' a' =>
    cases hi
    exact ⟨_, rfl, reduces_choice true⟩
  | vredmin k' d' a' =>
    cases hi
    exact ⟨_, rfl, reduces_choice false⟩
  | _ => cases hi

theorem reductionsWriteElementZero : Claims.ReductionsWriteElementZero := by
  intro s i op k vd a fa fd h c F hi hd hc
  obtain ⟨r, hexec, hr⟩ := exec_reductionOf (s := s) hi
  have hl : fd.legal = true := formats_legal hd.known fd (by simp)
  have hrun := hexec.trans (withFormats_runs hd rfl rfl rfl (reducible_eq c a fa fd))
  dsimp only
  set es := h.actives k (Claims.length s F [fa, fd]) with hes
  by_cases hnone : es = []
  · refine ⟨fun _ => ?_, fun hne => absurd hnone hne, fun hne => absurd hnone hne⟩
    obtain ⟨t, ht, hends⟩ := vDone_ends s
    exact ⟨t, hrun.trans ((if_pos (List.isEmpty_iff.2 hnone)).trans ht), hends.scattered_none⟩
  · obtain ⟨e, he⟩ := List.exists_mem_of_ne_nil _ hnone
    have hcap : 1 ≤ h.lanes * fd.perSlice := Nat.le_trans (Nat.one_le_of_lt (actives_lt he).2) vl_capacity
    have hrun := hrun.trans (if_neg fun h => hnone (List.isEmpty_iff.1 h))
    refine ⟨fun h => absurd h hnone, fun _ hint => ?_, fun _ hfloat => ?_⟩
    · obtain ⟨t, ht, hs⟩ := first_scattered (n := s.draw) hc hl hcap
      refine ⟨t, hrun.trans ((if_pos hint).trans ?_), hs⟩
      rw [hr.ints]
      exact ht
    · obtain ⟨t, ht, hs⟩ := first_scattered hc hl hcap
      exact ⟨_, hr.floats c fd s.draw (es.map (fun j => h.valAt a j fa c.asc c.ftz)) (by simpa using hnone), t,
        hrun.trans ((if_neg (by rw [hfloat]; exact Bool.false_ne_true)).trans ht), hs⟩

/- Running sums. -/

theorem drawn_eq (s : State) (d : Descr) (n : Nat) : ∃ m, s.drawn d n = { s with draw := m } := by
  unfold State.drawn
  split
  · exact ⟨_, rfl⟩
  · exact ⟨s.draw, rfl⟩

/-- What an element of a list has in a list of results beside it. -/
theorem alookup_zip {α : Type} {es : List Nat} {rs : List α} (h : rs.length = es.length) (e : Nat) :
    alookup (es.zip rs) e = rs[es.idxOf e]? := by
  induction es generalizing rs with
  | nil =>
    cases rs with
    | nil => rfl
    | cons r rs => cases h
  | cons a es ih =>
    cases rs with
    | nil => cases h
    | cons r rs =>
      by_cases hae : a = e
      · simp [alookup, hae]
      · simp [alookup, hae, ih (Nat.succ.inj h), List.idxOf_cons_ne]

/-- The results beside the elements of a list without repetitions, element by element. -/
theorem map_getD_idxOf {α : Type} {es : List Nat} {rs : List α} (h : rs.length = es.length) (hn : es.Nodup) (r0 : α) :
    es.map (fun e => rs.getD (es.idxOf e) r0) = rs := by
  refine List.ext_getElem (by simp [h]) fun i hi hi' => ?_
  rw [List.getElem_map, hn.idxOf_getElem i (by simpa using hi), List.getD_eq_getElem _ _ hi']

theorem actives_nodup (h : Hart) (k : Blk) (n : Nat) : (h.actives k n).Nodup := List.Nodup.filter _ List.nodup_range'

/-- A scan writes the results that stand beside the active elements. -/
theorem scan_written {rs : List (Nat × Flags)} (h : rs.length = (s.hart.actives k vl).length) (hc : s.hart.v[vd.val].Covered)
    (hl : f.legal = true) (hn : vl ≤ s.hart.lanes * f.perSlice) :
    let out := (s.hart.actives k vl).zip rs
    ∃ t, vDoneFlags ((s.drawn d vl).withHart (s.hart.wrV vd (s.hart.frame k vd f vl (fun e =>
        (((alookup out e).map (·.1)).getD 0))))) (out.map (·.2.2)) = .next t ∧
      Claims.Written s t k vd f vl (fun e => rs.getD ((s.hart.actives k vl).idxOf e) (0, flNone)) := by
  intro out
  obtain ⟨m, hm⟩ := drawn_eq s d vl
  obtain ⟨t, ht, hw⟩ := writeElems_written (k := k) (d := m) (body := fun e => rs.getD ((s.hart.actives k vl).idxOf e) (0, flNone)) hc hl hn
  refine ⟨t, Eq.trans ?_ ht, hw⟩
  have hbody : (fun e => ((alookup out e).map (·.1)).getD 0) =
      fun e => (rs.getD ((s.hart.actives k vl).idxOf e) (0, flNone)).1 := by
    funext e
    rw [alookup_zip h, List.getD_eq_getElem?_getD]
    cases rs[(s.hart.actives k vl).idxOf e]? <;> rfl
  have hflags : out.map (fun x => x.2.2) = (s.hart.actives k vl).map (fun e => (rs.getD ((s.hart.actives k vl).idxOf e) (0, flNone)).2) := by
    have hleft : out.map (fun x => x.2.2) = (out.map Prod.snd).map Prod.snd := by simp
    have hright := map_getD_idxOf h (actives_nodup s.hart k vl) (0, flNone)
    rw [hleft, List.map_snd_zip (Nat.le_of_eq h)]
    conv_lhs => rw [← hright]
    rw [List.map_map]
    rfl
  rw [hm, hbody, hflags]
  rfl

/-- Only the results of active elements matter. -/
theorem Written.congr {res res' : Nat → Nat × Flags} (h : Claims.Written s t k vd f vl res)
    (heq : ∀ e ∈ s.hart.actives k vl, res e = res' e) : Claims.Written s t k vd f vl res' := by
  refine ⟨fun e he => (h.element e he).trans ?_, h.registers, h.predicates, h.flags.trans ?_, h.rest, h.ended⟩
  · by_cases hin : s.hart.vstart ≤ e ∧ e < vl
    · by_cases hact : s.hart.active k e = true
      · rw [heq e (List.mem_filter.2 ⟨List.mem_range'_1.2 (by omega), hact⟩)]
      · simp [hact]
    · simp [hin]
  · exact congrArg (fun l => List.foldl (· ||| ·) s.hart.fflags l) (List.map_congr_left fun e he => congrArg Prod.snd (heq e he))

/-- The running sums over integers: each element's is that of the elements up to it. -/
theorem scanInts_eq (sat : Bool) (get : Nat → Int) (acc : Int) (es : List Nat) : scanInts f sat get acc es =
    es.zip ((List.range es.length).map (fun n => fit f (acc + ((es.take (n + 1)).map get).sum) sat)) := by
  induction es generalizing acc with
  | nil => rfl
  | cons e es ih =>
    rw [scanInts, ih, List.length_cons, List.range_succ_eq_map, List.map_cons, List.zip_cons_cons, List.map_map]
    simp [Function.comp_def, Int.add_assoc]

/-- The active elements up to one of them are those up to its place. -/
theorem take_actives {h : Hart} {e : Nat} (he : e ∈ h.actives k vl) :
    (h.actives k vl).take ((h.actives k vl).idxOf e + 1) = h.actives k (e + 1) := by
  obtain ⟨hrange, hact⟩ := List.mem_filter.1 he
  rw [List.mem_range'_1] at hrange
  have hbefore : h.actives k (e + 1) = (List.range' h.vstart (e - h.vstart)).filter (h.active k) ++ [e] := by
    rw [Hart.actives, show e + 1 - h.vstart = (e - h.vstart) + 1 by omega, List.range'_concat, List.filter_append]
    simp [show h.vstart + (e - h.vstart) = e by omega, hact]
  have hall : h.actives k vl = (List.range' h.vstart (e - h.vstart)).filter (h.active k) ++
      e :: (List.range' (e + 1) (vl - (e + 1))).filter (h.active k) := by
    rw [Hart.actives, show vl - h.vstart = (e - h.vstart) + ((vl - (e + 1)) + 1) by omega, ← List.range'_append_1,
      show h.vstart + (e - h.vstart) = e by omega, List.range'_succ, List.filter_append, List.filter_cons_of_pos hact]
  have hnot : e ∉ (List.range' h.vstart (e - h.vstart)).filter (h.active k) := fun hmem => by
    have := List.mem_range'_1.1 (List.mem_filter.1 hmem).1
    omega
  rw [hbefore, hall, List.idxOf_append_of_notMem hnot, List.idxOf_cons_self, List.append_cons]
  exact List.take_left' (by simp)

/-- The running sums over floats. -/
theorem scanFloats_spec (get : Nat → Val) (acc : Option Val) (draw : Nat) (es : List Nat) :
    ∃ rs, scanFloats d f get acc draw es = es.zip rs ∧ rs.length = es.length ∧ Claims.ScanSums d f acc (es.map get) rs := by
  induction es generalizing acc draw with
  | nil => exact ⟨[], rfl, rfl, .done⟩
  | cons e es ih =>
    cases acc with
    | none =>
      obtain ⟨rs, hrs, hlen, hsum⟩ := ih (some (get e)) (draw + 1)
      exact ⟨place f (d.rounding draw 0) (get e) :: rs, by rw [scanFloats, hrs]; rfl, by simp [hlen],
        .first (rounds_rounding d f _ draw 0) hsum⟩
    | some a =>
      obtain ⟨rs, hrs, hlen, hsum⟩ := ih (some (decodeVal f false (place f (d.rounding draw 0) (a.add (d.rnd = 2) (get e))).1)) (draw + 1)
      exact ⟨place f (d.rounding draw 0) (a.add (d.rnd = 2) (get e)) :: rs, by rw [scanFloats, hrs]; rfl, by simp [hlen],
        .next (rounds_rounding d f _ draw 0) hsum⟩

theorem scansWriteRunningSums : Claims.ScansWriteRunningSums := by
  intro s k vd a fa fd h c F hd hc
  have hl : fd.legal = true := formats_legal hd.known fd (by simp)
  have hrun : exec (.vscan k vd a) s = _ :=
    show execVscan k vd a s = _ from withFormats_runs (F := F) hd rfl rfl rfl (reducible_eq c a fa fd)
  dsimp only
  refine ⟨fun hint => ?_, fun hfloat => ?_⟩
  · have hlen : ((List.range (h.actives k (Claims.length s F [fa, fd])).length).map (fun n => fit fd
        (0 + (((h.actives k (Claims.length s F [fa, fd])).take (n + 1)).map (fun j => h.intAt a j fa)).sum) c.sat)).length =
        (h.actives k (Claims.length s F [fa, fd])).length := by simp
    obtain ⟨t, ht, hw⟩ := scan_written (d := c) hlen hc hl vl_capacity
    refine ⟨t, hrun.trans (Eq.trans ?_ ht), Written.congr hw fun e he => ?_⟩
    · simp only [hint, if_true, scanInts_eq]
      rfl
    · have hidx := List.idxOf_lt_length_of_mem he
      rw [List.getD_eq_getElem _ _ (by rwa [hlen]), List.getElem_map, List.getElem_range, take_actives he, zero_add]
  · obtain ⟨rs, hrs, hlen, hsum⟩ := scanFloats_spec (d := c) (f := fd) (fun e => h.valAt a e fa c.asc c.ftz) none s.draw
      (h.actives k (Claims.length s F [fa, fd]))
    obtain ⟨t, ht, hw⟩ := scan_written (d := c) hlen hc hl vl_capacity
    refine ⟨rs, hsum, t, hrun.trans (Eq.trans ?_ ht), hw⟩
    rw [← hrs]
    simp only [hfloat, Bool.false_eq_true, if_false]
    rfl

end Sys2Proof.Machine
end

