-- ==== Sys2Proof/Proofs/SlicesAndOwedWrites.lean ====
section
/-!
Time slices, threshold windows and the writes that the scheduler owes (R70, R118, R140, R144, R147, R151, R383).
-/

namespace Sys2Proof.Machine

set_option Elab.async false

variable {s : State} {p : Nat}

/- Records put in twice. -/

theorem ainsert_ainsert {α : Type} (l : List (Nat × α)) (k : Nat) (a b : α) :
    ainsert (ainsert l k a) k b = ainsert l k b := by
  induction l with
  | nil => simp [ainsert]
  | cons e l ih => grind [ainsert]

@[simp] theorem State.setPartAt_setPartAt (s : State) (p : Nat) (v w : Part) :
    (s.setPartAt p v).setPartAt p w = s.setPartAt p w := by
  simp only [State.setPartAt, ainsert_ainsert]

/- The member of a list that no other exceeds. -/

/-- The first member of greatest measure. -/
def IsBest (f : Nat → Int) (l : List Nat) (x : Nat) : Prop := x ∈ l ∧ ∀ y ∈ l, f y ≤ f x

theorem bestOf_eq_none {f : Nat → Int} {l : List Nat} : bestOf f l = none ↔ l = [] := by
  cases l with
  | nil => simp [bestOf]
  | cons x xs =>
    rw [bestOf]
    cases bestOf f xs with
    | none => simp
    | some y => by_cases h : f x < f y <;> simp [h]

theorem isBest_of_bestOf {f : Nat → Int} {l : List Nat} {x : Nat} (h : bestOf f l = some x) : IsBest f l x := by
  induction l generalizing x with
  | nil => simp [bestOf] at h
  | cons a xs ih =>
    rw [bestOf] at h
    cases hb : bestOf f xs with
    | none =>
      rw [hb] at h
      obtain rfl := Option.some.inj h
      rw [bestOf_eq_none] at hb
      exact ⟨by simp, by simp [hb]⟩
    | some y =>
      obtain ⟨hmem, hle⟩ := ih hb
      rw [hb] at h
      dsimp only at h
      split at h
      next hlt =>
        obtain rfl := Option.some.inj h
        exact ⟨.tail _ hmem, List.forall_mem_cons.mpr ⟨hlt.le, hle⟩⟩
      next hge =>
        obtain rfl := Option.some.inj h
        exact ⟨.head _, List.forall_mem_cons.mpr ⟨le_rfl, fun z hz => (hle z hz).trans (not_lt.mp hge)⟩⟩

/-- In an ascending list the member that is best and exceeds every best one before it is the one found. -/
theorem bestOf_eq_some {f : Nat → Int} {l : List Nat} (hl : l.Pairwise (· < ·)) {x : Nat} (h : IsBest f l x)
    (hfirst : ∀ y ∈ l, y < x → f y < f x) : bestOf f l = some x := by
  induction l with
  | nil => simp [IsBest] at h
  | cons a xs ih =>
    obtain ⟨hmem, hle⟩ := h
    rw [List.pairwise_cons] at hl
    rw [bestOf]
    obtain rfl | hx := List.mem_cons.mp hmem
    · cases hb : bestOf f xs with
      | none => rfl
      | some y =>
        have hy := hle y (.tail _ (isBest_of_bestOf hb).1)
        exact if_neg (not_lt.mpr hy)
    · rw [ih hl.2 ⟨hx, fun y hy => hle y (.tail _ hy)⟩ fun y hy => hfirst y (.tail _ hy)]
      exact if_pos (hfirst a (.head _) (hl.1 x hx))

/- Time slices. -/

theorem not_oversubscribed_of_order_nil (h : (s.partAt p).order = []) : s.oversubscribed p = false := by
  simp [State.oversubscribed, h]

theorem sliceOver_eq {t0 : Nat} (h : (s.partAt p).sliceStart = some t0) :
    s.sliceOver p = decide (t0 + 3600 * (s.partAt p).record.slice ≤ s.clk) := by
  rw [State.sliceOver, h]

/-- The running context of greatest charge since its dispatch, or 0. -/
def State.mostCharged (s : State) (p : Nat) : Option Nat :=
  bestOf (fun h => ((s.hartAt h).sinceDispatch : Int)) (s.runningList p)

/-- The waiting context of least charge. -/
def State.leastCharged (s : State) (p : Nat) : Option Nat :=
  bestOf (fun h => -((s.hartAt h).lanecyc : Int)) (s.partAt p).order

/-- The PREEMPT that the end of a slice posts (R144, R151). -/
def State.sliceEvent (s : State) (p : Nat) : PolEvent :=
  { kind := 2, f2 := (s.mostCharged p).getD 0, f3 := (s.leastCharged p).getD 0, named := (s.mostCharged p).isSome }

theorem exec_sliceEnd_posts {t0 : Nat} (ho : s.oversubscribed p = true) (hs : (s.partAt p).sliceStart = some t0)
    (hc : t0 + 3600 * (s.partAt p).record.slice ≤ s.clk) :
    exec (.sliceEnd p) s = .next (s.setPartAt p { s.partAt p with
      sliceStart := some s.clk, events := (s.partAt p).events ++ [s.sliceEvent p] }) := by
  show execSliceEnd p s = _
  simp only [execSliceEnd, ho, sliceOver_eq hs, hc, hs, State.postPolicy, State.setPartAt_setPartAt,
    State.partAt_setPartAt_same, Option.isNone_some, decide_true, Bool.not_true, Bool.false_eq_true, if_false]
  rfl

theorem mostCharged_is_most {h : Nat} (hr : h ∈ s.runningList p) :
    (s.mostCharged p).getD 0 ∈ s.runningList p ∧
      (s.hartAt h).sinceDispatch ≤ (s.hartAt ((s.mostCharged p).getD 0)).sinceDispatch := by
  cases hb : s.mostCharged p with
  | none => rw [State.mostCharged, bestOf_eq_none] at hb; simp [hb] at hr
  | some x =>
    obtain ⟨hmem, hle⟩ := isBest_of_bestOf hb
    exact ⟨hmem, by simpa using hle h hr⟩

theorem leastCharged_is_least (ho : (s.partAt p).order ≠ []) : (s.leastCharged p).getD 0 ∈ (s.partAt p).order ∧
    ∀ h ∈ (s.partAt p).order, (s.hartAt ((s.leastCharged p).getD 0)).lanecyc ≤ (s.hartAt h).lanecyc := by
  cases hb : s.leastCharged p with
  | none => rw [State.leastCharged, bestOf_eq_none] at hb; exact absurd hb ho
  | some x =>
    obtain ⟨hmem, hle⟩ := isBest_of_bestOf hb
    exact ⟨hmem, fun h hh => by simpa using hle h hh⟩

theorem slicesPostPreempt : Claims.SlicesPostPreempt := by
  intro s p
  refine ⟨fun ho => ?_, fun ho hs => ?_, fun t0 ho hs => ⟨fun hc => ?_, fun hc => ?_⟩⟩
  · show execSliceEnd p s = _
    simp [execSliceEnd, ho]
  · show execSliceEnd p s = _
    simp [execSliceEnd, ho, hs]
  · show execSliceEnd p s = _
    simp [execSliceEnd, ho, hs, sliceOver_eq hs, hc]
  · have horder : (s.partAt p).order ≠ [] := fun h => by
      rw [not_oversubscribed_of_order_nil h] at ho; cases ho
    exact ⟨s.sliceEvent p, exec_sliceEnd_posts ho hs hc, rfl, fun h hr => mostCharged_is_most hr, leastCharged_is_least horder⟩

/- Threshold windows. -/

theorem windowsReset : Claims.WindowsReset := by
  intro s h v hn hz ht
  refine if_pos ?_
  simp only [Bool.and_eq_true, bne_iff_ne, beq_iff_eq]
  exact ⟨⟨hn, by simpa [State.ticking, State.steadClk, steadOf] using ht⟩, hz⟩

/- Writes that the scheduler owes. -/

/-- The state in which the scheduler no longer owes the write of number n. -/
def State.unowed (s : State) (n : Nat) : State := { s with schedWrites := s.schedWrites.filter (·.id != n) }

/-- Nothing but an owed write of the scheduler has the number n. -/
structure OwedAlone (s : State) (n : Nat) : Prop where
  ops : s.opById n = none
  streams : ∀ j ∈ s.jobs, ∀ t ∈ j.streams, t.id ≠ n
  held : ∀ h ∈ s.held, h.id ≠ n

theorem pairRead_eq {n : Nat} (h : ∀ j ∈ s.jobs, ∀ t ∈ j.streams, t.id ≠ n) : s.pairRead n = s := by
  have hnone : s.jobs.filterMap (fun j => (j.streams.find? (·.id == n)).map (fun t => (j, t))) = [] := by
    refine List.filterMap_eq_nil_iff.mpr fun j hj => ?_
    rw [List.find?_eq_none.mpr fun t ht => by simpa using h j hj t ht]
    rfl
  rw [State.pairRead, hnone]
  rfl

theorem performHeld_eq {n : Nat} (h : ∀ w ∈ s.held, w.id ≠ n) : s.performHeld n = s := by
  rw [State.performHeld, List.find?_eq_none.mpr fun w hw => by simp [h w hw]]

/-- The oldest write that the scheduler owes for a partition performs (R147). -/
theorem engineStep_owed {before after : List OwedWrite} {w : OwedWrite} (ha : OwedAlone s w.id)
    (hw : s.schedWrites = before ++ w :: after) (hp : ∀ x ∈ before, x.part ≠ w.part)
    (hid : ∀ x ∈ before ++ after, x.id ≠ w.id) :
    s.engineStep w.id = (match w.head with
      | some b => (s.unowed w.id).writeHead w.part w.farm b w.bytes
      | none => (s.unowed w.id).schedulerWrite w.part w.farm w.addr w.bytes) := by
  have hbefore : ∀ x ∈ before, (x.id == w.id) = false := fun x hx => by simpa using hid x (List.mem_append_left _ hx)
  have hfind : s.schedWrites.find? (·.id == w.id) = some w := by
    rw [hw, List.find?_append, List.find?_eq_none.mpr fun x hx => by simp [hbefore x hx]]
    simp
  have htake : s.schedWrites.takeWhile (·.id != w.id) = before := by
    rw [hw, List.takeWhile_append_of_pos fun x hx => by simp [bne, hbefore x hx]]
    simp
  have hfirst : ¬ before.any (·.part == w.part) = true := by simpa using hp
  rw [State.engineStep, ha.ops]
  dsimp only
  rw [pairRead_eq ha.streams, performHeld_eq ha.held, State.performOwed, hfind]
  dsimp only
  rw [htake, if_neg hfirst]
  rfl

theorem unowed_schedWrites {before after : List OwedWrite} {w : OwedWrite} (hw : s.schedWrites = before ++ w :: after)
    (hid : ∀ x ∈ before ++ after, x.id ≠ w.id) : (s.unowed w.id).schedWrites = before ++ after := by
  have hb : before.filter (·.id != w.id) = before := List.filter_eq_self.mpr fun x hx => by
    simpa using hid x (List.mem_append_left _ hx)
  have ha : after.filter (·.id != w.id) = after := List.filter_eq_self.mpr fun x hx => by
    simpa using hid x (List.mem_append_right _ hx)
  show s.schedWrites.filter (·.id != w.id) = _
  rw [hw, List.filter_append, List.filter_cons_of_neg (by simp), hb, ha]

/-- A store of the scheduler leaves everything but its bytes. -/
theorem unowed_store {pas : List Nat} (hwf : Memory.wf s.mem = true) (hd : pas.Nodup) (n : Nat) (bs : List Byte) :
    let u := (s.unowed n).store pas bs
    u.schedWrites = (s.unowed n).schedWrites ∧ u.hart = s.hart ∧ u.others = s.others ∧ u.parts = s.parts ∧
      ∀ x, u.byteAt x = Claims.put s.byteAt pas bs x := by
  have hframe : WritesMemory (s.unowed n) ((s.unowed n).store pas bs) := store_writes ..
  refine ⟨by rw [hframe], by rw [hframe]; rfl, by rw [hframe]; rfl, by rw [hframe]; rfl, fun x => ?_⟩
  rw [State.byteAt_store, byteAt_writeAll (s := s.unowed n) hd hwf, put_eq_overlay]
  rfl

theorem owedWritesPerform : Claims.OwedWritesPerform := by
  intro s before after w pas hw hp hid hop hjobs hheld hwf hd
  have hstep := engineStep_owed ⟨hop, hjobs, hheld⟩ hw hp hid
  have hwrites := unowed_schedWrites hw hid
  have hstore := unowed_store hwf hd w.id w.bytes
  rw [hwrites] at hstore
  refine ⟨fun hh hacc => ?_, fun b pa hh ht hpas hpoison _ => ?_⟩
  · have hunowed : (s.unowed w.id).schedulerWrite w.part w.farm w.addr w.bytes = (s.unowed w.id).store pas w.bytes := by
      have hacc' : (s.unowed w.id).accessAt ⟨w.part, ((s.unowed w.id).partAt w.part).record.tenant⟩ w.addr w.bytes.length 0 .wr = .ok pas :=
        hacc
      rw [State.schedulerWrite, State.engineWrite, hacc']
    have hu : s.engineStep w.id = (s.unowed w.id).store pas w.bytes := by
      rw [hstep, hh]
      exact hunowed
    rw [hu]
    exact hstore
  · have hunowed : (s.unowed w.id).writeHead w.part w.farm b w.bytes = (s.unowed w.id).store pas w.bytes := by
      have ht' : (s.unowed w.id).translate w.part .wr ((s.unowed w.id).binAddr w.part b + 24).toNat = .ok pa := ht
      have hp' : (s.unowed w.id).meetsPoison ((List.range 8).map (pa + ·)) true = [] := hpas ▸ hpoison
      rw [State.writeHead]
      dsimp only
      rw [ht']
      dsimp only
      rw [hp', hpas]
    have hu : s.engineStep w.id = (s.unowed w.id).store pas w.bytes := by
      rw [hstep, hh]
      exact hunowed
    rw [hu]
    exact hstore

end Sys2Proof.Machine
end

