-- ==== Sys2Proof/Proofs/PolicyImages.lean ====
section
/-!
Runs of policy images (R153, R154, R156): the effect of each rake instruction, of a row of them, and of a `LOOPQ` over
the bins.
-/

namespace Sys2Proof.Machine

set_option Elab.async false

open Claims (rakeWord rakePlain rakeRow rakeRows)

variable {sn : Snapshot} {img : List (BitVec 16)} {op ad low : Nat}

/- The fields of a rake instruction. -/

theorem rakeWord_toNat (ho : op < 32) (ha : ad < 8) (hl : low < 256) :
    (rakeWord op ad low).toNat = 2 ^ 11 * op + 2 ^ 8 * ad + low := by
  rw [rakeWord, BitVec.toNat_ofNat, Nat.mod_eq_of_lt (by omega)]

theorem rakeField_eq (w : BitVec 16) (lo n : Nat) : rakeField w lo n = w.toNat / 2 ^ lo % 2 ^ n := by
  rw [rakeField, field, Nat.shiftRight_eq_div_pow, Nat.shiftLeft_eq, Nat.one_mul]

theorem rakeOp_rakeWord (ho : op < 32) (ha : ad < 8) (hl : low < 256) : rakeOp (rakeWord op ad low) = op := by
  rw [rakeOp, rakeField_eq, rakeWord_toNat ho ha hl]
  omega

theorem rakeField_rakeWord_ad (ho : op < 32) (ha : ad < 8) (hl : low < 256) :
    rakeField (rakeWord op ad low) 8 3 = ad := by
  rw [rakeField_eq, rakeWord_toNat ho ha hl]
  omega

/-- A field of the low eight bits. -/
theorem rakeField_rakeWord_low {lo n : Nat} (h : lo + n ≤ 8) (ho : op < 32) (ha : ad < 8) (hl : low < 256) :
    rakeField (rakeWord op ad low) lo n = low / 2 ^ lo % 2 ^ n := by
  obtain ⟨k, hk⟩ := Nat.exists_eq_add_of_le h
  have hword : (rakeWord op ad low).toNat = low + 2 ^ lo * (2 ^ n * (2 ^ k * (2 ^ 3 * op + ad))) := by
    rw [rakeWord_toNat ho ha hl, ← Nat.mul_assoc, ← Nat.mul_assoc, ← pow_add, ← pow_add, ← hk]
    ring
  rw [rakeField_eq, hword, Nat.add_mul_div_left _ _ (by positivity), Nat.add_mul_mod_self_left]

/- The rows of R153. -/

theorem asSigned_eq_signExtend (low : Nat) :
    (BitVec.ofNat 8 low).signExtend 32 = BitVec.ofInt 32 (Claims.asSigned 8 low) := by
  have h : (BitVec.ofNat 8 low).toInt = Claims.asSigned 8 low := by
    rw [BitVec.toInt_eq_toNat_cond, BitVec.toNat_ofNat, Claims.asSigned]
    split <;> split <;> omega
  rw [BitVec.signExtend, h]

theorem shiftLeft_eq_ofNat (x : BitVec 32) (n : Nat) : x <<< n = BitVec.ofNat 32 (x.toNat * 2 ^ n) := by
  apply BitVec.eq_of_toNat_eq
  rw [BitVec.toNat_shiftLeft, BitVec.toNat_ofNat, Nat.shiftLeft_eq]

theorem shiftRight_eq_ofNat (x : BitVec 32) (n : Nat) : x >>> n = BitVec.ofNat 32 (x.toNat / 2 ^ n) := by
  apply BitVec.eq_of_toNat_eq
  rw [BitVec.toNat_ushiftRight, BitVec.toNat_ofNat, Nat.shiftRight_eq_div_pow, Nat.mod_eq_of_lt]
  exact (Nat.div_le_self ..).trans_lt x.isLt

theorem ite_lt_eq_min (x y : BitVec 32) : (if x.toNat < y.toNat then x else y) = BitVec.ofNat 32 (min x.toNat y.toNat) := by
  split
  next h => rw [Nat.min_eq_left h.le, BitVec.ofNat_toNat, BitVec.setWidth_eq]
  next h => rw [Nat.min_eq_right (not_lt.mp h), BitVec.ofNat_toNat, BitVec.setWidth_eq]

theorem ite_lt_eq_max (x y : BitVec 32) : (if x.toNat < y.toNat then y else x) = BitVec.ofNat 32 (max x.toNat y.toNat) := by
  split
  next h => rw [Nat.max_eq_right h.le, BitVec.ofNat_toNat, BitVec.setWidth_eq]
  next h => rw [Nat.max_eq_left (not_lt.mp h), BitVec.ofNat_toNat, BitVec.setWidth_eq]

/-- A row of R153 has its effect whatever the run's position is. -/
theorem one_eq_rakeRow (r : Rake) (hp : rakePlain op) (ha : ad < 8) (hl : low < 256) :
    r.one sn (rakeWord op ad low) = rakeRow sn r op ad low := by
  obtain ⟨h1, h2, hb, hq⟩ := hp
  have ho : op < 32 := by omega
  have hfield {lo n : Nat} (h : lo + n ≤ 8) := rakeField_rakeWord_low h ho ha hl
  unfold Rake.one
  simp only [rakeOp_rakeWord ho ha hl, rakeField_rakeWord_ad ho ha hl, hfield (show 0 + 8 ≤ 8 by decide),
    hfield (show 5 + 3 ≤ 8 by decide), hfield (show 2 + 3 ≤ 8 by decide), hfield (show 0 + 5 ≤ 8 by decide),
    hfield (show 0 + 3 ≤ 8 by decide), hfield (show 0 + 4 ≤ 8 by decide), Nat.mod_eq_of_lt hl, Nat.reducePow, Nat.div_one]
  interval_cases op <;>
    simp_all [rakeRow, Rake.put, Rake.get, rakeAlu, asSigned_eq_signExtend, shiftLeft_eq_ofNat, shiftRight_eq_ofNat,
      ite_lt_eq_min, ite_lt_eq_max, BitVec.ult, BitVec.slt, beq_eq_decide]

/-- The run r at position c in loop l. -/
def Rake.placed (r : Rake) (c : Nat) (l : Option (Nat × Nat × Nat × Nat)) : Rake := { r with pc := c, loop := l }

@[simp] theorem Rake.placed_pc (r : Rake) (c : Nat) (l : Option (Nat × Nat × Nat × Nat)) : (r.placed c l).pc = c := rfl
@[simp] theorem Rake.placed_loop (r : Rake) (c : Nat) (l : Option (Nat × Nat × Nat × Nat)) : (r.placed c l).loop = l := rfl
@[simp] theorem Rake.placed_placed (r : Rake) (c c' : Nat) (l l' : Option (Nat × Nat × Nat × Nat)) :
    (r.placed c l).placed c' l' = r.placed c' l' := rfl
@[simp] theorem Rake.placed_self (r : Rake) : r.placed r.pc r.loop = r := rfl

/-- A row of R153 has its effect in any position and loop, and keeps both. -/
theorem rakeRow_placed (r : Rake) (c : Nat) (l : Option (Nat × Nat × Nat × Nat)) :
    rakeRow sn (r.placed c l) op ad low = (rakeRow sn r op ad low).map (·.placed c l) := by
  unfold Claims.rakeRow Rake.placed
  dsimp only
  split
  case h_22 => split <;> rfl
  all_goals rfl

theorem rakeRow_loop {r q : Rake} (h : rakeRow sn r op ad low = some q) : q.loop = r.loop := by
  have hmap := rakeRow_placed (sn := sn) (op := op) (ad := ad) (low := low) r r.pc r.loop
  rw [Rake.placed_self, h] at hmap
  rw [Option.some.inj hmap]
  rfl

theorem rakeRows_loop {ws : List (Nat × Nat × Nat)} {r q : Rake} (h : rakeRows sn ws r = some q) : q.loop = r.loop := by
  induction ws generalizing r with
  | nil => cases h; rfl
  | cons w ws ih =>
    rw [Claims.rakeRows, List.foldlM_cons, Option.bind_eq_bind, Option.bind_eq_some_iff] at h
    obtain ⟨r', hr, hq⟩ := h
    rw [ih hq, rakeRow_loop hr]

/- Runs. -/

theorem loopBack_of_loop_none {r : Rake} (h : r.loop = none) (k : Nat) : r.loopBack k = r := by rw [Rake.loopBack, h]

theorem run_congr {r q : Rake} (h : r.loopBack sn.queues.length = q.loopBack sn.queues.length) (n : Nat) :
    Rake.run sn img n r = Rake.run sn img n q := by
  cases n with
  | zero => rfl
  | succ n => rw [Rake.run, Rake.run, h]

theorem run_past_end {r : Rake} (hl : r.loop = none) (h : img.length ≤ r.pc) (n : Nat) : Rake.run sn img n r = none := by
  cases n with
  | zero => rfl
  | succ n => rw [Rake.run, loopBack_of_loop_none hl, List.getElem?_eq_none h]

/-- A run that stands at no end of a loop's body executes the instruction there. -/
theorem run_succ {r : Rake} {w : BitVec 16} (hl : r.loopBack sn.queues.length = r) (h : img[r.pc]? = some w) (n : Nat) :
    Rake.run sn img (n + 1) r =
      if rakeOp w = 0 then some r else ((r.placed (r.pc + 1) r.loop).one sn w).bind (Rake.run sn img n) := by
  rw [Rake.run, hl, h]
  rfl

theorem run_row {r : Rake} (hl : r.loopBack sn.queues.length = r) (hp : rakePlain op) (ha : ad < 8) (hlow : low < 256)
    (h : img[r.pc]? = some (rakeWord op ad low)) (n : Nat) : Rake.run sn img (n + 1) r =
      (rakeRow sn r op ad low).bind (fun q => Rake.run sn img n (q.placed (r.pc + 1) r.loop)) := by
  have hop : ¬ op = 0 := by have := hp.1; omega
  rw [run_succ hl h, rakeOp_rakeWord (by have := hp.2.1; omega) ha hlow, if_neg hop, one_eq_rakeRow _ hp ha hlow,
    rakeRow_placed, Option.bind_map]
  rfl

theorem run_branch {r : Rake} (hl : r.loop = none) (ha : ad < 8) (hlow : low < 256)
    (h : img[r.pc]? = some (rakeWord 0x13 ad low)) (n : Nat) : Rake.run sn img (n + 1) r =
      Rake.run sn img n { r with pc := r.pc + 1 + if r.cond ad then low else 0 } := by
  have hfield := rakeField_rakeWord_low (op := 0x13) (show 0 + 8 ≤ 8 by decide) (by decide) ha hlow
  rw [run_succ (loopBack_of_loop_none hl _) h, rakeOp_rakeWord (by decide) ha hlow, if_neg (by decide), Rake.one]
  simp only [rakeOp_rakeWord (show 0x13 < 32 by decide) ha hlow, rakeField_rakeWord_ad (show 0x13 < 32 by decide) ha hlow, hfield]
  have hcond : (r.placed (r.pc + 1) r.loop).cond ad = r.cond ad := rfl
  rw [hcond]
  cases r.cond ad <;> simp [Rake.placed, Nat.mod_eq_of_lt hlow]

theorem cond_iff (r : Rake) : r.cond ad = true ↔ ad = 0 ∨ (ad = 1 ∧ r.eq = true) ∨ (ad = 2 ∧ r.eq = false) ∨
    (ad = 3 ∧ r.lt = true) ∨ (4 ≤ ad ∧ r.lt = false) := by
  unfold Rake.cond
  split
  case h_5 => simp_all; omega
  all_goals simp_all

/- Loops. -/

/-- The words of a loop's body stand in the image from position c on. -/
def BodyAt (img : List (BitVec 16)) (c : Nat) (body : List (Nat × Nat × Nat)) : Prop :=
  ∀ i w, body[i]? = some w →
    rakePlain w.1 ∧ w.2.1 < 8 ∧ w.2.2 < 256 ∧ img[c + i]? = some (rakeWord w.1 w.2.1 w.2.2)

theorem BodyAt.tail {c : Nat} {w : Nat × Nat × Nat} {ws : List (Nat × Nat × Nat)} (h : BodyAt img c (w :: ws)) :
    BodyAt img (c + 1) ws := fun i w' hw => by
  have := h (i + 1) w' (by simpa using hw)
  rwa [show c + 1 + i = c + (i + 1) by omega]

theorem loopBack_inside {r : Rake} {c ad start stop q : Nat} (h : c < stop) (k : Nat) :
    (r.placed c (some (ad, start, stop, q))).loopBack k = r.placed c (some (ad, start, stop, q)) := by
  simp [Rake.loopBack, show ¬ c = stop by omega, show ¬ stop < c by omega]

/-- One pass through the rest of a loop's body. -/
theorem run_rows {start stop q : Nat} (ws : List (Nat × Nat × Nat)) (c n : Nat) (r : Rake) (hc : c + ws.length = stop)
    (hws : BodyAt img c ws) :
    let l := some (ad, start, stop, q)
    Rake.run sn img (ws.length + n) (r.placed c l) =
      (rakeRows sn ws r).bind (fun q' => Rake.run sn img n (q'.placed stop l)) := by
  intro l
  induction ws generalizing c r with
  | nil =>
    obtain rfl : c = stop := by simpa using hc
    rw [List.length_nil, Nat.zero_add, Claims.rakeRows, List.foldlM_nil]
    rfl
  | cons w ws ih =>
    rw [List.length_cons] at hc
    obtain ⟨hp, ha, hlow, hw⟩ := hws 0 w rfl
    rw [List.length_cons, show ws.length + 1 + n = ws.length + n + 1 by omega,
      run_row (loopBack_inside (c := c) (by omega) _) hp ha hlow (by simpa using hw), rakeRow_placed, Option.bind_map, Claims.rakeRows, List.foldlM_cons]
    cases rakeRow sn r w.1 w.2.1 w.2.2 with
    | none => rfl
    | some r' => exact ih (c + 1) r' (by omega) hws.tail

/-- What `LOOPQ` does with its body in one pass (R154). -/
def loopPass (sn : Snapshot) (body : List (Nat × Nat × Nat)) (ad : Nat) (r : Rake) (q : Nat) : Option Rake :=
  rakeRows sn body { r with a := r.a.set ad (BitVec.ofNat 32 q) }

theorem loopPasses_loop {body : List (Nat × Nat × Nat)} (l : List Nat) {r q : Rake}
    (h : l.foldlM (loopPass sn body ad) r = some q) : q.loop = r.loop := by
  induction l generalizing r with
  | nil => cases h; rfl
  | cons x l ih =>
    rw [List.foldlM_cons, Option.bind_eq_bind, Option.bind_eq_some_iff] at h
    obtain ⟨r', hr, hq⟩ := h
    rw [ih hq, rakeRows_loop hr]

/-- At the end of the body the next pass starts. -/
theorem loopBack_next {r : Rake} {start stop q k : Nat} (h : q + 1 < k) (hs : start < stop) :
    (r.placed stop (some (ad, start, stop, q))).loopBack k =
      ((r.put ad (BitVec.ofNat 32 (q + 1))).placed start (some (ad, start, stop, q + 1))).loopBack k := by
  rw [loopBack_inside hs]
  simp [Rake.loopBack, h, Rake.put, Rake.placed]

/-- At the end of the last pass's body the loop is left. -/
theorem loopBack_last {r : Rake} {start stop q k : Nat} (h : ¬ q + 1 < k) :
    (r.placed stop (some (ad, start, stop, q))).loopBack k = (r.placed stop none).loopBack k := by
  rw [loopBack_of_loop_none (r.placed_loop _ _)]
  simp [Rake.loopBack, h, Rake.placed]

/-- The passes of a loop from number q on. -/
theorem run_passes {start stop : Nat} {body : List (Nat × Nat × Nat)} (hs : start < stop)
    (hstop : start + body.length = stop) (hb : BodyAt img start body) (k q n : Nat) (r : Rake)
    (hq : q + (k + 1) = sn.queues.length) :
    Rake.run sn img ((k + 1) * body.length + n)
        ((r.put ad (BitVec.ofNat 32 q)).placed start (some (ad, start, stop, q))) =
      ((List.range' q (k + 1)).foldlM (loopPass sn body ad) r).bind
        (fun q' => Rake.run sn img n (q'.placed stop none)) := by
  induction k generalizing q r with
  | zero =>
    rw [Nat.zero_add, Nat.one_mul, run_rows body start n _ hstop hb]
    simp only [List.range'_succ, List.foldlM_cons, List.range'_zero, List.foldlM_nil, Option.pure_def, Option.bind_eq_bind]
    rw [Option.bind_fun_some]
    exact congrArg _ (funext fun q' => run_congr (loopBack_last (by omega)) n)
  | succ k ih =>
    rw [Nat.succ_mul, Nat.add_comm _ body.length, Nat.add_assoc, run_rows body start _ _ hstop hb, List.range'_succ,
      List.foldlM_cons]
    show (loopPass sn body ad r q).bind _ = (Option.bind (loopPass sn body ad r q) _).bind _
    rw [Option.bind_assoc]
    refine congrArg _ (funext fun q' => ?_)
    rw [run_congr (loopBack_next (by omega) hs)]
    exact ih (q + 1) q' (by omega)

/-- `LOOPQ` with no bin or no body is done at once; otherwise its first pass begins. -/
theorem run_loopq {r : Rake} (hl : r.loop = none) (ha : ad < 8) (hlow : low < 256)
    (h : img[r.pc]? = some (rakeWord 0x14 ad low)) (n : Nat) : Rake.run sn img (n + 1) r = Rake.run sn img n
      (if sn.queues.length = 0 then { r with pc := r.pc + 1 + low }
      else if low = 0 then (r.put ad (BitVec.ofNat 32 (sn.queues.length - 1))).placed (r.pc + 1) none
      else (r.put ad 0).placed (r.pc + 1) (some (ad, r.pc + 1, r.pc + 1 + low, 0))) := by
  have hfield := rakeField_rakeWord_low (op := 0x14) (show 0 + 8 ≤ 8 by decide) (by decide) ha hlow
  rw [run_succ (loopBack_of_loop_none hl _) h, rakeOp_rakeWord (by decide) ha hlow, if_neg (by decide), Rake.one]
  simp only [rakeOp_rakeWord (show 0x14 < 32 by decide) ha hlow, rakeField_rakeWord_ad (show 0x14 < 32 by decide) ha hlow, hfield,
    pow_zero, Nat.div_one, Nat.mod_eq_of_lt (show low < 2 ^ 8 from hlow), hl]
  by_cases hq : sn.queues.length = 0
  · simp [hq, Rake.placed, ← hl]
  · by_cases hz : low = 0
    · simp [hq, hz, Rake.placed, Rake.put]
    · simp [hq, hz, Rake.placed, Rake.put]

/-- A loop whose body is empty leaves the number of the last bin in its register. -/
theorem loopPasses_nil (k q : Nat) (r : Rake) : (List.range' q (k + 1)).foldlM (loopPass sn [] ad) r =
    some (r.put ad (BitVec.ofNat 32 (q + k))) := by
  induction k generalizing q r with
  | zero => rfl
  | succ k ih =>
    rw [List.range'_succ, List.foldlM_cons]
    show (List.range' (q + 1) (k + 1)).foldlM (loopPass sn [] ad) (r.put ad (BitVec.ofNat 32 q)) = _
    rw [ih, Rake.put, Rake.put, Rake.put, List.set_set, Nat.add_right_comm, Nat.add_assoc]

theorem run_loop {r : Rake} {body : List (Nat × Nat × Nat)} (hl : r.loop = none) (ha : ad < 8)
    (hlow : body.length < 256) (h : img[r.pc]? = some (rakeWord 0x14 ad body.length)) (hb : BodyAt img (r.pc + 1) body)
    (n : Nat) : Rake.run sn img (n + 1 + sn.queues.length * body.length) r =
      ((List.range sn.queues.length).foldlM (loopPass sn body ad) r).bind
        (fun q => Rake.run sn img n { q with pc := r.pc + 1 + body.length }) := by
  rw [Nat.add_right_comm, run_loopq hl ha hlow h, List.range_eq_range']
  cases hk : sn.queues.length with
  | zero => simp
  | succ k =>
    rw [if_neg (Nat.succ_ne_zero k)]
    have hlast : ((List.range' 0 (k + 1)).foldlM (loopPass sn body ad) r).bind
          (fun q => Rake.run sn img n { q with pc := r.pc + 1 + body.length }) =
        ((List.range' 0 (k + 1)).foldlM (loopPass sn body ad) r).bind
          (fun q => Rake.run sn img n (q.placed (r.pc + 1 + body.length) none)) := by
      cases hf : (List.range' 0 (k + 1)).foldlM (loopPass sn body ad) r with
      | none => rfl
      | some q =>
        have hq := loopPasses_loop _ hf
        rw [hl] at hq
        simp [Rake.placed, ← hq]
    rw [hlast]
    by_cases hz : body.length = 0
    · obtain rfl := List.length_eq_zero_iff.mp hz
      rw [if_pos hz, loopPasses_nil]
      simp
    · rw [if_neg hz, ← run_passes (by omega) rfl hb k 0 n r (by omega), Nat.add_comm n]
      rfl

theorem rakeImagesRun : Claims.RakeImagesRun := by
  intro sn img n r hl on
  refine ⟨rfl, fun h => run_past_end hl h n, fun op ad low ho ha hlow hw => ⟨?_, ?_, ?_, ?_⟩⟩
  · rintro rfl
    rw [run_succ (loopBack_of_loop_none hl _) hw, rakeOp_rakeWord ho ha hlow, if_pos rfl]
  · intro hp
    rw [run_row (loopBack_of_loop_none hl _) hp ha hlow hw]
    cases hr : rakeRow sn r op ad low with
    | none => rfl
    | some q =>
      have hq := rakeRow_loop hr
      simp [on, Rake.placed, ← hq]
  · rintro rfl
    rw [run_branch hl ha hlow hw]
    simp only [cond_iff]
    rfl
  · rintro body rfl rfl hb
    exact run_loop hl ha hlow hw hb n

end Sys2Proof.Machine
end

