-- ==== Sys2Proof/Proofs/SchedulerViews.lean ====
section
/-!
What the scheduler sees of memory, bins and harts (R152) does not depend on the events, policies and heads' credits that
it keeps.
-/

namespace Sys2Proof.Machine

set_option Elab.async false

variable {s t : State} {p : Nat}

/- Accesses in states whose partitions keep their records. -/

/-- Only partitions differ, and none in its record or its Granary bindings, through which accesses go. -/
structure SameAccess (s t : State) : Prop where
  frame : t = { s with parts := t.parts }
  record : ∀ q, (t.partAt q).record = (s.partAt q).record
  gbind : ∀ q, (t.partAt q).gbind = (s.partAt q).gbind

theorem SameAccess.trans {u : State} (h : SameAccess s t) (h' : SameAccess t u) : SameAccess s u :=
  ⟨by rw [h'.frame, h.frame], fun q => by rw [h'.record, h.record], fun q => by rw [h'.gbind, h.gbind]⟩

theorem setPartAt_sameAccess {v : Part} (hr : v.record = (s.partAt p).record) (hg : v.gbind = (s.partAt p).gbind) :
    SameAccess s (s.setPartAt p v) := by
  refine ⟨rfl, fun q => ?_, fun q => ?_⟩
  · by_cases h : q = p
    · rw [h, State.partAt_setPartAt_same, hr]
    · rw [State.partAt_setPartAt_other h]
  · by_cases h : q = p
    · rw [h, State.partAt_setPartAt_same, hg]
    · rw [State.partAt_setPartAt_other h]

theorem walk_setParts (s : State) (ps : List (Nat × Part)) (perm : Perm) (a : Nat) (top : Bool) (ls : List (Nat × Nat))
    (table : Nat) : ({ s with parts := ps } : State).walk perm a top ls table = s.walk perm a top ls table := by
  induction ls generalizing top table with
  | nil => rfl
  | cons l ls ih =>
    rw [State.walk, State.walk]
    simp only [ih]
    rfl

namespace SameAccess

theorem walk (h : SameAccess s t) : t.walk = s.walk := by
  rw [h.frame]
  funext perm a top ls table
  exact walk_setParts ..

theorem hartAt (h : SameAccess s t) : t.hartAt = s.hartAt := by rw [h.frame]; rfl
theorem readAll (h : SameAccess s t) : t.readAll = s.readAll := by rw [h.frame]; rfl
theorem byteAt (h : SameAccess s t) : t.byteAt = s.byteAt := by rw [h.frame]; rfl
theorem isPoisoned (h : SameAccess s t) : t.isPoisoned = s.isPoisoned := by rw [h.frame]; rfl
theorem mapped1 (h : SameAccess s t) : t.mapped1 = s.mapped1 := by rw [h.frame]; rfl
theorem mapped2 (h : SameAccess s t) : t.mapped2 = s.mapped2 := by rw [h.frame]; rfl
theorem meetsPoison (h : SameAccess s t) : t.meetsPoison = s.meetsPoison := by rw [h.frame]; rfl
theorem farms (h : SameAccess s t) : t.farms = s.farms := by rw [h.frame]
theorem mem (h : SameAccess s t) : t.mem = s.mem := by rw [h.frame]
theorem nextId (h : SameAccess s t) : t.nextId = s.nextId := by rw [h.frame]
theorem schedWrites (h : SameAccess s t) : t.schedWrites = s.schedWrites := by rw [h.frame]
theorem time (h : SameAccess s t) : t.time = s.time := by rw [h.frame]

theorem translate (h : SameAccess s t) : t.translate = s.translate := by
  funext q perm va
  unfold State.translate State.translate1 State.translate2 State.denied
  rw [h.walk, h.mapped1, h.mapped2, h.record]

theorem readVirtual (h : SameAccess s t) : t.readVirtual = s.readVirtual := by
  funext q va n
  unfold State.readVirtual
  rw [h.translate, h.isPoisoned, h.byteAt]

theorem region (h : SameAccess s t) : t.region = s.region := by
  funext w n
  unfold State.region
  dsimp only
  rw [h.readVirtual, h.record, h.gbind]

theorem tableLines (h : SameAccess s t) : t.tableLines = s.tableLines := by
  funext q a
  unfold State.tableLines
  rw [h.translate, h.isPoisoned, h.record]

theorem place1 (h : SameAccess s t) : t.place1 = s.place1 := by
  funext q r perm o a
  unfold State.place1
  rw [h.translate]

theorem accessAt (h : SameAccess s t) : t.accessAt = s.accessAt := by
  funext w a n align perm
  unfold State.accessAt State.access State.locate State.regionFor State.placeSpan
  rw [h.region, h.tableLines, h.place1, h.meetsPoison]

theorem engineRead (h : SameAccess s t) : t.engineRead = s.engineRead := by
  funext w a n
  unfold State.engineRead
  rw [h.accessAt, h.readAll]

theorem fetchBytes (h : SameAccess s t) : t.fetchBytes = s.fetchBytes := by
  funext q va n
  unfold State.fetchBytes
  rw [h.translate, h.isPoisoned, h.readAll]

theorem binHeader (h : SameAccess s t) : t.binHeader = s.binHeader := by
  funext q i
  unfold State.binHeader State.binAddr
  rw [h.fetchBytes, h.record]

theorem readEntry (h : SameAccess s t) : t.readEntry = s.readEntry := by
  funext q a
  unfold State.readEntry
  rw [h.engineRead, h.record]

theorem readyRun (h : SameAccess s t) (q : Nat) (b : BinView) (k n : Nat) : t.readyRun q b k n = s.readyRun q b k n := by
  induction n generalizing k with
  | zero => rfl
  | succ n ih =>
    rw [State.readyRun, State.readyRun, h.readEntry]
    simp only [ih]

/-- A bin reads the same where the scheduler keeps the same head for it. -/
theorem binView (h : SameAccess s t) {i : Nat}
    (hh : ((t.partAt p).bins[i]?).bind (·.head) = ((s.partAt p).bins[i]?).bind (·.head)) :
    t.binView p i = s.binView p i := by
  unfold State.binView State.binHead State.binAddr
  rw [h.binHeader, hh, h.readEntry, h.record]
  simp only [h.readyRun]

theorem runningList (h : SameAccess s t) : t.runningList = s.runningList := by rw [h.frame]; rfl

theorem farmAt (h : SameAccess s t) : t.farmAt = s.farmAt := by rw [h.frame]; rfl

theorem running (h : SameAccess s t) : t.running = s.running := by rw [h.frame]; rfl

theorem hartIds (h : SameAccess s t) : t.hartIds = s.hartIds := by rw [h.frame]; rfl
theorem quadsOf (h : SameAccess s t) : t.quadsOf = s.quadsOf := by rw [h.frame]; rfl

end SameAccess

end Sys2Proof.Machine
end

