-- ==== Sys2Proof/Proofs/Decisions.lean ====
section
/-!
Decisions on posted events (R151 to R157): how a decision runs, what the fall-back policy does to an event, and what
stands of the run of an image.
-/

namespace Sys2Proof.Machine

set_option Elab.async false

variable {s u : State} {p : Nat} {e : PolEvent} {es : List PolEvent} {y : Policy}

/- A decision whose bins are known. -/

theorem pollBins_of_known (h : Claims.BinsKnown s p) : s.pollBins p = s := by
  have hfold : ∀ l : List Nat, (∀ i ∈ l, i < (s.partAt p).record.nq) → l.foldl (fun s i =>
      match s.binView p i with
      | .ok v => if (s.binAt p i).head = some v.head && !(s.binAt p i).posted then s
        else s.setBin p i { s.binAt p i with head := some v.head, posted := false }
      | .error (a, e) =>
        if (s.binAt p i).posted then s
        else ((s.tellVirtual p noHart a e).setBin p i { s.binAt p i with posted := true }).schedulerFails p 0 a) s = s := by
    intro l hl
    induction l with
    | nil => rfl
    | cons i l ih =>
      obtain ⟨hi, hl'⟩ := List.forall_mem_cons.mp hl
      obtain ⟨hposted, b, hb, hhead⟩ := h i hi
      rw [List.foldl_cons, hb]
      dsimp only
      rw [if_pos (by simp [hhead, hposted])]
      exact ih hl'
  exact hfold _ fun i hi => List.mem_range.mp hi

/-- The state and output of the decision on event e, before the output takes effect. -/
def State.decidedOn (s : State) (p : Nat) (e : PolEvent) : State × Output :=
  (s.setPartAt p { s.partAt p with events := (s.partAt p).events.drop 1 }).decideEvent p e

theorem exec_decision (hex : (s.partAt p).exists_ = true) (hb : Claims.BinsKnown s p) (he : s.nextPolicyEvent p = some e) :
    exec (.decision p) s =
      let r := s.decidedOn p e
      let t := r.1.applyOutput p e r.2
      if e.kind = 1 then
        .next (t.setPartAt p { t.partAt p with idleAt := if r.2.pick.isNone then t.dispatchable p else none })
      else .next t := by
  show execDecision p s = _
  rw [execDecision, hex, pollBins_of_known hb]
  simp only [Bool.not_true, Bool.false_eq_true, if_false]
  rw [he]
  rfl

theorem exec_decision_posted (hex : (s.partAt p).exists_ = true) (hb : Claims.BinsKnown s p)
    (hv : (s.partAt p).events = e :: es) (hk : e.kind ≠ 1) :
    exec (.decision p) s = .next ((s.decidedOn p e).1.applyOutput p e (s.decidedOn p e).2) := by
  have hnext : s.nextPolicyEvent p = some e := by rw [State.nextPolicyEvent, hv]
  rw [exec_decision hex hb hnext]
  exact if_neg hk

/- What the policy makes of an event. -/

@[simp] theorem partAt_decided : (Claims.decided s p es y).partAt p = { s.partAt p with events := es, policy := y } :=
  State.partAt_setPartAt_same ..

theorem decided_sameAccess : SameAccess s (Claims.decided s p es y) := setPartAt_sameAccess rfl rfl

/-- A snapshot does not show the events that wait nor the policy. -/
theorem snapshot_decided : (Claims.decided s p es y).snapshot p e = s.snapshot p e := by
  have ha : SameAccess s (Claims.decided s p es y) := decided_sameAccess
  have hview (i : Nat) : (Claims.decided s p es y).binView p i = s.binView p i := ha.binView (by rw [partAt_decided])
  have hqueue : (Claims.decided s p es y).queueFields p = s.queueFields p := by
    funext i
    unfold State.queueFields State.binFarms State.binAt
    rw [hview, ha.farms, ha.time, partAt_decided]
  have hevent : (Claims.decided s p es y).eventFields e = s.eventFields e := by
    unfold State.eventFields
    rw [ha.hartAt, ha.time]
  have hpart (st : Nat) : (Claims.decided s p es y).partFields p st = s.partFields p st := by
    unfold State.partFields State.millisecond
    rw [ha.runningList, ha.hartIds, ha.hartAt, ha.quadsOf, ha.time, partAt_decided]
    rfl
  unfold State.snapshot State.binCount
  rw [hevent, hpart, hqueue, partAt_decided]

theorem fallback_decided : (Claims.decided s p es y).fallback p e = s.fallback p e := by
  funext sn
  unfold State.fallback
  rw [partAt_decided, decided_sameAccess.hartAt, decided_sameAccess.runningList]

theorem activate_eq (h : y.shadow = none) : y.activate = y := by rw [Policy.activate, h]

/-- What stands of the run of a decision: the run, when its outputs match the event (R155). -/
def State.rakeRun (s : State) (p : Nat) (e : PolEvent) (img : List (BitVec 16)) : Option Rake :=
  Rake.run (s.snapshot p e) img 256 { m := (s.partAt p).policy.m, credit := s.credits p }

theorem outputsOk_decided (sn : Snapshot) :
    (Claims.decided s p es y).outputsOk p e sn = s.outputsOk p e sn := by
  funext r
  unfold State.outputsOk
  rw [decided_sameAccess.runningList]

/-- The state in which event e has left the queue of partition p. -/
abbrev State.taken (s : State) (p : Nat) (es : List PolEvent) : State := Claims.decided s p es (s.partAt p).policy

theorem decidedOn_eq (hv : (s.partAt p).events.drop 1 = es) (hy : (s.partAt p).policy.shadow = none) :
    s.decidedOn p e =
      match (if (s.partAt p).policy.disabled then none else (s.partAt p).policy.active) with
      | none => (s.taken p es, s.fallback p e (s.snapshot p e))
      | some img =>
        match (s.rakeRun p e img).filter (s.outputsOk p e (s.snapshot p e)) with
        | none => (Claims.decided s p es (s.partAt p).policy.overrun, s.fallback p e (s.snapshot p e))
        | some r =>
          if r.act = some 0 || (e.kind = 3 && r.act.isNone) then
            ((s.taken p es).keepRake p r, s.fallback p e (s.snapshot p e))
          else ((s.taken p es).keepRake p r, { pick := r.pick, victim := r.victim, act := r.act }) := by
  have htaken : s.setPartAt p { s.partAt p with events := (s.partAt p).events.drop 1 } = s.taken p es := by
    rw [hv]; rfl
  have hactive : (s.taken p es).setPartAt p
      { (s.taken p es).partAt p with policy := ((s.taken p es).partAt p).policy.activate } = s.taken p es := by
    rw [partAt_decided, activate_eq hy]
    exact State.setPartAt_setPartAt ..
  have hcredits : (s.taken p es).credits p = s.credits p := by
    unfold State.credits State.binAt
    rw [partAt_decided]
  have hover : (s.taken p es).setPartAt p { s.partAt p with events := es, policy := (s.partAt p).policy.overrun } =
      Claims.decided s p es (s.partAt p).policy.overrun := State.setPartAt_setPartAt ..
  rw [State.decidedOn, htaken, State.decideEvent]
  dsimp only
  rw [hactive, snapshot_decided, outputsOk_decided, fallback_decided, hcredits, partAt_decided]
  dsimp only
  rw [hover]
  rfl

/- Bins that the scheduler rewrites. -/

/-- Only the bins of partition p differ between the states. -/
structure Rebins (p : Nat) (s t : State) : Prop where
  part : t.partAt p = { s.partAt p with bins := (t.partAt p).bins }
  collapse : ∀ w, t.setPartAt p w = s.setPartAt p w

theorem Rebins.trans {t : State} (h : Rebins p s t) (h' : Rebins p t u) : Rebins p s u :=
  ⟨by rw [h'.part, h.part], fun w => by rw [h'.collapse, h.collapse]⟩

theorem setBin_rebins (s : State) (p i : Nat) (b : Bin) : Rebins p s (s.setBin p i b) := by
  unfold State.setBin
  exact ⟨by rw [State.partAt_setPartAt_same], fun w => State.setPartAt_setPartAt ..⟩

theorem binAt_setBin_same {i : Nat} (h : i < 16) (b : Bin) : (s.setBin p i b).binAt p i = b := by
  unfold State.setBin State.binAt
  rw [State.partAt_setPartAt_same]
  simp [h]

theorem binAt_setBin_other {i j : Nat} (hj : j < 16) (h : j ≠ i) (b : Bin) : (s.setBin p i b).binAt p j = s.binAt p j := by
  unfold State.setBin State.binAt
  rw [State.partAt_setPartAt_same]
  simp [h.symm, hj]

/-- What a run wrote to the credits of the first n bins. -/
def State.creditBins (s : State) (p : Nat) (r : Rake) (n : Nat) : State :=
  (List.range n).foldl (fun s i => s.setBin p i { s.binAt p i with credit := r.credit.getD i 0 }) s

theorem creditBins_succ (r : Rake) (n : Nat) : s.creditBins p r (n + 1) =
    (s.creditBins p r n).setBin p n { (s.creditBins p r n).binAt p n with credit := r.credit.getD n 0 } := by
  rw [State.creditBins, List.range_succ, List.foldl_append]
  rfl

theorem creditBins_rebins (r : Rake) (n : Nat) : Rebins p s (s.creditBins p r n) := by
  induction n with
  | zero => exact ⟨rfl, fun _ => rfl⟩
  | succ n ih => rw [creditBins_succ]; exact ih.trans (setBin_rebins ..)

theorem binAt_creditBins (r : Rake) {i : Nat} (hi : i < 16) (n : Nat) : (s.creditBins p r n).binAt p i =
    if i < n then { s.binAt p i with credit := r.credit.getD i 0 } else s.binAt p i := by
  induction n with
  | zero => rfl
  | succ n ih =>
    rw [creditBins_succ]
    by_cases h : i = n
    · subst h
      rw [binAt_setBin_same hi, ih, if_neg (lt_irrefl i), if_pos (Nat.lt_succ_self i)]
    · rw [binAt_setBin_other hi h, ih]
      exact if_congr (by omega) rfl rfl

theorem Rebins.withPolicy {t : State} (h : Rebins p (s.taken p es) t) (m : List (BitVec 32)) :
    t.setPartAt p { t.partAt p with policy := { (t.partAt p).policy with m := m } } =
      s.setPartAt p { s.partAt p with
        events := es, policy := { (s.partAt p).policy with m := m }, bins := (t.partAt p).bins } := by
  have hpart := h.part
  rw [partAt_decided] at hpart
  have hpolicy : (t.partAt p).policy = (s.partAt p).policy := by rw [hpart]
  refine (h.collapse _).trans ((State.setPartAt_setPartAt ..).trans (congrArg (s.setPartAt p) ?_))
  rw [hpolicy, hpart]

/-- The m-words and credits of a run stand (R152). -/
theorem keepRake_eq (r : Rake) : (s.taken p es).keepRake p r = s.setPartAt p { s.partAt p with
    events := es, policy := { (s.partAt p).policy with m := r.m }
    bins := (((s.taken p es).creditBins p r (s.partAt p).record.nq).partAt p).bins } := by
  have hcount : (s.taken p es).binCount p = (s.partAt p).record.nq := by rw [State.binCount, partAt_decided]
  rw [State.keepRake, hcount]
  exact (creditBins_rebins r _).withPolicy _

theorem keepRake_keeps (r : Rake) : Claims.Keeps s p es r ((s.taken p es).keepRake p r) := by
  refine ⟨_, keepRake_eq r, fun i hi h16 => ?_⟩
  have hbin : ((s.taken p es).keepRake p r).binAt p i = ((s.taken p es).creditBins p r (s.partAt p).record.nq).binAt p i := by
    rw [keepRake_eq, State.binAt, State.partAt_setPartAt_same]
    rfl
  rw [hbin, binAt_creditBins r h16, if_pos hi, State.binAt, partAt_decided]
  rfl

theorem Keeps.sameAccess {r : Rake} (h : Claims.Keeps s p es r u) : SameAccess s u := by
  obtain ⟨bins, rfl, -⟩ := h
  exact setPartAt_sameAccess rfl rfl

/- Outputs that match their event. -/

/-- A run whose outputs match its event (R155). -/
theorem outputsOk_iff {sn : Snapshot} {r : Rake} (h1 : 1 ≤ e.kind) (h5 : e.kind ≤ 5) :
    s.outputsOk p e sn r = true ↔ Claims.OutputsMatch s p e sn r := by
  unfold State.outputsOk Claims.OutputsMatch
  cases hp : r.pick <;> cases hv : r.victim <;> cases ha : r.act <;> interval_cases hk : e.kind <;>
    simp [Nat.pos_iff_ne_zero]

/- The fall-back policy (R157). -/

theorem runningList_pairwise : (s.runningList p).Pairwise (· < ·) := List.Pairwise.filter _ List.pairwise_lt_range

theorem mem_runningList {h : Nat} (hr : h ∈ s.runningList p) :
    (s.hartAt h).part = p ∧ (s.hartAt h).status = .running := by
  have := (List.mem_filter.mp hr).2
  simp only [Bool.and_eq_true, beq_iff_eq] at this
  exact this.1.1

/-- A running hart of no gang is asked to stop alone (R144). -/
theorem askPreempt_alone {h : Nat} (hu : SameAccess s u) (hr : h ∈ s.runningList p)
    (hg : ∀ g, s.farmAt p (s.hartAt h).farm = some g → g.gang = false) :
    u.askPreempt h = u.setHartAt h { s.hartAt h with asked := true } := by
  obtain ⟨hpart, hstatus⟩ := mem_runningList hr
  have hnone : (u.farmAt (s.hartAt h).part (s.hartAt h).farm).filter (·.gang) = none := by
    rw [hpart, hu.farmAt]
    cases hf : s.farmAt p (s.hartAt h).farm with
    | none => rfl
    | some g => simp [hg g hf]
  rw [State.askPreempt, hu.hartAt]
  dsimp only
  rw [hnone, hstatus]
  rfl

theorem fallback_preempt {sn : Snapshot} {h : Nat} (hk : e.kind = 2) (hm : s.mostCharged p = some h) :
    s.fallback p e sn = if e.f3 ∈ (s.partAt p).order ∧ (s.hartAt e.f3).lanecyc < (s.hartAt h).lanecyc
      then { victim := some h } else {} := by
  rw [State.mostCharged] at hm
  rw [State.fallback, hk]
  dsimp only
  rw [hm]
  simp

/-- What the fall-back policy decides takes effect as R157 says. -/
theorem fallsBack {sn : Snapshot} (hu : SameAccess s u)
    (hrun : e.kind ≠ 1 → exec (.decision p) s = .next (u.applyOutput p e (s.fallback p e sn))) :
    Claims.FallsBack s u p e := by
  refine ⟨fun hk => ?_, fun hk => ?_⟩
  · rw [hrun (by omega)]
    obtain hk | hk | ⟨hk, hc⟩ := hk
    · simp [State.applyOutput, hk]
    · simp [State.applyOutput, hk]
    · simp [State.applyOutput, State.fallback, hk, hc, causeCode]
  · have hbest (h : Nat) (hh : h ∈ s.runningList p ∧
        (∀ i ∈ s.runningList p, (s.hartAt i).sinceDispatch ≤ (s.hartAt h).sinceDispatch) ∧
        ∀ i ∈ s.runningList p, i < h → (s.hartAt i).sinceDispatch < (s.hartAt h).sinceDispatch) :
        s.mostCharged p = some h :=
      bestOf_eq_some runningList_pairwise ⟨hh.1, fun i hi => Int.ofNat_le.mpr (hh.2.1 i hi)⟩
        fun i hi hlt => Int.ofNat_lt.mpr (hh.2.2 i hi hlt)
    refine ⟨fun h hh hgives => ?_, fun h hh hgives hgang => ?_⟩
    · rw [hrun (by omega), fallback_preempt hk (hbest h hh), if_neg hgives]
      simp [State.applyOutput, hk]
    · rw [hrun (by omega), fallback_preempt hk (hbest h hh), if_pos hgives, ← askPreempt_alone hu hh.1 hgang]
      simp [State.applyOutput, hk]

end Sys2Proof.Machine
end

