-- ==== Sys2Proof/Proofs/PostedEvents.lean ====
section
/-!
What the outputs of an image do to a posted event (R149, R155, R156).
-/

namespace Sys2Proof.Machine

set_option Elab.async false

variable {s t u : State} {p : Nat} {e : PolEvent} {es : List PolEvent} {img : List (BitVec 16)} {r : Rake}

/- The four ends of a decision. -/

section
variable (hv : (s.partAt p).events.drop 1 = es) (hy : (s.partAt p).policy.shadow = none)
include hv hy

theorem decidedOn_without_image (h : (s.partAt p).policy.disabled = true ∨ (s.partAt p).policy.active = none) :
    s.decidedOn p e = (s.taken p es, s.fallback p e (s.snapshot p e)) := by
  have hnone : (if (s.partAt p).policy.disabled then none else (s.partAt p).policy.active) = none := by
    obtain h | h := h
    · rw [h]; rfl
    · rw [h]; exact ite_self none
  rw [decidedOn_eq hv hy, hnone]

variable (hd : (s.partAt p).policy.disabled = false) (ha : (s.partAt p).policy.active = some img)
  (h1 : 1 ≤ e.kind) (h5 : e.kind ≤ 5)
include hd ha h1 h5

theorem decidedOn_overrun (h : ∀ r, s.rakeRun p e img = some r → ¬ Claims.OutputsMatch s p e (s.snapshot p e) r) :
    s.decidedOn p e = (Claims.decided s p es (s.partAt p).policy.overrun, s.fallback p e (s.snapshot p e)) := by
  have hnone : (s.rakeRun p e img).filter (s.outputsOk p e (s.snapshot p e)) = none :=
    Option.filter_eq_none_iff.mpr fun r hr hok => h r hr ((outputsOk_iff h1 h5).mp hok)
  rw [decidedOn_eq hv hy, hd, ha]
  simp only [Bool.false_eq_true, if_false]
  rw [hnone]

variable (hr : s.rakeRun p e img = some r) (hm : Claims.OutputsMatch s p e (s.snapshot p e) r)
include hr hm

theorem decidedOn_kept : s.decidedOn p e =
    if r.act = some 0 || (e.kind = 3 && r.act.isNone) then
      ((s.taken p es).keepRake p r, s.fallback p e (s.snapshot p e))
    else ((s.taken p es).keepRake p r, { pick := r.pick, victim := r.victim, act := r.act }) := by
  have hsome : (s.rakeRun p e img).filter (s.outputsOk p e (s.snapshot p e)) = some r := by
    rw [hr, Option.filter_some, if_pos ((outputsOk_iff h1 h5).mpr hm)]
  rw [decidedOn_eq hv hy, hd, ha]
  simp only [Bool.false_eq_true, if_false]
  rw [hsome]

/-- The image leaves the event to the fall-back policy. -/
theorem decidedOn_handed (h : r.act = some 0 ∨ (e.kind = 3 ∧ r.act = none)) :
    s.decidedOn p e = ((s.taken p es).keepRake p r, s.fallback p e (s.snapshot p e)) := by
  rw [decidedOn_kept hv hy hd ha h1 h5 hr hm]
  refine if_pos ?_
  obtain h | ⟨hk, h⟩ := h
  · simp [h]
  · simp [hk, h]

/-- The image's outputs stand. -/
theorem decidedOn_stands (h0 : r.act ≠ some 0) (h3 : e.kind = 3 → r.act ≠ none) :
    s.decidedOn p e = ((s.taken p es).keepRake p r, { pick := r.pick, victim := r.victim, act := r.act }) := by
  rw [decidedOn_kept hv hy hd ha h1 h5 hr hm]
  refine if_neg ?_
  simpa [h0] using h3

end

/- A sequence that a decision retires (R149). -/

/-- The live sequences of every partition stand. -/
structure KeepsSeqs (s t : State) : Prop where
  kept : ∀ q, (t.partAt q).seqs = (s.partAt q).seqs

theorem KeepsSeqs.refl (s : State) : KeepsSeqs s s := ⟨fun _ => rfl⟩

theorem KeepsSeqs.trans (h : KeepsSeqs s t) (h' : KeepsSeqs t u) : KeepsSeqs s u :=
  ⟨fun q => (h'.kept q).trans (h.kept q)⟩

theorem keepsSeqs_of_parts (h : t.parts = s.parts) : KeepsSeqs s t := ⟨fun q => by rw [State.partAt, h]; rfl⟩

theorem setPartAt_keepsSeqs {v : Part} (h : v.seqs = (s.partAt p).seqs) : KeepsSeqs s (s.setPartAt p v) := ⟨fun q => by
  by_cases hq : q = p
  · rw [hq, State.partAt_setPartAt_same, h]
  · rw [State.partAt_setPartAt_other hq]⟩

theorem foldl_keepsSeqs {α : Type} {f : State → α → State} (hf : ∀ t a, KeepsSeqs t (f t a)) (l : List α) (s : State) :
    KeepsSeqs s (l.foldl f s) := by
  induction l generalizing s with
  | nil => exact .refl s
  | cons a l ih => exact (hf s a).trans (ih _)

theorem postHost_keepsSeqs (s : State) (p : Nat) (x : HostRecord) : KeepsSeqs s (s.postHost p x) :=
  ite_holds (P := KeepsSeqs s) (setPartAt_keepsSeqs rfl) (setPartAt_keepsSeqs rfl)

theorem tellWork_keepsSeqs (s : State) (p n : Nat) (x : Fail) : KeepsSeqs s (s.tellWork p n x) := by
  have htell : KeepsSeqs s (s.tellStage2 p n x) := ite_holds (P := KeepsSeqs s) (postHost_keepsSeqs ..) (.refl s)
  refine htell.trans (foldl_keepsSeqs (fun t l => ite_holds (P := KeepsSeqs t) (.refl t) ?_) _ _)
  have htold : KeepsSeqs t { t with toldPoison := t.toldPoison ++ [(p, l)] } := ⟨fun _ => rfl⟩
  exact htold.trans (postHost_keepsSeqs ..)

theorem writeStore_parts {f : GField} {off : Nat} {bs : List Byte} (h : s.writeStore f off bs = .ok t) :
    t.parts = s.parts := by
  unfold State.writeStore at h
  dsimp only at h
  split at h
  · cases h
  · split at h
    · cases h
      rw [store_writes]
    · cases h

theorem writeChanges_parts {f : GField} {cs : List (Nat × List Byte)} (h : s.writeChanges f cs = .ok t) :
    t.parts = s.parts := by
  induction cs generalizing s with
  | nil => cases h; rfl
  | cons c cs ih =>
    rw [State.writeChanges] at h
    split at h
    · cases h
    next u hu => rw [ih h, writeStore_parts hu]

theorem commit_parts {f g : GField} (h : s.commit f g = .ok t) : t.parts = s.parts := by
  unfold State.commit at h
  split at h
  · cases h
  next u hu =>
    rw [← writeChanges_parts hu, ← Except.ok.inj h]
    rfl

theorem dropPins_keepsSeqs (s : State) (p q : Nat) : KeepsSeqs s (s.dropPins p (some q) none) := by
  refine foldl_keepsSeqs (fun t f => ?_) _ _
  dsimp only
  split
  next h => exact keepsSeqs_of_parts (commit_parts h)
  next => exact tellWork_keepsSeqs ..

theorem unmapPage_keepsSeqs (s : State) (p va ia : Nat) : KeepsSeqs s (s.unmapPage p va ia) := by
  have hwatch : Rewatches (s.returned p va ia) (s.unmapPage p va ia) := rewatch_rewatches ..
  have hset : KeepsSeqs s (s.returned p va ia) :=
    ⟨(setPartAt_keepsSeqs (v := { s.partAt p with pages := (s.partAt p).pages - 1 }) rfl).kept⟩
  exact hset.trans (keepsSeqs_of_parts (by rw [hwatch.frame]))

theorem retireSeq_seqs (s : State) (p q : Nat) :
    ((s.retireSeq p q none 0).partAt p).seqs = (s.partAt p).seqs.filter (·.id != q) := by
  unfold State.retireSeq
  split
  next h =>
    refine (List.filter_eq_self.mpr fun x hx => ?_).symm
    simpa using List.find?_eq_none.mp h x hx
  next x hx =>
    have hdrop := (dropPins_keepsSeqs s p q).kept p
    have hkill (v : State) (pages : List Nat) : KeepsSeqs v (v.killPages p pages) := keepsSeqs_of_parts rfl
    have hunmap (v : State) : KeepsSeqs v (x.pages.foldl (fun s e => s.unmapPage p e.1 e.2) v) :=
      foldl_keepsSeqs (fun t (a : Nat × Nat) => unmapPage_keepsSeqs t p a.1 a.2) _ v
    have hpost (v : State) (a : PolEvent) : KeepsSeqs v (v.postPolicy p a) := setPartAt_keepsSeqs rfl
    refine ((((hkill ..).trans (hunmap _)).trans (hpost ..)).kept p).trans ?_
    rw [State.partAt_setPartAt_same]
    exact congrArg (List.filter _) hdrop

/- A farm that a decision stops (R155). -/

theorem hartAt_endAll (l : List Nat) (n : Nat) :
    (l.foldl (fun s h => s.setHartAt h { s.hartAt h with ending := true }) s).hartAt n =
      if n ∈ l then { s.hartAt n with ending := true } else s.hartAt n := by
  induction l generalizing s with
  | nil => simp
  | cons a l ih =>
    rw [List.foldl_cons, ih]
    by_cases h : n = a
    · subst h
      rw [State.hartAt_setHartAt_same]
      simp
    · rw [State.hartAt_setHartAt_other h]
      simp [h]

theorem endAll_farms (l : List Nat) :
    (l.foldl (fun s h => s.setHartAt h { s.hartAt h with ending := true }) s).farms = s.farms := by
  induction l generalizing s with
  | nil => rfl
  | cons a l ih => rw [List.foldl_cons, ih, setHartAt_allots s a]

theorem find?_map_stopped (l : List Farm) (p f : Nat) :
    (l.map (fun g => if g.part == p && g.id == f then { g with stopped := true } else g)).find?
        (fun g => g.part == p && g.id == f) =
      (l.find? (fun g => g.part == p && g.id == f)).map (fun g => { g with stopped := true }) := by
  induction l with
  | nil => rfl
  | cons g l ih =>
    rw [List.map_cons, List.find?_cons, List.find?_cons, ih]
    cases h : (g.part == p && g.id == f) <;> simp [h]

theorem stopFarm_stops {f : Nat} {g : Farm} (h : s.farmAt p f = some g) :
    (s.stopFarm p f).farmAt p f = some { g with stopped := true } ∧
      ∀ n ∈ g.harts, (s.stopFarm p f).hartAt n = { s.hartAt n with ending := true } := by
  rw [State.farmAt] at h
  rw [State.stopFarm, h]
  dsimp only
  refine ⟨?_, fun n hn => ?_⟩
  · rw [State.farmAt, endAll_farms, find?_map_stopped, h]
    rfl
  · rw [hartAt_endAll, if_pos hn]
    rfl

/- The outputs of an image on a FAULT (R155). -/

section
variable {o : Output} (hk : e.kind = 3)
include hk

theorem applyOutput_none (ho : o.act = some 1) : s.applyOutput p e o = s := by
  simp only [State.applyOutput, hk, ho]

theorem applyOutput_retires (ho : o.act = some 2) : s.applyOutput p e o = s.retireSeq p e.f4 none 0 := by
  simp only [State.applyOutput, hk, ho]

theorem applyOutput_stops (ho : o.act = some 3) : s.applyOutput p e o = s.stopFarm p e.f3 := by
  simp only [State.applyOutput, hk, ho]

theorem applyOutput_no_poison (ho : o.act = some 4) (hc : e.cause ≠ 16) : s.applyOutput p e o = s := by
  simp only [State.applyOutput, hk, ho]
  exact if_neg hc

end

/- The outputs of an image on a posted event. -/

theorem overrun_eq (hd : (s.partAt p).policy.disabled = false) : (s.partAt p).policy.overrun = { (s.partAt p).policy with
    count := min ((s.partAt p).policy.count + 1) 16, total := min ((s.partAt p).policy.total + 1) (2 ^ 32 - 1)
    disabled := decide (16 ≤ (s.partAt p).policy.count + 1) } := by
  rw [Policy.overrun, hd, Bool.false_or]
  rfl

section
variable (hex : (s.partAt p).exists_ = true) (hb : Claims.BinsKnown s p) (hv : (s.partAt p).events = e :: es)
  (hy : (s.partAt p).policy.shadow = none)
include hex hb hv hy

/-- An event of a partition without an image, or whose policy is disabled, goes to the fall-back policy. -/
theorem fallsBack_without_image (h : (s.partAt p).policy.disabled = true ∨ (s.partAt p).policy.active = none) :
    Claims.FallsBack s (Claims.decided s p es (s.partAt p).policy) p e := by
  refine fallsBack (sn := s.snapshot p e) decided_sameAccess fun hk => ?_
  rw [exec_decision_posted hex hb hv hk, decidedOn_without_image (es := es) (by rw [hv]; rfl) hy h]

variable (hd : (s.partAt p).policy.disabled = false) (ha : (s.partAt p).policy.active = some img)
  (h1 : 2 ≤ e.kind) (h5 : e.kind ≤ 5)
include hd ha h1 h5

theorem fallsBack_overrun (h : ∀ r, s.rakeRun p e img = some r → ¬ Claims.OutputsMatch s p e (s.snapshot p e) r) :
    Claims.FallsBack s (Claims.decided s p es (s.partAt p).policy.overrun) p e := by
  refine fallsBack (sn := s.snapshot p e) decided_sameAccess fun hk => ?_
  rw [exec_decision_posted hex hb hv hk, decidedOn_overrun (es := es) (by rw [hv]; rfl) hy hd ha (by omega) h5 h]

variable (hr : s.rakeRun p e img = some r) (hm : Claims.OutputsMatch s p e (s.snapshot p e) r)
include hr hm

theorem fallsBack_handed (h : r.act = some 0 ∨ (e.kind = 3 ∧ r.act = none)) :
    Claims.FallsBack s ((s.taken p es).keepRake p r) p e := by
  refine fallsBack (sn := s.snapshot p e) (Keeps.sameAccess (keepRake_keeps r)) fun hk => ?_
  rw [exec_decision_posted hex hb hv hk, decidedOn_handed (es := es) (by rw [hv]; rfl) hy hd ha (by omega) h5 hr hm h]

/-- The outputs of the image take effect. -/
theorem exec_decision_stands (h0 : r.act ≠ some 0) (h3 : e.kind = 3 → r.act ≠ none) : exec (.decision p) s =
    .next (((s.taken p es).keepRake p r).applyOutput p e { pick := r.pick, victim := r.victim, act := r.act }) := by
  rw [exec_decision_posted hex hb hv (by omega), decidedOn_stands (es := es) (by rw [hv]; rfl) hy hd ha (by omega) h5 hr hm h0 h3]

end

theorem keepRake_seqs (r : Rake) : (((s.taken p es).keepRake p r).partAt p).seqs = (s.partAt p).seqs := by
  rw [keepRake_eq, State.partAt_setPartAt_same]

/-- What a decision does to a posted event (R151 to R157). -/
theorem postedEventsTakeEffect (hex : (s.partAt p).exists_ = true) (hb : Claims.BinsKnown s p)
    (hy : (s.partAt p).policy.shadow = none) (hv : (s.partAt p).events = e :: es) (h1 : 2 ≤ e.kind) (h5 : e.kind ≤ 5)
    (hd : (s.partAt p).policy.disabled = false) (ha : (s.partAt p).policy.active = some img)
    (hr : s.rakeRun p e img = some r) (hm : Claims.OutputsMatch s p e (s.snapshot p e) r) :
    ∃ u, Claims.Keeps s p es r u ∧
      (r.act = some 0 → Claims.FallsBack s u p e) ∧
      (r.act ≠ some 0 → e.kind ≠ 3 → r.victim = none → exec (.decision p) s = .next u) ∧
      (∀ h, r.act ≠ some 0 → r.victim = some h → (∀ g, s.farmAt p (s.hartAt h).farm = some g → g.gang = false) →
        exec (.decision p) s = .next (u.setHartAt h { s.hartAt h with asked := true })) ∧
      (e.kind = 3 →
        (r.act = none → Claims.FallsBack s u p e) ∧
        (r.act = some 1 → exec (.decision p) s = .next u) ∧
        (r.act = some 2 → ∃ t, exec (.decision p) s = .next t ∧
          (t.partAt p).seqs = (s.partAt p).seqs.filter (·.id != e.f4)) ∧
        (∀ g, r.act = some 3 → s.farmAt p e.f3 = some g →
          ∃ t, exec (.decision p) s = .next t ∧ t.farmAt p e.f3 = some { g with stopped := true } ∧
            ∀ h ∈ g.harts, t.hartAt h = { s.hartAt h with ending := true }) ∧
        (r.act = some 4 → e.cause ≠ 16 → exec (.decision p) s = .next u)) := by
  have hkeeps := keepRake_keeps (s := s) (p := p) (es := es) r
  have hsame := Keeps.sameAccess hkeeps
  have hfault (hk : e.kind = 3) {a : Nat} (hact : r.act = some a) (h0 : a ≠ 0) :=
    exec_decision_stands hex hb hv hy hd ha h1 h5 hr hm (by simp [hact, h0]) (by simp [hact])
  refine ⟨_, hkeeps, fun h0 => fallsBack_handed hex hb hv hy hd ha h1 h5 hr hm (.inl h0), fun h0 hk hvict => ?_,
    fun h h0 hvict hgang => ?_, fun hk => ⟨fun h0 => fallsBack_handed hex hb hv hy hd ha h1 h5 hr hm (.inr ⟨hk, h0⟩),
      fun hact => ?_, fun hact => ?_, fun g hact hg => ?_, fun hact hc => ?_⟩⟩
  · rw [exec_decision_stands hex hb hv hy hd ha h1 h5 hr hm h0 (absurd · hk)]
    have hcases : e.kind = 2 ∨ e.kind = 4 ∨ e.kind = 5 := by omega
    obtain hk | hk | hk := hcases <;> simp [State.applyOutput, hk, hvict]
  · have hmatch := hm
    obtain hm0 | ⟨-, hk, -, -, hrun, -⟩ := hmatch
    · exact absurd hm0 h0
    have hk2 : e.kind = 2 := hk (by simp [hvict])
    rw [exec_decision_stands hex hb hv hy hd ha h1 h5 hr hm h0 (by omega), ← askPreempt_alone hsame (hrun h hvict) hgang]
    simp [State.applyOutput, hk2, hvict]
  · rw [hfault hk hact (by decide), applyOutput_none hk hact]
  · rw [hfault hk hact (by decide), applyOutput_retires hk hact]
    exact ⟨_, rfl, (retireSeq_seqs ..).trans (congrArg _ (keepRake_seqs r))⟩
  · rw [hfault hk hact (by decide), applyOutput_stops hk hact]
    have hstop := stopFarm_stops (s := (s.taken p es).keepRake p r) (hsame.farmAt ▸ hg)
    rw [hsame.hartAt] at hstop
    exact ⟨_, rfl, hstop⟩
  · rw [hfault hk hact (by decide), applyOutput_no_poison hk hact hc]

end Sys2Proof.Machine
end

