-- ==== Sys2Proof/Proofs/IntakeLaunches.lean ====
section
/-!
Launches from intake bins (R134, R147, R310, R383): the sheet that an entry names, its farm or the reason of its
refusal, and the writes that the scheduler owes for it.
-/

namespace Sys2Proof.Machine

set_option Elab.async false

variable {s t u v : State} {p : Nat} {es : List PolEvent}

/- Sheets. -/

theorem field_eq_sheetField (w lo n : Nat) : field w (8 * lo) (8 * n) = Claims.sheetField w lo n := by
  rw [field, Claims.sheetField, Nat.shiftRight_eq_div_pow, Nat.shiftLeft_eq, Nat.one_mul, pow_mul, pow_mul]
  rfl

theorem sheetOk_iff (w : Nat) : sheetOk w = true ↔ Claims.launchOk w := by
  simp only [sheetOk, field_eq_sheetField, Claims.launchOk, Bool.and_eq_true, Bool.or_eq_true, Bool.not_eq_true',
    decide_eq_true_eq, beq_iff_eq, bne_iff_ne, Bool.and_eq_false_imp, bne_eq_false_iff_eq]
  constructor
  · rintro ⟨⟨⟨⟨⟨⟨⟨⟨⟨⟨⟨⟨h1, h2⟩, -⟩, h3⟩, h4⟩, h5⟩, h6⟩, h7⟩, h8⟩, h9⟩, h10⟩, h11⟩, h12⟩
    exact ⟨h1, h2, h3, h4, by omega, h12, h6, h7, h8, h9, h10, h11⟩
  · rintro ⟨h1, h2, h3, h4, h5, h12, h6, h7, h8, h9, h10, h11⟩
    exact ⟨⟨⟨⟨⟨⟨⟨⟨⟨⟨⟨⟨h1, h2⟩, by omega⟩, h3⟩, h4⟩, by omega⟩, h6⟩, h7⟩, h8⟩, h9⟩, h10⟩, h11⟩, h12⟩

/- Farm numbers (R310). -/

/-- The numbers that a new farm may have, in the order in which they are tried. -/
def farmIds (first : Nat) : List Nat := (List.range 257).map (fun i => (first - 1 + i) % 65535 + 1)

theorem farmIds_nodup (first : Nat) : (farmIds first).Nodup := by
  refine List.Nodup.map_on (fun i hi j hj h => ?_) List.nodup_range
  rw [List.mem_range] at hi hj
  omega

/-- Of 257 numbers one is free while a partition has fewer farms than 256. -/
theorem exists_free_farmId (first : Nat) (h : s.farms.countP (·.part == p) < 256) :
    ∃ f ∈ farmIds first, (s.farmAt p f).isNone = true := by
  by_contra hall
  push Not at hall
  have hsub : farmIds first ⊆ (s.farms.filter (·.part == p)).map (·.id) := fun f hf => by
    have hsome := hall f hf
    rw [ne_eq, Option.isNone_iff_eq_none, ← ne_eq, Option.ne_none_iff_exists'] at hsome
    obtain ⟨g, hg⟩ := hsome
    have hfound := List.find?_some hg
    simp only [Bool.and_eq_true, beq_iff_eq] at hfound
    exact List.mem_map.mpr ⟨g, List.mem_filter.mpr ⟨List.mem_of_find?_eq_some hg, by simp [hfound.1]⟩, hfound.2⟩
  have hle := ((farmIds_nodup first).subperm hsub).length_le
  rw [List.length_map, ← List.countP_eq_length_filter] at hle
  simp only [farmIds, List.length_map, List.length_range] at hle
  omega

theorem farmId_spec (first : Nat) (h : s.farms.countP (·.part == p) < 256) :
    1 ≤ s.farmId p first ∧ s.farmId p first ≤ 65535 ∧ ∀ g ∈ s.farms, g.part = p → g.id ≠ s.farmId p first := by
  have hsome : ((farmIds first).find? (fun f => (s.farmAt p f).isNone)).isSome = true := by
    rw [List.find?_isSome]
    exact exists_free_farmId first h
  obtain ⟨f, hf⟩ := Option.isSome_iff_exists.mp hsome
  have hid : s.farmId p first = f := congrArg (Option.getD · first) hf
  have hfree := List.find?_some hf
  obtain ⟨i, -, hi⟩ := List.mem_map.mp (List.mem_of_find?_eq_some hf)
  rw [hid]
  refine ⟨by omega, by omega, fun g hg hp he => ?_⟩
  rw [Option.isNone_iff_eq_none, State.farmAt, List.find?_eq_none] at hfree
  exact hfree g hg (by simp [hp, he])

/- Acceptance (R134). -/

/-- The farm that an accepted sheet of an intake entry queues. -/
def binFarm (w p id : Nat) (batch : Word) (b : Nat) : Farm :=
  { Claims.farmOfSheet w p id with batch := batch, fromBin := some b }

theorem acceptSheet_refused {w why : Nat} (batch : Word) (b : Nat) (h : Claims.sheetRefusal s p w (some why)) :
    s.acceptSheet p w (some batch) none (some b) none = .error why := by
  have hroom : ((s.partAt p).record.hceil < Claims.sheetField w 16 2 ||
      (Claims.sheetField w 20 1 == 1 && decide ((s.partAt p).record.hceil < Claims.sheetField w 18 2))) = true ↔
      ¬ (Claims.sheetField w 16 2 ≤ (s.partAt p).record.hceil ∧
        (Claims.sheetField w 20 1 = 1 → Claims.sheetField w 18 2 ≤ (s.partAt p).record.hceil)) := by
    simp only [Bool.or_eq_true, Bool.and_eq_true, decide_eq_true_eq, beq_iff_eq]
    omega
  unfold State.acceptSheet
  simp only [field_eq_sheetField]
  obtain ⟨hok, hwhy⟩ | ⟨hok, hno, hwhy⟩ | ⟨hok, hyes, hfull, hwhy⟩ | ⟨-, -, -, hwhy⟩ := h
  · have : ¬ sheetOk w = true := fun h => hok ((sheetOk_iff w).mp h)
    simp [this, Option.some.inj hwhy]
  · rw [if_neg (by simp [(sheetOk_iff w).mpr hok]), if_pos (hroom.mpr hno), Option.some.inj hwhy]
  · rw [if_neg (by simp [(sheetOk_iff w).mpr hok]), if_neg (fun h => hroom.mp h hyes), if_pos hfull, Option.some.inj hwhy]
  · cases hwhy

theorem acceptSheet_accepted {w : Nat} (batch : Word) (b : Nat) (h : Claims.sheetRefusal s p w none) :
    s.farms.countP (·.part == p) < 256 ∧ s.acceptSheet p w (some batch) none (some b) none =
      .ok ({ s.setPartAt p { s.partAt p with nextFarm := s.farmId p (s.partAt p).nextFarm % 65535 + 1 } with
        farms := s.farms ++ [binFarm w p (s.farmId p (s.partAt p).nextFarm) batch b] }, s.farmId p (s.partAt p).nextFarm) := by
  obtain ⟨-, hwhy⟩ | ⟨-, -, hwhy⟩ | ⟨-, -, -, hwhy⟩ | ⟨hok, hroom, hfull, -⟩ := h
  · cases hwhy
  · cases hwhy
  · cases hwhy
  · have hno : ¬ ((s.partAt p).record.hceil < Claims.sheetField w 16 2 ||
        (Claims.sheetField w 20 1 == 1 && decide ((s.partAt p).record.hceil < Claims.sheetField w 18 2))) = true := by
      simp only [Bool.or_eq_true, Bool.and_eq_true, decide_eq_true_eq, beq_iff_eq]
      omega
    refine ⟨not_le.mp hfull, ?_⟩
    unfold State.acceptSheet
    simp only [field_eq_sheetField]
    rw [if_neg (by simp [(sheetOk_iff w).mpr hok]), if_neg hno, if_neg hfull]
    rfl

/- What a launch leaves unchanged. -/

/-- Of a failure told to the host only its records and the lines told of differ. -/
def Tells (s t : State) : Prop := t = { s with parts := t.parts, toldPoison := t.toldPoison }

theorem Tells.trans (h : Tells s t) (h' : Tells t u) : Tells s u := by
  rw [Tells] at h h' ⊢
  rw [h', h]

theorem postHost_tells (s : State) (p : Nat) (x : HostRecord) : Tells s (s.postHost p x) :=
  ite_holds (P := Tells s) rfl rfl

theorem tellFault_tells (s : State) (p n : Nat) (e : Fail) : Tells s (s.tellFault p n e) := by
  have hstage : Tells s (s.tellStage2 p n e) := ite_holds (P := Tells s) (postHost_tells ..) rfl
  refine hstage.trans ?_
  unfold State.tellFault State.tellPoison
  generalize s.tellStage2 p n e = t
  induction e.lines generalizing t with
  | nil => exact rfl
  | cons l ls ih =>
    rw [List.foldl_cons]
    have hself : Tells t t := rfl
    refine Tells.trans (ite_holds (P := Tells t) hself ?_) (ih _)
    have htold : Tells t { t with toldPoison := t.toldPoison ++ [(p, l)] } := rfl
    exact htold.trans (postHost_tells ..)

/- The launch of the head entry of a bin. -/

/-- The state in which the head of bin b is n. -/
def State.headed (s : State) (p b n : Nat) : State := s.setBin p b { s.binAt p b with head := some n }

/-- The address of the head entry of a bin. -/
def BinView.headAddr (w : BinView) : Word := w.entryAddr w.head

/-- The cleared ready word and the header's head, which the scheduler owes for a launched entry (R147). -/
def State.owesHead (s : State) (p b farm : Nat) (w : BinView) : State :=
  (s.oweWrite { part := p, farm := farm, addr := w.headAddr, bytes := toBytes 8 0 }).oweWrite
    { part := p, farm := farm, head := some b, bytes := toBytes 8 ((w.head + 1) % 2 ^ 64) }

/-- The reason of a refusal, which the scheduler owes first (R147). -/
def State.owesReason (s : State) (p why : Nat) (w : BinView) : State :=
  s.oweWrite { part := p, farm := 0, addr := w.headAddr + 32, bytes := toBytes 1 why }

/-- Sheet and batch of a launched entry. -/
def BinView.sheet (w : BinView) : Word := BitVec.ofNat 64 (Claims.sheetField w.entry 8 8)
def BinView.batch (w : BinView) : Word := BitVec.ofNat 64 (Claims.sheetField w.entry 16 8)

theorem intakeLaunch_eq {b : Nat} {w : BinView} (hw : s.binView p b = .ok w) (hr : w.ready ≠ 0) :
    s.intakeLaunch p b = match s.launchEntry p b w.sheet w.batch with
      | (x, .error why) => ((x.headed p b ((w.head + 1) % 2 ^ 64)).owesReason p why w).owesHead p b 0 w
      | (x, .ok f) => (x.headed p b ((w.head + 1) % 2 ^ 64)).owesHead p b f w := by
  have hsheet : BitVec.ofNat 64 (field w.entry 64 64) = w.sheet := congrArg _ (field_eq_sheetField w.entry 8 8)
  have hbatch : BitVec.ofNat 64 (field w.entry 128 64) = w.batch := congrArg _ (field_eq_sheetField w.entry 16 8)
  rw [State.intakeLaunch, hw]
  dsimp only
  rw [if_neg hr, hsheet, hbatch]
  generalize s.launchEntry p b w.sheet w.batch = x
  obtain ⟨x, why | f⟩ := x
  · rfl
  · rfl

@[simp] theorem headed_mem (s : State) (p b n : Nat) : (s.headed p b n).mem = s.mem := rfl
@[simp] theorem headed_farms (s : State) (p b n : Nat) : (s.headed p b n).farms = s.farms := rfl
@[simp] theorem headed_nextId (s : State) (p b n : Nat) : (s.headed p b n).nextId = s.nextId := rfl
@[simp] theorem headed_schedWrites (s : State) (p b n : Nat) : (s.headed p b n).schedWrites = s.schedWrites := rfl
@[simp] theorem oweWrite_mem (s : State) (o : OwedWrite) : (s.oweWrite o).mem = s.mem := rfl
@[simp] theorem oweWrite_farms (s : State) (o : OwedWrite) : (s.oweWrite o).farms = s.farms := rfl
@[simp] theorem oweWrite_binAt (s : State) (o : OwedWrite) (p b : Nat) : (s.oweWrite o).binAt p b = s.binAt p b := rfl
@[simp] theorem oweWrite_nextId (s : State) (o : OwedWrite) : (s.oweWrite o).nextId = s.nextId + 1 := rfl
@[simp] theorem oweWrite_schedWrites (s : State) (o : OwedWrite) :
    (s.oweWrite o).schedWrites = s.schedWrites ++ [{ o with id := s.nextId }] := rfl

@[simp] theorem binAt_headed {b n : Nat} (h : b < 16) : ((s.headed p b n).binAt p b).head = some n := by
  rw [State.headed, binAt_setBin_same h]

/-- Nothing that a launch needs has changed but the farms, which are those listed. -/
structure Launching (s x : State) (fs : List Farm) : Prop where
  mem : x.mem = s.mem
  owed : x.schedWrites = s.schedWrites
  nextId : x.nextId = s.nextId
  farms : x.farms = fs

theorem tellFault_launching (s : State) (p n : Nat) (e : Fail) : Launching s (s.tellFault p n e) s.farms := by
  have h := tellFault_tells s p n e
  exact ⟨by rw [h], by rw [h], by rw [h], by rw [h]⟩

/-- The launch of the head entry of bin b is done: its farms, and what the scheduler owes for it. -/
structure Launched (s t : State) (p b : Nat) (w : BinView) (fs : List Farm) (owed : List OwedWrite) : Prop where
  mem : t.mem = s.mem
  head : (t.binAt p b).head = some ((w.head + 1) % 2 ^ 64)
  farms : t.farms = fs
  owed : t.schedWrites = s.schedWrites ++ owed

/-- The writes that the scheduler owes for the head, from number n on. -/
def headWrites (p b n farm : Nat) (w : BinView) : List OwedWrite :=
  [{ id := n, part := p, farm := farm, addr := w.headAddr, bytes := toBytes 8 0 },
    { id := n + 1, part := p, farm := farm, head := some b, bytes := toBytes 8 ((w.head + 1) % 2 ^ 64) }]

/-- The writes that the scheduler owes for a refusal, from number n on. -/
def refusalWrites (p b n why : Nat) (w : BinView) : List OwedWrite :=
  { id := n, part := p, farm := 0, addr := w.headAddr + 32, bytes := toBytes 1 why } :: headWrites p b (n + 1) 0 w

variable {x : State} {b : Nat} {w : BinView} {fs : List Farm}

theorem Launching.accepted (h : Launching s x fs) (hb : b < 16) (f : Nat) :
    Launched s ((x.headed p b ((w.head + 1) % 2 ^ 64)).owesHead p b f w) p b w fs (headWrites p b s.nextId f w) where
  mem := by simp [State.owesHead, h.mem]
  head := by simp [State.owesHead, hb]
  farms := by simp [State.owesHead, h.farms]
  owed := by simp [State.owesHead, h.owed, h.nextId, headWrites]

theorem Launching.refused (h : Launching s x fs) (hb : b < 16) (why : Nat) :
    Launched s (((x.headed p b ((w.head + 1) % 2 ^ 64)).owesReason p why w).owesHead p b 0 w) p b w fs
      (refusalWrites p b s.nextId why w) where
  mem := by simp [State.owesHead, State.owesReason, h.mem]
  head := by simp [State.owesHead, State.owesReason, hb]
  farms := by simp [State.owesHead, State.owesReason, h.farms]
  owed := by simp [State.owesHead, State.owesReason, h.owed, h.nextId, headWrites, refusalWrites]

/- The three ends of a launch. -/

section
variable (hw : s.binView p b = .ok w) (hr : w.ready ≠ 0) (hb : b < 16)
include hw hr hb

/-- The sheet cannot be read (R134). -/
theorem intakeLaunch_failed {e : Fail} (h : s.accessAt ⟨p, (s.partAt p).record.tenant⟩ w.sheet 64 64 .rd = .error e) :
    Launched s (s.intakeLaunch p b) p b w s.farms (refusalWrites p b s.nextId 3 w) := by
  have hentry : s.launchEntry p b w.sheet w.batch = (s.tellFault p noHart e, .error 3) := by
    rw [State.launchEntry, h]
  rw [intakeLaunch_eq hw hr, hentry]
  exact (tellFault_launching ..).refused hb 3

variable {pas : List Nat} (h : s.accessAt ⟨p, (s.partAt p).record.tenant⟩ w.sheet 64 64 .rd = .ok pas)
include h

theorem intakeLaunch_refused {why : Nat} (hs : Claims.sheetRefusal s p (ofBytes (pas.map s.byteAt)) (some why)) :
    Launched s (s.intakeLaunch p b) p b w s.farms (refusalWrites p b s.nextId why w) := by
  have haccept : s.acceptSheet p (ofBytes (s.readAll pas)) (some w.batch) none (some b) none = .error why :=
    acceptSheet_refused w.batch b hs
  have hentry : s.launchEntry p b w.sheet w.batch = (s, .error why) := by
    rw [State.launchEntry, h]
    dsimp only
    rw [haccept]
  have hself : Launching s s s.farms := ⟨rfl, rfl, rfl, rfl⟩
  rw [intakeLaunch_eq hw hr, hentry]
  exact hself.refused hb why

theorem intakeLaunch_accepted (hs : Claims.sheetRefusal s p (ofBytes (pas.map s.byteAt)) none) :
    let id := s.farmId p (s.partAt p).nextFarm
    s.farms.countP (·.part == p) < 256 ∧ Launched s (s.intakeLaunch p b) p b w
      (s.farms ++ [binFarm (ofBytes (pas.map s.byteAt)) p id w.batch b]) (headWrites p b s.nextId id w) := by
  intro id
  obtain ⟨hroom, haccept⟩ := acceptSheet_accepted w.batch b hs
  have hentry : s.launchEntry p b w.sheet w.batch =
      ({ s.setPartAt p { s.partAt p with nextFarm := id % 65535 + 1 } with
        farms := s.farms ++ [binFarm (ofBytes (pas.map s.byteAt)) p id w.batch b] }, .ok id) := by
    have haccept' : s.acceptSheet p (ofBytes (s.readAll pas)) (some w.batch) none (some b) none = _ := haccept
    rw [State.launchEntry, h]
    dsimp only
    rw [haccept']
  have hqueued : Launching s { s.setPartAt p { s.partAt p with nextFarm := id % 65535 + 1 } with
      farms := s.farms ++ [binFarm (ofBytes (pas.map s.byteAt)) p id w.batch b] }
      (s.farms ++ [binFarm (ofBytes (pas.map s.byteAt)) p id w.batch b]) := ⟨rfl, rfl, rfl, rfl⟩
  refine ⟨hroom, ?_⟩
  rw [intakeLaunch_eq hw hr, hentry]
  exact hqueued.accepted hb id

end

/-- Every sheet is accepted or refused for a reason (R134). -/
theorem exists_sheetRefusal (s : State) (p bytes : Nat) : ∃ why, Claims.sheetRefusal s p bytes why := by
  unfold Claims.sheetRefusal
  by_cases hok : Claims.launchOk bytes
  · by_cases hroom : Claims.sheetField bytes 16 2 ≤ (s.partAt p).record.hceil ∧
        (Claims.sheetField bytes 20 1 = 1 → Claims.sheetField bytes 18 2 ≤ (s.partAt p).record.hceil)
    · by_cases hfull : 256 ≤ s.farms.countP (·.part == p)
      · exact ⟨_, .inr (.inr (.inl ⟨hok, hroom, hfull, rfl⟩))⟩
      · exact ⟨_, .inr (.inr (.inr ⟨hok, hroom, hfull, rfl⟩))⟩
    · exact ⟨_, .inr (.inl ⟨hok, hroom, rfl⟩)⟩
  · exact ⟨_, .inl ⟨hok, rfl⟩⟩

/-- Which launch is left does not depend on what the scheduler keeps of the partitions otherwise. -/
theorem sheetRefusal_congr (h : SameAccess u s) (bytes : Nat) (why : Option Nat) :
    Claims.sheetRefusal s p bytes why = Claims.sheetRefusal u p bytes why := by
  unfold Claims.sheetRefusal
  rw [h.record, h.farms]

/-- The head entry of bin b has been launched from the state u, in which the same accesses succeed (R147, R383). -/
theorem intakeLaunch_launches (hu : SameAccess u s) (hw : s.binView p b = .ok w) (hr : w.ready ≠ 0) (hb : b < 16)
    (ht : t.mem = (s.intakeLaunch p b).mem ∧ t.binAt p b = (s.intakeLaunch p b).binAt p b ∧
      t.farms = (s.intakeLaunch p b).farms ∧ t.schedWrites = (s.intakeLaunch p b).schedWrites) :
    Claims.EntryLaunched u t p b w := by
  obtain ⟨hmem, hbin, hfarms, hwrites⟩ := ht
  have hlaunched {fs : List Farm} {owed : List OwedWrite} (h : Launched s (s.intakeLaunch p b) p b w fs owed) :
      Launched u t p b w fs owed :=
    ⟨by rw [hmem, h.mem, hu.mem], by rw [hbin, h.head], by rw [hfarms, h.farms], by rw [hwrites, h.owed, hu.schedWrites]⟩
  have hfound : u.accessAt ⟨p, (u.partAt p).record.tenant⟩ w.sheet 64 64 .rd =
      s.accessAt ⟨p, (s.partAt p).record.tenant⟩ w.sheet 64 64 .rd := by rw [hu.accessAt, hu.record]
  unfold Claims.EntryLaunched
  dsimp only
  rw [show u.accessAt _ (BitVec.ofNat 64 (Claims.sheetField w.entry 8 8)) 64 64 .rd = _ from hfound, ← hu.nextId, ← hu.farms,
    ← hu.byteAt]
  simp only [← sheetRefusal_congr hu]
  cases ho : s.accessAt ⟨p, (s.partAt p).record.tenant⟩ w.sheet 64 64 .rd with
  | error e =>
    have h := hlaunched (intakeLaunch_failed hw hr hb ho)
    exact ⟨h.mem, h.head, fun _ _ => ⟨h.farms, h.owed⟩, fun pas hp => by cases hp⟩
  | ok pas =>
    have hboth : t.mem = u.mem ∧ (t.binAt p b).head = some ((w.head + 1) % 2 ^ 64) := by
      obtain ⟨why | why, hs⟩ := exists_sheetRefusal s p (ofBytes (pas.map s.byteAt))
      · have h := hlaunched (intakeLaunch_accepted hw hr hb ho hs).2
        exact ⟨h.mem, h.head⟩
      · have h := hlaunched (intakeLaunch_refused hw hr hb ho hs)
        exact ⟨h.mem, h.head⟩
    obtain ⟨hm, hh⟩ := hboth
    refine ⟨hm, hh, fun e he => (by cases he), fun pas' hpas => ?_⟩
    cases hpas
    refine ⟨fun why hs => ?_, fun hs => ?_⟩
    · have h := hlaunched (intakeLaunch_refused hw hr hb ho hs)
      exact ⟨h.farms, h.owed⟩
    · obtain ⟨hroom, hok⟩ := intakeLaunch_accepted hw hr hb ho hs
      have h := hlaunched hok
      obtain ⟨h1, h2, h3⟩ := farmId_spec (s.partAt p).nextFarm hroom
      exact ⟨_, h1, h2, h3, h.farms, h.owed⟩

/- DISPATCH decisions (R151). -/

/-- The event of a DISPATCH. -/
def dispatchEvent (d : Nat × List Nat) : PolEvent := { kind := 1, f2 := d.1 }

/-- The bin reads in the kept state as it did before, and has a ready head. -/
theorem ready_of_snapshot {e : PolEvent} (h : 0 < (((s.snapshot p e).queues[b]?).getD []).getD 0 0)
    (hw : s.binView p b = .ok w) : b < (s.partAt p).record.nq ∧ w.ready ≠ 0 := by
  by_cases hb : b < (s.partAt p).record.nq
  · refine ⟨hb, ?_⟩
    have hq : (s.snapshot p e).queues[b]? = some (s.queueFields p b) := by
      simp [State.snapshot, State.binCount, hb]
    rw [hq, State.queueFields, hw] at h
    exact Nat.ne_of_gt h
  · have hq : (s.snapshot p e).queues[b]? = none := by
      simpa [State.snapshot, State.binCount] using hb
    rw [hq] at h
    cases h

/-- What the scheduler read of a bin stands while its head does. -/
theorem binView_taken : (s.taken p es).binView p b = s.binView p b :=
  decided_sameAccess.binView (by rw [partAt_decided])

theorem kept_head {n : Nat} (h : (s.binAt p b).head = some n) : ((s.partAt p).bins[b]?).bind (·.head) = some n := by
  rw [State.binAt] at h
  cases hbin : (s.partAt p).bins[b]? with
  | none => rw [hbin] at h; cases h
  | some x => rw [hbin] at h; exact h

theorem binView_keepRake (hk : Claims.BinsKnown s p) (hnq : (s.partAt p).record.nq ≤ 16) {r : Rake}
    (hb : b < (s.partAt p).record.nq) : ((s.taken p es).keepRake p r).binView p b = s.binView p b := by
  have hkeeps := keepRake_keeps (s := s) (p := p) (es := es) r
  refine (Keeps.sameAccess hkeeps).binView ?_
  obtain ⟨-, -, hbins⟩ := hkeeps
  obtain ⟨-, w, -, hhead⟩ := hk b hb
  rw [kept_head hhead, kept_head (n := w.head)]
  rw [hbins b hb (by omega), ← hhead]

/-- The fall-back policy picks the ready bin whose head is oldest (R157). -/
theorem fallback_dispatch {e : PolEvent} {sn : Snapshot} (hk : e.kind = 1)
    (hb : 0 < ((sn.queues[b]?).getD []).getD 0 0)
    (hbest : ∀ i, 0 < ((sn.queues[i]?).getD []).getD 0 0 → ((sn.queues[i]?).getD []).getD 3 0 ≤ ((sn.queues[b]?).getD []).getD 3 0 ∧
      (i < b → ((sn.queues[i]?).getD []).getD 3 0 < ((sn.queues[b]?).getD []).getD 3 0)) :
    s.fallback p e sn = { pick := some b } := by
  have hq (i : Nat) : sn.queues.getD i [] = (sn.queues[i]?).getD [] := List.getD_eq_getElem?_getD ..
  have hready (i : Nat) : i ∈ (List.range sn.queues.length).filter (fun b => (sn.queues.getD b []).getD 0 0 != 0) ↔
      0 < ((sn.queues[i]?).getD []).getD 0 0 := by
    rw [List.mem_filter, List.mem_range, hq, bne_iff_ne, Nat.pos_iff_ne_zero, and_iff_right_iff_imp]
    intro h
    by_contra hi
    rw [List.getElem?_eq_none (not_lt.mp hi)] at h
    exact h rfl
  have hpick := bestOf_eq_some (f := fun b => (((sn.queues.getD b []).getD 3 0 : Nat) : Int))
    (List.Pairwise.filter (fun b => (sn.queues.getD b []).getD 0 0 != 0) (List.pairwise_lt_range (n := sn.queues.length)))
    (x := b) ⟨(hready b).mpr hb, fun i hi => ?_⟩ fun i hi hlt => ?_
  · simp only [State.fallback, hk]
    rw [hpick]
  · simp only [hq]
    exact Int.ofNat_le.mpr (hbest i ((hready i).mp hi)).1
  · simp only [hq]
    exact Int.ofNat_lt.mpr ((hbest i ((hready i).mp hi)).2 hlt)

theorem applyOutput_dispatch (d : Nat × List Nat) (o : Output) : s.applyOutput p (dispatchEvent d) o =
    match o.pick with | some b => s.intakeLaunch p b | none => s := rfl

/-- Noting when a partition is idle changes nothing that a launch has left. -/
theorem idle_launches (hu : SameAccess u s) (hw : s.binView p b = .ok w) (hr : w.ready ≠ 0) (hb : b < 16)
    (idle : Option (Nat × List Nat)) : Claims.EntryLaunched u
      ((s.intakeLaunch p b).setPartAt p { (s.intakeLaunch p b).partAt p with idleAt := idle }) p b w := by
  generalize hx : s.intakeLaunch p b = x
  refine intakeLaunch_launches hu hw hr hb ?_
  rw [hx]
  refine ⟨rfl, ?_, rfl, rfl⟩
  rw [State.binAt, State.partAt_setPartAt_same]
  rfl

section
variable (hex : (s.partAt p).exists_ = true) (hk : Claims.BinsKnown s p) (hv : (s.partAt p).events = [])
  {d : Nat × List Nat} (hd : s.dispatchable p = some d) (hi : (s.partAt p).idleAt ≠ some d)
include hex hk hv hd hi

theorem exec_decision_dispatch : ∃ idle, exec (.decision p) s =
    let t := (s.decidedOn p (dispatchEvent d)).1.applyOutput p (dispatchEvent d) (s.decidedOn p (dispatchEvent d)).2
    .next (t.setPartAt p { t.partAt p with idleAt := idle }) := by
  have hnext : s.nextPolicyEvent p = some (dispatchEvent d) := by
    rw [State.nextPolicyEvent, hv, hd]
    exact if_neg hi
  rw [exec_decision hex hk hnext]
  exact ⟨_, if_pos rfl⟩

variable (hnq : (s.partAt p).record.nq ≤ 16) (hy : (s.partAt p).policy.shadow = none)
include hnq hy

theorem dispatch_without_image (h : (s.partAt p).policy.disabled = true ∨ (s.partAt p).policy.active = none)
    (hb : 0 < ((((s.snapshot p (dispatchEvent d)).queues)[b]?).getD []).getD 0 0)
    (hbest : ∀ i, 0 < ((((s.snapshot p (dispatchEvent d)).queues)[i]?).getD []).getD 0 0 →
      ((((s.snapshot p (dispatchEvent d)).queues)[i]?).getD []).getD 3 0 ≤ ((((s.snapshot p (dispatchEvent d)).queues)[b]?).getD []).getD 3 0 ∧
      (i < b → ((((s.snapshot p (dispatchEvent d)).queues)[i]?).getD []).getD 3 0 <
        ((((s.snapshot p (dispatchEvent d)).queues)[b]?).getD []).getD 3 0))
    (hw : s.binView p b = .ok w) : ∃ t, exec (.decision p) s = .next t ∧ Claims.EntryLaunched s t p b w := by
  obtain ⟨hlt, hr⟩ := ready_of_snapshot hb hw
  obtain ⟨idle, hexec⟩ := exec_decision_dispatch hex hk hv hd hi
  rw [decidedOn_without_image (es := []) (by rw [hv]; rfl) hy h, fallback_dispatch rfl hb hbest, applyOutput_dispatch] at hexec
  exact ⟨_, hexec, idle_launches decided_sameAccess (binView_taken.trans hw) hr (by omega) idle⟩

/-- What an image decides on a DISPATCH takes effect. -/
theorem dispatch_with_image {img : List (BitVec 16)} {r : Rake} (hdis : (s.partAt p).policy.disabled = false)
    (ha : (s.partAt p).policy.active = some img) (hr : s.rakeRun p (dispatchEvent d) img = some r)
    (hm : Claims.OutputsMatch s p (dispatchEvent d) (s.snapshot p (dispatchEvent d)) r) (h0 : r.act ≠ some 0) :
    ∃ u, Claims.Keeps s p [] r u ∧
      (r.pick = none → ∃ idle, exec (.decision p) s = .next (u.setPartAt p { u.partAt p with idleAt := idle })) ∧
      ∀ b, r.pick = some b → ∀ w, s.binView p b = .ok w → ∃ t, exec (.decision p) s = .next t ∧ Claims.EntryLaunched u t p b w := by
  have hkeeps := keepRake_keeps (s := s) (p := p) (es := []) r
  have hkind : (dispatchEvent d).kind = 1 := rfl
  obtain ⟨idle, hexec⟩ := exec_decision_dispatch hex hk hv hd hi
  rw [decidedOn_stands (es := []) (by rw [hv]; rfl) hy hdis ha hkind.ge (by omega) hr hm h0 (by omega),
    applyOutput_dispatch] at hexec
  refine ⟨_, hkeeps, fun hp => ⟨idle, ?_⟩, fun b hp w hw => ⟨_, hexec, ?_⟩⟩
  · rw [hexec, hp]
  · obtain hm0 | ⟨-, -, -, hready, -⟩ := hm
    · exact absurd hm0 h0
    obtain ⟨hlt, hrw⟩ := ready_of_snapshot (hready b hp) hw
    simp only [hp]
    exact idle_launches ⟨rfl, fun _ => rfl, fun _ => rfl⟩ ((binView_keepRake hk hnq hlt).trans hw) hrw (by omega) idle

end

theorem decisionsTakeEffect : Claims.DecisionsTakeEffect := by
  intro s p v y hex hnq hk hy
  refine ⟨fun e es hv h => fallsBack_without_image hex hk hv hy h, fun e es img hv h2 h5 hd ha => ⟨fun h => ?_, fun r hr hm => ?_⟩,
    fun d hv hd hi => ⟨fun b h hb hbest w hw => ?_, fun img r hdis ha hr hm h0 => ?_⟩⟩
  · have hover := fallsBack_overrun hex hk hv hy hd ha h2 h5 h
    rwa [overrun_eq hd] at hover
  · exact postedEventsTakeEffect hex hk hy hv h2 h5 hd ha hr hm
  · exact dispatch_without_image hex hk hv hd hi hnq hy h hb hbest hw
  · exact dispatch_with_image hex hk hv hd hi hnq hy hdis ha hr hm h0

/-- Settles O43: time slices and the PREEMPT they post, runs of policy images, decisions and what they leave, the writes
that the scheduler owes, and threshold windows. -/
theorem slicesAndDecisionsArePosted : Obligations.SlicesAndDecisionsArePosted :=
  ⟨slicesPostPreempt, rakeImagesRun, decisionsTakeEffect, owedWritesPerform, windowsReset⟩

end Sys2Proof.Machine
end

