-- ==== Sys2Proof/Proofs/Fractions.lean ====
section
/-!
Fractions as real numbers: powers of two, binary logarithms, and rounding to multiples of a power of two (R63).
-/

namespace Sys2Proof.Machine

set_option Elab.async false

variable {n d : Nat} {q : Int}

/- Powers of two. -/

theorem pow2_num_pos (e : Int) : 0 < (pow2 e).1 := by
  unfold pow2
  split <;> simp [Nat.shiftLeft_eq]

theorem pow2_den_pos (e : Int) : 0 < (pow2 e).2 := by
  unfold pow2
  split <;> simp [Nat.shiftLeft_eq]

theorem pow2_eq (e : Int) : ((pow2 e).1 : ℝ) / (pow2 e).2 = 2 ^ e := by
  unfold pow2
  split
  next h =>
    obtain ⟨k, rfl⟩ := Int.eq_ofNat_of_zero_le h
    simp [Nat.shiftLeft_eq]
  next h =>
    obtain ⟨k, hk⟩ := Int.eq_ofNat_of_zero_le (show 0 ≤ -e by omega)
    obtain rfl : e = -(k : Int) := by omega
    simp [Nat.shiftLeft_eq]

theorem pow2_num (e : Int) : ((pow2 e).1 : ℝ) = 2 ^ e * (pow2 e).2 := by
  have h : ((pow2 e).2 : ℝ) ≠ 0 := by exact_mod_cast (pow2_den_pos e).ne'
  rw [← pow2_eq, div_mul_cancel₀ _ h]

/-- A fraction over a power of two. -/
theorem frac_pow2 (n d : Nat) (q : Int) : ((n * (pow2 q).2 : Nat) : ℝ) / (d * (pow2 q).1 : Nat) = (n : ℝ) / d / 2 ^ q := by
  have h : ((pow2 q).2 : ℝ) ≠ 0 := by exact_mod_cast (pow2_den_pos q).ne'
  push_cast
  rw [pow2_num, ← mul_assoc, mul_div_mul_right _ _ h, div_div]

/- Binary logarithms. -/

theorem log2_le (h : 0 < n) : (2 : ℝ) ^ (n.log2 : ℤ) ≤ n := by
  rw [zpow_natCast]
  exact_mod_cast Nat.log2_self_le h.ne'

theorem lt_log2_succ (n : Nat) : (n : ℝ) < 2 ^ ((n.log2 : ℤ) + 1) := by
  have h : n < 2 ^ (n.log2 + 1) := Nat.lt_log2_self
  rw [← Nat.cast_succ, zpow_natCast]
  exact_mod_cast h

theorem le_frac_iff (hd : 0 < d) (e : Int) : d * (pow2 e).1 ≤ n * (pow2 e).2 ↔ (2 : ℝ) ^ e ≤ (n : ℝ) / d := by
  have hd' : (0 : ℝ) < d := by exact_mod_cast hd
  have hp : (0 : ℝ) < (pow2 e).2 := by exact_mod_cast pow2_den_pos e
  rw [le_div_iff₀ hd', ← Nat.cast_le (α := ℝ)]
  push_cast
  rw [pow2_num, ← mul_assoc, mul_le_mul_iff_left₀ hp, mul_comm]

/-- `log2Frac` is the exponent of the binade that holds a fraction. -/
theorem log2Frac_spec (hn : 0 < n) (hd : 0 < d) :
    (2 : ℝ) ^ log2Frac n d ≤ (n : ℝ) / d ∧ (n : ℝ) / d < 2 ^ (log2Frac n d + 1) := by
  have hd' : (0 : ℝ) < d := by exact_mod_cast hd
  have hupper : (n : ℝ) / d < 2 ^ ((n.log2 : ℤ) - d.log2 + 1) := by
    rw [div_lt_iff₀ hd']
    calc (n : ℝ) < 2 ^ ((n.log2 : ℤ) + 1) := lt_log2_succ n
      _ = 2 ^ ((n.log2 : ℤ) - d.log2 + 1) * 2 ^ (d.log2 : ℤ) := by rw [← zpow_add₀ two_ne_zero]; ring_nf
      _ ≤ _ := by gcongr; exact log2_le hd
  have hlower : (2 : ℝ) ^ ((n.log2 : ℤ) - d.log2 - 1) ≤ (n : ℝ) / d := by
    rw [le_div_iff₀ hd']
    calc (2 : ℝ) ^ ((n.log2 : ℤ) - d.log2 - 1) * d
        ≤ 2 ^ ((n.log2 : ℤ) - d.log2 - 1) * 2 ^ ((d.log2 : ℤ) + 1) := by gcongr; exact (lt_log2_succ d).le
      _ = 2 ^ (n.log2 : ℤ) := by rw [← zpow_add₀ two_ne_zero]; ring_nf
      _ ≤ n := log2_le hn
  unfold log2Frac
  dsimp only
  split
  next h => exact ⟨(le_frac_iff hd _).mp h, hupper⟩
  next h =>
    rw [le_frac_iff hd, not_le] at h
    exact ⟨hlower, by rwa [sub_add_cancel]⟩

theorem le_log2Frac_iff (hn : 0 < n) (hd : 0 < d) (e : Int) : e ≤ log2Frac n d ↔ (2 : ℝ) ^ e ≤ (n : ℝ) / d := by
  obtain ⟨hlow, hhigh⟩ := log2Frac_spec hn hd
  constructor
  · intro h
    exact (zpow_le_zpow_right₀ one_le_two h).trans hlow
  · intro h
    have := (zpow_lt_zpow_iff_right₀ one_lt_two).mp (h.trans_lt hhigh)
    omega

theorem log2Frac_lt_iff (hn : 0 < n) (hd : 0 < d) (e : Int) : log2Frac n d < e ↔ (n : ℝ) / d < 2 ^ e := by
  rw [← not_le, le_log2Frac_iff hn hd, not_le]

/-- The exponent is read off any binade that holds the fraction. -/
theorem log2Frac_eq (hn : 0 < n) (hd : 0 < d) {e : Int} (hlow : (2 : ℝ) ^ e ≤ (n : ℝ) / d)
    (hhigh : (n : ℝ) / d < 2 ^ (e + 1)) : log2Frac n d = e := by
  have h1 := (le_log2Frac_iff hn hd e).mpr hlow
  have h2 := (log2Frac_lt_iff hn hd (e + 1)).mpr hhigh
  omega

/-- A power of two is recognised as one (R66). -/
theorem powerOfTwo_eq_some (hn : 0 < n) (hd : 0 < d) {t : Int} : powerOfTwo n d = some t ↔ (n : ℝ) / d = 2 ^ t := by
  have hd' : (0 : ℝ) < d := by exact_mod_cast hd
  have hiff (e : Int) : n * (pow2 e).2 = d * (pow2 e).1 ↔ (n : ℝ) / d = 2 ^ e := by
    have hp : ((pow2 e).2 : ℝ) ≠ 0 := by exact_mod_cast (pow2_den_pos e).ne'
    rw [div_eq_iff hd'.ne', ← Nat.cast_inj (R := ℝ)]
    push_cast
    rw [pow2_num, ← mul_assoc, mul_left_inj' hp, mul_comm (d : ℝ)]
  unfold powerOfTwo
  dsimp only
  constructor
  · intro h
    split at h
    next he =>
      obtain rfl := Option.some.inj h
      exact (hiff _).mp he
    next => cases h
  · intro h
    have ht : log2Frac n d = t := log2Frac_eq hn hd h.ge (by rw [h]; exact zpow_lt_zpow_right₀ one_lt_two (by omega))
    rw [ht, if_pos ((hiff t).mpr h)]

/- Rounding. -/

/-- A rounding that takes a magnitude of sign `neg` towards zero, or away from it. -/
def Rounding.Down (c : Rounding) : Prop := c.mode = 1
def Rounding.Up (c : Rounding) (neg : Bool) : Prop := (c.mode = 2 ∧ neg = true) ∨ (c.mode = 3 ∧ neg = false)

variable {c : Rounding} {neg : Bool}

theorem roundMag_exact {k : Nat} (hd : 0 < d) (h : (n : ℝ) / d = k) : roundMag c neg n d = (k, false) := by
  have hd' : (d : ℝ) ≠ 0 := by exact_mod_cast hd.ne'
  rw [div_eq_iff hd'] at h
  have hn : n = k * d := by exact_mod_cast h
  unfold roundMag
  dsimp only
  rw [hn, Nat.mul_mod_left, if_pos rfl, Nat.mul_div_cancel _ hd]

/-- An inexact fraction is rounded to one of its two neighbours, and a directed rounding says to which. -/
theorem roundMag_inexact {k : Nat} (hd : 0 < d) (hlow : (k : ℝ) < (n : ℝ) / d) (hhigh : (n : ℝ) / d < k + 1) :
    ((roundMag c neg n d).1 = k ∨ (roundMag c neg n d).1 = k + 1) ∧ (roundMag c neg n d).2 = true ∧
      (c.Down → (roundMag c neg n d).1 = k) ∧ (c.Up neg → (roundMag c neg n d).1 = k + 1) := by
  have hd' : (0 : ℝ) < d := by exact_mod_cast hd
  rw [lt_div_iff₀ hd'] at hlow
  rw [div_lt_iff₀ hd'] at hhigh
  have h1 : k * d < n := by exact_mod_cast hlow
  have h2 : n < (k + 1) * d := by exact_mod_cast hhigh
  have hdiv : n / d = k := Nat.div_eq_of_lt_le h1.le h2
  have hmod : n % d ≠ 0 := fun h => by
    have := Nat.div_add_mod n d
    rw [hdiv, h, Nat.mul_comm] at this
    omega
  have hcases : (roundMag c neg n d).1 = k ∨ (roundMag c neg n d).1 = k + 1 := by
    unfold roundMag
    dsimp only
    rw [if_neg hmod, hdiv]
    exact (ite_eq_or_eq _ _ _).symm
  refine ⟨hcases, ?_, fun hc => ?_, fun hc => ?_⟩
  · unfold roundMag
    dsimp only
    rw [if_neg hmod]
  · unfold roundMag
    dsimp only
    rw [if_neg hmod, hdiv, show c.mode = 1 from hc]
    rfl
  · unfold roundMag
    dsimp only
    rw [if_neg hmod, hdiv]
    obtain ⟨hm, hneg⟩ | ⟨hm, hneg⟩ := hc
    · rw [hm, hneg]; rfl
    · rw [hm, hneg]; rfl

theorem roundAt_exact {k : Nat} (hd : 0 < d) (h : (n : ℝ) / d = k * 2 ^ q) : roundAt c neg n d q = (k, false) := by
  refine roundMag_exact (Nat.mul_pos hd (pow2_num_pos q)) ?_
  rw [frac_pow2, h, mul_div_cancel_right₀ _ (by positivity)]

theorem roundAt_inexact {k : Nat} (hd : 0 < d) (hlow : (k : ℝ) * 2 ^ q < (n : ℝ) / d) (hhigh : (n : ℝ) / d < (k + 1) * 2 ^ q) :
    ((roundAt c neg n d q).1 = k ∨ (roundAt c neg n d q).1 = k + 1) ∧ (roundAt c neg n d q).2 = true ∧
      (c.Down → (roundAt c neg n d q).1 = k) ∧ (c.Up neg → (roundAt c neg n d q).1 = k + 1) := by
  have hq : (0 : ℝ) < 2 ^ q := by positivity
  refine roundMag_inexact (Nat.mul_pos hd (pow2_num_pos q)) ?_ ?_
  · rw [frac_pow2, lt_div_iff₀ hq]
    exact hlow
  · rw [frac_pow2, div_lt_iff₀ hq]
    exact hhigh

/-- A rounded fraction lies less than a unit away, and on the side that a directed rounding takes. -/
theorem roundAt_near (hd : 0 < d) : (n : ℝ) / d < ((roundAt c neg n d q).1 + 1) * 2 ^ q ∧
    ((roundAt c neg n d q).1 - 1) * 2 ^ q < (n : ℝ) / d ∧ (c.Down → (roundAt c neg n d q).1 * 2 ^ q ≤ (n : ℝ) / d) := by
  have hq : (0 : ℝ) < 2 ^ q := by positivity
  have hx : (0 : ℝ) ≤ (n : ℝ) / d / 2 ^ q := by positivity
  have hfloor := Nat.floor_le hx
  have hlt := Nat.lt_floor_add_one ((n : ℝ) / d / 2 ^ q)
  generalize ⌊(n : ℝ) / d / 2 ^ q⌋₊ = k at hfloor hlt
  rw [le_div_iff₀ hq] at hfloor
  rw [div_lt_iff₀ hq] at hlt
  obtain heq | hne := hfloor.eq_or_lt
  · rw [roundAt_exact hd heq.symm, ← heq]
    refine ⟨by nlinarith, by nlinarith, fun _ => le_rfl⟩
  · obtain ⟨hcases, -, hdown, -⟩ := roundAt_inexact (c := c) (neg := neg) hd hne hlt
    refine ⟨?_, ?_, fun hc => by rw [hdown hc]; exact hfloor⟩
    · obtain h | h := hcases <;> rw [h] <;> push_cast <;> nlinarith
    · obtain h | h := hcases <;> rw [h] <;> push_cast <;> nlinarith

end Sys2Proof.Machine
end

