-- ==== Sys2Proof/Proofs/Magnitudes.lean ====
section
/-!
Magnitudes of the formats that approximations and rotations take (R52, R62): their values as real numbers, in the order
of their encodings.
-/

namespace Sys2Proof.Machine

set_option Elab.async false

variable {f : Fmt} {sp : FloatSpec} {g : Nat} {y : ℝ}

/- Encodings with infinities. -/

/-- An encoding whose largest exponent holds the infinity and the NaNs (R52). -/
structure Ieee (f : Fmt) (sp : FloatSpec) : Prop where
  spec : f.spec = some sp
  width : 1 <<< (f.width - 1) = (2 * sp.bias + 2) * 2 ^ sp.m
  inf : sp.inf = some ((2 * sp.bias + 1) * 2 ^ sp.m)
  maxMag : sp.maxMag + 1 = (2 * sp.bias + 1) * 2 ^ sp.m
  nan : sp.nan = some ((2 * sp.bias + 1) * 2 ^ sp.m + 2 ^ (sp.m - 1))
  bias : 1 ≤ sp.bias ∧ sp.bias ≤ 1023
  mantissa : 1 ≤ sp.m ∧ sp.m ≤ 52 ∧ sp.m ≤ sp.bias

/-- The formats of approximations are such encodings. -/
theorem ieee_of_approxFmt (hf : Claims.approxFmt f = true) : ∃ sp, Ieee f sp := by
  simp only [Claims.approxFmt, Bool.or_eq_true, decide_eq_true_eq] at hf
  obtain ((rfl | rfl) | rfl) | rfl := hf
  · exact ⟨_, rfl, by decide, by decide, by decide, by decide, by decide, by decide⟩
  · exact ⟨_, rfl, by decide, by decide, by decide, by decide, by decide, by decide⟩
  · exact ⟨_, rfl, by decide, by decide, by decide, by decide, by decide, by decide⟩
  · exact ⟨_, rfl, by decide, by decide, by decide, by decide, by decide, by decide⟩

/-- The exponent of the last place of a subnormal (R62). -/
def FloatSpec.qmin (sp : FloatSpec) : ℤ := 1 - (sp.bias : ℤ) - sp.m

/-- The magnitude bits of infinity. -/
def FloatSpec.top (sp : FloatSpec) : Nat := (2 * sp.bias + 1) * 2 ^ sp.m

/- Values of magnitudes. -/

/-- The value of magnitude bits, read on past the largest finite one as if the exponents went on. -/
noncomputable def FloatSpec.val (sp : FloatSpec) (g : Nat) : ℝ :=
  if g < 2 ^ sp.m then g * 2 ^ sp.qmin
  else ((g % 2 ^ sp.m : Nat) + 2 ^ sp.m) * 2 ^ ((g / 2 ^ sp.m : Nat) - 1 + sp.qmin)

/-- Magnitude bits as a number of units in the last place of a binade. -/
theorem val_grid (sp : FloatSpec) {k j : Nat} (h : k = 0 ∨ 2 ^ sp.m ≤ j) (hj : j ≤ 2 ^ (sp.m + 1)) :
    sp.val (k * 2 ^ sp.m + j) = j * 2 ^ ((k : ℤ) + sp.qmin) := by
  have hp : 0 < 2 ^ sp.m := by positivity
  unfold FloatSpec.val
  by_cases hlt : j < 2 ^ sp.m
  · obtain rfl : k = 0 := by omega
    rw [if_pos (by omega)]
    simp
  · rw [if_neg (by nlinarith)]
    obtain hj2 | hj2 : j < 2 ^ (sp.m + 1) ∨ j = 2 ^ (sp.m + 1) := by omega
    · obtain ⟨i, rfl⟩ := Nat.exists_eq_add_of_le (not_lt.mp hlt)
      have hi : i < 2 ^ sp.m := by rw [pow_succ] at hj2; omega
      have hrw : k * 2 ^ sp.m + (2 ^ sp.m + i) = i + (k + 1) * 2 ^ sp.m := by ring
      rw [hrw, Nat.add_mul_mod_self_right, Nat.mod_eq_of_lt hi, Nat.add_mul_div_right _ _ hp, Nat.div_eq_of_lt hi]
      push_cast
      ring_nf
    · have hrw : k * 2 ^ sp.m + j = (k + 2) * 2 ^ sp.m := by rw [hj2, pow_succ]; ring
      rw [hrw, Nat.mul_mod_left, Nat.mul_div_cancel _ hp, hj2]
      push_cast
      rw [show (k : ℤ) + 2 - 1 + sp.qmin = (k : ℤ) + sp.qmin + 1 by ring, zpow_add_one₀ two_ne_zero, pow_succ]
      ring

/-- Every magnitude stands in a binade, or among the subnormals. -/
theorem exists_grid (sp : FloatSpec) (g : Nat) :
    ∃ k j, g = k * 2 ^ sp.m + j ∧ (k = 0 ∨ 2 ^ sp.m ≤ j) ∧ j < 2 ^ (sp.m + 1) := by
  have hp : 0 < 2 ^ sp.m := by positivity
  have hdm := Nat.div_add_mod g (2 ^ sp.m)
  have hr := Nat.mod_lt g hp
  rw [Nat.mul_comm] at hdm
  cases hk : g / 2 ^ sp.m with
  | zero => exact ⟨0, g, by omega, .inl rfl, by rw [hk] at hdm; rw [pow_succ]; omega⟩
  | succ k =>
    rw [hk, Nat.succ_mul] at hdm
    exact ⟨k, 2 ^ sp.m + g % 2 ^ sp.m, by omega, .inr (by omega), by rw [pow_succ]; omega⟩

theorem val_lt_succ (sp : FloatSpec) (g : Nat) : sp.val g < sp.val (g + 1) := by
  obtain ⟨k, j, rfl, hk, hj⟩ := exists_grid sp g
  rw [val_grid sp hk hj.le, add_assoc, val_grid sp (hk.imp_right fun h => by omega) hj]
  gcongr
  exact_mod_cast Nat.lt_succ_self j

theorem val_strictMono (sp : FloatSpec) : StrictMono sp.val := strictMono_nat_of_lt_succ (val_lt_succ sp)

@[simp] theorem val_zero (sp : FloatSpec) : sp.val 0 = 0 := by simp [FloatSpec.val]

theorem val_nonneg (sp : FloatSpec) (g : Nat) : 0 ≤ sp.val g := by
  rw [← val_zero sp]
  exact (val_strictMono sp).monotone g.zero_le

/-- Every value is a whole number of units in the last place of the subnormals. -/
theorem exists_units (sp : FloatSpec) (g : Nat) : ∃ n : Nat, sp.val g = n * 2 ^ sp.qmin := by
  obtain ⟨k, j, rfl, hk, hj⟩ := exists_grid sp g
  refine ⟨j * 2 ^ k, ?_⟩
  rw [val_grid sp hk hj.le, zpow_add₀ two_ne_zero, zpow_natCast]
  push_cast
  ring

/-- Powers of two in the normal range. -/
theorem val_pow (sp : FloatSpec) {k : Nat} (hk : 1 ≤ k) : sp.val (k * 2 ^ sp.m) = 2 ^ ((k : ℤ) - sp.bias) := by
  obtain ⟨i, rfl⟩ := Nat.exists_eq_add_of_le' hk
  have h := val_grid sp (k := i) (j := 2 ^ sp.m) (.inr le_rfl) (by rw [pow_succ]; omega)
  rw [show (i + 1) * 2 ^ sp.m = i * 2 ^ sp.m + 2 ^ sp.m by ring, h]
  push_cast
  rw [← zpow_natCast, ← zpow_add₀ two_ne_zero, FloatSpec.qmin]
  ring_nf

theorem val_min_normal (sp : FloatSpec) : sp.val (2 ^ sp.m) = 2 ^ (1 - (sp.bias : ℤ)) := by
  simpa using val_pow sp (k := 1) le_rfl

theorem val_top (sp : FloatSpec) : sp.val sp.top = 2 ^ ((sp.bias : ℤ) + 1) := by
  rw [FloatSpec.top, val_pow sp (by omega)]
  push_cast
  ring_nf

/-- The largest finite value (R52). -/
theorem val_maxMag (h : Ieee f sp) : sp.val sp.maxMag = 2 ^ ((sp.bias : ℤ) + 1) - 2 ^ ((sp.bias : ℤ) - sp.m) := by
  obtain ⟨i, hi⟩ := Nat.exists_eq_add_of_le h.bias.1
  have hp : 0 < 2 ^ sp.m := by positivity
  have hmag : sp.maxMag = (2 * i + 1) * 2 ^ sp.m + (2 ^ (sp.m + 1) - 1) := by
    have := h.maxMag
    rw [hi] at this
    rw [pow_succ]
    have hexpand : (2 * (1 + i) + 1) * 2 ^ sp.m = (2 * i + 1) * 2 ^ sp.m + 2 ^ sp.m * 2 := by ring
    omega
  have hle : 2 ^ sp.m ≤ 2 ^ (sp.m + 1) - 1 := by rw [pow_succ]; omega
  rw [hmag, val_grid sp (.inr hle) (Nat.sub_le _ _), Nat.cast_sub (Nat.one_le_two_pow)]
  push_cast
  rw [hi, sub_mul, one_mul, ← zpow_natCast, ← zpow_add₀ two_ne_zero, FloatSpec.qmin, hi]
  push_cast
  ring_nf

/-- The value 2^e of a subnormal. -/
theorem val_subnormal_pow (sp : FloatSpec) {i : Nat} (hi : i ≤ sp.m) : sp.val (2 ^ i) = 2 ^ ((i : ℤ) + sp.qmin) := by
  have h := val_grid sp (k := 0) (j := 2 ^ i) (.inl rfl) (Nat.pow_le_pow_right (by omega) (by omega))
  rw [Nat.zero_mul, Nat.zero_add] at h
  rw [h]
  push_cast
  rw [← zpow_natCast, ← zpow_add₀ two_ne_zero]
  simp

theorem maxMag_lt_top (h : Ieee f sp) : sp.maxMag < sp.top := by
  have := h.maxMag
  rw [FloatSpec.top]
  omega

theorem top_le_iff (h : Ieee f sp) : sp.top ≤ g ↔ sp.maxMag < g := by
  have := h.maxMag
  rw [FloatSpec.top]
  omega

theorem min_normal_le_maxMag (h : Ieee f sp) : 2 ^ sp.m ≤ sp.maxMag := by
  have hmag := h.maxMag
  obtain ⟨hb, -⟩ := h.bias
  have : 2 * 2 ^ sp.m ≤ (2 * sp.bias + 1) * 2 ^ sp.m := Nat.mul_le_mul_right _ (by omega)
  have := Nat.two_pow_pos sp.m
  omega

/- What bits hold. -/

theorem shiftRight_eq (g n : Nat) : g >>> n = g / 2 ^ n := Nat.shiftRight_eq_div_pow g n
theorem one_shiftLeft (n : Nat) : 1 <<< n = 2 ^ n := by rw [Nat.shiftLeft_eq, Nat.one_mul]

/-- The significand and the exponent of magnitude bits (R52). -/
def FloatSpec.mant (sp : FloatSpec) (g : Nat) : Nat := if g >>> sp.m = 0 then g % 1 <<< sp.m else g % 1 <<< sp.m + 1 <<< sp.m
def FloatSpec.exp (sp : FloatSpec) (g : Nat) : ℤ := (if g >>> sp.m = 0 then 1 else ((g >>> sp.m : Nat) : ℤ)) - (sp.bias : ℤ) - sp.m

theorem mant_exp_val (sp : FloatSpec) (g : Nat) : (sp.mant g : ℝ) * 2 ^ sp.exp g = sp.val g := by
  have hp : 0 < 2 ^ sp.m := by positivity
  unfold FloatSpec.mant FloatSpec.exp FloatSpec.val FloatSpec.qmin
  rw [shiftRight_eq, one_shiftLeft]
  by_cases h : g < 2 ^ sp.m
  · rw [Nat.div_eq_of_lt h, if_pos rfl, if_pos rfl, if_pos h, Nat.mod_eq_of_lt h]
  · have hdiv : ¬ g / 2 ^ sp.m = 0 := fun h0 => h (Nat.lt_of_div_eq_zero hp h0)
    rw [if_neg hdiv, if_neg hdiv, if_neg h]
    push_cast
    ring_nf

/-- Finite bits decode to their value as a fraction over a power of two. -/
theorem decodeFloat_finite (h : Ieee f sp) {x : Nat} (hx : x % 1 <<< (f.width - 1) ≤ sp.maxMag) :
    decodeFloat sp f.width x = Val.scale (.num (x.testBit (f.width - 1)) (sp.mant (x % 1 <<< (f.width - 1))) 1)
      (sp.exp (x % 1 <<< (f.width - 1))) := by
  have hlt := maxMag_lt_top h
  rw [FloatSpec.top] at hlt
  unfold decodeFloat
  dsimp only
  rw [h.inf]
  dsimp only
  rw [if_neg (by omega), if_neg (by omega)]
  rfl

theorem decodeFloat_not_num (h : Ieee f sp) {x : Nat} (hx : sp.maxMag < x % 1 <<< (f.width - 1)) (neg : Bool) (m d : Nat) :
    decodeFloat sp f.width x ≠ .num neg m d := by
  rw [← top_le_iff h, FloatSpec.top] at hx
  unfold decodeFloat
  dsimp only
  rw [h.inf]
  dsimp only
  split
  · simp
  next hne =>
    rw [if_pos (by omega)]
    simp

theorem scale_num (neg : Bool) (m : Nat) (e : ℤ) :
    Val.scale (.num neg m 1) e = .num neg (m * (pow2 e).1) (pow2 e).2 := by
  simp [Val.scale]

theorem scale_num_real (m : Nat) (e : ℤ) : ((m * (pow2 e).1 : Nat) : ℝ) / (pow2 e).2 = m * 2 ^ e := by
  push_cast
  rw [mul_div_assoc, pow2_eq]

theorem decodeVal_of_ieee (h : Ieee f sp) (x : Nat) : decodeVal f false x = decodeFloat sp f.width x := by
  rw [decodeVal, h.spec]
  rfl

/-- The finite values that bits of the format hold are those of the finite magnitudes. -/
theorem exists_mag_of_holds (h : Ieee f sp) {x : Nat} {neg : Bool} {q : ℝ} (hq : Claims.Holds f x neg q) :
    ∃ g ≤ sp.maxMag, q = sp.val g := by
  obtain ⟨m, d, hdec, rfl⟩ := hq
  rw [decodeVal_of_ieee h] at hdec
  by_cases hx : x % 1 <<< (f.width - 1) ≤ sp.maxMag
  · rw [decodeFloat_finite h hx, scale_num] at hdec
    injection hdec with _ hm hd
    exact ⟨_, hx, by rw [← hm, ← hd, scale_num_real, mant_exp_val]⟩
  · exact (decodeFloat_not_num h (not_le.mp hx) _ _ _ hdec).elim

theorem signed_eq (h : Ieee f sp) (neg : Bool) (hg : g ≤ sp.maxMag) :
    (Claims.signed f neg g).testBit (f.width - 1) = neg ∧ Claims.signed f neg g % 1 <<< (f.width - 1) = g := by
  have hlt : g < 2 ^ (f.width - 1) := by
    rw [← one_shiftLeft, h.width]
    have := h.maxMag
    nlinarith [Nat.two_pow_pos sp.m]
  rw [Claims.signed, one_shiftLeft]
  cases neg
  · exact ⟨Nat.testBit_lt_two_pow hlt, Nat.mod_eq_of_lt hlt⟩
  · refine ⟨?_, ?_⟩
    · rw [if_pos rfl, Nat.add_comm, Nat.testBit_two_pow_add_eq, Nat.testBit_lt_two_pow hlt]
      rfl
    · rw [if_pos rfl, Nat.add_mod_right, Nat.mod_eq_of_lt hlt]

/-- A finite magnitude with a sign holds its value. -/
theorem holds_signed (h : Ieee f sp) (neg : Bool) (hg : g ≤ sp.maxMag) :
    Claims.Holds f (Claims.signed f neg g) neg (sp.val g) := by
  obtain ⟨hsign, hmag⟩ := signed_eq h neg hg
  refine ⟨sp.mant g * (pow2 (sp.exp g)).1, (pow2 (sp.exp g)).2, ?_, ?_⟩
  · rw [decodeVal_of_ieee h, decodeFloat_finite h (by rw [hmag]; exact hg), hmag, hsign, scale_num]
  · rw [scale_num_real, mant_exp_val]

theorem signed_lt (h : Ieee f sp) (neg : Bool) (hg : g ≤ sp.maxMag) (hw : 1 ≤ f.width) : Claims.signed f neg g < 2 ^ f.width := by
  have hlt : g < 2 ^ (f.width - 1) := by
    rw [← one_shiftLeft, h.width]
    have := h.maxMag
    nlinarith [Nat.two_pow_pos sp.m]
  have hpow : 2 ^ f.width = 2 * 2 ^ (f.width - 1) := by rw [← pow_succ', Nat.sub_add_cancel hw]
  rw [Claims.signed]
  split <;> omega

/-- The model joins sign and magnitude as the statements do. -/
theorem withSign_eq (h : Ieee f sp) (neg : Bool) (hg : g ≤ sp.top) : withSign sp f.width neg g = Claims.signed f neg g := by
  have hnan : sp.nan ≠ some g := by
    rw [h.nan]
    rw [FloatSpec.top] at hg
    have := Nat.two_pow_pos (sp.m - 1)
    simp only [ne_eq, Option.some.injEq]
    omega
  rw [withSign, Claims.signed, one_shiftLeft]
  cases neg <;> simp [hnan]

/- Between two neighbours. -/

/-- y lies between the values of the magnitude g and of the next one. -/
structure Between (sp : FloatSpec) (y : ℝ) (g : Nat) : Prop where
  low : sp.val g < y
  high : y < sp.val (g + 1)

theorem Between.lt_iff (h : Between sp y g) (k : Nat) : sp.val k < y ↔ k ≤ g := by
  constructor
  · intro hk
    exact Nat.lt_succ_iff.mp ((val_strictMono sp).lt_iff_lt.mp (hk.trans h.high))
  · intro hk
    exact ((val_strictMono sp).monotone hk).trans_lt h.low

theorem Between.le_iff (h : Between sp y g) (k : Nat) : y ≤ sp.val k ↔ g < k := by
  rw [← not_lt, h.lt_iff, not_le]

theorem Between.ne (h : Between sp y g) (k : Nat) : sp.val k ≠ y := by
  rintro rfl
  have h1 := (val_strictMono sp).lt_iff_lt.mp h.low
  have h2 := (val_strictMono sp).lt_iff_lt.mp h.high
  omega

theorem Between.pos (h : Between sp y g) : 0 < y := (val_nonneg sp g).trans_lt h.low

theorem Between.lt_val_iff (h : Between sp y g) (k : Nat) : y < sp.val k ↔ g < k := by
  rw [← h.le_iff]
  exact ⟨le_of_lt, fun hle => hle.lt_of_ne (h.ne k).symm⟩

/-- The neighbours bracket it (R65). -/
theorem Between.brackets (h : Between sp y g) (hi : Ieee f sp) {k : Nat} (hk : k = g ∨ k = g + 1) :
    Claims.Brackets f y (sp.val k) := by
  obtain rfl | rfl := hk
  · refine .inl ⟨h.low.le, fun x n p _ hp hle => ?_⟩
    obtain ⟨j, -, rfl⟩ := exists_mag_of_holds hi hp
    exact (val_strictMono sp).monotone ((h.lt_iff j).mp (hle.lt_of_ne (h.ne j)))
  · refine .inr ⟨h.high.le, fun x n p _ hp hle => ?_⟩
    obtain ⟨j, -, rfl⟩ := exists_mag_of_holds hi hp
    exact (val_strictMono sp).monotone ((h.le_iff j).mp hle)

end Sys2Proof.Machine
end

