-- ==== Sys2Proof/Proofs/Placing.lean ====
section
/-!
Placing magnitudes (R62, R63): what a directed rounding makes of a fraction that is a value of the format, or lies between
two of them.
-/

namespace Sys2Proof.Machine

set_option Elab.async false

variable {f : Fmt} {sp : FloatSpec} {g n d : Nat} {c : Rounding} {neg sat ftz away : Bool}

/- The last place of a binade. -/

/-- The exponent of the last place of a magnitude of exponent t (R62). -/
def FloatSpec.last (sp : FloatSpec) (t : ℤ) : ℤ := if t < 1 - (sp.bias : ℤ) then sp.qmin else t - sp.m

/-- A fraction that lies at a magnitude or past it, short of the next one, stands in that magnitude's binade. -/
theorem grid_of_le (hn : 0 < n) (hd : 0 < d) (hlow : sp.val g ≤ (n : ℝ) / d) (hhigh : (n : ℝ) / d < sp.val (g + 1)) :
    ∃ k j : Nat, g = k * 2 ^ sp.m + j ∧ sp.last (log2Frac n d) = k + sp.qmin ∧
      sp.val g = j * 2 ^ ((k : ℤ) + sp.qmin) ∧ sp.val (g + 1) = (j + 1 : Nat) * 2 ^ ((k : ℤ) + sp.qmin) := by
  obtain ⟨k, j, rfl, hk, hj⟩ := exists_grid sp g
  have hval := val_grid sp hk hj.le
  have hnext : sp.val (k * 2 ^ sp.m + j + 1) = (j + 1 : Nat) * 2 ^ ((k : ℤ) + sp.qmin) := by
    rw [add_assoc, val_grid sp (hk.imp_right fun h => by omega) hj]
  refine ⟨k, j, rfl, ?_, hval, hnext⟩
  have hupper : (n : ℝ) / d < 2 ^ ((sp.m : ℤ) + k + sp.qmin + 1) := by
    refine hhigh.trans_le ?_
    rw [hnext]
    have hj' : ((j + 1 : Nat) : ℝ) ≤ 2 ^ ((sp.m : ℤ) + 1) := by exact_mod_cast hj
    calc ((j + 1 : Nat) : ℝ) * 2 ^ ((k : ℤ) + sp.qmin) ≤ 2 ^ ((sp.m : ℤ) + 1) * 2 ^ ((k : ℤ) + sp.qmin) := by gcongr
      _ = _ := by rw [← zpow_add₀ two_ne_zero]; ring_nf
  have ht : log2Frac n d < (sp.m : ℤ) + k + sp.qmin + 1 := (log2Frac_lt_iff hn hd _).mpr hupper
  have hemin : sp.qmin = 1 - (sp.bias : ℤ) - sp.m := rfl
  rw [FloatSpec.last]
  obtain rfl | hj2 := hk
  · split <;> push_cast at ht ⊢ <;> omega
  · have hge : (sp.m : ℤ) + k + sp.qmin ≤ log2Frac n d := by
      rw [le_log2Frac_iff hn hd]
      refine le_trans ?_ hlow
      rw [hval]
      have hj' : (2 : ℝ) ^ (sp.m : ℤ) ≤ j := by exact_mod_cast hj2
      calc (2 : ℝ) ^ ((sp.m : ℤ) + k + sp.qmin) = 2 ^ (sp.m : ℤ) * 2 ^ ((k : ℤ) + sp.qmin) := by
            rw [← zpow_add₀ two_ne_zero]; ring_nf
        _ ≤ _ := by gcongr
    split <;> omega

/-- The magnitude that a rounded number of units in the last place stands for. -/
theorem mag_eq {t : ℤ} {k j : Nat} (h : sp.last t = k + sp.qmin) :
    ((sp.last t - sp.qmin).toNat <<< sp.m) + j = k * 2 ^ sp.m + j := by
  rw [h, Nat.shiftLeft_eq, show ((k : ℤ) + sp.qmin - sp.qmin).toNat = k by omega]

/- Results that are flushed to zero. -/

/-- Whether a magnitude rounded to the full precision stays below the normal range (R62). -/
def tiny (sp : FloatSpec) (c : Rounding) (neg : Bool) (n d : Nat) : Bool :=
  let top := log2Frac n d
  let p := pow2 (top - sp.m - (1 - (sp.bias : Int)))
  decide ((roundAt c neg n d (top - sp.m)).1 * p.1 < p.2)

theorem tiny_iff : tiny sp c neg n d = true ↔
    ((roundAt c neg n d (log2Frac n d - sp.m)).1 : ℝ) * 2 ^ (log2Frac n d - sp.m) < 2 ^ (1 - (sp.bias : ℤ)) := by
  have hp : (0 : ℝ) < (pow2 (log2Frac n d - sp.m - (1 - (sp.bias : Int)))).2 := by exact_mod_cast pow2_den_pos _
  rw [tiny, decide_eq_true_eq, ← Nat.cast_lt (α := ℝ)]
  push_cast
  rw [pow2_num, ← mul_assoc, mul_lt_iff_lt_one_left hp, zpow_sub₀ two_ne_zero, ← mul_div_assoc, div_lt_one (by positivity)]

theorem not_tiny (hn : 0 < n) (hd : 0 < d) (h : (2 : ℝ) ^ (1 - (sp.bias : ℤ)) ≤ (n : ℝ) / d) :
    tiny sp c neg n d = false := by
  rw [Bool.eq_false_iff, ne_eq, tiny_iff, not_lt]
  have ht := (le_log2Frac_iff hn hd _).mpr h
  obtain ⟨hlow, -⟩ := log2Frac_spec hn hd
  obtain ⟨hround, -, -⟩ := roundAt_near (n := n) (d := d) (c := c) (neg := neg) (q := log2Frac n d - sp.m) hd
  have hq : (0 : ℝ) < 2 ^ (log2Frac n d - sp.m) := by positivity
  have hsplit : (2 : ℝ) ^ log2Frac n d = ((2 ^ sp.m : Nat) : ℝ) * 2 ^ (log2Frac n d - sp.m) := by
    push_cast
    rw [← zpow_natCast, ← zpow_add₀ two_ne_zero]
    ring_nf
  have hle : 2 ^ sp.m ≤ (roundAt c neg n d (log2Frac n d - sp.m)).1 := by
    rw [← Nat.lt_succ_iff]
    have : ((2 ^ sp.m : Nat) : ℝ) < ((roundAt c neg n d (log2Frac n d - sp.m)).1 + 1 : Nat) := by
      push_cast at hsplit ⊢
      refine lt_of_mul_lt_mul_right ?_ hq.le
      rw [← hsplit]
      exact hlow.trans_lt hround
    exact_mod_cast this
  calc (2 : ℝ) ^ (1 - (sp.bias : ℤ)) ≤ 2 ^ log2Frac n d := zpow_le_zpow_right₀ one_le_two ht
    _ ≤ _ := by rw [hsplit]; gcongr

theorem tiny_of_down (hd : 0 < d) (hc : c.Down) (h : (n : ℝ) / d < (2 : ℝ) ^ (1 - (sp.bias : ℤ))) :
    tiny sp c neg n d = true := by
  rw [tiny_iff]
  exact ((roundAt_near hd).2.2 hc).trans_lt h

/-- A magnitude below the normal range that rounds up into it lies within half a unit of the last subnormal place. -/
theorem near_min_normal (hn : 0 < n) (hd : 0 < d) (h : (n : ℝ) / d < (2 : ℝ) ^ (1 - (sp.bias : ℤ)))
    (ht : tiny sp c neg n d = false) : (2 : ℝ) ^ (1 - (sp.bias : ℤ)) < (n : ℝ) / d + 2 ^ sp.qmin := by
  rw [Bool.eq_false_iff, ne_eq, tiny_iff, not_lt] at ht
  obtain ⟨-, hround, -⟩ := roundAt_near (n := n) (d := d) (c := c) (neg := neg) (q := log2Frac n d - sp.m) hd
  have htop := (log2Frac_lt_iff hn hd _).mpr h
  have hq : (2 : ℝ) ^ (log2Frac n d - sp.m) ≤ 2 ^ sp.qmin :=
    zpow_le_zpow_right₀ one_le_two (by rw [FloatSpec.qmin]; omega)
  linarith

/- Placing. -/

/-- What overflow gives (R63). -/
def overflowed (f : Fmt) (sp : FloatSpec) (c : Rounding) (neg : Bool) : Nat × Flags :=
  (withSign sp f.width neg (overflowMag sp c neg).1, (overflowMag sp c neg).2)

theorem placeMag_eq : placeMag sp f.width c neg n d =
    if c.ftz && tiny sp c neg n d then (withSign sp f.width neg 0, flUF ||| flNX)
    else
      let r := roundAt c neg n d (sp.last (log2Frac n d))
      let mag := ((sp.last (log2Frac n d) - sp.qmin).toNat <<< sp.m) + r.1
      if sp.maxMag < mag then overflowed f sp c neg
      else (withSign sp f.width neg mag, (if r.2 then flNX else flNone) |||
        if !c.ftz && decide (log2Frac n d < 1 - (sp.bias : ℤ)) && r.2 then flUF else flNone) := rfl

theorem min_normal_le_iff (sp : FloatSpec) {y : ℝ} (h : Between sp y g) : y < 2 ^ (1 - (sp.bias : ℤ)) ↔ g < 2 ^ sp.m := by
  rw [← val_min_normal, h.lt_val_iff]

/-- A value of the format is placed as it is, or overflows (R63). -/
theorem placeMag_exact (hi : Ieee f sp) (hn : 0 < n) (hd : 0 < d) (hy : (n : ℝ) / d = sp.val g)
    (hf : c.ftz = false ∨ (2 : ℝ) ^ (1 - (sp.bias : ℤ)) ≤ (n : ℝ) / d) : placeMag sp f.width c neg n d =
      if sp.maxMag < g then overflowed f sp c neg else (Claims.signed f neg g, flNone) := by
  have hflush : (c.ftz && tiny sp c neg n d) = false := by
    obtain h | h := hf
    · rw [h, Bool.false_and]
    · rw [not_tiny hn hd h, Bool.and_false]
  obtain ⟨k, j, rfl, hlast, hval, -⟩ := grid_of_le hn hd hy.ge (by rw [hy]; exact val_lt_succ sp g)
  have hround : roundAt c neg n d (sp.last (log2Frac n d)) = (j, false) := by
    rw [hlast]
    exact roundAt_exact hd (by rw [hy, hval])
  rw [placeMag_eq, hflush, hround]
  dsimp only
  rw [mag_eq hlast]
  by_cases hg : sp.maxMag < k * 2 ^ sp.m + j
  · simp [hg]
  · rw [if_neg Bool.false_ne_true, if_neg hg, if_neg hg, withSign_eq hi neg (by have := maxMag_lt_top hi; omega)]
    simp [flNone]

/-- The flags of an inexact result: underflow as well below the normal range (R67). -/
def inexactFlags (sp : FloatSpec) (g : Nat) : Flags := if g < 2 ^ sp.m then flUF ||| flNX else flNX

/-- A magnitude between two values goes to the one that the rounding takes, or overflows (R63). -/
theorem placeMag_between (hi : Ieee f sp) (hn : 0 < n) (hd : 0 < d) (hy : Between sp ((n : ℝ) / d) g)
    (hf : c.ftz = false ∨ (2 : ℝ) ^ (1 - (sp.bias : ℤ)) ≤ (n : ℝ) / d) {g' : Nat}
    (hg : (c.Down ∧ g' = g) ∨ (c.Up neg ∧ g' = g + 1)) : placeMag sp f.width c neg n d =
      if sp.maxMag < g' then overflowed f sp c neg else (Claims.signed f neg g', inexactFlags sp g) := by
  have hflush : (c.ftz && tiny sp c neg n d) = false := by
    obtain h | h := hf
    · rw [h, Bool.false_and]
    · rw [not_tiny hn hd h, Bool.and_false]
  have hflags : (!c.ftz && decide (log2Frac n d < 1 - (sp.bias : ℤ))) = decide (g < 2 ^ sp.m) := by
    have hiff : log2Frac n d < 1 - (sp.bias : ℤ) ↔ g < 2 ^ sp.m := by
      rw [log2Frac_lt_iff hn hd, min_normal_le_iff sp hy]
    have hdec : decide (log2Frac n d < 1 - (sp.bias : ℤ)) = decide (g < 2 ^ sp.m) := decide_eq_decide.mpr hiff
    rw [hdec]
    obtain h | h := hf
    · simp [h]
    · have hge : ¬ g < 2 ^ sp.m := by rw [← min_normal_le_iff sp hy, not_lt]; exact h
      simp [hge]
  obtain ⟨k, j, rfl, hlast, hval, hnext⟩ := grid_of_le hn hd hy.low.le hy.high
  have hlow := hy.low
  have hhigh := hy.high
  rw [hval, ← hlast] at hlow
  rw [hnext, ← hlast, Nat.cast_succ] at hhigh
  obtain ⟨-, hinexact, hdown, hup⟩ := roundAt_inexact (c := c) (neg := neg) hd hlow hhigh
  have hmag : ((sp.last (log2Frac n d) - sp.qmin).toNat <<< sp.m) + (roundAt c neg n d (sp.last (log2Frac n d))).1 = g' := by
    rw [mag_eq hlast]
    obtain ⟨hc, rfl⟩ | ⟨hc, rfl⟩ := hg
    · rw [hdown hc]
    · rw [hup hc, add_assoc]
  rw [placeMag_eq, hflush]
  dsimp only
  rw [hmag, hinexact, hflags]
  by_cases hmax : sp.maxMag < g'
  · simp [hmax]
  · rw [if_neg Bool.false_ne_true, if_neg hmax, if_neg hmax, withSign_eq hi neg (by have := maxMag_lt_top hi; omega)]
    by_cases hsub : k * 2 ^ sp.m + j < 2 ^ sp.m
    · simp [inexactFlags, hsub, flUF, flNX]
    · simp [inexactFlags, hsub, flNone, flNX]

/-- What is flushed becomes zero (R62). -/
theorem placeMag_flushed (hi : Ieee f sp) (hc : c.ftz = true) (ht : tiny sp c neg n d = true) :
    placeMag sp f.width c neg n d = (Claims.signed f neg 0, flUF ||| flNX) := by
  rw [placeMag_eq, hc, ht]
  exact Prod.ext (withSign_eq hi neg (Nat.zero_le _)) rfl

/-- A magnitude that rounds up into the normal range is not flushed (R62). -/
theorem placeMag_escapes (hi : Ieee f sp) (hn : 0 < n) (hd : 0 < d) (hy : Between sp ((n : ℝ) / d) g) (hg : g < 2 ^ sp.m)
    (hc : c.Up neg) (ht : tiny sp c neg n d = false) : (placeMag sp f.width c neg n d).1 = Claims.signed f neg (2 ^ sp.m) := by
  have hlt := (min_normal_le_iff sp hy).mpr hg
  have hnear := near_min_normal hn hd hlt ht
  have hg1 : g + 1 = 2 ^ sp.m := by
    by_contra hne
    have hval : sp.val (g + 2) ≤ sp.val (2 ^ sp.m) := (val_strictMono sp).monotone (by omega)
    have h1 := val_grid sp (k := 0) (j := g + 1) (.inl rfl) (by rw [pow_succ]; omega)
    have h2 := val_grid sp (k := 0) (j := g + 2) (.inl rfl) (by rw [pow_succ]; omega)
    rw [Nat.zero_mul, Nat.zero_add, Nat.cast_zero, zero_add] at h1 h2
    have hhigh := hy.high
    rw [← val_min_normal] at hnear
    rw [h2] at hval
    rw [h1] at hhigh
    push_cast at hval hhigh
    linarith
  have hfree := placeMag_between (c := { c with ftz := false }) hi hn hd hy (.inl rfl) (.inr ⟨hc, rfl⟩)
  have hle := min_normal_le_maxMag hi
  rw [hg1, if_neg (not_lt.mpr hle), placeMag_eq] at hfree
  rw [placeMag_eq, ht, Bool.and_false]
  have hr : roundAt { c with ftz := false } neg n d = roundAt c neg n d := rfl
  rw [hr] at hfree
  simp only [Bool.false_and, Bool.false_eq_true, if_false] at hfree ⊢
  split at hfree
  next hmax => rw [if_pos hmax]; exact congrArg Prod.fst hfree
  next hmax => rw [if_neg hmax]; exact congrArg Prod.fst hfree

/- Overflow of a magnitude that is rounded up. -/

/-- What the statements call overflow (R63). -/
def overflowOf (f : Fmt) (sp : FloatSpec) (sat neg : Bool) : Nat × Flags :=
  if sat then (Claims.signed f neg sp.maxMag, flSAT ||| flNX) else (Claims.signed f neg (sp.inf.getD 0), flOF ||| flNX)

theorem overflowed_up (hi : Ieee f sp) (hc : c.Up neg) : overflowed f sp c neg = overflowOf f sp c.sat neg := by
  have hmax := maxMag_lt_top hi
  unfold overflowed overflowOf overflowMag
  cases c.sat with
  | true => exact Prod.ext (withSign_eq hi neg hmax.le) rfl
  | false =>
    have haway : (c.mode = 0 || c.mode = 4 || c.mode = 5 || (c.mode = 2 && neg) || (c.mode = 3 && !neg)) = true := by
      obtain ⟨hm, hneg⟩ | ⟨hm, hneg⟩ := hc <;> simp [hm, hneg]
    simp only [Bool.false_eq_true, if_false, hi.inf, haway, if_true, Option.getD_some]
    exact Prod.ext (withSign_eq hi neg le_rfl) rfl

theorem overflowed_nearest (hi : Ieee f sp) (hc : c.mode = 0) : overflowed f sp c neg = overflowOf f sp c.sat neg := by
  have hmax := maxMag_lt_top hi
  unfold overflowed overflowOf overflowMag
  cases c.sat with
  | true => exact Prod.ext (withSign_eq hi neg hmax.le) rfl
  | false =>
    simp only [Bool.false_eq_true, if_false, hi.inf, hc, decide_true, Bool.true_or, if_true, Option.getD_some]
    exact Prod.ext (withSign_eq hi neg le_rfl) rfl

end Sys2Proof.Machine
end

