-- ==== Sys2Proof/Proofs/Brackets.lean ====
section
/-!
Results of approximations and rotations from a fraction between two values of the format (R62, R63, R65, R66, R376).
-/

namespace Sys2Proof.Machine

set_option Elab.async false

variable {f : Fmt} {sp : FloatSpec} {g n d : Nat} {c : Rounding} {neg sat ftz away : Bool} {Y : ℝ}

/- Brackets. -/

theorem largest_exponent (hi : Ieee f sp) : ((sp.maxMag >>> sp.m : Nat) : ℤ) - (sp.bias : ℤ) = sp.bias := by
  have hp := Nat.two_pow_pos sp.m
  have hmax := hi.maxMag
  have hdiv : sp.maxMag / 2 ^ sp.m = 2 * sp.bias := by
    refine Nat.div_eq_of_lt_le ?_ ?_
    · have : (2 * sp.bias + 1) * 2 ^ sp.m = 2 * sp.bias * 2 ^ sp.m + 2 ^ sp.m := by ring
      omega
    · omega
  rw [shiftRight_eq, hdiv]
  push_cast
  ring

/-- The rounding of `placeBracket`, away from zero or towards it. -/
def bracketRounding (sat ftz neg up : Bool) : Rounding :=
  { mode := if up then (if neg then 2 else 3) else 1, sat := sat, ftz := ftz }

theorem bracketRounding_up : (bracketRounding sat ftz neg true).Up neg := by
  cases neg
  · exact .inr ⟨rfl, rfl⟩
  · exact .inl ⟨rfl, rfl⟩

theorem bracketRounding_down : (bracketRounding sat ftz neg false).Down := rfl

theorem placeBracket_eq (hi : Ieee f sp) (hn : 0 < n) (hd : 0 < d) (up : Bool)
    (hup : up = (away || decide (sp.val sp.top ≤ (n : ℝ) / d))) : placeBracket sp f.width sat ftz neg away n d =
      ((placeMag sp f.width (bracketRounding sat ftz neg up) neg n d).1,
        (placeMag sp f.width (bracketRounding sat ftz neg up) neg n d).2 ||| flNX) := by
  have hlog : decide (sp.val sp.top ≤ (n : ℝ) / d) = decide ((sp.bias : ℤ) < log2Frac n d) := by
    rw [decide_eq_decide, val_top, ← le_log2Frac_iff hn hd]
    omega
  rw [hup, hlog, placeBracket, largest_exponent hi]
  rfl

/-- The magnitude that a bracket takes. -/
def bracketMag (sp : FloatSpec) (away : Bool) (g : Nat) : Nat := if away = true ∨ sp.top ≤ g then g + 1 else g

theorem bracketMag_eq (sp : FloatSpec) (away : Bool) (g : Nat) : bracketMag sp away g = g ∨ bracketMag sp away g = g + 1 :=
  (ite_eq_or_eq ..).symm

theorem inexactFlags_or (sp : FloatSpec) (g : Nat) : inexactFlags sp g ||| flNX = inexactFlags sp g := by
  rw [inexactFlags]
  split <;> decide

theorem overflowOf_or (f : Fmt) (sp : FloatSpec) (sat neg : Bool) :
    ((overflowOf f sp sat neg).1, (overflowOf f sp sat neg).2 ||| flNX) = overflowOf f sp sat neg := by
  have hsat : (flSAT ||| flNX) ||| flNX = flSAT ||| flNX := by decide
  have hof : (flOF ||| flNX) ||| flNX = flOF ||| flNX := by decide
  rw [overflowOf]
  cases sat
  · exact Prod.ext rfl hof
  · exact Prod.ext rfl hsat

/-- What a bracket gives for a fraction between the magnitude g and the next one. -/
def bracketed (f : Fmt) (sp : FloatSpec) (sat neg away : Bool) (g : Nat) : Nat × Flags :=
  if sp.maxMag < bracketMag sp away g then overflowOf f sp sat neg
  else (Claims.signed f neg (bracketMag sp away g), inexactFlags sp g)

theorem placeBracket_between (hi : Ieee f sp) (hn : 0 < n) (hd : 0 < d) (hy : Between sp ((n : ℝ) / d) g)
    (hf : ftz = false ∨ (2 : ℝ) ^ (1 - (sp.bias : ℤ)) ≤ (n : ℝ) / d) :
    placeBracket sp f.width sat ftz neg away n d = bracketed f sp sat neg away g := by
  have htop : sp.val sp.top ≤ (n : ℝ) / d ↔ sp.top ≤ g :=
    ⟨fun h => (hy.lt_iff _).mp (h.lt_of_ne (hy.ne _)), fun h => ((hy.lt_iff _).mpr h).le⟩
  rw [bracketed, placeBracket_eq hi hn hd _ rfl]
  by_cases hup : away = true ∨ sp.top ≤ g
  · have hb : (away || decide (sp.val sp.top ≤ (n : ℝ) / d)) = true := by simpa [htop] using hup
    have hplace := placeMag_between (c := bracketRounding sat ftz neg true) hi hn hd hy hf (.inr ⟨bracketRounding_up, rfl⟩)
    rw [hb, hplace, bracketMag, if_pos hup, overflowed_up hi bracketRounding_up]
    split
    · exact overflowOf_or ..
    · rw [inexactFlags_or]
  · have hb : (away || decide (sp.val sp.top ≤ (n : ℝ) / d)) = false := by simpa [htop] using hup
    have hplace := placeMag_between (neg := neg) (c := bracketRounding sat ftz neg false) hi hn hd hy hf (.inl ⟨bracketRounding_down, rfl⟩)
    have hmax : ¬ sp.maxMag < g := by
      rw [← top_le_iff hi]
      exact fun h => hup (.inr h)
    rw [hb, hplace, bracketMag, if_neg hup, if_neg hmax, if_neg hmax, inexactFlags_or]

/-- A value past the largest finite one overflows (R63). -/
theorem placeBracket_overflows (hi : Ieee f sp) (hn : 0 < n) (hd : 0 < d) (hy : (n : ℝ) / d = sp.val g)
    (hg : sp.maxMag < g) : placeBracket sp f.width sat false neg away n d = overflowOf f sp sat neg := by
  have htop : sp.val sp.top ≤ (n : ℝ) / d := by
    rw [hy]
    exact (val_strictMono sp).monotone ((top_le_iff hi).mpr hg)
  have hplace := placeMag_exact (c := bracketRounding sat false neg true) (neg := neg) hi hn hd hy (.inl rfl)
  rw [if_pos hg, overflowed_up hi bracketRounding_up] at hplace
  rw [placeBracket_eq hi hn hd true (by simp [htop]), hplace]
  exact overflowOf_or ..

/-- A bracket is what the rules of R62 and R63 allow. -/
theorem bracketResult_bracketed (hi : Ieee f sp) (hY : Between sp Y g) :
    Claims.BracketResult f sp sat neg Y (bracketed f sp sat neg away g) := by
  have hmin := min_normal_le_maxMag hi
  have hmax := maxMag_lt_top hi
  have hmag := bracketMag_eq sp away g
  have hholds (hle : bracketMag sp away g ≤ sp.maxMag) :
      ∃ q, Claims.Holds f (Claims.signed f neg (bracketMag sp away g)) neg q ∧ Claims.Brackets f Y q :=
    ⟨_, holds_signed hi neg hle, hY.brackets hi hmag⟩
  unfold Claims.BracketResult bracketed
  dsimp only
  by_cases hsub : g < 2 ^ sp.m
  · have hle : bracketMag sp away g ≤ sp.maxMag := by omega
    rw [if_pos ((min_normal_le_iff sp hY).mpr hsub), if_neg (not_lt.mpr hle)]
    exact ⟨if_pos hsub, hholds hle⟩
  · rw [if_neg fun h => hsub ((min_normal_le_iff sp hY).mp h), ← val_maxMag hi, ← val_top]
    by_cases hover : sp.maxMag < bracketMag sp away g
    · rw [if_pos hover]
      exact .inr ⟨rfl, (hY.lt_iff _).mpr (by omega)⟩
    · rw [if_neg hover]
      have hlt : g < sp.top := by
        by_contra h
        rw [bracketMag, if_pos (.inr (not_lt.mp h))] at hover
        omega
      exact .inl ⟨if_neg hsub, (hY.lt_val_iff _).mpr hlt, hholds (not_lt.mp hover)⟩

theorem bracketResult_overflow (hi : Ieee f sp) (hg : sp.maxMag < g) :
    Claims.BracketResult f sp sat neg (sp.val g) (overflowOf f sp sat neg) := by
  have hmin := min_normal_le_maxMag hi
  have hlt := (val_strictMono sp) hg
  unfold Claims.BracketResult
  dsimp only
  rw [← val_min_normal, ← val_maxMag hi, if_neg (not_lt.mpr ((val_strictMono sp).monotone (by omega)))]
  exact .inr ⟨rfl, hlt⟩

/- Approximations outside f64. -/

theorem signed_mod (hi : Ieee f sp) (hg : g ≤ sp.maxMag) : Claims.signed f neg g % 1 <<< (f.width - 1) = g :=
  (signed_eq hi neg hg).2

variable {c : Descr} {op : Nat} {operands : List Nat}

section
variable (hi : Ieee f sp) (hf : f ≠ .f64) (hn : 0 < n) (hd : 0 < d) (hy : Between sp ((n : ℝ) / d) g)
include hi hf hn hd hy

/-- In the normal range an approximation is a bracket (R65). -/
theorem placeApprox_normal (hg : ¬ g < 2 ^ sp.m) :
    placeApprox op f sp c neg operands n d = bracketed f sp c.sat neg (awayFor op f operands) g := by
  have hge : (2 : ℝ) ^ (1 - (sp.bias : ℤ)) ≤ (n : ℝ) / d := by
    rw [← not_lt, min_normal_le_iff sp hy]; exact hg
  have hlog : ¬ log2Frac n d < 1 - (sp.bias : ℤ) := by rw [log2Frac_lt_iff hn hd, not_lt]; exact hge
  rw [placeApprox, if_neg hf]
  dsimp only
  rw [if_neg (by simp [hlog]), placeBracket_between hi hn hd hy (.inr hge)]

/-- A result that is subnormal stays subnormal or becomes 0 (R66). -/
theorem placeApprox_subnormal (hg : g < 2 ^ sp.m) (hftz : c.ftz = false) : ∃ g', (g' = g ∨ g' = g + 1) ∧ g' < 2 ^ sp.m ∧
    placeApprox op f sp c neg operands n d = (Claims.signed f neg g', flUF ||| flNX) := by
  have hmin := min_normal_le_maxMag hi
  have hmax := maxMag_lt_top hi
  have hlog : log2Frac n d < 1 - (sp.bias : ℤ) := by
    rw [log2Frac_lt_iff hn hd]; exact (min_normal_le_iff sp hy).mpr hg
  have hbr (away : Bool) : placeBracket sp f.width c.sat c.ftz neg away n d =
      (Claims.signed f neg (bracketMag sp away g), flUF ||| flNX) := by
    have hle : ¬ sp.maxMag < bracketMag sp away g := by have := bracketMag_eq sp away g; omega
    rw [placeBracket_between hi hn hd hy (.inl hftz), bracketed, if_neg hle, inexactFlags, if_pos hg]
  have hmod (away : Bool) : Claims.signed f neg (bracketMag sp away g) % 1 <<< (f.width - 1) = bracketMag sp away g :=
    signed_mod hi (by have := bracketMag_eq sp away g; omega)
  have hlow : bracketMag sp false g = g := if_neg (by simp; omega)
  rw [placeApprox, if_neg hf]
  dsimp only
  rw [hbr, hbr, hmod, one_shiftLeft, hlow]
  by_cases hnormal : bracketMag sp (awayFor op f operands) g = 2 ^ sp.m
  · exact ⟨g, .inl rfl, hg, if_pos (by simp [hlog, hnormal])⟩
  · refine ⟨_, bracketMag_eq .., ?_, if_neg (by simp [hnormal])⟩
    have := bracketMag_eq sp (awayFor op f operands) g
    omega

/-- A result that is subnormal is flushed where ftz holds (R62, R66). -/
theorem placeApprox_flushed (hg : g < 2 ^ sp.m) (hftz : c.ftz = true) :
    placeApprox op f sp c neg operands n d = (Claims.signed f neg 0, flUF ||| flNX) := by
  have hmin := min_normal_le_maxMag hi
  have hmax := maxMag_lt_top hi
  have hlt := (min_normal_le_iff sp hy).mpr hg
  have hlog : log2Frac n d < 1 - (sp.bias : ℤ) := (log2Frac_lt_iff hn hd _).mpr hlt
  have htop : ¬ sp.val sp.top ≤ (n : ℝ) / d := by rw [not_le, hy.lt_val_iff]; omega
  have hflags : (flUF ||| flNX) ||| flNX = flUF ||| flNX := by decide
  have hzero {up : Bool} (ht : tiny sp (bracketRounding c.sat c.ftz neg up) neg n d = true) (away : Bool)
      (hup : up = (away || decide (sp.val sp.top ≤ (n : ℝ) / d))) :
      placeBracket sp f.width c.sat c.ftz neg away n d = (Claims.signed f neg 0, flUF ||| flNX) := by
    rw [placeBracket_eq hi hn hd up hup, placeMag_flushed hi hftz ht, hflags]
  have hdown : placeBracket sp f.width c.sat c.ftz neg false n d = (Claims.signed f neg 0, flUF ||| flNX) :=
    hzero (tiny_of_down hd bracketRounding_down hlt) false (by simp [htop])
  have h0 : Claims.signed f neg 0 % 1 <<< (f.width - 1) = 0 := signed_mod hi (Nat.zero_le _)
  have hp := Nat.two_pow_pos sp.m
  rw [placeApprox, if_neg hf]
  dsimp only
  rw [hdown]
  cases awayFor op f operands with
  | false => rw [hdown]; exact ite_self _
  | true =>
    cases ht : tiny sp (bracketRounding c.sat c.ftz neg true) neg n d with
    | true => rw [hzero ht true (by simp)]; exact ite_self _
    | false =>
      have hescape := placeMag_escapes hi hn hd hy hg bracketRounding_up ht
      refine if_pos ?_
      rw [placeBracket_eq hi hn hd true (by simp), hescape]
      have hmod : Claims.signed f neg (2 ^ sp.m) % 1 <<< (f.width - 1) = 2 ^ sp.m := signed_mod hi hmin
      rw [hmod, one_shiftLeft]
      simp [hlog]

end

/-- An approximation outside f64 of an exact magnitude is what R65 and R66 allow, when it is taken around a fraction
between the same two values of the format. -/
theorem approxResult_placeApprox {o : Claims.Approx} (hi : Ieee f sp) (hf : f ≠ .f64) (hn : 0 < n) (hd : 0 < d)
    (hy : Between sp ((n : ℝ) / d) g) (hY : Y < 2 ^ (1 - (sp.bias : ℤ)) ↔ g < 2 ^ sp.m) (hpow : ∀ e : ℤ, Y ≠ 2 ^ e)
    {y : ℝ} (hnear : Claims.Near o Y y)
    (hyb : Between sp y g) (hrcp : ¬ (o = .rcp ∧ Y < 2 ^ (1 - (sp.bias : ℤ)))) :
    Claims.ApproxResult o f sp c.sat c.ftz neg Y (placeApprox op f sp c neg operands n d) := by
  have hmin := min_normal_le_maxMag hi
  unfold Claims.ApproxResult
  dsimp only
  rw [if_neg hrcp]
  refine ⟨fun e he => (hpow e he).elim, fun _ => ?_⟩
  by_cases hg : g < 2 ^ sp.m
  · rw [if_pos (hY.mpr hg)]
    cases hftz : c.ftz with
    | true =>
      rw [placeApprox_flushed hi hf hn hd hy hg hftz]
      exact ⟨rfl, 0, by simpa using holds_signed hi neg (Nat.zero_le _), by positivity, fun _ => rfl, fun h => (nomatch h)⟩
    | false =>
      obtain ⟨g', hg', hlt, hres⟩ := placeApprox_subnormal hi hf hn hd hy hg hftz
      rw [hres]
      have hval : sp.val g' < 2 ^ (1 - (sp.bias : ℤ)) := by
        rw [← val_min_normal]
        exact val_strictMono sp hlt
      exact ⟨rfl, sp.val g', holds_signed hi neg (by omega), hval, fun h => (nomatch h),
        fun _ _ => ⟨y, hnear, hyb.brackets hi hg'⟩⟩
  · rw [if_neg fun h => hg (hY.mp h), if_neg hf, placeApprox_normal hi hf hn hd hy hg]
    have hres := bracketResult_bracketed (sat := c.sat) (neg := neg) (away := awayFor op f operands) hi hyb
    unfold Claims.BracketResult at hres
    dsimp only at hres
    rw [if_neg fun h => hg ((min_normal_le_iff sp hyb).mp h)] at hres
    exact ⟨y, hnear, hres⟩

/-- An approximation outside f64 overflows where both magnitudes lie past every finite value. -/
theorem approxResult_overflows {o : Claims.Approx} (hi : Ieee f sp) (hf : f ≠ .f64) (hn : 0 < n) (hd : 0 < d)
    (hy : Between sp ((n : ℝ) / d) g) (hg : sp.top ≤ g) (hY : sp.val sp.top ≤ Y) (hpow : ∀ e : ℤ, Y ≠ 2 ^ e)
    (hnear : Claims.Near o Y Y) :
    Claims.ApproxResult o f sp c.sat c.ftz neg Y (placeApprox op f sp c neg operands n d) := by
  have hmin := min_normal_le_maxMag hi
  have hmax := maxMag_lt_top hi
  have hlarge : sp.val sp.maxMag < Y := (val_strictMono sp hmax).trans_le hY
  have hnormal : ¬ Y < 2 ^ (1 - (sp.bias : ℤ)) := by
    rw [← val_min_normal, not_lt]
    exact ((val_strictMono sp).monotone hmin).trans hlarge.le
  have hover : bracketed f sp c.sat neg (awayFor op f operands) g = overflowOf f sp c.sat neg := by
    rw [bracketed, bracketMag, if_pos (Or.inr hg), if_pos (by omega)]
  unfold Claims.ApproxResult
  dsimp only
  rw [if_neg fun h => hnormal h.2, if_neg hnormal, if_neg hf, placeApprox_normal hi hf hn hd hy (by omega), hover, ← val_maxMag hi]
  exact ⟨fun e he => (hpow e he).elim, fun _ => ⟨Y, hnear, .inr ⟨rfl, hlarge⟩⟩⟩

/- Powers of two. -/

/-- The magnitude of 2^e, where the format holds it. -/
theorem exists_mag_pow (hi : Ieee f sp) {e : ℤ} (hlow : sp.qmin ≤ e) (hhigh : e ≤ sp.bias) :
    ∃ g ≤ sp.maxMag, sp.val g = 2 ^ e := by
  have hmax := hi.maxMag
  have hmin := min_normal_le_maxMag hi
  by_cases he : 1 - (sp.bias : ℤ) ≤ e
  · obtain ⟨k, hk⟩ := Int.eq_ofNat_of_zero_le (show 0 ≤ e + sp.bias by omega)
    have hk1 : 1 ≤ k := by omega
    refine ⟨k * 2 ^ sp.m, ?_, by rw [val_pow sp hk1]; congr 1; omega⟩
    have hle : k * 2 ^ sp.m ≤ 2 * sp.bias * 2 ^ sp.m := Nat.mul_le_mul_right _ (by omega)
    have hexpand : (2 * sp.bias + 1) * 2 ^ sp.m = 2 * sp.bias * 2 ^ sp.m + 2 ^ sp.m := by ring
    have := Nat.two_pow_pos sp.m
    omega
  · obtain ⟨i, hi'⟩ := Int.eq_ofNat_of_zero_le (show 0 ≤ e - sp.qmin by omega)
    have him : i ≤ sp.m := by rw [FloatSpec.qmin] at hi'; omega
    refine ⟨2 ^ i, (Nat.pow_le_pow_right (by omega) him).trans hmin, by rw [val_subnormal_pow sp him]; congr 1; omega⟩

/-- 2^e as the rounding of `placePow` takes it. -/
theorem placePow_eq (hi : Ieee f sp) (e : ℤ) : placePow f sp c neg e =
    placeMag sp f.width (bracketRounding c.sat c.ftz neg (decide ((sp.bias : ℤ) < max (-3000) (min e 3000)))) neg
      (pow2 (max (-3000) (min e 3000))).1 (pow2 (max (-3000) (min e 3000))).2 := by
  rw [placePow, largest_exponent hi]
  rfl

/-- A power of two is placed exactly, or as R62 and R63 say where the format does not hold it. -/
theorem placePow_spec (hi : Ieee f sp) (e : ℤ) : placePow f sp c neg e =
    if (sp.bias : ℤ) < e then overflowOf f sp c.sat neg
    else if 1 - (sp.bias : ℤ) ≤ e ∨ (c.ftz = false ∧ sp.qmin ≤ e) then placePow f sp c neg e
    else (Claims.signed f neg 0, flUF ||| flNX) := by
  obtain ⟨hb1, hb⟩ := hi.bias
  obtain ⟨-, hm, -⟩ := hi.mantissa
  have hq : sp.qmin = 1 - (sp.bias : ℤ) - sp.m := rfl
  have hn := pow2_num_pos (max (-3000) (min e 3000))
  have hd := pow2_den_pos (max (-3000) (min e 3000))
  have hval := pow2_eq (max (-3000) (min e 3000))
  by_cases hover : (sp.bias : ℤ) < e
  · have hclamp : (sp.bias : ℤ) < max (-3000) (min e 3000) := by omega
    obtain ⟨k, hk⟩ := Int.eq_ofNat_of_zero_le (show 0 ≤ max (-3000) (min e 3000) + sp.bias by omega)
    have hmag : sp.maxMag < k * 2 ^ sp.m := by
      rw [← top_le_iff hi, FloatSpec.top]
      exact Nat.mul_le_mul_right _ (by omega)
    have hyk : ((pow2 (max (-3000) (min e 3000))).1 : ℝ) / (pow2 (max (-3000) (min e 3000))).2 = sp.val (k * 2 ^ sp.m) := by
      rw [hval, val_pow sp (by omega)]
      congr 1
      omega
    rw [if_pos hover, placePow_eq hi, decide_eq_true hclamp, placeMag_exact hi hn hd hyk (.inr ?_), if_pos hmag,
      overflowed_up hi bracketRounding_up]
    · rfl
    · rw [hval]
      exact zpow_le_zpow_right₀ one_le_two (by omega)
  · rw [if_neg hover]
    by_cases hin : 1 - (sp.bias : ℤ) ≤ e ∨ (c.ftz = false ∧ sp.qmin ≤ e)
    · rw [if_pos hin]
    · rw [if_neg hin, placePow_eq hi]
      have hsmall : max (-3000) (min e 3000) < 1 - (sp.bias : ℤ) := by omega
      rw [decide_eq_false (by omega)]
      have hlt : ((pow2 (max (-3000) (min e 3000))).1 : ℝ) / (pow2 (max (-3000) (min e 3000))).2 < 2 ^ (1 - (sp.bias : ℤ)) := by
        rw [hval]
        exact zpow_lt_zpow_right₀ one_lt_two hsmall
      cases hftz : c.ftz with
      | true => exact placeMag_flushed hi rfl (tiny_of_down hd bracketRounding_down hlt)
      | false =>
        have hbetween : Between sp (((pow2 (max (-3000) (min e 3000))).1 : ℝ) / (pow2 (max (-3000) (min e 3000))).2) 0 := by
          have h1 := val_subnormal_pow sp (i := 0) (Nat.zero_le _)
          rw [pow_zero, Nat.cast_zero, zero_add] at h1
          refine ⟨by rw [val_zero, hval]; positivity, ?_⟩
          rw [zero_add, h1, hval]
          have hbelow : ¬ sp.qmin ≤ e := fun h => hin (.inr ⟨hftz, h⟩)
          exact zpow_lt_zpow_right₀ one_lt_two (by omega)
        rw [placeMag_between (c := bracketRounding c.sat false neg false) hi hn hd hbetween (.inl rfl) (.inl ⟨bracketRounding_down, rfl⟩),
          if_neg (by omega), inexactFlags, if_pos (by positivity)]

/-- A power of two that the format holds is placed exactly. -/
theorem placePow_exact (hi : Ieee f sp) {e : ℤ} (hhigh : e ≤ sp.bias)
    (hin : 1 - (sp.bias : ℤ) ≤ e ∨ (c.ftz = false ∧ sp.qmin ≤ e)) : ∃ g ≤ sp.maxMag, sp.val g = 2 ^ e ∧
      placePow f sp c neg e = (Claims.signed f neg g, flNone) := by
  obtain ⟨hb1, hb⟩ := hi.bias
  obtain ⟨-, hm, -⟩ := hi.mantissa
  have hq : sp.qmin = 1 - (sp.bias : ℤ) - sp.m := rfl
  have hclamp : max (-3000) (min e 3000) = e := by omega
  obtain ⟨g, hg, hval⟩ := exists_mag_pow hi (e := e) (by omega) hhigh
  refine ⟨g, hg, hval, ?_⟩
  rw [placePow_eq hi, hclamp, placeMag_exact hi (pow2_num_pos e) (pow2_den_pos e) ((pow2_eq e).trans hval.symm) ?_,
    if_neg (not_lt.mpr hg)]
  rw [pow2_eq]
  exact hin.symm.imp (fun h => h.1) fun h => zpow_le_zpow_right₀ one_le_two h

/-- A power of two is what R65 and R66 allow. -/
theorem approxResult_placePow {o : Claims.Approx} (hi : Ieee f sp) {e : ℤ}
    (hrcp : ¬ (o = .rcp ∧ (2 : ℝ) ^ e < 2 ^ (1 - (sp.bias : ℤ)))) :
    Claims.ApproxResult o f sp c.sat c.ftz neg (2 ^ e) (placePow f sp c neg e) := by
  obtain ⟨hb1, -⟩ := hi.bias
  have hq : (1 - (sp.bias : ℤ)) - sp.m = sp.qmin := rfl
  have hlargest : sp.val sp.maxMag < 2 ^ e ↔ (sp.bias : ℤ) < e := by
    constructor
    · intro h
      by_contra hle
      obtain ⟨g, hg, hval⟩ := exists_mag_pow hi (e := sp.bias) (by rw [← hq]; omega) le_rfl
      have hmono := (val_strictMono sp).monotone hg
      have : (2 : ℝ) ^ e ≤ 2 ^ (sp.bias : ℤ) := zpow_le_zpow_right₀ one_le_two (not_lt.mp hle)
      linarith
    · intro h
      have htop := val_strictMono sp (maxMag_lt_top hi)
      rw [val_top] at htop
      exact htop.trans_le (zpow_le_zpow_right₀ one_le_two (by omega))
  unfold Claims.ApproxResult
  dsimp only
  rw [if_neg hrcp, ← val_maxMag hi, hq]
  refine ⟨fun k hk => ?_, fun h => (h e rfl).elim⟩
  obtain rfl := zpow_right_injective₀ zero_lt_two (by norm_num) hk
  by_cases hover : (sp.bias : ℤ) < e
  · rw [if_pos (hlargest.mpr hover), placePow_spec hi, if_pos hover]
    rfl
  · rw [if_neg (fun h => hover (hlargest.mp h))]
    by_cases hin : 1 - (sp.bias : ℤ) ≤ e ∨ (c.ftz = false ∧ sp.qmin ≤ e)
    · rw [if_pos hin]
      obtain ⟨g, hg, hval, hres⟩ := placePow_exact (neg := neg) hi (not_lt.mp hover) hin
      rw [hres, ← hval]
      exact ⟨holds_signed hi neg hg, rfl⟩
    · rw [if_neg hin, placePow_spec hi, if_neg hover, if_neg hin]

end Sys2Proof.Machine
end

