-- ==== Sys2Proof/Proofs/DoubleApproximations.lean ====
section
/-!
Approximations in f64 (R65, R66): a value within the bound, which the model's choice may move.
-/

namespace Sys2Proof.Machine

set_option Elab.async false

variable {sp : FloatSpec} {n d m : Nat} {neg sat ftz : Bool} {Y : ℝ} {j : ℤ}

/-- The encoding of f64. -/
theorem f64_spec (h : Ieee .f64 sp) : sp.m = 52 ∧ sp.bias = 1023 ∧ sp.qmin = -1074 := by
  have hs := h.spec
  simp only [Fmt.spec, Option.some.injEq] at hs
  subst hs
  decide

/-- m units of 2^q are a normal value of f64 within the bound of R65 of n / d. -/
structure Close (sp : FloatSpec) (n d m : Nat) (q : ℤ) : Prop where
  value : ∃ g, (m : ℝ) * 2 ^ q = sp.val g
  normal : (2 : ℝ) ^ (-1022 : ℤ) ≤ m * 2 ^ q
  near : |(m : ℝ) * 2 ^ q - n / d| * (2 ^ 50 + 1) < n / d

theorem Close.pos {q : ℤ} (h : Close sp n d m q) : 0 < m := by
  by_contra h0
  obtain rfl : m = 0 := by omega
  have := h.normal
  rw [Nat.cast_zero, zero_mul] at this
  exact absurd this (not_le.mpr (by positivity))

/-- j units of 2^e, of which there are 2^52 to 2^53, are a value of f64. -/
theorem exists_val_units (hi : Ieee .f64 sp) {j : Nat} {e : ℤ} (he : -1074 ≤ e) (hlow : 2 ^ 52 ≤ j) (hhigh : j ≤ 2 ^ 53) :
    ∃ g, (j : ℝ) * 2 ^ e = sp.val g := by
  obtain ⟨hm, -, hq⟩ := f64_spec hi
  obtain ⟨k, hk⟩ := Int.eq_ofNat_of_zero_le (show 0 ≤ e + 1074 by omega)
  refine ⟨k * 2 ^ sp.m + j, ?_⟩
  rw [val_grid sp (.inr (by rw [hm]; exact hlow)) (by rw [hm]; exact hhigh), hq]
  congr 2
  omega

section
variable (hi : Ieee .f64 sp) (hn : 0 < n) (hd : 0 < d) (htop : -1022 ≤ log2Frac n d)
include hi hn hd htop

/-- The nearest value is close. -/
theorem close_near : Close sp n d (2 * nearestUnits n d (log2Frac n d - 52)) (log2Frac n d - 53) := by
  obtain ⟨hlow, hhigh⟩ := log2Frac_spec hn hd
  obtain ⟨hup, hdown, -⟩ := roundAt_near (n := n) (d := d) (c := {}) (neg := false) (q := log2Frac n d - 52) hd
  rw [nearestUnits]
  generalize (roundAt {} false n d (log2Frac n d - 52)).1 = k at hup hdown
  generalize log2Frac n d = t at htop hlow hhigh hup hdown
  have hu : (0 : ℝ) < 2 ^ (t - 52) := by positivity
  have ht : (2 : ℝ) ^ t = 2 ^ 52 * 2 ^ (t - 52) := by
    rw [← zpow_natCast, ← zpow_add₀ two_ne_zero]
    congr 1
    push_cast
    ring
  have ht1 : (2 : ℝ) ^ (t + 1) = 2 ^ 53 * 2 ^ (t - 52) := by
    rw [zpow_add_one₀ two_ne_zero, ht]
    ring
  have hval : ((2 * k : Nat) : ℝ) * 2 ^ (t - 53) = k * 2 ^ (t - 52) := by
    rw [show t - 52 = t - 53 + 1 by ring, zpow_add_one₀ two_ne_zero]
    push_cast
    ring
  rw [ht] at hlow
  rw [ht1] at hhigh
  have hk1 : 2 ^ 52 ≤ k := by
    have : (2 : ℝ) ^ 52 < k + 1 := lt_of_mul_lt_mul_right (hlow.trans_lt hup) hu.le
    have : 2 ^ 52 < k + 1 := by exact_mod_cast this
    omega
  have hk2 : k ≤ 2 ^ 53 := by
    have : (k : ℝ) - 1 < 2 ^ 53 := lt_of_mul_lt_mul_right (hdown.trans hhigh) hu.le
    have : (k : ℝ) < 2 ^ 53 + 1 := by linarith
    have : k < 2 ^ 53 + 1 := by exact_mod_cast this
    omega
  refine ⟨?_, ?_, ?_⟩
  · rw [hval]
    exact exists_val_units hi (by omega) hk1 hk2
  · rw [hval]
    have hk : (2 : ℝ) ^ 52 ≤ k := by exact_mod_cast hk1
    calc (2 : ℝ) ^ (-1022 : ℤ) ≤ 2 ^ t := zpow_le_zpow_right₀ one_le_two htop
      _ ≤ _ := by rw [ht]; gcongr
  · rw [hval]
    have habs : |(k : ℝ) * 2 ^ (t - 52) - n / d| ≤ 2 ^ (t - 52) := by
      rw [abs_le]
      constructor <;> linarith
    nlinarith

/-- What the model takes of its choice. -/
def goodChoice (n d : Nat) (c : ℤ) : Bool :=
  let p := pow2 (log2Frac n d - 53)
  0 < c && (let m := c.toNat
    let low := m % (if m < 1 <<< 53 then 1 else if m < 1 <<< 54 then 2 else 4)
    let diff := ((m * p.1 * d : Nat) : Int) - (n * p.2 : Nat)
    low == 0 && (decide (-1022 < log2Frac n d) || decide (1 <<< 53 ≤ m)) && decide (diff.natAbs * (1 <<< 50 + 1) < n * p.2))

theorem close_good {c : ℤ} (hc : goodChoice n d c = true) : Close sp n d c.toNat (log2Frac n d - 53) := by
  obtain ⟨hlow, hhigh⟩ := log2Frac_spec hn hd
  simp only [goodChoice, Bool.and_eq_true, Bool.or_eq_true, decide_eq_true_eq, beq_iff_eq] at hc
  obtain ⟨-, ⟨hmod, hbinade⟩, hdiff⟩ := hc
  generalize c.toNat = m at hmod hbinade hdiff ⊢
  have hp2 : (0 : ℝ) < (pow2 (log2Frac n d - 53)).2 := by exact_mod_cast pow2_den_pos _
  have hd' : (0 : ℝ) < d := by exact_mod_cast hd
  have hnear : |(m : ℝ) * 2 ^ (log2Frac n d - 53) - n / d| * (2 ^ 50 + 1) < n / d := by
    have hcast := (Nat.cast_lt (α := ℝ)).mpr hdiff
    rw [Nat.cast_mul, Nat.cast_natAbs, Int.cast_abs] at hcast
    push_cast at hcast
    rw [pow2_num] at hcast
    have hfactor : (m : ℝ) * (2 ^ (log2Frac n d - 53) * (pow2 (log2Frac n d - 53)).2) * d - n * (pow2 (log2Frac n d - 53)).2 =
        (m * 2 ^ (log2Frac n d - 53) - n / d) * (d * (pow2 (log2Frac n d - 53)).2) := by
      field_simp
    rw [hfactor, abs_mul, abs_of_pos (mul_pos hd' hp2)] at hcast
    have hright : (n : ℝ) * (pow2 (log2Frac n d - 53)).2 = n / d * (d * (pow2 (log2Frac n d - 53)).2) := by
      field_simp
    rw [hright, mul_right_comm] at hcast
    have := lt_of_mul_lt_mul_right hcast (mul_pos hd' hp2).le
    norm_num [Nat.shiftLeft_eq] at this ⊢
    exact this
  generalize log2Frac n d = t at htop hlow hhigh hbinade hnear ⊢
  clear hdiff hp2
  have hu : (0 : ℝ) < 2 ^ (t - 53) := by positivity
  have ht : (2 : ℝ) ^ t = 2 ^ 53 * 2 ^ (t - 53) := by
    rw [← zpow_natCast, ← zpow_add₀ two_ne_zero]
    congr 1
    push_cast
    ring
  have ht1 : (2 : ℝ) ^ (t + 1) = 2 ^ 54 * 2 ^ (t - 53) := by
    rw [zpow_add_one₀ two_ne_zero, ht]
    ring
  rw [ht] at hlow
  rw [ht1] at hhigh
  have habs : |(m : ℝ) * 2 ^ (t - 53) - n / d| < 2 ^ (t - 53) * 2 ^ 4 := by nlinarith
  rw [abs_lt] at habs
  have hm1 : 2 ^ 53 - 2 ^ 4 ≤ m := by
    have : (2 ^ 53 - 2 ^ 4 : ℝ) < m := lt_of_mul_lt_mul_right (by linarith) hu.le
    have : ((2 ^ 53 - 2 ^ 4 : Nat) : ℝ) < m := by norm_num at this ⊢; exact this
    have : 2 ^ 53 - 2 ^ 4 < m := by exact_mod_cast this
    omega
  have hm2 : m < 2 ^ 54 + 2 ^ 4 := by
    have : (m : ℝ) < 2 ^ 54 + 2 ^ 4 := lt_of_mul_lt_mul_right (by linarith) hu.le
    exact_mod_cast this
  rw [one_shiftLeft, one_shiftLeft] at hmod
  rw [one_shiftLeft] at hbinade
  have hhalf (e : ℤ) : (2 : ℝ) ^ (e + 1) = 2 ^ e * 2 := zpow_add_one₀ two_ne_zero e
  by_cases hsmall : m < 2 ^ 53
  · have hge : -1022 < t := hbinade.resolve_right (by omega)
    refine ⟨exists_val_units hi (by omega) (by omega) hsmall.le, ?_, hnear⟩
    have hk : (2 : ℝ) ^ 52 ≤ m := by exact_mod_cast (show 2 ^ 52 ≤ m by omega)
    have hle : (2 : ℝ) ^ (-1022 + 1 : ℤ) ≤ 2 ^ t := zpow_le_zpow_right₀ one_le_two (by omega)
    rw [hhalf, ht] at hle
    nlinarith
  · have hnormal : (2 : ℝ) ^ (-1022 : ℤ) ≤ m * 2 ^ (t - 53) := by
      have hk : (2 : ℝ) ^ 53 ≤ m := by exact_mod_cast (show 2 ^ 53 ≤ m by omega)
      calc (2 : ℝ) ^ (-1022 : ℤ) ≤ 2 ^ t := zpow_le_zpow_right₀ one_le_two htop
        _ ≤ _ := by rw [ht]; gcongr
    rw [if_neg hsmall] at hmod
    by_cases hmid : m < 2 ^ 54
    · rw [if_pos hmid] at hmod
      obtain ⟨k, rfl⟩ : ∃ k, m = 2 * k := ⟨m / 2, by omega⟩
      refine ⟨?_, hnormal, hnear⟩
      obtain ⟨g, hg⟩ := exists_val_units hi (j := k) (e := t - 53 + 1) (by omega) (by omega) (by omega)
      rw [hhalf] at hg
      exact ⟨g, by rw [← hg]; push_cast; ring⟩
    · rw [if_neg hmid] at hmod
      obtain ⟨k, rfl⟩ : ∃ k, m = 4 * k := ⟨m / 4, by omega⟩
      refine ⟨?_, hnormal, hnear⟩
      obtain ⟨g, hg⟩ := exists_val_units hi (j := k) (e := t - 53 + 1 + 1) (by omega) (by omega) (by omega)
      rw [hhalf, hhalf] at hg
      exact ⟨g, by rw [← hg]; push_cast; ring⟩

end

/-- An approximation in f64 as the model places it. -/
theorem placeApprox64_normal (hi : Ieee .f64 sp) (hn : 0 < n) (hd : 0 < d) (htop : -1022 ≤ log2Frac n d) :
    ∃ m, Close sp n d m (log2Frac n d - 53) ∧ placeApprox64 sp sat ftz neg j n d =
      let p := pow2 (log2Frac n d - 53)
      let r := placeMag sp Fmt.f64.width { mode := 0, sat := sat, ftz := ftz } neg (m * p.1) p.2
      (r.1, r.2 ||| flNX) := by
  let c : ℤ := ((2 * nearestUnits n d (log2Frac n d - 52) : Nat) : ℤ) + j
  refine ⟨if goodChoice n d c then c.toNat else 2 * nearestUnits n d (log2Frac n d - 52), ?_, ?_⟩
  · split
    next h => exact close_good hi hn hd htop h
    next => exact close_near hi hn hd htop
  · rw [placeApprox64, if_neg (not_lt.mpr htop)]
    rfl

theorem placeApprox64_subnormal (hi : Ieee .f64 sp) (htop : log2Frac n d < -1022) : ∃ g < 2 ^ 52,
    (ftz = true → g = 0) ∧ placeApprox64 sp sat ftz neg j n d = (Claims.signed .f64 neg g, flUF ||| flNX) := by
  let c : ℤ := ((nearestUnits n d (-1074) : Nat) : ℤ) + j
  let g := if 0 ≤ c ∧ c < (1 <<< 52 : Nat) then c.toNat else min (nearestUnits n d (-1074)) (1 <<< 52 - 1)
  have hg : g < 2 ^ 52 := by
    have h52 : 1 <<< 52 = 2 ^ 52 := one_shiftLeft 52
    simp only [g]
    split <;> omega
  obtain ⟨hm, -, -⟩ := f64_spec hi
  have hmin := min_normal_le_maxMag hi
  have hmax := maxMag_lt_top hi
  rw [hm] at hmin
  have hres : placeApprox64 sp sat ftz neg j n d = (withSign sp 64 neg (if ftz then 0 else g), flUF ||| flNX) := by
    rw [placeApprox64, if_pos htop]
  refine ⟨if ftz then 0 else g, ?_, fun h => if_pos h, ?_⟩
  · split <;> omega
  · rw [hres]
    refine Prod.ext (withSign_eq hi neg ?_) rfl
    split <;> omega

/-- An approximation in f64 of an exact magnitude is what R65 and R66 allow, when it is taken around a fraction within
2^-200 of it, or both lie far past every finite value. -/
theorem approxResult_placeApprox64 {o : Claims.Approx} (hi : Ieee .f64 sp) (hn : 0 < n) (hd : 0 < d) (hY : 0 < Y)
    (hnear : (2 : ℝ) ^ (-1022 : ℤ) ≤ Y →
      |(n : ℝ) / d - Y| ≤ Y / 2 ^ 200 ∨ ((2 : ℝ) ^ (1025 : ℤ) ≤ (n : ℝ) / d ∧ (2 : ℝ) ^ (1025 : ℤ) ≤ Y))
    (hmin : (n : ℝ) / d < 2 ^ (-1022 : ℤ) ↔ Y < 2 ^ (-1022 : ℤ))
    (hpow : ∀ e : ℤ, Y ≠ 2 ^ e) (hrcp : ¬ (o = .rcp ∧ Y < 2 ^ (1 - (sp.bias : ℤ)))) :
    Claims.ApproxResult o .f64 sp sat ftz neg Y (placeApprox64 sp sat ftz neg j n d) := by
  obtain ⟨hm, hb, -⟩ := f64_spec hi
  have hemin : 1 - (sp.bias : ℤ) = -1022 := by rw [hb]; rfl
  unfold Claims.ApproxResult
  dsimp only
  rw [if_neg hrcp, hemin]
  refine ⟨fun e he => (hpow e he).elim, fun _ => ?_⟩
  have hle := min_normal_le_maxMag hi
  rw [hm] at hle
  by_cases hsub : Y < 2 ^ (-1022 : ℤ)
  · obtain ⟨g, hg, hftz, hres⟩ := placeApprox64_subnormal (sat := sat) (ftz := ftz) (neg := neg) (j := j) hi
      ((log2Frac_lt_iff hn hd _).mpr (hmin.mpr hsub))
    rw [if_pos hsub, hres]
    refine ⟨rfl, sp.val g, holds_signed hi neg (by omega), ?_, fun h => by rw [hftz h, val_zero], fun _ h => (h rfl).elim⟩
    rw [← hemin, ← val_min_normal, hm]
    exact val_strictMono sp hg
  · have htop : -1022 ≤ log2Frac n d := by
      rw [le_log2Frac_iff hn hd, ← not_lt, hmin]
      exact hsub
    obtain ⟨m, hclose, hres⟩ := placeApprox64_normal (sat := sat) (ftz := ftz) (neg := neg) (j := j) hi hn hd htop
    obtain ⟨g, hg⟩ := hclose.value
    have hfrac : ((m * (pow2 (log2Frac n d - 53)).1 : Nat) : ℝ) / (pow2 (log2Frac n d - 53)).2 = sp.val g := by
      rw [scale_num_real, hg]
    have hplace := placeMag_exact (c := { mode := 0, sat := sat, ftz := ftz }) (neg := neg) hi
      (Nat.mul_pos hclose.pos (pow2_num_pos _)) (pow2_den_pos _) hfrac
      (.inr (by rw [scale_num_real, hemin]; exact hclose.normal))
    have hclose1 := hclose.near
    rw [hg, ← lt_div_iff₀ (by norm_num), abs_lt] at hclose1
    obtain ⟨h2, h3⟩ := hclose1
    rw [if_neg hsub, if_pos rfl, hres]
    dsimp only
    rw [hplace, ← val_maxMag hi]
    obtain hnear | ⟨hbig, hYbig⟩ := hnear (not_lt.mp hsub)
    · have hbound : |sp.val g - Y| < Y / 2 ^ 50 := by
        rw [abs_le] at hnear
        obtain ⟨hn1, hn2⟩ := hnear
        rw [abs_lt]
        norm_num at hn1 hn2 h2 h3 ⊢
        constructor <;> linarith
      by_cases hover : sp.maxMag < g
      · rw [if_pos hover, overflowed_nearest hi rfl, overflowOf_or]
        refine .inr ⟨rfl, ?_⟩
        have hlt := val_strictMono sp hover
        rw [abs_lt] at hbound
        linarith
      · rw [if_neg hover]
        exact .inl ⟨by simp [flNone], sp.val g, holds_signed hi neg (not_lt.mp hover), hbound⟩
    · have htopval : sp.val sp.top = 2 ^ (1024 : ℤ) := by rw [val_top, hb]; rfl
      have hdouble : (2 : ℝ) ^ (1025 : ℤ) = 2 ^ (1024 : ℤ) * 2 := zpow_add_one₀ two_ne_zero 1024
      have hmax := val_strictMono sp (maxMag_lt_top hi)
      have hpos : (0 : ℝ) < 2 ^ (1024 : ℤ) := by positivity
      rw [hdouble] at hbig hYbig
      rw [htopval] at hmax
      generalize (2 : ℝ) ^ (1024 : ℤ) = B at hbig hYbig hmax hpos
      have hover : sp.maxMag < g := by
        rw [← (val_strictMono sp).lt_iff_lt]
        norm_num at h2
        linarith only [h2, hbig, hmax, hpos]
      rw [if_pos hover, overflowed_nearest hi rfl, overflowOf_or]
      refine .inr ⟨rfl, ?_⟩
      have hextra : 0 ≤ Y / 2 ^ 50 := by positivity
      linarith only [hextra, hYbig, hmax, hpos]

end Sys2Proof.Machine
end

