-- ==== Sys2Proof/Proofs/SquareRoots.lean ====
section
/-!
The integer square root by Newton's steps (R65): each step squares the relative error, so that the fuel suffices.
-/

namespace Sys2Proof.Machine

set_option Elab.async false

variable {n x : Nat}

/-- A step from x ends at the root, or goes on to a number no smaller than it whose error the square of the last one
bounds. -/
theorem isqrtFrom_step (hs : 0 < Nat.sqrt n) (hx : Nat.sqrt n ≤ x) (fuel : Nat) : ∃ y, Nat.sqrt n ≤ y ∧
    2 * Nat.sqrt n * (y - Nat.sqrt n) ≤ (x - Nat.sqrt n) ^ 2 + 2 * Nat.sqrt n ∧ (y < x ∨ x = Nat.sqrt n) ∧
      isqrtFrom (fuel + 1) n x = if y < x then isqrtFrom fuel n y else x := by
  have hlow : Nat.sqrt n * Nat.sqrt n ≤ n := Nat.sqrt_le n
  have hhigh : n ≤ Nat.sqrt n * Nat.sqrt n + Nat.sqrt n + Nat.sqrt n := Nat.sqrt_le_add n
  have hroot (h : x * x ≤ n) : x ≤ Nat.sqrt n := Nat.le_sqrt.mpr h
  generalize Nat.sqrt n = s at hs hx hlow hhigh hroot
  have hx0 : 0 < x := by omega
  have hdiv : x * (n / x) ≤ n := Nat.mul_div_le n x
  have hge : 2 * s - x ≤ n / x := by
    rw [Nat.le_div_iff_mul_le hx0]
    obtain ⟨k, rfl⟩ := Nat.exists_eq_add_of_le hx
    refine le_trans ?_ hlow
    by_cases hk : k ≤ s
    · obtain ⟨i, rfl⟩ := Nat.exists_eq_add_of_le hk
      rw [show 2 * (k + i) - (k + i + k) = i by omega]
      nlinarith
    · rw [show 2 * s - (s + k) = 0 by omega, Nat.zero_mul]
      exact Nat.zero_le _
  refine ⟨(x + n / x) / 2, by omega, ?_, ?_, rfl⟩
  · have hy : s ≤ (x + n / x) / 2 := by omega
    have hy2 : 2 * ((x + n / x) / 2) ≤ x + n / x := Nat.mul_div_le _ 2
    generalize (x + n / x) / 2 = y at hy hy2
    obtain ⟨k, rfl⟩ := Nat.exists_eq_add_of_le hx
    obtain ⟨e, rfl⟩ := Nat.exists_eq_add_of_le hy
    rw [Nat.add_sub_cancel_left, Nat.add_sub_cancel_left]
    nlinarith
  · by_cases h : (x + n / x) / 2 < x
    · exact .inl h
    · have hle : x ≤ n / x := by omega
      have := hroot ((Nat.le_div_iff_mul_le hx0).mp hle)
      exact .inr (by omega)

/-- Near the root the steps reach it, one unit at a time at worst. -/
theorem isqrtFrom_of_near (hs : 0 < Nat.sqrt n) (fuel : Nat) (hx : Nat.sqrt n ≤ x) (hfuel : x < Nat.sqrt n + fuel) :
    isqrtFrom fuel n x = Nat.sqrt n := by
  induction fuel generalizing x with
  | zero => omega
  | succ fuel ih =>
    obtain ⟨y, hy, -, hcases, hstep⟩ := isqrtFrom_step hs hx fuel
    rw [hstep]
    split
    next hlt => exact ih hy (by omega)
    next hlt => exact hcases.resolve_left hlt

/-- An error of at most 2^-a of the root is squared by a step, down to a unit. -/
theorem error_squared {s a e k : Nat} (hs : 0 < s) (hk : k * 2 ^ a ≤ s) (he : 2 * s * e ≤ k ^ 2 + 2 * s) :
    e * 2 ^ (2 * a) ≤ s ∨ e ≤ 1 := by
  have hsq : (k * 2 ^ a) ^ 2 ≤ s ^ 2 := Nat.pow_le_pow_left hk 2
  have hpow : (2 : Nat) ^ (2 * a) = (2 ^ a) ^ 2 := by rw [mul_comm, pow_mul]
  rw [hpow]
  have hp : 0 < 2 ^ a := Nat.two_pow_pos a
  generalize 2 ^ a = q at hk hsq hp ⊢
  rw [mul_pow] at hsq
  by_cases hsmall : 2 * q ^ 2 ≤ s
  · left
    have h : s * (e * q ^ 2) ≤ s * s := by nlinarith
    exact Nat.le_of_mul_le_mul_left h hs
  · right
    by_contra he2
    have h2 : 2 * s * 2 ≤ 2 * s * e := Nat.mul_le_mul_left _ (by omega)
    have h3 : 2 * s ≤ k ^ 2 := by omega
    have h4 : 2 * s * q ^ 2 ≤ s * s := by nlinarith
    nlinarith

theorem isqrtFrom_of_close (hs : 0 < Nat.sqrt n) (hbig : Nat.sqrt n < 2 ^ 4096) (r i fuel : Nat) (hi : i + r = 12)
    (hx : Nat.sqrt n ≤ x) (hclose : (x - Nat.sqrt n) * 2 ^ 2 ^ i ≤ Nat.sqrt n) :
    isqrtFrom (fuel + r + 3) n x = Nat.sqrt n := by
  induction r generalizing i x with
  | zero =>
    obtain rfl : i = 12 := by omega
    refine isqrtFrom_of_near hs _ hx ?_
    have : x - Nat.sqrt n = 0 := by
      by_contra h0
      have h1 : 1 * 2 ^ 2 ^ 12 ≤ (x - Nat.sqrt n) * 2 ^ 2 ^ 12 := Nat.mul_le_mul_right _ (by omega)
      rw [show 2 ^ 12 = 4096 from rfl] at h1 hclose
      omega
    omega
  | succ r ih =>
    obtain ⟨y, hy, herror, hcases, hstep⟩ := isqrtFrom_step hs hx (fuel + r + 3)
    rw [show fuel + (r + 1) + 3 = fuel + r + 3 + 1 by omega, hstep]
    split
    next hlt =>
      obtain h | h := error_squared hs hclose herror
      · refine ih (i + 1) (by omega) hy ?_
        rwa [pow_succ 2 i, mul_comm (2 ^ i)]
      · exact isqrtFrom_of_near hs _ hy (by omega)
    next hlt => exact hcases.resolve_left hlt

/-- `isqrt` is the integer square root. -/
theorem isqrt_eq (hlow : 16 ≤ Nat.sqrt n) (hbig : Nat.sqrt n < 2 ^ 4096) : isqrt n = Nat.sqrt n := by
  have hs : 0 < Nat.sqrt n := by omega
  have hn : n ≠ 0 := fun h => by rw [h] at hs; exact absurd hs (by decide)
  have hstart : Nat.sqrt n < 2 ^ (n.log2 / 2 + 1) := by
    rw [Nat.sqrt_lt', ← pow_mul]
    exact Nat.lt_log2_self.trans_le (Nat.pow_le_pow_right (by omega) (by omega))
  have hdouble : 2 ^ (n.log2 / 2) ≤ Nat.sqrt n := by
    rw [Nat.le_sqrt', ← pow_mul]
    exact (Nat.pow_le_pow_right (by omega) (by omega)).trans (Nat.log2_self_le hn)
  have hfirst : 2 ^ (n.log2 / 2 + 1) ≤ 2 * Nat.sqrt n := by rw [pow_succ]; omega
  rw [isqrt, if_neg hn, one_shiftLeft]
  generalize 2 ^ (n.log2 / 2 + 1) = x at hstart hfirst
  obtain ⟨y, hy, hyerror, hycases, hystep⟩ := isqrtFrom_step hs hstart.le 255
  rw [hystep]
  split
  next hylt =>
    obtain ⟨z, hz, hzerror, hzcases, hzstep⟩ := isqrtFrom_step hs hy 254
    rw [hzstep]
    split
    next hzlt =>
      refine isqrtFrom_of_close hs hbig 11 1 240 rfl hz ?_
      generalize Nat.sqrt n = s at hlow hs hfirst hstart hy hyerror hz hzerror ⊢
      obtain ⟨k, rfl⟩ := Nat.exists_eq_add_of_le hy
      obtain ⟨e, rfl⟩ := Nat.exists_eq_add_of_le hz
      simp only [Nat.add_sub_cancel_left] at hyerror hzerror ⊢
      have hx : (x - s) ^ 2 ≤ s ^ 2 := Nat.pow_le_pow_left (by omega) 2
      have hk : 2 * k ≤ s + 2 := by
        refine Nat.le_of_mul_le_mul_left ?_ hs
        nlinarith
      have hk2 : (2 * k) ^ 2 ≤ (s + 2) ^ 2 := Nat.pow_le_pow_left hk 2
      have hs16 : 16 * s ≤ s * s := Nat.mul_le_mul_right s hlow
      show e * 4 ≤ s
      refine Nat.le_of_mul_le_mul_left ?_ hs
      nlinarith
    next hzlt => exact hzcases.resolve_left hzlt
  next hylt => exact hycases.resolve_left hylt

end Sys2Proof.Machine
end

