-- ==== Sys2Proof/Proofs/ReciprocalRoots.lean ====
section
/-!
Reciprocals and reciprocal square roots (R65, R66): the fraction that the model rounds lies between the same two values
of the format as the exact result.
-/

namespace Sys2Proof.Machine

set_option Elab.async false

variable {f : Fmt} {sp sa : FloatSpec} {g n d m k : Nat} {neg : Bool} {y Y : ℝ}

/- Values of the operand. -/

/-- The fraction that a value of an operand is: its denominator is a power of two. -/
structure Operand (m d : Nat) : Prop where
  den : ∃ k ≤ 1074, d = 2 ^ k
  num : m < 2 ^ 1025
  pos : 0 < m

theorem Operand.den_pos (h : Operand m d) : 0 < d := by
  obtain ⟨k, -, rfl⟩ := h.den
  exact Nat.two_pow_pos k

theorem operand_of_decodeFloat (hi : Ieee f sa) {x : Nat} (h : decodeFloat sa f.width x = .num neg m d) (hm : m ≠ 0) :
    Operand m d := by
  have hx : x % 1 <<< (f.width - 1) ≤ sa.maxMag := by
    by_contra hx
    exact decodeFloat_not_num hi (not_le.mp hx) _ _ _ h
  obtain ⟨hb1, hb⟩ := hi.bias
  obtain ⟨hm1, hm52, hmb⟩ := hi.mantissa
  rw [decodeFloat_finite hi hx, scale_num] at h
  injection h with _ hmant hden
  generalize x % 1 <<< (f.width - 1) = g at hx hmant hden
  have hp := Nat.two_pow_pos sa.m
  have hlt : sa.mant g < 2 ^ (sa.m + 1) := by
    unfold FloatSpec.mant
    rw [one_shiftLeft, pow_succ]
    have hmod := Nat.mod_lt g hp
    generalize g % 2 ^ sa.m = r at hmod ⊢
    split <;> omega
  have hexp : sa.exp g ≤ sa.bias - sa.m ∧ 1 - (sa.bias : ℤ) - sa.m ≤ sa.exp g := by
    have hdiv : g >>> sa.m ≤ 2 * sa.bias := by
      rw [shiftRight_eq, ← Nat.lt_succ_iff, Nat.div_lt_iff_lt_mul hp]
      have := hi.maxMag
      rw [Nat.succ_eq_add_one]
      omega
    unfold FloatSpec.exp
    generalize g >>> sa.m = k at hdiv ⊢
    split <;> omega
  generalize sa.exp g = e at hexp hmant hden
  unfold pow2 at hmant hden
  by_cases he : 0 ≤ e
  · rw [if_pos he] at hmant hden
    refine ⟨⟨0, by omega, hden.symm⟩, ?_, by omega⟩
    rw [← hmant]
    dsimp only
    rw [one_shiftLeft]
    calc sa.mant g * 2 ^ e.toNat < 2 ^ (sa.m + 1) * 2 ^ e.toNat := Nat.mul_lt_mul_of_pos_right hlt (Nat.two_pow_pos _)
      _ = 2 ^ (sa.m + 1 + e.toNat) := (pow_add ..).symm
      _ ≤ 2 ^ 1025 := Nat.pow_le_pow_right (by omega) (by omega)
  · rw [if_neg he] at hmant hden
    refine ⟨⟨(-e).toNat, by omega, by rw [← hden, one_shiftLeft]⟩, ?_, by omega⟩
    rw [← hmant, Nat.mul_one]
    exact hlt.trans_le (Nat.pow_le_pow_right (by omega) (by omega))

theorem operand_of_decodeVal (hi : Ieee f sa) {ftz : Bool} {x : Nat} (h : decodeVal f ftz x = .num neg m d) (hm : m ≠ 0) :
    Operand m d := by
  rw [decodeVal, hi.spec] at h
  dsimp only at h
  split at h
  · injection h with _ h0
    exact (hm h0.symm).elim
  · exact operand_of_decodeFloat hi h hm

/- Values between which a magnitude lies. -/

theorem val_ge_units (sp : FloatSpec) (g : Nat) : (g : ℝ) * 2 ^ sp.qmin ≤ sp.val g := by
  induction g with
  | zero => simp
  | succ g ih =>
    obtain ⟨a, ha⟩ := exists_units sp g
    obtain ⟨b, hb⟩ := exists_units sp (g + 1)
    have hlt := val_lt_succ sp g
    have hq : (0 : ℝ) < 2 ^ sp.qmin := by positivity
    rw [ha] at ih
    rw [ha, hb] at hlt
    have hga : (g : ℝ) ≤ a := le_of_mul_le_mul_right ih hq
    have hab : a < b := by exact_mod_cast lt_of_mul_lt_mul_right hlt hq.le
    have hab' : (a : ℝ) + 1 ≤ b := by exact_mod_cast hab
    rw [hb]
    push_cast
    gcongr
    linarith

/-- Every magnitude that is no value lies between two. -/
theorem exists_between (sp : FloatSpec) (hy : 0 < y) (hne : ∀ g, sp.val g ≠ y) : ∃ g, Between sp y g := by
  classical
  have hex : ∃ g, y < sp.val g := by
    have hq : (0 : ℝ) < 2 ^ sp.qmin := by positivity
    obtain ⟨g, hg⟩ := exists_nat_gt (y / 2 ^ sp.qmin)
    rw [div_lt_iff₀ hq] at hg
    exact ⟨g, hg.trans_le (val_ge_units sp g)⟩
  have hfind := Nat.find_spec hex
  cases hf : Nat.find hex with
  | zero => rw [hf, val_zero] at hfind; exact absurd hfind hy.not_gt
  | succ g =>
    rw [hf] at hfind
    have hmin := Nat.find_min hex (m := g) (by omega)
    exact ⟨g, (not_lt.mp hmin).lt_of_ne (hne g), hfind⟩

/-- A value whose units divide a power of two is a power of two. -/
theorem val_eq_pow {i : Nat} (hu : (i : ℝ) * 2 ^ sp.qmin = y) {K : Nat} (hdvd : i ∣ 2 ^ K) : ∃ e : ℤ, y = 2 ^ e := by
  obtain ⟨j, -, rfl⟩ := (Nat.dvd_prime_pow Nat.prime_two).mp hdvd
  refine ⟨j + sp.qmin, ?_⟩
  rw [← hu, zpow_add₀ two_ne_zero, zpow_natCast]
  push_cast
  rfl

theorem units_dvd {i a : Nat} (hq : sp.qmin ≤ 0) (h : ((i : ℝ) * 2 ^ sp.qmin) * a = d) (hd : ∃ k, d = 2 ^ k) :
    ∃ K, i ∣ 2 ^ K := by
  obtain ⟨k, rfl⟩ := hd
  obtain ⟨q, hq'⟩ := Int.eq_ofNat_of_zero_le (show 0 ≤ -sp.qmin by omega)
  refine ⟨k + q, Dvd.intro a ?_⟩
  rw [show sp.qmin = -(q : ℤ) by omega, zpow_neg, zpow_natCast, mul_assoc, inv_mul_eq_div, mul_div_assoc', div_eq_iff (by positivity)] at h
  rw [pow_add]
  exact_mod_cast h

theorem qmin_nonpos (hi : Ieee f sp) : sp.qmin ≤ 0 := by
  have := hi.bias.1
  rw [FloatSpec.qmin]
  omega

/- Reciprocals. -/

/-- A reciprocal that is no power of two is no value of the format. -/
theorem rcp_ne_val (hi : Ieee f sp) (ho : Operand m d) (hY : Y * m = d) (hpow : ∀ e : ℤ, Y ≠ 2 ^ e) (g : Nat) :
    sp.val g ≠ Y := by
  rintro rfl
  obtain ⟨i, hu⟩ := exists_units sp g
  obtain ⟨k, -, hk⟩ := ho.den
  rw [hu] at hY
  obtain ⟨K, hK⟩ := units_dvd (qmin_nonpos hi) hY ⟨k, hk⟩
  obtain ⟨e, he⟩ := val_eq_pow (sp := sp) hu.symm hK
  exact hpow e he

/- Reciprocal square roots. -/

/-- The integer root that `rsqrtFrac` takes. -/
def rsqRoot (m d : Nat) : Nat := Nat.sqrt (d * m * 4 ^ (220 + m.log2))

theorem rsqrtFrac_eq (ho : Operand m d) : rsqrtFrac m d = (2 * rsqRoot m d + 1, m * 2 ^ (220 + m.log2 + 1)) := by
  obtain ⟨k, hk, rfl⟩ := ho.den
  have hlog : m.log2 < 1025 := (Nat.log2_lt ho.pos.ne').mpr ho.num
  have harg : (2 ^ k * m) <<< (2 * (220 + m.log2)) = 2 ^ k * m * 4 ^ (220 + m.log2) := by
    rw [Nat.shiftLeft_eq, pow_mul]
    rfl
  have hlow : 16 ≤ Nat.sqrt (2 ^ k * m * 4 ^ (220 + m.log2)) := by
    rw [Nat.le_sqrt]
    calc 16 * 16 = 1 * 4 ^ 4 := by norm_num
      _ ≤ 2 ^ k * m * 4 ^ (220 + m.log2) :=
        Nat.mul_le_mul (Nat.mul_pos (Nat.two_pow_pos k) ho.pos) (Nat.pow_le_pow_right (by omega) (by omega))
  have hhigh : Nat.sqrt (2 ^ k * m * 4 ^ (220 + m.log2)) < 2 ^ 4096 := by
    have h4 : (4 : Nat) ^ (220 + m.log2) ≤ 2 ^ 2490 := by
      rw [show (4 : Nat) = 2 ^ 2 from rfl, ← pow_mul]
      exact Nat.pow_le_pow_right (by omega) (by omega)
    rw [Nat.sqrt_lt', ← pow_mul]
    calc 2 ^ k * m * 4 ^ (220 + m.log2) < 2 ^ k * 2 ^ 1025 * 4 ^ (220 + m.log2) := by
          gcongr
          exact ho.num
      _ ≤ 2 ^ 1074 * 2 ^ 1025 * 2 ^ 2490 := by
          gcongr
          omega
      _ = 2 ^ 4589 := by rw [← pow_add, ← pow_add]
      _ ≤ 2 ^ (4096 * 2) := Nat.pow_le_pow_right (by omega) (by omega)
  rw [rsqrtFrac, harg, isqrt_eq hlow hhigh, Nat.shiftLeft_eq]
  rfl

/-- What the model rounds instead of the root. -/
theorem rsq_frac (ho : Operand m d) :
    (((rsqrtFrac m d).1 : Nat) : ℝ) / (rsqrtFrac m d).2 * (m * 2 ^ (220 + m.log2)) = rsqRoot m d + 1 / 2 := by
  have hm : (m : ℝ) ≠ 0 := by exact_mod_cast ho.pos.ne'
  rw [rsqrtFrac_eq ho, pow_succ]
  push_cast
  field_simp

theorem lt_half_iff (N r : Nat) : (N : ℝ) < r + 1 / 2 ↔ N ≤ r := by
  constructor
  · intro h
    have : (N : ℝ) < (r + 1 : Nat) := by push_cast; linarith
    exact Nat.lt_succ_iff.mp (by exact_mod_cast this)
  · intro h
    have : (N : ℝ) ≤ r := by exact_mod_cast h
    linarith

theorem ne_half (N r : Nat) : (N : ℝ) ≠ r + 1 / 2 := by
  intro h
  have : (2 * N : Nat) = (2 * r + 1 : Nat) := by
    have : ((2 * N : Nat) : ℝ) = (2 * r + 1 : Nat) := by push_cast; linarith
    exact_mod_cast this
  omega

section
variable (ho : Operand m d) (hY0 : 0 < Y) (hY : Y ^ 2 * m = d)
include ho hY0 hY

/-- A number that is whole in units of 1 / (m·2^k) lies at or below the exact root when its units do below the integer
root. -/
theorem le_rsq_iff {N : Nat} {v : ℝ} (hv : v * (m * 2 ^ (220 + m.log2)) = N) : v ≤ Y ↔ N ≤ rsqRoot m d := by
  have hm : (0 : ℝ) < m := by exact_mod_cast ho.pos
  have hunit : (0 : ℝ) < m * 2 ^ (220 + m.log2) := by positivity
  have hsq : (Y * (m * 2 ^ (220 + m.log2))) ^ 2 = (d * m * 4 ^ (220 + m.log2) : Nat) := by
    push_cast
    rw [← hY, show (4 : ℝ) = 2 ^ 2 by norm_num, ← pow_mul, mul_pow, mul_pow, ← pow_mul]
    ring
  rw [rsqRoot, Nat.le_sqrt', ← mul_le_mul_iff_left₀ hunit, hv, ← sq_le_sq₀ (by positivity) (by positivity), hsq]
  exact_mod_cast Iff.rfl

/-- It lies within 2^-200 of the root. -/
theorem rsq_close : |(((rsqrtFrac m d).1 : Nat) : ℝ) / (rsqrtFrac m d).2 - Y| ≤ Y / 2 ^ 200 := by
  have hm : (1 : ℝ) ≤ m := by exact_mod_cast ho.pos
  have hd : (1 : ℝ) ≤ d := by exact_mod_cast ho.den_pos
  have hunit : (0 : ℝ) < m * 2 ^ (220 + m.log2) := by positivity
  have hfrac := rsq_frac ho
  have hlow : (rsqRoot m d : ℝ) / (m * 2 ^ (220 + m.log2)) ≤ Y :=
    (le_rsq_iff ho hY0 hY (div_mul_cancel₀ _ hunit.ne')).mpr le_rfl
  have hhigh : Y < ((rsqRoot m d + 1 : Nat) : ℝ) / (m * 2 ^ (220 + m.log2)) := by
    rw [← not_le, le_rsq_iff ho hY0 hY (div_mul_cancel₀ _ hunit.ne')]
    omega
  rw [div_le_iff₀ hunit] at hlow
  rw [lt_div_iff₀ hunit] at hhigh
  push_cast at hhigh
  have hbig : (2 : ℝ) ^ 220 ≤ Y * (m * 2 ^ (220 + m.log2)) := by
    have hone : 1 ≤ Y * m := by
      rw [← one_le_sq_iff₀ (by positivity)]
      nlinarith
    calc (2 : ℝ) ^ 220 ≤ 1 * 2 ^ (220 + m.log2) := by
          rw [one_mul]
          exact pow_le_pow_right₀ one_le_two (by omega)
      _ ≤ Y * m * 2 ^ (220 + m.log2) := by gcongr
      _ = _ := mul_assoc ..
  rw [← mul_le_mul_iff_left₀ hunit, ← abs_of_pos hunit, ← abs_mul, abs_of_pos hunit, sub_mul, hfrac, abs_le]
  rw [div_mul_eq_mul_div Y]
  generalize Y * (m * 2 ^ (220 + m.log2)) = R at hlow hhigh hbig ⊢
  have hone : 1 ≤ R / 2 ^ 200 := by
    rw [le_div_iff₀ (by positivity), one_mul]
    exact (pow_le_pow_right₀ one_le_two (by omega)).trans hbig
  constructor <;> linarith

/-- The exact root lies between the same two values of a format as the fraction. -/
theorem rsq_between (hi : Ieee f sp) (hq : -220 ≤ sp.qmin) (hpow : ∀ e : ℤ, Y ≠ 2 ^ e) : ∃ g,
    Between sp ((((rsqrtFrac m d).1 : Nat) : ℝ) / (rsqrtFrac m d).2) g ∧ Between sp Y g := by
  have hm : (0 : ℝ) < m := by exact_mod_cast ho.pos
  have hunit : (0 : ℝ) < m * 2 ^ (220 + m.log2) := by positivity
  have hfrac := rsq_frac ho
  have hne (g : Nat) : sp.val g ≠ Y := by
    rintro rfl
    obtain ⟨i, hu⟩ := exists_units sp g
    obtain ⟨k, -, hk⟩ := ho.den
    obtain ⟨q, hq'⟩ := Int.eq_ofNat_of_zero_le (show 0 ≤ -sp.qmin by have := qmin_nonpos hi; omega)
    have hprod : ((i : ℝ) * 2 ^ sp.qmin) * (i * m : Nat) = (2 ^ (k + q) : Nat) := by
      have h2 : (2 : ℝ) ^ sp.qmin * 2 ^ q = 1 := by
        rw [show sp.qmin = -(q : ℤ) by omega, zpow_neg, zpow_natCast]
        exact inv_mul_cancel₀ (by positivity)
      rw [hu, hk] at hY
      push_cast at hY ⊢
      rw [pow_add, ← hY]
      generalize (2 : ℝ) ^ sp.qmin = Q at h2 ⊢
      calc (i : ℝ) * Q * (i * m) = i ^ 2 * m * Q * 1 := by ring
        _ = i ^ 2 * m * Q * (Q * 2 ^ q) := by rw [h2]
        _ = _ := by ring
    obtain ⟨K, hK⟩ := units_dvd (qmin_nonpos hi) hprod ⟨_, rfl⟩
    obtain ⟨e, he⟩ := val_eq_pow (sp := sp) hu.symm hK
    exact hpow e he
  have hwhole (g : Nat) : ∃ N : Nat, sp.val g * (m * 2 ^ (220 + m.log2)) = N := by
    obtain ⟨i, hu⟩ := exists_units sp g
    obtain ⟨q, hq'⟩ := Int.eq_ofNat_of_zero_le (show 0 ≤ 220 + m.log2 + sp.qmin by omega)
    refine ⟨i * m * 2 ^ q, ?_⟩
    rw [hu, show sp.qmin = (q : ℤ) - (220 + m.log2 : Nat) by push_cast; omega, zpow_sub₀ two_ne_zero, zpow_natCast, zpow_natCast]
    push_cast
    field_simp
  have hside (g : Nat) : sp.val g < (((rsqrtFrac m d).1 : Nat) : ℝ) / (rsqrtFrac m d).2 ↔ sp.val g < Y := by
    obtain ⟨N, hN⟩ := hwhole g
    rw [lt_iff_le_and_ne (b := Y), and_iff_left (hne g), le_rsq_iff ho hY0 hY hN, ← mul_lt_mul_iff_left₀ hunit, hfrac, hN]
    exact lt_half_iff _ _
  have hnot (g : Nat) : sp.val g ≠ (((rsqrtFrac m d).1 : Nat) : ℝ) / (rsqrtFrac m d).2 := by
    obtain ⟨N, hN⟩ := hwhole g
    intro h
    rw [h, hfrac] at hN
    exact ne_half N _ hN.symm
  obtain ⟨g, hg⟩ := exists_between sp hY0 hne
  exact ⟨g, ⟨(hside g).mpr hg.low, (not_lt.mp fun h => hg.high.not_gt ((hside _).mp h)).lt_of_ne (hnot _).symm⟩, hg⟩

end

end Sys2Proof.Machine
end

