-- ==== Sys2Proof/Proofs/ExponentialSeries.lean ====
section
/-!
Powers of two of fractions (R65, R66): what the fixed-point series of the model enclose.
-/

namespace Sys2Proof.Machine

set_option Elab.async false

variable {a b n y f e : Nat} {x : ℤ} {Y : ℝ}

/- Divisions that cut off, and sums as folds. -/

theorem cast_div_le (a b : Nat) : ((a / b : Nat) : ℝ) ≤ (a : ℝ) / b := Nat.cast_div_le

theorem lt_cast_div_add_one (a : Nat) (b : Nat) : (a : ℝ) / b < (a / b : Nat) + 1 := by
  rw [← Nat.floor_div_eq_div (K := ℝ)]
  exact Nat.lt_floor_add_one _

theorem foldl_range_add (g : Nat → Nat) (n : Nat) :
    (List.range n).foldl (fun acc i => acc + g i) 0 = ∑ i ∈ Finset.range n, g i := by
  induction n with
  | zero => rfl
  | succ n ih => rw [List.range_succ, List.foldl_append, ih, Finset.sum_range_succ]; rfl

/- The logarithm of two. -/

/-- A term of the series of ln 2 in units of 2^-256, before it is cut. -/
theorem ln2_term (i : Nat) : (((1 <<< fracBits : Nat) : ℝ)) / (((i + 1) * 1 <<< (i + 1) : Nat) : ℝ) =
    2 ^ 256 * ((1 / 2 : ℝ) ^ (i + 1) / (i + 1)) := by
  rw [one_shiftLeft, one_shiftLeft, fracBits, Nat.cast_mul, Nat.cast_pow, Nat.cast_pow, Nat.cast_ofNat, Nat.cast_succ,
    one_div, inv_pow]
  field_simp

/-- `ln2Fixed` is ln 2 in units of 2^-256, cut by less than 2^9 of them. -/
theorem ln2Fixed_bounds : (ln2Fixed : ℝ) ≤ 2 ^ 256 * Real.log 2 ∧ 2 ^ 256 * Real.log 2 ≤ ln2Fixed + 2 ^ 9 := by
  have hlog : -Real.log (1 - 1 / 2) = Real.log 2 := by
    rw [← Real.log_inv]
    norm_num
  have habs : |(1 / 2 : ℝ)| < 1 := by norm_num [abs_of_pos]
  have hsum := Real.hasSum_pow_div_log_of_abs_lt_one habs
  have hbound := Real.abs_log_sub_add_sum_range_le habs 250
  rw [hlog] at hsum
  have hle : ∑ i ∈ Finset.range 250, (1 / 2 : ℝ) ^ (i + 1) / (i + 1) ≤ Real.log 2 :=
    sum_le_hasSum _ (fun i _ => by positivity) hsum
  have hge : Real.log 2 ≤ ∑ i ∈ Finset.range 250, (1 / 2 : ℝ) ^ (i + 1) / (i + 1) + 1 / 2 ^ 250 := by
    have hlog' : Real.log (1 - 1 / 2) = -Real.log 2 := by rw [← hlog, neg_neg]
    rw [hlog', abs_le] at hbound
    have hpow : |(1 / 2 : ℝ)| ^ (250 + 1) / (1 - |(1 / 2 : ℝ)|) = 1 / 2 ^ 250 := by
      rw [abs_of_pos (by norm_num)]
      norm_num
    rw [hpow] at hbound
    linarith [hbound.1]
  have hfixed : ln2Fixed = ∑ i ∈ Finset.range 250, (1 <<< fracBits) / ((i + 1) * 1 <<< (i + 1)) := foldl_range_add _ 250
  rw [hfixed]
  push_cast
  constructor
  · refine le_trans ?_ (mul_le_mul_of_nonneg_left hle (by positivity))
    rw [Finset.mul_sum]
    refine Finset.sum_le_sum fun i _ => ?_
    rw [← ln2_term]
    exact cast_div_le _ _
  · refine (mul_le_mul_of_nonneg_left hge (by positivity)).trans ?_
    have hcut : (2 : ℝ) ^ 256 * ∑ i ∈ Finset.range 250, (1 / 2 : ℝ) ^ (i + 1) / (i + 1) ≤
        ∑ i ∈ Finset.range 250, ((((1 <<< fracBits) / ((i + 1) * 1 <<< (i + 1)) : Nat) : ℝ) + 1) := by
      rw [Finset.mul_sum]
      refine Finset.sum_le_sum fun i _ => ?_
      rw [← ln2_term]
      exact (lt_cast_div_add_one _ _).le
    rw [Finset.sum_add_distrib, Finset.sum_const, Finset.card_range] at hcut
    rw [mul_add]
    norm_num at hcut ⊢
    linarith

/- The exponential. -/

/-- A term of the series of exp in units of 2^-256. -/
def expTerm (y : Nat) : Nat → Nat
  | 0 => 1 <<< fracBits
  | i + 1 => ((expTerm y i * y) >>> fracBits) / (i + 1)

theorem expFixed_eq (y : Nat) : expFixed y = ∑ i ∈ Finset.range 71, expTerm y i := by
  have hfold (n : Nat) : (List.range n).foldl (fun (acc : Nat × Nat) i =>
      (acc.1 + ((acc.2 * y) >>> fracBits) / (i + 1), ((acc.2 * y) >>> fracBits) / (i + 1)))
        (1 <<< fracBits, 1 <<< fracBits) = (∑ i ∈ Finset.range (n + 1), expTerm y i, expTerm y n) := by
    induction n with
    | zero => rw [zero_add, Finset.sum_range_one]; exact List.foldl_nil ..
    | succ n ih => rw [List.range_succ, List.foldl_append, ih, Finset.sum_range_succ _ (n + 1)]; rfl
  simp only [expFixed]
  rw [hfold 70]

/-- The terms are cut by at most 4 units. -/
theorem expTerm_bounds (hy : (y : ℝ) / 2 ^ 256 ≤ 3 / 4) (i : Nat) :
    (expTerm y i : ℝ) ≤ 2 ^ 256 * (((y : ℝ) / 2 ^ 256) ^ i / (i.factorial : ℝ)) ∧
      2 ^ 256 * (((y : ℝ) / 2 ^ 256) ^ i / (i.factorial : ℝ)) ≤ expTerm y i + 4 := by
  induction i with
  | zero => norm_num [expTerm, one_shiftLeft, fracBits]
  | succ i ih =>
    obtain ⟨hle, hge⟩ := ih
    have hterm : expTerm y (i + 1) = expTerm y i * y / (2 ^ 256 * (i + 1)) := by
      rw [expTerm, shiftRight_eq, Nat.div_div_eq_div_mul, fracBits]
    have hexact : (((expTerm y i * y : Nat) : ℝ)) / ((2 ^ 256 * (i + 1) : Nat) : ℝ) =
        expTerm y i * ((y : ℝ) / 2 ^ 256 / (i + 1)) := by
      rw [Nat.cast_mul, Nat.cast_mul, Nat.cast_pow, Nat.cast_ofNat, Nat.cast_succ]
      field_simp
    have hnext : 2 ^ 256 * (((y : ℝ) / 2 ^ 256) ^ (i + 1) / ((i + 1).factorial : ℝ)) =
        2 ^ 256 * (((y : ℝ) / 2 ^ 256) ^ i / (i.factorial : ℝ)) * ((y : ℝ) / 2 ^ 256 / (i + 1)) := by
      generalize (y : ℝ) / 2 ^ 256 = z
      generalize (2 : ℝ) ^ 256 = B
      rw [Nat.factorial_succ, Nat.cast_mul, Nat.cast_succ, pow_succ]
      field_simp
    have hfactor : (y : ℝ) / 2 ^ 256 / (i + 1) ≤ 3 / 4 :=
      (div_le_self (by positivity) (by linarith [Nat.cast_nonneg (α := ℝ) i])).trans hy
    have hnonneg : 0 ≤ (y : ℝ) / 2 ^ 256 / (i + 1) := by positivity
    have hlow := cast_div_le (expTerm y i * y) (2 ^ 256 * (i + 1))
    have hhigh := lt_cast_div_add_one (expTerm y i * y) (2 ^ 256 * (i + 1))
    rw [hexact] at hlow hhigh
    rw [hterm, hnext]
    generalize (y : ℝ) / 2 ^ 256 / (i + 1) = z at hlow hhigh hfactor hnonneg ⊢
    generalize (2 : ℝ) ^ 256 * (((y : ℝ) / 2 ^ 256) ^ i / (i.factorial : ℝ)) = T at hle hge ⊢
    constructor <;> nlinarith

/-- `expFixed` is exp in units of 2^-256, cut by at most 2^9 of them. -/
theorem expFixed_bounds (hy : (y : ℝ) / 2 ^ 256 ≤ 3 / 4) :
    (expFixed y : ℝ) ≤ 2 ^ 256 * Real.exp ((y : ℝ) / 2 ^ 256) ∧
      2 ^ 256 * Real.exp ((y : ℝ) / 2 ^ 256) ≤ expFixed y + 2 ^ 9 := by
  have hz : 0 ≤ (y : ℝ) / 2 ^ 256 := by positivity
  rw [expFixed_eq]
  push_cast
  constructor
  · refine le_trans ?_ (mul_le_mul_of_nonneg_left (Real.sum_le_exp_of_nonneg hz 71) (by positivity))
    rw [Finset.mul_sum]
    exact Finset.sum_le_sum fun i _ => (expTerm_bounds hy i).1
  · have htail : ((y : ℝ) / 2 ^ 256) ^ 71 * ((71 : Nat) + 1) / (((71 : Nat).factorial : ℝ) * (71 : Nat)) ≤ 1 / 2 ^ 256 := by
      have hp : ((y : ℝ) / 2 ^ 256) ^ 71 ≤ 1 := pow_le_one₀ hz (by linarith)
      calc ((y : ℝ) / 2 ^ 256) ^ 71 * ((71 : Nat) + 1) / (((71 : Nat).factorial : ℝ) * (71 : Nat))
          ≤ 1 * ((71 : Nat) + 1) / (((71 : Nat).factorial : ℝ) * (71 : Nat)) := by gcongr
        _ ≤ 1 / 2 ^ 256 := by norm_num [Nat.factorial]
    refine (mul_le_mul_of_nonneg_left (Real.exp_bound' hz (by linarith) (n := 71) (by omega)) (by positivity)).trans ?_
    have hcut : (2 : ℝ) ^ 256 * ∑ i ∈ Finset.range 71, ((y : ℝ) / 2 ^ 256) ^ i / (i.factorial : ℝ) ≤
        ∑ i ∈ Finset.range 71, ((expTerm y i : ℝ) + 4) := by
      rw [Finset.mul_sum]
      exact Finset.sum_le_sum fun i _ => (expTerm_bounds hy i).2
    rw [Finset.sum_add_distrib, Finset.sum_const, Finset.card_range] at hcut
    rw [mul_add]
    generalize ((y : ℝ) / 2 ^ 256) ^ 71 * ((71 : Nat) + 1) / (((71 : Nat).factorial : ℝ) * (71 : Nat)) = r at htail ⊢
    have hr : (2 : ℝ) ^ 256 * r ≤ 1 := by
      calc (2 : ℝ) ^ 256 * r ≤ 2 ^ 256 * (1 / 2 ^ 256) := by gcongr
        _ = 1 := by norm_num
    generalize (2 : ℝ) ^ 256 * ∑ i ∈ Finset.range 71, ((y : ℝ) / 2 ^ 256) ^ i / (i.factorial : ℝ) = S at hcut ⊢
    norm_num at hcut ⊢
    linarith

theorem one_le_expFixed (y : Nat) : 2 ^ 256 ≤ expFixed y := by
  rw [expFixed_eq]
  calc 2 ^ 256 = expTerm y 0 := by rw [expTerm, one_shiftLeft, fracBits]
    _ ≤ _ := Finset.single_le_sum (f := expTerm y) (fun i _ => Nat.zero_le _) (Finset.mem_range.mpr (by omega))

/- The fraction of an exponent. -/

/-- ln 2 times the fraction f / e, as `exp2Frac` takes it. -/
def exp2Arg (f e : Nat) : Nat := ((f <<< fracBits) / e * ln2Fixed) >>> fracBits

theorem exp2Arg_bounds (hf : f < e) : (exp2Arg f e : ℝ) ≤ 2 ^ 256 * ((f : ℝ) / e * Real.log 2) ∧
    2 ^ 256 * ((f : ℝ) / e * Real.log 2) ≤ exp2Arg f e + 2 ^ 10 := by
  obtain ⟨hl1, hl2⟩ := ln2Fixed_bounds
  have he : (0 : ℝ) < e := by exact_mod_cast (Nat.zero_le f).trans_lt hf
  have hφ : (f : ℝ) / e ≤ 1 := by
    rw [div_le_one he]
    exact_mod_cast hf.le
  have hφ0 : 0 ≤ (f : ℝ) / e := by positivity
  have hlog := Real.log_two_lt_d9
  have hq1 := cast_div_le (f * 2 ^ 256) e
  have hq2 := lt_cast_div_add_one (f * 2 ^ 256) e
  have hr1 := cast_div_le (f * 2 ^ 256 / e * ln2Fixed) (2 ^ 256)
  have hr2 := lt_cast_div_add_one (f * 2 ^ 256 / e * ln2Fixed) (2 ^ 256)
  have harg : exp2Arg f e = f * 2 ^ 256 / e * ln2Fixed / 2 ^ 256 := by
    rw [exp2Arg, shiftRight_eq, Nat.shiftLeft_eq, fracBits]
  rw [harg]
  rw [Nat.cast_mul, Nat.cast_pow, Nat.cast_ofNat] at hq1 hq2 hr1 hr2
  rw [mul_div_right_comm] at hq1 hq2
  have hL0 : (0 : ℝ) ≤ ln2Fixed := Nat.cast_nonneg _
  generalize ((f * 2 ^ 256 / e * ln2Fixed / 2 ^ 256 : Nat) : ℝ) = r at hr1 hr2 ⊢
  generalize ((f * 2 ^ 256 / e : Nat) : ℝ) = q at hq1 hq2 hr1 hr2
  generalize (f : ℝ) / e = φ at hφ hφ0 hq1 hq2 ⊢
  generalize (ln2Fixed : ℝ) = L at hl1 hl2 hr1 hr2 hL0
  generalize Real.log 2 = l at hl1 hl2 hlog ⊢
  rw [le_div_iff₀ (by positivity)] at hr1
  rw [div_lt_iff₀ (by positivity)] at hr2
  have hB : (0 : ℝ) < 2 ^ 256 := by positivity
  have hB2 : (2 : ℝ) ^ 10 ≤ 2 ^ 256 := by norm_num
  generalize (2 : ℝ) ^ 256 = B at *
  constructor
  · refine le_of_mul_le_mul_right (hr1.trans ?_) hB
    calc q * L ≤ φ * B * (B * l) := by gcongr
      _ = _ := by ring
  · have h1 : φ * (B * l) ≤ φ * (L + 2 ^ 9) := mul_le_mul_of_nonneg_left hl2 hφ0
    have h2 : φ * B * L ≤ (q + 1) * L := mul_le_mul_of_nonneg_right hq2.le hL0
    have h3 : φ * L * B ≤ (r + 1 + 1) * B := by nlinarith
    have h4 := le_of_mul_le_mul_right h3 hB
    nlinarith

/-- What `exp2Frac` encloses: 2^(f/e) in units of 2^-256, cut by less than 2^12 of them. -/
theorem exp2_enclosed (hf : f < e) :
    (expFixed (exp2Arg f e) : ℝ) ≤ 2 ^ 256 * Real.exp ((f : ℝ) / e * Real.log 2) ∧
      2 ^ 256 * Real.exp ((f : ℝ) / e * Real.log 2) ≤ expFixed (exp2Arg f e) + 2 ^ 12 := by
  obtain ⟨ha1, ha2⟩ := exp2Arg_bounds hf
  have he : (0 : ℝ) < e := by exact_mod_cast (Nat.zero_le f).trans_lt hf
  have hφ : (f : ℝ) / e ≤ 1 := by
    rw [div_le_one he]
    exact_mod_cast hf.le
  have hlog := Real.log_two_lt_d9
  have hlog0 := Real.log_two_gt_d9
  have hw : (f : ℝ) / e * Real.log 2 ≤ 3 / 4 := by nlinarith
  have hw2 : Real.exp ((f : ℝ) / e * Real.log 2) ≤ 2 := by
    rw [← Real.exp_log (show (0 : ℝ) < 2 by norm_num)]
    exact Real.exp_le_exp.mpr (by rw [Real.exp_log (by norm_num)]; nlinarith)
  have hz : (exp2Arg f e : ℝ) / 2 ^ 256 ≤ (f : ℝ) / e * Real.log 2 := by
    rw [div_le_iff₀ (by positivity)]
    linarith
  have hd : (f : ℝ) / e * Real.log 2 - (exp2Arg f e : ℝ) / 2 ^ 256 ≤ 2 ^ 10 / 2 ^ 256 := by
    rw [sub_le_iff_le_add, ← add_div, le_div_iff₀ (by positivity)]
    linarith
  obtain ⟨hx1, hx2⟩ := expFixed_bounds (hz.trans hw)
  generalize (exp2Arg f e : ℝ) / 2 ^ 256 = z at hz hd hx1 hx2
  generalize (f : ℝ) / e * Real.log 2 = w at hz hd hw2 ⊢
  refine ⟨hx1.trans (by gcongr), ?_⟩
  have hexp : Real.exp w - Real.exp z ≤ 2 * (2 ^ 10 / 2 ^ 256) := by
    have h1 := Real.add_one_le_exp (z - w)
    rw [Real.exp_sub, le_div_iff₀ (Real.exp_pos w)] at h1
    nlinarith [Real.exp_pos w]
  have hscaled : (2 : ℝ) ^ 256 * (Real.exp w - Real.exp z) ≤ 2 ^ 11 := by
    calc (2 : ℝ) ^ 256 * (Real.exp w - Real.exp z) ≤ 2 ^ 256 * (2 * (2 ^ 10 / 2 ^ 256)) := by gcongr
      _ = 2 ^ 11 := by norm_num
  rw [mul_sub] at hscaled
  norm_num at hscaled hx2 ⊢
  linarith

end Sys2Proof.Machine
end

