-- ==== Sys2Proof/Proofs/PowersOfTwo.lean ====
section
/-!
Powers of two as approximations (R65, R66): the fraction that the model rounds and the exact power lie in one binade and
within 2^-200 of each other, or both past every value of the format.
-/

namespace Sys2Proof.Machine

set_option Elab.async false

variable {f : Fmt} {sp : FloatSpec} {m e N j : Nat} {neg : Bool} {x a b : ℤ} {Y : ℝ} {c : Descr} {operands : List Nat}

/- Odd numbers as values. -/

/-- An odd number of units is no smaller number of other units, and no number of greater ones. -/
theorem odd_units_ne (h : j < 2 * N + 1 ∨ a < b) : (j : ℝ) * 2 ^ b ≠ (2 * N + 1 : Nat) * 2 ^ a := by
  intro heq
  by_cases hab : a < b
  · obtain ⟨k, hk⟩ := Int.eq_ofNat_of_zero_le (show 0 ≤ b - a - 1 by omega)
    rw [show b = a + (k + 1 : Nat) by push_cast; omega, zpow_add₀ two_ne_zero, zpow_natCast, mul_comm ((2 : ℝ) ^ a), ← mul_assoc] at heq
    have hnat : j * 2 ^ (k + 1) = 2 * N + 1 := by exact_mod_cast mul_right_cancel₀ (by positivity) heq
    rw [pow_succ, ← mul_assoc] at hnat
    omega
  · obtain ⟨k, hk⟩ := Int.eq_ofNat_of_zero_le (show 0 ≤ a - b by omega)
    rw [show a = b + (k : Nat) by omega, zpow_add₀ two_ne_zero, zpow_natCast, mul_comm ((2 : ℝ) ^ b), ← mul_assoc] at heq
    have hnat : j = (2 * N + 1) * 2 ^ k := by exact_mod_cast mul_right_cancel₀ (by positivity) heq
    have := Nat.le_mul_of_pos_right (2 * N + 1) (Nat.two_pow_pos k)
    omega

/-- No value of a format is an odd number of units that has more bits than a significand, or that are smaller than its
last place. -/
theorem val_ne_odd_units (sp : FloatSpec) (h : 2 ^ (sp.m + 1) ≤ 2 * N + 1 ∨ a < sp.qmin) (g : Nat) :
    sp.val g ≠ (2 * N + 1 : Nat) * 2 ^ a := by
  obtain ⟨k, j, rfl, hk, hj⟩ := exists_grid sp g
  rw [val_grid sp hk hj.le]
  exact odd_units_ne (h.imp (fun h => by omega) fun h => by omega)

/- The exponent. -/

/-- The exponent ± m / e times e. -/
def signedNum (neg : Bool) (m : Nat) : ℤ := if neg then -(m : ℤ) else m

/-- The exact power. -/
theorem exactly_exp2 (he : 0 < e) (h : Claims.Exactly .exp2 neg m e Y) : Y = Real.exp (signedNum neg m / e * Real.log 2) := by
  obtain ⟨hY, h⟩ := h
  have he' : (e : ℝ) ≠ 0 := by exact_mod_cast he.ne'
  have hlog : e * Real.log Y = signedNum neg m * Real.log 2 := by
    cases neg with
    | true =>
      have h1 := congrArg Real.log (show Y ^ e * 2 ^ m = 1 from h)
      rw [Real.log_mul (by positivity) (by positivity), Real.log_pow, Real.log_pow, Real.log_one] at h1
      rw [signedNum, if_pos rfl]
      push_cast
      linarith
    | false =>
      have h1 := congrArg Real.log (show Y ^ e = 2 ^ m from h)
      rw [Real.log_pow, Real.log_pow] at h1
      rw [signedNum, if_neg Bool.false_ne_true]
      push_cast
      exact h1
  rw [div_mul_eq_mul_div, ← hlog, mul_div_cancel_left₀ _ he', Real.exp_log hY]

theorem exp_mul_log_two (n : ℤ) : Real.exp (n * Real.log 2) = 2 ^ n := by
  rw [mul_comm, ← Real.rpow_def_of_pos two_pos, Real.rpow_intCast]

/-- The part of a power that the fraction of the exponent gives. -/
noncomputable def exp2Rest (x : ℤ) (e : Nat) : ℝ := Real.exp (((x % e).toNat : ℝ) / e * Real.log 2)

theorem exp2_split (he : 0 < e) (x : ℤ) : Real.exp (x / e * Real.log 2) = 2 ^ (x / (e : ℤ)) * exp2Rest x e := by
  have he' : (e : ℝ) ≠ 0 := by exact_mod_cast he.ne'
  have hmod : ((x % e).toNat : ℤ) = x % e := Int.toNat_of_nonneg (Int.emod_nonneg _ (by omega))
  have hx : (x : ℝ) = ((x / (e : ℤ) : ℤ) : ℝ) * e + ((x % e).toNat : ℝ) := by
    have h := Int.mul_ediv_add_emod x e
    rw [← hmod, mul_comm] at h
    exact_mod_cast h.symm
  rw [exp2Rest, ← exp_mul_log_two, ← Real.exp_add]
  congr 1
  conv_lhs => rw [hx]
  field_simp

/- The fraction. -/

section
variable (he : 0 < e) (hx : ¬ (e : ℤ) ∣ x)
include he hx

theorem exp2Rest_bounds : 1 < exp2Rest x e ∧ exp2Rest x e < 2 := by
  have he' : (0 : ℝ) < e := by exact_mod_cast he
  have hpos : 0 < (x % e).toNat := by
    have h0 : x % e ≠ 0 := fun h => hx (Int.dvd_of_emod_eq_zero h)
    have := Int.emod_nonneg x (show (e : ℤ) ≠ 0 by omega)
    omega
  have hlt : (x % e).toNat < e := by
    have := Int.emod_lt_of_pos x (show (0 : ℤ) < e by omega)
    omega
  have hlog : 0 < Real.log 2 := Real.log_pos one_lt_two
  have h0 : 0 < ((x % e).toNat : ℝ) / e := div_pos (by exact_mod_cast hpos) he'
  have h1 : ((x % e).toNat : ℝ) / e < 1 := (div_lt_one he').mpr (by exact_mod_cast hlt)
  constructor
  · exact Real.one_lt_exp_iff.mpr (mul_pos h0 hlog)
  · calc exp2Rest x e < Real.exp (Real.log 2) := Real.exp_lt_exp.mpr (by nlinarith)
      _ = 2 := Real.exp_log two_pos

/-- The lower bound that the model takes of it. -/
def exp2Low (x : ℤ) (e : Nat) : Nat := expFixed (exp2Arg (x % e).toNat e)

/-- What the model takes instead of it. -/
noncomputable def exp2Taken (x : ℤ) (e : Nat) : ℝ := (2 * exp2Low x e + 1 : Nat) * 2 ^ (-257 : ℤ)

theorem exp2Taken_bounds : 1 < exp2Taken x e ∧ exp2Taken x e < 2 ∧ |exp2Taken x e - exp2Rest x e| ≤ 1 / 2 ^ 200 := by
  have hlt : (x % e).toNat < e := by
    have := Int.emod_lt_of_pos x (show (0 : ℤ) < e by omega)
    omega
  obtain ⟨hlow, hhigh⟩ := exp2_enclosed hlt
  have hone := one_le_expFixed (exp2Arg (x % e).toNat e)
  obtain ⟨-, hrest⟩ := exp2Rest_bounds he hx
  rw [← exp2Rest] at hlow hhigh
  rw [← exp2Low] at hlow hhigh hone
  have htaken : exp2Taken x e = (exp2Low x e + 1 / 2) / 2 ^ 256 := by
    rw [exp2Taken, zpow_neg, zpow_ofNat, pow_succ, Nat.cast_succ, Nat.cast_mul, Nat.cast_ofNat]
    field_simp
  have hone' : (2 : ℝ) ^ 256 ≤ exp2Low x e := by exact_mod_cast hone
  have htwo : (exp2Low x e : ℝ) + 1 ≤ 2 ^ 257 := by
    have h1 : (exp2Low x e : ℝ) < (2 ^ 257 : Nat) := by
      rw [Nat.cast_pow, Nat.cast_ofNat, pow_succ]
      exact hlow.trans_lt (mul_lt_mul_of_pos_left hrest (by positivity))
    have h2 : exp2Low x e + 1 ≤ 2 ^ 257 := by exact_mod_cast h1
    exact_mod_cast h2
  rw [htaken]
  generalize (exp2Low x e : ℝ) = lo at hlow hhigh hone' htwo
  generalize exp2Rest x e = E at hlow hhigh hrest
  refine ⟨?_, ?_, ?_⟩
  · rw [lt_div_iff₀ (by positivity)]
    linarith
  · rw [div_lt_iff₀ (by positivity)]
    rw [pow_succ] at htwo
    linarith
  · have hmul : |(lo + 1 / 2) / 2 ^ 256 - E| = |lo + 1 / 2 - 2 ^ 256 * E| / 2 ^ 256 := by
      rw [← abs_of_pos (show (0 : ℝ) < 2 ^ 256 by positivity), ← abs_div, abs_of_pos (show (0 : ℝ) < 2 ^ 256 by positivity)]
      congr 1
      field_simp
    rw [hmul, div_le_iff₀ (by positivity)]
    have hbound : |lo + 1 / 2 - 2 ^ 256 * E| ≤ 2 ^ 12 := by
      rw [abs_le]
      constructor <;> linarith
    exact hbound.trans (by norm_num)

end

/-- The exponent as the model clamps it. -/
def exp2Clamped (x : ℤ) (e : Nat) : ℤ := max (-3000) (min (x / (e : ℤ)) 3000)

theorem exp2Frac_eq (neg : Bool) (m e : Nat) : exp2Frac neg m e =
    ((2 * exp2Low (signedNum neg m) e + 1) * (pow2 (exp2Clamped (signedNum neg m) e)).1,
      (pow2 (exp2Clamped (signedNum neg m) e)).2 * 2 ^ 257) := by
  rw [← Nat.shiftLeft_eq]
  rfl

theorem exp2Frac_real (neg : Bool) (m e : Nat) : (((exp2Frac neg m e).1 : Nat) : ℝ) / (exp2Frac neg m e).2 =
    2 ^ exp2Clamped (signedNum neg m) e * exp2Taken (signedNum neg m) e := by
  have hd : ((pow2 (exp2Clamped (signedNum neg m) e)).2 : ℝ) ≠ 0 := by exact_mod_cast (pow2_den_pos _).ne'
  rw [exp2Frac_eq, Nat.cast_mul, Nat.cast_mul, Nat.cast_pow, pow2_num, exp2Taken, zpow_neg]
  generalize ((2 * exp2Low (signedNum neg m) e + 1 : Nat) : ℝ) = l
  generalize (2 : ℝ) ^ exp2Clamped (signedNum neg m) e = p
  norm_num
  field_simp

theorem exp2Frac_pos (neg : Bool) (m e : Nat) : 0 < (exp2Frac neg m e).1 ∧ 0 < (exp2Frac neg m e).2 := by
  rw [exp2Frac_eq]
  exact ⟨Nat.mul_pos (Nat.succ_pos _) (pow2_num_pos _), Nat.mul_pos (pow2_den_pos _) (Nat.two_pow_pos _)⟩

/- Binades. -/

/-- A number strictly inside a binade. -/
theorem pow_lt_iff {n : ℤ} {F : ℝ} (h1 : 1 < F) (h2 : F < 2) (k : ℤ) : (2 : ℝ) ^ k < 2 ^ n * F ↔ k ≤ n := by
  have hn : (0 : ℝ) < 2 ^ n := by positivity
  constructor
  · intro h
    by_contra hk
    have : (2 : ℝ) ^ (n + 1) ≤ 2 ^ k := zpow_le_zpow_right₀ one_le_two (by omega)
    rw [zpow_add_one₀ two_ne_zero] at this
    nlinarith
  · intro h
    have : (2 : ℝ) ^ k ≤ 2 ^ n := zpow_le_zpow_right₀ one_le_two h
    nlinarith

theorem lt_pow_iff {n : ℤ} {F : ℝ} (h1 : 1 < F) (h2 : F < 2) (k : ℤ) : 2 ^ n * F < (2 : ℝ) ^ k ↔ n < k := by
  have hn : (0 : ℝ) < 2 ^ n := by positivity
  constructor
  · intro h
    by_contra hk
    have : (2 : ℝ) ^ k ≤ 2 ^ n := zpow_le_zpow_right₀ one_le_two (by omega)
    nlinarith
  · intro h
    have : (2 : ℝ) ^ (n + 1) ≤ 2 ^ k := zpow_le_zpow_right₀ one_le_two (by omega)
    rw [zpow_add_one₀ two_ne_zero] at this
    nlinarith

theorem pow_ne_of_binade {n : ℤ} {F : ℝ} (h1 : 1 < F) (h2 : F < 2) (k : ℤ) : 2 ^ n * F ≠ 2 ^ k := by
  intro h
  have hlow := (pow_lt_iff (n := n) h1 h2 n).mpr le_rfl
  have hhigh := (lt_pow_iff (n := n) h1 h2 (n + 1)).mpr (by omega)
  rw [h, zpow_lt_zpow_iff_right₀ one_lt_two] at hlow hhigh
  omega

/-- The fractions that approximate a power lie as R65 says. -/
theorem near_exp2 {n : ℤ} {E F : ℝ} (hE1 : 1 < E) (h : |F - E| ≤ 1 / 2 ^ 200) :
    |2 ^ n * F - 2 ^ n * E| ≤ 2 ^ n * E / 2 ^ 200 := by
  have hn : (0 : ℝ) < 2 ^ n := by positivity
  rw [← mul_sub, abs_mul, abs_of_pos hn, mul_div_assoc]
  refine mul_le_mul_of_nonneg_left (h.trans ?_) hn.le
  gcongr

theorem near_self {o : Claims.Approx} (hY : 0 < Y) : Claims.Near o Y Y := by
  cases o with
  | rcp => exact rfl
  | rsq => exact rfl
  | exp2 =>
    refine ⟨?_, fun _ => Iff.rfl⟩
    rw [sub_self, abs_zero]
    positivity

/-- The formats outside f64 hold few and short numbers. -/
theorem narrow_format (hi : Ieee f sp) (hf : Claims.approxFmt f = true) (h64 : f ≠ .f64) : sp.m ≤ 23 ∧ sp.bias ≤ 127 := by
  have hspec := hi.spec
  simp only [Claims.approxFmt, Bool.or_eq_true, decide_eq_true_eq] at hf
  obtain ((rfl | rfl) | rfl) | rfl := hf
  · exact (h64 rfl).elim
  · cases hspec; decide
  · cases hspec; decide
  · cases hspec; decide

/-- A power of two whose exponent is no integer, as the model places it (R65, R66). -/
theorem exp2_inexact (hi : Ieee f sp) (he : 0 < e) (hx : ¬ (e : ℤ) ∣ signedNum neg m) (hf : Claims.approxFmt f = true)
    (hY : Claims.Exactly .exp2 neg m e Y) :
    Claims.ApproxResult .exp2 f sp c.sat c.ftz false Y
      (placeApprox 2 f sp c false operands (exp2Frac neg m e).1 (exp2Frac neg m e).2) := by
  obtain ⟨hE1, hE2⟩ := exp2Rest_bounds he hx
  obtain ⟨hF1, hF2, hFE⟩ := exp2Taken_bounds he hx
  obtain ⟨hn, hd⟩ := exp2Frac_pos neg m e
  have hexact := exactly_exp2 he hY
  have hfrac := exp2Frac_real neg m e
  have htaken : exp2Taken (signedNum neg m) e = (2 * exp2Low (signedNum neg m) e + 1 : Nat) * 2 ^ (-257 : ℤ) := rfl
  have hlow : 2 ^ 256 ≤ exp2Low (signedNum neg m) e := one_le_expFixed _
  rw [exp2_split he] at hexact
  rw [exp2Clamped] at hfrac
  generalize (exp2Frac neg m e).1 = p at hn hfrac ⊢
  generalize (exp2Frac neg m e).2 = q at hd hfrac ⊢
  generalize exp2Rest (signedNum neg m) e = E at hE1 hE2 hFE hexact
  generalize exp2Taken (signedNum neg m) e = F at hF1 hF2 hFE hfrac htaken
  generalize exp2Low (signedNum neg m) e = N at htaken hlow
  generalize signedNum neg m / (e : ℤ) = k at hfrac hexact
  have hpow (t : ℤ) : Y ≠ 2 ^ t := by
    rw [hexact]
    exact pow_ne_of_binade hE1 hE2 t
  have hYpos : 0 < Y := hY.1
  have hYlt (t : ℤ) : Y < 2 ^ t ↔ k < t := by rw [hexact, lt_pow_iff hE1 hE2]
  have hnear (hk : max (-3000) (min k 3000) = k) : |(p : ℝ) / q - Y| ≤ Y / 2 ^ 200 := by
    rw [hfrac, hexact, hk]
    exact near_exp2 hE1 hFE
  have hqlt (t : ℤ) : (p : ℝ) / q < 2 ^ t ↔ max (-3000) (min k 3000) < t := by rw [hfrac, lt_pow_iff hF1 hF2]
  by_cases h64 : f = .f64
  · subst h64
    rw [placeApprox, if_pos rfl]
    refine approxResult_placeApprox64 hi hn hd hYpos (fun hY => ?_) (by rw [hqlt, hYlt]; omega) hpow
      (fun h => nomatch h.1)
    rw [← not_lt, hYlt] at hY
    by_cases hk : k ≤ 3000
    · exact .inl (hnear (by omega))
    · right
      rw [← not_lt, ← not_lt, hYlt, hqlt]
      omega
  · obtain ⟨hm, hb⟩ := narrow_format hi hf h64
    have hqmin : sp.qmin = 1 - (sp.bias : ℤ) - sp.m := rfl
    obtain ⟨g, hg⟩ : ∃ g, Between sp ((p : ℝ) / q) g := by
      refine exists_between sp (by positivity) fun g => ?_
      rw [hfrac, htaken, mul_left_comm, ← zpow_add₀ two_ne_zero]
      refine val_ne_odd_units sp (.inl ?_) g
      have : 2 ^ (sp.m + 1) ≤ 2 ^ 256 := Nat.pow_le_pow_right (by omega) (by omega)
      omega
    by_cases hhigh : 3000 < k
    · refine approxResult_overflows hi h64 hn hd hg ?_ ?_ hpow (near_self hYpos)
      · rw [← hg.lt_iff, val_top, hfrac, pow_lt_iff hF1 hF2]
        omega
      · rw [val_top, ← not_lt, hYlt]
        omega
    · have hmin : Y < 2 ^ (1 - (sp.bias : ℤ)) ↔ g < 2 ^ sp.m := by
        rw [← min_normal_le_iff sp hg, hYlt, hqlt]
        omega
      by_cases hk : max (-3000) (min k 3000) = k
      · refine approxResult_placeApprox hi h64 hn hd hg hmin hpow ⟨hnear hk, fun t => ?_⟩ hg (fun h => nomatch h.1)
        rw [hfrac, hexact, hk, pow_lt_iff hE1 hE2, pow_lt_iff hF1 hF2]
      · have hone : sp.val 1 = 2 ^ sp.qmin := by simpa using val_subnormal_pow sp (Nat.zero_le sp.m)
        have hg0 : g = 0 := by
          rw [← Nat.lt_one_iff, ← hg.lt_val_iff, hone, hqlt]
          omega
        have hYg : Between sp Y g := by
          rw [hg0]
          refine ⟨by rw [val_zero]; exact hYpos, ?_⟩
          rw [zero_add, hone, hYlt]
          omega
        exact approxResult_placeApprox hi h64 hn hd hg hmin hpow (near_self hYpos) hYg (fun h => nomatch h.1)

end Sys2Proof.Machine
end

