-- ==== Sys2Proof/Proofs/Approximations.lean ====
section
/-!
`VFRCP`, `VFRSQ` and `VFEXP2` (R65, R66, R355): the result of an element, by the kind of its operand.
-/

namespace Sys2Proof.Machine

set_option Elab.async false

variable {f : Fmt} {sp sa : FloatSpec} {m e g : Nat} {neg : Bool} {Y : ℝ} {c : Descr} {operands : List Nat}

/- Reciprocals and reciprocal square roots. -/

/-- A root stands far above the subnormals of f64. -/
theorem rsq_large (ho : Operand m e) (hY0 : 0 < Y) (hY : Y ^ 2 * m = e) : (2 : ℝ) ^ (-1021 : ℤ) ≤ Y := by
  have he : (1 : ℝ) ≤ e := by exact_mod_cast ho.den_pos
  have hm : (m : ℝ) ≤ 2 ^ (1025 : ℤ) := by
    rw [zpow_ofNat]
    exact_mod_cast ho.num.le
  by_contra hlt
  rw [not_le] at hlt
  have hsq : Y ^ 2 ≤ 2 ^ (-2042 : ℤ) := by
    calc Y ^ 2 ≤ ((2 : ℝ) ^ (-1021 : ℤ)) ^ 2 := pow_le_pow_left₀ hY0.le hlt.le 2
      _ = 2 ^ (-2042 : ℤ) := by rw [← zpow_natCast, ← zpow_mul]; rfl
  have hprod : (e : ℝ) ≤ 2 ^ (-1017 : ℤ) := by
    calc (e : ℝ) = Y ^ 2 * m := hY.symm
      _ ≤ 2 ^ (-2042 : ℤ) * 2 ^ (1025 : ℤ) := by gcongr
      _ = 2 ^ (-1017 : ℤ) := by rw [← zpow_add₀ two_ne_zero]; rfl
  have hone : (2 : ℝ) ^ (-1017 : ℤ) < 2 ^ (0 : ℤ) := zpow_lt_zpow_right₀ one_lt_two (by omega)
  rw [zpow_zero] at hone
  exact absurd (he.trans hprod) (not_le.mpr hone)

theorem rsqrtFrac_pos (ho : Operand m e) : 0 < (rsqrtFrac m e).1 ∧ 0 < (rsqrtFrac m e).2 := by
  rw [rsqrtFrac_eq ho]
  exact ⟨Nat.succ_pos _, Nat.mul_pos ho.pos (Nat.two_pow_pos _)⟩

section
variable (hi : Ieee f sp) (hf : Claims.approxFmt f = true) (ho : Operand m e) (hY0 : 0 < Y)
include hi hf ho hY0

/-- A reciprocal (R65, R66). -/
theorem rcpOf_result (hY : Y * m = e) :
    Claims.ApproxResult .rcp f sp c.sat c.ftz neg Y (rcpOf f sp c operands (.num neg m e)) := by
  have hm := ho.pos
  have he := ho.den_pos
  have hmr : (0 : ℝ) < m := by exact_mod_cast hm
  have her : (0 : ℝ) < e := by exact_mod_cast he
  have hfrac : (e : ℝ) / m = Y := by rw [div_eq_iff hmr.ne', hY]
  have hlog : log2Frac e m < 1 - (sp.bias : ℤ) ↔ Y < 2 ^ (1 - (sp.bias : ℤ)) := by rw [log2Frac_lt_iff he hm, hfrac]
  rw [rcpOf, if_neg hm.ne']
  by_cases hsmall : Y < 2 ^ (1 - (sp.bias : ℤ))
  · rw [if_pos (hlog.mpr hsmall), withSign_eq hi neg (Nat.zero_le _)]
    unfold Claims.ApproxResult
    dsimp only
    rw [if_pos ⟨rfl, hsmall⟩]
  · rw [if_neg fun h => hsmall (hlog.mp h)]
    cases ht : powerOfTwo m e with
    | some t =>
      rw [powerOfTwo_eq_some hm he] at ht
      have hYt : Y = 2 ^ (-t) := by rw [← hfrac, ← inv_div, ht, zpow_neg]
      rw [hYt] at hsmall ⊢
      exact approxResult_placePow hi fun h => hsmall h.2
    | none =>
      have hpow (k : ℤ) : Y ≠ 2 ^ k := by
        intro hk
        have hsome : powerOfTwo m e = some (-k) := by
          rw [powerOfTwo_eq_some hm he, ← inv_div, hfrac, hk, zpow_neg]
        rw [ht] at hsome
        cases hsome
      by_cases h64 : f = .f64
      · subst h64
        dsimp only
        rw [placeApprox, if_pos rfl]
        refine approxResult_placeApprox64 hi he hm hY0 (fun _ => .inl ?_) (by rw [hfrac]) hpow fun h => hsmall h.2
        rw [hfrac, sub_self, abs_zero]
        positivity
      · obtain ⟨g, hg⟩ := exists_between sp hY0 (rcp_ne_val hi ho hY hpow)
        exact approxResult_placeApprox hi h64 he hm (by rw [hfrac]; exact hg) (min_normal_le_iff sp hg) hpow rfl hg
          fun h => hsmall h.2

/-- A reciprocal square root that is no power of two (R65, R66). -/
theorem rsq_inexact (hY : Y ^ 2 * m = e) (hpow : ∀ k : ℤ, Y ≠ 2 ^ k) : Claims.ApproxResult .rsq f sp c.sat c.ftz false Y
    (placeApprox 1 f sp c false operands (rsqrtFrac m e).1 (rsqrtFrac m e).2) := by
  obtain ⟨hn, hd⟩ := rsqrtFrac_pos ho
  by_cases h64 : f = .f64
  · subst h64
    have hlarge := rsq_large ho hY0 hY
    have hclose := rsq_close ho hY0 hY
    have hdouble : (2 : ℝ) ^ (-1021 : ℤ) = 2 ^ (-1022 : ℤ) * 2 := zpow_add_one₀ two_ne_zero (-1022)
    have hp : (0 : ℝ) < 2 ^ (-1022 : ℤ) := by positivity
    have hfar : ¬ Y < 2 ^ (-1022 : ℤ) ∧ ¬ ((rsqrtFrac m e).1 : ℝ) / (rsqrtFrac m e).2 < 2 ^ (-1022 : ℤ) := by
      have hhalf : Y / 2 ^ 200 ≤ Y / 2 := by gcongr; norm_num
      rw [abs_le] at hclose
      rw [hdouble] at hlarge
      generalize (2 : ℝ) ^ (-1022 : ℤ) = P at hlarge hp ⊢
      constructor <;> linarith
    rw [placeApprox, if_pos rfl]
    exact approxResult_placeApprox64 hi hn hd hY0 (fun _ => .inl hclose) (iff_of_false hfar.2 hfar.1) hpow fun h => nomatch h.1
  · obtain ⟨hm23, hb127⟩ := narrow_format hi hf h64
    obtain ⟨g, hg, hYg⟩ := rsq_between ho hY0 hY hi (by rw [FloatSpec.qmin]; omega) hpow
    exact approxResult_placeApprox hi h64 hn hd hg (min_normal_le_iff sp hYg) hpow rfl hYg fun h => nomatch h.1

/-- A reciprocal square root (R65, R66). -/
theorem rsqOf_result (hY : Y ^ 2 * m = e) :
    Claims.ApproxResult .rsq f sp c.sat c.ftz false Y (rsqOf f sp c operands (.num false m e)) := by
  have hm := ho.pos
  have he := ho.den_pos
  have hmr : (0 : ℝ) < m := by exact_mod_cast hm
  have her : (0 : ℝ) < e := by exact_mod_cast he
  have hfrac : Y ^ 2 = ((m : ℝ) / e)⁻¹ := by rw [inv_div, eq_div_iff hmr.ne', hY]
  have hsquare {k t : ℤ} (hk : Y = 2 ^ k) (ht : (m : ℝ) / e = 2 ^ t) : 2 * k = -t := by
    rw [hk, ht, ← zpow_neg, ← zpow_natCast, ← zpow_mul] at hfrac
    have := zpow_right_injective₀ two_pos (by norm_num) hfrac
    push_cast at this
    omega
  rw [rsqOf]
  dsimp only
  rw [if_neg hm.ne', if_neg Bool.false_ne_true]
  cases ht : powerOfTwo m e with
  | some t =>
    rw [powerOfTwo_eq_some hm he] at ht
    dsimp only
    by_cases heven : t % 2 = 0
    · have hYt : Y = 2 ^ (-(t / 2)) := by
        refine (sq_eq_sq₀ hY0.le (by positivity)).mp ?_
        rw [hfrac, ht, ← zpow_neg, ← zpow_natCast, ← zpow_mul]
        congr 1
        push_cast
        omega
      rw [if_pos heven, hYt]
      exact approxResult_placePow hi fun h => nomatch h.1
    · rw [if_neg heven]
      exact rsq_inexact hi hf ho hY0 hY fun k hk => by have := hsquare hk ht; omega
  | none =>
    refine rsq_inexact hi hf ho hY0 hY fun k hk => ?_
    have hsome : powerOfTwo m e = some (-(2 * k)) := by
      rw [powerOfTwo_eq_some hm he, ← inv_inv ((m : ℝ) / e), ← hfrac, hk, zpow_neg, ← zpow_natCast, ← zpow_mul]
      congr 2
      push_cast
      omega
    rw [ht] at hsome
    cases hsome

end

/-- A power of two (R65, R66). -/
theorem exp2Of_result (hi : Ieee f sp) (hf : Claims.approxFmt f = true) (ho : Operand m e) (hY : Claims.Exactly .exp2 neg m e Y) :
    Claims.ApproxResult .exp2 f sp c.sat c.ftz false Y (exp2Of f sp c operands false (.num neg m e)) := by
  have he := ho.den_pos
  have hexact := exactly_exp2 he hY
  rw [exp2Of]
  dsimp only
  rw [if_neg ho.pos.ne', if_neg Bool.false_ne_true]
  have hdvd : (e : ℤ) ∣ signedNum neg m ↔ m % e = 0 := by
    rw [signedNum, ← Nat.dvd_iff_mod_eq_zero]
    cases neg
    · rw [if_neg Bool.false_ne_true, Int.natCast_dvd_natCast]
    · rw [if_pos rfl, Int.dvd_neg, Int.natCast_dvd_natCast]
  by_cases hint : m % e = 0
  · rw [if_pos hint]
    have hYn : Y = 2 ^ (if neg = true then -((m / e : Nat) : ℤ) else ((m / e : Nat) : ℤ)) := by
      have hme : m = m / e * e := (Nat.div_mul_cancel (Nat.dvd_of_mod_eq_zero hint)).symm
      have her : (e : ℝ) ≠ 0 := by exact_mod_cast he.ne'
      have hcast : (signedNum neg m : ℝ) / e = ((if neg = true then -((m / e : Nat) : ℤ) else ((m / e : Nat) : ℤ) : ℤ) : ℝ) := by
        rw [div_eq_iff her, signedNum]
        conv_lhs => rw [hme]
        cases neg <;> simp
      rw [hexact, hcast, exp_mul_log_two]
    rw [hYn]
    exact approxResult_placePow hi fun h => nomatch h.1
  · rw [if_neg hint]
    exact exp2_inexact hi he (fun h => hint (hdvd.mp h)) hf hY

/- The result of an element. -/

/-- The descriptor of an approximation as far as it matters. -/
def approxDescr (sat ftz : Bool) : Descr :=
  { raw := 0, fa := 0, fb := 0, fc := 0, fd := 0, rnd := 0, sat := sat, ftz := ftz, asc := false, bsc := false, dsc := false }

/-- What an approximation makes of an operand. -/
def approxOfVal (o : Claims.Approx) (fd : Fmt) (sp : FloatSpec) (c : Descr) (operands : List Nat) (subnormal : Bool) (v : Val) :
    Nat × Flags :=
  match o with
  | .rcp => rcpOf fd sp c operands v
  | .rsq => rsqOf fd sp c operands v
  | .exp2 => exp2Of fd sp c operands subnormal v

theorem approxOfVal_congr {c' : Descr} (hsat : c.sat = c'.sat) (hftz : c.ftz = c'.ftz) (o : Claims.Approx) (fd : Fmt)
    (operands : List Nat) (subnormal : Bool) (v : Val) :
    approxOfVal o fd sp c operands subnormal v = approxOfVal o fd sp c' operands subnormal v := by
  have hpow (neg : Bool) (t : ℤ) : placePow fd sp c neg t = placePow fd sp c' neg t := by
    unfold placePow
    rw [hsat, hftz]
  have happrox (op : Nat) (neg : Bool) (n d : Nat) : placeApprox op fd sp c neg operands n d = placeApprox op fd sp c' neg operands n d := by
    unfold placeApprox
    rw [hsat, hftz]
  cases o with
  | rcp => simp only [approxOfVal, rcpOf, hpow, happrox]
  | rsq => simp only [approxOfVal, rsqOf, hpow, happrox]
  | exp2 => simp only [approxOfVal, exp2Of, hpow, happrox]

/-- The result of an approximation (R65). -/
def approxElement (o : Claims.Approx) (fa fd : Fmt) (sat ftz : Bool) (x : Nat) : Nat × Flags :=
  match fa.spec, fd.spec with
  | some sa, some sp => approxOfVal o fd sp (approxDescr sat ftz) [fa.code, x] (subnormalBits sa fa.width x) (decodeVal fa ftz x)
  | _, _ => (0, flNone)

theorem placePow_one (hi : Ieee f sp) : placePow f sp c false 0 = (sp.bias * 2 ^ sp.m, flNone) := by
  obtain ⟨hb1, -⟩ := hi.bias
  obtain ⟨g, -, hval, hres⟩ := placePow_exact (c := c) (neg := false) hi (e := 0) (by omega) (.inl (by omega))
  have hone := val_pow sp hb1
  rw [sub_self, ← hval] at hone
  rw [hres, ← (val_strictMono sp).injective hone]
  rfl

theorem infResult_eq (hi : Ieee f sp) (neg : Bool) : infResult sp f.width neg = Claims.signed f neg (sp.inf.getD 0) := by
  rw [infResult, hi.inf]
  exact withSign_eq hi neg le_rfl

/-- Subnormal bits (R62). -/
theorem subnormalBits_iff (hi : Ieee f sp) {x : Nat} : subnormalBits sp f.width x = true ↔
    x / 2 ^ sp.m % 2 ^ (f.width - 1 - sp.m) = 0 ∧ x % 2 ^ sp.m ≠ 0 := by
  have hp := Nat.two_pow_pos sp.m
  have hle : sp.m ≤ f.width - 1 := by
    rw [← Nat.pow_le_pow_iff_right (a := 2) (by omega), ← one_shiftLeft (f.width - 1), hi.width]
    exact Nat.le_mul_of_pos_left _ (by omega)
  have hsplit : x % 2 ^ (f.width - 1) = x % 2 ^ sp.m + 2 ^ sp.m * (x / 2 ^ sp.m % 2 ^ (f.width - 1 - sp.m)) := by
    rw [← Nat.mod_mul, ← pow_add, Nat.add_sub_cancel' hle]
  have hmod := Nat.mod_lt x hp
  rw [subnormalBits, one_shiftLeft, one_shiftLeft, hsplit]
  generalize x % 2 ^ sp.m = r at hmod ⊢
  generalize x / 2 ^ sp.m % 2 ^ (f.width - 1 - sp.m) = t
  simp only [Bool.and_eq_true, bne_iff_ne, ne_eq, decide_eq_true_eq]
  constructor
  · rintro ⟨hne, hlt⟩
    have ht : t = 0 := by
      by_contra h0
      have := Nat.le_mul_of_pos_right (2 ^ sp.m) (Nat.pos_of_ne_zero h0)
      omega
    exact ⟨ht, by simpa [ht] using hne⟩
  · rintro ⟨rfl, hne⟩
    exact ⟨by omega, by omega⟩

/-- The result of an approximation is one that R65 and R66 allow. -/
theorem approxElement_approximates {o : Claims.Approx} {fa fd : Fmt} {sat ftz : Bool} {x : Nat} (ha : Claims.approxFmt fa = true)
    (hd : Claims.approxFmt fd = true) : Claims.Approximates o fa fd sat ftz x (approxElement o fa fd sat ftz x) := by
  obtain ⟨sa, hia⟩ := ieee_of_approxFmt ha
  obtain ⟨sp, hid⟩ := ieee_of_approxFmt hd
  intro sa' sp' hsa hsp
  obtain rfl : sa = sa' := Option.some.inj (hia.spec.symm.trans hsa)
  obtain rfl : sp = sp' := Option.some.inj (hid.spec.symm.trans hsp)
  rw [approxElement, hia.spec, hid.spec]
  dsimp only
  cases hv : decodeVal fa ftz x with
  | nan sig => cases o <;> rfl
  | inf neg =>
    cases o with
    | rcp => exact Prod.ext (withSign_eq hid neg (Nat.zero_le _)) rfl
    | rsq => cases neg <;> rfl
    | exp2 =>
      cases neg
      · exact Prod.ext (infResult_eq hid false) rfl
      · rfl
  | num neg m e =>
    dsimp only
    by_cases hm : m = 0
    · subst hm
      rw [if_pos rfl]
      cases o with
      | rcp => exact Prod.ext (infResult_eq hid neg) rfl
      | rsq => exact Prod.ext (infResult_eq hid neg) rfl
      | exp2 => exact placePow_one hid
    · have ho := operand_of_decodeVal hia hv hm
      rw [if_neg hm]
      cases o with
      | rcp => exact fun Y hY => rcpOf_result hid hd ho hY.1 hY.2
      | rsq =>
        cases neg with
        | true => exact if_neg hm
        | false => exact fun Y hY => rsqOf_result hid hd ho hY.1 hY.2
      | exp2 =>
        rw [if_neg fun h => nomatch h.1]
        cases hsub : subnormalBits sa fa.width x with
        | true =>
          rw [if_pos ⟨rfl, (subnormalBits_iff hia).mp hsub⟩]
          have hone : exp2Of fd sp (approxDescr sat ftz) [fa.code, x] true (.num neg m e) =
              ((placePow fd sp (approxDescr sat ftz) false 0).1, flNX) := by
            rw [exp2Of, if_neg hm, if_pos rfl]
          exact hone.trans (by rw [placePow_one hid])
        | false =>
          rw [if_neg fun h => by simp [(subnormalBits_iff hia).mpr h.2] at hsub]
          exact fun Y hY => exp2Of_result hid hd ho hY

/- The instructions. -/

variable {s : State}

/-- An approximation writes its results into the active elements (R355). -/
theorem approxOp_written {o : Claims.Approx} {k : Blk} {vd va : VIx} {i : Instr} {F : Claims.Form Nat VIx}
    (hF : F = { k := k, dest := vd, codes := [(s.hart.descr k).fa, (s.hart.descr k).fd]
                accepts := fun fs => fs.all Claims.approxFmt && !(s.hart.descr k).asc && !(s.hart.descr k).dsc
                result := fun fs _ e => approxElement o (fs.getD 0 Fmt.s8) (fs.getD 1 Fmt.s8) (s.hart.descr k).sat
                  (s.hart.descr k).ftz (s.hart.bitsAt va e (fs.getD 0 Fmt.s8)) })
    (hexec : exec i s = approxOp (approxOfVal o) k vd va s) : Claims.Writes s i F := by
  subst hF
  intro fs fd hd hfd hc
  obtain ⟨hl, hn⟩ := dispatched_dest hd rfl hfd
  obtain ⟨fa, f, rfl⟩ := formats_two hd.known
  cases hfd
  have hbody (e : Nat) : (match fa.spec, f.spec with
      | some sa, some sp => approxOfVal o f sp (s.hart.descr k) [fa.code, s.hart.bitsAt va e fa]
          (subnormalBits sa fa.width (s.hart.bitsAt va e fa)) (decodeVal fa (s.hart.descr k).ftz (s.hart.bitsAt va e fa))
      | _, _ => (0, flNone)) = approxElement o fa f (s.hart.descr k).sat (s.hart.descr k).ftz (s.hart.bitsAt va e fa) := by
    rw [approxElement]
    split
    · exact approxOfVal_congr rfl rfl ..
    · rfl
  obtain ⟨t, ht, hw⟩ := writeElems_written (k := k) (d := s.draw)
    (body := fun e => approxElement o fa f (s.hart.descr k).sat (s.hart.descr k).ftz (s.hart.bitsAt va e fa)) hc hl hn
  refine ⟨t, hexec.trans ((withFormats_runs hd rfl rfl rfl rfl).trans (Eq.trans ?_ ht)), hw⟩
  exact congrArg (writeElems s k vd f _) (funext hbody)

/-- Settles O7: each approximation writes what `approxElement` gives. -/
theorem approximationsWriteElements : Obligations.ApproximationsWriteElements := by
  refine ⟨approxElement, fun op fa fd sat ftz x ha hd _ => approxElement_approximates ha hd, fun s i F hF => ?_⟩
  unfold Claims.approxForm at hF
  cases i with
  | vfrcp k vd va => exact approxOp_written (o := .rcp) (Option.some.inj hF).symm rfl
  | vfrsq k vd va => exact approxOp_written (o := .rsq) (Option.some.inj hF).symm rfl
  | vfexp2 k vd va => exact approxOp_written (o := .exp2) (Option.some.inj hF).symm rfl
  | _ => cases hF

end Sys2Proof.Machine
end

