-- ==== Sys2Proof/Proofs/RotationSeries.lean ====
section
/-!
Rotations (R376): what the fixed-point series of the model enclose, in units of 2^-640.
-/

namespace Sys2Proof.Machine

set_option Elab.async false

variable {x y : Nat} {z : ℝ}

/- The circle. -/

/-- A term of the series of arctan (1 / x), cut. -/
def arctanTerm (x k : Nat) : ℤ := (-1) ^ k * ((2 ^ ropeBits / (x ^ (2 * k + 1)) / (2 * k + 1) : Nat) : ℤ)

theorem arctanInv_eq (x : Nat) : arctanInv x = ∑ k ∈ Finset.range 150, arctanTerm x k := by
  have hfold (n : Nat) : (List.range n).foldl (fun (acc : ℤ × Nat) k =>
      (if k % 2 = 0 then acc.1 + ((acc.2 / (2 * k + 1) : Nat) : ℤ) else acc.1 - ((acc.2 / (2 * k + 1) : Nat) : ℤ),
        acc.2 / (x * x))) (0, (1 <<< ropeBits) / x) =
      (∑ k ∈ Finset.range n, arctanTerm x k, 2 ^ ropeBits / x ^ (2 * n + 1)) := by
    induction n with
    | zero => rw [one_shiftLeft, Finset.sum_range_zero, mul_zero, zero_add, pow_one]; exact List.foldl_nil ..
    | succ n ih =>
      rw [List.range_succ, List.foldl_append, ih, Finset.sum_range_succ, List.foldl_cons, List.foldl_nil]
      refine Prod.ext ?_ ?_
      · dsimp only
        obtain h | h := Nat.even_or_odd n
        · rw [if_pos (Nat.even_iff.mp h), arctanTerm, h.neg_one_pow, one_mul]
        · rw [if_neg (by rw [Nat.odd_iff.mp h]; decide), arctanTerm, h.neg_one_pow]
          ring
      · dsimp only
        rw [Nat.div_div_eq_div_mul, ← sq, ← pow_add, show 2 * n + 1 + 2 = 2 * (n + 1) + 1 by ring]
  simp only [arctanInv]
  rw [hfold 150]

/-- The arctangent is known to within 2^8 units. -/
theorem arctanInv_close (hx : 5 ≤ x) : |(arctanInv x : ℝ) - 2 ^ 640 * Real.arctan (x : ℝ)⁻¹| ≤ 2 ^ 8 := by
  have hx' : (5 : ℝ) ≤ x := by exact_mod_cast hx
  have hinv : (x : ℝ)⁻¹ ≤ 1 / 5 := by rw [inv_le_comm₀ (by linarith) (by norm_num)]; linarith
  have hinv0 : 0 ≤ (x : ℝ)⁻¹ := by positivity
  have hsum := Real.hasSum_arctan (x := (x : ℝ)⁻¹) (by rw [Real.norm_of_nonneg hinv0]; linarith)
  have htail : |Real.arctan (x : ℝ)⁻¹ - ∑ k ∈ Finset.range 150, (-1 : ℝ) ^ k * (x : ℝ)⁻¹ ^ (2 * k + 1) / ((2 * k + 1 : Nat) : ℝ)| ≤
      (1 / 5) ^ 301 * (1 - 1 / 5)⁻¹ := by
    rw [← ((hasSum_nat_add_iff' 150).mpr hsum).tsum_eq, ← Real.norm_eq_abs]
    have hgeometric : HasSum (fun k : Nat => (1 / 5 : ℝ) ^ 301 * (1 / 5) ^ k) ((1 / 5) ^ 301 * (1 - 1 / 5)⁻¹) :=
      (hasSum_geometric_of_lt_one (by norm_num) (by norm_num)).mul_left _
    refine tsum_of_norm_bounded hgeometric fun k => ?_
    rw [norm_div, norm_mul, norm_pow, norm_neg, norm_one, one_pow, one_mul, Real.norm_natCast, ← pow_add,
      Real.norm_of_nonneg (by positivity)]
    refine (div_le_self (by positivity) (by norm_cast; omega)).trans ?_
    calc (x : ℝ)⁻¹ ^ (2 * (k + 150) + 1) ≤ (1 / 5) ^ (2 * (k + 150) + 1) := by gcongr
      _ ≤ (1 / 5) ^ (301 + k) := pow_le_pow_of_le_one (by norm_num) (by norm_num) (by omega)
  have hsmall : (2 : ℝ) ^ 640 * ((1 / 5) ^ 301 * (1 - 1 / 5)⁻¹) ≤ 1 := by
    have h5 : ((2 : ℝ) ^ 16) ^ 43 ≤ (5 ^ 7) ^ 43 := pow_le_pow_left₀ (by norm_num) (by norm_num) 43
    rw [← pow_mul, ← pow_mul] at h5
    rw [one_div, inv_pow, ← div_eq_inv_mul, mul_div_assoc', div_le_one (by positivity)]
    refine le_trans ?_ h5
    rw [show (2 : ℝ) ^ (16 * 43) = 2 ^ 640 * 2 ^ 48 by rw [← pow_add]]
    gcongr
    norm_num
  have hterm (k : Nat) : |(arctanTerm x k : ℝ) - 2 ^ 640 * ((-1 : ℝ) ^ k * (x : ℝ)⁻¹ ^ (2 * k + 1) / ((2 * k + 1 : Nat) : ℝ))| ≤ 1 := by
    have hcut := cast_div_le (2 ^ 640) (x ^ (2 * k + 1) * (2 * k + 1))
    have hcut' := lt_cast_div_add_one (2 ^ 640) (x ^ (2 * k + 1) * (2 * k + 1))
    have hexact : 2 ^ 640 * ((-1 : ℝ) ^ k * (x : ℝ)⁻¹ ^ (2 * k + 1) / ((2 * k + 1 : Nat) : ℝ)) =
        (-1) ^ k * (((2 ^ 640 : Nat) : ℝ) / ((x ^ (2 * k + 1) * (2 * k + 1) : Nat) : ℝ)) := by
      rw [Nat.cast_mul, Nat.cast_pow, Nat.cast_pow, Nat.cast_ofNat, inv_pow]
      field_simp
    rw [hexact, arctanTerm, Nat.div_div_eq_div_mul, ropeBits, Int.cast_mul, Int.cast_pow, Int.cast_neg, Int.cast_one,
      Int.cast_natCast, ← mul_sub, abs_mul, abs_neg_one_pow, one_mul, abs_le]
    constructor <;> linarith
  have hcut : |((∑ k ∈ Finset.range 150, arctanTerm x k : ℤ) : ℝ) -
      2 ^ 640 * ∑ k ∈ Finset.range 150, (-1 : ℝ) ^ k * (x : ℝ)⁻¹ ^ (2 * k + 1) / ((2 * k + 1 : Nat) : ℝ)| ≤ 150 := by
    rw [Int.cast_sum, Finset.mul_sum, ← Finset.sum_sub_distrib]
    refine (Finset.abs_sum_le_sum_abs _ _).trans ((Finset.sum_le_sum fun k _ => hterm k).trans ?_)
    norm_num
  rw [arctanInv_eq]
  generalize ((∑ k ∈ Finset.range 150, arctanTerm x k : ℤ) : ℝ) = A at hcut ⊢
  generalize (∑ k ∈ Finset.range 150, (-1 : ℝ) ^ k * (x : ℝ)⁻¹ ^ (2 * k + 1) / ((2 * k + 1 : Nat) : ℝ)) = S at htail hcut
  generalize Real.arctan (x : ℝ)⁻¹ = T at htail ⊢
  generalize (1 / 5 : ℝ) ^ 301 * (1 - 1 / 5)⁻¹ = r at htail hsmall
  have hU : (0 : ℝ) < 2 ^ 640 := by positivity
  generalize (2 : ℝ) ^ 640 = U at hsmall hcut hU ⊢
  have hscaled : |U * T - U * S| ≤ 1 := by
    rw [← mul_sub, abs_mul, abs_of_pos hU]
    exact (mul_le_mul_of_nonneg_left htail hU.le).trans hsmall
  rw [abs_le] at *
  obtain ⟨h1, h2⟩ := hcut
  obtain ⟨h3, h4⟩ := hscaled
  constructor <;> linarith

/-- 2π is known to within 2^14 units. -/
theorem twoPiFixed_close : |(twoPiFixed : ℝ) - 2 ^ 640 * (2 * Real.pi)| ≤ 2 ^ 14 := by
  have h5 := arctanInv_close (x := 5) le_rfl
  have h239 := arctanInv_close (x := 239) (by omega)
  have hpi : 2 * Real.pi = 32 * Real.arctan ((5 : Nat) : ℝ)⁻¹ - 8 * Real.arctan ((239 : Nat) : ℝ)⁻¹ := by
    have := Real.four_mul_arctan_inv_5_sub_arctan_inv_239
    push_cast
    linarith
  rw [hpi, twoPiFixed]
  push_cast
  push_cast at h5 h239
  generalize Real.arctan (5 : ℝ)⁻¹ = a at h5 ⊢
  generalize Real.arctan (239 : ℝ)⁻¹ = b at h239 ⊢
  generalize (arctanInv 5 : ℝ) = A at h5 ⊢
  generalize (arctanInv 239 : ℝ) = B at h239 ⊢
  rw [abs_le] at h5 h239 ⊢
  obtain ⟨h1, h2⟩ := h5
  obtain ⟨h3, h4⟩ := h239
  generalize (2 : ℝ) ^ 640 = U at *
  norm_num at *
  constructor <;> linarith

/- Cosines and sines. -/

/-- A term of the series of exp in units of 2^-640, cut. -/
def circleTerm (y : Nat) : Nat → Nat
  | 0 => 2 ^ ropeBits
  | k + 1 => circleTerm y k * y / 2 ^ ropeBits / (k + 1)

/-- The step of `cosSinFixed`. -/
def circleStep (y : ℤ) (acc : ℤ × ℤ × ℤ) (k : Nat) : ℤ × ℤ × ℤ :=
  let t := acc.1
  let c := if k % 4 = 0 then acc.2.1 + t else if k % 4 = 2 then acc.2.1 - t else acc.2.1
  let n := if k % 4 = 1 then acc.2.2 + t else if k % 4 = 3 then acc.2.2 - t else acc.2.2
  ((t * y / ((1 <<< ropeBits : Nat) : ℤ)) / ((k : ℤ) + 1), c, n)

theorem circleStep_fst (y k : Nat) (c n : ℤ) : (circleStep y (circleTerm y k, c, n) k).1 = circleTerm y (k + 1) := by
  rw [circleStep, circleTerm, one_shiftLeft]
  push_cast
  rfl

theorem circleStep_snd (y : ℤ) (t c n : ℤ) (k : Nat) :
    ((circleStep y (t, c, n) k).2.1 : ℂ) + (circleStep y (t, c, n) k).2.2 * Complex.I = c + n * Complex.I + t * Complex.I ^ k := by
  rw [Complex.I_pow_eq_pow_mod]
  have hlt := Nat.mod_lt k (show 4 > 0 by omega)
  rw [circleStep]
  generalize k % 4 = j at hlt ⊢
  interval_cases j
  · push_cast; ring
  · push_cast; ring
  · push_cast; rw [Complex.I_sq]; ring
  · push_cast; rw [Complex.I_pow_three]; ring

theorem cosSinFixed_eq (y : Nat) : ((cosSinFixed y).1 : ℂ) + (cosSinFixed y).2 * Complex.I =
    ∑ k ∈ Finset.range 200, (circleTerm y k : ℂ) * Complex.I ^ k := by
  have hfold (n : Nat) : ∃ c s : ℤ, (List.range n).foldl (circleStep y) (((1 <<< ropeBits : Nat) : ℤ), 0, 0) = (↑(circleTerm y n), c, s) ∧
      (c : ℂ) + s * Complex.I = ∑ k ∈ Finset.range n, (circleTerm y k : ℂ) * Complex.I ^ k := by
    induction n with
    | zero => exact ⟨0, 0, by rw [one_shiftLeft, circleTerm]; exact List.foldl_nil .., by simp⟩
    | succ n ih =>
      obtain ⟨c, s, hcs, hsum⟩ := ih
      refine ⟨(circleStep y (↑(circleTerm y n), c, s) n).2.1, (circleStep y (↑(circleTerm y n), c, s) n).2.2, ?_, ?_⟩
      · rw [List.range_succ, List.foldl_append, hcs, ← circleStep_fst y n c s]
        exact List.foldl_cons ..
      · rw [circleStep_snd, hsum, Finset.sum_range_succ]
        norm_cast
  obtain ⟨c, s, hcs, hsum⟩ := hfold 200
  have hfixed : cosSinFixed y = (c, s) := by
    rw [cosSinFixed]
    exact congrArg Prod.snd hcs
  rw [hfixed, hsum]

/-- The terms are cut by less than 2^21 units. -/
theorem circleTerm_close (hy : (y : ℝ) / 2 ^ 640 ≤ 7) (k : Nat) :
    |(circleTerm y k : ℝ) - 2 ^ 640 * (((y : ℝ) / 2 ^ 640) ^ k / (k.factorial : ℝ))| ≤ 8 ^ min k 7 := by
  induction k with
  | zero =>
    rw [circleTerm, ropeBits, Nat.cast_pow, Nat.cast_ofNat, pow_zero, Nat.factorial_zero, Nat.cast_one, div_one, mul_one, sub_self,
      abs_zero]
    positivity
  | succ k ih =>
    have hterm : circleTerm y (k + 1) = circleTerm y k * y / (2 ^ 640 * (k + 1)) := by
      rw [circleTerm, Nat.div_div_eq_div_mul, ropeBits]
    have hexact : (((circleTerm y k * y : Nat) : ℝ)) / ((2 ^ 640 * (k + 1) : Nat) : ℝ) =
        circleTerm y k * ((y : ℝ) / 2 ^ 640 / (k + 1)) := by
      rw [Nat.cast_mul, Nat.cast_mul, Nat.cast_pow, Nat.cast_ofNat, Nat.cast_succ]
      field_simp
    have hnext : 2 ^ 640 * (((y : ℝ) / 2 ^ 640) ^ (k + 1) / ((k + 1).factorial : ℝ)) =
        2 ^ 640 * (((y : ℝ) / 2 ^ 640) ^ k / (k.factorial : ℝ)) * ((y : ℝ) / 2 ^ 640 / (k + 1)) := by
      generalize (y : ℝ) / 2 ^ 640 = z
      generalize (2 : ℝ) ^ 640 = U
      rw [Nat.factorial_succ, Nat.cast_mul, Nat.cast_succ, pow_succ]
      field_simp
    have hlow := cast_div_le (circleTerm y k * y) (2 ^ 640 * (k + 1))
    have hhigh := lt_cast_div_add_one (circleTerm y k * y) (2 ^ 640 * (k + 1))
    have hnonneg : 0 ≤ (y : ℝ) / 2 ^ 640 / (k + 1) := by positivity
    have hfactor : (y : ℝ) / 2 ^ 640 / (k + 1) * (k + 1) ≤ 7 := by
      rw [div_mul_cancel₀ _ (by positivity)]
      exact hy
    rw [hexact] at hlow hhigh
    rw [hterm, hnext]
    generalize (y : ℝ) / 2 ^ 640 / (k + 1) = w at hlow hhigh hfactor hnonneg ⊢
    generalize (2 : ℝ) ^ 640 * (((y : ℝ) / 2 ^ 640) ^ k / (k.factorial : ℝ)) = T at ih ⊢
    have hgrow : (8 : ℝ) ^ min k 7 * w + 1 ≤ 8 ^ min (k + 1) 7 := by
      by_cases hk : k < 7
      · rw [min_eq_left hk.le, min_eq_left hk, pow_succ]
        have h8 : (1 : ℝ) ≤ 8 ^ k := one_le_pow₀ (by norm_num)
        have hw : w ≤ 7 := by nlinarith [Nat.cast_nonneg (α := ℝ) k]
        nlinarith
      · rw [min_eq_right (not_lt.mp hk), min_eq_right (by omega)]
        have hk7 : (7 : ℝ) ≤ k := by exact_mod_cast not_lt.mp hk
        have hw : w * 8 ≤ 7 := by nlinarith
        norm_num
        linarith
    refine le_trans ?_ hgrow
    have hscaled : |circleTerm y k * w - T * w| ≤ 8 ^ min k 7 * w := by
      rw [← sub_mul, abs_mul, abs_of_nonneg hnonneg]
      exact mul_le_mul_of_nonneg_right ih hnonneg
    rw [abs_le] at hscaled ⊢
    obtain ⟨h1, h2⟩ := hscaled
    constructor <;> linarith

/-- The part of the series of exp that is cut off. -/
theorem circle_tail (hz0 : 0 ≤ z) (hz : z ≤ 7) :
    ‖Complex.exp (z * Complex.I) - ∑ k ∈ Finset.range 200, (z * Complex.I) ^ k / (k.factorial : ℂ)‖ ≤ 1 / 2 ^ 487 := by
  have hnorm : ‖(z : ℂ) * Complex.I‖ = z := by
    rw [norm_mul, Complex.norm_I, mul_one, Complex.norm_of_nonneg hz0]
  have hbound := Complex.exp_bound' (x := z * Complex.I) (n := 200) (by rw [hnorm]; norm_num; linarith)
  rw [hnorm] at hbound
  refine hbound.trans ?_
  have hexp : Real.exp 56 ≤ 2 ^ 112 := by
    calc Real.exp 56 = Real.exp 1 ^ 56 := by rw [← Real.exp_nat_mul]; norm_num
      _ ≤ 4 ^ 56 := by gcongr; linarith [Real.exp_one_lt_d9]
      _ = 2 ^ 112 := by rw [show (4 : ℝ) = 2 ^ 2 by norm_num, ← pow_mul]
  have hfac : (56 : ℝ) ^ 200 / (Nat.factorial 200 : ℝ) ≤ 2 ^ 112 := by
    refine le_trans ?_ ((Real.sum_le_exp_of_nonneg (show (0 : ℝ) ≤ 56 by norm_num) 201).trans hexp)
    exact Finset.single_le_sum (f := fun k => (56 : ℝ) ^ k / (k.factorial : ℝ)) (fun k _ => by positivity)
      (Finset.self_mem_range_succ 200)
  have hz200 : z ^ 200 ≤ 7 ^ 200 := pow_le_pow_left₀ hz0 hz 200
  have hpos : (0 : ℝ) < (Nat.factorial 200 : ℝ) := by exact_mod_cast Nat.factorial_pos 200
  generalize (Nat.factorial 200 : ℝ) = F at hfac hpos ⊢
  have h56 : (56 : ℝ) ^ 200 = 2 ^ 600 * 7 ^ 200 := by
    rw [show (56 : ℝ) = 2 ^ 3 * 7 by norm_num, mul_pow, ← pow_mul]
  have h600 : (2 : ℝ) ^ 600 = 2 ^ 112 * 2 ^ 488 := by rw [← pow_add]
  rw [div_le_iff₀ hpos, h56, h600, mul_assoc] at hfac
  have hfac' := le_of_mul_le_mul_left hfac (by positivity)
  rw [div_mul_eq_mul_div, div_le_div_iff₀ hpos (by positivity), one_mul]
  calc z ^ 200 * 2 * 2 ^ 487 = 2 ^ 488 * z ^ 200 := by rw [pow_succ (2 : ℝ) 487]; ring
    _ ≤ 2 ^ 488 * 7 ^ 200 := by gcongr
    _ ≤ F := hfac'

/-- Cosine and sine are known to within 2^154 units. -/
theorem cosSinFixed_close (hy : (y : ℝ) / 2 ^ 640 ≤ 7) :
    |((cosSinFixed y).1 : ℝ) - 2 ^ 640 * Real.cos ((y : ℝ) / 2 ^ 640)| ≤ 2 ^ 154 ∧
      |((cosSinFixed y).2 : ℝ) - 2 ^ 640 * Real.sin ((y : ℝ) / 2 ^ 640)| ≤ 2 ^ 154 := by
  have hz0 : 0 ≤ (y : ℝ) / 2 ^ 640 := by positivity
  have hsum : (∑ k ∈ Finset.range 200, (circleTerm y k : ℂ) * Complex.I ^ k) -
      ((2 ^ 640 : ℝ) : ℂ) * ∑ k ∈ Finset.range 200, ((((y : ℝ) / 2 ^ 640 : ℝ) : ℂ) * Complex.I) ^ k / (k.factorial : ℂ) =
      ∑ k ∈ Finset.range 200,
        (((circleTerm y k : ℝ) - 2 ^ 640 * (((y : ℝ) / 2 ^ 640) ^ k / (k.factorial : ℝ)) : ℝ) : ℂ) * Complex.I ^ k := by
    generalize (y : ℝ) / 2 ^ 640 = z
    generalize (2 : ℝ) ^ 640 = U
    rw [Finset.mul_sum, ← Finset.sum_sub_distrib]
    refine Finset.sum_congr rfl fun k _ => ?_
    push_cast
    ring
  have hcut : ‖(∑ k ∈ Finset.range 200, (circleTerm y k : ℂ) * Complex.I ^ k) -
      ((2 ^ 640 : ℝ) : ℂ) * ∑ k ∈ Finset.range 200, ((((y : ℝ) / 2 ^ 640 : ℝ) : ℂ) * Complex.I) ^ k / (k.factorial : ℂ)‖ ≤ 2 ^ 30 := by
    rw [hsum]
    refine (norm_sum_le_of_le (f := fun k => (((circleTerm y k : ℝ) - 2 ^ 640 * (((y : ℝ) / 2 ^ 640) ^ k / (k.factorial : ℝ)) : ℝ) : ℂ) *
      Complex.I ^ k) (n := fun _ => 8 ^ 7) _ fun k _ => ?_).trans ?_
    · rw [norm_mul, norm_pow, Complex.norm_I, one_pow, mul_one, Complex.norm_real, Real.norm_eq_abs]
      exact (circleTerm_close hy k).trans (pow_le_pow_right₀ (by norm_num) (min_le_right _ _))
    · rw [Finset.sum_const, Finset.card_range]
      norm_num
  have htail := circle_tail hz0 hy
  rw [← cosSinFixed_eq] at hcut
  generalize (y : ℝ) / 2 ^ 640 = z at htail hcut ⊢
  generalize ∑ k ∈ Finset.range 200, ((z : ℂ) * Complex.I) ^ k / (k.factorial : ℂ) = S at htail hcut
  have hscaled : ‖((2 ^ 640 : ℝ) : ℂ) * Complex.exp (z * Complex.I) - ((2 ^ 640 : ℝ) : ℂ) * S‖ ≤ 2 ^ 153 := by
    rw [← mul_sub, norm_mul, Complex.norm_of_nonneg (by positivity)]
    calc (2 : ℝ) ^ 640 * ‖Complex.exp (z * Complex.I) - S‖ ≤ 2 ^ 640 * (1 / 2 ^ 487) := by gcongr
      _ = 2 ^ 153 := by rw [mul_one_div, div_eq_iff (by positivity), ← pow_add]
  have hall : ‖((cosSinFixed y).1 : ℂ) + (cosSinFixed y).2 * Complex.I - ((2 ^ 640 : ℝ) : ℂ) * Complex.exp (z * Complex.I)‖ ≤ 2 ^ 154 := by
    calc _ = ‖(((cosSinFixed y).1 : ℂ) + (cosSinFixed y).2 * Complex.I - ((2 ^ 640 : ℝ) : ℂ) * S) -
          (((2 ^ 640 : ℝ) : ℂ) * Complex.exp (z * Complex.I) - ((2 ^ 640 : ℝ) : ℂ) * S)‖ := by congr 1; ring
      _ ≤ 2 ^ 30 + 2 ^ 153 := (norm_sub_le _ _).trans (add_le_add hcut hscaled)
      _ ≤ 2 ^ 154 := by norm_num
  generalize (2 : ℝ) ^ 640 = U at hall ⊢
  constructor
  · refine le_trans ?_ ((Complex.abs_re_le_norm _).trans hall)
    rw [Complex.sub_re, Complex.re_ofReal_mul, Complex.exp_ofReal_mul_I_re]
    simp
  · refine le_trans ?_ ((Complex.abs_im_le_norm _).trans hall)
    rw [Complex.sub_im, Complex.im_ofReal_mul, Complex.exp_ofReal_mul_I_im]
    simp

end Sys2Proof.Machine
end

