-- ==== Sys2Proof/Proofs/RotatedPairs.lean ====
section
/-!
Rotated pairs (R375, R376): the number that the model brackets lies within 2^-200 of the pair's magnitude of the exact
one.
-/

namespace Sys2Proof.Machine

set_option Elab.async false

variable {f : Fmt} {sp sa : FloatSpec} {v w : Val} {x : Nat} {ftz : Bool}

/- Finite operands. -/

/-- A finite value over a power of two that divides 2^149. -/
def Dyadic (v : Val) : Prop := ∃ neg m k, k ≤ 149 ∧ v = .num neg m (2 ^ k)

theorem real_num (neg : Bool) (m d : Nat) : |Claims.real (.num neg m d)| = (m : ℝ) / d := by
  rw [Claims.real, abs_mul, abs_of_nonneg (show 0 ≤ (m : ℝ) / d by positivity)]
  cases neg <;> simp

theorem fixed_num (neg : Bool) (m : Nat) {k j : Nat} (h : ropeBits = k + j) :
    ((Val.num neg m (2 ^ k)).fixed : ℝ) = 2 ^ ropeBits * Claims.real (.num neg m (2 ^ k)) := by
  have hover : (Val.num neg m (2 ^ k)).over (2 ^ k) = if neg then -(m : ℤ) else m := by
    rw [Val.over, Nat.div_self (Nat.two_pow_pos k), Nat.mul_one]
  have hfixed : (Val.num neg m (2 ^ k)).fixed = (if neg then -(m : ℤ) else m) * 2 ^ j := by
    rw [Val.fixed, Val.den, hover, one_shiftLeft, h, pow_add, Nat.cast_mul, mul_left_comm,
      Int.mul_ediv_cancel_left _ (by positivity), Nat.cast_pow, Nat.cast_ofNat]
  rw [hfixed, h, pow_add, Claims.real]
  cases neg
  · push_cast
    field_simp
  · push_cast
    field_simp
    simp

theorem Dyadic.fixed (h : Dyadic v) : (v.fixed : ℝ) = 2 ^ 640 * Claims.real v := by
  obtain ⟨neg, m, k, hk, rfl⟩ := h
  exact fixed_num neg m (Nat.add_sub_cancel' (hk.trans (by decide))).symm

/-- Twice the least magnitude is at least 2^-149 apart from zero. -/
theorem Dyadic.abs_ge (h : Dyadic v) (h0 : Claims.real v ≠ 0) : 1 / 2 ^ 149 ≤ |Claims.real v| := by
  obtain ⟨neg, m, k, hk, rfl⟩ := h
  rw [← abs_pos, real_num] at h0
  rw [real_num]
  have hm : (1 : ℝ) ≤ m := by
    have : m ≠ 0 := by
      rintro rfl
      simp at h0
    exact_mod_cast Nat.pos_of_ne_zero this
  push_cast
  gcongr
  · norm_num

/-- The finite values of the formats of `VROPE`. -/
theorem dyadic_decodeVal (hi : Ieee f sp) (hm : sp.m ≤ 23) (hb : sp.bias ≤ 127) {neg : Bool} {m d : Nat}
    (h : decodeVal f ftz x = .num neg m d) : Dyadic (.num neg m d) ∧ |Claims.real (.num neg m d)| ≤ 2 ^ 128 := by
  rw [decodeVal, hi.spec] at h
  dsimp only at h
  split at h
  · injection h with _ hm0 hd
    subst hm0 hd
    refine ⟨⟨_, _, 0, by omega, rfl⟩, ?_⟩
    rw [real_num, Nat.cast_zero, zero_div]
    positivity
  · have hx : x % 1 <<< (f.width - 1) ≤ sp.maxMag := by
      by_contra hx
      exact decodeFloat_not_num hi (not_le.mp hx) _ _ _ h
    rw [decodeFloat_finite hi hx, scale_num] at h
    injection h with _ hmant hden
    generalize x % 1 <<< (f.width - 1) = g at hx hmant hden
    have hexp : -149 ≤ sp.exp g := by
      unfold FloatSpec.exp
      generalize g >>> sp.m = k
      split <;> omega
    constructor
    · refine ⟨neg, m, (-sp.exp g).toNat, by omega, ?_⟩
      rw [← hden, pow2]
      split
      next h0 => rw [show (-sp.exp g).toNat = 0 by omega, pow_zero]
      next => rw [one_shiftLeft]
    · have hlt := val_strictMono sp (hx.trans_lt (maxMag_lt_top hi))
      rw [real_num, ← hmant, ← hden, scale_num_real, mant_exp_val]
      refine hlt.le.trans ?_
      rw [val_top, ← zpow_natCast]
      exact zpow_le_zpow_right₀ one_le_two (by push_cast; omega)

/- The angle. -/

theorem twoPiFixed_bounds : (2 : ℝ) ^ 640 ≤ twoPiFixed ∧ (twoPiFixed : ℝ) ≤ 2 ^ 640 * 7 - 1 := by
  have h := twoPiFixed_close
  have hlow := Real.pi_gt_three
  have hhigh := Real.pi_lt_d2
  rw [abs_le] at h
  obtain ⟨h1, h2⟩ := h
  have hU : (2 : ℝ) ^ 20 ≤ 2 ^ 640 := pow_le_pow_right₀ one_le_two (by omega)
  generalize (2 : ℝ) ^ 640 = U at *
  generalize (twoPiFixed : ℝ) = P at *
  constructor <;> nlinarith

/-- The angle in a circle, as `rotated` takes it, stands for the angle less whole turns. -/
theorem reduced_angle {t : ℤ} (ht : |(t : ℝ)| ≤ 2 ^ 640 * 2 ^ 160) : ∃ (ρ : Nat) (q : ℤ), t % twoPiFixed = ρ ∧
    (ρ : ℝ) / 2 ^ 640 ≤ 7 ∧ |(ρ : ℝ) / 2 ^ 640 - (t / 2 ^ 640 - q * (2 * Real.pi))| ≤ 2 ^ 175 / 2 ^ 640 := by
  obtain ⟨hlow, hhigh⟩ := twoPiFixed_bounds
  have hU : (1 : ℝ) ≤ 2 ^ 640 := one_le_pow₀ one_le_two
  have hP : 0 < twoPiFixed := by
    have : (0 : ℝ) < twoPiFixed := zero_lt_one.trans_le (hU.trans hlow)
    exact_mod_cast this
  have hmod0 := Int.emod_nonneg t hP.ne'
  have hmodlt := Int.emod_lt_of_pos t hP
  obtain ⟨ρ, hρ⟩ := Int.eq_ofNat_of_zero_le hmod0
  have hclose := twoPiFixed_close
  have hdiv : (t : ℝ) = twoPiFixed * (t / twoPiFixed : ℤ) + ρ := by
    have h := Int.mul_ediv_add_emod t twoPiFixed
    rw [hρ] at h
    exact_mod_cast h.symm
  have hρlt : (ρ : ℝ) < twoPiFixed := by
    rw [hρ] at hmodlt
    exact_mod_cast hmodlt
  refine ⟨ρ, t / twoPiFixed, hρ, ?_, ?_⟩
  · rw [div_le_iff₀ (by positivity)]
    linarith
  · generalize ((t / twoPiFixed : ℤ) : ℝ) = q at hdiv ⊢
    generalize (twoPiFixed : ℝ) = P at *
    generalize (t : ℝ) = T at *
    have hρ0 : (0 : ℝ) ≤ ρ := Nat.cast_nonneg ρ
    generalize (ρ : ℝ) = R at *
    have hU0 : (0 : ℝ) < 2 ^ 640 := zero_lt_one.trans_le hU
    generalize (2 : ℝ) ^ 640 = U at *
    have hP0 : 0 < P := hU0.trans_le hlow
    have hq : |q| ≤ 2 ^ 161 := by
      have hPq : P * |q| ≤ P * (2 ^ 160 + 1) := by
        calc P * |q| = |T - R| := by rw [hdiv, add_sub_cancel_right, abs_mul, abs_of_pos hP0]
          _ ≤ |T| + |R| := abs_sub _ _
          _ ≤ U * 2 ^ 160 + P := by rw [abs_of_nonneg hρ0]; gcongr
          _ ≤ P * 2 ^ 160 + P := by gcongr
          _ = P * (2 ^ 160 + 1) := by ring
      exact (le_of_mul_le_mul_left hPq hP0).trans (by norm_num)
    have heq : R / U - (T / U - q * (2 * Real.pi)) = -(q * (P - U * (2 * Real.pi))) / U := by
      rw [hdiv]
      field_simp
      ring
    rw [heq, abs_div, abs_neg, abs_mul, abs_of_pos hU0]
    gcongr
    calc |q| * |P - U * (2 * Real.pi)| ≤ 2 ^ 161 * 2 ^ 14 := by gcongr
      _ = 2 ^ 175 := by rw [← pow_add]

/-- Cosine and sine of an angle are known to within 2^176 units. -/
theorem angle_close {t : ℤ} (ht : |(t : ℝ)| ≤ 2 ^ 640 * 2 ^ 160) :
    |((cosSinFixed (t % twoPiFixed)).1 : ℝ) - 2 ^ 640 * Real.cos (t / 2 ^ 640)| ≤ 2 ^ 176 ∧
      |((cosSinFixed (t % twoPiFixed)).2 : ℝ) - 2 ^ 640 * Real.sin (t / 2 ^ 640)| ≤ 2 ^ 176 := by
  obtain ⟨ρ, q, hρ, hz, hangle⟩ := reduced_angle ht
  obtain ⟨hcos, hsin⟩ := cosSinFixed_close hz
  have hc := Real.abs_cos_sub_cos_le ((ρ : ℝ) / 2 ^ 640) (t / 2 ^ 640 - q * (2 * Real.pi))
  have hs := Real.abs_sin_sub_sin_le ((ρ : ℝ) / 2 ^ 640) (t / 2 ^ 640 - q * (2 * Real.pi))
  rw [Real.cos_sub_int_mul_two_pi] at hc
  rw [Real.sin_sub_int_mul_two_pi] at hs
  have hU : (0 : ℝ) < 2 ^ 640 := by positivity
  have hjoin {a b c : ℝ} (h1 : |a - 2 ^ 640 * b| ≤ 2 ^ 154) (h2 : |b - c| ≤ 2 ^ 175 / 2 ^ 640) : |a - 2 ^ 640 * c| ≤ 2 ^ 176 := by
    have h3 : |2 ^ 640 * b - 2 ^ 640 * c| ≤ 2 ^ 175 := by
      rw [← mul_sub, abs_mul, abs_of_pos hU, mul_comm]
      exact (le_div_iff₀ hU).mp h2
    calc |a - 2 ^ 640 * c| ≤ |a - 2 ^ 640 * b| + |2 ^ 640 * b - 2 ^ 640 * c| := abs_sub_le _ _ _
      _ ≤ 2 ^ 154 + 2 ^ 175 := add_le_add h1 h3
      _ ≤ 2 ^ 176 := by norm_num
  rw [hρ]
  exact ⟨hjoin hcos (hc.trans hangle), hjoin hsin (hs.trans hangle)⟩

/- The rotated number. -/

/-- The exact rotated number (R376). -/
noncomputable def exactRotation (odd : Bool) (x0 x1 θ : ℝ) : ℝ :=
  if odd then x0 * Real.sin θ + x1 * Real.cos θ else x0 * Real.cos θ - x1 * Real.sin θ

/-- The number that the model brackets: half a unit of 2^-1280 away from zero. -/
noncomputable def bracketedReal (r : ℤ) : ℝ := (2 * r.natAbs + 1 : Nat) * 2 ^ (-1281 : ℤ)

theorem abs_scaled_le {U K a c e : ℝ} (hU : 0 < U) (h : |c - U * e| ≤ K) : |U * a * c - U * a * (U * e)| ≤ U * K * |a| := by
  rw [← mul_sub, abs_mul, abs_mul, abs_of_pos hU]
  calc U * |a| * |c - U * e| ≤ U * |a| * K := by gcongr
    _ = _ := by ring

theorem rotated_close {θ : Val} {odd : Bool} (hv : Dyadic v) (hw : Dyadic w) (hθ : (θ.fixed : ℝ) = 2 ^ 640 * Claims.real θ)
    (hsmall : |Claims.real θ| ≤ 2 ^ 160) :
    |(rotated (!odd) v w θ : ℝ) - 2 ^ 1280 * exactRotation odd (Claims.real v) (Claims.real w) (Claims.real θ)| ≤
      2 ^ 640 * 2 ^ 176 * (|Claims.real v| + |Claims.real w|) := by
  have ht : |(θ.fixed : ℝ)| ≤ 2 ^ 640 * 2 ^ 160 := by
    rw [hθ, abs_mul, abs_of_pos (by positivity)]
    gcongr
  obtain ⟨hcos, hsin⟩ := angle_close ht
  have hU : (0 : ℝ) < 2 ^ 640 := by positivity
  have hdiv : (θ.fixed : ℝ) / 2 ^ 640 = Claims.real θ := (div_eq_iff hU.ne').mpr (hθ.trans (mul_comm _ _))
  rw [hdiv] at hcos hsin
  have h1280 : (2 : ℝ) ^ 1280 = 2 ^ 640 * 2 ^ 640 := by rw [← pow_add]
  have hv' := hv.fixed
  have hw' := hw.fixed
  rw [rotated, exactRotation, h1280]
  cases odd with
  | true =>
    have h1 := abs_scaled_le (a := Claims.real v) hU hsin
    have h2 := abs_scaled_le (a := Claims.real w) hU hcos
    rw [Bool.not_true, if_neg Bool.false_ne_true, if_pos rfl, Int.cast_add, Int.cast_mul, Int.cast_mul, hv', hw', mul_add]
    rw [abs_le] at h1 h2 ⊢
    constructor <;> linarith
  | false =>
    have h1 := abs_scaled_le (a := Claims.real v) hU hcos
    have h2 := abs_scaled_le (a := Claims.real w) hU hsin
    rw [Bool.not_false, if_pos rfl, if_neg Bool.false_ne_true, Int.cast_sub, Int.cast_mul, Int.cast_mul, hv', hw', mul_add]
    rw [abs_le] at h1 h2 ⊢
    constructor <;> linarith

theorem half_add_le {A C D S : ℝ} (hAD : A * 2 ≤ D) (hCA : C ≤ A) (hSC : 1 ≤ S * C) (hS : 0 ≤ S) : 1 / 2 + A * S ≤ D * S := by
  nlinarith

theorem bracketedReal_close {odd : Bool} {r : ℤ} {a b θ : ℝ}
    (h : |(r : ℝ) - 2 ^ 1280 * exactRotation odd a b θ| ≤ 2 ^ 640 * 2 ^ 176 * (|a| + |b|)) (hab : 1 / 2 ^ 149 ≤ |a| + |b|) :
    |(if r < 0 then -bracketedReal r else bracketedReal r) - exactRotation odd a b θ| ≤ (|a| + |b|) / 2 ^ 200 := by
  have hsign : |2 ^ 1280 * (if r < 0 then -bracketedReal r else bracketedReal r) - r| ≤ 1 / 2 := by
    have hmag : 2 ^ 1280 * bracketedReal r = |(r : ℝ)| + 1 / 2 := by
      have hunit : (2 : ℝ) ^ 1280 * 2 ^ (-1281 : ℤ) = 1 / 2 := by
        rw [← zpow_natCast, ← zpow_add₀ two_ne_zero]
        norm_num
      rw [bracketedReal, mul_left_comm, hunit, Nat.cast_add, Nat.cast_mul, Nat.cast_natAbs, Int.cast_abs]
      push_cast
      ring
    by_cases hr : r < 0
    · have hr' : (r : ℝ) < 0 := by exact_mod_cast hr
      rw [if_pos hr, mul_neg, hmag, abs_of_neg hr', abs_le]
      constructor <;> linarith
    · have hr' : (0 : ℝ) ≤ r := by exact_mod_cast not_lt.mp hr
      rw [if_neg hr, hmag, abs_of_nonneg hr', abs_le]
      constructor <;> linarith
  have hpow1 : (2 : ℝ) ^ 1280 = 2 ^ 1080 * 2 ^ 200 := by rw [← pow_add]
  have hpow2 : (2 : ℝ) ^ 640 * 2 ^ 176 = 2 ^ 816 := by rw [← pow_add]
  have hpow3 : (2 : ℝ) ^ 816 * 2 ≤ 2 ^ 1080 := by rw [← pow_succ]; exact pow_le_pow_right₀ one_le_two (by omega)
  have hpow4 : (2 : ℝ) ^ 149 ≤ 2 ^ 816 := pow_le_pow_right₀ one_le_two (by omega)
  have hV : (0 : ℝ) < 2 ^ 1280 := by positivity
  rw [hpow2] at h
  rw [div_le_iff₀ (by positivity)] at hab
  generalize (if r < 0 then -bracketedReal r else bracketedReal r) = B at hsign ⊢
  generalize exactRotation odd a b θ = E at h ⊢
  have hS : 0 ≤ |a| + |b| := by positivity
  generalize |a| + |b| = S at h hab hS ⊢
  have hjoin : |2 ^ 1280 * B - 2 ^ 1280 * E| ≤ 1 / 2 + 2 ^ 816 * S := (abs_sub_le _ _ _).trans (add_le_add hsign h)
  rw [← mul_sub, abs_mul, abs_of_pos hV] at hjoin
  refine le_of_mul_le_mul_left (hjoin.trans ?_) hV
  rw [hpow1, mul_assoc, mul_div_cancel₀ _ (by positivity)]
  exact half_add_le hpow3 hpow4 hab hS

/-- The number that the model brackets, and what R376 lets it answer for it. -/
theorem bracketResult_rotated (hi : Ieee f sp) (hm : sp.m ≤ 23) (hb : sp.bias ≤ 127) (r : ℤ) (sat neg away : Bool) :
    0 < bracketedReal r ∧ Claims.BracketResult f sp sat neg (bracketedReal r)
      (placeBracket sp f.width sat false neg away (2 * r.natAbs + 1) (1 <<< (2 * ropeBits + 1))) := by
  have hreal : ((2 * r.natAbs + 1 : Nat) : ℝ) / ((1 <<< (2 * ropeBits + 1) : Nat) : ℝ) = bracketedReal r := by
    rw [bracketedReal, one_shiftLeft, ropeBits, Nat.cast_pow, Nat.cast_ofNat, zpow_neg, zpow_ofNat, div_eq_mul_inv]
  have hpos : 0 < bracketedReal r := by
    rw [bracketedReal]
    positivity
  have hqmin : sp.qmin = 1 - (sp.bias : ℤ) - sp.m := rfl
  have hden : 0 < 1 <<< (2 * ropeBits + 1) := by rw [one_shiftLeft]; exact Nat.two_pow_pos _
  obtain ⟨g, hg⟩ := exists_between sp hpos (val_ne_odd_units sp (.inr (by omega)))
  rw [← hreal] at hg
  refine ⟨hpos, ?_⟩
  rw [placeBracket_between hi (Nat.succ_pos _) hden hg (.inl rfl), ← hreal]
  exact bracketResult_bracketed hi hg

end Sys2Proof.Machine
end

