-- ==== Sys2Proof/Proofs/Rotations.lean ====
section
/-!
`VROPE` (R374 to R376): the result of an element by the kinds of its operands, and the elements that are written.
-/

namespace Sys2Proof.Machine

set_option Elab.async false

variable {f : Fmt} {sp : FloatSpec} {c : Descr} {operands : List Nat} {n m d : Nat} {neg sat away odd : Bool} {x0 x1 : Val}

/- An angle of zero. -/

theorem inexactFlags_ne (sp : FloatSpec) (g : Nat) : inexactFlags sp g ≠ flNone := by
  rw [inexactFlags]
  split <;> decide

theorem overflowed_flags_ne (f : Fmt) (sp : FloatSpec) (r : Rounding) (neg : Bool) : (overflowed f sp r neg).2 ≠ flNone := by
  have hsat : flSAT ||| flNX ≠ flNone := by decide
  have hof : flOF ||| flNX ≠ flNone := by decide
  unfold overflowed overflowMag
  dsimp only
  split
  · exact hsat
  · split
    · split
      · exact hof
      · exact hof
    · exact hof
    · exact hof

/-- The rounding of `placeOrBracket`. -/
def towardsZero (sat : Bool) : Rounding := { mode := 1, sat := sat }

theorem placeOrBracket_num (hm : m ≠ 0) : placeOrBracket f sp sat away (.num neg m d) =
    if (placeMag sp f.width (towardsZero sat) neg m d).2 = flNone then placeMag sp f.width (towardsZero sat) neg m d
    else placeBracket sp f.width sat false neg away m d := by
  rw [placeOrBracket, placeFloat, if_neg hm]
  by_cases h : (placeMag sp f.width (towardsZero sat) neg m d).2 = flNone
  · rw [if_pos h]
    exact if_pos (by rw [decide_eq_false hm, Bool.false_or]; exact decide_eq_true h)
  · rw [if_neg h]
    exact if_neg (by rw [decide_eq_false hm, Bool.false_or, Bool.not_eq_true]; exact decide_eq_false h)

/-- A number that the format holds stands as it is, and another one is bracketed (R376). -/
theorem placeOrBracket_result (hi : Ieee f sp) (hm : m ≠ 0) (hd : 0 < d) :
    ((∃ x q, x < 2 ^ f.width ∧ Claims.Holds f x neg q ∧ q = (m : ℝ) / d) →
      Claims.Holds f (placeOrBracket f sp sat away (.num neg m d)).1 neg ((m : ℝ) / d) ∧
        (placeOrBracket f sp sat away (.num neg m d)).2 = flNone) ∧
    ((∀ x, x < 2 ^ f.width → ¬ Claims.Holds f x neg ((m : ℝ) / d)) →
      Claims.BracketResult f sp sat neg ((m : ℝ) / d) (placeOrBracket f sp sat away (.num neg m d))) := by
  have hpos : 0 < m := Nat.pos_of_ne_zero hm
  have hreal : (0 : ℝ) < (m : ℝ) / d := div_pos (by exact_mod_cast hpos) (by exact_mod_cast hd)
  have hwidth : 1 ≤ f.width := by
    have := hi.width
    by_contra h
    rw [show f.width - 1 = 0 by omega, one_shiftLeft, pow_zero] at this
    have := Nat.le_mul_of_pos_right (2 * sp.bias + 2) (Nat.two_pow_pos sp.m)
    omega
  rw [placeOrBracket_num hm]
  constructor
  · rintro ⟨x, q, -, hq, rfl⟩
    obtain ⟨g, hg, hval⟩ := exists_mag_of_holds hi hq
    have hplace := placeMag_exact (c := towardsZero sat) (neg := neg) hi hpos hd hval (.inl rfl)
    rw [if_neg (not_lt.mpr hg)] at hplace
    rw [hplace, if_pos rfl, hval]
    exact ⟨holds_signed hi neg hg, rfl⟩
  · intro hnone
    by_cases hex : ∃ g, sp.val g = (m : ℝ) / d
    · obtain ⟨g, hval⟩ := hex
      have hover : sp.maxMag < g := by
        by_contra hle
        have hle := not_lt.mp hle
        exact hnone _ (signed_lt hi neg hle hwidth) (hval ▸ holds_signed hi neg hle)
      have hplace := placeMag_exact (c := towardsZero sat) (neg := neg) hi hpos hd hval.symm (.inl rfl)
      rw [if_pos hover] at hplace
      rw [hplace, if_neg (overflowed_flags_ne _ _ _ _), placeBracket_overflows hi hpos hd hval.symm hover, ← hval]
      exact bracketResult_overflow hi hover
    · obtain ⟨g, hg⟩ := exists_between sp hreal fun g hg => hex ⟨g, hg⟩
      have hplace := placeMag_between (c := towardsZero sat) (neg := neg) hi hpos hd hg (.inl rfl) (.inl ⟨rfl, rfl⟩)
      have hne : (placeMag sp f.width (towardsZero sat) neg m d).2 ≠ flNone := by
        rw [hplace]
        split
        · exact overflowed_flags_ne _ _ _ _
        · exact inexactFlags_ne _ _
      rw [if_neg hne, placeBracket_between hi hpos hd hg (.inl rfl)]
      exact bracketResult_bracketed hi hg

theorem placeFloat_zero (hi : Ieee f sp) (r : Rounding) : placeFloat sp f.width r (.num neg 0 d) = (Claims.signed f neg 0, flNone) := by
  rw [placeFloat, if_pos rfl, withSign_eq hi neg (Nat.zero_le _)]

theorem placeOrBracket_zero (hi : Ieee f sp) : placeOrBracket f sp sat away (.num neg 0 d) = (Claims.signed f neg 0, flNone) := by
  rw [placeOrBracket, placeFloat_zero hi]
  rfl

/- Kinds of operands. -/

/-- The sum of two zeros is a zero. -/
theorem add_zeros (hx0 : x0.isZero = true) (hx1 : x1.isZero = true) : ∃ s, x0.add false x1 = .num s 0 1 := by
  match x0, x1, hx0, hx1 with
  | .num a m d, .num b n e, hx0, hx1 =>
    obtain rfl : m = 0 := by simpa [Val.isZero] using hx0
    obtain rfl : n = 0 := by simpa [Val.isZero] using hx1
    exact ⟨if a = b then a else false, by simp [Val.add, Val.over]⟩

theorem negate_isZero (h : x1.isZero = true) : x1.negate.isZero = true := by
  cases x1 with
  | num => exact h
  | _ => cases h

/-- A finite angle. -/
theorem real_mul (neg neg' : Bool) (m d m' d' : Nat) :
    Claims.real ((Val.num neg m d).mul (.num neg' m' d')) = Claims.real (.num neg m d) * Claims.real (.num neg' m' d') := by
  rw [Val.mul, Claims.real, Claims.real, Claims.real]
  push_cast
  rw [mul_div_mul_comm]
  cases neg <;> cases neg' <;> simp

/-- The result of a rotated element (R375). -/
def rotatedElement (odd : Bool) (fa fd : Fmt) (sat ftz : Bool) (u0 u1 up uf : Nat) : Nat × Flags :=
  match fd.spec with
  | some sp => ropeElement fd sp (approxDescr sat ftz) [if odd then 1 else 0, fa.code, u0, u1, up, uf] (!odd) (decodeVal fa ftz u0)
      (decodeVal fa ftz u1) (decodeVal .s32 false up) (decodeVal .f32 ftz uf)
  | none => (0, flNone)

/-- Whether a value is infinite. -/
def Infinite (v : Val) : Prop := v = .inf false ∨ v = .inf true

theorem infinite_inf (neg : Bool) : Infinite (.inf neg) := by
  cases neg
  · exact .inl rfl
  · exact .inr rfl

theorem exists_num {v : Val} (hinf : ¬ Infinite v) (hnan : v.isNan = false) : ∃ neg m d, v = .num neg m d := by
  cases v with
  | nan => cases hnan
  | inf neg => exact (hinf (infinite_inf neg)).elim
  | num neg m d => exact ⟨neg, m, d, rfl⟩

section
variable {pos freq : Val}

/-- An angle that is not finite, or an infinite operand (R375). -/
theorem ropeElement_invalid {a : Bool} {p : Nat} (h : freq.isNan = true ∨ Infinite freq ∨ Infinite x0 ∨ Infinite x1) :
    ropeElement f sp c operands odd x0 x1 (.num a p 1) freq = (sp.nan.getD 0, flNV) := by
  unfold ropeElement
  refine if_pos ?_
  obtain h | (rfl | rfl) | (rfl | rfl) | (rfl | rfl) := h
  · cases freq with
    | nan => rfl
    | _ => cases h
  · cases hp : (Val.num a p 1).isZero <;> simp [Val.mul, hp]
  · cases hp : (Val.num a p 1).isZero <;> simp [Val.mul, hp]
  · simp
  · simp
  · simp
  · simp

variable {s : Bool} {k e : Nat} (hθ : pos.mul freq = .num s k e)
include hθ

/-- An operand that is no number (R375). -/
theorem ropeElement_nan (h0 : ¬ Infinite x0) (h1 : ¬ Infinite x1) (h : x0.isNan = true ∨ x1.isNan = true) :
    ropeElement f sp c operands odd x0 x1 pos freq =
      (sp.nan.getD 0, if x0.isSignalling || x1.isSignalling then flNV else flNone) := by
  unfold ropeElement
  rw [hθ]
  cases x0 with
  | inf => exact (h0 (infinite_inf _)).elim
  | nan =>
    cases x1 with
    | inf => exact (h1 (infinite_inf _)).elim
    | nan => rfl
    | num => rfl
  | num =>
    cases x1 with
    | inf => exact (h1 (infinite_inf _)).elim
    | nan => rfl
    | num => exact absurd h (by simp [Val.isNan])

/-- Numbers are rotated (R376). -/
theorem ropeElement_num {n0 n1 : Bool} {m0 d0 m1 d1 : Nat} :
    ropeElement f sp c operands (!odd) (.num n0 m0 d0) (.num n1 m1 d1) pos freq =
      if k = 0 then placeOrBracket f sp c.sat (awayFor 3 f operands) (if odd then .num n1 m1 d1 else .num n0 m0 d0)
      else if m0 = 0 ∧ m1 = 0 then
        placeFloat sp f.width {} (if odd then (Val.num n0 m0 d0).add false (.num n1 m1 d1)
          else (Val.num n0 m0 d0).add false (Val.num n1 m1 d1).negate)
      else
        let r := rotated (!odd) (.num n0 m0 d0) (.num n1 m1 d1) (.num s k e)
        placeBracket sp f.width c.sat false (decide (r < 0)) (awayFor 3 f operands) (2 * r.natAbs + 1) (1 <<< (2 * ropeBits + 1)) := by
  unfold ropeElement
  rw [hθ]
  cases odd <;> simp [Val.isNan, Val.isZero]

end

theorem ieee_of_ropeFmt (hf : Claims.ropeFmt f = true) : ∃ sp, Ieee f sp ∧ sp.m ≤ 23 ∧ sp.bias ≤ 127 := by
  have happrox : Claims.approxFmt f = true ∧ f ≠ .f64 := by
    simp only [Claims.ropeFmt, Bool.or_eq_true, decide_eq_true_eq] at hf
    obtain (rfl | rfl) | rfl := hf <;> decide
  obtain ⟨sp, hi⟩ := ieee_of_approxFmt happrox.1
  exact ⟨sp, hi, narrow_format hi happrox.1 happrox.2⟩

theorem Dyadic.den_pos (h : Dyadic (.num neg m d)) : 0 < d := by
  obtain ⟨_, _, k, -, heq⟩ := h
  injection heq with _ _ hd
  exact hd ▸ Nat.two_pow_pos k

/-- Positions are integers of 32 bits. -/
theorem decode_position (up : Nat) : ∃ a p, decodeVal .s32 false up = .num a p 1 ∧ (p : ℝ) ≤ 2 ^ 32 := by
  refine ⟨_, _, rfl, ?_⟩
  have hle : (signedOf 32 up).natAbs ≤ 2 ^ 32 := by
    have := Nat.mod_lt up (Nat.two_pow_pos 32)
    rw [signedOf, one_shiftLeft]
    split <;> omega
  exact_mod_cast hle

theorem real_eq_zero_iff (neg : Bool) (m : Nat) (hd : 0 < d) : Claims.real (.num neg m d) = 0 ↔ m = 0 := by
  rw [← abs_eq_zero, real_num, div_eq_zero_iff, Nat.cast_eq_zero, Nat.cast_eq_zero]
  omega

theorem Dyadic.mul_position (h : Dyadic (.num neg m d)) (t : Bool) (p : Nat) : Dyadic (.num t (p * m) (1 * d)) := by
  obtain ⟨_, _, k, hk, heq⟩ := h
  injection heq with _ _ hd
  exact ⟨_, _, k, hk, by rw [hd, Nat.one_mul]⟩

/- Pairs of numbers. -/

section
variable {pos freq : Val} {s n0 n1 : Bool} {k e m0 d0 m1 d1 : Nat} (hi : Ieee f sp) (hθ : pos.mul freq = .num s k e)
include hi hθ

/-- An angle of zero leaves the element (R376). -/
theorem ropeElement_unturned (hk : k = 0) (h0 : Dyadic (.num n0 m0 d0)) (h1 : Dyadic (.num n1 m1 d1))
    (hx : (if odd = true then Val.num n1 m1 d1 else Val.num n0 m0 d0) = .num neg m d) :
    let r := ropeElement f sp c operands (!odd) (.num n0 m0 d0) (.num n1 m1 d1) pos freq
    (m = 0 → r = (Claims.signed f neg 0, flNone)) ∧
      (m ≠ 0 → (∃ x q, x < 2 ^ f.width ∧ Claims.Holds f x neg q ∧ q = (m : ℝ) / d) →
        Claims.Holds f r.1 neg ((m : ℝ) / d) ∧ r.2 = flNone) ∧
      (m ≠ 0 → (∀ x, x < 2 ^ f.width → ¬ Claims.Holds f x neg ((m : ℝ) / d)) →
        Claims.BracketResult f sp c.sat neg ((m : ℝ) / d) r) := by
  have hd : Dyadic (if odd = true then Val.num n1 m1 d1 else Val.num n0 m0 d0) := by
    cases odd
    · exact h0
    · exact h1
  rw [hx] at hd
  dsimp only
  rw [ropeElement_num hθ, if_pos hk, hx]
  refine ⟨fun hm => ?_, fun hm => (placeOrBracket_result hi hm hd.den_pos).1,
    fun hm => (placeOrBracket_result hi hm hd.den_pos).2⟩
  rw [hm]
  exact placeOrBracket_zero hi

/-- A pair of zeros stays one (R376). -/
theorem ropeElement_zeros (hk : k ≠ 0) (hm0 : m0 = 0) (hm1 : m1 = 0) : ∃ t,
    ropeElement f sp c operands (!odd) (.num n0 m0 d0) (.num n1 m1 d1) pos freq = (Claims.signed f t 0, flNone) := by
  have hz0 : (Val.num n0 m0 d0).isZero = true := by simp [Val.isZero, hm0]
  have hz1 : (Val.num n1 m1 d1).isZero = true := by simp [Val.isZero, hm1]
  rw [ropeElement_num hθ, if_neg hk, if_pos ⟨hm0, hm1⟩]
  cases odd with
  | true =>
    obtain ⟨t, ht⟩ := add_zeros hz0 hz1
    exact ⟨t, (congrArg (placeFloat sp f.width {}) ht).trans (placeFloat_zero hi _)⟩
  | false =>
    obtain ⟨t, ht⟩ := add_zeros hz0 (negate_isZero hz1)
    exact ⟨t, (congrArg (placeFloat sp f.width {}) ht).trans (placeFloat_zero hi _)⟩

/-- Another pair is rotated (R376). -/
theorem ropeElement_turned (hm23 : sp.m ≤ 23) (hb : sp.bias ≤ 127) (hk : k ≠ 0) (h0 : Dyadic (.num n0 m0 d0))
    (h1 : Dyadic (.num n1 m1 d1)) (hdyθ : Dyadic (.num s k e)) (hsmall : |Claims.real (.num s k e)| ≤ 2 ^ 160)
    (hne : Claims.real (.num n0 m0 d0) ≠ 0 ∨ Claims.real (.num n1 m1 d1) ≠ 0) : ∃ (neg : Bool) (y : ℝ), 0 < y ∧
      |(if neg then -y else y) - exactRotation odd (Claims.real (.num n0 m0 d0)) (Claims.real (.num n1 m1 d1)) (Claims.real (.num s k e))| ≤
        (|Claims.real (.num n0 m0 d0)| + |Claims.real (.num n1 m1 d1)|) / 2 ^ 200 ∧
      Claims.BracketResult f sp c.sat neg y (ropeElement f sp c operands (!odd) (.num n0 m0 d0) (.num n1 m1 d1) pos freq) := by
  have hpair : 1 / 2 ^ 149 ≤ |Claims.real (.num n0 m0 d0)| + |Claims.real (.num n1 m1 d1)| := by
    obtain h | h := hne
    · exact (h0.abs_ge h).trans (le_add_of_nonneg_right (abs_nonneg _))
    · exact (h1.abs_ge h).trans (le_add_of_nonneg_left (abs_nonneg _))
  rw [ne_eq, ne_eq, real_eq_zero_iff _ _ h0.den_pos, real_eq_zero_iff _ _ h1.den_pos] at hne
  have hclose := rotated_close (odd := odd) h0 h1 hdyθ.fixed hsmall
  rw [ropeElement_num hθ, if_neg hk, if_neg (by omega)]
  dsimp only
  generalize rotated (!odd) (.num n0 m0 d0) (.num n1 m1 d1) (.num s k e) = r at hclose ⊢
  obtain ⟨hy, hres⟩ := bracketResult_rotated hi hm23 hb r c.sat (decide (r < 0)) (awayFor 3 f operands)
  refine ⟨decide (r < 0), bracketedReal r, hy, ?_, hres⟩
  simpa only [decide_eq_true_eq] using bracketedReal_close hclose hpair

end

/-- The result of a rotated element is one that R375 and R376 allow. -/
theorem rotatedElement_rotates {fa fd : Fmt} {sat ftz : Bool} {u0 u1 up uf : Nat} (ha : Claims.ropeFmt fa = true)
    (hd : Claims.ropeFmt fd = true) : Claims.Rotates odd fa fd sat ftz u0 u1 up uf (rotatedElement odd fa fd sat ftz u0 u1 up uf) := by
  obtain ⟨sa, hia, hma, hba⟩ := ieee_of_ropeFmt ha
  obtain ⟨sp, hid, hmd, hbd⟩ := ieee_of_ropeFmt hd
  obtain ⟨sf, hif, hmf, hbf⟩ := ieee_of_ropeFmt (f := .f32) rfl
  intro sp' hsp
  obtain rfl : sp = sp' := Option.some.inj (hid.spec.symm.trans hsp)
  obtain ⟨a, p, hpos, hp⟩ := decode_position up
  have hnum {x : Nat} {neg : Bool} {m d : Nat} (h : decodeVal fa ftz x = .num neg m d) := dyadic_decodeVal hia hma hba h
  have hfreq {neg : Bool} {m d : Nat} (h : decodeVal .f32 ftz uf = .num neg m d) := dyadic_decodeVal hif hmf hbf h
  rw [rotatedElement, hid.spec]
  dsimp only
  rw [hpos]
  refine ⟨ropeElement_invalid, fun hfnan hfinf h0inf h1inf => ?_⟩
  obtain ⟨nf, mf, df, hf⟩ := exists_num hfinf hfnan
  obtain ⟨hdyf, hflarge⟩ := hfreq hf
  rw [hf]
  have hθ : (Val.num a p 1).mul (.num nf mf df) = .num (a != nf) (p * mf) (1 * df) := rfl
  rw [← real_mul]
  refine ⟨ropeElement_nan hθ h0inf h1inf, fun h0nan h1nan => ?_⟩
  obtain ⟨n0, m0, d0, h0⟩ := exists_num h0inf h0nan
  obtain ⟨n1, m1, d1, h1⟩ := exists_num h1inf h1nan
  obtain ⟨hdy0, -⟩ := hnum h0
  obtain ⟨hdy1, -⟩ := hnum h1
  have hdyθ := hdyf.mul_position (a != nf) p
  have hθsmall : |Claims.real (.num (a != nf) (p * mf) (1 * df))| ≤ 2 ^ 160 := by
    rw [← hθ, real_mul, abs_mul, real_num, Nat.cast_one, div_one]
    calc (p : ℝ) * |Claims.real (.num nf mf df)| ≤ 2 ^ 32 * 2 ^ 128 := by gcongr
      _ = 2 ^ 160 := by rw [← pow_add]
  rw [h0, h1, hθ, ne_eq, real_eq_zero_iff _ _ hdyθ.den_pos]
  refine ⟨fun hz neg m d hx => ropeElement_unturned hid hθ hz hdy0 hdy1 hx, fun hz hm0 hm1 => ?_, fun hz hm => ?_⟩
  · exact ropeElement_zeros hid hθ hz ((real_eq_zero_iff _ _ hdy0.den_pos).mp hm0) ((real_eq_zero_iff _ _ hdy1.den_pos).mp hm1)
  · exact ropeElement_turned hid hθ hmd hbd hz hdy0 hdy1 hdyθ hθsmall hm

/- The instruction. -/

/-- The axis of a pair (R374). -/
theorem ropeAxis_eq (part : BitVec 24) (p : Nat) : ropeAxis part p =
    if p < part.toNat % 256 then some 0
    else if p < part.toNat % 256 + part.toNat / 256 % 256 then some 1
    else if p < part.toNat % 256 + part.toNat / 256 % 256 + part.toNat / 65536 % 256 then some 2 else none := by
  have h0 : (part.extractLsb' 0 8).toNat = part.toNat % 256 := by simp
  have h1 : (part.extractLsb' 8 8).toNat = part.toNat / 256 % 256 := by simp [shiftRight_eq]
  have h2 : (part.extractLsb' 16 8).toNat = part.toNat / 65536 % 256 := by simp [shiftRight_eq]
  rw [ropeAxis, h0, h1, h2]

theorem ropeElement_congr {c' : Descr} (h : c.sat = c'.sat) (even : Bool) (pos freq : Val) :
    ropeElement f sp c operands even x0 x1 pos freq = ropeElement f sp c' operands even x0 x1 pos freq := by
  unfold ropeElement
  rw [h]

/-- A rotated element as `VROPE` computes it. -/
theorem ropeElement_rotated {s : State} {va vb vc : VIx} {fa : Fmt} {D e axis : Nat} (hi : Ieee f sp) :
    ropeElement f sp c
      [e % 2, fa.code, s.hart.bitsAt va (e / D * D + 2 * (e % D / 2)) fa, s.hart.bitsAt va (e / D * D + 2 * (e % D / 2) + 1) fa,
        s.hart.bitsAt vb (3 * (e / D) + axis) .s32, s.hart.bitsAt vc (e % D / 2) .f32] (e % 2 == 0)
      (s.hart.valAt va (e / D * D + 2 * (e % D / 2)) fa false c.ftz) (s.hart.valAt va (e / D * D + 2 * (e % D / 2) + 1) fa false c.ftz)
      (s.hart.valAt vb (3 * (e / D) + axis) .s32 false false) (s.hart.valAt vc (e % D / 2) .f32 false c.ftz) =
    rotatedElement (e % 2 = 1) fa f c.sat c.ftz (s.hart.bitsAt va (e / D * D + 2 * (e % D / 2)) fa)
      (s.hart.bitsAt va (e / D * D + 2 * (e % D / 2) + 1) fa) (s.hart.bitsAt vb (3 * (e / D) + axis) .s32)
      (s.hart.bitsAt vc (e % D / 2) .f32) := by
  rw [rotatedElement, hi.spec]
  obtain h | h := Nat.mod_two_eq_zero_or_one e
  · rw [h]
    exact ropeElement_congr rfl ..
  · rw [h]
    exact ropeElement_congr rfl ..

/-- The dispatch checks of R375. -/
theorem ropeOk_of_accepts {h : Hart} {k : Blk} {xh : Reg} {fa fb fc fd : Fmt}
    (hok : (Claims.ropeFmt fa && decide (fb = .s32) && decide (fc = .f32) && Claims.ropeFmt fd && !(c.asc || c.bsc || c.dsc) &&
      decide ((h.view xh).toNat % 2 = 0) && decide (8 ≤ (h.view xh).toNat) &&
      decide ((h.view xh).toNat / 2 ≤ h.lanes * Fmt.f32.perSlice) &&
      decide (h.vl k (vlmax h.lanes [fa, fb, fc, fd]) % (h.view xh).toNat = 0) && decide (h.vstart % (h.view xh).toNat = 0)) = true) :
    fb = .s32 ∧ fc = .f32 ∧ Claims.ropeFmt fd = true ∧ ropeOk h k xh c [fa, fb, fc, fd] = true := by
  simp only [Bool.and_eq_true, decide_eq_true_eq] at hok
  obtain ⟨⟨⟨⟨⟨⟨⟨⟨⟨hfa, rfl⟩, rfl⟩, hfd⟩, hscale⟩, heven⟩, hlow⟩, hhigh⟩, hlen⟩, hstart⟩ := hok
  have hfa' : fa.ropeData = true := hfa
  have hfd' : fd.ropeData = true := hfd
  have hhigh' : (h.view xh).toNat / 2 ≤ vlmax h.lanes [.f32] := hhigh
  refine ⟨rfl, rfl, hfd, ?_⟩
  simp only [ropeOk, hfa', hfd', hscale, heven, hlen, hstart, hhigh', hlow, decide_true, Bool.and_self, beq_self_eq_true]

/-- `VROPE` writes what `rotatedElement` gives for the elements of rotated pairs. -/
theorem rotationsWritePairs : Claims.RotationsWritePairs := by
  refine ⟨rotatedElement, fun odd fa fd sat ftz u0 u1 up uf ha hd _ _ _ _ => rotatedElement_rotates ha hd, fun s i F hF => ?_⟩
  unfold Claims.ropeForm at hF
  cases i with
  | vrope k d a b x xh =>
    cases hF
    intro fs fd hd hfd hc
    obtain ⟨hl, hn⟩ := dispatched_dest hd rfl hfd
    obtain ⟨fa, fb, fc, f, rfl⟩ := formats_four hd.known
    cases hfd
    obtain ⟨hfb, hfc, hfd, hok⟩ := ropeOk_of_accepts hd.accepted
    subst hfb hfc
    obtain ⟨sp, hi, -⟩ : ∃ sp, Ieee f sp ∧ sp.m ≤ 23 ∧ sp.bias ≤ 127 := ieee_of_ropeFmt hfd
    obtain ⟨m, hm⟩ := drawn_eq s (s.hart.descr k) (s.hart.vl k (vlmax s.hart.lanes [fa, .s32, .f32, f]))
    obtain ⟨t, ht, hw⟩ := writeElems_written (k := k) (d := m) (body := _) hc hl hn
    refine ⟨t, show execVrope k d a b x xh s = _ from
      (withFormats_runs hd rfl rfl rfl (hd.accepted.trans hok.symm)).trans (Eq.trans ?_ ht), hw⟩
    show writeElems (s.drawn _ _) k d f _ _ = _
    rw [hm]
    refine congrArg (writeElems _ k d f _) (funext fun e => ?_)
    have hrot (axis : Nat) := ropeElement_rotated (s := s) (va := a) (vb := b) (vc := x) (c := s.hart.descr k)
      (D := (s.hart.view xh).toNat) (fa := fa) (e := e) (axis := axis) hi
    dsimp only
    rw [ropeAxis_eq, hi.spec]
    by_cases h0 : e % (s.hart.view xh).toNat / 2 < s.hart.viewRope.toNat % 256
    · rw [if_pos h0, if_pos h0]
      exact hrot 0
    rw [if_neg h0, if_neg h0]
    by_cases h1 : e % (s.hart.view xh).toNat / 2 < s.hart.viewRope.toNat % 256 + s.hart.viewRope.toNat / 256 % 256
    · rw [if_pos h1, if_pos h1]
      exact hrot 1
    rw [if_neg h1, if_neg h1]
    by_cases h2 : e % (s.hart.view xh).toNat / 2 <
        s.hart.viewRope.toNat % 256 + s.hart.viewRope.toNat / 256 % 256 + s.hart.viewRope.toNat / 65536 % 256
    · rw [if_pos h2, if_pos h2]
      exact hrot 2
    rw [if_neg h2, if_neg h2]
    rfl
  | _ => cases hF

/-- Settles O8: reductions and scans, and rotations by their series. -/
theorem reductionsScansRotationsWriteElements : Obligations.ReductionsScansRotationsWriteElements :=
  ⟨reductionsWriteElementZero, scansWriteRunningSums, rotationsWritePairs⟩

end Sys2Proof.Machine
end
